-- ==== Sys2Proof/Word.lean ====
section
/-! DEFINITION. The word types of the machine and their plainest arithmetic (R4: little endian, bit 0 least significant). -/
namespace Sys2Proof

/-- A 64-bit value: a scalar register, a command register, a location of memory. -/
abbrev Word := BitVec 64
/-- A vector register: 512 bytes (R318). -/
abbrev VWord := BitVec 4096
/-- An element predicate register of 1 024 bits (R319, Table 7.4). -/
abbrev PWord := BitVec 1024
/-- A bypass latch of 512 bits (R281). -/
abbrev LWord := BitVec 512
/-- An accumulator row of 256 f32 elements (R184). -/
abbrev RowWord := BitVec 8192
/-- One byte. -/
abbrev Byte := BitVec 8

end Sys2Proof
end

