-- ==== Sys2Proof/Syntax.lean ====
section
/-! DEFINITION. The instructions: the raw form records of the lanes (Table 12.4), and `Instr`. -/
namespace Sys2Proof

structure SR where
  pr : BitVec 6
  dst : BitVec 7
  ws : BitVec 1
  sa : BitVec 7
  sb : BitVec 7
  nf : BitVec 1
  fn : BitVec 3
deriving DecidableEq, Repr

structure SI where
  pr : BitVec 6
  dst : BitVec 7
  ws : BitVec 1
  sa : BitVec 7
  imm : BitVec 11
deriving DecidableEq, Repr

structure SL where
  pr : BitVec 6
  dst : BitVec 7
  ws : BitVec 1
  imm : BitVec 18
deriving DecidableEq, Repr

structure SC where
  pr : BitVec 6
  tgt : BitVec 16
  sa : BitVec 7
  fn : BitVec 3
deriving DecidableEq, Repr

/-- VR; the VI form keeps its 7-bit immediate in `sb`. -/
structure VR where
  pr : BitVec 6
  dst : BitVec 7
  ws : BitVec 1
  sa : BitVec 7
  sb : BitVec 7
  ty : BitVec 4
  ep : BitVec 4
  nf : BitVec 1
  fn : BitVec 4
deriving DecidableEq, Repr

structure VT where
  pr : BitVec 6
  dst : BitVec 7
  ws : BitVec 1
  sa : BitVec 7
  sb : BitVec 7
  sc : BitVec 7
  ep : BitVec 4
  nf : BitVec 1
  rsvd : BitVec 1
deriving DecidableEq, Repr

structure VA where
  pr : BitVec 6
  vd : BitVec 7
  ws : BitVec 1
  tile : BitVec 2
  rs : BitVec 6
  rsvd : BitVec 10
  ep : BitVec 4
  nf : BitVec 1
  fn : BitVec 4
deriving DecidableEq, Repr

structure FA where
  pr : BitVec 6
  dst : BitVec 6
  ws : BitVec 1
  sa : BitVec 7
  ep : BitVec 4
  nf : BitVec 1
  ty : BitVec 2
deriving DecidableEq, Repr

structure FD where
  pr : BitVec 6
  dst : BitVec 6
  sa : BitVec 6
  ep : BitVec 4
  zp : BitVec 4
  nf : BitVec 1
deriving DecidableEq, Repr

structure MA where
  pr : BitVec 6
  dt : BitVec 7
  ws : BitVec 1
  bs : BitVec 6
  off : BitVec 13
deriving DecidableEq, Repr

structure MX where
  pr : BitVec 6
  dt : BitVec 7
  ws : BitVec 1
  bs : BitVec 6
  ix : BitVec 6
  fn : BitVec 7
deriving DecidableEq, Repr

structure XP where
  pr : BitVec 6
  va : BitVec 6
  vb : BitVec 6
  pa : BitVec 1
  pb : BitVec 1
deriving DecidableEq, Repr

structure XT where
  pr : BitVec 6
  tile : BitVec 2
  arg : BitVec 12
deriving DecidableEq, Repr

structure XS where
  pr : BitVec 6
  src : BitVec 6
  arg : BitVec 8
deriving DecidableEq, Repr

/-! ### Command packets, fabric packets and flits, operands of events -/

/-- A command packet of a queue: the header fields of Table 4.1 but for OP and the part of FN an opcode fixes, and the extension
units. -/
structure Pkt where
  b : BitVec 1
  rsvd7 : BitVec 1
  rd : BitVec 4
  ra : BitVec 4
  rb : BitVec 4
  xu : BitVec 3
  rsvd23 : BitVec 1
  fn : BitVec 8
  imm : BitVec 32
  ext : List Word
deriving DecidableEq, Repr

/-- What a best-effort packet of the model's own masters is for; `plain` for a packet known by its header alone (R39). -/
inductive Msg where
  | plain
  /-- request of access `id`, to its home -/
  | req (id : Nat)
  /-- answer of access `id`, to its master -/
  | ans (id : Nat)
  /-- Vent contribution: entry, instance, data (R391) -/
  | contrib (t : Nat) (inst : Nat) (data : List Word)
  /-- task-range messages of a stealing launch (R118): the sender's remaining size, a request, a refusal -/
  | size (l die n : Nat)
  | ask (l die : Nat)
  | grant (l lo hi : Nat)
  | refuse (l die : Nat)
  /-- a packet of a Vent contribution that is not its last -/
  | part
  /-- task-range messages for a spawn group (R119): a core asks for a child, is given an index, or is refused -/
  | childAsk (g core : Nat)
  | childGive (g core idx : Nat)
  | childNone (g core : Nat)
deriving DecidableEq, Repr

/-- A best-effort packet: the 256-bit header of Table 2.4, its data words, the dependency vector carried after the data (R236). -/
structure Packet where
  hdr : BitVec 256
  data : List Word
  dv : List (BitVec 32)
  msg : Msg
deriving DecidableEq, Repr

/-- The payload of a flit by FTYPE (R36, R38, R50, R51). -/
inductive Payload where
  | idle
  /-- up to 29 words of a circuit -/
  | circuit (ws : List Word)
  /-- flit k of n of a packet -/
  | best (p : Packet) (k n : Nat)
  /-- sender's die and the changed clock entries -/
  | frontier (die : Nat) (entries : List (Nat × Word))
  | control
  | tsync (stage : Nat) (t1 t2 t3 t4 : Word)
deriving DecidableEq, Repr

/-- A flit: the 48-bit link-layer field of Table 2.3 and its payload. -/
structure Flit where
  link : BitVec 48
  body : Payload
deriving DecidableEq, Repr

/-- How a flit arrives on a checked port (R37): intact, corrected by FEC, or uncorrectable. -/
inductive FlitErr where | none | corrected | bad
deriving DecidableEq, Repr

/-- Where a time-synchronisation flit comes from: the link of die 0 it came on, and its stage (R51). -/
structure SyncFrom where
  link : Nat
  stage : Nat
deriving DecidableEq, Repr

/-- A host request through BAR2 (R58): port, requester ID, PASID when the request carries one, offset, bytes, data. -/
structure HostReq where
  port : Nat
  rid : Nat
  pasid : Option Nat
  off : Nat
  n : Nat
  val : Nat
deriving DecidableEq, Repr

/-- Where a detected error is found (Table 7.5). -/
inductive ErrLoc where
  | matrix
  | registers
  /-- a scratchpad granule -/
  | granule (g : Nat)
  /-- an accumulator row -/
  | row (tile r : Nat)
  | l1 (line : Nat)
  /-- data of a Bobbin entry from L2, weight store, HBM or second tier -/
  | data (bob : Nat)
  /-- stored data of a line of HBM, second tier or weight store, or of its L2 (Table 7.5): LOC, local die, line -/
  | stored (loc die line : Nat)
  /-- the state of a block of HBM (R193): local die, block -/
  | blockState (die blk : Nat)
  | correctable
deriving DecidableEq, Repr

/-- The instructions, commands and events of spec/opcode_table.json, one constructor each. Lane operations carry the raw fields
of their form, so that a field R284 requires to be zero is judged where the operation issues (R287). -/
inductive Instr where
  | powerOnReset
  | bringupStageEnd (bad : List Nat) (fail : Option Nat)
  | pwrmodeWrite (v : Word)
  | throttleWindowStart
  | thermalSample (t : Nat)
  | registerWrite (port : Nat) (off : Nat) (n : Nat) (v : Word)
  | timeSyncSend
  | timeSyncReceive (x : SyncFrom) (t1 : Word) (t2 : Word) (t3 : Word) (t4 : Word)
  | flitReceive (die : Nat) (unit : Nat) (port : Nat) (err : FlitErr) (ext : Option Flit)
  | flitSend (die : Nat) (unit : Nat) (port : Nat)
  | slotmiss (die : Nat) (unit : Nat) (port : Nat)
  | linkTrainingComplete (die : Nat) (link : Nat) (lat : Nat)
  | linkTrainingFailure (die : Nat) (link : Nat)
  | linkRetrain (die : Nat) (link : Nat)
  | linkstatRetry (die : Nat) (link : Nat)
  | linkWake (die : Nat) (link : Nat)
  | slotTableLoadArrive (k : Nat)
  | slotTableActivate (die : Nat) (target : Nat)
  | slotTableLoadAnswer (k : Nat)
  | packetReceive (die : Nat) (p : Packet)
  | heldWriteApply (die : Nat) (k : Nat)
  | escapeChannelMove (die : Nat) (unit : Nat) (k : Nat)
  | frontierFlitSend (die : Nat) (link : Nat)
  | frontierFlitReceive (die : Nat) (entries : List (Nat × Word))
  | writeAcknowledgement (die : Nat) (seq : Nat) (nack : Bool)
  | domcfgWrite (v : Word)
  | queueEnable (q : Nat)
  | queueDisable (q : Nat)
  | queueDoorbell (q : Nat) (v : Word)
  | hostWindowRead (h : HostReq)
  | hostWindowWrite (h : HostReq)
  | hostAtomicop (h : HostReq) (op : Nat) (cmp : Nat)
  | hostHdmAccess (port : Nat) (hpa : Nat) (wr : Bool) (n : Nat) (v : Nat)
  | hdmcfgWrite (port : Nat) (v : Word)
  | shootdownStart (v : Word)
  | shootdownComplete
  | atsInvalidate (port : Nat) (pasid : Nat) (lo : Nat) (hi : Nat)
  | atsInvalidateComplete (k : Nat)
  | translationWalkComplete (core : Nat) (id : Nat)
  | frzctlResume (v : Word)
  | frzctlKill (v : Word)
  | keyLoad (v : Word)
  | keyGen (v : Word)
  | keyPlain (v : Word)
  | keyDestroy (v : Word)
  | keyDestroyDrainEnd (slot : Nat)
  | keyQuery (v : Word)
  | fwctlFuse
  | fwctlFuseDone
  | getVersion (port : Nat)
  | getCapabilities (port : Nat)
  | negotiateAlgorithms (port : Nat)
  | getDigests (port : Nat)
  | getCertificate (port : Nat) (slot : Nat) (off : Nat) (len : Nat)
  | challenge (port : Nat) (slot : Nat) (nonce : BitVec 256)
  | getMeasurements (port : Nat) (index : Nat) (nonce : BitVec 256)
  | spdmUnsupportedRequest (port : Nat)
  | queueService (q : Nat)
  | queueAccessReturn (q : Nat)
  | interruptSend (die : Nat)
  | effectiveClassAge (l : Nat)
  | admissionWindow (die : Nat)
  | stealGrantReceive (l : Nat) (die : Nat) (lo : Nat) (hi : Nat)
  | launchLoadComplete (l : Nat)
  | coreRelease (l : Nat) (die : Nat)
  | taskTake (core : Nat)
  | joinComplete (core : Nat)
  | traceRecordWrite (die : Nat)
  | bundleFetch (core : Nat)
  | resultWriteback (core : Nat)
  | loadLanding (core : Nat)
  | dataArrival (core : Nat)
  | bobbinFull (core : Nat)
  | loopBack (core : Nat)
  | streamPortFetch (core : Nat) (port : Nat)
  | streamPortDrain (core : Nat) (port : Nat)
  | channelWordArrive (core : Nat) (ch : Nat) (w : Word)
  | segmentCommit (core : Nat)
  | fenceConditionMet (core : Nat)
  | rollbackComplete (core : Nat)
  | cowLockAcquire (core : Nat)
  | detectedError (core : Nat) (loc : ErrLoc)
  | rerunPairCompare (core : Nat)
  | preemptSave (core : Nat)
  | tileFetch (core : Nat) (port : Nat)
  | weightStoreRefresh (die : Nat) (bank : Nat)
  | accessPerformedAtHome (id : Nat)
  | sinterTrapFreeze (k : Nat)
  | relayoutStart (k : Nat)
  | tileConvert (die : Nat) (eng : Nat)
  | relayoutComplete (k : Nat)
  | reshardPlan (k : Nat)
  | reshardPiece (die : Nat) (eng : Nat)
  | reshardComplete (k : Nat)
  | shuttleCommandStart (core : Nat)
  | shuttleCommandComplete (core : Nat) (ch : Nat) (id : BitVec 32)
  | ventFire (die : Nat) (t : Nat)
  | ventContributionReceive (die : Nat) (k : Nat)
  | ventContributionApply (die : Nat) (t : Nat)
  | ventGroupUpdate (k : Nat)
  | cmdNop (f : Pkt)
  | cmdLi (f : Pkt)
  | cmdLih (f : Pkt)
  | cmdAdd (f : Pkt)
  | cmdSub (f : Pkt)
  | cmdAnd (f : Pkt)
  | cmdOr (f : Pkt)
  | cmdXor (f : Pkt)
  | cmdShl (f : Pkt)
  | cmdShr (f : Pkt)
  | cmdSra (f : Pkt)
  | cmdMin (f : Pkt)
  | cmdMax (f : Pkt)
  | cmdAddi (f : Pkt)
  | cmdSubi (f : Pkt)
  | cmdAndi (f : Pkt)
  | cmdOri (f : Pkt)
  | cmdXori (f : Pkt)
  | cmdShli (f : Pkt)
  | cmdShri (f : Pkt)
  | cmdSrai (f : Pkt)
  | cmdMini (f : Pkt)
  | cmdMaxi (f : Pkt)
  | cmdLd (f : Pkt)
  | cmdSt (f : Pkt)
  | cmdBeq (f : Pkt)
  | cmdBne (f : Pkt)
  | cmdBlt (f : Pkt)
  | cmdBge (f : Pkt)
  | cmdBltu (f : Pkt)
  | cmdBgeu (f : Pkt)
  | cmdJmp (f : Pkt)
  | cmdCall (f : Pkt)
  | cmdRet (f : Pkt)
  | cmdLoop (f : Pkt)
  | cmdSigSet (f : Pkt)
  | cmdSigAdd (f : Pkt)
  | cmdSigSub (f : Pkt)
  | cmdSigMax (f : Pkt)
  | cmdSigMin (f : Pkt)
  | cmdWaitAll (f : Pkt)
  | cmdWaitAny (f : Pkt)
  | cmdGtcwait (f : Pkt)
  | cmdOnabt (f : Pkt)
  | cmdAbort (f : Pkt)
  | cmdLaunch (f : Pkt)
  | cmdLaunchN (f : Pkt)
  | cmdCopy (f : Pkt)
  | cmdFill (f : Pkt)
  | cmdShootdn (f : Pkt)
  | cmdNotify (f : Pkt)
  | cmdSlotld (f : Pkt)
  | cmdRdgtc (f : Pkt)
  | cmdFlush (f : Pkt)
  | add (f : SR)
  | sub (f : SR)
  | and (f : SR)
  | or (f : SR)
  | xor (f : SR)
  | andn (f : SR)
  | shl (f : SR)
  | shr (f : SR)
  | sra (f : SR)
  | rotl (f : SR)
  | min (f : SR)
  | max (f : SR)
  | minu (f : SR)
  | maxu (f : SR)
  | mov (f : SR)
  | mul (f : SR)
  | mulh (f : SR)
  | mulhu (f : SR)
  | div (f : SR)
  | divu (f : SR)
  | rem (f : SR)
  | remu (f : SR)
  | clz (f : SR)
  | ctz (f : SR)
  | popc (f : SR)
  | sext (f : SR)
  | zext (f : SR)
  | sel (f : SR)
  | abs (f : SR)
  | neg (f : SR)
  | bswap (f : SR)
  | addi (f : SI)
  | subi (f : SI)
  | andi (f : SI)
  | ori (f : SI)
  | xori (f : SI)
  | andni (f : SI)
  | shli (f : SI)
  | shri (f : SI)
  | srai (f : SI)
  | rotli (f : SI)
  | mini (f : SI)
  | maxi (f : SI)
  | minui (f : SI)
  | maxui (f : SI)
  | li (f : SL)
  | lis (f : SL)
  | cmp (f : SR)
  | cmpu (f : SR)
  | cmpi (f : SI)
  | fcmp (f : SR)
  | fadd (f : SR)
  | fsub (f : SR)
  | fmul (f : SR)
  | fdiv (f : SR)
  | fmin (f : SR)
  | fmax (f : SR)
  | fsqrt (f : SR)
  | fabs (f : SR)
  | fneg (f : SR)
  | fcvt (f : SR)
  | fcvti (f : SR)
  | icvtf (f : SR)
  | fclass (f : SR)
  | gand (f : SR)
  | gor (f : SR)
  | gxor (f : SR)
  | gandn (f : SR)
  | gset (f : SR)
  | csrr (f : SI)
  | csrw (f : SI)
  | csrs (f : SI)
  | csrc (f : SI)
  | br (f : SC)
  | call (f : SC)
  | ret (f : SC)
  | loop (f : SC)
  | rloop (f : SC)
  | lbreak (f : SC)
  | spawn (f : SC)
  | join (f : SC)
  | exit (f : SC)
  | exitab (f : SC)
  | trap (f : SC)
  | uiret (f : SC)
  | slotld (f : SC)
  | vAdd (f : VR)
  | vSub (f : VR)
  | vAnd (f : VR)
  | vOr (f : VR)
  | vXor (f : VR)
  | vAndn (f : VR)
  | vShl (f : VR)
  | vShr (f : VR)
  | vSra (f : VR)
  | vMin (f : VR)
  | vMax (f : VR)
  | vMinu (f : VR)
  | vMaxu (f : VR)
  | vMul (f : VR)
  | vMulh (f : VR)
  | vAdds (f : VR)
  | vSubs (f : VR)
  | vAddsu (f : VR)
  | vSubsu (f : VR)
  | vAbs (f : VR)
  | vNeg (f : VR)
  | vClz (f : VR)
  | vPopc (f : VR)
  | vMov (f : VR)
  | vBcast (f : VR)
  | vSel (f : VR)
  | vAddi (f : VR)
  | vSubi (f : VR)
  | vAndi (f : VR)
  | vOri (f : VR)
  | vXori (f : VR)
  | vAndni (f : VR)
  | vShli (f : VR)
  | vShri (f : VR)
  | vSrai (f : VR)
  | vMini (f : VR)
  | vMaxi (f : VR)
  | vMulli (f : VR)
  | vAddF (f : VR)
  | vSubF (f : VR)
  | vMulF (f : VR)
  | vMinF (f : VR)
  | vMaxF (f : VR)
  | vAbsF (f : VR)
  | vNegF (f : VR)
  | vFmaF32 (f : VT)
  | vFmaF16 (f : VT)
  | vFmaBf16 (f : VT)
  | vFmsF32 (f : VT)
  | vFmsF16 (f : VT)
  | vFmsBf16 (f : VT)
  | vCmp (f : VR)
  | vCmpu (f : VR)
  | vFcmp (f : VR)
  | vCmpi (f : VR)
  | pand (f : VR)
  | por (f : VR)
  | pxor (f : VR)
  | pandn (f : VR)
  | pset (f : VR)
  | pfirst (f : VR)
  | pcount (f : VR)
  | cvt (f : VR)
  | widen (f : VR)
  | narrow (f : VR)
  | vq8 (f : VR)
  | vdq8 (f : VR)
  | mxq (f : VR)
  | wadd (f : VR)
  | wmul (f : VR)
  | perm (f : VT)
  | zip (f : VR)
  | unzip (f : VR)
  | slide (f : VR)
  | vRot (f : VR)
  | splat (f : VR)
  | vIns (f : VR)
  | vExt (f : VR)
  | compress (f : VR)
  | expand (f : VR)
  | rev (f : VR)
  | rsum (f : VR)
  | rmax (f : VR)
  | rmin (f : VR)
  | rmaxu (f : VR)
  | rminu (f : VR)
  | rand (f : VR)
  | ror (f : VR)
  | rargmax (f : VR)
  | ard (f : VA)
  | awr (f : VA)
  | aadd (f : VA)
  | amax (f : VA)
  | ascl (f : VA)
  | vrsqs (f : FA)
  | vrcps (f : FA)
  | vexp2 (f : FA)
  | vlog2 (f : FA)
  | vlse (f : FA)
  | vtanh (f : FA)
  | vsigm (f : FA)
  | vsqrt (f : FA)
  | vdrawF32 (f : FD)
  | vdrawF16 (f : FD)
  | vdrawBf16 (f : FD)
  | vdrawm (f : FD)
  | mpush (f : XP)
  | mscaleA (f : XS)
  | mscaleB (f : XS)
  | macc (f : XT)
  | mshift (f : XT)
  | mdrain (f : XT)
  | mzero (f : XT)
  | mcfg (f : XS)
  | ldI8 (f : MA)
  | ldI16 (f : MA)
  | ldI32 (f : MA)
  | ldI64 (f : MA)
  | ldN8 (f : MA)
  | ldN16 (f : MA)
  | ldN32 (f : MA)
  | stB8 (f : MA)
  | stB16 (f : MA)
  | stB32 (f : MA)
  | stB64 (f : MA)
  | vld (f : MA)
  | vst (f : MA)
  | vldb (f : MA)
  | ldacq (f : MA)
  | vldx (f : MX)
  | vstx (f : MX)
  | gather (f : MX)
  | scatter (f : MX)
  | tld (f : MX)
  | tst (f : MX)
  | dld (f : MX)
  | devict (f : MX)
  | relay (f : MX)
  | reshard (f : MX)
  | dget (f : MX)
  | tfcfg (f : MX)
  | strel (f : MX)
  | sbind (f : MX)
  | sunbind (f : MX)
  | spos (f : MX)
  | cbind (f : MX)
  | cunbind (f : MX)
  | sfill (f : MX)
  | copy (f : MX)
  | fill (f : MX)
  | acc (f : MX)
  | accr (f : MX)
  | sigw (f : MX)
  | chdone (f : MX)
  | ventset (f : MX)
  | ventrdy (f : MX)
  | ventgrp (f : MX)
  | fence (f : MX)
  | fencex (f : MX)
  | flush (f : MX)
  | collmode (f : MX)
  | emptySlot
  | powerRemoved
deriving DecidableEq, Repr

end Sys2Proof
end

