-- ==== Sys2Proof/Decode.lean ====
section
/-! DEFINITION. The bundle, lane and command-unit encodings: decoders, total on any bits, and the encoder (Tables 4.1, 4.3, 12.1 to
12.5). A lane operation keeps its raw fields, so the decoders refuse only unassigned codes (R285, R286). -/
namespace Sys2Proof

/-! ### Forms (Table 12.4) -/

def SR.ofBits (w : BitVec 40) : SR :=
  { pr := w.extractLsb' 8 6, dst := w.extractLsb' 14 7, ws := w.extractLsb' 21 1, sa := w.extractLsb' 22 7, sb := w.extractLsb' 29 7, nf := w.extractLsb' 36 1, fn := w.extractLsb' 37 3 }
def SR.bits (op : BitVec 8) (f : SR) : BitVec 40 :=
  f.fn ++ f.nf ++ f.sb ++ f.sa ++ f.ws ++ f.dst ++ f.pr ++ op
def SI.ofBits (w : BitVec 40) : SI :=
  { pr := w.extractLsb' 8 6, dst := w.extractLsb' 14 7, ws := w.extractLsb' 21 1, sa := w.extractLsb' 22 7, imm := w.extractLsb' 29 11 }
def SI.bits (op : BitVec 8) (f : SI) : BitVec 40 :=
  f.imm ++ f.sa ++ f.ws ++ f.dst ++ f.pr ++ op
def SL.ofBits (w : BitVec 40) : SL :=
  { pr := w.extractLsb' 8 6, dst := w.extractLsb' 14 7, ws := w.extractLsb' 21 1, imm := w.extractLsb' 22 18 }
def SL.bits (op : BitVec 8) (f : SL) : BitVec 40 :=
  f.imm ++ f.ws ++ f.dst ++ f.pr ++ op
def SC.ofBits (w : BitVec 40) : SC :=
  { pr := w.extractLsb' 8 6, tgt := w.extractLsb' 14 16, sa := w.extractLsb' 30 7, fn := w.extractLsb' 37 3 }
def SC.bits (op : BitVec 8) (f : SC) : BitVec 40 :=
  f.fn ++ f.sa ++ f.tgt ++ f.pr ++ op
def VR.ofBits (w : BitVec 48) : VR :=
  { pr := w.extractLsb' 7 6, dst := w.extractLsb' 13 7, ws := w.extractLsb' 20 1, sa := w.extractLsb' 21 7, sb := w.extractLsb' 28 7, ty := w.extractLsb' 35 4, ep := w.extractLsb' 39 4, nf := w.extractLsb' 43 1, fn := w.extractLsb' 44 4 }
def VR.bits (op : BitVec 7) (f : VR) : BitVec 48 :=
  f.fn ++ f.nf ++ f.ep ++ f.ty ++ f.sb ++ f.sa ++ f.ws ++ f.dst ++ f.pr ++ op
def VT.ofBits (w : BitVec 48) : VT :=
  { pr := w.extractLsb' 7 6, dst := w.extractLsb' 13 7, ws := w.extractLsb' 20 1, sa := w.extractLsb' 21 7, sb := w.extractLsb' 28 7, sc := w.extractLsb' 35 7, ep := w.extractLsb' 42 4, nf := w.extractLsb' 46 1, rsvd := w.extractLsb' 47 1 }
def VT.bits (op : BitVec 7) (f : VT) : BitVec 48 :=
  f.rsvd ++ f.nf ++ f.ep ++ f.sc ++ f.sb ++ f.sa ++ f.ws ++ f.dst ++ f.pr ++ op
def VA.ofBits (w : BitVec 48) : VA :=
  { pr := w.extractLsb' 7 6, vd := w.extractLsb' 13 7, ws := w.extractLsb' 20 1, tile := w.extractLsb' 21 2, rs := w.extractLsb' 23 6, rsvd := w.extractLsb' 29 10, ep := w.extractLsb' 39 4, nf := w.extractLsb' 43 1, fn := w.extractLsb' 44 4 }
def VA.bits (op : BitVec 7) (f : VA) : BitVec 48 :=
  f.fn ++ f.nf ++ f.ep ++ f.rsvd ++ f.rs ++ f.tile ++ f.ws ++ f.vd ++ f.pr ++ op
def FA.ofBits (w : BitVec 32) : FA :=
  { pr := w.extractLsb' 5 6, dst := w.extractLsb' 11 6, ws := w.extractLsb' 17 1, sa := w.extractLsb' 18 7, ep := w.extractLsb' 25 4, nf := w.extractLsb' 29 1, ty := w.extractLsb' 30 2 }
def FA.bits (op : BitVec 5) (f : FA) : BitVec 32 :=
  f.ty ++ f.nf ++ f.ep ++ f.sa ++ f.ws ++ f.dst ++ f.pr ++ op
def FD.ofBits (w : BitVec 32) : FD :=
  { pr := w.extractLsb' 5 6, dst := w.extractLsb' 11 6, sa := w.extractLsb' 17 6, ep := w.extractLsb' 23 4, zp := w.extractLsb' 27 4, nf := w.extractLsb' 31 1 }
def FD.bits (op : BitVec 5) (f : FD) : BitVec 32 :=
  f.nf ++ f.zp ++ f.ep ++ f.sa ++ f.dst ++ f.pr ++ op
def MA.ofBits (w : BitVec 40) : MA :=
  { pr := w.extractLsb' 7 6, dt := w.extractLsb' 13 7, ws := w.extractLsb' 20 1, bs := w.extractLsb' 21 6, off := w.extractLsb' 27 13 }
def MA.bits (op : BitVec 7) (f : MA) : BitVec 40 :=
  f.off ++ f.bs ++ f.ws ++ f.dt ++ f.pr ++ op
def MX.ofBits (w : BitVec 40) : MX :=
  { pr := w.extractLsb' 7 6, dt := w.extractLsb' 13 7, ws := w.extractLsb' 20 1, bs := w.extractLsb' 21 6, ix := w.extractLsb' 27 6, fn := w.extractLsb' 33 7 }
def MX.bits (op : BitVec 7) (f : MX) : BitVec 40 :=
  f.fn ++ f.ix ++ f.bs ++ f.ws ++ f.dt ++ f.pr ++ op
def XP.ofBits (w : BitVec 24) : XP :=
  { pr := w.extractLsb' 4 6, va := w.extractLsb' 10 6, vb := w.extractLsb' 16 6, pa := w.extractLsb' 22 1, pb := w.extractLsb' 23 1 }
def XP.bits (op : BitVec 4) (f : XP) : BitVec 24 :=
  f.pb ++ f.pa ++ f.vb ++ f.va ++ f.pr ++ op
def XT.ofBits (w : BitVec 24) : XT :=
  { pr := w.extractLsb' 4 6, tile := w.extractLsb' 10 2, arg := w.extractLsb' 12 12 }
def XT.bits (op : BitVec 4) (f : XT) : BitVec 24 :=
  f.arg ++ f.tile ++ f.pr ++ op
def XS.ofBits (w : BitVec 24) : XS :=
  { pr := w.extractLsb' 4 6, src := w.extractLsb' 10 6, arg := w.extractLsb' 16 8 }
def XS.bits (op : BitVec 4) (f : XS) : BitVec 24 :=
  f.arg ++ f.src ++ f.pr ++ op

/-! ### Lanes (Table 12.5) -/

/-- The empty slot: an opcode field of zero (R279). -/
def emptyOr (op : Nat) (r : Option Instr) : Option Instr := if op = 0 then some .emptySlot else r

/-- Codes of both S lanes. -/
def decodeSCommon (w : BitVec 40) : Option Instr :=
  match (w.extractLsb' 0 8).toNat with
  | 0x01 => some (.add (SR.ofBits w))
  | 0x02 => some (.sub (SR.ofBits w))
  | 0x03 => some (.and (SR.ofBits w))
  | 0x04 => some (.or (SR.ofBits w))
  | 0x05 => some (.xor (SR.ofBits w))
  | 0x06 => some (.andn (SR.ofBits w))
  | 0x07 => some (.shl (SR.ofBits w))
  | 0x08 => some (.shr (SR.ofBits w))
  | 0x09 => some (.sra (SR.ofBits w))
  | 0x0A => some (.rotl (SR.ofBits w))
  | 0x0B => some (.min (SR.ofBits w))
  | 0x0C => some (.max (SR.ofBits w))
  | 0x0D => some (.minu (SR.ofBits w))
  | 0x0E => some (.maxu (SR.ofBits w))
  | 0x0F => some (.mov (SR.ofBits w))
  | 0x10 => some (.mul (SR.ofBits w))
  | 0x11 => some (.mulh (SR.ofBits w))
  | 0x12 => some (.mulhu (SR.ofBits w))
  | 0x13 => some (.div (SR.ofBits w))
  | 0x14 => some (.divu (SR.ofBits w))
  | 0x15 => some (.rem (SR.ofBits w))
  | 0x16 => some (.remu (SR.ofBits w))
  | 0x17 => some (.clz (SR.ofBits w))
  | 0x18 => some (.ctz (SR.ofBits w))
  | 0x19 => some (.popc (SR.ofBits w))
  | 0x1A => some (.sext (SR.ofBits w))
  | 0x1B => some (.zext (SR.ofBits w))
  | 0x1C => some (.sel (SR.ofBits w))
  | 0x1D => some (.abs (SR.ofBits w))
  | 0x1E => some (.neg (SR.ofBits w))
  | 0x1F => some (.bswap (SR.ofBits w))
  | 0x21 => some (.addi (SI.ofBits w))
  | 0x22 => some (.subi (SI.ofBits w))
  | 0x23 => some (.andi (SI.ofBits w))
  | 0x24 => some (.ori (SI.ofBits w))
  | 0x25 => some (.xori (SI.ofBits w))
  | 0x26 => some (.andni (SI.ofBits w))
  | 0x27 => some (.shli (SI.ofBits w))
  | 0x28 => some (.shri (SI.ofBits w))
  | 0x29 => some (.srai (SI.ofBits w))
  | 0x2A => some (.rotli (SI.ofBits w))
  | 0x2B => some (.mini (SI.ofBits w))
  | 0x2C => some (.maxi (SI.ofBits w))
  | 0x2D => some (.minui (SI.ofBits w))
  | 0x2E => some (.maxui (SI.ofBits w))
  | 0x30 => some (.li (SL.ofBits w))
  | 0x31 => some (.lis (SL.ofBits w))
  | 0x38 => some (.cmp (SR.ofBits w))
  | 0x39 => some (.cmpu (SR.ofBits w))
  | 0x3A => some (.cmpi (SI.ofBits w))
  | 0x3B => some (.fcmp (SR.ofBits w))
  | 0x40 => some (.fadd (SR.ofBits w))
  | 0x41 => some (.fsub (SR.ofBits w))
  | 0x42 => some (.fmul (SR.ofBits w))
  | 0x43 => some (.fdiv (SR.ofBits w))
  | 0x44 => some (.fmin (SR.ofBits w))
  | 0x45 => some (.fmax (SR.ofBits w))
  | 0x46 => some (.fsqrt (SR.ofBits w))
  | 0x47 => some (.fabs (SR.ofBits w))
  | 0x48 => some (.fneg (SR.ofBits w))
  | 0x49 => some (.fcvt (SR.ofBits w))
  | 0x4A => some (.fcvti (SR.ofBits w))
  | 0x4B => some (.icvtf (SR.ofBits w))
  | 0x4C => some (.fclass (SR.ofBits w))
  | 0x50 => some (.gand (SR.ofBits w))
  | 0x51 => some (.gor (SR.ofBits w))
  | 0x52 => some (.gxor (SR.ofBits w))
  | 0x53 => some (.gandn (SR.ofBits w))
  | 0x54 => some (.gset (SR.ofBits w))
  | 0x60 => some (.csrr (SI.ofBits w))
  | 0x61 => some (.csrw (SI.ofBits w))
  | 0x62 => some (.csrs (SI.ofBits w))
  | 0x63 => some (.csrc (SI.ofBits w))
  | _ => none

/-- Codes of S0 alone. -/
def decodeS0Only (w : BitVec 40) : Option Instr :=
  match (w.extractLsb' 0 8).toNat with
  | 0xC0 => some (.br (SC.ofBits w))
  | 0xC1 => some (.call (SC.ofBits w))
  | 0xC2 => some (.ret (SC.ofBits w))
  | 0xC3 => some (.loop (SC.ofBits w))
  | 0xC4 => some (.rloop (SC.ofBits w))
  | 0xC5 => some (.lbreak (SC.ofBits w))
  | 0xC8 => some (.spawn (SC.ofBits w))
  | 0xC9 => some (.join (SC.ofBits w))
  | 0xCA => some (.exit (SC.ofBits w))
  | 0xCB => some (.exitab (SC.ofBits w))
  | 0xCC => some (.trap (SC.ofBits w))
  | 0xCD => some (.uiret (SC.ofBits w))
  | 0xCE => some (.slotld (SC.ofBits w))
  | _ => none

/-- Codes of the three V lanes. -/
noncomputable def decodeVCommon (w : BitVec 48) : Option Instr :=
  match (w.extractLsb' 0 7).toNat with
  | 0x01 => some (.vAdd (VR.ofBits w))
  | 0x02 => some (.vSub (VR.ofBits w))
  | 0x03 => some (.vAnd (VR.ofBits w))
  | 0x04 => some (.vOr (VR.ofBits w))
  | 0x05 => some (.vXor (VR.ofBits w))
  | 0x06 => some (.vAndn (VR.ofBits w))
  | 0x07 => some (.vShl (VR.ofBits w))
  | 0x08 => some (.vShr (VR.ofBits w))
  | 0x09 => some (.vSra (VR.ofBits w))
  | 0x0A => some (.vMin (VR.ofBits w))
  | 0x0B => some (.vMax (VR.ofBits w))
  | 0x0C => some (.vMinu (VR.ofBits w))
  | 0x0D => some (.vMaxu (VR.ofBits w))
  | 0x0E => some (.vMul (VR.ofBits w))
  | 0x0F => some (.vMulh (VR.ofBits w))
  | 0x10 => some (.vAdds (VR.ofBits w))
  | 0x11 => some (.vSubs (VR.ofBits w))
  | 0x12 => some (.vAddsu (VR.ofBits w))
  | 0x13 => some (.vSubsu (VR.ofBits w))
  | 0x14 => some (.vAbs (VR.ofBits w))
  | 0x15 => some (.vNeg (VR.ofBits w))
  | 0x16 => some (.vClz (VR.ofBits w))
  | 0x17 => some (.vPopc (VR.ofBits w))
  | 0x18 => some (.vMov (VR.ofBits w))
  | 0x19 => some (.vBcast (VR.ofBits w))
  | 0x1A => some (.vSel (VR.ofBits w))
  | 0x21 => some (.vAddi (VR.ofBits w))
  | 0x22 => some (.vSubi (VR.ofBits w))
  | 0x23 => some (.vAndi (VR.ofBits w))
  | 0x24 => some (.vOri (VR.ofBits w))
  | 0x25 => some (.vXori (VR.ofBits w))
  | 0x26 => some (.vAndni (VR.ofBits w))
  | 0x27 => some (.vShli (VR.ofBits w))
  | 0x28 => some (.vShri (VR.ofBits w))
  | 0x29 => some (.vSrai (VR.ofBits w))
  | 0x2A => some (.vMini (VR.ofBits w))
  | 0x2B => some (.vMaxi (VR.ofBits w))
  | 0x2C => some (.vMulli (VR.ofBits w))
  | 0x30 => some (.vAddF (VR.ofBits w))
  | 0x31 => some (.vSubF (VR.ofBits w))
  | 0x32 => some (.vMulF (VR.ofBits w))
  | 0x33 => some (.vMinF (VR.ofBits w))
  | 0x34 => some (.vMaxF (VR.ofBits w))
  | 0x35 => some (.vAbsF (VR.ofBits w))
  | 0x36 => some (.vNegF (VR.ofBits w))
  | 0x38 => some (.vFmaF32 (VT.ofBits w))
  | 0x39 => some (.vFmaF16 (VT.ofBits w))
  | 0x3A => some (.vFmaBf16 (VT.ofBits w))
  | 0x3B => some (.vFmsF32 (VT.ofBits w))
  | 0x3C => some (.vFmsF16 (VT.ofBits w))
  | 0x3D => some (.vFmsBf16 (VT.ofBits w))
  | 0x40 => some (.vCmp (VR.ofBits w))
  | 0x41 => some (.vCmpu (VR.ofBits w))
  | 0x42 => some (.vFcmp (VR.ofBits w))
  | 0x43 => some (.vCmpi (VR.ofBits w))
  | 0x48 => some (.pand (VR.ofBits w))
  | 0x49 => some (.por (VR.ofBits w))
  | 0x4A => some (.pxor (VR.ofBits w))
  | 0x4B => some (.pandn (VR.ofBits w))
  | 0x4C => some (.pset (VR.ofBits w))
  | 0x4D => some (.pfirst (VR.ofBits w))
  | 0x4E => some (.pcount (VR.ofBits w))
  | 0x50 => some (.cvt (VR.ofBits w))
  | 0x51 => some (.widen (VR.ofBits w))
  | 0x52 => some (.narrow (VR.ofBits w))
  | 0x53 => some (.vq8 (VR.ofBits w))
  | 0x54 => some (.vdq8 (VR.ofBits w))
  | 0x55 => some (.mxq (VR.ofBits w))
  | 0x56 => some (.wadd (VR.ofBits w))
  | 0x57 => some (.wmul (VR.ofBits w))
  | 0x60 => some (.perm (VT.ofBits w))
  | 0x61 => some (.zip (VR.ofBits w))
  | 0x62 => some (.unzip (VR.ofBits w))
  | 0x63 => some (.slide (VR.ofBits w))
  | 0x64 => some (.vRot (VR.ofBits w))
  | 0x65 => some (.splat (VR.ofBits w))
  | 0x66 => some (.vIns (VR.ofBits w))
  | 0x67 => some (.vExt (VR.ofBits w))
  | 0x68 => some (.compress (VR.ofBits w))
  | 0x69 => some (.expand (VR.ofBits w))
  | 0x6A => some (.rev (VR.ofBits w))
  | 0x70 => some (.rsum (VR.ofBits w))
  | 0x71 => some (.rmax (VR.ofBits w))
  | 0x72 => some (.rmin (VR.ofBits w))
  | 0x73 => some (.rmaxu (VR.ofBits w))
  | 0x74 => some (.rminu (VR.ofBits w))
  | 0x75 => some (.rand (VR.ofBits w))
  | 0x76 => some (.ror (VR.ofBits w))
  | 0x77 => some (.rargmax (VR.ofBits w))
  | _ => none

/-- Codes of V2 alone. -/
noncomputable def decodeV2Only (w : BitVec 48) : Option Instr :=
  match (w.extractLsb' 0 7).toNat with
  | 0x78 => some (.ard (VA.ofBits w))
  | 0x79 => some (.awr (VA.ofBits w))
  | 0x7A => some (.aadd (VA.ofBits w))
  | 0x7B => some (.amax (VA.ofBits w))
  | 0x7C => some (.ascl (VA.ofBits w))
  | _ => none

/-- Codes of the F lane. -/
noncomputable def decodeFLane (w : BitVec 32) : Option Instr :=
  match (w.extractLsb' 0 5).toNat with
  | 0x01 => some (.vrsqs (FA.ofBits w))
  | 0x02 => some (.vrcps (FA.ofBits w))
  | 0x03 => some (.vexp2 (FA.ofBits w))
  | 0x04 => some (.vlog2 (FA.ofBits w))
  | 0x05 => some (.vlse (FA.ofBits w))
  | 0x06 => some (.vtanh (FA.ofBits w))
  | 0x07 => some (.vsigm (FA.ofBits w))
  | 0x08 => some (.vsqrt (FA.ofBits w))
  | 0x10 => some (.vdrawF32 (FD.ofBits w))
  | 0x11 => some (.vdrawF16 (FD.ofBits w))
  | 0x12 => some (.vdrawBf16 (FD.ofBits w))
  | 0x13 => some (.vdrawm (FD.ofBits w))
  | _ => none

/-- Codes of the M lanes. -/
noncomputable def decodeMLane (w : BitVec 40) : Option Instr :=
  match (w.extractLsb' 0 7).toNat with
  | 0x01 => some (.ldI8 (MA.ofBits w))
  | 0x02 => some (.ldI16 (MA.ofBits w))
  | 0x03 => some (.ldI32 (MA.ofBits w))
  | 0x04 => some (.ldI64 (MA.ofBits w))
  | 0x05 => some (.ldN8 (MA.ofBits w))
  | 0x06 => some (.ldN16 (MA.ofBits w))
  | 0x07 => some (.ldN32 (MA.ofBits w))
  | 0x08 => some (.stB8 (MA.ofBits w))
  | 0x09 => some (.stB16 (MA.ofBits w))
  | 0x0A => some (.stB32 (MA.ofBits w))
  | 0x0B => some (.stB64 (MA.ofBits w))
  | 0x0C => some (.vld (MA.ofBits w))
  | 0x0D => some (.vst (MA.ofBits w))
  | 0x0E => some (.vldb (MA.ofBits w))
  | 0x0F => some (.ldacq (MA.ofBits w))
  | 0x10 => some (.vldx (MX.ofBits w))
  | 0x11 => some (.vstx (MX.ofBits w))
  | 0x12 => some (.gather (MX.ofBits w))
  | 0x13 => some (.scatter (MX.ofBits w))
  | 0x14 => some (.tld (MX.ofBits w))
  | 0x15 => some (.tst (MX.ofBits w))
  | 0x16 => some (.dld (MX.ofBits w))
  | 0x17 => some (.devict (MX.ofBits w))
  | 0x18 => some (.relay (MX.ofBits w))
  | 0x19 => some (.reshard (MX.ofBits w))
  | 0x1A => some (.dget (MX.ofBits w))
  | 0x1B => some (.tfcfg (MX.ofBits w))
  | 0x1C => some (.strel (MX.ofBits w))
  | 0x20 => some (.sbind (MX.ofBits w))
  | 0x21 => some (.sunbind (MX.ofBits w))
  | 0x22 => some (.spos (MX.ofBits w))
  | 0x23 => some (.cbind (MX.ofBits w))
  | 0x24 => some (.cunbind (MX.ofBits w))
  | 0x25 => some (.sfill (MX.ofBits w))
  | 0x30 => some (.copy (MX.ofBits w))
  | 0x31 => some (.fill (MX.ofBits w))
  | 0x32 => some (.acc (MX.ofBits w))
  | 0x33 => some (.accr (MX.ofBits w))
  | 0x34 => some (.sigw (MX.ofBits w))
  | 0x35 => some (.chdone (MX.ofBits w))
  | 0x36 => some (.ventset (MX.ofBits w))
  | 0x37 => some (.ventrdy (MX.ofBits w))
  | 0x38 => some (.ventgrp (MX.ofBits w))
  | 0x40 => some (.fence (MX.ofBits w))
  | 0x41 => some (.fencex (MX.ofBits w))
  | 0x42 => some (.flush (MX.ofBits w))
  | 0x43 => some (.collmode (MX.ofBits w))
  | _ => none

/-- Codes of the X lane. mscale names its side in ARG bit 0 (R345). -/
noncomputable def decodeXLane (w : BitVec 24) : Option Instr :=
  match (w.extractLsb' 0 4).toNat with
  | 0x01 => some (.mpush (XP.ofBits w))
  | 0x02 => some (if w.getLsbD 16 then .mscaleB (XS.ofBits w) else .mscaleA (XS.ofBits w))
  | 0x03 => some (.macc (XT.ofBits w))
  | 0x04 => some (.mshift (XT.ofBits w))
  | 0x05 => some (.mdrain (XT.ofBits w))
  | 0x06 => some (.mzero (XT.ofBits w))
  | 0x07 => some (.mcfg (XS.ofBits w))
  | _ => none

def orElse (a b : Option Instr) : Option Instr := match a with | some i => some i | none => b

def decodeS0 (w : BitVec 40) : Option Instr := emptyOr (w.extractLsb' 0 8).toNat (orElse (decodeSCommon w) (decodeS0Only w))
def decodeS1 (w : BitVec 40) : Option Instr := emptyOr (w.extractLsb' 0 8).toNat (decodeSCommon w)
noncomputable def decodeV01 (w : BitVec 48) : Option Instr := emptyOr (w.extractLsb' 0 7).toNat (decodeVCommon w)
noncomputable def decodeV2 (w : BitVec 48) : Option Instr := emptyOr (w.extractLsb' 0 7).toNat (orElse (decodeVCommon w) (decodeV2Only w))
noncomputable def decodeF (w : BitVec 32) : Option Instr := emptyOr (w.extractLsb' 0 5).toNat (decodeFLane w)
noncomputable def decodeM (w : BitVec 40) : Option Instr := emptyOr (w.extractLsb' 0 7).toNat (decodeMLane w)
noncomputable def decodeX (w : BitVec 24) : Option Instr := emptyOr (w.extractLsb' 0 4).toNat (decodeXLane w)

/-! ### Bundles (Tables 12.1, 12.2) -/

def bundleSync (b : BitVec 384) : Bool := b.getLsbD 0
def bundleCkpt (b : BitVec 384) : Bool := b.getLsbD 1
def bundleLate (b : BitVec 384) : Nat := (b.extractLsb' 2 12).toNat
def bundleRsvd (b : BitVec 384) : BitVec 10 := b.extractLsb' 14 10

/-- First bit and width of a lane field; lane codes 0 to 8 are S0, S1, V0, V1, V2, F, M0, M1, X (Table 7.2). -/
def laneField (lane : Nat) : Nat × Nat :=
  match lane with
  | 0 => (24, 40) | 1 => (64, 40) | 2 => (104, 48) | 3 => (152, 48) | 4 => (200, 48) | 5 => (248, 32) | 6 => (280, 40)
  | 7 => (320, 40) | _ => (360, 24)

/-- The instruction in a lane field; none for an unassigned code. -/
noncomputable def decodeLane (lane : Nat) (bits : BitVec 48) : Option Instr :=
  match lane with
  | 0 => decodeS0 (bits.setWidth 40) | 1 => decodeS1 (bits.setWidth 40)
  | 2 => decodeV01 bits | 3 => decodeV01 bits | 4 => decodeV2 bits
  | 5 => decodeF (bits.setWidth 32) | 6 => decodeM (bits.setWidth 40) | 7 => decodeM (bits.setWidth 40)
  | _ => decodeX (bits.setWidth 24)

/-- The instruction lane `lane` of a bundle holds. -/
noncomputable def bundleLane (b : BitVec 384) (lane : Nat) : Option Instr :=
  let (lo, n) := laneField lane
  decodeLane lane ((b.extractLsb' lo 48) &&& BitVec.ofNat 48 (2 ^ n - 1))

/-- Is a code assigned in a lane (Table 12.5)? -/
def opAssigned (lane op : Nat) : Bool :=
  let r := fun (l : List (Nat × Nat)) => l.any fun p => decide (p.1 ≤ op) && decide (op ≤ p.2)
  let s := r [(0, 0x1F), (0x21, 0x2E), (0x30, 0x31), (0x38, 0x3B), (0x40, 0x4C), (0x50, 0x54), (0x60, 0x63)]
  let v := r [(0, 0x1A), (0x21, 0x2C), (0x30, 0x36), (0x38, 0x3D), (0x40, 0x43), (0x48, 0x4E), (0x50, 0x57), (0x60, 0x6A), (0x70, 0x77)]
  match lane with
  | 0 => s || r [(0xC0, 0xC5), (0xC8, 0xCE)] | 1 => s
  | 2 => v | 3 => v | 4 => v || r [(0x78, 0x7C)]
  | 5 => r [(0, 8), (0x10, 0x13)]
  | 6 => r [(0, 0x1C), (0x20, 0x25), (0x30, 0x38), (0x40, 0x43)] | 7 => r [(0, 0x1C), (0x20, 0x25), (0x30, 0x38), (0x40, 0x43)]
  | _ => r [(0, 7)]

/-- Width of a lane's opcode field. -/
def opWidth (lane : Nat) : Nat := if lane ≤ 1 then 8 else if lane ≤ 4 then 7 else if lane = 5 then 5 else if lane ≤ 7 then 7 else 4

/-- The opcode a lane of a bundle holds. -/
def laneOp (b : BitVec 384) (lane : Nat) : Nat := (b.extractLsb' (laneField lane).1 (opWidth lane)).toNat

/-- The fault of R286 in a bundle: LANE code 15 for header bits, else the first lane with an unassigned opcode. -/
def bundleFault (b : BitVec 384) : Option Nat :=
  if bundleRsvd b ≠ 0 then some 15 else (List.range 9).find? fun l => !opAssigned l (laneOp b l)

/-! ### Command units (Tables 4.1, 4.3) -/

/-- How a command header decodes: to an instruction, to an unassigned opcode (BAD_OP), or to an FN its opcode does not have
(BAD_FIELD). -/
inductive CmdDecode where | ok (i : Instr) | badOp | badField
deriving DecidableEq, Repr

/-- The fields of a header unit, with its extension units. -/
def Pkt.ofUnits (h : Word) (ext : List Word) : Pkt :=
  { b := h.extractLsb' 6 1, rsvd7 := h.extractLsb' 7 1, rd := h.extractLsb' 8 4, ra := h.extractLsb' 12 4, rb := h.extractLsb' 16 4
    xu := h.extractLsb' 20 3, rsvd23 := h.extractLsb' 23 1, fn := h.extractLsb' 24 8, imm := h.extractLsb' 32 32, ext := ext }
def Pkt.header (op : BitVec 6) (f : Pkt) : Word :=
  f.imm ++ f.fn ++ f.rsvd23 ++ f.xu ++ f.rb ++ f.ra ++ f.rd ++ f.rsvd7 ++ f.b ++ op
/-- XU of a header unit. -/
def unitXu (h : Word) : Nat := (h.extractLsb' 20 3).toNat

/-- The packet that begins with header unit `h`. -/
def decodeCmd (h : Word) (ext : List Word) : CmdDecode :=
  let f := Pkt.ofUnits h ext
  let fn := (h.extractLsb' 24 8).toNat
  match (h.extractLsb' 0 6).toNat with
  | 0x00 => if fn = 0 then .ok (.cmdNop f) else .badField
  | 0x01 => if fn = 0 then .ok (.cmdLi f) else .badField
  | 0x02 => if fn = 0 then .ok (.cmdLih f) else .badField
  | 0x03 => match fn with
    | 0 => .ok (.cmdAdd f) | 1 => .ok (.cmdSub f) | 2 => .ok (.cmdAnd f) | 3 => .ok (.cmdOr f) | 4 => .ok (.cmdXor f) | 5 => .ok (.cmdShl f) | 6 => .ok (.cmdShr f) | 7 => .ok (.cmdSra f) | 8 => .ok (.cmdMin f) | 9 => .ok (.cmdMax f) | _ => .badField
  | 0x04 => match fn with
    | 0 => .ok (.cmdAddi f) | 1 => .ok (.cmdSubi f) | 2 => .ok (.cmdAndi f) | 3 => .ok (.cmdOri f) | 4 => .ok (.cmdXori f) | 5 => .ok (.cmdShli f) | 6 => .ok (.cmdShri f) | 7 => .ok (.cmdSrai f) | 8 => .ok (.cmdMini f) | 9 => .ok (.cmdMaxi f) | _ => .badField
  | 0x05 => if fn = 0 then .ok (.cmdLd f) else .badField
  | 0x06 => if fn = 0 then .ok (.cmdSt f) else .badField
  | 0x08 => match fn with
    | 0 => .ok (.cmdBeq f) | 1 => .ok (.cmdBne f) | 2 => .ok (.cmdBlt f) | 3 => .ok (.cmdBge f) | 4 => .ok (.cmdBltu f) | 5 => .ok (.cmdBgeu f) | _ => .badField
  | 0x09 => if fn = 0 then .ok (.cmdJmp f) else .badField
  | 0x0A => if fn = 0 then .ok (.cmdCall f) else .badField
  | 0x0B => if fn = 0 then .ok (.cmdRet f) else .badField
  | 0x0C => if fn = 0 then .ok (.cmdLoop f) else .badField
  | 0x10 => match fn with
    | 0 => .ok (.cmdSigSet f) | 1 => .ok (.cmdSigAdd f) | 2 => .ok (.cmdSigSub f) | 3 => .ok (.cmdSigMax f) | 4 => .ok (.cmdSigMin f) | _ => .badField
  | 0x11 => if fn < 4 then .ok (.cmdWaitAll f) else if fn < 8 then .ok (.cmdWaitAny f) else .badField
  | 0x12 => if fn = 0 then .ok (.cmdGtcwait f) else .badField
  | 0x13 => if fn = 0 then .ok (.cmdOnabt f) else .badField
  | 0x14 => if fn = 0 then .ok (.cmdAbort f) else .badField
  | 0x18 => match fn with
    | 0 => .ok (.cmdLaunch f) | 1 => .ok (.cmdLaunchN f) | _ => .badField
  | 0x19 => if fn = 0 then .ok (.cmdCopy f) else .badField
  | 0x1A => if fn = 0 then .ok (.cmdFill f) else .badField
  | 0x1B => if fn = 0 then .ok (.cmdShootdn f) else .badField
  | 0x1C => if fn = 0 then .ok (.cmdNotify f) else .badField
  | 0x1D => if fn = 0 then .ok (.cmdSlotld f) else .badField
  | 0x1E => if fn = 0 then .ok (.cmdRdgtc f) else .badField
  | 0x1F => if fn = 0 then .ok (.cmdFlush f) else .badField
  | _ => .badOp

/-! ### The encoder -/

/-- What an instruction is written as: a lane field, command units; a device event has no encoding. -/
inductive Enc where
  | s (w : BitVec 40) | v (w : BitVec 48) | f (w : BitVec 32) | m (w : BitVec 40) | x (w : BitVec 24)
  | cmd (units : List Word) | event
deriving DecidableEq, Repr

/-- The words of an instruction. -/
def encode (i : Instr) : Enc :=
  match i with
  | .powerOnReset => .event
  | .bringupStageEnd _ _ => .event
  | .pwrmodeWrite _ => .event
  | .throttleWindowStart => .event
  | .thermalSample _ => .event
  | .registerWrite _ _ _ _ => .event
  | .timeSyncSend => .event
  | .timeSyncReceive _ _ _ _ _ => .event
  | .flitReceive _ _ _ _ _ => .event
  | .flitSend _ _ _ => .event
  | .slotmiss _ _ _ => .event
  | .linkTrainingComplete _ _ _ => .event
  | .linkTrainingFailure _ _ => .event
  | .linkRetrain _ _ => .event
  | .linkstatRetry _ _ => .event
  | .linkWake _ _ => .event
  | .slotTableLoadArrive _ => .event
  | .slotTableActivate _ _ => .event
  | .slotTableLoadAnswer _ => .event
  | .packetReceive _ _ => .event
  | .heldWriteApply _ _ => .event
  | .escapeChannelMove _ _ _ => .event
  | .frontierFlitSend _ _ => .event
  | .frontierFlitReceive _ _ => .event
  | .writeAcknowledgement _ _ _ => .event
  | .domcfgWrite _ => .event
  | .queueEnable _ => .event
  | .queueDisable _ => .event
  | .queueDoorbell _ _ => .event
  | .hostWindowRead _ => .event
  | .hostWindowWrite _ => .event
  | .hostAtomicop _ _ _ => .event
  | .hostHdmAccess _ _ _ _ _ => .event
  | .hdmcfgWrite _ _ => .event
  | .shootdownStart _ => .event
  | .shootdownComplete => .event
  | .atsInvalidate _ _ _ _ => .event
  | .atsInvalidateComplete _ => .event
  | .translationWalkComplete _ _ => .event
  | .frzctlResume _ => .event
  | .frzctlKill _ => .event
  | .keyLoad _ => .event
  | .keyGen _ => .event
  | .keyPlain _ => .event
  | .keyDestroy _ => .event
  | .keyDestroyDrainEnd _ => .event
  | .keyQuery _ => .event
  | .fwctlFuse => .event
  | .fwctlFuseDone => .event
  | .getVersion _ => .event
  | .getCapabilities _ => .event
  | .negotiateAlgorithms _ => .event
  | .getDigests _ => .event
  | .getCertificate _ _ _ _ => .event
  | .challenge _ _ _ => .event
  | .getMeasurements _ _ _ => .event
  | .spdmUnsupportedRequest _ => .event
  | .queueService _ => .event
  | .queueAccessReturn _ => .event
  | .interruptSend _ => .event
  | .effectiveClassAge _ => .event
  | .admissionWindow _ => .event
  | .stealGrantReceive _ _ _ _ => .event
  | .launchLoadComplete _ => .event
  | .coreRelease _ _ => .event
  | .taskTake _ => .event
  | .joinComplete _ => .event
  | .traceRecordWrite _ => .event
  | .bundleFetch _ => .event
  | .resultWriteback _ => .event
  | .loadLanding _ => .event
  | .dataArrival _ => .event
  | .bobbinFull _ => .event
  | .loopBack _ => .event
  | .streamPortFetch _ _ => .event
  | .streamPortDrain _ _ => .event
  | .channelWordArrive _ _ _ => .event
  | .segmentCommit _ => .event
  | .fenceConditionMet _ => .event
  | .rollbackComplete _ => .event
  | .cowLockAcquire _ => .event
  | .detectedError _ _ => .event
  | .rerunPairCompare _ => .event
  | .preemptSave _ => .event
  | .tileFetch _ _ => .event
  | .weightStoreRefresh _ _ => .event
  | .accessPerformedAtHome _ => .event
  | .sinterTrapFreeze _ => .event
  | .relayoutStart _ => .event
  | .tileConvert _ _ => .event
  | .relayoutComplete _ => .event
  | .reshardPlan _ => .event
  | .reshardPiece _ _ => .event
  | .reshardComplete _ => .event
  | .shuttleCommandStart _ => .event
  | .shuttleCommandComplete _ _ _ => .event
  | .ventFire _ _ => .event
  | .ventContributionReceive _ _ => .event
  | .ventContributionApply _ _ => .event
  | .ventGroupUpdate _ => .event
  | .cmdNop f => .cmd (Pkt.header 0x00 f :: f.ext)
  | .cmdLi f => .cmd (Pkt.header 0x01 f :: f.ext)
  | .cmdLih f => .cmd (Pkt.header 0x02 f :: f.ext)
  | .cmdAdd f => .cmd (Pkt.header 0x03 f :: f.ext)
  | .cmdSub f => .cmd (Pkt.header 0x03 f :: f.ext)
  | .cmdAnd f => .cmd (Pkt.header 0x03 f :: f.ext)
  | .cmdOr f => .cmd (Pkt.header 0x03 f :: f.ext)
  | .cmdXor f => .cmd (Pkt.header 0x03 f :: f.ext)
  | .cmdShl f => .cmd (Pkt.header 0x03 f :: f.ext)
  | .cmdShr f => .cmd (Pkt.header 0x03 f :: f.ext)
  | .cmdSra f => .cmd (Pkt.header 0x03 f :: f.ext)
  | .cmdMin f => .cmd (Pkt.header 0x03 f :: f.ext)
  | .cmdMax f => .cmd (Pkt.header 0x03 f :: f.ext)
  | .cmdAddi f => .cmd (Pkt.header 0x04 f :: f.ext)
  | .cmdSubi f => .cmd (Pkt.header 0x04 f :: f.ext)
  | .cmdAndi f => .cmd (Pkt.header 0x04 f :: f.ext)
  | .cmdOri f => .cmd (Pkt.header 0x04 f :: f.ext)
  | .cmdXori f => .cmd (Pkt.header 0x04 f :: f.ext)
  | .cmdShli f => .cmd (Pkt.header 0x04 f :: f.ext)
  | .cmdShri f => .cmd (Pkt.header 0x04 f :: f.ext)
  | .cmdSrai f => .cmd (Pkt.header 0x04 f :: f.ext)
  | .cmdMini f => .cmd (Pkt.header 0x04 f :: f.ext)
  | .cmdMaxi f => .cmd (Pkt.header 0x04 f :: f.ext)
  | .cmdLd f => .cmd (Pkt.header 0x05 f :: f.ext)
  | .cmdSt f => .cmd (Pkt.header 0x06 f :: f.ext)
  | .cmdBeq f => .cmd (Pkt.header 0x08 f :: f.ext)
  | .cmdBne f => .cmd (Pkt.header 0x08 f :: f.ext)
  | .cmdBlt f => .cmd (Pkt.header 0x08 f :: f.ext)
  | .cmdBge f => .cmd (Pkt.header 0x08 f :: f.ext)
  | .cmdBltu f => .cmd (Pkt.header 0x08 f :: f.ext)
  | .cmdBgeu f => .cmd (Pkt.header 0x08 f :: f.ext)
  | .cmdJmp f => .cmd (Pkt.header 0x09 f :: f.ext)
  | .cmdCall f => .cmd (Pkt.header 0x0A f :: f.ext)
  | .cmdRet f => .cmd (Pkt.header 0x0B f :: f.ext)
  | .cmdLoop f => .cmd (Pkt.header 0x0C f :: f.ext)
  | .cmdSigSet f => .cmd (Pkt.header 0x10 f :: f.ext)
  | .cmdSigAdd f => .cmd (Pkt.header 0x10 f :: f.ext)
  | .cmdSigSub f => .cmd (Pkt.header 0x10 f :: f.ext)
  | .cmdSigMax f => .cmd (Pkt.header 0x10 f :: f.ext)
  | .cmdSigMin f => .cmd (Pkt.header 0x10 f :: f.ext)
  | .cmdWaitAll f => .cmd (Pkt.header 0x11 f :: f.ext)
  | .cmdWaitAny f => .cmd (Pkt.header 0x11 f :: f.ext)
  | .cmdGtcwait f => .cmd (Pkt.header 0x12 f :: f.ext)
  | .cmdOnabt f => .cmd (Pkt.header 0x13 f :: f.ext)
  | .cmdAbort f => .cmd (Pkt.header 0x14 f :: f.ext)
  | .cmdLaunch f => .cmd (Pkt.header 0x18 f :: f.ext)
  | .cmdLaunchN f => .cmd (Pkt.header 0x18 f :: f.ext)
  | .cmdCopy f => .cmd (Pkt.header 0x19 f :: f.ext)
  | .cmdFill f => .cmd (Pkt.header 0x1A f :: f.ext)
  | .cmdShootdn f => .cmd (Pkt.header 0x1B f :: f.ext)
  | .cmdNotify f => .cmd (Pkt.header 0x1C f :: f.ext)
  | .cmdSlotld f => .cmd (Pkt.header 0x1D f :: f.ext)
  | .cmdRdgtc f => .cmd (Pkt.header 0x1E f :: f.ext)
  | .cmdFlush f => .cmd (Pkt.header 0x1F f :: f.ext)
  | .add f => .s (SR.bits 0x01 f)
  | .sub f => .s (SR.bits 0x02 f)
  | .and f => .s (SR.bits 0x03 f)
  | .or f => .s (SR.bits 0x04 f)
  | .xor f => .s (SR.bits 0x05 f)
  | .andn f => .s (SR.bits 0x06 f)
  | .shl f => .s (SR.bits 0x07 f)
  | .shr f => .s (SR.bits 0x08 f)
  | .sra f => .s (SR.bits 0x09 f)
  | .rotl f => .s (SR.bits 0x0A f)
  | .min f => .s (SR.bits 0x0B f)
  | .max f => .s (SR.bits 0x0C f)
  | .minu f => .s (SR.bits 0x0D f)
  | .maxu f => .s (SR.bits 0x0E f)
  | .mov f => .s (SR.bits 0x0F f)
  | .mul f => .s (SR.bits 0x10 f)
  | .mulh f => .s (SR.bits 0x11 f)
  | .mulhu f => .s (SR.bits 0x12 f)
  | .div f => .s (SR.bits 0x13 f)
  | .divu f => .s (SR.bits 0x14 f)
  | .rem f => .s (SR.bits 0x15 f)
  | .remu f => .s (SR.bits 0x16 f)
  | .clz f => .s (SR.bits 0x17 f)
  | .ctz f => .s (SR.bits 0x18 f)
  | .popc f => .s (SR.bits 0x19 f)
  | .sext f => .s (SR.bits 0x1A f)
  | .zext f => .s (SR.bits 0x1B f)
  | .sel f => .s (SR.bits 0x1C f)
  | .abs f => .s (SR.bits 0x1D f)
  | .neg f => .s (SR.bits 0x1E f)
  | .bswap f => .s (SR.bits 0x1F f)
  | .addi f => .s (SI.bits 0x21 f)
  | .subi f => .s (SI.bits 0x22 f)
  | .andi f => .s (SI.bits 0x23 f)
  | .ori f => .s (SI.bits 0x24 f)
  | .xori f => .s (SI.bits 0x25 f)
  | .andni f => .s (SI.bits 0x26 f)
  | .shli f => .s (SI.bits 0x27 f)
  | .shri f => .s (SI.bits 0x28 f)
  | .srai f => .s (SI.bits 0x29 f)
  | .rotli f => .s (SI.bits 0x2A f)
  | .mini f => .s (SI.bits 0x2B f)
  | .maxi f => .s (SI.bits 0x2C f)
  | .minui f => .s (SI.bits 0x2D f)
  | .maxui f => .s (SI.bits 0x2E f)
  | .li f => .s (SL.bits 0x30 f)
  | .lis f => .s (SL.bits 0x31 f)
  | .cmp f => .s (SR.bits 0x38 f)
  | .cmpu f => .s (SR.bits 0x39 f)
  | .cmpi f => .s (SI.bits 0x3A f)
  | .fcmp f => .s (SR.bits 0x3B f)
  | .fadd f => .s (SR.bits 0x40 f)
  | .fsub f => .s (SR.bits 0x41 f)
  | .fmul f => .s (SR.bits 0x42 f)
  | .fdiv f => .s (SR.bits 0x43 f)
  | .fmin f => .s (SR.bits 0x44 f)
  | .fmax f => .s (SR.bits 0x45 f)
  | .fsqrt f => .s (SR.bits 0x46 f)
  | .fabs f => .s (SR.bits 0x47 f)
  | .fneg f => .s (SR.bits 0x48 f)
  | .fcvt f => .s (SR.bits 0x49 f)
  | .fcvti f => .s (SR.bits 0x4A f)
  | .icvtf f => .s (SR.bits 0x4B f)
  | .fclass f => .s (SR.bits 0x4C f)
  | .gand f => .s (SR.bits 0x50 f)
  | .gor f => .s (SR.bits 0x51 f)
  | .gxor f => .s (SR.bits 0x52 f)
  | .gandn f => .s (SR.bits 0x53 f)
  | .gset f => .s (SR.bits 0x54 f)
  | .csrr f => .s (SI.bits 0x60 f)
  | .csrw f => .s (SI.bits 0x61 f)
  | .csrs f => .s (SI.bits 0x62 f)
  | .csrc f => .s (SI.bits 0x63 f)
  | .br f => .s (SC.bits 0xC0 f)
  | .call f => .s (SC.bits 0xC1 f)
  | .ret f => .s (SC.bits 0xC2 f)
  | .loop f => .s (SC.bits 0xC3 f)
  | .rloop f => .s (SC.bits 0xC4 f)
  | .lbreak f => .s (SC.bits 0xC5 f)
  | .spawn f => .s (SC.bits 0xC8 f)
  | .join f => .s (SC.bits 0xC9 f)
  | .exit f => .s (SC.bits 0xCA f)
  | .exitab f => .s (SC.bits 0xCB f)
  | .trap f => .s (SC.bits 0xCC f)
  | .uiret f => .s (SC.bits 0xCD f)
  | .slotld f => .s (SC.bits 0xCE f)
  | .vAdd f => .v (VR.bits 0x01 f)
  | .vSub f => .v (VR.bits 0x02 f)
  | .vAnd f => .v (VR.bits 0x03 f)
  | .vOr f => .v (VR.bits 0x04 f)
  | .vXor f => .v (VR.bits 0x05 f)
  | .vAndn f => .v (VR.bits 0x06 f)
  | .vShl f => .v (VR.bits 0x07 f)
  | .vShr f => .v (VR.bits 0x08 f)
  | .vSra f => .v (VR.bits 0x09 f)
  | .vMin f => .v (VR.bits 0x0A f)
  | .vMax f => .v (VR.bits 0x0B f)
  | .vMinu f => .v (VR.bits 0x0C f)
  | .vMaxu f => .v (VR.bits 0x0D f)
  | .vMul f => .v (VR.bits 0x0E f)
  | .vMulh f => .v (VR.bits 0x0F f)
  | .vAdds f => .v (VR.bits 0x10 f)
  | .vSubs f => .v (VR.bits 0x11 f)
  | .vAddsu f => .v (VR.bits 0x12 f)
  | .vSubsu f => .v (VR.bits 0x13 f)
  | .vAbs f => .v (VR.bits 0x14 f)
  | .vNeg f => .v (VR.bits 0x15 f)
  | .vClz f => .v (VR.bits 0x16 f)
  | .vPopc f => .v (VR.bits 0x17 f)
  | .vMov f => .v (VR.bits 0x18 f)
  | .vBcast f => .v (VR.bits 0x19 f)
  | .vSel f => .v (VR.bits 0x1A f)
  | .vAddi f => .v (VR.bits 0x21 f)
  | .vSubi f => .v (VR.bits 0x22 f)
  | .vAndi f => .v (VR.bits 0x23 f)
  | .vOri f => .v (VR.bits 0x24 f)
  | .vXori f => .v (VR.bits 0x25 f)
  | .vAndni f => .v (VR.bits 0x26 f)
  | .vShli f => .v (VR.bits 0x27 f)
  | .vShri f => .v (VR.bits 0x28 f)
  | .vSrai f => .v (VR.bits 0x29 f)
  | .vMini f => .v (VR.bits 0x2A f)
  | .vMaxi f => .v (VR.bits 0x2B f)
  | .vMulli f => .v (VR.bits 0x2C f)
  | .vAddF f => .v (VR.bits 0x30 f)
  | .vSubF f => .v (VR.bits 0x31 f)
  | .vMulF f => .v (VR.bits 0x32 f)
  | .vMinF f => .v (VR.bits 0x33 f)
  | .vMaxF f => .v (VR.bits 0x34 f)
  | .vAbsF f => .v (VR.bits 0x35 f)
  | .vNegF f => .v (VR.bits 0x36 f)
  | .vFmaF32 f => .v (VT.bits 0x38 f)
  | .vFmaF16 f => .v (VT.bits 0x39 f)
  | .vFmaBf16 f => .v (VT.bits 0x3A f)
  | .vFmsF32 f => .v (VT.bits 0x3B f)
  | .vFmsF16 f => .v (VT.bits 0x3C f)
  | .vFmsBf16 f => .v (VT.bits 0x3D f)
  | .vCmp f => .v (VR.bits 0x40 f)
  | .vCmpu f => .v (VR.bits 0x41 f)
  | .vFcmp f => .v (VR.bits 0x42 f)
  | .vCmpi f => .v (VR.bits 0x43 f)
  | .pand f => .v (VR.bits 0x48 f)
  | .por f => .v (VR.bits 0x49 f)
  | .pxor f => .v (VR.bits 0x4A f)
  | .pandn f => .v (VR.bits 0x4B f)
  | .pset f => .v (VR.bits 0x4C f)
  | .pfirst f => .v (VR.bits 0x4D f)
  | .pcount f => .v (VR.bits 0x4E f)
  | .cvt f => .v (VR.bits 0x50 f)
  | .widen f => .v (VR.bits 0x51 f)
  | .narrow f => .v (VR.bits 0x52 f)
  | .vq8 f => .v (VR.bits 0x53 f)
  | .vdq8 f => .v (VR.bits 0x54 f)
  | .mxq f => .v (VR.bits 0x55 f)
  | .wadd f => .v (VR.bits 0x56 f)
  | .wmul f => .v (VR.bits 0x57 f)
  | .perm f => .v (VT.bits 0x60 f)
  | .zip f => .v (VR.bits 0x61 f)
  | .unzip f => .v (VR.bits 0x62 f)
  | .slide f => .v (VR.bits 0x63 f)
  | .vRot f => .v (VR.bits 0x64 f)
  | .splat f => .v (VR.bits 0x65 f)
  | .vIns f => .v (VR.bits 0x66 f)
  | .vExt f => .v (VR.bits 0x67 f)
  | .compress f => .v (VR.bits 0x68 f)
  | .expand f => .v (VR.bits 0x69 f)
  | .rev f => .v (VR.bits 0x6A f)
  | .rsum f => .v (VR.bits 0x70 f)
  | .rmax f => .v (VR.bits 0x71 f)
  | .rmin f => .v (VR.bits 0x72 f)
  | .rmaxu f => .v (VR.bits 0x73 f)
  | .rminu f => .v (VR.bits 0x74 f)
  | .rand f => .v (VR.bits 0x75 f)
  | .ror f => .v (VR.bits 0x76 f)
  | .rargmax f => .v (VR.bits 0x77 f)
  | .ard f => .v (VA.bits 0x78 f)
  | .awr f => .v (VA.bits 0x79 f)
  | .aadd f => .v (VA.bits 0x7A f)
  | .amax f => .v (VA.bits 0x7B f)
  | .ascl f => .v (VA.bits 0x7C f)
  | .vrsqs f => .f (FA.bits 0x01 f)
  | .vrcps f => .f (FA.bits 0x02 f)
  | .vexp2 f => .f (FA.bits 0x03 f)
  | .vlog2 f => .f (FA.bits 0x04 f)
  | .vlse f => .f (FA.bits 0x05 f)
  | .vtanh f => .f (FA.bits 0x06 f)
  | .vsigm f => .f (FA.bits 0x07 f)
  | .vsqrt f => .f (FA.bits 0x08 f)
  | .vdrawF32 f => .f (FD.bits 0x10 f)
  | .vdrawF16 f => .f (FD.bits 0x11 f)
  | .vdrawBf16 f => .f (FD.bits 0x12 f)
  | .vdrawm f => .f (FD.bits 0x13 f)
  | .mpush f => .x (XP.bits 0x01 f)
  | .mscaleA f => .x (XS.bits 0x02 f)
  | .mscaleB f => .x (XS.bits 0x02 f)
  | .macc f => .x (XT.bits 0x03 f)
  | .mshift f => .x (XT.bits 0x04 f)
  | .mdrain f => .x (XT.bits 0x05 f)
  | .mzero f => .x (XT.bits 0x06 f)
  | .mcfg f => .x (XS.bits 0x07 f)
  | .ldI8 f => .m (MA.bits 0x01 f)
  | .ldI16 f => .m (MA.bits 0x02 f)
  | .ldI32 f => .m (MA.bits 0x03 f)
  | .ldI64 f => .m (MA.bits 0x04 f)
  | .ldN8 f => .m (MA.bits 0x05 f)
  | .ldN16 f => .m (MA.bits 0x06 f)
  | .ldN32 f => .m (MA.bits 0x07 f)
  | .stB8 f => .m (MA.bits 0x08 f)
  | .stB16 f => .m (MA.bits 0x09 f)
  | .stB32 f => .m (MA.bits 0x0A f)
  | .stB64 f => .m (MA.bits 0x0B f)
  | .vld f => .m (MA.bits 0x0C f)
  | .vst f => .m (MA.bits 0x0D f)
  | .vldb f => .m (MA.bits 0x0E f)
  | .ldacq f => .m (MA.bits 0x0F f)
  | .vldx f => .m (MX.bits 0x10 f)
  | .vstx f => .m (MX.bits 0x11 f)
  | .gather f => .m (MX.bits 0x12 f)
  | .scatter f => .m (MX.bits 0x13 f)
  | .tld f => .m (MX.bits 0x14 f)
  | .tst f => .m (MX.bits 0x15 f)
  | .dld f => .m (MX.bits 0x16 f)
  | .devict f => .m (MX.bits 0x17 f)
  | .relay f => .m (MX.bits 0x18 f)
  | .reshard f => .m (MX.bits 0x19 f)
  | .dget f => .m (MX.bits 0x1A f)
  | .tfcfg f => .m (MX.bits 0x1B f)
  | .strel f => .m (MX.bits 0x1C f)
  | .sbind f => .m (MX.bits 0x20 f)
  | .sunbind f => .m (MX.bits 0x21 f)
  | .spos f => .m (MX.bits 0x22 f)
  | .cbind f => .m (MX.bits 0x23 f)
  | .cunbind f => .m (MX.bits 0x24 f)
  | .sfill f => .m (MX.bits 0x25 f)
  | .copy f => .m (MX.bits 0x30 f)
  | .fill f => .m (MX.bits 0x31 f)
  | .acc f => .m (MX.bits 0x32 f)
  | .accr f => .m (MX.bits 0x33 f)
  | .sigw f => .m (MX.bits 0x34 f)
  | .chdone f => .m (MX.bits 0x35 f)
  | .ventset f => .m (MX.bits 0x36 f)
  | .ventrdy f => .m (MX.bits 0x37 f)
  | .ventgrp f => .m (MX.bits 0x38 f)
  | .fence f => .m (MX.bits 0x40 f)
  | .fencex f => .m (MX.bits 0x41 f)
  | .flush f => .m (MX.bits 0x42 f)
  | .collmode f => .m (MX.bits 0x43 f)
  | .emptySlot => .s 0
  | .powerRemoved => .event

/-- Decode what `encode` writes. -/
noncomputable def decodeEnc (e : Enc) : Option Instr :=
  match e with
  | .s w => decodeS0 w | .v w => decodeV2 w | .f w => decodeF w | .m w => decodeM w | .x w => decodeX w
  | .cmd [] => none
  | .cmd (h :: t) => match decodeCmd h t with | .ok i => some i | _ => none
  | .event => none

/-- The decoder as the opcode table numbers its rows: rows of up to 24 bits are X-lane fields, up to 32 bits F-lane fields; up to 40 bits
are read as an S0 field, up to 48 bits as a V2 field, more as the header unit of a command whose extension units are zero. -/
noncomputable def decodeTableWord (nbits w : Nat) : Option Instr :=
  if nbits ≤ 24 then decodeX (BitVec.ofNat 24 w)
  else if nbits ≤ 32 then decodeF (BitVec.ofNat 32 w)
  else if nbits ≤ 40 then decodeS0 (BitVec.ofNat 40 w)
  else if nbits ≤ 48 then decodeV2 (BitVec.ofNat 48 w)
  else decodeEnc (.cmd (BitVec.ofNat 64 w :: List.replicate (unitXu (BitVec.ofNat 64 w)) 0))

end Sys2Proof
end

