-- ==== Sys2Proof/Machine/FMap.lean ====
section
/-! DEFINITION. Sparse data by key as sorted lists of pairs: `FMap` (register files, tables) and `Memory` (bytes, canonical
form: addresses strictly rising, no entry equal to the zero an unlisted address reads as). Byte order (R4) is decided here once. -/
namespace Sys2Proof.Machine

/-- A finite map as an association list; an unlisted key reads as the default the reader names. -/
abbrev FMap (α : Type) := List (Nat × α)

/-- The value at key `i`, or `d`. -/
def FMap.get {α : Type} (d : α) : FMap α → Nat → α
  | [], _ => d
  | (k, v) :: t, i => if k = i then v else FMap.get d t i

/-- The value at key `i`, if listed. -/
def FMap.find {α : Type} : FMap α → Nat → Option α
  | [], _ => none
  | (k, v) :: t, i => if k = i then some v else FMap.find t i

/-- Write `v` at key `i`, keeping ascending keys ascending. -/
def FMap.put {α : Type} : FMap α → Nat → α → FMap α
  | [], i, v => [(i, v)]
  | (k, w) :: t, i, v =>
    if i < k then (i, v) :: (k, w) :: t
    else if i = k then (i, v) :: t
    else (k, w) :: FMap.put t i v

/-- Drop every entry of key `i`. -/
def FMap.erase {α : Type} : FMap α → Nat → FMap α
  | [], _ => []
  | (k, v) :: t, i => if k = i then FMap.erase t i else (k, v) :: FMap.erase t i

/-- Write `v` at key `i`, dropping the entry when `v` is the default. -/
def FMap.set {α : Type} [DecidableEq α] (d : α) (m : FMap α) (i : Nat) (v : α) : FMap α :=
  if v = d then FMap.erase m i else FMap.put m i v

/-- Byte memory: a canonical list of cells; an unlisted address reads as zero (R31 after module initialisation). -/
abbrev Memory := List Host.Cell

/-- One byte of memory. -/
def Memory.read (m : Memory) (a : Nat) : Byte := FMap.get (0 : Byte) m a

/-- Write one byte. -/
def Memory.write (m : Memory) (a : Nat) (b : Byte) : Memory := FMap.set (0 : Byte) m a b

/-- The canonical form, as a Bool: keys strictly rising above `lo`, and no zero byte listed. -/
def Memory.wfFrom : Nat → Memory → Bool
  | _, [] => true
  | lo, (k, v) :: t => decide (lo ≤ k) && decide (v ≠ 0) && Memory.wfFrom (k + 1) t

/-- The canonical form of a whole memory. -/
def Memory.wf (m : Memory) : Bool := Memory.wfFrom 0 m

/-- `n` bytes from `a`, as a number, little endian (R4). -/
def Memory.readN (m : Memory) (a : Nat) : Nat → Nat
  | 0 => 0
  | n + 1 => (Memory.read m a).toNat + 256 * Memory.readN m (a + 1) n

/-- Write `n` bytes of `v` from `a`, little endian (R4). -/
def Memory.writeN (m : Memory) (a : Nat) : Nat → Nat → Memory
  | 0, _ => m
  | n + 1, v => Memory.writeN (Memory.write m a (BitVec.ofNat 8 v)) (a + 1) n (v / 256)

/-- Write those of `n` bytes whose bit of `en` is set (bit i governs byte i). -/
def Memory.writeEn (m : Memory) (a : Nat) : Nat → Nat → Nat → Memory
  | 0, _, _ => m
  | n + 1, en, v =>
    Memory.writeEn (if en % 2 = 1 then Memory.write m a (BitVec.ofNat 8 v) else m) (a + 1) n (en / 2) (v / 256)

end Sys2Proof.Machine
end

