-- ==== Sys2Proof/Machine/Num.lean ====
section
/-! DEFINITION. Number formats, exact reals and rounding (R252 to R263, R269, R271): the shared functions round, sat, dgen. -/
namespace Sys2Proof.Machine

/-- An exact value: NaN, an infinity, or the dyadic (−1)^neg × m × 2^e (m = 0 is a signed zero). -/
inductive XR where
  | nan
  | inf (neg : Bool)
  | fin (neg : Bool) (m : Nat) (e : Int)
deriving DecidableEq, Repr

/-- The IEEE flags as R264 codes them: [0] invalid, [1] division by zero, [2] overflow, [3] underflow, [4] inexact. -/
abbrev FlagBits := BitVec 5
def flInvalid : FlagBits := 1
def flDiv0 : FlagBits := 2
def flOverflow : FlagBits := 4
def flUnderflow : FlagBits := 8
def flInexact : FlagBits := 16

/-- A floating-point format of Table 11.1. -/
structure FFmt where
  eb : Nat
  mb : Nat
  bias : Nat
  /-- Code of the largest finite value, sign bit left out. -/
  maxCode : Nat
  hasInf : Bool
  /-- The canonical NaN; none for e2m1. -/
  nanCode : Option Nat
  isE2m1 : Bool
deriving DecidableEq, Repr

def f32 : FFmt := ⟨8, 23, 127, 0x7F7FFFFF, true, some 0x7FC00000, false⟩
def f16 : FFmt := ⟨5, 10, 15, 0x7BFF, true, some 0x7E00, false⟩
def bf16 : FFmt := ⟨8, 7, 127, 0x7F7F, true, some 0x7FC0, false⟩
def e4m3 : FFmt := ⟨4, 3, 7, 0x7E, false, some 0x7F, false⟩
def e5m2 : FFmt := ⟨5, 2, 15, 0x7B, true, some 0x7E, false⟩
def e2m1 : FFmt := ⟨2, 1, 1, 0x7, false, none, true⟩

/-- Width of a format in bits. -/
def FFmt.width (f : FFmt) : Nat := 1 + f.eb + f.mb
/-- Exponent of the least normal value. -/
def FFmt.emin (f : FFmt) : Int := 1 - (f.bias : Int)

/-- The value of an encoding (R252). -/
def FFmt.decode (f : FFmt) (x : Nat) : XR :=
  let neg := x / 2 ^ (f.eb + f.mb) % 2 = 1
  let ef := x / 2 ^ f.mb % 2 ^ f.eb
  let m := x % 2 ^ f.mb
  if f.hasInf ∧ ef = 2 ^ f.eb - 1 then (if m = 0 then .inf neg else .nan)
  else if ¬ f.hasInf ∧ ¬ f.isE2m1 ∧ ef = 2 ^ f.eb - 1 ∧ m = 2 ^ f.mb - 1 then .nan
  else if ef = 0 then .fin neg m (f.emin - f.mb)
  else .fin neg (2 ^ f.mb + m) ((ef : Int) - f.bias - f.mb)

/-- A signalling NaN: a NaN of f32, f16 or bf16 whose top fraction bit is 0 (R253). -/
def FFmt.snan (f : FFmt) (x : Nat) : Bool :=
  (f = f32 ∨ f = f16 ∨ f = bf16) ∧ f.decode x = .nan ∧ x / 2 ^ (f.mb - 1) % 2 = 0

/-- invalid for a signalling NaN operand (R253). -/
def FFmt.snanFlag (f : FFmt) (x : Nat) : FlagBits := if f.snan x then flInvalid else 0

def XR.isNan : XR → Bool | .nan => true | _ => false
def XR.isInf : XR → Bool | .inf _ => true | _ => false
def XR.isZero : XR → Bool | .fin _ m _ => m = 0 | _ => false
def XR.sign : XR → Bool | .nan => false | .inf n => n | .fin n _ _ => n
def XR.neg : XR → XR | .nan => .nan | .inf n => .inf !n | .fin n m e => .fin (!n) m e
def XR.abs : XR → XR | .nan => .nan | .inf _ => .inf false | .fin _ m e => .fin false m e
def XR.zero (neg : Bool) : XR := .fin neg 0 0
def XR.ofInt (i : Int) : XR := .fin (i < 0) i.natAbs 0
def XR.one : XR := .fin false 1 0

/-- Rounding modes of Table 11.3 that round treats (SR has its own function, R262). -/
inductive RMode where | rne | rtz | rdn | rup
deriving DecidableEq, Repr

def RMode.ofCode (n : Nat) : RMode := if n = 1 then .rtz else if n = 2 then .rdn else if n = 3 then .rup else .rne

/-- floor(m × 2^e / 2^q) with the exact remainder compared with one half:
(n, 0 exact, 1 below half, 2 half, 3 above half). -/
def scaleTo (m : Nat) (e q : Int) : Nat × Nat :=
  if q ≤ e then (m * 2 ^ (e - q).toNat, 0)
  else
    let s := (q - e).toNat
    let n := m >>> s
    let r := m - n <<< s
    if r = 0 then (n, 0)
    else if 2 * r < 1 <<< s then (n, 1) else if 2 * r = 1 <<< s then (n, 2) else (n, 3)

/-- One rounding step of R261 on a magnitude with remainder class r. -/
def bump (mode : RMode) (neg : Bool) (n r : Nat) : Nat :=
  match mode with
  | .rne => if r = 3 ∨ (r = 2 ∧ n % 2 = 1) then n + 1 else n
  | .rtz => n
  | .rdn => if neg ∧ r ≠ 0 then n + 1 else n
  | .rup => if ¬ neg ∧ r ≠ 0 then n + 1 else n

/-- Signed code: the sign bit above magnitude code c. -/
def FFmt.signed (f : FFmt) (neg : Bool) (c : Nat) : Nat := (if neg then 2 ^ (f.eb + f.mb) else 0) + c
def FFmt.infCode (f : FFmt) : Nat := (2 ^ f.eb - 1) * 2 ^ f.mb

/-- round(x, f, mode, satf) of R261: the encoding and the flags raised. -/
def round (f : FFmt) (mode : RMode) (satf : Bool) (x : XR) : Nat × FlagBits :=
  match x with
  | .nan => match f.nanCode with
    | none => (0, flInvalid)
    | some c => (c, 0)
  | .inf neg =>
    if f.hasInf ∧ ¬ satf then (f.signed neg f.infCode, 0)
    else if satf ∨ f.isE2m1 then (f.signed neg f.maxCode, 0)
    else (f.nanCode.getD 0, flInvalid)
  | .fin neg m e =>
    if m = 0 then (f.signed neg 0, 0)
    else
      let lg : Int := (Nat.log2 m : Int) + e
      let q : Int := max lg f.emin - f.mb
      let (n0, r) := scaleTo m e q
      let n := bump mode neg n0 r
      -- magnitude code: n < 2^mb subnormal, otherwise exponent field q + mb + bias and fraction
      let code := if n < 2 ^ f.mb then n else (q + f.mb + f.bias).toNat * 2 ^ f.mb + n - 2 ^ f.mb
      let fl : FlagBits := if r = 0 then 0 else flInexact ||| (if lg < f.emin then flUnderflow else 0)
      if code > f.maxCode then
        let fl := fl ||| flOverflow ||| flInexact
        if satf ∨ f.isE2m1 then (f.signed neg f.maxCode, fl)
        else if ¬ f.hasInf then (f.nanCode.getD 0, fl)
        else if mode = .rtz ∨ (mode = .rdn ∧ ¬ neg) ∨ (mode = .rup ∧ neg) then (f.signed neg f.maxCode, fl)
        else (f.signed neg f.infCode, fl)
      else (f.signed neg code, fl)

/-- round_rne(x, f) (R261). -/
def roundRne (f : FFmt) (x : XR) : Nat × FlagBits := round f .rne false x

/-- sat(v, lo, hi) (R261). -/
def sat (v lo hi : Int) : Int := if v < lo then lo else if v > hi then hi else v

/-- Nearest integer by the rounding mode, and whether it was inexact. -/
def roundInt (mode : RMode) (neg : Bool) (m : Nat) (e : Int) : Int :=
  let (n, r) := scaleTo m e 0
  let n := bump mode neg n r
  if neg then -(n : Int) else n

/-- Float to an integer type of range lo..hi (R261): the value and the flags. Inexact is raised when the exact value is no
integer and no invalid is raised; an out-of-range result raises invalid alone (a DEDUCED reading, log 12). -/
def toIntRange (mode : RMode) (lo hi : Int) (x : XR) : Int × FlagBits :=
  match x with
  | .nan => (0, flInvalid)
  | .inf neg => (if neg then lo else hi, flInvalid)
  | .fin neg m e =>
    let v := roundInt mode neg m e
    if v < lo ∨ v > hi then (sat v lo hi, flInvalid)
    else (v, if (scaleTo m e 0).2 = 0 then 0 else flInexact)

/-! ### Exact arithmetic -/

/-- Two finite values over their common exponent. -/
def XR.align (m1 : Nat) (e1 : Int) (m2 : Nat) (e2 : Int) : Nat × Nat × Int :=
  let e := min e1 e2
  (m1 * 2 ^ (e1 - e).toNat, m2 * 2 ^ (e2 - e).toNat, e)

/-- Exact sum with the sign rule of R261 for an exact zero: −0 only when both addends are −0. The Bool reports an invalid
operation (+∞ + −∞). -/
def XR.add (a b : XR) : XR × Bool :=
  match a, b with
  | .nan, _ => (.nan, false)
  | _, .nan => (.nan, false)
  | .inf x, .inf y => if x = y then (.inf x, false) else (.nan, true)
  | .inf x, _ => (.inf x, false)
  | _, .inf y => (.inf y, false)
  | .fin n1 m1 e1, .fin n2 m2 e2 =>
    if m1 = 0 ∧ m2 = 0 then (.zero (n1 && n2), false)
    else if m1 = 0 then (b, false)
    else if m2 = 0 then (a, false)
    else
      let (x, y, e) := XR.align m1 e1 m2 e2
      if n1 = n2 then (.fin n1 (x + y) e, false)
      else if x = y then (.zero false, false)
      else if x > y then (.fin n1 (x - y) e, false)
      else (.fin n2 (y - x) e, false)

/-- Exact product; the Bool reports 0 × ∞. -/
def XR.mul (a b : XR) : XR × Bool :=
  match a, b with
  | .nan, _ => (.nan, false)
  | _, .nan => (.nan, false)
  | .inf x, .inf y => (.inf (x != y), false)
  | .inf x, .fin y m _ => if m = 0 then (.nan, true) else (.inf (x != y), false)
  | .fin y m _, .inf x => if m = 0 then (.nan, true) else (.inf (x != y), false)
  | .fin n1 m1 e1, .fin n2 m2 e2 => (.fin (n1 != n2) (m1 * m2) (e1 + e2), false)

/-- n / d with `k` extra bits and a sticky last bit: rounds as the exact quotient does for every format of the device,
because the kept bits exceed its precision. -/
def divSticky (n d : Nat) (k : Nat) : Nat :=
  let t := n <<< k
  let q := t / d
  2 * q + (if t % d = 0 then 0 else 1)

/-- Exact-enough quotient (sticky form); the flags: division by zero, invalid (R302, Table 13.2). -/
def XR.div (a b : XR) : XR × FlagBits :=
  match a, b with
  | .nan, _ => (.nan, 0)
  | _, .nan => (.nan, 0)
  | .inf _, .inf _ => (.nan, flInvalid)
  | .inf x, .fin y _ _ => (.inf (x != y), 0)
  | .fin x _ _, .inf y => (.zero (x != y), 0)
  | .fin n1 m1 e1, .fin n2 m2 e2 =>
    if m2 = 0 then (if m1 = 0 then (.nan, flInvalid) else (.inf (n1 != n2), flDiv0))
    else if m1 = 0 then (.zero (n1 != n2), 0)
    else
      let k := 80 + Nat.log2 m2
      (.fin (n1 != n2) (divSticky m1 m2 k) (e1 - e2 - k - 1), 0)

/-- Integer square root by binary digits: the greatest r below 2^n with r² ≤ v. -/
def isqrt (v : Nat) : Nat → Nat → Nat
  | 0, r => r
  | n + 1, r => let c := r + 2 ^ n; isqrt v n (if c * c ≤ v then c else r)

/-- Square root in sticky form; negative operands raise invalid (Table 13.2). -/
def XR.sqrt (a : XR) : XR × FlagBits :=
  match a with
  | .nan => (.nan, 0)
  | .inf n => if n then (.nan, flInvalid) else (.inf false, 0)
  | .fin n m e =>
    if m = 0 then (.zero n, 0)
    else if n then (.nan, flInvalid)
    else
      let k : Nat := 160 + (if e % 2 = 0 then 0 else 1)
      let v := m <<< k
      let r := isqrt v (Nat.log2 v / 2 + 1) 0
      (.fin false (2 * r + (if r * r = v then 0 else 1)) ((e - k) / 2 - 1), 0)

/-- Comparison of two values that are no NaN: less, equal, greater as −1, 0, 1. -/
def XR.cmp (a b : XR) : Int :=
  match a, b with
  | .nan, _ => 0
  | _, .nan => 0
  | .inf x, .inf y => if x = y then 0 else if x then -1 else 1
  | .inf x, _ => if x then -1 else 1
  | _, .inf y => if y then 1 else -1
  | .fin n1 m1 e1, .fin n2 m2 e2 =>
    let (x, y, _) := XR.align m1 e1 m2 e2
    let i : Int := if n1 then -(x : Int) else x
    let j : Int := if n2 then -(y : Int) else y
    if i < j then -1 else if i = j then 0 else 1

def XR.lt (a b : XR) : Bool := !a.isNan && !b.isNan && decide (XR.cmp a b < 0)
def XR.le (a b : XR) : Bool := !a.isNan && !b.isNan && decide (XR.cmp a b ≤ 0)

/-! ### Arithmetic on encodings (R253, R302, R324) -/

/-- The value of a two-operand operation on encodings, rounded to nearest even, with its flags. -/
def fbin (f : FFmt) (op : XR → XR → XR × FlagBits) (a b : Nat) : Nat × FlagBits :=
  let (x, fl) := op (f.decode a) (f.decode b)
  let (r, fr) := roundRne f x
  (r, fl ||| fr ||| f.snanFlag a ||| f.snanFlag b)

def invIf (p : XR × Bool) : XR × FlagBits := (p.1, if p.2 then flInvalid else 0)

def fadd (f : FFmt) : Nat → Nat → Nat × FlagBits := fbin f fun a b => invIf (a.add b)
def fsub (f : FFmt) : Nat → Nat → Nat × FlagBits := fbin f fun a b => invIf (a.add b.neg)
def fmul (f : FFmt) : Nat → Nat → Nat × FlagBits := fbin f fun a b => invIf (a.mul b)
def fdiv (f : FFmt) : Nat → Nat → Nat × FlagBits := fbin f XR.div
def fsqrt (f : FFmt) (a : Nat) : Nat × FlagBits :=
  let (x, fl) := (f.decode a).sqrt
  let (r, fr) := roundRne f x
  (r, fl ||| fr ||| f.snanFlag a)

/-- Lesser (or greater, `mx`) of two encodings with −0 < +0; one NaN gives the other operand (Table 13.2). -/
def fminmax (f : FFmt) (mx : Bool) (a b : Nat) : Nat × FlagBits :=
  let x := f.decode a
  let y := f.decode b
  let fl := f.snanFlag a ||| f.snanFlag b
  let r :=
    if x.isNan ∧ y.isNan then f.nanCode.getD 0
    else if x.isNan then b else if y.isNan then a
    else
      let c := XR.cmp x y
      let aLess : Bool := decide (c < 0) || (decide (c = 0) && x.sign)
      if mx then (if aLess then b else a) else (if aLess then a else b)
  (r, fl)
def fmin (f : FFmt) := fminmax f false
def fmax (f : FFmt) := fminmax f true

/-- abs and neg: only invalid for a signalling NaN (R302). -/
def fabs (f : FFmt) (a : Nat) : Nat × FlagBits :=
  (if (f.decode a).isNan then f.nanCode.getD 0 else a % 2 ^ (f.eb + f.mb), f.snanFlag a)
def fneg (f : FFmt) (a : Nat) : Nat × FlagBits :=
  (if (f.decode a).isNan then f.nanCode.getD 0
   else f.signed (a / 2 ^ (f.eb + f.mb) % 2 = 0) (a % 2 ^ (f.eb + f.mb)), f.snanFlag a)

/-- a × b + c (or − c) with one rounding; 0 × ∞ raises invalid whatever the addend (R324). -/
def ffma (f : FFmt) (sub : Bool) (a b c : Nat) : Nat × FlagBits :=
  let (p, bad) := (f.decode a).mul (f.decode b)
  let c' := if sub then (f.decode c).neg else f.decode c
  let (s, bad2) := p.add c'
  let (r, fr) := roundRne f s
  (r, fr ||| (if bad ∨ bad2 then flInvalid else 0) ||| f.snanFlag a ||| f.snanFlag b ||| f.snanFlag c)

/-- Float compare by the condition codes of R300: the answer and the flag. -/
def fcmpCond (f : FFmt) (cond : Nat) (a b : Nat) : Bool × FlagBits :=
  let x := f.decode a
  let y := f.decode b
  let un := x.isNan || y.isNan
  let c := XR.cmp x y
  let ans := match cond with
    | 0 => !un && decide (c = 0)
    | 1 => un || decide (c ≠ 0)
    | 2 => !un && decide (c < 0)
    | 3 => !un && decide (c ≥ 0)
    | 4 => !un && decide (c ≤ 0)
    | 5 => !un && decide (c > 0)
    | 6 => un
    | _ => !un
  let s := f.snan a || f.snan b
  (ans, if s || (un && decide (2 ≤ cond ∧ cond ≤ 5)) then flInvalid else 0)

/-- The one-hot class of R304. -/
def fclass (f : FFmt) (a : Nat) : Nat :=
  match f.decode a with
  | .nan => if f.snan a then 256 else 512
  | .inf n => if n then 1 else 128
  | .fin n m e =>
    if m = 0 then (if n then 8 else 16)
    else if (Nat.log2 m : Int) + e < f.emin then (if n then 4 else 32)
    else (if n then 2 else 64)

/-- Stochastic rounding from f32 to bf16 (R262). -/
def srBf16 (a u : Nat) : Nat × FlagBits :=
  match f32.decode a with
  | .nan => (0x7FC0, f32.snanFlag a)
  | .inf _ => (a >>> 16, 0)
  | .fin _ _ _ =>
    if a % 65536 = 0 then (a >>> 16, 0)
    else
      let t := if a % 65536 + u ≥ 65536 then (a >>> 16) + 1 else a >>> 16
      (t, flInexact ||| (if a / 2 ^ 23 % 256 = 0 then flUnderflow else 0) |||
        (if t / 128 % 256 = 255 then flOverflow else 0))

/-! ### Real functions by interval refinement (R335 to R337, R274) -/

/-- Lower and upper fixed-point bounds, in units of 2^−p. -/
abbrev Iv := Int × Int

def ivMul (p : Nat) (a b : Iv) : Iv := (a.1 * b.1 / 2 ^ p, -((-(a.2 * b.2)) / 2 ^ p))

/-- atanh-series: Σ z^(2k+1)/(2k+1) for 0 ≤ z ≤ 1/3 given as bounds, n terms, with the tail bounded by the last power. -/
def atanhLoop (p : Nat) (z2 : Iv) : Nat → Nat → Iv → Iv → Iv
  | 0, _, t, acc => (acc.1, acc.2 + t.2 + 1)
  | n + 1, k, t, acc =>
    atanhLoop p z2 n (k + 2) (ivMul p t z2) (acc.1 + t.1 / k, acc.2 + t.2 / k + 1)

/-- Bounds of ln(n/d) for 1 ≤ n/d ≤ 2 at precision p. -/
def lnRatio (p n d : Nat) : Iv :=
  let z : Iv := ((((n - d) <<< p) / (n + d) : Nat), ((((n - d) <<< p) / (n + d) + 1 : Nat) : Int))
  let s := atanhLoop p (ivMul p z z) (p / 3 + 2) 1 z (0, 0)
  (2 * s.1, 2 * s.2)

def ln2 (p : Nat) : Iv := lnRatio p 2 1

/-- Bounds of log2 m for the mantissa m / 2^k with 2^k ≤ m < 2^(k+1). -/
def log2Mant (p m k : Nat) : Iv :=
  let a := lnRatio p m (1 <<< k)
  let b := ln2 p
  (a.1 * 2 ^ p / b.2, a.2 * 2 ^ p / b.1 + 1)

/-- exp-series for 0 ≤ y < 1 as bounds: Σ y^i / i!. -/
def expLoop (p : Nat) (y : Iv) : Nat → Nat → Iv → Iv → Iv
  | 0, _, t, acc => (acc.1, acc.2 + 2 * t.2 + 1)
  | n + 1, i, t, acc =>
    let t' := ivMul p t y
    let t'' : Iv := (t'.1 / i, t'.2 / i + 1)
    expLoop p y n (i + 1) t'' (acc.1 + t''.1, acc.2 + t''.2)

def expIv (p : Nat) (y : Iv) : Iv := expLoop p y (p / 2 + 8) 1 (2 ^ p, 2 ^ p) (2 ^ p, 2 ^ p)

/-- Bounds of 2^x for the fraction f in [0, 1) given as bounds. -/
def exp2Frac (p : Nat) (fr : Iv) : Iv := expIv p (ivMul p fr (ln2 p))

/-- Floor and fraction bounds of (−1)^neg m 2^e at precision p. -/
def fixedIv (p : Nat) (neg : Bool) (m : Nat) (e : Int) : Iv :=
  let (n, r) := scaleTo m e (-(p : Int))
  let lo : Int := n
  let hi : Int := if r = 0 then n else n + 1
  if neg then (-hi, -lo) else (lo, hi)

/-- Positive dyadic from a fixed-point numeral. -/
def XR.ofFixed (p : Nat) (v : Int) : XR := .fin (v < 0) v.natAbs (-(p : Int))

/-- Multiply a value by 2^k. -/
def XR.scale (k : Int) : XR → XR | .fin n m e => .fin n m (e + k) | x => x

/-- Round by refinement: `g p` bounds the exact (irrational) value; both ends must round alike and lie strictly on one side
of the exact ones, which the sticky bit of each end reports as inexact. Fuel doubles the precision; at its end the
lower bound stands (log 13). -/
def refine (f : FFmt) (g : Nat → XR × XR) : Nat → Nat → Nat × FlagBits
  | 0, p => roundRne f (g p).1
  | n + 1, p =>
    let (lo, hi) := g p
    let a := roundRne f lo
    let b := roundRne f hi
    if a.1 = b.1 ∧ a.2 = b.2 ∧ a.2 &&& flInexact ≠ 0 then a else refine f g n (2 * p)

/-- 2^x as bounds for a dyadic x; huge magnitudes are cut where every format has long over- or underflowed. -/
def exp2Bounds (neg : Bool) (m : Nat) (e : Int) (p : Nat) : XR × XR :=
  if (Nat.log2 m : Int) + e > 20 then
    let r := XR.fin false 1 (if neg then -1048576 else 1048576)
    (r, r)
  else
    let v := fixedIv p neg m e
    let i := v.1 / 2 ^ p
    let b := exp2Frac p (v.1 - i * 2 ^ p, v.2 - i * 2 ^ p)
    (XR.scale i (.ofFixed p b.1), XR.scale i (.ofFixed p b.2))

/-- A dyadic as an integer, if it is one. -/
def dyInt? (neg : Bool) (m : Nat) (e : Int) : Option Int :=
  let (n, r) := scaleTo m e 0
  if r = 0 then some (if neg then -(n : Int) else n) else none

/-- Is m a power of two? -/
def isPow2 (m : Nat) : Bool := decide (m = 2 ^ Nat.log2 m)

/-- vexp2 on a finite nonzero value (R336); integers give exact powers. -/
def exp2Round (f : FFmt) (neg : Bool) (m : Nat) (e : Int) : Nat × FlagBits :=
  if (Nat.log2 m : Int) + e ≤ 20 then
    match dyInt? neg m e with
    | some i => roundRne f (.fin false 1 i)
    | none => refine f (exp2Bounds neg m e) 6 64
  else roundRne f (exp2Bounds neg m e 64).1

/-- vlog2 on a finite positive value; powers of two are exact. -/
def log2Round (f : FFmt) (m : Nat) (e : Int) : Nat × FlagBits :=
  let k := Nat.log2 m
  if isPow2 m then roundRne f (.ofInt (k + e))
  else refine f (fun p =>
    let l := log2Mant p m k
    let i : Int := (k + e) * 2 ^ p
    (.ofFixed p (i + l.1), .ofFixed p (i + l.2))) 6 64

/-- Bounds of e^y for y ≥ 0 dyadic (m 2^e), cut above 64 by the caller. -/
def expBounds (m : Nat) (e : Int) (p : Nat) : Iv × Int :=
  -- e^y = 2^(y / ln 2): y log2(e) = i + fr
  let v := fixedIv p false m e
  let l := ln2 p
  let t : Iv := (v.1 * 2 ^ p / l.2, v.2 * 2 ^ p / l.1 + 1)
  let i := t.1 / 2 ^ p
  (exp2Frac p (t.1 - i * 2 ^ p, t.2 - i * 2 ^ p), i)

/-- vtanh on a finite nonzero value: (e^2|x| − 1) / (e^2|x| + 1) with the sign of x; beyond 64 the value is 1 less a
sticky amount. -/
def tanhRound (f : FFmt) (neg : Bool) (m : Nat) (e : Int) : Nat × FlagBits :=
  if (Nat.log2 m : Int) + e ≥ 6 then roundRne f (.fin neg (2 ^ 100 - 1) (-100))
  else refine f (fun p =>
    let (b, i) := expBounds m (e + 1) p
    let one : Int := 2 ^ p
    let s : Int := 2 ^ i.toNat
    let lo := b.1 * s
    let hi := b.2 * s
    let l := (lo - one) * 2 ^ p / (lo + one)
    let h := (hi - one) * 2 ^ p / (hi + one) + 1
    let x := XR.ofFixed p (max l 0)
    let y := XR.ofFixed p h
    if neg then (x.neg, y.neg) else (x, y)) 6 64

/-- vsigm on a finite nonzero value: 1 / (1 + e^(−x)). -/
def sigmRound (f : FFmt) (neg : Bool) (m : Nat) (e : Int) : Nat × FlagBits :=
  if (Nat.log2 m : Int) + e ≥ 11 then
    roundRne f (if neg then .fin false 1 (-3000) else .fin false (2 ^ 100 - 1) (-100))
  else refine f (fun p =>
    let p := if neg then p + 3072 else p
    let (b, i) := expBounds m e p          -- e^|x|
    let one : Int := 2 ^ p
    let s : Int := 2 ^ i.toNat
    let lo := b.1 * s
    let hi := b.2 * s
    if neg then (.ofFixed p (one * one / (hi + one)), .ofFixed p (one * one / (lo + one) + 1))
    else (.ofFixed p (lo * one / (lo + one)), .ofFixed p (hi * one / (hi + one) + 1))) 6 64

/-- hi + log2(1 + 2^(lo − hi)) rounded to f32, for finite values with lo ≤ hi (R274, R337). -/
def lseRound (hi lo : XR) : Nat × FlagBits :=
  let d := (lo.add hi.neg).1
  match hi, d with
  | .fin hn hm he, .fin _ dm de =>
    if dm = 0 then roundRne f32 (hi.add .one).1
    else if (Nat.log2 dm : Int) + de ≥ 9 then
      roundRne f32 (hi.add (.fin false 1 (-400))).1
    else refine f32 (fun p =>
      let (b0, b1) := exp2Bounds true dm de p
      let x0 := fixedIv p false (match b0 with | .fin _ m _ => m | _ => 0) (match b0 with | .fin _ _ e => e | _ => 0)
      let x1 := fixedIv p false (match b1 with | .fin _ m _ => m | _ => 0) (match b1 with | .fin _ _ e => e | _ => 0)
      let l0 := log2Mant p (2 ^ p + x0.1.toNat) p
      let l1 := log2Mant p (2 ^ p + min x1.2.toNat (2 ^ p - 1)) p
      let h := fixedIv (p + 160) hn hm he
      (.ofFixed (p + 160) (h.1 + l0.1 * 2 ^ 160), .ofFixed (p + 160) (h.2 + l1.2 * 2 ^ 160))) 6 64
  | _, _ => roundRne f32 hi

/-- U < 2^24 × 2^(aM − L), an exact comparison of reals (R274), by refinement; an integer exponent compares exactly. -/
def drawLt (u : Nat) (a l : XR) : Bool :=
  match (a.add l.neg).1 with
  | .fin neg m e =>
    if u = 0 then true
    else if m = 0 then decide (u < 2 ^ 24)
    else if (Nat.log2 m : Int) + e ≥ 6 then !neg
    else match dyInt? neg m e with
      | some i => decide (XR.cmp (.ofInt u) (.fin false 1 (24 + i)) < 0)
      | none =>
        let rec go : Nat → Nat → Bool
          | 0, p => decide (XR.cmp (.ofInt u) (XR.scale 24 (exp2Bounds neg m e p).1) < 0)
          | n + 1, p =>
            let (lo, hi) := exp2Bounds neg m e p
            if XR.cmp (.ofInt u) (XR.scale 24 lo) < 0 then true
            else if XR.cmp (.ofInt u) (XR.scale 24 hi) > 0 then false
            else go n (2 * p)
        go 6 64
  | .inf neg => !neg
  | .nan => false

/-! ### The draw generator (R271) -/

def rotl32 (x : BitVec 32) (n : Nat) : BitVec 32 := x.rotateLeft n

/-- One round of dgen on (x0, x1, x2, x3). -/
def dgenRound (kw : Nat → BitVec 32) (x : BitVec 32 × BitVec 32 × BitVec 32 × BitVec 32) (r : Nat × Nat × Nat) :
    BitVec 32 × BitVec 32 × BitVec 32 × BitVec 32 :=
  let (x0, x1, x2, x3) := x
  let (n, ra, rb) := r
  let x0 := x0 + x1 + kw (n % 4)
  let x3 := rotl32 (x3 ^^^ x0) ra
  let x2 := x2 + x3 + BitVec.ofNat 32 n
  let x1 := rotl32 (x1 ^^^ x2) rb
  (x0, x1, x2, x3)

/-- dgen(K, C): 32 bits from a 128-bit key and a 64-bit counter (R271). -/
def dgen (k : BitVec 128) (c : BitVec 64) : BitVec 32 :=
  let kw : Nat → BitVec 32 := fun j => k.extractLsb' (32 * j) 32
  let x := [(0, 16, 12), (1, 12, 8), (2, 8, 7), (3, 7, 16), (4, 13, 17), (5, 17, 5), (6, 5, 11), (7, 11, 13)].foldl
    (dgenRound kw) (c.extractLsb' 0 32, c.extractLsb' 32 32, kw 0 ^^^ 0x9E3779B9, kw 1 ^^^ 0x7F4A7C15)
  x.1 ^^^ x.2.2.1

/-! ### Element access -/

/-- Element i of width w of a register image. -/
def elem (w : Nat) (x : Nat) (i : Nat) : Nat := x / 2 ^ (i * w) % 2 ^ w

/-- Gather n elements of width w produced by g, element 0 lowest. -/
def packElems (w : Nat) (g : Nat → Nat) : Nat → Nat
  | 0 => 0
  | n + 1 => packElems w g n + (g n % 2 ^ w) * 2 ^ (n * w)

/-- Two's-complement reading of a w-bit numeral. -/
def toSigned (w : Nat) (x : Nat) : Int := if x < 2 ^ (w - 1) then x else (x : Int) - 2 ^ w
/-- Wrap an integer into w bits (R254). -/
def wrapN (w : Nat) (i : Int) : Nat := (i % (2 ^ w : Nat)).toNat

end Sys2Proof.Machine
end

