-- ==== Sys2Proof/Machine/CoreState.lean ====
section
/-! DEFINITION. The state of one core as plain data: strand, registers, latches, ports, channels, slots, staging, tiles,
segment buffers, accesses, Shuttle channels (spec/06, 07, 08, 13 to 16). `Arch` is the part a rollback restores by copying (R162). -/
namespace Sys2Proof.Machine

/-- The four slip groups (R133). -/
inductive Grp where | s | v | m | x
deriving DecidableEq, Repr

/-- A fault of a core: code and detail of Tables 3.8 and 7.3, with the fields a translation fault records (Table 3.9). -/
structure Trap where
  code : Nat
  sub : Nat
  lane : Nat
  level : Nat
  va : Word
  wr : Bool
  pte : Word
deriving DecidableEq, Repr

/-- ILLEGAL_OP (code 48, Table 7.3). -/
def Trap.illegal (sub lane : Nat) : Trap := ⟨48, sub, lane, 7, 0, false, 0⟩
/-- A core fault of a code of 48 and above. -/
def Trap.core (code sub lane : Nat) : Trap := ⟨code, sub, lane, 7, 0, false, 0⟩

/-- One loop-stack entry (R141). -/
structure LoopEntry where
  s : Nat
  e : Nat
  kn : Nat
  dn : Nat
  i : Nat
  rt : Bool
deriving DecidableEq, Repr

/-- One fetched bundle: its sequence number, code position, positions used, the tick before which it cannot issue, the 384 bits,
and the BAD_CODE SUB taken where it would issue (R130, R277). -/
structure Fetched where
  seq : Nat
  pos : Nat
  lit : Bool
  ready : Nat
  bad : Option Nat
  bits : BitVec 384
  /-- the loop stack as it stands for this bundle (R142) -/
  loops : List LoopEntry
deriving DecidableEq, Repr

/-- The operation of a V2 row write (Table 15.4). -/
inductive RowOp where | wr | add | max | scl
deriving DecidableEq, Repr

/-- A change of the matrix staging at the end of an X tick (R343). -/
inductive StageOp where
  | push (a b : VWord)
  | scale (sideB : Bool) (lvl : Nat) (v : VWord)
  | shift
deriving DecidableEq, Repr

/-- How landed bytes become a destination (R359 to R368). -/
inductive LandDest where
  /-- scalar register, bytes, sign extension -/
  | s (phys bytes : Nat) (sext : Bool)
  /-- vector register -/
  | v (phys : Nat)
  /-- 8 bytes to every word -/
  | bcast (phys : Nat)
  /-- gather: unmasked bits -/
  | gather (phys : Nat) (mask : VWord)
  /-- acquire load at a scope -/
  | acq (phys scope : Nat)
  /-- descriptor record into a slot, with its DVA -/
  | slot (n : Nat) (dva : Word)
  /-- sharding map of a reshard: slot, NBASE, NSSTRIDE, the map's VA -/
  | map (n : Nat) (nbase nsstride va : Word)
  /-- old value of an accr; acquire scope if any -/
  | accr (phys : Nat) (acq : Option Nat)
deriving DecidableEq, Repr

/-- A kept write of stream-port state at a tick end (R371, R372). -/
inductive PortOp where
  | bind (img : BitVec 768)
  | unbind
  | fill (v : BitVec 32)
deriving DecidableEq, Repr

/-- What an operation writes when its latency has elapsed (R135). -/
inductive Eff where
  | s (phys : Nat) (v : Word)
  | v (phys : Nat) (val mask : VWord)
  | p (i : Nat) (v : PWord)
  | g (phys : Nat) (b : Bool)
  | gall (v : BitVec 32)
  | latch (i : Nat) (v : LWord)
  | flags (fl : List (Nat × FlagBits))
  | csr (n : Nat) (v : Word)
  /-- access to port n beyond its pattern: PORTSTAT.OVR (R150) -/
  | ovr (n : Nat)
  | spad (parts : List (Nat × Nat × Nat × Nat))
  | row (tile row : Nat) (op : RowOp) (val mask : RowWord) (nf : Bool)
  | beat (tile fm sub : Nat) (a b sa sb : VWord) (blockEnd : Bool)
  | mzero (tile : Nat)
  | stage (op : StageOp)
  | ecfg (n : Nat) (img : BitVec 2048)
  | slot (n : Nat) (img : Option (BitVec 2048))
  | port (n : Nat) (op : PortOp)
  | tfcfg (n : Nat) (img : Option (BitVec 768))
  | loopPush (e : LoopEntry)
  | land (bob : Nat) (dest : LandDest) (ws : Bool)
deriving DecidableEq, Repr

/-- A pending result: written at the end of the tick in which `grp` issues bundle `due` (R135, R167). -/
structure Pend where
  eff : Eff
  grp : Grp
  due : Nat
  seq : Nat
  lane : Nat
  /-- code position of its bundle, for a fault record -/
  pos : Nat
deriving DecidableEq, Repr

/-- One entry of a read port's buffer: 512 bytes, or the fault met in fetching it (R371). -/
structure PortEntry where
  val : VWord
  fault : Option Trap
deriving DecidableEq, Repr

/-- A pushed entry waiting in a write port (R149): producing bundle and lane, data, mask of bits to write. -/
structure PushEntry where
  seq : Nat
  lane : Nat
  pos : Nat
  idx : Nat
  val : VWord
  /-- the tensor record it was pushed through -/
  img : BitVec 2048
deriving DecidableEq, Repr

/-- A bound stream port (R148, R369): the 96-byte record, the fill value, entries moved, entries fetched or formed. -/
structure Port where
  img : BitVec 768
  fill : BitVec 32
  moved : Nat
  /-- bundle whose operations moved last, and `moved` before them (R372) -/
  mark : Nat × Nat
  formed : Nat
  buf : List PortEntry
  out : List PushEntry
deriving DecidableEq, Repr

/-- One operand in a tile-fetch port buffer, with the line pinned for it, if one was (R187). -/
structure TfEntry where
  val : VWord
  fault : Option Trap
  pins : List (Nat × Nat)
deriving DecidableEq, Repr

/-- A configured tile-fetch port (R373). -/
structure TfPort where
  img : BitVec 768
  taken : Nat
  formed : Nat
  buf : List TfEntry
deriving DecidableEq, Repr

/-- A fabric-channel binding (R374): send circuit, SEN, receive circuit, REN; is its send, its receive circuit broken (R42, R151)? -/
structure ChanBind where
  scirc : Nat
  sen : Bool
  rcirc : Nat
  ren : Bool
  sbrk : Bool
  rbrk : Bool
deriving DecidableEq, Repr

/-- One staging level (R343). -/
structure StageLevel where
  a : VWord
  b : VWord
  sa : VWord
  sb : VWord
deriving DecidableEq, Repr

/-- A buffered store's destination: device bytes, or elements through a tensor slot (R357, R368). -/
inductive StoreKind where
  /-- parts (VA, bytes, value); release scope if any -/
  | dev (parts : List (Nat × Nat × Nat)) (rel : Option Nat)
  /-- slot image, width, elements (coordinate list, value) -/
  | slot (img : BitVec 2048) (w : Nat) (elems : List (List Nat × Nat))
deriving DecidableEq, Repr

/-- One buffered store of the open segment, in M-group program order (R158). -/
structure BufStore where
  seq : Nat
  lane : Nat
  kind : StoreKind
  walks : List Nat
  /-- position of its bundle, WHERE of a report (R251) -/
  pos : Nat
deriving DecidableEq, Repr

/-- The kinds of Shuttle command (R376) and of the Spindle's and supervisor's copies (R96, R173). -/
inductive ShKind where | copy | fill | acc | accr | sigw (scope : Nat) (add : Bool) | cow
deriving DecidableEq, Repr

/-- A Shuttle command: record bytes 0 to 303, slot images taken at issue, times, progress (R376 to R389). -/
structure ShCmd where
  id : BitVec 32
  ch : Nat
  kind : ShKind
  img : BitVec 2432
  sslot : Option (BitVec 2048)
  dslot : Option (BitVec 2048)
  t : Word
  teff : Nat
  late : Bool
  q : Word
  bob : Nat
  seq : Nat
  started : Option Nat
  frozen : Bool
  killed : Bool
  /-- context of the posting task -/
  ctx : Nat
  /-- destination units passed so far (R382) -/
  pos : Nat
  /-- for a converting copy (R383), what was captured at its start (R183): the source banks' register, and that of each destination bank -/
  conv : Option (BitVec 6 × FMap (BitVec 6))
  status : Nat
  flags : FlagBits
  zm : Bool
  /-- accumulate performed (R389); all writes performed -/
  acted : Bool
  unacked : Nat
  /-- granules that have come from another module: number, value -/
  got : List (Nat × Nat) := []
  /-- its completion record is on its way to another die (R378) -/
  recOut : Bool := false
  /-- cycle in which the last of its writes was performed (Table 16.7) -/
  last : Option Nat
deriving DecidableEq, Repr

/-- Posted requests sent at commit (R309, R358, R390 to R395, CSR writes of AFLAGS and DAFLAGS). -/
inductive Posted where
  | spawn (lo hi : Word)
  | relay (slot : BitVec 2048)
  | reshard (slot : BitVec 2048) (mapva : Nat)
  | vset (i : Nat) (img : BitVec 1024)
  | vready (i : Nat)
  | vgroup (g : Nat) (destroy : Bool) (mask : BitVec 32)
  | collmode (on : Bool)
  | aflags (clear : BitVec 5)
  | daflags (clear : BitVec 5)
deriving DecidableEq, Repr

/-- What a control operation does once every group has issued its bundle (R132, R142, R155, R308 to R312). -/
inductive Ctl where
  | jump (target : Nat)
  | push (target : Nat) (e : LoopEntry)
  | pop (target : Nat)
  | exit (succ : Option Word) (next : Nat)
  | exitab (sub pos : Nat)
  | join (dst next : Nat)
  | uiret
deriving DecidableEq, Repr

/-- The state a rollback returns to its value at the checkpoint bundle (R159, R162, R358), with the strand of R130. -/
structure Arch where
  -- sequencer
  fpos : Nat
  fseq : Nat
  flit : Nat
  fhalt : Bool
  /-- the tick before which a bundle fetched after a control transfer cannot issue (R132) -/
  frdy : Nat
  floops : List LoopEntry
  fq : List Fetched
  tick : Nat
  /-- a control operation waiting for every group to issue its bundle (R132): that bundle's number, and what follows -/
  ctl : Option (Nat × Ctl)
  nextS : Nat
  nextV : Nat
  nextM : Nat
  nextX : Nat
  /-- sequence number of the checkpoint bundle of the open segment -/
  segK : Nat
  /-- does bundle `segK` act as a checkpoint bundle (R157)? Not so when the segment began after a JOIN's own end -/
  segCk : Bool
  /-- the conditions of R154 held at the moment every group had issued the checkpoint bundle -/
  uiGo : Bool
  -- strand
  rot : BitVec 5
  loops : List LoopEntry
  uiEn : Bool
  uiActive : Bool
  uiPend : BitVec 8
  uiVec : BitVec 16
  uiPc : BitVec 16
  uiRot : BitVec 5
  uiDepth : Nat
  uiHeld : List Pend
  uiHeldAt : Nat
  /-- the trap operation a resume let pass: the replay's first issue of it acts as if its predicate were false (R313) -/
  skip : Option Nat
  -- registers
  s : FMap Word
  shadow : FMap Word
  v : FMap VWord
  p : FMap PWord
  g : BitVec 32
  latch : FMap LWord
  -- control and status registers
  ctk : BitVec 64
  ovr : BitVec 8
  brk : BitVec 4
  vxf : PWord
  spfmt : FMap (BitVec 6)
  tfNref : BitVec 32
  tfWay : Bool
  tfQ : Bool
  jrec : FMap Word
  -- results in flight
  pend : List Pend
  -- ports, channels, slots
  ports : FMap Port
  tfports : FMap TfPort
  chans : FMap ChanBind
  popped : FMap Nat
  pushed : FMap (List Word)
  slots : FMap (BitVec 2048)
  ecfg : FMap (BitVec 2048)
  stage : FMap StageLevel
  nextId : FMap (BitVec 32)
  phase : FMap Nat
  -- what the open segment holds back
  stores : List BufStore
  cmds : List ShCmd
  posted : List Posted
  /-- granules of the own scratchpad that releases of the open segment write (R361) -/
  relSpad : List Nat := []
  /-- acquires landed in the open segment: they count for Sinter at its commit (R233, R249) -/
  acqs : Nat
  /-- tiles live-in, modified, zeroed in the open segment (R160) -/
  tLive : List Nat
  tMod : List Nat
  tZero : List Nat
deriving DecidableEq, Repr

/-- How an access stands with translation and its home (R220, R355). -/
inductive AccKind where
  | rd
  | wr
  /-- store issued but still in the segment: translation only -/
  | walk
deriving DecidableEq, Repr

/-- A physical location: LOC, die, physical address, NOCOMP, ROC and SYSATOM of its page, key slot. -/
structure Phys where
  loc : Nat
  die : Nat
  pa : Nat
  roc : Bool
  nocomp : Bool
  sysatom : Bool
  key : Nat
deriving DecidableEq, Repr

/-- One access of a core's CORE path to one location, in path order. -/
structure Acc where
  id : Nat
  kind : AccKind
  va : Nat
  n : Nat
  val : Nat
  seq : Nat
  lane : Nat
  pos : Nat
  bob : Nat
  off : Nat
  rel : Option Nat
  acq : Bool
  phys : Option Phys
  performed : Bool
  /-- an element through a tensor slot, resolved and admitted before it translates: image, coordinate (R206, R210) -/
  elem : Option (BitVec 2048 × List Nat)
  /-- the pages its segment translated for such an element (R355): page of the VA, and where it lies -/
  pages : List (Nat × Phys)
  /-- READ permission asked of the walk in EXEC or SUP form: 0 user read, 1 user write -/
  sup : Bool
  /-- issue cycle -/
  t0 : Nat
deriving DecidableEq, Repr

/-- A Bobbin entry's data: bytes still awaited, the value so far, poison SUB if any (R145). `known` marks own buffered bytes. -/
structure Bob where
  id : Nat
  waiting : Nat
  data : BitVec 4096
  mask : BitVec 512
  ovl : BitVec 4096
  poison : Nat
  arrived : Nat
  free : Bool
  /-- the record of a race its load met, for its landing (R251) -/
  race : Option (BitVec 512) := none
deriving DecidableEq, Repr

/-- A fence held in a checkpoint bundle (R229 to R232), a slot-table load awaiting its answer (R317). -/
inductive Wait where
  | fence (scope : Nat)
  | fencex (scope p q : Nat)
  | flush
  | slotld (dst : Nat) (id : Nat)
deriving DecidableEq, Repr

/-- A task: ply, index, spawn group if it is a child (R115). -/
structure Task where
  ply : Nat
  idx : Word
  group : Option Nat
deriving DecidableEq, Repr

/-- A JOIN-parked task (R120, Table 7.7). -/
structure Parked where
  task : Task
  pos : Nat
  rot : BitVec 5
  loops : List LoopEntry
  g : BitVec 32
  s : FMap Word
  vxf : PWord
  p : FMap PWord
  v : FMap VWord
  dst : Nat
  group : Nat
  /-- the user-interrupt state of the strand (R130, R154); no task joins in its handler (R310) -/
  uiEn : Bool
  uiPend : BitVec 8
  uiVec : BitVec 16
  uiPc : BitVec 16
  uiRot : BitVec 5
  uiDepth : Nat
  /-- the shadow bank of the S registers (R130, R155) -/
  shadow : FMap Word := []
deriving DecidableEq, Repr

/-- Where a lane operation issues: core, lane code (Table 7.2), sequence number and position of its bundle, the bundle's LATE
and checkpoint standing, and whether it is a literal (R279). -/
structure Cursor where
  core : Nat
  lane : Nat
  seq : Nat
  pos : Nat
  late : Nat
  ckpt : Bool
  lit : Bool
  /-- GTC of the issuing cycle -/
  gtc : Nat
deriving DecidableEq, Repr

/-- Data on its way to a Bobbin entry: offset, bytes, value, the cycle before which it does not arrive (R144, R408), poison. -/
structure Transit where
  bob : Nat
  off : Nat
  n : Nat
  val : Nat
  due : Nat
  poison : Nat
deriving DecidableEq, Repr

/-- Why a lane operation does not complete: a trap, a stall of R149 or R151, an empty tile-fetch port, too few Bobbin entries (R147), the MACC throttle
(R14). -/
inductive Stop where
  | trap (t : Trap)
  | stall
  /-- MPUSH at an empty tile-fetch port (Table 6.5) -/
  | tile
  | bobFull
  | throttle
deriving DecidableEq, Repr

/-- What a core is doing. -/
inductive CoreMode where
  | free
  | loading
  | ready
  | idle
  | run
  /-- rolling back with a trap (R162); `pos` is WHERE -/
  | rolled (t : Trap) (pos : Nat)
  /-- in the supervisor handler, waiting for the copy-on-write lock, then for its shoot-down (R173) -/
  | handler (t : Trap) (pos : Nat) (locked : Bool) (req : Nat)
  /-- frozen with its record (R164) -/
  | frozen (t : Trap) (pos : Nat) (frec : BitVec 512)
  | saved
  | retired
deriving DecidableEq, Repr

/-- The state of a rerun pair (R169): which run, aband, and the first run's CRC, CTK and volatile reads. -/
structure Rerun where
  run : Nat
  aband : Nat
  crcA : Word
  ctkA : Word
  heldA : Bool
  volA : List Word
deriving DecidableEq, Repr

/-- One L1 line: LOC, die, line number, 128 bytes, ROC (R185). Lists run from most to least recently used. -/
structure L1Line where
  loc : Nat
  die : Nat
  line : Nat
  data : BitVec 1024
  keep : Bool
  /-- number of the service that brought it (`State.served`) -/
  srv : Nat := 0
deriving DecidableEq, Repr

/-- One core. -/
structure Core where
  mode : CoreMode
  arch : Arch
  /-- the state at the checkpoint bundle of the open segment -/
  keep : Arch
  -- code (R112)
  dict : FMap (BitVec 384)
  code : FMap (BitVec 16)
  dictn : Nat
  coden : Nat
  -- task and launch
  launch : Nat
  ctx : Nat
  nply : Nat
  /-- the spawn group no JOIN has closed (R119) -/
  openGroup : Option Nat
  task : Option Task
  parked : List Parked
  late : Bool
  -- scratchpad and tiles
  spad : Memory
  spadLog : FMap (BitVec 512)
  /-- granules that a committed release wrote, and the cycle of its commit: closed to others until the stores before it are performed (R225, R361) -/
  relSpad : List (Nat × Nat) := []
  tiles : FMap (FMap RowWord)
  tilesK : FMap (FMap RowWord)
  psum : FMap (FMap Int)
  /-- block sums as they stood at the checkpoint (R268) -/
  psumK : FMap (FMap Int)
  -- memory side
  accs : List Acc
  bobs : List Bob
  /-- entries of earlier segments that landed in the open one: a rollback lands them again (R167) -/
  landed : List Bob
  transit : List Transit
  nextAcc : Nat
  l1 : List L1Line
  /-- how often lines have been dropped for ordering: a line served before a drop is not filled after it (R226, R229, R248) -/
  l1Epoch : Nat
  aflags : FlagBits
  -- Shuttle
  shq : List ShCmd
  /-- the cycle in which a command last started (R377) -/
  shStart : Option Nat
  chdone : FMap (BitVec 32)
  idCommit : FMap (BitVec 32)
  shFault : FMap (BitVec 512)
  -- channels
  rx : FMap (List Word)
  /-- committed words to send, each with its circuit (R374) -/
  tx : FMap (List (Nat × Word))
  /-- since when the flit each channel offers at input 4 waits there, and whether its wait has been noted (R45) -/
  txAt : FMap (Nat × Bool)
  -- holds
  waits : List Wait
  maccs : Nat
  bobFull : Option Nat
  rerun : Option Rerun
  vols : List Word
  held : Bool
  /-- frozen by the MACC throttle until the next window begins (R14) -/
  thrott : Bool
  /-- a port or channel holds a group in the present tick (R153) -/
  stuck : Bool
  /-- the end of the present tick waits for the data of a landing the tick itself issued (R143, R146) -/
  owes : Bool
  /-- accumulator rows written in the open segment, 256 for all of a tile (R168) -/
  rowLog : List (Nat × Nat)
  /-- CRC of the register writes of the present run of a rerun pair (R169) -/
  rcrc : BitVec 64
  preempt : Bool
  /-- set by a lane operation that met a stall in a trial issue (R134) -/
  stalled : Option Stop
  /-- pins given up by mpush, tfcfg, rollback or a task end, to be released at their slices (R188): die, line -/
  unpins : List (Nat × Nat)
deriving DecidableEq, Repr

def StageLevel.zero : StageLevel := ⟨0, 0, 0, 0⟩

/-- The architectural state a loaded core has before its first task: every register zero (R112, R114, Table 5.4). -/
def Arch.init : Arch :=
  { fpos := 0, fseq := 0, flit := 0, fhalt := false, frdy := 0, floops := [], fq := [], tick := 0, ctl := none
    nextS := 0, nextV := 0, nextM := 0, nextX := 0, segK := 0, segCk := true, uiGo := false
    rot := 0, loops := [], uiEn := false, uiActive := false, uiPend := 0, uiVec := 0, uiPc := 0, uiRot := 0, uiDepth := 0
    uiHeld := [], uiHeldAt := 0, skip := none
    s := [], shadow := [], v := [], p := [], g := 0, latch := []
    ctk := 0, ovr := 0, brk := 0, vxf := 0, spfmt := [], tfNref := 0, tfWay := false, tfQ := false, jrec := []
    pend := [], ports := [], tfports := [], chans := [], popped := [], pushed := [], slots := [], ecfg := [], stage := []
    nextId := [], phase := [], stores := [], cmds := [], posted := [], acqs := 0, tLive := [], tMod := [], tZero := [] }

/-- A core after module reset: free, with everything zero. -/
def Core.init : Core :=
  { mode := .free, arch := Arch.init, keep := Arch.init, dict := [], code := [], dictn := 0, coden := 0
    launch := 0, ctx := 0, nply := 0, openGroup := none, task := none, parked := [], late := false
    spad := [], spadLog := [], tiles := [], tilesK := [], psum := [], psumK := []
    accs := [], bobs := [], landed := [], transit := [], nextAcc := 0, l1 := [], l1Epoch := 0, aflags := 0
    shq := [], shStart := none, chdone := [], idCommit := [], shFault := [], rx := [], tx := [], txAt := []
    waits := [], maccs := 0, bobFull := none, rerun := none, vols := []
    held := false, thrott := false, stuck := false, owes := false, rowLog := [], rcrc := 0, preempt := false, stalled := none, unpins := [] }

end Sys2Proof.Machine
end

