-- ==== Sys2Proof/Machine/Operands.lean ====
section
/-! DEFINITION. Every operand form: stage predicates, register mapping, resolve, destinations, stream ports, channels,
patterns, scratchpad writes with the undo log, the Bobbin (R139 to R152, R280 to R283, R318 to R320, R357, R369, R370). -/
namespace Sys2Proof.Machine

/-- The result of a lane operation's body. -/
abbrev LM (α : Type) := Except Stop α

def illegal {α : Type} (cu : Cursor) (sub : Nat) : LM α := .error (.trap (Trap.illegal sub cu.lane))

/-- ILLEGAL_OP SUB 2 unless the condition holds (R287). -/
def need (cu : Cursor) (b : Bool) : LM Unit := if b then .ok () else illegal cu 2

/-- Lane codes of Table 7.2 to groups of Table 6.1. -/
def laneGrp (lane : Nat) : Grp := if lane ≤ 1 then .s else if lane ≤ 5 then .v else if lane ≤ 7 then .m else .x

/-- Physical index of logical s or v register i under ROT (R139). -/
def mapReg (rot : BitVec 5) (i : Nat) : Nat := if i < 32 then i else 32 + (i - 32 + 32 - rot.toNat) % 32
/-- Physical index of logical g(i) (R139). -/
def mapG (rot : BitVec 5) (i : Nat) : Nat := (i + 32 - rot.toNat) % 32

/-- s registers; while the user-interrupt handler is active s8 to s15 name the shadow bank (R154). s0 reads 0 and is never written. -/
def Arch.getS (a : Arch) (phys : Nat) : Word :=
  if phys = 0 then 0
  else if a.uiActive ∧ 8 ≤ phys ∧ phys < 16 then FMap.get 0 a.shadow phys else FMap.get 0 a.s phys
def Arch.setS (a : Arch) (phys : Nat) (v : Word) : Arch :=
  if phys = 0 then a
  else if a.uiActive ∧ 8 ≤ phys ∧ phys < 16 then { a with shadow := FMap.set 0 a.shadow phys v }
  else { a with s := FMap.set 0 a.s phys v }
def Arch.getV (a : Arch) (phys : Nat) : VWord := FMap.get 0 a.v phys
def Arch.setV (a : Arch) (phys : Nat) (v : VWord) : Arch := { a with v := FMap.set 0 a.v phys v }
def Arch.getP (a : Arch) (i : Nat) : PWord := FMap.get 0 a.p i
def Arch.setP (a : Arch) (i : Nat) (v : PWord) : Arch := { a with p := FMap.set 0 a.p i v }
def Arch.getG (a : Arch) (phys : Nat) : Bool := a.g.getLsbD phys
def Arch.setG (a : Arch) (phys : Nat) (b : Bool) : Arch :=
  { a with g := if b then a.g ||| ((1 : BitVec 32) <<< phys) else a.g &&& ~~~((1 : BitVec 32) <<< phys) }
def Arch.getLatch (a : Arch) (i : Nat) : LWord := FMap.get 0 a.latch i
def Arch.setLatch (a : Arch) (i : Nat) (v : LWord) : Arch := { a with latch := FMap.set 0 a.latch i v }

/-- The logical s register i, as resolve reads it. -/
def readS (c : Core) (i : Nat) : Word := c.arch.getS (mapReg c.arch.rot i)
/-- The logical v register i. -/
def readV (c : Core) (i : Nat) : VWord := c.arch.getV (mapReg c.arch.rot i)
/-- The logical stage predicate g(i). -/
def readG (c : Core) (i : Nat) : Bool := c.arch.getG (mapG c.arch.rot i)

/-- The stage predicate of a PR field (R140, R280): none when the field is invalid. -/
def stagePred (c : Core) (pr : BitVec 6) : Option Bool :=
  if pr = 0 then some true
  else if pr.toNat ≥ 32 then some (readG c (pr.toNat - 32))
  else none

/-! ### Patterns (R369, R370) -/

def patSlotm (g : BitVec 768) : Bool := g.getLsbD 0
def patSlot (g : BitVec 768) : Nat := (g.extractLsb' 1 5).toNat
def patFmt (g : BitVec 768) : Nat := (g.extractLsb' 6 4).toNat
def patDir (g : BitVec 768) : Bool := g.getLsbD 10
def patGrp (g : BitVec 768) : Nat := (g.extractLsb' 11 2).toNat
def patT (g : BitVec 768) : Bool := g.getLsbD 13
def patNdm1 (g : BitVec 768) : Nat := (g.extractLsb' 14 2).toNat
def patSpad (g : BitVec 768) : Bool := g.getLsbD 16
def patFill (g : BitVec 768) : BitVec 32 := g.extractLsb' 64 32
def patBase (g : BitVec 768) : Nat := (g.extractLsb' 128 56).toNat
def patCount (g : BitVec 768) (j : Nat) : Nat := (g.extractLsb' (192 + 64 * j) 32).toNat
def patStride (g : BitVec 768) (j : Nat) : Int := (g.extractLsb' (224 + 64 * j) 32).toInt
def patDim (g : BitVec 768) (j : Nat) : Nat := (g.extractLsb' (448 + 3 * j) 3).toNat
def patX (g : BitVec 768) (m : Nat) : Nat := (g.extractLsb' (512 + 32 * m) 32).toNat

/-- Element width and elements per entry of an FMT code of Table 9.2 (R370). -/
def fmtWidth (fmt : Nat) : Nat :=
  match fmt with
  | 0 => 32 | 1 => 16 | 2 => 16 | 3 => 8 | 4 => 8 | 5 => 4 | 6 => 8 | 7 => 16 | 8 => 32 | 9 => 4 | 10 => 3 | 11 => 8
  | _ => 8
def fmtIsByte (fmt : Nat) : Bool := decide (fmt ≤ 4) || (decide (6 ≤ fmt) && decide (fmt ≤ 8))
def fmtEntry (fmt : Nat) : Nat := if fmt = 5 ∨ fmt = 9 ∨ fmt = 10 then 1024 else 4096 / fmtWidth fmt

/-- FMT of a slot image. -/
def slotFmt (d : BitVec 2048) : Nat := (d.extractLsb' 32 4).toNat
/-- The FMT that governs a pattern: its own in address mode, the slot's in slot mode (R369). -/
def patFmtOf (c : Core) (g : BitVec 768) : Nat :=
  if patSlotm g then (match FMap.find c.arch.slots (patSlot g) with | some d => slotFmt d | none => 0) else patFmt g
/-- Is the slot of a slot-mode pattern empty (R200)? -/
def patEmpty (c : Core) (g : BitVec 768) : Bool := patSlotm g && (FMap.find c.arch.slots (patSlot g)).isNone
/-- Entries of one row and of the whole pattern (R370). -/
def patRowEntries (fmt : Nat) (g : BitVec 768) : Nat := (patCount g 0 + fmtEntry fmt - 1) / fmtEntry fmt
def patTotal (fmt : Nat) (g : BitVec 768) : Nat :=
  patRowEntries fmt g * patCount g 1 * patCount g 2 * patCount g 3
/-- Row indices (i1, i2, i3) and the entry within the row, of entry k. -/
def patPos (fmt : Nat) (g : BitVec 768) (k : Nat) : Nat × Nat × Nat × Nat :=
  let e := patRowEntries fmt g
  let r := k / e
  (r % patCount g 1, r / patCount g 1 % patCount g 2, r / (patCount g 1 * patCount g 2), k % e)
/-- Elements of entry k that lie in its row. -/
def patLive (fmt : Nat) (g : BitVec 768) (k : Nat) : Nat :=
  let (_, _, _, e) := patPos fmt g k
  min (fmtEntry fmt) (patCount g 0 - e * fmtEntry fmt)
/-- Address of the first byte of entry k in address mode; signed strides may leave the space, so an Int. -/
def patAddr (fmt : Nat) (g : BitVec 768) (k : Nat) : Int :=
  let (i1, i2, i3, e) := patPos fmt g k
  (patBase g : Int) + i1 * patStride g 1 + i2 * patStride g 2 + i3 * patStride g 3
    + (e * (fmtEntry fmt * fmtWidth fmt / 8) : Nat)

/-- A register of elements of width w that all hold the fill value. -/
def fillV (w : Nat) (fill : BitVec 32) : VWord := BitVec.ofNat 4096 (packElems w (fun _ => fill.toNat) (4096 / w))
/-- A mask with the low n elements of width w set. -/
def lowMask (w n : Nat) : VWord := BitVec.ofNat 4096 (2 ^ (w * n) - 1)

/-! ### Segment limits and the scratchpad undo log (R159, Table 7.1) -/

def segLimit {α : Type} (cu : Cursor) (sub : Nat) : LM α := .error (.trap (Trap.core 50 sub cu.lane))

/-- Entries pushed to memory-bound ports and not yet in the store buffer. -/
def waitingStores (c : Core) : Nat :=
  (c.arch.ports.map fun x => if patDir x.2.img ∧ ¬ patSpad x.2.img then x.2.out.length else 0).sum

/-- One more buffered store, or SEG_LIMIT SUB 2. -/
def checkStores (cu : Cursor) (c : Core) : LM Unit :=
  if c.arch.stores.length + waitingStores c ≥ 256 then segLimit cu 2 else .ok ()

/-- Copy the 64-byte granules from `a` over `n` bytes into the undo log at their first write (R159). -/
def logGranules (c : Core) (a : Nat) : Nat → Core
  | 0 => c
  | n + 1 =>
    let c := logGranules c a n
    let g := a / 64 + n
    match FMap.find c.spadLog g with
    | some _ => c
    | none => { c with spadLog := FMap.put c.spadLog g (BitVec.ofNat 512 (Memory.readN c.spad (64 * g) 64)) }

/-- Reserve the undo log for `n` bytes at offset `a`, or SEG_LIMIT SUB 3. -/
def logSpad (cu : Cursor) (c : Core) (a n : Nat) : LM Core :=
  let c' := logGranules c a (if n = 0 then 0 else (a + n - 1) / 64 - a / 64 + 1)
  if c'.spadLog.length > 1024 then segLimit cu 3 else .ok c'

/-! ### Port and channel access (R148 to R152) -/

def grpCode (lane : Nat) : Nat := match laneGrp lane with | .s => 0 | .v => 1 | .m => 2 | .x => 3

/-- The bound port n if the operation's group owns it in the given direction; otherwise ILLEGAL_OP SUB 3 (R148). -/
def ownPort (cu : Cursor) (c : Core) (n : Nat) (dir : Bool) : LM Port :=
  match FMap.find c.arch.ports n with
  | none => illegal cu 3
  | some p => if patDir p.img = dir ∧ patGrp p.img = grpCode cu.lane then .ok p else illegal cu 3

/-- Queue an effect of the issuing operation at latency L. -/
def emit (cu : Cursor) (lat : Nat) (e : Eff) (c : Core) : Core :=
  { c with arch := { c.arch with pend := c.arch.pend ++ [⟨e, laneGrp cu.lane, cu.seq + lat - 1, cu.seq, cu.lane, cu.pos⟩] } }

/-- An access to port n beyond its pattern sets PORTSTAT.OVR at the end of the tick (R150, R315). -/
def setOvr (cu : Cursor) (c : Core) (n : Nat) : Core := emit cu 1 (.ovr n) c
def putPort (c : Core) (n : Nat) (p : Port) : Core := { c with arch := { c.arch with ports := FMap.put c.arch.ports n p } }

/-- One more entry moved by the operation at the cursor. -/
def Port.move (cu : Cursor) (p : Port) : Port :=
  { p with moved := p.moved + 1, mark := if p.mark.1 = cu.seq + 1 then p.mark else (cu.seq + 1, p.moved) }

/-- Pop one entry of read port n; beyond the pattern it is fill, zero bytes for a block format (R148 to R150, R370). -/
def popPort (cu : Cursor) (c : Core) (n : Nat) : LM (VWord × Core) := do
  let p ← ownPort cu c n false
  let fmt := patFmtOf c p.img
  if patEmpty c p.img then illegal cu 2
  else if p.moved ≥ patTotal fmt p.img then
    .ok (if fmtIsByte fmt then fillV (fmtWidth fmt) p.fill else 0, setOvr cu c n)
  else match p.buf with
    | [] => .error .stall
    | e :: t => match e.fault with
      | some f => .error (.trap { f with lane := cu.lane })
      | none => .ok (e.val, putPort c n { p.move cu with buf := t })

/-- Push one entry to write port n; `mask` marks unmasked elements, the others carry the fill value (R148, R150). Through an emptied
slot it takes SUB 2 (R200). -/
def pushPort (cu : Cursor) (c : Core) (n w : Nat) (val mask : VWord) : LM Core := do
  let p ← ownPort cu c n true
  let fmt := patFmtOf c p.img
  if patEmpty c p.img then illegal cu 2
  else if p.moved ≥ patTotal fmt p.img then
    .ok (setOvr cu c n)
  else if p.out.length ≥ 8 then .error .stall
  else
    let e : PushEntry := ⟨cu.seq, cu.lane, cu.pos, p.moved, (val &&& mask) ||| (fillV w p.fill &&& ~~~mask), FMap.get 0 c.arch.slots (patSlot p.img)⟩
    let c ← if patSpad p.img then
        logSpad cu c ((patAddr fmt p.img p.moved).toNat % 2 ^ 22) (patLive fmt p.img p.moved * fmtWidth fmt / 8)
      else do checkStores cu c; pure c
    .ok (putPort c n { p.move cu with out := p.out ++ [e] })

/-- The binding of channel n for an access of group S (R151): unbound or the direction disabled takes SUB 3, a broken circuit
CIRCUIT_DOWN (R42). -/
def ownChan (cu : Cursor) (c : Core) (n : Nat) (send : Bool) : LM Unit :=
  if cu.lane > 1 then illegal cu 3
  else match FMap.find c.arch.chans n with
  | none => illegal cu 3
  | some b =>
    if (if send then b.sen else b.ren) = false then illegal cu 3
    else if (if send then b.sbrk else b.rbrk) then .error (.trap (Trap.core 51 n cu.lane))
    else .ok ()

/-- Pop one word of channel n (R151, R152). -/
def popChan (cu : Cursor) (c : Core) (n : Nat) : LM (Word × Core) := do
  ownChan cu c n false
  let k := FMap.get 0 c.arch.popped n
  if k ≥ 256 then segLimit cu 5
  else match (FMap.get [] c.rx n).drop k with
    | [] => .error .stall
    | w :: _ => .ok (w, { c with arch := { c.arch with popped := FMap.put c.arch.popped n (k + 1) } })

/-- Push one word to channel n (R151, R152). -/
def pushChan (cu : Cursor) (c : Core) (n : Nat) (w : Word) : LM Core := do
  ownChan cu c n true
  let q := FMap.get [] c.arch.pushed n
  if q.length ≥ 256 then segLimit cu 5
  else if q.length + (FMap.get [] c.tx n).length ≥ 256 then .error .stall
  else .ok { c with arch := { c.arch with pushed := FMap.put c.arch.pushed n (q ++ [w]) } }

/-! ### resolve (R283) -/

/-- resolve(code, s, 64). -/
def resolveS (cu : Cursor) (code : BitVec 7) (c : Core) : LM (Word × Core) :=
  let n := code.toNat
  if n ≤ 63 then .ok (readS c n, c)
  else if n ≤ 71 then .ok ((c.arch.getLatch (n - 64)).setWidth 64, c)
  else if n ≤ 79 then do
    let (v, c) ← popPort cu c (n - 72)
    .ok (v.setWidth 64, c)
  else if n ≤ 83 then popChan cu c (n - 80)
  else if n = 127 then .ok (0, c)
  else illegal cu 2

/-- resolve(code, v, 512): a latch gives its 512 bits, a port entry its 512 bytes; a channel takes SUB 3 (R151). -/
def resolveV (cu : Cursor) (code : BitVec 7) (c : Core) : LM (VWord × Core) :=
  let n := code.toNat
  if n ≤ 63 then .ok (readV c n, c)
  else if n ≤ 71 then .ok ((c.arch.getLatch (n - 64)).setWidth 4096, c)
  else if n ≤ 79 then popPort cu c (n - 72)
  else if n ≤ 83 then illegal cu 3
  else if n = 127 then .ok (0, c)
  else illegal cu 2

/-- A source code valid for its field by Table 12.3, checked before any effect. -/
def srcOk (code : BitVec 7) : Bool := decide (code.toNat ≤ 83) || decide (code.toNat = 127)

/-! ### Results (R135, R138, R281, R282, R319) -/

/-- Latch index of a lane: ls0, ls1, lv0, lv1, lv2, lf, lm0, lm1 are the lane codes 0 to 7; X has none. -/
def emitLatch (cu : Cursor) (lat : Nat) (v : LWord) (c : Core) : Core :=
  if cu.lane ≤ 7 then emit cu lat (.latch cu.lane v) c else c

/-- Deliver a 64-bit result to an s destination, a port or a channel, and the lane's latch. -/
def writeS (cu : Cursor) (dst : BitVec 7) (ws : BitVec 1) (lat : Nat) (v : Word) (c : Core) : LM Core :=
  let n := dst.toNat
  if n ≤ 63 then
    let ph := mapReg c.arch.rot n
    let c := if ws = 0 then emit cu lat (.s ph v) c else c
    .ok (emitLatch cu lat (v.setWidth 512) c)
  else if 72 ≤ n ∧ n ≤ 83 then
    if ws = 1 then illegal cu 2
    else do
      let c ← if n ≤ 79 then pushPort cu c (n - 72) 64 (v.setWidth 4096) (lowMask 64 64) else pushChan cu c (n - 80) v
      .ok (emitLatch cu lat (v.setWidth 512) c)
  else illegal cu 2

/-- Deliver a vector result under an element mask. Codes 80 to 83 take SUB 3 (R318). -/
def writeV (cu : Cursor) (dst : BitVec 7) (ws : BitVec 1) (lat w : Nat) (val mask : VWord) (c : Core) : LM Core :=
  let n := dst.toNat
  if n ≤ 63 then
    let ph := mapReg c.arch.rot n
    let c := if ws = 0 then emit cu lat (.v ph val mask) c else c
    .ok (emitLatch cu lat ((val &&& mask).setWidth 512) c)
  else if 72 ≤ n ∧ n ≤ 83 then
    if ws = 1 then illegal cu 2
    else if n ≥ 80 then illegal cu 3
    else do
      let c ← pushPort cu c (n - 72) w val mask
      .ok (emitLatch cu lat ((val &&& mask).setWidth 512) c)
  else illegal cu 2

/-- Deliver k registers written together (R320): the names must lie in one half; the latch gets the first part. A channel
code takes SUB 3 (R287, R318). -/
def writeVs (cu : Cursor) (dst : BitVec 7) (ws : BitVec 1) (lat : Nat) (parts : List (VWord × VWord)) (c : Core) : LM Core :=
  let n := dst.toNat
  let k := parts.length
  if n + k ≤ 32 ∨ (32 ≤ n ∧ n + k ≤ 64) then
    let c := if ws = 0 then
        (parts.zipIdx).foldl (fun c x => emit cu lat (.v (mapReg c.arch.rot (n + x.2)) x.1.1 x.1.2) c) c
      else c
    match parts with
    | [] => .ok c
    | (v, m) :: _ => .ok (emitLatch cu lat ((v &&& m).setWidth 512) c)
  else if 80 ≤ n ∧ n ≤ 83 ∧ ws = 0 then illegal cu 3
  else illegal cu 2

/-- Read k registers named from a code (R320); a channel code takes SUB 3 (R287). -/
def readVs (cu : Cursor) (code : BitVec 7) (k : Nat) (c : Core) : LM (List VWord) :=
  let n := code.toNat
  if n + k ≤ 32 ∨ (32 ≤ n ∧ n + k ≤ 64) then .ok ((List.range k).map fun i => readV c (n + i))
  else if 80 ≤ n ∧ n ≤ 83 then illegal cu 3
  else illegal cu 2

/-- Write a stage predicate: DST[4:0] a logical g; WS and latch as R282, R299. -/
def writeG (cu : Cursor) (g : Nat) (ws : BitVec 1) (lat : Nat) (b : Bool) (c : Core) : Core :=
  let c := if ws = 0 then emit cu lat (.g (mapG c.arch.rot g) b) c else c
  emitLatch cu lat (if b then 1 else 0) c

/-- Write an element predicate; the latch receives bits [511:0] (R325). -/
def writeP (cu : Cursor) (i : Nat) (ws : BitVec 1) (lat : Nat) (v : PWord) (c : Core) : Core :=
  let c := if ws = 0 then emit cu lat (.p i v) c else c
  emitLatch cu lat (v.setWidth 512) c

/-- The element mask of EP for n elements, as a predicate: EP = 0 leaves every element unmasked (R319). -/
def epMask (c : Core) (ep : BitVec 4) : PWord := if ep = 0 then -1 else c.arch.getP ep.toNat

/-- Spread a predicate over elements of width w. -/
def spread (w : Nat) (p : PWord) : VWord :=
  BitVec.ofNat 4096 (packElems w (fun i => if p.getLsbD i then 2 ^ w - 1 else 0) (4096 / w))

/-! ### The Bobbin (R145, R147) -/

/-- Entries held when bundle `seq`'s operations take theirs: those landing at `seq` are given back before, but not the bundle's own; the
handler's held ones count whatever their number was (R145, R155). -/
def bobUsed (c : Core) (seq : Nat) : Nat :=
  let land : Pend → Bool := fun p => match p.eff with | .land _ _ _ => true | _ => false
  (c.arch.pend.filter fun p => land p && (decide (p.due ≠ seq) || decide (p.seq = seq))).length + (c.arch.uiHeld.filter land).length

/-- Take one Bobbin entry for a landing at the bundle's delay (R143): LATE = 0 takes SUB 4; too few entries hold the group. -/
def takeBob (cu : Cursor) (c : Core) (dest : LandDest) (ws : BitVec 1) (waiting : Nat) (ovl : VWord) (mask : BitVec 512) : LM (Nat × Core) :=
  if cu.late = 0 then illegal cu 4
  else if bobUsed c cu.seq + 1 > 64 then .error .bobFull
  else
    let id := c.nextAcc
    let b : Bob := ⟨id, waiting, 0, mask, ovl, 0, 0, false, none⟩
    .ok (id, emit cu cu.late (.land id dest (ws = 1)) { c with bobs := c.bobs ++ [b], nextAcc := id + 1 })

end Sys2Proof.Machine
end

