-- ==== Sys2Proof/Machine/State.lean ====
section
/-! DEFINITION. The state of the module: module control block, power, host interface, keys, fabric, queues, launches, engines,
memory, cores, and the model's own agenda; the faults and refusals of the model; `State.reset`. -/
namespace Sys2Proof.Machine

/-- The machine stops with a fault. `absentMemory` is raised by an access to a physical address of a store that the module does not
have (R1, R60: beyond HBM, second tier or weight store); safe: the hardware's answer is not given, and the model goes no further. -/
inductive Fault where
  | absentMemory (loc die addr : Nat)
deriving DecidableEq, Repr

/-- The machine has no meaning for an instruction: raised by `exec` for an arm not modelled; safe. -/
inductive Refusal where
  | notModelled (mnemonic : String)
deriving DecidableEq, Repr

/-! ### Accesses -/

/-- What an access does at its home: read; write n bytes; accumulate by operator AOP (Table 16.4) on a 32- or 64-bit unit. -/
inductive XKind where
  | rd
  | wr (val : Nat)
  /-- write the bytes whose bit of `en` is set -/
  | wrm (val en : Nat)
  | amo (aop w : Nat) (opa opb : Word) (key : BitVec 128) (strm tag : BitVec 32) (dmax : Bool)
deriving DecidableEq, Repr

/-- Where the answer of an access goes. -/
inductive Ret where
  | none
  /-- a Bobbin entry of a core: entry, byte offset -/
  | load (core bob off : Nat)
  | store (core : Nat)
  /-- location k of a Shuttle command -/
  | sh (core ch : Nat) (id : BitVec 32) (k : Nat)
  /-- a queue's packet by its start number -/
  | queue (q num : Nat)
  /-- a unit of the packet at a queue's position, from another module: its VA (R90) -/
  | unit (q va : Nat)
  /-- source bytes of a Spindle copy, from another module: the copy, their offset from its position (R96) -/
  | source (q num off : Nat)
  /-- a granule that a Shuttle command reads on another module's die -/
  | gran (core ch : Nat) (id : BitVec 32) (p : Nat)
  /-- a host port (R244) -/
  | host (port : Nat)
deriving DecidableEq, Repr

/-- How far an access has come: waiting to leave its die, in a packet, at its home, performed with its answer on the way. -/
inductive XStat where | fresh | sent | home | answered
deriving DecidableEq, Repr

/-- One translated access to one location (R218 to R220). The list of these keeps path order. Path codes: 0 CORE, 1 MATRIX,
2 SHUTTLE, 3 VENT, 4 CARDER, 5 HOST, 6 TREADLE (Table 10.1). -/
structure Xact where
  id : Nat
  mkind : Nat
  mid : Nat
  die : Nat
  path : Nat
  ctx : Nat
  va : Nat
  n : Nat
  ph : Phys
  kind : XKind
  rel : Option Nat
  acq : Option Nat
  /-- scope of an accumulate, for Sinter (Table 10.5) -/
  sc : Nat
  /-- sequence number (bundle, start order) of the operation -/
  seq : Nat
  /-- SEQ of a write sent to another die, and its dependency vector (R234, R236) -/
  num : BitVec 32
  dv : List (BitVec 32)
  st : XStat
  t0 : Nat
  val : Nat
  nack : Bool
  ret : Ret
  /-- WHERE of its master, for a RACE record (R251) -/
  wh : Word
  /-- the line a load's answer brings to the L1 (R185), and whether its data are poisoned (R193) -/
  line : BitVec 1024 := 0
  bad : Bool := false
  /-- number of its service and the core's count of L1 drops then (R222) -/
  srv : Nat := 0
  epoch : Nat := 0
  /-- a signal write, PTYPE 9 (Table 2.4) -/
  sig : Bool := false
  /-- stores of the core to the line of this load that another module has performed since: offset, bytes, value (R222) -/
  own : List (Nat × Nat × Nat) := []
deriving DecidableEq, Repr

/-- A cached leaf entry: context, level, page number at that level, the entry (R64). -/
structure TlbEntry where
  ctx : Nat
  lvl : Nat
  vpn : Nat
  pte : Word
deriving DecidableEq, Repr

/-- Key and tweak under which a line was last written: key material, context, VA line number (R73). -/
structure Seal where
  key : BitVec 512
  ctx : Nat
  va : Nat
deriving DecidableEq, Repr

inductive KeyState where | empty | plain | keyed | destroying
deriving DecidableEq, Repr

/-- A key slot (R71, R72). -/
structure KeySlot where
  st : KeyState
  owner : Nat
  internal : Bool
  key : BitVec 512
deriving DecidableEq, Repr

/-! ### Fabric -/

/-- Link states (Table 2.5). -/
inductive LinkState where | down | detect | equalise | align | active | lowpower
deriving DecidableEq, Repr

/-- One lane of a line: last FSEQ sent, flits not yet acknowledged, those to resend; newest FSEQ received in order, whether a NAK or an
acknowledgement is owed (R36, R37). An external link has lane 0, a bridge lanes 0 to 11 (R33). -/
structure LaneSt where
  fseq : Nat
  unack : List Flit
  resend : List Flit
  got : Nat
  nak : Bool
  ackOwed : Bool
  /-- how far ahead of `got` the last discarded flit was, while a replay is awaited; 0 if none is (R37) -/
  ahead : Nat := 0
deriving DecidableEq, Repr
def LaneSt.init : LaneSt := { fseq := 0, unack := [], resend := [], got := 0, nak := false, ackOwed := false, ahead := 0 }

/-- One end of an external link (0 to 7) or bridge (8 west, 9 east, 10 row) of a die (R36, R37, R41, R43). -/
structure Link where
  st : LinkState
  fails : Nat
  lat : Nat
  corr : Nat
  replay : Nat
  /-- cycles of the replays asked for in the last 2^20 cycles (R41) -/
  replays : List Nat
  lanes : FMap LaneSt
  wakeAt : Option Nat
  /-- clock entries changed since the last frontier flit, the cycle of that flit (R47, R50) -/
  dirty : List Nat
  lastFr : Option Nat
  tpend : List (Nat × Word × Word × Word × Word)
  /-- circuits whose flits the link has carried, either way -/
  circs : List Nat
deriving DecidableEq, Repr

/-- A circuit flit waiting in a 4-flit input buffer (R45): circuit, words, arrival. -/
structure CFlit where
  circ : Nat
  ws : List Word
  due : Nat
  missed : Bool
  /-- lane of a bridge -/
  lane : Nat
deriving DecidableEq, Repr

/-- A best-effort packet waiting at a router, since when, whether it is on the escape channel (R48). -/
structure BePkt where
  p : Packet
  due : Nat
  esc : Bool
  lane : Nat
deriving DecidableEq, Repr

/-- A router (R32, R45, R47): circuit buffers by input port, waiting packets, the packet each output is sending (flit k of n). -/
structure Router where
  circ : FMap (List CFlit)
  be : List BePkt
  out : FMap (BePkt × Nat × Nat)
  /-- cycle of the last flits sent, and the outputs (port + 16 × lane) that sent one in it -/
  used : Nat × List Nat
  /-- last FSEQ sent on each on-die output, newest received on each input (R36) -/
  fseqs : FMap Nat
  gots : FMap Nat
  /-- first free cycle of each port through which packets enter from the die's agents (R33) -/
  inj : FMap Nat := []
deriving DecidableEq, Repr

/-- A slot table (entry s to 128 bits, zero unlisted) of a router, link end or bridge end, and the loads waiting for their activation
times (R45, R46). -/
structure SlotTab where
  now : FMap (BitVec 128)
  next : List (Nat × FMap (BitVec 128))
deriving DecidableEq, Repr

/-- A flit on a wire: when it arrives, at which die, unit and input port. -/
structure Wire where
  due : Nat
  die : Nat
  unit : Nat
  port : Nat
  lane : Nat
  f : Flit
deriving DecidableEq, Repr

/-- Vent engine state of one entry: contributions performed and data held for DRAW, parked contribution, ZM so far (R392, R393). -/
structure VentSt where
  count : Nat
  hold : List (Nat × List Word × BitVec 256)
  park : Option (Nat × List Word × BitVec 256)
  zm : Bool
deriving DecidableEq, Repr

/-- An L2 line: LOC, line number, dirty, NOCOMP of its page (R186, R194), filled from a block whose state was lost (R193). Lists run from
most to least recently used. -/
structure L2Line where
  loc : Nat
  line : Nat
  dirty : Bool
  nocomp : Bool
  bad : Bool
  /-- context and VA of its last use, by which its page entry is found at the write-back (R194) -/
  page : Option (Nat × Nat) := none
deriving DecidableEq, Repr

/-- A pinned line: pcount and owner (R187). -/
structure Pin where
  loc : Nat
  line : Nat
  count : Nat
  owner : Nat
deriving DecidableEq, Repr

/-- A trace record awaiting writing (Table 5.7): context, then stamp, kind, die, unit, arguments. -/
structure TraceRec where
  ctx : Nat
  stamp : Word
  kind : Nat
  die : Nat
  unit : Nat
  a0 : BitVec 32
  a1 : Word
deriving DecidableEq, Repr

/-- One die. -/
structure Die where
  -- FABERR (Table 2.7)
  gdrop : Nat
  badpkt : Nat
  badflit : Nat
  slotmiss : Bool
  tskew : Bool
  chold : Bool
  links : FMap Link
  routers : FMap Router
  slotTabs : FMap SlotTab
  -- causality (R50, R234 to R236)
  clock : FMap (BitVec 32)
  seq : BitVec 32
  /-- writes sent and not acknowledged: SEQ, destination die, 128-byte line -/
  unacked : List (BitVec 32 × Nat × Nat)
  /-- releases of the die's engines that wait for its earlier writes to other dies: key and the SEQ they wait for (R236) -/
  rels : FMap (BitVec 32)
  /-- causal-hold buffer: accesses by number, or packets of other modules -/
  held : List (Packet)
  /-- writes taken in since the buffer last emptied below its limit are refused while it is full -/
  groups : FMap Word
  -- Vent (R390 to R395)
  vent : FMap (BitVec 1024)
  ventSt : FMap VentSt
  ventMode : Bool
  fires : List (Nat × Nat × Nat)
  /-- contributions to the die itself not yet applied: entry, STAMP -/
  ventOwn : List (Nat × Nat) := []
  ventIn : List (Nat × Nat × List Word × BitVec 256)
  /-- words so far of a contribution that comes in several flits of a circuit -/
  ventPart : FMap (List Word)
  daflags : FlagBits
  -- L2 (R186, R187, R194)
  l2 : FMap (List L2Line)
  pins : List Pin
  charged : FMap Nat
  blocks : FMap (BitVec 4)
  /-- blocks of HBM whose state has an uncorrectable error (R193) -/
  badBlocks : List Nat
  /-- locations whose stored data have an uncorrectable error (R168): LOC, address div 8 -/
  badLocs : List (Nat × Nat) := []
  -- weight store (R190, R191)
  wsPtr : Nat
  wsRefresh : Option Nat
  wsRun : Nat
  wsCount : Nat
  /-- cycle from which each bank can serve a further read; the unit last counted: unit and its master, cycle of its request, its arrival -/
  wsBank : FMap Nat
  wsSeen : Nat × Nat × Nat
  -- Treadle (R103, R109, R129)
  deficit : FMap Nat
  lastQ : Nat
  tracked : List (Nat × Nat × Nat)
  extra : List (Nat × Nat × Nat)
  trace : List TraceRec
  -- Carder and Vent engines (R209, R214, R216): frozen conversions by engine endpoint
  engFrozen : FMap (Nat × Bool)
  rr : Nat
deriving DecidableEq, Repr

/-! ### Queues and launches -/

/-- A buffer level of a queue: VA, LEN, index (R85, R90). -/
structure Frame where
  va : Nat
  len : Nat
  idx : Nat
deriving DecidableEq, Repr

/-- What a started packet waits for. -/
inductive QWait where
  | done
  /-- the answer of its access -/
  | access
  /-- blocking wait: ANY, operands (R92) -/
  | wait (any : Bool) (ops : List Word)
  /-- a check() whose reads are being made (R92, R101): ANY, operands, values read so far -/
  | ask (any : Bool) (ops : List Word) (got : List Word)
  /-- an event to be recorded after the queue's earlier accesses (R97, R101): descriptor, value -/
  | note (va : Nat) (v : Word)
  | gtc (t : Word)
  | flush
  /-- launch refused nothing, held by IDLE mode (R17): record checked -/
  | launch (l : Nat)
  | copy
  | shootdn (id : Nat)
  | slotld (id : Nat)
deriving DecidableEq, Repr

/-- A started packet not yet complete (R83): start number, position, barrier, destination, what it waits for, its result. -/
structure QPkt where
  num : Nat
  b : Bool
  rd : Nat
  w : QWait
  res : Option Word
  ring : Nat
  idx : Nat
  depth : Nat
deriving DecidableEq, Repr

/-- A queue copy or fill on the Spindle's channel (R96): progress over destination units. -/
structure QCopy where
  q : Nat
  num : Nat
  fill : Bool
  src : Nat
  dst : Nat
  len : Nat
  pat : Word
  pos : Nat
  sig : Nat
  started : Bool
  unacked : Nat
  /-- faulted: written again on resume (R86) -/
  failed : Bool
  /-- source bytes that have come from another module: offset, value -/
  got : List (Nat × Nat) := []
  /-- the 128-byte unit of the weight store under way, as its check found it (R190): VA div 128, where it lies -/
  unit : Option (Nat × Phys) := none
deriving DecidableEq, Repr

/-- One queue: the register set of Table 3.2 and the state of R80. -/
structure Queue where
  qbase : BitVec 56
  en : Bool
  qctx : BitVec 9
  prio : BitVec 2
  size : BitVec 5
  tail : BitVec 22
  head : BitVec 22
  frozen : Bool
  badtail : Bool
  badcfg : Bool
  c : FMap Word
  stack : List Frame
  callAt : Nat
  abtsig : Nat
  hva : Nat
  hlen : Nat
  inHandler : Bool
  /-- abort left at its write of ABTSIG (R94): value, ring offset of the packet -/
  abort : Option (Word × Nat)
  out : List QPkt
  nstart : Nat
  /-- WHERE of the freezing fault; a status record whose write faulted: launch -/
  where_ : Word
  owed : List Nat
  /-- units read of the packet at the position, which R83 still holds: where it stands, and the units (R90) -/
  seen : Option (Word × List Word)
  /-- units of the packet at the position that have come from another module: VA, unit (R90) -/
  far : List (Nat × Word) := []
deriving DecidableEq, Repr

/-- Phases of a launch (R108 to R113, R125). -/
inductive LPhase where | checked | pending | reserving | loading | waiting | running | saving | failed | ended
deriving DecidableEq, Repr

/-- What a Vent engine still has to do for a launch's core (R95): a fire, by die; a contribution to another die, by SEQ; one to its own die,
by entry and STAMP. -/
inductive VCover where
  | fire (die : Nat) (f : Nat × Nat × Nat)
  | sent (die : Nat) (seq : BitVec 32)
  | own (die t stamp : Nat)
deriving DecidableEq, Repr

/-- A launch: its record (Tables 5.1, 5.2) and its progress. -/
structure Launch where
  id : Nat
  queue : Nat
  num : Nat
  ctx : Nat
  cls : Nat
  eff : Nat
  stamp : Nat
  phase : LPhase
  frames : Nat
  nply : Nat
  flags : BitVec 8
  grain : Nat
  dictva : Nat
  dictn : Nat
  codeva : Nat
  coden : Nat
  argva : Word
  relgtc : Nat
  /-- VA of the record, read again when a launch that failed in loading starts again (R112) -/
  recva : Word
  statusva : Nat
  /-- DOMAIN, SCOPE, TLO, THI of each ply -/
  plies : List (Nat × Nat × Nat × Nat)
  /-- named cores, live when checked, by core identity -/
  cores : List Nat
  /-- named cores of other modules' dies, by identity in the domain, die × 64 + router index (R109, R180) -/
  far : List Nat
  dies : List Nat
  resv : List Nat
  relT : Nat
  relFirst : Nat
  released : List Nat
  saved : List Nat
  restore : Bool
  /-- remaining ply-0 range of each die -/
  shares : FMap (Nat × Nat)
  /-- sizes each die last heard: key die × 32 + other -/
  sizes : FMap Nat
  asks : List (Nat × Nat)
  refused : List (Nat × Nat)
  /-- thieves whose request is not yet answered -/
  asking : List Nat
  /-- granted ranges on their way: thief die, first, end (R118, R125) -/
  granted : List (Nat × Nat × Nat)
  nabn : Nat
  nret : Nat
  preempts : Nat
  first : Option (BitVec 512)
  sig : Nat
  notify : Option Nat
  status : Word
  badDict : Bool
  /-- accesses and Shuttle commands (core, channel, ID) of the ended launch that its release covers and that are not performed (R95) -/
  cover : List Nat
  coverSh : List (Nat × Nat × BitVec 32)
  /-- fires and contributions of its cores -/
  coverV : List VCover := []
deriving DecidableEq, Repr

/-- A spawn group (R119, R120), or a one-index group of a requeued task (R124). -/
structure SGroup where
  id : Nat
  launch : Nat
  die : Nat
  core : Nat
  ply : Nat
  parent : Word
  next : Nat
  hi : Nat
  /-- children taken and not terminated -/
  live : Nat
  nabn : Nat
  requeued : Bool
  first : Option (BitVec 512)
  requeue : Option (Option Nat)
  /-- cores on which children ended, and the cycle of the last end there: their writes before it are released by the join (R115) -/
  ends : List (Nat × Nat) := []
  /-- cycle of its creation, which releases the spawner's writes (R309) -/
  since : Nat := 0
  /-- cores of other dies whose task-range message for a child is not yet answered (R119) -/
  asking : List Nat := []
deriving DecidableEq, Repr

/-- A conversion (R208 to R216): relayout, or reshard; its record image, the tiles given out by mesh position, tiles done. -/
structure Conv where
  id : Nat
  reshard : Bool
  ctx : Nat
  die : Nat
  img : BitVec 2048
  started : Bool
  /-- pieces done: shard position and tile -/
  gone : List (Nat × Nat)
  /-- reshard absorbed a running relayout (R212) -/
  absorb : Bool
  /-- its end is written in the record; the slots follow when that is performed (R211) -/
  written : Bool := false
  /-- VA of a reshard's map, which the planner reads (R216) -/
  mapva : Nat := 0
  /-- pieces whose access to RBMAP faulted, until the planner resumes (R216) -/
  stop : List (Nat × Nat) := []
deriving DecidableEq, Repr

/-- The lock table of one shard under conversion, at the die that holds the shard (R209, R214): tiles busy, tiles done. -/
structure LockTab where
  ctx : Nat
  dva : Nat
  reshard : Bool
  shard : Nat
  die : Nat
  busy : List Nat
  done : List Nat
deriving DecidableEq, Repr

/-- An ATS invalidation in progress (R66): port, PASID, range of I/O virtual addresses, and the cycle of the request. -/
structure AtsInv where
  port : Nat
  pasid : Nat
  lo : Nat
  hi : Nat
  since : Nat
deriving DecidableEq, Repr

/-- Who asked for a shoot-down (R65, R99, R173). -/
inductive ShootSrc where
  | reg
  | queue (q num : Nat)
  /-- a core's handler, by core and request number -/
  | core (c req : Nat)
deriving DecidableEq, Repr

/-- A shoot-down request: context, all contexts, span, domain, VA. The head of the list is in progress; `since` is the cycle in which
its entries were dropped, `again` whether they were dropped a second time, for what was refilled meanwhile. -/
structure Shoot where
  ctx : Nat
  all : Bool
  span : Nat
  dom : Bool
  va : Nat
  src : ShootSrc
  since : Option Nat
  again : Bool := false
deriving DecidableEq, Repr

/-- A slot-table load on its way (R46, R98, R317): target die and unit, image, activation time, who waits, the answer. -/
structure SlotLoad where
  die : Nat
  unit : Nat
  img : FMap (BitVec 128)
  t : Nat
  src : Sum (Nat × Nat) Nat
  ans : Option Nat
deriving DecidableEq, Repr

/-- What the module has answered a host request (R29, R58, R68): data, Unsupported Request, Completer Abort. -/
inductive HostAns where
  | data (port : Nat) (v : Nat)
  | done (port : Nat)
  | unsupported (port : Nat)
  | abort (port : Nat) (n : Nat)
deriving DecidableEq, Repr

/-- The algorithms of the responder, each under Rolonley's registry identifier (R78). -/
inductive SpdmAlg where | mlDsa65 | shake256
deriving DecidableEq, Repr

/-- Answers of the SPDM responder (R78). -/
inductive Spdm where
  /-- the SPDM version offered, major and minor -/
  | version (port major minor : Nat)
  | capabilities (port : Nat) (cert chal meas : Bool)
  /-- the ExtAsym and ExtHash algorithms selected -/
  | algorithms (port : Nat) (asym : SpdmAlg) (hash : SpdmAlg)
  | digests (port : Nat) (d : BitVec 512)
  | certificate (port : Nat) (bytes : List Byte)
  | challenge (port : Nat) (sig : List Byte)
  | measurements (port : Nat) (blocks : List (Nat × List Byte)) (sig : List Byte)
  | unsupported (port : Nat)
deriving DecidableEq, Repr

/-- The module control block and what stands behind it (R12 to R31, R53 to R79, R406). -/
structure Module where
  vaux : Bool
  rails : Bool
  -- MODSTAT
  ready : Bool
  fail : Bool
  stage : Nat
  failDie : Nat
  failStage : Nat
  retired : List Nat
  -- PWRMODE
  mode : BitVec 3
  pend : Bool
  badw : Bool
  active : BitVec 3
  capw : BitVec 16
  /-- cap in effect; cycle of the last write or of MODREADY, before or in which no window counts (R17) -/
  actCap : BitVec 16
  pendAt : Nat
  -- THERMSTAT
  tmax : BitVec 8
  warn : Bool
  limit : Bool
  limseen : Bool
  tripped : Bool
  -- BAR0 registers
  ctxbase : Word
  winctx : Word
  shootdn : Word
  hdm0 : Nat
  hdm4 : Nat
  modidx : BitVec 2
  present : BitVec 4
  -- keys
  keys : FMap KeySlot
  keySlot : BitVec 10
  keyOwner : BitVec 9
  keyBusy : Bool
  keyStatus : BitVec 4
  keystat : Word
  keydata : BitVec 512
  -- firmware
  /-- images A and B of the boot flash (R75) -/
  flash : List Byte × List Byte
  rootHash : BitVec 512
  svnFused : BitVec 32
  secret : BitVec 256
  bootRom : Word
  fuseCfg : Word
  /-- Rolonley's root certificate and the identity certificate, kept in the flash (R77, R78) -/
  rootCert : List Byte
  idCert : List Byte
  aliasCert : List Byte
  aliasSeed : BitVec 256
  fwDigest : BitVec 512
  fwSvn : BitVec 32
  fusing : Bool
deriving DecidableEq, Repr

/-- What a step has still to do in the present GTC cycle. -/
inductive Todo where
  /-- an event -/
  | ev (i : Instr)
  /-- a core's tick: is it frozen? then fetch, decide which groups issue, end it -/
  | tick (core : Nat)
  | issue (core : Nat)
  /-- count the tick; then end it -/
  | count (core : Nat)
  | endTick (core : Nat)
  /-- issue the operation of a lane -/
  | lane (cu : Cursor)
  /-- a start point of a queue in service -/
  | point (q : Nat)
  /-- the delivery of an ended launch whose writes are performed (R95) -/
  | deliver (l : Nat)
deriving DecidableEq, Repr

/-- The machine. -/
structure State where
  mod : Module
  /-- GTC of every die of the module (log 71) -/
  gtc : Nat
  /-- hold or double step owed by time synchronisation (R24): 0 none, 1 hold, 2 step by two; GTC of the last step -/
  gtcStep : Nat
  gtcStepAt : Nat
  dies : FMap Die
  cores : FMap Core
  queues : FMap Queue
  launches : List Launch
  groups : List SGroup
  qcopies : List QCopy
  nextId : Nat
  -- memory
  mem : Memory
  seals : FMap Seal
  sinter : FMap (BitVec 32)
  /-- interval numbers of masters (R249): key MKIND × 2^16 + MID -/
  ivals : FMap Nat
  races : List (Nat × Nat × BitVec 512)
  xacts : List Xact
  /-- accesses served so far -/
  served : Nat
  /-- round-robin pointers of scratchpad banks (R179), core × 16 + bank to the path pointed to: SHUTTLE 0, VENT 1, CARDER 2 -/
  bankPtr : FMap Nat
  tlbs : FMap (List TlbEntry)
  /-- pages a walk has found ROC, until a shoot-down of the domain completes for them (R65) -/
  rocPages : List TlbEntry
  -- faults
  unackFaults : FMap Nat
  hostFrozen : List (Nat × Nat × Nat)
  shoots : List Shoot
  cow : FMap (List Nat)
  slotLoads : List SlotLoad
  -- conversions
  convs : List Conv
  locks : List LockTab
  grpUpd : List (Nat × Nat × Bool × Word)
  -- save pool (R175): core to the launches that hold a slot; saved cores
  saveUse : FMap (List Nat)
  saves : List (Nat × Nat × Core)
  /-- bytes of the save slots written: launch, core, bytes by offset (Table 7.7) -/
  pool : List (Nat × Nat × Memory)
  -- the outside world
  wires : List Wire
  /-- flits sent on external links: die, link, flit -/
  outbox : List (Nat × Nat × Flit)
  msix : List (Nat × Nat)
  answers : List HostAns
  spdm : List Spdm
  ats : List (Nat × Nat)
  atsInv : List AtsInv
  -- the model's own fields
  absent : Option (Nat × Nat × Nat)
  free : Nat
  cur : Cursor
  curQ : Nat
  agenda : List Todo
  /-- what the outside world does: the cycle before which an event does not come, and the event; the head comes first -/
  inputs : List (Nat × Instr)
deriving DecidableEq, Repr

def Link.init : Link :=
  { st := .down, fails := 0, lat := 0, corr := 0, replay := 0, replays := [], lanes := []
    wakeAt := none, dirty := [], lastFr := none, tpend := [], circs := [] }
def Router.init : Router := { circ := [], be := [], out := [], used := (0, []), fseqs := [], gots := [], inj := [] }
def SlotTab.init : SlotTab := { now := [], next := [] }
def VentSt.init : VentSt := { count := 0, hold := [], park := none, zm := false }

/-- A die after reset. -/
def Die.init : Die :=
  { gdrop := 0, badpkt := 0, badflit := 0, slotmiss := false, tskew := false, chold := false, links := [], routers := []
    slotTabs := [], clock := [], seq := 0, unacked := [], rels := [], held := [], groups := []
    vent := [], ventSt := [], ventMode := false, fires := [], ventIn := [], ventPart := [], daflags := 0
    l2 := [], pins := [], charged := [], blocks := [], badBlocks := [], wsPtr := 0, wsRefresh := none, wsRun := 0, wsCount := 0, wsBank := [], wsSeen := (0, 0, 0)
    deficit := [], lastQ := 7, tracked := [], extra := [], trace := [], engFrozen := [], rr := 0 }

/-- A queue after reset (Table 3.2): SIZE is 12, everything else 0. -/
def Queue.init : Queue :=
  { qbase := 0, en := false, qctx := 0, prio := 0, size := 12, tail := 0, head := 0, frozen := false, badtail := false
    badcfg := false, c := [], stack := [], callAt := 0, abtsig := 0, hva := 0, hlen := 0, inHandler := false, abort := none
    out := [], nstart := 0, where_ := 0, owed := [], seen := none }

def KeySlot.init : KeySlot := { st := .empty, owner := 0, internal := false, key := 0 }

/-- The module control block after reset: bring-up at stage 0, IDLE mode. The spec gives no reset value for THERMSTAT.TMAX, CTXBASE, HDMCFG, KEYDATA, fuses and flash: the
model's 0 (log 1). -/
def Module.init : Module :=
  { vaux := true, rails := true, ready := false, fail := false, stage := 0, failDie := 0, failStage := 0, retired := []
    mode := 0, pend := false, badw := false, active := 0, capw := 0, actCap := 0, pendAt := 0
    tmax := 0, warn := false, limit := false, limseen := false, tripped := false
    ctxbase := 0, winctx := 0, shootdn := 0, hdm0 := 0, hdm4 := 0, modidx := 0, present := 1
    keys := [], keySlot := 0, keyOwner := 0, keyBusy := false, keyStatus := 0, keystat := 0, keydata := 0
    flash := ([], []), rootHash := 0, svnFused := 0, secret := 0, bootRom := 0, fuseCfg := 0, rootCert := [], idCert := [], aliasCert := []
    aliasSeed := 0, fwDigest := 0, fwSvn := 0, fusing := false }

def Cursor.init : Cursor := { core := 0, lane := 0, seq := 0, pos := 0, late := 0, ckpt := false, lit := false, gtc := 0 }

/-- The machine right after power-on reset: bring-up begins at stage 0 (R26) and GTC is 0 (R23). -/
def State.reset : State :=
  { mod := Module.init, gtc := 0, gtcStep := 0, gtcStepAt := 0, dies := [], cores := [], queues := [], launches := [], groups := []
    qcopies := [], nextId := 1, mem := [], seals := [], sinter := [], ivals := [], races := [], xacts := [], served := 0, bankPtr := [], tlbs := [], rocPages := []
    unackFaults := [], hostFrozen := [], shoots := [], cow := [], slotLoads := [], convs := [], locks := [], grpUpd := []
    saveUse := [], saves := [], pool := [], wires := [], outbox := [], msix := [], answers := [], spdm := [], ats := [], atsInv := []
    absent := none, free := 0, cur := Cursor.init, curQ := 0, agenda := [], inputs := [] }

/-! ### Access to the parts -/

/-- The core of a core identity, die × 64 + router index. -/
def State.core (s : State) (i : Nat) : Core := FMap.get Core.init s.cores i
/-- Replace one core. -/
def State.setCore (s : State) (i : Nat) (c : Core) : State := { s with cores := FMap.put s.cores i c }
def State.die (s : State) (d : Nat) : Die := FMap.get Die.init s.dies d
def State.setDie (s : State) (d : Nat) (x : Die) : State := { s with dies := FMap.put s.dies d x }
def State.queue (s : State) (q : Nat) : Queue := FMap.get Queue.init s.queues q
def State.setQueue (s : State) (q : Nat) (x : Queue) : State := { s with queues := FMap.put s.queues q x }
def State.launch (s : State) (l : Nat) : Option Launch := s.launches.find? fun x => x.id == l
def State.setLaunch (s : State) (x : Launch) : State :=
  { s with launches := s.launches.map fun y => if y.id = x.id then x else y }
def Die.link (d : Die) (k : Nat) : Link := FMap.get Link.init d.links k
def Die.setLink (d : Die) (k : Nat) (x : Link) : Die := { d with links := FMap.put d.links k x }
def Die.router (d : Die) (k : Nat) : Router := FMap.get Router.init d.routers k
def Die.setRouter (d : Die) (k : Nat) (x : Router) : Die := { d with routers := FMap.put d.routers k x }
def Die.slotTab (d : Die) (k : Nat) : SlotTab := FMap.get SlotTab.init d.slotTabs k
/-- Number of this module's first die in the causality domain (Table 2.9). -/
def State.dieBase (s : State) : Nat := 8 * s.mod.modidx.toNat

end Sys2Proof.Machine
end

