-- ==== Sys2Proof/Machine/Ops.lean ====
section
/-! DEFINITION. Shared operations: taking a core exception and returning from one, the gate of every lane operation, landing data,
fault records. -/
namespace Sys2Proof.Machine

/-! ### Rollback (R160 to R163) -/

/-- Scratchpad with every granule of the undo log at its old contents. -/
def undoSpad (spad : Memory) : FMap (BitVec 512) → Memory
  | [] => spad
  | (g, v) :: t => undoSpad (Memory.writeN spad (64 * g) 64 v.toNat) t

/-- Tiles after rollback: the before-image of a tile live-in and modified; zero for every other modified tile (R160). -/
def undoTiles {α : Type} (live : List Nat) (old : FMap α) (now : FMap α) : List Nat → FMap α
  | [] => now
  | t :: l =>
    let now := undoTiles live old now l
    if live.contains t then (match FMap.find old t with | some x => FMap.put now t x | none => FMap.erase now t)
    else FMap.erase now t

/-- Bobbin entries that the landing items of a pending record still need. -/
def landIds (l : List Pend) : List Nat := l.filterMap fun p => match p.eff with | .land b _ _ => some b | _ => none

/-- Tiles that the row writes of a pending record still change; a rollback takes back what of them landed in the segment (R162, R167). -/
def rowIds (l : List Pend) : List Nat := l.filterMap fun p => match p.eff with | .row t _ _ _ _ _ => some t | _ => none

/-- Pins held by the operands buffered in tile-fetch ports. -/
def heldPins (ports : FMap TfPort) : List (Nat × Nat) := ports.flatMap fun p => p.2.buf.flatMap fun e => e.pins

/-- Does the entry of index j in the buffer of a tile-fetch port outlive a rollback: was it fetched before the segment, whose start found
the port as `k`? -/
def tfStays (k : Option TfPort) (p : TfPort) (j : Nat) : Bool :=
  match k with | some k => k.img == p.img && decide (k.taken ≤ j) && decide (j < k.formed) | none => false
/-- Pins of the operands the open segment fetched, which a rollback releases (R188). -/
def tfGone (k : Option TfPort) (p : TfPort) : List (Nat × Nat) :=
  p.buf.zipIdx.flatMap fun e => if tfStays k p (p.taken + e.2) then [] else e.1.pins
/-- A tile-fetch port after a rollback: as the segment's start found it, with the pins its operands still hold. -/
def tfBack (k : TfPort) (p : Option TfPort) : TfPort :=
  { k with buf := k.buf.zipIdx.map fun e =>
      let j := k.taken + e.2
      { e.1 with pins := match p with
          | some p => if p.img = k.img ∧ p.taken ≤ j then (match p.buf[j - p.taken]? with | some x => x.pins | none => []) else []
          | none => [] } }
/-- A core whose tile-fetch buffers are emptied, their pins given up. -/
def dropTiles (c : Core) : Core :=
  { c with unpins := c.unpins ++ heldPins c.arch.tfports
           arch := { c.arch with tfports := c.arch.tfports.map fun p => (p.1, { p.2 with buf := [], formed := p.2.taken }) } }

/-- Is a pending item a change of VXF? -/
def isFlags (p : Pend) : Bool := match p.eff with | .flags _ => true | _ => false
/-- A row write without its flags. -/
def bareRow (p : Pend) : Pend := match p.eff with | .row t r op v m _ => { p with eff := .row t r op v m true } | _ => p
/-- The items of a pending-writes record, which carries no flags of VXF (R265). -/
def recItems (l : List Pend) : List Pend := (l.filter fun p => !isFlags p).map bareRow
/-- A read port after a rollback: an entry whose fetch faulted, and what was fetched after it, are fetched again (R371). -/
def portBack (p : Port) : Port := { p with buf := p.buf.takeWhile fun e => e.fault.isNone }
/-- The same of a tile-fetch port. -/
def tfRetry (p : TfPort) : TfPort :=
  let b := p.buf.takeWhile fun e => e.fault.isNone
  { p with buf := b, formed := p.taken + b.length }

/-- ROLLBACK to the checkpoint bundle k of the open segment (R162): the kept state back, the scratchpad and the tiles undone,
Bobbin entries of the segment freed and those of the pending-writes record back (R167), the pins of the segment's tile fetches given up
(R188), CTK as at the commit. The record carries no flags of VXF (R265); what a port could not fetch it fetches again. -/
def rollbackCore (c : Core) : Core :=
  let k := c.keep
  let ids := landIds (k.pend ++ k.uiHeld)
  let rows := (rowIds (k.pend ++ k.uiHeld)).filter fun t => !c.arch.tMod.contains t
  let tf := k.tfports.map fun p => (p.1, tfBack p.2 (FMap.find c.arch.tfports p.1))
  { c with
    arch := { k with tfports := tf.map fun p => (p.1, tfRetry p.2), ports := k.ports.map fun p => (p.1, portBack p.2)
                     pend := recItems k.pend, uiHeld := recItems k.uiHeld }
    spad := undoSpad c.spad c.spadLog, spadLog := []
    tiles := undoTiles (rows ++ c.arch.tLive) c.tilesK c.tiles (rows ++ c.arch.tMod)
    psum := undoTiles (rows ++ c.arch.tLive) c.psumK c.psum (rows ++ c.arch.tMod), rowLog := [], rcrc := 0
    bobs := (c.bobs ++ c.landed).filter fun b => ids.contains b.id, landed := []
    transit := c.transit.filter fun t => ids.contains t.bob
    accs := c.accs.filter fun a => (match a.kind with | .wr => true | _ => false) || decide (a.seq < k.segK)
    unpins := c.unpins ++ (c.arch.tfports.flatMap fun p => tfGone (FMap.find k.tfports p.1) p.2) ++
      tf.flatMap fun p => (p.2.buf.dropWhile fun e => e.fault.isNone).flatMap fun e => e.pins
    waits := [], bobFull := none, stalled := none, held := false, stuck := false, owes := false }

/-- TAKING A CORE EXCEPTION (R162, R164): no group issues after this tick; the core restores the state of its open segment's
checkpoint bundle and waits, rolled back, for ROLLBACK_COMPLETE, which enters the supervisor handler, or writes the fault record
with WHERE at the faulting bundle and freezes, or replays. -/
def takeTrap (cu : Cursor) (t : Trap) (c : Core) : Core :=
  { rollbackCore c with mode := .rolled t cu.pos }

/-- RETURN FROM A CORE EXCEPTION: a resumed core, or one whose handler is done, replays from bundle k (R164, R173). -/
def replayCore (c : Core) : Core := { c with mode := .run }

/-- Let the replay pass a trap operation once, whatever rolls the replay itself back (R313). -/
def skipTrap (pos : Option Nat) (c : Core) : Core :=
  { c with arch := { c.arch with skip := pos }, keep := { c.keep with skip := pos } }

/-- A lane operation: gated by its stage predicate (R140), it changes only the issuing core. An invalid PR field takes the trap
whatever the predicates hold (R287). -/
def laneStep (s : State) (pr : BitVec 6) (body : Cursor → Core → LM Core) : Host.Outcome State Fault Refusal :=
  let c := s.core s.cur.core
  match stagePred c pr with
  | none => .next (s.setCore s.cur.core (takeTrap s.cur (Trap.illegal 2 s.cur.lane) c))
  | some false => .next s
  | some true =>
    match body s.cur c with
    | .ok c' => .next (s.setCore s.cur.core c')
    | .error (.trap t) => .next (s.setCore s.cur.core (takeTrap s.cur t c))
    | .error e => .next (s.setCore s.cur.core { c with stalled := some e })

/-- Is a die of the causality domain present (R406)? -/
def diePresent (s : State) (j : Nat) : Bool := decide (j < 32) && s.mod.present.getLsbD (j / 8)

end Sys2Proof.Machine
end

