-- ==== Sys2Proof/Machine/Control.lean ====
section
/-! DEFINITION. Control operations of lane S0 (R132, R305 to R314): each waits, as a `Ctl`, for every group to issue its bundle. -/
namespace Sys2Proof.Machine

/-- The loop stack as it stands for the bundle being issued: later loop-backs of group S are already counted (R142). -/
def loopsAt (cu : Cursor) (c : Core) : List LoopEntry :=
  match c.arch.fq.find? fun f => f.seq == cu.seq with
  | some f => f.loops
  | none => c.arch.loops

/-- Position after the bundle at the cursor: 1, or 25 for a literal (R277, R307). -/
def nextPos (cu : Cursor) : Nat := cu.pos + (if cu.lit then 25 else 1)

def setCtl (cu : Cursor) (k : Ctl) (c : Core) : Core := { c with arch := { c.arch with ctl := some (cu.seq, k) } }

/-- A taken br, a call, a ret, a loop or an rloop must not stand at E of the top loop entry (R305). -/
def notAtE (cu : Cursor) (c : Core) : LM Unit :=
  match loopsAt cu c with
  | e :: _ => if e.e = cu.pos then illegal cu 5 else .ok ()
  | [] => .ok ()

/-- The condition of br (R306). -/
def brTaken (fn : Nat) (x : Word) : Bool :=
  match fn with
  | 0 => true | 1 => decide (x = 0) | 2 => decide (x ≠ 0) | 3 => decide (x.toInt < 0)
  | 4 => decide (x.toInt ≥ 0) | 5 => decide (x.toInt > 0) | _ => decide (x.toInt ≤ 0)

def brBody (f : SC) (cu : Cursor) (c : Core) : LM Core := do
  need cu (decide (f.fn.toNat ≤ 6) && (decide (f.fn ≠ 0) || f.sa = 0))
  let (x, c) ← if f.fn = 0 then .ok (0, c) else resolveS cu f.sa c
  if brTaken f.fn.toNat x then do
    notAtE cu c
    .ok (setCtl cu (.jump f.tgt.toNat) c)
  else .ok c
def execBr (f : SC) (s : State) := laneStep s f.pr (brBody f)

def callBody (f : SC) (cu : Cursor) (c : Core) : LM Core := do
  need cu (decide (f.fn.toNat ≤ 1) && (if f.fn = 0 then f.sa = 0 else f.tgt = 0))
  let (x, c) ← if f.fn = 0 then .ok (0, c) else resolveS cu f.sa c
  notAtE cu c
  let c := emit cu 1 (.s 31 (BitVec.ofNat 64 (nextPos cu))) c
  let c := emitLatch cu 1 (BitVec.ofNat 512 (nextPos cu)) c
  .ok (setCtl cu (.jump (if f.fn = 0 then f.tgt.toNat else x.toNat % 65536)) c)
def execCall (f : SC) (s : State) := laneStep s f.pr (callBody f)

def retBody (f : SC) (cu : Cursor) (c : Core) : LM Core := do
  need cu (f.fn = 0 && f.tgt = 0)
  let (x, c) ← resolveS cu f.sa c
  notAtE cu c
  .ok (setCtl cu (.jump (x.toNat % 65536)) c)
def execRet (f : SC) (s : State) := laneStep s f.pr (retBody f)

def lbreakBody (f : SC) (cu : Cursor) (c : Core) : LM Core := do
  need cu (f.fn = 0 && f.sa = 0)
  if loopsAt cu c = [] then illegal cu 5
  else .ok (setCtl cu (.pop f.tgt.toNat) c)
def execLbreak (f : SC) (s : State) := laneStep s f.pr (lbreakBody f)

/-- Does E reach or pass the top entry's E? -/
def beyondTop (l : List LoopEntry) (e : Nat) : Bool := match l with | t :: _ => decide (e ≥ t.e) | [] => false

/-- loop and rloop (R308). In the user-interrupt handler, set-up with six entries held takes the same trap (R155). -/
def loopBody (f : SC) (rot : Bool) (cu : Cursor) (c : Core) : LM Core := do
  need cu (f.fn = 0)
  let (x, c) ← resolveS cu f.sa c
  notAtE cu c
  let l := loopsAt cu c
  let e := f.tgt.toNat
  let st := nextPos cu
  let n := x.toNat % 2 ^ 32
  if l.length ≥ 6 ∨ e < st ∨ e ≥ c.coden ∨ beyondTop l e then illegal cu 5
  else if n = 0 then .ok (setCtl cu (.jump (e + (if FMap.get 0 c.code e = 0xFFFF then 25 else 1))) c)
  else .ok (setCtl cu (.push st ⟨st, e, n, if rot then x.toNat / 2 ^ 32 % 256 else 0, 0, rot⟩) c)
def execLoop (f : SC) (s : State) := laneStep s f.pr (loopBody f false)
def execRloop (f : SC) (s : State) := laneStep s f.pr (loopBody f true)

/-- Does the task hold a group no JOIN has closed, an uncommitted spawn included (R309)? -/
def holdsGroup (c : Core) : Bool :=
  c.openGroup.isSome || c.arch.posted.any fun p => match p with | .spawn _ _ => true | _ => false

def spawnBody (f : SC) (cu : Cursor) (c : Core) : LM Core := do
  need cu (f.fn = 0 && decide (f.tgt.toNat < 128))
  let (lo, c) ← resolveS cu f.sa c
  let (hi, c) ← resolveS cu (f.tgt.setWidth 7) c
  let ply := match c.task with | some t => t.ply | none => 0
  if ply + 1 ≥ c.nply ∨ holdsGroup c ∨ lo.toNat > hi.toNat then illegal cu 7
  else .ok { c with arch := { c.arch with posted := c.arch.posted ++ [.spawn lo hi] } }
def execSpawn (f : SC) (s : State) := laneStep s f.pr (spawnBody f)

def joinBody (f : SC) (cu : Cursor) (c : Core) : LM Core := do
  need cu (f.fn = 0 && f.sa = 0 && decide (f.tgt.toNat < 64))
  if c.arch.uiActive then illegal cu 6
  else .ok (setCtl cu (.join (mapReg c.arch.rot f.tgt.toNat) (nextPos cu)) c)
def execJoin (f : SC) (s : State) := laneStep s f.pr (joinBody f)

/-- exit and exitab are refused in the handler (SUB 6) and while a spawn group is open (SUB 7) (R311, R312). -/
def exitOk (cu : Cursor) (c : Core) : LM Unit :=
  if c.arch.uiActive then illegal cu 6 else if holdsGroup c then illegal cu 7 else .ok ()
def exitBody (f : SC) (cu : Cursor) (c : Core) : LM Core := do
  need cu (decide (f.fn.toNat ≤ 1) && f.tgt = 0 && (decide (f.fn ≠ 0) || f.sa = 0))
  let (x, c) ← if f.fn = 0 then .ok (0, c) else resolveS cu f.sa c
  exitOk cu c
  .ok (setCtl cu (.exit (if f.fn = 0 then none else some x) (nextPos cu)) c)
def execExit (f : SC) (s : State) := laneStep s f.pr (exitBody f)
def exitabBody (f : SC) (cu : Cursor) (c : Core) : LM Core := do
  need cu (f.fn = 0 && f.tgt = 0)
  let (x, c) ← resolveS cu f.sa c
  exitOk cu c
  .ok (setCtl cu (.exitab (x.toNat % 256) cu.pos) c)
def execExitab (f : SC) (s : State) := laneStep s f.pr (exitabBody f)

/-- trap n: SWTRAP with SUB n; the first issue after a resume of that trap acts as if its predicate were false (R313). -/
def trapBody (f : SC) (cu : Cursor) (c : Core) : LM Core := do
  need cu (f.fn = 0 && f.sa = 0 && decide (f.tgt.toNat < 256))
  if c.arch.skip = some cu.pos then .ok { c with arch := { c.arch with skip := none } }
  else .error (.trap (Trap.core 54 f.tgt.toNat cu.lane))
def execTrap (f : SC) (s : State) := laneStep s f.pr (trapBody f)

/-- uiret (R155, R314). -/
def uiretBody (f : SC) (cu : Cursor) (c : Core) : LM Core := do
  need cu (f.fn = 0 && f.sa = 0 && f.tgt = 0)
  if ¬ c.arch.uiActive ∨ (loopsAt cu c).length ≠ c.arch.uiDepth then illegal cu 6
  else .ok (setCtl cu .uiret c)
def execUiret (f : SC) (s : State) := laneStep s f.pr (uiretBody f)

end Sys2Proof.Machine
end

