-- ==== Sys2Proof/Config.lean ====
section
/-! DEFINITION. What the spec leaves open, or gives by reference to a standard outside it: opaque constants without a body, of which
nothing can be evaluated or proved. -/
namespace Sys2Proof.Config

/-- The result of a draw merge over a pair whose mass is NaN or +∞, which R272 and R274 do not give (log 20). -/
opaque drawMerge : BitVec 64 → BitVec 64 → BitVec 64

/-- The n-th value the spec leaves open, by the counter `free` of State (log 36). -/
opaque freeValue : Nat → BitVec 64

/-- Key material of the n-th GEN (R72, log 31). -/
opaque randomKey : Nat → BitVec 512

/-- Stored lines less one of a compressed block (R193): the encoding is lossless and not given (log 32). -/
opaque storedLines : BitVec 4096 → BitVec 2

/-- The 32 random bytes of the n-th signature (FIPS 204's rnd, log 33). -/
opaque signRandom : Nat → BitVec 256
/-- The alias certificate (R77, log 33): the bytes its issuer signs, from the two public keys, and its DER form, from those and the signature. -/
opaque certBody : List Byte → List Byte → List Byte
opaque certDer : List Byte → List Byte → List Byte
/-- The transcript an SPDM 1.3 signature covers (R78, log 34). -/
opaque transcript : Nat → Nat → BitVec 256 → List Byte → List Byte

/-- Position of the module at the other end of an external link, by die and link, learned in ALIGN (R41, R406, log 41). -/
opaque linkModule : Nat → Nat → BitVec 2

/-- What a die of another module returns at an address (`Machine.maddr`) to an engine's read in a cycle (log 109). -/
opaque farValue : Nat → Nat → Nat

end Sys2Proof.Config
end

