-- ==== Sys2Proof/Machine/Flags.lean ====
section
/-! DEFINITION. Flag computations: sticky flags of VXF (R264 to R266), the compare conditions of the lanes (R299, R300, R325). -/
namespace Sys2Proof.Machine

/-- OR flags into position i of a VXF image (Table 11.5). -/
def vxfOr (x : PWord) (i : Nat) (fl : FlagBits) : PWord := x ||| (fl.setWidth 1024 <<< (8 * i))

/-- Queue the flags of an operation, unless NF suppresses them (R265, R282). -/
def emitFlags (cu : Cursor) (lat : Nat) (nf : BitVec 1) (fl : List (Nat × FlagBits)) (c : Core) : Core :=
  let l := fl.filter fun x => x.2 ≠ 0
  if nf = 1 ∨ l = [] then c else emit cu lat (.flags l) c

/-- ANY of VXFS: the OR of every position's flags (Table 11.5). -/
def vxfAny (x : PWord) : FlagBits := (List.range 128).foldl (fun a i => a ||| (x >>> (8 * i)).setWidth 5) 0

/-- The integer conditions 0 eq, 1 ne, 2 lt, 3 ge, 4 le, 5 gt of R299 and R325. -/
def intCond (cond : Nat) (a b : Int) : Bool :=
  match cond with
  | 0 => decide (a = b) | 1 => decide (a ≠ b) | 2 => decide (a < b)
  | 3 => decide (a ≥ b) | 4 => decide (a ≤ b) | _ => decide (a > b)

/-- The float format of a two-bit type code: 0 f32, 1 f16, 2 bf16 (R293). -/
def fmtOfCode (n : Nat) : FFmt := if n = 0 then f32 else if n = 1 then f16 else bf16

end Sys2Proof.Machine
end

