-- ==== Sys2Proof/Machine/Scalar.lean ====
section
/-! DEFINITION. Scalar integer operations, constants, compares and stage-predicate logic (R295 to R301). -/
namespace Sys2Proof.Machine

/-- Two-source integer operation of form SR with NF and FN unused (R295, R296). -/
def scalar2 (f : SR) (lat : Nat) (op : Word → Word → Word) (cu : Cursor) (c : Core) : LM Core := do
  need cu (f.nf = 0 && f.fn = 0)
  let (a, c) ← resolveS cu f.sa c
  let (b, c) ← resolveS cu f.sb c
  writeS cu f.dst f.ws lat (op a b) c

/-- One-source integer operation: SB, NF and FN must be 0. -/
def scalar1 (f : SR) (lat : Nat) (op : Word → Word) (cu : Cursor) (c : Core) : LM Core := do
  need cu (f.nf = 0 && f.fn = 0 && f.sb = 0)
  let (a, c) ← resolveS cu f.sa c
  writeS cu f.dst f.ws lat (op a) c

/-- One-source operation whose FN selects a width of 8, 16 or 32 (sext, zext). -/
def scalarExt (f : SR) (op : Nat → Word → Word) (cu : Cursor) (c : Core) : LM Core := do
  need cu (f.nf = 0 && f.sb = 0 && decide (f.fn.toNat ≤ 2))
  let (a, c) ← resolveS cu f.sa c
  writeS cu f.dst f.ws 1 (op (8 * 2 ^ f.fn.toNat) a) c

/-- Immediate operation of form SI (R297). -/
def scalarI (f : SI) (ok : BitVec 11 → Bool) (op : Word → Word → Word) (cu : Cursor) (c : Core) : LM Core := do
  need cu (ok f.imm)
  let (a, c) ← resolveS cu f.sa c
  writeS cu f.dst f.ws 1 (op a (f.imm.signExtend 64)) c

def anyImm (_ : BitVec 11) : Bool := true
/-- Shift immediates: IMM[10:6] must be 0 (R297). -/
def shImm (i : BitVec 11) : Bool := i.toNat < 64

def sShl (a b : Word) : Word := a <<< (b.toNat % 64)
def sShr (a b : Word) : Word := a >>> (b.toNat % 64)
def sSra (a b : Word) : Word := a.sshiftRight (b.toNat % 64)
def sRotl (a b : Word) : Word := a.rotateLeft (b.toNat % 64)
def sMin (a b : Word) : Word := if a.toInt < b.toInt then a else b
def sMax (a b : Word) : Word := if a.toInt < b.toInt then b else a
def sMinu (a b : Word) : Word := if a.toNat < b.toNat then a else b
def sMaxu (a b : Word) : Word := if a.toNat < b.toNat then b else a
def sMulh (a b : Word) : Word := BitVec.ofInt 64 (a.toInt * b.toInt / 2 ^ 64)
def sMulhu (a b : Word) : Word := BitVec.ofNat 64 (a.toNat * b.toNat / 2 ^ 64)
/-- Division by zero gives all ones; −2^63 / −1 gives −2^63 (Table 13.1). -/
def sDiv (a b : Word) : Word := if b = 0 then -1 else BitVec.ofInt 64 (a.toInt.tdiv b.toInt)
def sDivu (a b : Word) : Word := if b = 0 then -1 else BitVec.ofNat 64 (a.toNat / b.toNat)
def sRem (a b : Word) : Word := if b = 0 then a else BitVec.ofInt 64 (a.toInt.tmod b.toInt)
def sRemu (a b : Word) : Word := if b = 0 then a else BitVec.ofNat 64 (a.toNat % b.toNat)
/-- Leading zeros of the low w bits of x. -/
def clzN (w x : Nat) : Nat := if x = 0 then w else w - 1 - Nat.log2 x
/-- Trailing zeros, w when x = 0. -/
def ctzN (x : Nat) : Nat → Nat
  | 0 => 0
  | w + 1 => if x % 2 = 1 then 0 else 1 + ctzN (x / 2) w
/-- Set bits of the low w bits. -/
def popN (x : Nat) : Nat → Nat
  | 0 => 0
  | w + 1 => x % 2 + popN (x / 2) w
def sSext (w : Nat) (a : Word) : Word := (a.setWidth w).signExtend 64
def sZext (w : Nat) (a : Word) : Word := (a.setWidth w).setWidth 64
def sAbs (a : Word) : Word := if a.toInt < 0 then -a else a
/-- Bytes in reverse order. -/
def bswap (a : Word) : Word :=
  BitVec.ofNat 64 (packElems 8 (fun i => elem 8 a.toNat (7 - i)) 8)

def execAdd (f : SR) (s : State) := laneStep s f.pr (scalar2 f 1 (· + ·))
def execSub (f : SR) (s : State) := laneStep s f.pr (scalar2 f 1 (· - ·))
def execAnd (f : SR) (s : State) := laneStep s f.pr (scalar2 f 1 (· &&& ·))
def execOr (f : SR) (s : State) := laneStep s f.pr (scalar2 f 1 (· ||| ·))
def execXor (f : SR) (s : State) := laneStep s f.pr (scalar2 f 1 (· ^^^ ·))
def execAndn (f : SR) (s : State) := laneStep s f.pr (scalar2 f 1 fun a b => a &&& ~~~b)
def execShl (f : SR) (s : State) := laneStep s f.pr (scalar2 f 1 sShl)
def execShr (f : SR) (s : State) := laneStep s f.pr (scalar2 f 1 sShr)
def execSra (f : SR) (s : State) := laneStep s f.pr (scalar2 f 1 sSra)
def execRotl (f : SR) (s : State) := laneStep s f.pr (scalar2 f 1 sRotl)
def execMin (f : SR) (s : State) := laneStep s f.pr (scalar2 f 1 sMin)
def execMax (f : SR) (s : State) := laneStep s f.pr (scalar2 f 1 sMax)
def execMinu (f : SR) (s : State) := laneStep s f.pr (scalar2 f 1 sMinu)
def execMaxu (f : SR) (s : State) := laneStep s f.pr (scalar2 f 1 sMaxu)
def execMov (f : SR) (s : State) := laneStep s f.pr (scalar1 f 1 id)
def execMul (f : SR) (s : State) := laneStep s f.pr (scalar2 f 3 (· * ·))
def execMulh (f : SR) (s : State) := laneStep s f.pr (scalar2 f 3 sMulh)
def execMulhu (f : SR) (s : State) := laneStep s f.pr (scalar2 f 3 sMulhu)
def execDiv (f : SR) (s : State) := laneStep s f.pr (scalar2 f 24 sDiv)
def execDivu (f : SR) (s : State) := laneStep s f.pr (scalar2 f 24 sDivu)
def execRem (f : SR) (s : State) := laneStep s f.pr (scalar2 f 24 sRem)
def execRemu (f : SR) (s : State) := laneStep s f.pr (scalar2 f 24 sRemu)
def execClz (f : SR) (s : State) := laneStep s f.pr (scalar1 f 1 fun a => BitVec.ofNat 64 (clzN 64 a.toNat))
def execCtz (f : SR) (s : State) := laneStep s f.pr (scalar1 f 1 fun a => BitVec.ofNat 64 (ctzN a.toNat 64))
def execPopc (f : SR) (s : State) := laneStep s f.pr (scalar1 f 1 fun a => BitVec.ofNat 64 (popN a.toNat 64))
def execSext (f : SR) (s : State) := laneStep s f.pr (scalarExt f sSext)
def execZext (f : SR) (s : State) := laneStep s f.pr (scalarExt f sZext)

/-- sel: a when logical g(FN) is 1, else b (R296). -/
def scalarSel (f : SR) (cu : Cursor) (c : Core) : LM Core := do
  need cu (f.nf = 0)
  let (a, c) ← resolveS cu f.sa c
  let (b, c) ← resolveS cu f.sb c
  writeS cu f.dst f.ws 1 (if readG c f.fn.toNat then a else b) c
def execSel (f : SR) (s : State) := laneStep s f.pr (scalarSel f)
def execAbs (f : SR) (s : State) := laneStep s f.pr (scalar1 f 1 sAbs)
def execNeg (f : SR) (s : State) := laneStep s f.pr (scalar1 f 1 fun a => -a)
def execBswap (f : SR) (s : State) := laneStep s f.pr (scalar1 f 1 bswap)

def execAddi (f : SI) (s : State) := laneStep s f.pr (scalarI f anyImm (· + ·))
def execSubi (f : SI) (s : State) := laneStep s f.pr (scalarI f anyImm (· - ·))
def execAndi (f : SI) (s : State) := laneStep s f.pr (scalarI f anyImm (· &&& ·))
def execOri (f : SI) (s : State) := laneStep s f.pr (scalarI f anyImm (· ||| ·))
def execXori (f : SI) (s : State) := laneStep s f.pr (scalarI f anyImm (· ^^^ ·))
def execAndni (f : SI) (s : State) := laneStep s f.pr (scalarI f anyImm fun a b => a &&& ~~~b)
def execShli (f : SI) (s : State) := laneStep s f.pr (scalarI f shImm sShl)
def execShri (f : SI) (s : State) := laneStep s f.pr (scalarI f shImm sShr)
def execSrai (f : SI) (s : State) := laneStep s f.pr (scalarI f shImm sSra)
def execRotli (f : SI) (s : State) := laneStep s f.pr (scalarI f shImm sRotl)
def execMini (f : SI) (s : State) := laneStep s f.pr (scalarI f anyImm sMin)
def execMaxi (f : SI) (s : State) := laneStep s f.pr (scalarI f anyImm sMax)
def execMinui (f : SI) (s : State) := laneStep s f.pr (scalarI f anyImm sMinu)
def execMaxui (f : SI) (s : State) := laneStep s f.pr (scalarI f anyImm sMaxu)

/-- li (R298). -/
def scalarLi (f : SL) (cu : Cursor) (c : Core) : LM Core := writeS cu f.dst f.ws 1 (f.imm.signExtend 64) c
/-- lis reads its own destination, which must be a register (R298). -/
def scalarLis (f : SL) (cu : Cursor) (c : Core) : LM Core := do
  need cu (decide (f.dst.toNat ≤ 63))
  writeS cu f.dst f.ws 1 ((readS c f.dst.toNat <<< 18) ||| f.imm.setWidth 64) c
def execLi (f : SL) (s : State) := laneStep s f.pr (scalarLi f)
def execLis (f : SL) (s : State) := laneStep s f.pr (scalarLis f)

/-- cmp, cmpu: FN is the condition, DST[6:5] must be 0 (R299). -/
def scalarCmp (f : SR) (signed : Bool) (cu : Cursor) (c : Core) : LM Core := do
  need cu (f.nf = 0 && decide (f.dst.toNat < 32) && decide (f.fn.toNat ≤ 5))
  let (a, c) ← resolveS cu f.sa c
  let (b, c) ← resolveS cu f.sb c
  let r := if signed then intCond f.fn.toNat a.toInt b.toInt else intCond f.fn.toNat a.toNat b.toNat
  .ok (writeG cu f.dst.toNat f.ws 1 r c)
def execCmp (f : SR) (s : State) := laneStep s f.pr (scalarCmp f true)
def execCmpu (f : SR) (s : State) := laneStep s f.pr (scalarCmp f false)

/-- cmpi: condition IMM[10:8], value IMM[7:0] sign-extended (R299). -/
def scalarCmpi (f : SI) (cu : Cursor) (c : Core) : LM Core := do
  let cond := (f.imm.extractLsb' 8 3).toNat
  need cu (decide (f.dst.toNat < 32) && decide (cond ≤ 5))
  let (a, c) ← resolveS cu f.sa c
  .ok (writeG cu f.dst.toNat f.ws 1 (intCond cond a.toInt (f.imm.setWidth 8).toInt) c)
def execCmpi (f : SI) (s : State) := laneStep s f.pr (scalarCmpi f)

/-- A g operand of the predicate logic: logical g0 to g31, or 127 for zero (R301). -/
def gSource (cu : Cursor) (code : BitVec 7) (c : Core) : LM Bool :=
  if code.toNat < 32 then .ok (readG c code.toNat) else if code.toNat = 127 then .ok false else illegal cu 2
def gLogic (f : SR) (op : Bool → Bool → Bool) (cu : Cursor) (c : Core) : LM Core := do
  need cu (f.nf = 0 && f.fn = 0 && decide (f.dst.toNat < 32))
  let a ← gSource cu f.sa c
  let b ← gSource cu f.sb c
  .ok (writeG cu f.dst.toNat f.ws 1 (op a b) c)
def execGand (f : SR) (s : State) := laneStep s f.pr (gLogic f (· && ·))
def execGor (f : SR) (s : State) := laneStep s f.pr (gLogic f (· || ·))
def execGxor (f : SR) (s : State) := laneStep s f.pr (gLogic f (· != ·))
def execGandn (f : SR) (s : State) := laneStep s f.pr (gLogic f fun a b => a && !b)
/-- gset: bit 0 of a source (R301). -/
def gSet (f : SR) (cu : Cursor) (c : Core) : LM Core := do
  need cu (f.nf = 0 && f.fn = 0 && f.sb = 0 && decide (f.dst.toNat < 32))
  let (a, c) ← resolveS cu f.sa c
  .ok (writeG cu f.dst.toNat f.ws 1 (a.getLsbD 0) c)
def execGset (f : SR) (s : State) := laneStep s f.pr (gSet f)

/-- An empty slot has no effect; its group's part was counted at issue (R134, R279). -/
def execEmptySlot (s : State) : Host.Outcome State Fault Refusal := .next s

end Sys2Proof.Machine
end

