-- ==== Sys2Proof/Machine/VecInt.lean ====
section
/-! DEFINITION. Vector integer operations, moves, selection, compares and predicate operations (R318 to R323, R325, R326). -/
namespace Sys2Proof.Machine

/-- Element width of a type code 0 to 11 (Table 12.8). -/
def tyWidth (ty : Nat) : Nat :=
  match ty with
  | 0 => 8 | 1 => 8 | 2 => 16 | 3 => 16 | 4 => 32 | 5 => 32 | 6 => 32 | 7 => 16 | 8 => 16 | 9 => 8 | 10 => 8 | 11 => 4
  | _ => 8
/-- TY 0, 2 and 4 are signed (R321). -/
def tySigned (ty : Nat) : Bool := ty % 2 = 0

/-- Apply an element function over two registers. -/
def mapElems2 (w : Nat) (op : Nat → Nat → Nat) (a b : VWord) : VWord :=
  BitVec.ofNat 4096 (packElems w (fun i => op (elem w a.toNat i) (elem w b.toNat i)) (4096 / w))
def mapElems1 (w : Nat) (op : Nat → Nat) (a : VWord) : VWord :=
  BitVec.ofNat 4096 (packElems w (fun i => op (elem w a.toNat i)) (4096 / w))
/-- A register whose element i is g i. -/
def buildV (w : Nat) (g : Nat → Nat) : VWord := BitVec.ofNat 4096 (packElems w g (4096 / w))

/-- Two-source integer element operation of form VR, TY 0 to 5, no flags (R321). -/
def vecInt2 (f : VR) (lat : Nat) (op : Nat → Nat → Nat → Nat → Nat) (cu : Cursor) (c : Core) : LM Core := do
  need cu (decide (f.ty.toNat ≤ 5) && f.nf = 0 && f.fn = 0)
  let w := tyWidth f.ty.toNat
  let (a, c) ← resolveV cu f.sa c
  let (b, c) ← resolveV cu f.sb c
  writeV cu f.dst f.ws lat w (mapElems2 w (op f.ty.toNat w) a b) (spread w (epMask c f.ep)) c
def vecInt1 (f : VR) (op : Nat → Nat → Nat) (cu : Cursor) (c : Core) : LM Core := do
  need cu (decide (f.ty.toNat ≤ 5) && f.nf = 0 && f.fn = 0 && f.sb = 0)
  let w := tyWidth f.ty.toNat
  let (a, c) ← resolveV cu f.sa c
  writeV cu f.dst f.ws 2 w (mapElems1 w (op w) a) (spread w (epMask c f.ep)) c
/-- Immediate form VI: b is the 7-bit immediate sign-extended to w bits (R322). -/
def vecIntI (f : VR) (lat : Nat) (shift : Bool) (op : Nat → Nat → Nat → Nat → Nat) (cu : Cursor) (c : Core) : LM Core := do
  let w := tyWidth f.ty.toNat
  need cu (decide (f.ty.toNat ≤ 5) && f.nf = 0 && f.fn = 0 && (!shift || decide (f.sb.toNat < w)))
  let (a, c) ← resolveV cu f.sa c
  let b := wrapN w f.sb.toInt
  writeV cu f.dst f.ws lat w (mapElems1 w (fun x => op f.ty.toNat w x b) a) (spread w (epMask c f.ep)) c

-- element operations: type code, width, a, b
def eAdd (_ w a b : Nat) : Nat := (a + b) % 2 ^ w
def eSub (_ w a b : Nat) : Nat := (a + 2 ^ w - b) % 2 ^ w
def eAnd (_ _ a b : Nat) : Nat := a &&& b
def eOr (_ _ a b : Nat) : Nat := a ||| b
def eXor (_ _ a b : Nat) : Nat := a ^^^ b
def eAndn (_ w a b : Nat) : Nat := a &&& (2 ^ w - 1 - b)
def eShl (_ w a b : Nat) : Nat := (a <<< (b % w)) % 2 ^ w
def eShr (_ w a b : Nat) : Nat := a >>> (b % w)
def eSra (_ w a b : Nat) : Nat := wrapN w (toSigned w a / 2 ^ (b % w))
def eMin (_ w a b : Nat) : Nat := if toSigned w a < toSigned w b then a else b
def eMax (_ w a b : Nat) : Nat := if toSigned w a < toSigned w b then b else a
def eMinu (_ _ a b : Nat) : Nat := if a < b then a else b
def eMaxu (_ _ a b : Nat) : Nat := if a < b then b else a
def eMul (_ w a b : Nat) : Nat := (a * b) % 2 ^ w
def eMulh (ty w a b : Nat) : Nat :=
  if tySigned ty then wrapN w (toSigned w a * toSigned w b / 2 ^ w) else a * b / 2 ^ w
def satS (w : Nat) (i : Int) : Nat := wrapN w (sat i (-2 ^ (w - 1)) (2 ^ (w - 1) - 1))
def satU (w : Nat) (i : Int) : Nat := wrapN w (sat i 0 (2 ^ w - 1))
def eAdds (_ w a b : Nat) : Nat := satS w (toSigned w a + toSigned w b)
def eSubs (_ w a b : Nat) : Nat := satS w (toSigned w a - toSigned w b)
def eAddsu (_ w a b : Nat) : Nat := satU w ((a : Int) + b)
def eSubsu (_ w a b : Nat) : Nat := satU w ((a : Int) - b)

def execVAdd (f : VR) (s : State) := laneStep s f.pr (vecInt2 f 2 eAdd)
def execVSub (f : VR) (s : State) := laneStep s f.pr (vecInt2 f 2 eSub)
def execVAnd (f : VR) (s : State) := laneStep s f.pr (vecInt2 f 2 eAnd)
def execVOr (f : VR) (s : State) := laneStep s f.pr (vecInt2 f 2 eOr)
def execVXor (f : VR) (s : State) := laneStep s f.pr (vecInt2 f 2 eXor)
def execVAndn (f : VR) (s : State) := laneStep s f.pr (vecInt2 f 2 eAndn)
def execVShl (f : VR) (s : State) := laneStep s f.pr (vecInt2 f 2 eShl)
def execVShr (f : VR) (s : State) := laneStep s f.pr (vecInt2 f 2 eShr)
def execVSra (f : VR) (s : State) := laneStep s f.pr (vecInt2 f 2 eSra)
def execVMin (f : VR) (s : State) := laneStep s f.pr (vecInt2 f 2 eMin)
def execVMax (f : VR) (s : State) := laneStep s f.pr (vecInt2 f 2 eMax)
def execVMinu (f : VR) (s : State) := laneStep s f.pr (vecInt2 f 2 eMinu)
def execVMaxu (f : VR) (s : State) := laneStep s f.pr (vecInt2 f 2 eMaxu)
def execVMul (f : VR) (s : State) := laneStep s f.pr (vecInt2 f 4 eMul)
def execVMulh (f : VR) (s : State) := laneStep s f.pr (vecInt2 f 4 eMulh)
def execVAdds (f : VR) (s : State) := laneStep s f.pr (vecInt2 f 2 eAdds)
def execVSubs (f : VR) (s : State) := laneStep s f.pr (vecInt2 f 2 eSubs)
def execVAddsu (f : VR) (s : State) := laneStep s f.pr (vecInt2 f 2 eAddsu)
def execVSubsu (f : VR) (s : State) := laneStep s f.pr (vecInt2 f 2 eSubsu)
def execVAbs (f : VR) (s : State) := laneStep s f.pr (vecInt1 f fun w a => if toSigned w a < 0 then (2 ^ w - a) % 2 ^ w else a)
def execVNeg (f : VR) (s : State) := laneStep s f.pr (vecInt1 f fun w a => (2 ^ w - a) % 2 ^ w)
def execVClz (f : VR) (s : State) := laneStep s f.pr (vecInt1 f clzN)
def execVPopc (f : VR) (s : State) := laneStep s f.pr (vecInt1 f fun w a => popN a w)

def execVAddi (f : VR) (s : State) := laneStep s f.pr (vecIntI f 2 false eAdd)
def execVSubi (f : VR) (s : State) := laneStep s f.pr (vecIntI f 2 false eSub)
def execVAndi (f : VR) (s : State) := laneStep s f.pr (vecIntI f 2 false eAnd)
def execVOri (f : VR) (s : State) := laneStep s f.pr (vecIntI f 2 false eOr)
def execVXori (f : VR) (s : State) := laneStep s f.pr (vecIntI f 2 false eXor)
def execVAndni (f : VR) (s : State) := laneStep s f.pr (vecIntI f 2 false eAndn)
def execVShli (f : VR) (s : State) := laneStep s f.pr (vecIntI f 2 true eShl)
def execVShri (f : VR) (s : State) := laneStep s f.pr (vecIntI f 2 true eShr)
def execVSrai (f : VR) (s : State) := laneStep s f.pr (vecIntI f 2 true eSra)
def execVMini (f : VR) (s : State) := laneStep s f.pr (vecIntI f 2 false eMin)
def execVMaxi (f : VR) (s : State) := laneStep s f.pr (vecIntI f 2 false eMax)
def execVMulli (f : VR) (s : State) := laneStep s f.pr (vecIntI f 4 false eMul)

/-- mov, bcast, sel: TY 0 to 11 (R323). -/
def vecMove (f : VR) (bcast : Bool) (cu : Cursor) (c : Core) : LM Core := do
  need cu (decide (f.ty.toNat ≤ 11) && f.nf = 0 && f.fn = 0 && f.sb = 0)
  let w := tyWidth f.ty.toNat
  let (a, c) ← resolveV cu f.sa c
  let r := if bcast then buildV w (fun _ => elem w a.toNat 0) else a
  writeV cu f.dst f.ws 2 w r (spread w (epMask c f.ep)) c
def execVMov (f : VR) (s : State) := laneStep s f.pr (vecMove f false)
def execVBcast (f : VR) (s : State) := laneStep s f.pr (vecMove f true)
def vecSel (f : VR) (cu : Cursor) (c : Core) : LM Core := do
  need cu (decide (f.ty.toNat ≤ 11) && f.nf = 0)
  let w := tyWidth f.ty.toNat
  let (a, c) ← resolveV cu f.sa c
  let (b, c) ← resolveV cu f.sb c
  let m := spread w (c.arch.getP f.fn.toNat)
  writeV cu f.dst f.ws 2 w ((a &&& m) ||| (b &&& ~~~m)) (spread w (epMask c f.ep)) c
def execVSel (f : VR) (s : State) := laneStep s f.pr (vecSel f)

/-- A predicate built from a Bool per element; masked elements and bits at and above E are 0 (R325). -/
def buildP (c : Core) (ep : BitVec 4) (n : Nat) (g : Nat → Bool) : PWord :=
  BitVec.ofNat 1024 (packElems 1 (fun i => if (epMask c ep).getLsbD i && g i then 1 else 0) n)

def vecCmp (f : VR) (signed imm : Bool) (cu : Cursor) (c : Core) : LM Core := do
  need cu (decide (f.ty.toNat ≤ 5) && f.nf = 0 && decide (f.fn.toNat ≤ 5) && decide (f.dst.toNat ≤ 15))
  let w := tyWidth f.ty.toNat
  let (a, c) ← resolveV cu f.sa c
  let (b, c) ← if imm then .ok (buildV w (fun _ => wrapN w f.sb.toInt), c) else resolveV cu f.sb c
  let rd : Nat → Int := fun x => if signed then toSigned w x else x
  let p := buildP c f.ep (4096 / w) fun i => intCond f.fn.toNat (rd (elem w a.toNat i)) (rd (elem w b.toNat i))
  .ok (writeP cu f.dst.toNat f.ws 2 p c)
def execVCmp (f : VR) (s : State) := laneStep s f.pr (vecCmp f true false)
def execVCmpu (f : VR) (s : State) := laneStep s f.pr (vecCmp f false false)
def execVCmpi (f : VR) (s : State) := laneStep s f.pr (vecCmp f true true)

/-- Flag position of element i of width w (R265). -/
def flagPos (w i : Nat) : Nat := i * w / 32

/-- Elements whose mask bit is set, with their flags. -/
def elemFlags (c : Core) (ep : BitVec 4) (w n : Nat) (g : Nat → FlagBits) : List (Nat × FlagBits) :=
  ((List.range n).filter fun i => (epMask c ep).getLsbD i).map fun i => (flagPos w i, g i)

def vecFcmp (f : VR) (cu : Cursor) (c : Core) : LM Core := do
  need cu (decide (6 ≤ f.ty.toNat) && decide (f.ty.toNat ≤ 8) && decide (f.fn.toNat ≤ 7) && decide (f.dst.toNat ≤ 15))
  let t := fmtOfCode (f.ty.toNat - 6)
  let w := t.width
  let (a, c) ← resolveV cu f.sa c
  let (b, c) ← resolveV cu f.sb c
  let r := fun i => fcmpCond t f.fn.toNat (elem w a.toNat i) (elem w b.toNat i)
  let p := buildP c f.ep (4096 / w) fun i => (r i).1
  .ok (emitFlags cu 2 f.nf (elemFlags c f.ep w (4096 / w) fun i => (r i).2) (writeP cu f.dst.toNat f.ws 2 p c))
def execVFcmp (f : VR) (s : State) := laneStep s f.pr (vecFcmp f)

/-! ### Predicate operations (R326) -/

def pFields (f : VR) : Bool := f.ty = 0 && f.ep = 0 && f.nf = 0 && f.fn = 0
def pSource (cu : Cursor) (code : BitVec 7) (c : Core) : LM PWord :=
  if code.toNat ≤ 15 then .ok (c.arch.getP code.toNat) else if code.toNat = 127 then .ok 0 else illegal cu 2
def pLogic (f : VR) (op : PWord → PWord → PWord) (cu : Cursor) (c : Core) : LM Core := do
  need cu (pFields f && decide (f.dst.toNat ≤ 15))
  let a ← pSource cu f.sa c
  let b ← pSource cu f.sb c
  .ok (writeP cu f.dst.toNat f.ws 1 (op a b) c)
def execPand (f : VR) (s : State) := laneStep s f.pr (pLogic f (· &&& ·))
def execPor (f : VR) (s : State) := laneStep s f.pr (pLogic f (· ||| ·))
def execPxor (f : VR) (s : State) := laneStep s f.pr (pLogic f (· ^^^ ·))
def execPandn (f : VR) (s : State) := laneStep s f.pr (pLogic f fun a b => a &&& ~~~b)
def pSet (f : VR) (cu : Cursor) (c : Core) : LM Core := do
  need cu (pFields f && f.sb = 0 && decide (f.dst.toNat ≤ 15))
  let (a, c) ← resolveV cu f.sa c
  let n := min (a.toNat % 2 ^ 32) 1024
  .ok (writeP cu f.dst.toNat f.ws 1 (BitVec.ofNat 1024 (2 ^ n - 1)) c)
def execPset (f : VR) (s : State) := laneStep s f.pr (pSet f)
def pFirst (f : VR) (cu : Cursor) (c : Core) : LM Core := do
  need cu (pFields f && f.sb = 0 && decide (f.dst.toNat ≤ 15))
  let a ← pSource cu f.sa c
  .ok (writeP cu f.dst.toNat f.ws 1 (a &&& -a) c)
def execPfirst (f : VR) (s : State) := laneStep s f.pr (pFirst f)
def pCount (f : VR) (cu : Cursor) (c : Core) : LM Core := do
  need cu (pFields f && f.sb = 0)
  let a ← pSource cu f.sa c
  writeV cu f.dst f.ws 1 32 (BitVec.ofNat 4096 (popN a.toNat 1024)) (-1) c
def execPcount (f : VR) (s : State) := laneStep s f.pr (pCount f)

end Sys2Proof.Machine
end

