-- ==== Sys2Proof/Machine/VecFloat.lean ====
section
/-! DEFINITION. Vector float arithmetic, reductions and special functions (R324, R333 to R337, R270). -/
namespace Sys2Proof.Machine

/-- Element-wise float result with flags per element (R319, R324). -/
def finishVF (dst : BitVec 7) (ws nf : BitVec 1) (ep : BitVec 4) (lat w : Nat) (r : Nat → Nat × FlagBits)
    (cu : Cursor) (c : Core) : LM Core := do
  let c ← writeV cu dst ws lat w (buildV w fun i => (r i).1) (spread w (epMask c ep)) c
  .ok (emitFlags cu lat nf (elemFlags c ep w (4096 / w) fun i => (r i).2) c)

def vecF2 (f : VR) (op : FFmt → Nat → Nat → Nat × FlagBits) (cu : Cursor) (c : Core) : LM Core := do
  need cu (decide (6 ≤ f.ty.toNat) && decide (f.ty.toNat ≤ 8) && f.fn = 0)
  let t := fmtOfCode (f.ty.toNat - 6)
  let (a, c) ← resolveV cu f.sa c
  let (b, c) ← resolveV cu f.sb c
  finishVF f.dst f.ws f.nf f.ep 4 t.width (fun i => op t (elem t.width a.toNat i) (elem t.width b.toNat i)) cu c
def vecF1 (f : VR) (op : FFmt → Nat → Nat × FlagBits) (cu : Cursor) (c : Core) : LM Core := do
  need cu (decide (6 ≤ f.ty.toNat) && decide (f.ty.toNat ≤ 8) && f.fn = 0 && f.sb = 0)
  let t := fmtOfCode (f.ty.toNat - 6)
  let (a, c) ← resolveV cu f.sa c
  finishVF f.dst f.ws f.nf f.ep 4 t.width (fun i => op t (elem t.width a.toNat i)) cu c
def execVAddF (f : VR) (s : State) := laneStep s f.pr (vecF2 f fadd)
def execVSubF (f : VR) (s : State) := laneStep s f.pr (vecF2 f fsub)
def execVMulF (f : VR) (s : State) := laneStep s f.pr (vecF2 f fmul)
def execVMinF (f : VR) (s : State) := laneStep s f.pr (vecF2 f fmin)
def execVMaxF (f : VR) (s : State) := laneStep s f.pr (vecF2 f fmax)
def execVAbsF (f : VR) (s : State) := laneStep s f.pr (vecF1 f fabs)
def execVNegF (f : VR) (s : State) := laneStep s f.pr (vecF1 f fneg)

def vecFma (f : VT) (t : FFmt) (sub : Bool) (cu : Cursor) (c : Core) : LM Core := do
  need cu (f.rsvd = 0)
  let (a, c) ← resolveV cu f.sa c
  let (b, c) ← resolveV cu f.sb c
  let (x, c) ← resolveV cu f.sc c
  finishVF f.dst f.ws f.nf f.ep 4 t.width
    (fun i => ffma t sub (elem t.width a.toNat i) (elem t.width b.toNat i) (elem t.width x.toNat i)) cu c
def execVFmaF32 (f : VT) (s : State) := laneStep s f.pr (vecFma f f32 false)
def execVFmaF16 (f : VT) (s : State) := laneStep s f.pr (vecFma f f16 false)
def execVFmaBf16 (f : VT) (s : State) := laneStep s f.pr (vecFma f bf16 false)
def execVFmsF32 (f : VT) (s : State) := laneStep s f.pr (vecFma f f32 true)
def execVFmsF16 (f : VT) (s : State) := laneStep s f.pr (vecFma f f16 true)
def execVFmsBf16 (f : VT) (s : State) := laneStep s f.pr (vecFma f bf16 true)

/-! ### Reductions (R270, R333) -/

/-- One level of a heap over a list of leaves with masked ones as none: neighbours combine, flags collect. -/
def heapLevel {α : Type} (op : α → α → α × FlagBits) : List (Option α) → List (Option α) × FlagBits
  | some a :: some b :: t =>
    let r := op a b
    let rest := heapLevel op t
    (some r.1 :: rest.1, r.2 ||| rest.2)
  | some a :: none :: t => let rest := heapLevel op t; (some a :: rest.1, rest.2)
  | none :: b :: t => let rest := heapLevel op t; (b :: rest.1, rest.2)
  | [x] => ([x], 0)
  | [] => ([], 0)
/-- Root of the heap (R270): `fuel` levels. -/
def heapReduce {α : Type} (op : α → α → α × FlagBits) : Nat → List (Option α) → FlagBits → Option α × FlagBits
  | 0, l, fl => (l.headD none, fl)
  | n + 1, l, fl => let (l', f2) := heapLevel op l; heapReduce op n l' (fl ||| f2)

/-- Unmasked elements as options. -/
def liveElems (c : Core) (ep : BitVec 4) (w : Nat) (a : VWord) : List (Option Nat) :=
  (List.range (4096 / w)).map fun i => if (epMask c ep).getLsbD i then some (elem w a.toNat i) else none

/-- Exact conversion of an encoding to f32. -/
def toF32 (t : FFmt) (x : Nat) : Nat := (roundRne f32 (t.decode x)).1

/-- Deliver a reduction: the whole register, flags at position 0. -/
def finishRed (f : VR) (r : Nat × FlagBits) (cu : Cursor) (c : Core) : LM Core := do
  let c ← writeV cu f.dst f.ws 6 32 (BitVec.ofNat 4096 r.1) (-1) c
  .ok (emitFlags cu 6 f.nf [(0, r.2)] c)

def snanAny (t : FFmt) (l : List (Option Nat)) : FlagBits :=
  l.foldl (fun fl x => fl ||| (match x with | some e => t.snanFlag e | none => 0)) 0

/-- The elements a float reduction uses: NaNs are ignored unless every unmasked element is one (R333); none: all NaN. -/
def dropNans (t : FFmt) (l : List (Option Nat)) : List (Option Nat) :=
  l.map fun x => match x with | some e => if (t.decode e).isNan then none else some e | none => none

def rsumValue (ty : Nat) (l : List (Option Nat)) : Nat × FlagBits :=
  if ty ≤ 5 then
    let w := tyWidth ty
    (wrapN 32 ((l.map fun x => match x with
      | some e => if tySigned ty then toSigned w e else (e : Int) | none => 0).sum), 0)
  else
    let t := fmtOfCode (ty - 6)
    let live := dropNans t l
    if (l.filter Option.isSome).length > 0 ∧ (live.filter Option.isSome).length = 0 then
      (0x7FC00000, snanAny t l)
    else
      let (r, fl) := heapReduce (fadd f32) 8 (live.map (Option.map (toF32 t))) 0
      (r.getD 0, fl ||| snanAny t l)

/-- Fold of the unmasked integer elements. -/
def foldInt (op : Nat → Nat → Nat) (empty : Nat) (l : List (Option Nat)) : Nat :=
  (l.foldl (fun acc x => match acc, x with
    | none, y => y | some a, some b => some (op a b) | some a, none => some a) none).getD empty

/-- The least (`mx`) or greatest value of an integer type, what a reduction over no element gives (R254, R333). -/
def redEmpty (mx : Bool) (ty : Nat) : Nat :=
  let w := tyWidth ty
  if tySigned ty then (if mx then 2 ^ (w - 1) else 2 ^ (w - 1) - 1) else (if mx then 0 else 2 ^ w - 1)

/-- rmax (`mx`) and rmin (R333). -/
def rminmaxValue (mx : Bool) (ty : Nat) (l : List (Option Nat)) : Nat × FlagBits :=
  if ty ≤ 5 then
    let w := tyWidth ty
    -- rmax and rmin are signed (Table 14.6) whatever TY; the value with no element is the type's (R333, R254)
    (foldInt ((if mx then eMax else eMin) ty w) (redEmpty mx ty) l, 0)
  else
    let t := fmtOfCode (ty - 6)
    let live := dropNans t l
    if (l.filter Option.isSome).length > 0 ∧ (live.filter Option.isSome).length = 0 then
      (t.nanCode.getD 0, snanAny t l)
    else
      (foldInt (fun a b => (fminmax t mx a b).1) (t.signed mx t.infCode) live, snanAny t l)

def vecRed (f : VR) (tyMax : Nat) (value : Nat → List (Option Nat) → Nat × FlagBits) (cu : Cursor) (c : Core) : LM Core := do
  need cu (decide (f.ty.toNat ≤ tyMax) && f.sb = 0 && f.fn = 0 && (decide (6 ≤ f.ty.toNat) || f.nf = 0))
  let (a, c) ← resolveV cu f.sa c
  finishRed f (value f.ty.toNat (liveElems c f.ep (tyWidth f.ty.toNat) a)) cu c
def execRsum (f : VR) (s : State) := laneStep s f.pr (vecRed f 8 rsumValue)
def execRmax (f : VR) (s : State) := laneStep s f.pr (vecRed f 8 (rminmaxValue true))
def execRmin (f : VR) (s : State) := laneStep s f.pr (vecRed f 8 (rminmaxValue false))
def execRmaxu (f : VR) (s : State) := laneStep s f.pr (vecRed f 5 fun ty l => (foldInt (eMaxu ty 0) 0 l, 0))
def execRminu (f : VR) (s : State) := laneStep s f.pr (vecRed f 5 fun ty l => (foldInt (eMinu ty 0) (2 ^ tyWidth ty - 1) l, 0))
def execRand (f : VR) (s : State) := laneStep s f.pr (vecRed f 5 fun ty l => (foldInt (· &&& ·) (2 ^ tyWidth ty - 1) l, 0))
def execRor (f : VR) (s : State) := laneStep s f.pr (vecRed f 5 fun _ l => (foldInt (· ||| ·) 0 l, 0))

/-- Index and value of the largest element, least index on ties, −0 below +0 (R333). -/
def argmaxList (gt : Nat → Nat → Bool) : Nat → List (Option Nat) → Option (Nat × Nat) → Option (Nat × Nat)
  | _, [], best => best
  | i, none :: t, best => argmaxList gt (i + 1) t best
  | i, some e :: t, none => argmaxList gt (i + 1) t (some (i, e))
  | i, some e :: t, some (j, b) => argmaxList gt (i + 1) t (if gt e b then some (i, e) else some (j, b))

/-- rargmax: index and element of the largest, lowest index on ties (R333). DEDUCED (log 117): elements of an unsigned type order as unsigned. -/
def rargmaxValue (ty : Nat) (l : List (Option Nat)) : Nat × FlagBits :=
  let w := tyWidth ty
  if ty ≤ 5 then
    let gt : Nat → Nat → Bool := fun a b => if tySigned ty then decide (toSigned w a > toSigned w b) else decide (a > b)
    let r := (argmaxList gt 0 l none).getD (0xFFFFFFFF, redEmpty true ty)
    (r.1 + r.2 * 2 ^ 32, 0)
  else
    let t := fmtOfCode (ty - 6)
    let live := dropNans t l
    let fl := snanAny t l
    let gt : Nat → Nat → Bool := fun a b =>
      let k := XR.cmp (t.decode a) (t.decode b)
      decide (k > 0) || (decide (k = 0) && (t.decode b).sign && !(t.decode a).sign)
    match argmaxList gt 0 live none, argmaxList (fun _ _ => false) 0 l none with
    | some (i, e), _ => (i + e * 2 ^ 32, fl)
    | none, some (i, _) => (i + t.nanCode.getD 0 * 2 ^ 32, fl)
    | none, none => (0xFFFFFFFF + t.signed true t.infCode * 2 ^ 32, fl)
def execRargmax (f : VR) (s : State) := laneStep s f.pr (vecRed f 8 rargmaxValue)

/-! ### Special functions (R334 to R337) -/

/-- q(y): round to nearest even to 12 significant bits, unbounded exponent (R335). -/
def round12 (m : Nat) (e : Int) : XR :=
  if m = 0 then .zero false
  else
    let k : Int := (Nat.log2 m : Int) - 11
    let (n, r) := scaleTo m 0 k
    .fin false (bump .rne false n r) (e + k)

def vrsqsE (t : FFmt) (x : Nat) : Nat × FlagBits :=
  match t.decode x with
  | .nan => (t.nanCode.getD 0, t.snanFlag x)
  | .inf n => if n then (t.nanCode.getD 0, flInvalid) else (0, 0)
  | .fin n m e =>
    if m = 0 then (t.signed n t.infCode, flDiv0)
    else if n then (t.nanCode.getD 0, flInvalid)
    else match (XR.div .one (.fin false m e)).1 with
      | .fin _ m e => match (XR.sqrt (.fin false m e)).1 with
        | .fin _ m e => ((roundRne t (round12 m e)).1, 0)
        | _ => (0, 0)
      | _ => (0, 0)
def vrcpsE (t : FFmt) (x : Nat) : Nat × FlagBits :=
  match t.decode x with
  | .nan => (t.nanCode.getD 0, t.snanFlag x)
  | .inf n => (t.signed n 0, 0)
  | .fin n m e =>
    if m = 0 then (t.signed n t.infCode, flDiv0)
    else match (XR.div .one (.fin false m e)).1 with
      | .fin _ m e => match round12 m e with
        | .fin _ m e => ((roundRne t (.fin n m e)).1, 0)
        | _ => (0, 0)
      | _ => (0, 0)
def vexp2E (t : FFmt) (x : Nat) : Nat × FlagBits :=
  match t.decode x with
  | .nan => (t.nanCode.getD 0, t.snanFlag x)
  | .inf n => (if n then 0 else t.infCode, 0)
  | .fin n m e => if m = 0 then roundRne t .one else exp2Round t n m e
def vlog2E (t : FFmt) (x : Nat) : Nat × FlagBits :=
  match t.decode x with
  | .nan => (t.nanCode.getD 0, t.snanFlag x)
  | .inf n => if n then (t.nanCode.getD 0, flInvalid) else (t.infCode, 0)
  | .fin n m e =>
    if m = 0 then (t.signed true t.infCode, flDiv0)
    else if n then (t.nanCode.getD 0, flInvalid) else log2Round t m e
def vtanhE (t : FFmt) (x : Nat) : Nat × FlagBits :=
  match t.decode x with
  | .nan => (t.nanCode.getD 0, t.snanFlag x)
  | .inf n => roundRne t (.fin n 1 0)
  | .fin n m e => if m = 0 then (t.signed n 0, 0) else tanhRound t n m e
def vsigmE (t : FFmt) (x : Nat) : Nat × FlagBits :=
  match t.decode x with
  | .nan => (t.nanCode.getD 0, t.snanFlag x)
  | .inf n => if n then (0, 0) else roundRne t .one
  | .fin n m e => if m = 0 then roundRne t (.fin false 1 (-1)) else sigmRound t n m e

/-- An F-lane source: a v register, latch, port or zero; a channel code takes SUB 3 (R284). -/
def sfu1 (f : FA) (lat : Nat) (op : FFmt → Nat → Nat × FlagBits) (cu : Cursor) (c : Core) : LM Core := do
  need cu (decide (f.ty.toNat ≤ 2))
  let t := fmtOfCode f.ty.toNat
  let (a, c) ← resolveV cu f.sa c
  finishVF (f.dst.setWidth 7) f.ws f.nf f.ep lat t.width (fun i => op t (elem t.width a.toNat i)) cu c
def execVrsqs (f : FA) (s : State) := laneStep s f.pr (sfu1 f 6 vrsqsE)
def execVrcps (f : FA) (s : State) := laneStep s f.pr (sfu1 f 6 vrcpsE)
def execVexp2 (f : FA) (s : State) := laneStep s f.pr (sfu1 f 8 vexp2E)
def execVlog2 (f : FA) (s : State) := laneStep s f.pr (sfu1 f 8 vlog2E)
def execVtanh (f : FA) (s : State) := laneStep s f.pr (sfu1 f 8 vtanhE)
def execVsigm (f : FA) (s : State) := laneStep s f.pr (sfu1 f 8 vsigmE)
def execVsqrt (f : FA) (s : State) := laneStep s f.pr (sfu1 f 8 fsqrt)

/-- lse(a, b) on f32 encodings (R337). -/
def lseNode (a b : Nat) : Nat × FlagBits :=
  let x := f32.decode a
  let y := f32.decode b
  if x.isNan ∨ y.isNan then (0x7FC00000, 0)
  else if x = .inf false ∨ y = .inf false then (f32.infCode, 0)
  else if x = .inf true then (b, 0) else if y = .inf true then (a, 0)
  else if XR.cmp x y < 0 then lseRound y x else lseRound x y

def vlseBody (f : FA) (cu : Cursor) (c : Core) : LM Core := do
  need cu (decide (f.ty.toNat ≤ 2))
  let t := fmtOfCode f.ty.toNat
  let (a, c) ← resolveV cu f.sa c
  let l := liveElems c f.ep t.width a
  let leaves := l.map fun x => match x with | some e => some (toF32 t e) | none => some (f32.signed true f32.infCode)
  let (r, fl) := heapReduce lseNode 8 leaves 0
  let c ← writeV cu (f.dst.setWidth 7) f.ws 12 32 (BitVec.ofNat 4096 (r.getD 0)) (-1) c
  .ok (emitFlags cu 12 f.nf [(0, fl ||| snanAny t l)] c)
def execVlse (f : FA) (s : State) := laneStep s f.pr (vlseBody f)

end Sys2Proof.Machine
end

