-- ==== Sys2Proof/Machine/VecConv.lean ====
section
/-! DEFINITION. Conversions: cvt, widen, narrow, vq8, vdq8, mxq, wadd, wmul (R256 to R263, R328 to R332). -/
namespace Sys2Proof.Machine

def tyIsInt (t : Nat) : Bool := decide (t ≤ 5)
def tyIsFloat (t : Nat) : Bool := decide (6 ≤ t) && decide (t ≤ 11)
/-- The float format of type codes 6 to 11. -/
def tyFmt (t : Nat) : FFmt :=
  match t with | 6 => f32 | 7 => f16 | 8 => bf16 | 9 => e4m3 | 10 => e5m2 | _ => e2m1
def tyRange (t : Nat) : Int × Int :=
  let w := tyWidth t
  if tySigned t then (-2 ^ (w - 1), 2 ^ (w - 1) - 1) else (0, 2 ^ w - 1)
def tyInt (t x : Nat) : Int := if tySigned t then toSigned (tyWidth t) x else x

/-- One element from type s to type d (R329). `narrowing` integers keep the low bits unless `satb`. -/
def convElem (s d : Nat) (rm : RMode) (satb narrowing : Bool) (x : Nat) : Nat × FlagBits :=
  if tyIsFloat s then
    let v := (tyFmt s).decode x
    let sn := (tyFmt s).snanFlag x
    if tyIsFloat d then
      let r := round (tyFmt d) rm ((satb && (d == 9 || d == 10)) || d == 11) v
      (r.1, r.2 ||| sn)
    else
      let (lo, hi) := tyRange d
      let r := toIntRange rm lo hi v
      (wrapN (tyWidth d) r.1, r.2)
  else if tyIsFloat d then round (tyFmt d) rm false (.ofInt (tyInt s x))
  else
    let (lo, hi) := tyRange d
    let v := tyInt s x
    (wrapN (tyWidth d) (if narrowing && !satb then v else sat v lo hi), 0)

/-- SB[3:0] source type, SB[6:4] RM; RM and SAT have a use only where R329 gives one. -/
def convFieldsOk (s d rm : Nat) (satb : Bool) (narrowing : Bool) (nf : BitVec 1) : Bool :=
  let fl := tyIsFloat s || tyIsFloat d
  let satUse := (tyIsFloat s && (d == 9 || d == 10)) || (narrowing && tyIsInt s && tyIsInt d)
  (decide (rm ≤ 3) || (decide (rm = 4) && narrowing && s == 6 && d == 8)) &&
    (fl || decide (rm = 0)) && (!satb || satUse) && (fl || nf = 0)

def cvtPair (s d : Nat) : Bool :=
  s != d && tyWidth s == tyWidth d &&
    ([4, 5, 6].contains s && [4, 5, 6].contains d || [2, 3, 7, 8].contains s && [2, 3, 7, 8].contains d ||
     [0, 1, 9, 10].contains s && [0, 1, 9, 10].contains d)
def narrowPair (s d : Nat) : Bool :=
  decide (s ≤ 10) && decide (d ≤ 11) && decide (tyWidth d < tyWidth s) && (d != 11 || [6, 7, 8].contains s)
def widenPair (s d : Nat) : Bool :=
  (s == 11 && [9, 10, 7, 8, 6].contains d) || ([9, 10].contains s && [7, 8, 6].contains d) ||
  ([7, 8].contains s && d == 6) || (tyIsInt s && tyIsInt d && decide (tyWidth s < tyWidth d)) ||
  ([0, 1].contains s && [7, 8, 6].contains d) || ([2, 3].contains s && d == 6)

def vecCvt (f : VR) (cu : Cursor) (c : Core) : LM Core := do
  let d := f.ty.toNat
  let s := f.sb.toNat % 16
  let rm := f.sb.toNat / 16
  let satb := f.fn = 1
  need cu (cvtPair s d && decide (f.fn.toNat ≤ 1) && convFieldsOk s d rm satb false f.nf)
  let (a, c) ← resolveV cu f.sa c
  let w := tyWidth d
  finishVF f.dst f.ws f.nf f.ep 3 w (fun i => convElem s d (RMode.ofCode rm) satb false (elem w a.toNat i)) cu c
def execCvt (f : VR) (s : State) := laneStep s f.pr (vecCvt f)

/-- Write k destination registers from source-index results (R320 widening). -/
def finishWiden (dst : BitVec 7) (ws nf : BitVec 1) (ep : BitVec 4) (wsrc wd k : Nat) (flags : Bool)
    (r : Nat → Nat × FlagBits) (cu : Cursor) (c : Core) : LM Core := do
  let m := epMask c ep
  let parts := (List.range k).map fun j =>
    (buildV wd (fun t => (r (t * k + j)).1), buildV wd (fun t => if m.getLsbD (t * k + j) then 2 ^ wd - 1 else 0))
  let c ← writeVs cu dst ws 3 parts c
  .ok (if flags then emitFlags cu 3 nf (elemFlags c ep wsrc (4096 / wsrc) fun i => (r i).2) c else c)

def vecWiden (f : VR) (cu : Cursor) (c : Core) : LM Core := do
  let d := f.ty.toNat
  let s := f.sb.toNat % 16
  need cu (widenPair s d && decide (f.sb.toNat < 16) && f.fn = 0 && (!(tyIsInt s && tyIsInt d) || f.nf = 0))
  let (a, c) ← resolveV cu f.sa c
  let ws := tyWidth s
  finishWiden f.dst f.ws f.nf f.ep ws (tyWidth d) (tyWidth d / ws) true
    (fun i => convElem s d .rne false false (elem ws a.toNat i)) cu c
def execWiden (f : VR) (s : State) := laneStep s f.pr (vecWiden f)

/-- Source element i of a narrowing: register i mod k, position i div k (R320). -/
def narrowSrc (ws k : Nat) (l : List VWord) (i : Nat) : Nat := elem ws (l.getD (i % k) 0).toNat (i / k)
/-- Flags of a narrowing, positions by the source place (R320). -/
def narrowFlags (c : Core) (ep : BitVec 4) (wsrc wd k : Nat) (g : Nat → FlagBits) : List (Nat × FlagBits) :=
  ((List.range (4096 / wd)).filter fun i => (epMask c ep).getLsbD i).map fun i => (i / k * wsrc / 32, g i)

/-- Draw parameters in v31 (Table 14.9), read at issue. -/
def drawParams (c : Core) : VWord := readV c 31
def drawKey (x : VWord) : BitVec 128 := x.extractLsb' 0 128
def drawBase (x : VWord) : BitVec 64 := x.extractLsb' 128 64

def vecNarrow (f : VR) (cu : Cursor) (c : Core) : LM Core := do
  let d := f.ty.toNat
  let s := f.sb.toNat % 16
  let rm := f.sb.toNat / 16
  let satb := f.fn = 1
  need cu (narrowPair s d && decide (f.fn.toNat ≤ 1) && convFieldsOk s d rm satb true f.nf)
  let ws := tyWidth s
  let wd := tyWidth d
  let k := ws / wd
  let l ← readVs cu f.sa k c
  let x := drawParams c
  let r : Nat → Nat × FlagBits := fun i =>
    let e := narrowSrc ws k l i
    if rm = 4 then srBf16 e ((dgen (drawKey x) (drawBase x + BitVec.ofNat 64 i)).toNat % 65536)
    else convElem s d (RMode.ofCode rm) satb true e
  let c ← writeV cu f.dst f.ws 3 wd (buildV wd fun i => (r i).1) (spread wd (epMask c f.ep)) c
  .ok (emitFlags cu 3 f.nf (narrowFlags c f.ep ws wd k fun i => (r i).2) c)
def execNarrow (f : VR) (s : State) := laneStep s f.pr (vecNarrow f)

/-! ### q8 (R258, R259, R331) -/

/-- Code table tbl as 256 f32 encodings from the core's own scratchpad (R258). -/
def codeTable (c : Core) (tbl : Nat) : List Nat :=
  (List.range 256).map fun i => Memory.readN c.spad (0x3FF800 + 0x400 * tbl + 4 * i) 4

/-- Distance of two values as compared by q8_encode: an infinity is farther than every finite value. -/
def distLt (d1 d2 : XR) : Bool := decide (XR.cmp d1 d2 < 0)

/-- q8_encode(x, T, A) (R259); x and A are f32 encodings. -/
def q8Encode (x : Nat) (tab : List Nat) (am : Nat) : Nat × FlagBits :=
  let xv := f32.decode x
  let av := f32.decode am
  let cs := (tab.zipIdx).filter fun p => !(f32.decode p.1).isNan
  if xv.isNan ∨ av.isNan ∨ (xv.isInf ∧ av.isInf) ∨ cs = [] then (0, flInvalid)
  else
    let y0 : Bool := av.isZero || av.isInf           -- y = 0
    if ¬ y0 ∧ xv.isInf then
      -- y = ±∞
      let neg := xv.sign != av.sign
      let best := cs.foldl (fun b p => match b with
        | none => some p
        | some q =>
          let k := XR.cmp (f32.decode p.1) (f32.decode q.1)
          if (if neg then decide (k < 0) else decide (k > 0)) then some p else some q) none
      match best with
      | some (t, i) => (i, if f32.decode t = .inf neg then 0 else flInexact)
      | none => (0, flInvalid)
    else
      -- compare |T − y| scaled by |A|: |T × A − x|; with y = 0, |T|
      let key : Nat → XR := fun t =>
        if y0 then (f32.decode t).abs else ((((f32.decode t).mul av).1).add xv.neg).1.abs
      let best := cs.foldl (fun b p => match b with
        | none => some p
        | some q => if distLt (key p.1) (key q.1) then some p else some q) none
      match best with
      | some (t, i) => (i, if (key t).isZero then 0 else flInexact)
      | none => (0, flInvalid)

/-- q8_decode(c, T, A) (R259). -/
def q8Decode (code : Nat) (tab : List Nat) (am : Nat) : Nat × FlagBits := fmul f32 (tab.getD code 0) am

def vecVq8 (f : VR) (cu : Cursor) (c : Core) : LM Core := do
  need cu (f.ty = 15 && decide (f.fn.toNat ≤ 1))
  let l ← readVs cu f.sa 4 c
  let (b, c) ← resolveV cu f.sb c
  let am := b.toNat % 2 ^ 32
  let tab := codeTable c f.fn.toNat
  let r := fun i => q8Encode (narrowSrc 32 4 l i) tab am
  let c ← writeV cu f.dst f.ws 3 8 (buildV 8 fun i => (r i).1) (spread 8 (epMask c f.ep)) c
  .ok (emitFlags cu 3 f.nf (narrowFlags c f.ep 32 8 4 fun i => (r i).2) c)
def execVq8 (f : VR) (s : State) := laneStep s f.pr (vecVq8 f)
def vecVdq8 (f : VR) (cu : Cursor) (c : Core) : LM Core := do
  need cu (f.ty = 6 && decide (f.fn.toNat ≤ 1))
  let (a, c) ← resolveV cu f.sa c
  let (b, c) ← resolveV cu f.sb c
  let am := b.toNat % 2 ^ 32
  let tab := codeTable c f.fn.toNat
  finishWiden f.dst f.ws f.nf f.ep 8 32 4 true (fun i => q8Decode (elem 8 a.toNat i) tab am) cu c
def execVdq8 (f : VR) (s : State) := laneStep s f.pr (vecVdq8 f)

/-! ### mx4 (R257, R332) -/

/-- mx_encode of 32 values: scale, elements, flags per element (invalid of a NaN or ∞ at element 0). -/
def mxEncode (mode : RMode) (xs : List XR) : Nat × List (Nat × FlagBits) :=
  if xs.any fun x => x.isNan || x.isInf then
    (0xFF, xs.zipIdx.map fun p => (0, if p.2 = 0 then flInvalid else 0))
  else
    let lg : Option Int := xs.foldl (fun b x => match x with
      | .fin _ m e => if m = 0 then b else
        let k := (Nat.log2 m : Int) + e
        some (match b with | none => k | some j => max j k)
      | _ => b) none
    let s : Int := match lg with | none => 127 | some k => sat (k - 2 + 127) 0 254
    (s.toNat, xs.map fun x => round e2m1 mode true (XR.scale (127 - s) x))

def vecMxq (f : VR) (cu : Cursor) (c : Core) : LM Core := do
  let s := f.sb.toNat % 16
  let rm := f.sb.toNat / 16
  need cu (f.ty = 12 && [6, 7, 8].contains s && decide (rm ≤ 3) && f.fn = 0 && f.ep = 0)
  let t := tyFmt s
  let w := t.width
  let k := w / 4
  let l ← readVs cu f.sa k c
  let xe := fun i => narrowSrc w k l i
  let blocks := (List.range 32).map fun b => mxEncode (RMode.ofCode rm) ((List.range 32).map fun j => t.decode (xe (32 * b + j)))
  let el := fun i => ((blocks.getD (i / 32) (0, [])).2).getD (i % 32) (0, 0)
  let scales := buildV 8 fun b => if b < 32 then (blocks.getD b (0, [])).1 else 0
  let c ← writeVs cu f.dst f.ws 3 [(buildV 4 fun i => (el i).1, -1), (scales, -1)] c
  .ok (emitFlags cu 3 f.nf ((List.range 1024).map fun i => (i / k * w / 32, (el i).2)) c)
def execMxq (f : VR) (s : State) := laneStep s f.pr (vecMxq f)

/-! ### wadd, wmul (R330) -/

def vecWide (f : VR) (mul : Bool) (cu : Cursor) (c : Core) : LM Core := do
  let s := f.fn.toNat
  let d := f.ty.toNat
  need cu ([(0, 2), (1, 3), (2, 4), (3, 5), (7, 6), (8, 6)].contains (s, d) && (decide (6 ≤ s) || f.nf = 0))
  let (a, c) ← resolveV cu f.sa c
  let (b, c) ← resolveV cu f.sb c
  let ws := tyWidth s
  let r : Nat → Nat × FlagBits := fun i =>
    let x := elem ws a.toNat i
    let y := elem ws b.toNat i
    if tyIsInt s then
      (wrapN (2 * ws) (if mul then tyInt s x * tyInt s y else tyInt s x + tyInt s y), 0)
    else
      let t := tyFmt s
      let (v, bad) := if mul then (t.decode x).mul (t.decode y) else (t.decode x).add (t.decode y)
      let q := roundRne f32 v
      (q.1, q.2 ||| (if bad then flInvalid else 0) ||| t.snanFlag x ||| t.snanFlag y)
  finishWiden f.dst f.ws f.nf f.ep ws (2 * ws) 2 true r cu c
def execWadd (f : VR) (s : State) := laneStep s f.pr (vecWide f false)
def execWmul (f : VR) (s : State) := laneStep s f.pr (vecWide f true)

end Sys2Proof.Machine
end

