-- ==== Sys2Proof/Machine/Draw.lean ====
section
/-! DEFINITION. Draws: leaf pairs, merges, vdraw and vdrawm (R271 to R276, R338 to R341). -/
namespace Sys2Proof.Machine

/-- A partial-draw pair: chosen index and f32 mass (R272). -/
abbrev Pair := Nat × Nat
def zeroPair : Pair := (0xFFFFFFFF, 0xFF800000)
def Pair.toNat (p : Pair) : Nat := p.1 % 2 ^ 32 + p.2 * 2 ^ 32
def Pair.ofNat (x : Nat) : Pair := (x % 2 ^ 32, x / 2 ^ 32 % 2 ^ 32)
def isZeroPair (p : Pair) : Bool := f32.decode p.2 = .inf true
/-- tier(x) of R274. -/
def tier (p : Pair) : Bool := decide (p.1 ≥ 2 ^ 31) && !isZeroPair p

/-- lmerge(a, b, K, s, nd) of R274. Where a mass is NaN, or a's mass is +∞, the rule's expressions state no value: the pair that gives the
index, and L unless one mass alone is +∞, are open values. -/
def lmerge (a b : Pair) (k : BitVec 128) (s nd : Nat) : Pair :=
  let x := f32.decode a.2
  let y := f32.decode b.2
  let free := (Config.drawMerge (BitVec.ofNat 64 a.toNat) (BitVec.ofNat 64 b.toNat)).toNat
  let pick := if free.testBit 0 then a.1 else b.1
  if tier a ≠ tier b then (if tier a then a else b)
  else if isZeroPair a ∧ isZeroPair b then zeroPair
  else if isZeroPair a then (b.1, b.2)
  else if isZeroPair b then (a.1, a.2)
  else if x.isNan ∨ y.isNan ∨ (x = .inf false ∧ y = .inf false) then (pick, free / 2 ^ 32 % 2 ^ 32)
  else if x = .inf false then (pick, a.2)
  else if y = .inf false then (b.1, b.2)
  else
    let l := (if XR.cmp x y < 0 then lseRound y x else lseRound x y).1
    let u := (dgen k (BitVec.ofNat 64 (nd % 2 ^ 32 + s % 2 ^ 32 * 2 ^ 32))).toNat / 256
    if drawLt u x (f32.decode l) then (a.1, l) else (b.1, l)

/-- amerge: T = 0 (R274). -/
def amerge (a b : Pair) : Pair :=
  if isZeroPair a ∧ isZeroPair b then zeroPair
  else if XR.lt (f32.decode a.2) (f32.decode b.2) then b else a

/-- The final pair of a root and ZM (R272). The infinite tier has a finite M; any other root, save one of zero mass, is returned as it
stands. -/
def finalPair (r : Pair) : Pair × Bool :=
  if isZeroPair r then (zeroPair, true)
  else if decide (r.1 ≥ 2 ^ 31) && !(f32.decode r.2).isNan && !(f32.decode r.2).isInf then ((r.1 % 2 ^ 31, 0x7F800000), false)
  else (r, false)

/-- Fields of the draw parameters (Table 14.9). -/
def dpS (x : VWord) : Nat := (x.extractLsb' 192 32).toNat
def dpStrm (x : VWord) : Nat := (x.extractLsb' 128 32).toNat
def dpJ (x : VWord) : Nat := (x.extractLsb' 160 32).toNat
def dpH (x : VWord) : Nat := (x.extractLsb' 224 32).toNat
def dpQl (x : VWord) : Nat := (x.extractLsb' 256 5).toNat
def dpLv (x : VWord) : Nat := (x.extractLsb' 261 3).toNat
def dpFin (x : VWord) : Bool := x.getLsbD 264

/-- S is NaN or negative (R273); −0 counts as 0. -/
def badScale (sc : Nat) : Bool :=
  match f32.decode sc with | .nan => true | .inf n => n | .fin n m _ => n && decide (m ≠ 0)
def scaleInf (sc : Nat) : Bool := f32.decode sc = .inf false

/-- leaf(i, x, S) for an unmasked element, with its flags (R273, R339). -/
def drawLeaf (t : FFmt) (i x sc : Nat) : Pair × FlagBits :=
  match t.decode x with
  | .nan => (zeroPair, flInvalid)
  | .inf true => (zeroPair, 0)
  | .inf false => if scaleInf sc then ((i, 0x7F800000), 0) else ((i + 2 ^ 31, 0), 0)
  | v =>
    if scaleInf sc then ((i, (roundRne f32 v).1), 0)
    else if (f32.decode sc).isZero then ((i, 0), 0)
    else
      let r := round f32 .rne true (v.mul (f32.decode sc)).1
      ((i, r.1), r.2)

/-- Merge a list of 2^n nodes level by level; `nd` gives the node number of the first result of a level. -/
def mergeLevel (inf : Bool) (k : BitVec 128) (s : Nat) : Nat → List Pair → List Pair
  | nd, a :: b :: t => (if inf then amerge a b else lmerge a b k s nd) :: mergeLevel inf k s (nd + 1) t
  | _, l => l
/-- From `levels` levels above the leaves down to the root: the first node of the level with 2^n nodes is base × 2^n + off. -/
def mergeTree (inf : Bool) (k : BitVec 128) (s off base : Nat) : Nat → List Pair → Pair
  | 0, l => l.headD zeroPair
  | n + 1, l => mergeTree inf k s off base n (mergeLevel inf k s (base * 2 ^ n + off) l)

/-- FIN, the output pair at its position, p(ZP) and lf (R339). -/
def drawOut (f : FD) (r : Pair) (pos : Nat) (fin : Bool) (lat : Nat) (fl : List (Nat × FlagBits)) (cu : Cursor) (c : Core) : Core :=
  let (r, zm) := if fin then finalPair r else (r, false)
  let val : VWord := BitVec.ofNat 4096 r.toNat <<< (64 * pos)
  let mask : VWord := BitVec.ofNat 4096 (2 ^ 64 - 1) <<< (64 * pos)
  let c := emit cu lat (.v (mapReg c.arch.rot f.dst.toNat) val mask) c
  let c := emit cu lat (.p f.zp.toNat (if zm then 1 else 0)) c
  let c := emitLatch cu lat (val.setWidth 512) c
  emitFlags cu lat f.nf fl c

def vdrawBody (f : FD) (t : FFmt) (cu : Cursor) (c : Core) : LM Core := do
  let x := drawParams c
  let e := 4096 / t.width
  let j := dpJ x
  let sc := dpS x
  need cu (decide (dpQl x ≤ 30) && decide (j < 2 ^ dpQl x) && decide (j * e + e - 1 ≤ 0x7FFFFFFF))
  let a := readV c f.sa.toNat
  let m := epMask c f.ep
  let leaves := (List.range e).map fun i =>
    if badScale sc ∨ ¬ m.getLsbD i then (zeroPair, (0 : FlagBits)) else drawLeaf t (j * e + i) (elem t.width a.toNat i) sc
  let root := mergeTree (scaleInf sc) (drawKey x) (dpStrm x) 0 1 (if e = 128 then 7 else 8) (leaves.map Prod.fst)
  let fl := if badScale sc then [(0, flInvalid)] else leaves.zipIdx.map fun p => (flagPos t.width p.2, p.1.2)
  .ok (drawOut f root ((2 ^ dpQl x + j) % 64) (dpFin x) 14 fl cu c)
def execVdrawF32 (f : FD) (s : State) := laneStep s f.pr (vdrawBody f f32)
def execVdrawF16 (f : FD) (s : State) := laneStep s f.pr (vdrawBody f f16)
def execVdrawBf16 (f : FD) (s : State) := laneStep s f.pr (vdrawBody f bf16)

def vdrawmBody (f : FD) (cu : Cursor) (c : Core) : LM Core := do
  let x := drawParams c
  let lv := dpLv x
  let h := dpH x
  let sc := dpS x
  need cu (decide (1 ≤ lv) && decide (lv ≤ 6) && decide (h % 2 ^ lv = 0) && decide (2 ^ lv ≤ h))
  let a := readV c f.sa.toNat
  let m := epMask c f.ep
  let b := h % 64
  let leaves := (List.range (2 ^ lv)).map fun t =>
    if badScale sc ∨ ¬ m.getLsbD (b + t) then zeroPair else Pair.ofNat (elem 64 a.toNat (b + t))
  let r := h / 2 ^ lv
  let root := mergeTree (scaleInf sc) (drawKey x) (dpStrm x) 0x80000000 r lv leaves
  .ok (drawOut f root (r % 64) (dpFin x) 16 (if badScale sc then [(0, flInvalid)] else []) cu c)
def execVdrawm (f : FD) (s : State) := laneStep s f.pr (vdrawmBody f)

end Sys2Proof.Machine
end

