-- ==== Sys2Proof/Machine/Crypto.lean ====
section
/-! DEFINITION. The standards R73 and R75 name: AES-256 (FIPS 197) in XTS mode (IEEE 1619), SHAKE256 with 64 bytes of output (FIPS 202). -/
namespace Sys2Proof.Machine

/-! ### AES-256 -/

/-- Multiplication by x, and by any element, in the field of AES. -/
def xtime (a : BitVec 8) : BitVec 8 := (a <<< 1) ^^^ (if a.getLsbD 7 then 0x1B else 0)
def gmul (a b : BitVec 8) : BitVec 8 :=
  ((List.range 8).foldl (fun (acc : BitVec 8 × BitVec 8) i => (if b.getLsbD i then acc.1 ^^^ acc.2 else acc.1, xtime acc.2)) (0, a)).1
/-- The inverse a^254, 0 for 0. -/
def ginv (a : BitVec 8) : BitVec 8 :=
  ((List.range 7).foldl (fun (acc : BitVec 8 × BitVec 8) _ => let q := gmul acc.2 acc.2; (gmul acc.1 q, q)) (1, a)).1
def aesSbox (a : BitVec 8) : BitVec 8 :=
  let b := ginv a
  b ^^^ b.rotateLeft 1 ^^^ b.rotateLeft 2 ^^^ b.rotateLeft 3 ^^^ b.rotateLeft 4 ^^^ 0x63
def aesSboxInv (a : BitVec 8) : BitVec 8 := ginv (a.rotateLeft 1 ^^^ a.rotateLeft 3 ^^^ a.rotateLeft 6 ^^^ 0x05)

def xorBytes (a b : List (BitVec 8)) : List (BitVec 8) := List.zipWith (· ^^^ ·) a b
/-- Key words of four bytes, newest first. -/
def aesExpand : Nat → Nat → List (List (BitVec 8)) → List (List (BitVec 8))
  | 0, _, w => w
  | n + 1, i, w =>
    let t := w.headD []
    let rcon := (List.range (i / 8 - 1)).foldl (fun r _ => xtime r) 1
    let u := if i % 8 = 0 then xorBytes ((t.drop 1 ++ t.take 1).map aesSbox) [rcon, 0, 0, 0] else if i % 8 = 4 then t.map aesSbox else t
    aesExpand n (i + 1) (xorBytes (w.getD 7 []) u :: w)
def nBytes (v : Nat) : Nat → List (BitVec 8)
  | 0 => []
  | n + 1 => BitVec.ofNat 8 v :: nBytes (v / 256) n
def ofBytes : List (BitVec 8) → Nat
  | [] => 0
  | b :: t => b.toNat + 256 * ofBytes t
/-- The 15 round keys, first round first. -/
def aesKeys (key : BitVec 256) : List (List (BitVec 8)) :=
  let w := ((List.range 8).map fun i => nBytes (key.toNat / 2 ^ (32 * i)) 4).reverse
  let all := (aesExpand 52 8 w).reverse
  (List.range 15).map fun r => ((List.range 4).flatMap fun j => all.getD (4 * r + j) [])
/-- Byte (r, c) of a block is byte r + 4 c. -/
def shiftRows (dir : Nat) (b : List (BitVec 8)) : List (BitVec 8) :=
  (List.range 16).map fun k => b.getD (k % 4 + 4 * ((k / 4 + dir * (k % 4)) % 4)) 0
def mixColumns (m : List (BitVec 8)) (b : List (BitVec 8)) : List (BitVec 8) :=
  (List.range 16).map fun k =>
    (List.range 4).foldl (fun acc j => acc ^^^ gmul (m.getD ((j + 4 - k % 4) % 4) 0) (b.getD (k / 4 * 4 + j) 0)) 0
def aesEnc (keys : List (List (BitVec 8))) (b : List (BitVec 8)) : List (BitVec 8) :=
  let b := xorBytes b (keys.headD [])
  let b := ((keys.drop 1).take 13).foldl (fun b k => xorBytes (mixColumns [2, 3, 1, 1] (shiftRows 1 (b.map aesSbox))) k) b
  xorBytes (shiftRows 1 (b.map aesSbox)) (keys.getD 14 [])
def aesDec (keys : List (List (BitVec 8))) (b : List (BitVec 8)) : List (BitVec 8) :=
  let b := (shiftRows 3 (xorBytes b (keys.getD 14 []))).map aesSboxInv
  let b := ((keys.drop 1).take 13).reverse.foldl (fun b k => (shiftRows 3 (mixColumns [14, 11, 13, 9] (xorBytes b k))).map aesSboxInv) b
  xorBytes b (keys.headD [])

/-! ### XTS -/

/-- The tweak's next value: multiplication by x in GF(2^128). -/
def xtsNext (t : BitVec 128) : BitVec 128 := (t <<< 1) ^^^ (if t.getLsbD 127 then 0x87 else 0)
/-- One data unit of 8 blocks under data key ‖ tweak key and a tweak value. -/
def xtsUnit (dec : Bool) (key : BitVec 512) (tweak : BitVec 128) (x : BitVec 1024) : BitVec 1024 :=
  let k1 := aesKeys (key.extractLsb' 0 256)
  let t0 := BitVec.ofNat 128 (ofBytes (aesEnc (aesKeys (key.extractLsb' 256 256)) (nBytes tweak.toNat 16)))
  let r := (List.range 8).foldl (fun (acc : BitVec 1024 × BitVec 128) j =>
    let t := acc.2
    let b := nBytes ((x.extractLsb' (128 * j) 128) ^^^ t).toNat 16
    let c := BitVec.ofNat 128 (ofBytes (if dec then aesDec k1 b else aesEnc k1 b)) ^^^ t
    (acc.1 ||| (c.setWidth 1024 <<< (128 * j)), xtsNext t)) (0, t0)
  r.1
/-- The tweak of a line: VA[55:7] in bits [48:0], the context in bits [57:49] (R73). -/
def xtsTweak (ctx line : Nat) : BitVec 128 := BitVec.ofNat 128 (line % 2 ^ 49 + ctx % 512 * 2 ^ 49)
/-- A line written as plaintext p under one key, context and VA line, as another key, context and VA line read it; key 0 stands for a
PLAIN slot, which passes data unencrypted (R72, R73). -/
def xtsCross (k : BitVec 512) (ctx line : Nat) (k' : BitVec 512) (ctx' line' : Nat) (p : BitVec 1024) : BitVec 1024 :=
  let c := if k = 0 then p else xtsUnit false k (xtsTweak ctx line) p
  if k' = 0 then c else xtsUnit true k' (xtsTweak ctx' line') c

/-! ### SHAKE256 -/

/-- Rotation offsets and round constants of Keccak-f[1600], lanes numbered x + 5 y. -/
def keccakRot : List Nat := [0, 1, 62, 28, 27, 36, 44, 6, 55, 20, 3, 10, 43, 25, 39, 41, 45, 15, 21, 8, 18, 2, 61, 56, 14]
def keccakRc : List (BitVec 64) :=
  [0x0000000000000001, 0x0000000000008082, 0x800000000000808A, 0x8000000080008000, 0x000000000000808B, 0x0000000080000001,
   0x8000000080008081, 0x8000000000008009, 0x000000000000008A, 0x0000000000000088, 0x0000000080008009, 0x000000008000000A] ++
  [0x000000008000808B, 0x800000000000008B, 0x8000000000008089, 0x8000000000008003, 0x8000000000008002, 0x8000000000000080,
   0x000000000000800A, 0x800000008000000A, 0x8000000080008081, 0x8000000000008080, 0x0000000080000001, 0x8000000080008008]
def keccakRound (a : List (BitVec 64)) (rc : BitVec 64) : List (BitVec 64) :=
  let g := fun (l : List (BitVec 64)) (i : Nat) => l.getD i 0
  let c := (List.range 5).map fun x => g a x ^^^ g a (x + 5) ^^^ g a (x + 10) ^^^ g a (x + 15) ^^^ g a (x + 20)
  let d := (List.range 5).map fun x => g c ((x + 4) % 5) ^^^ (g c ((x + 1) % 5)).rotateLeft 1
  let a := (List.range 25).map fun i => g a i ^^^ g d (i % 5)
  -- ρ and π: lane (y, 2x + 3y) takes lane (x, y) rotated
  let b := (List.range 25).map fun i =>
    let y := i % 5
    let x := (i / 5 + 2 * y) * 3 % 5
    (g a (x + 5 * y)).rotateLeft (keccakRot.getD (x + 5 * y) 0)
  let e := (List.range 25).map fun i =>
    let r := i / 5 * 5
    g b i ^^^ (~~~(g b (r + (i + 1) % 5)) &&& g b (r + (i + 2) % 5))
  (List.range 25).map fun i => if i = 0 then g e 0 ^^^ rc else g e i
def keccakF (a : List (BitVec 64)) : List (BitVec 64) := keccakRc.foldl keccakRound a
/-- Absorb padded input of n blocks of r bytes. -/
def keccakAbsorb (r : Nat) : Nat → List (BitVec 8) → List (BitVec 64) → List (BitVec 64)
  | 0, _, a => a
  | n + 1, m, a =>
    let b := (List.range 25).map fun i => a.getD i 0 ^^^ (if 8 * i < r then BitVec.ofNat 64 (ofBytes ((m.drop (8 * i)).take 8)) else 0)
    keccakAbsorb r n (m.drop r) (keccakF b)
/-- The padding of SHAKE for blocks of r bytes: 0x1F, zeros, 0x80 at the end of a block. -/
def shakePad (r : Nat) (m : List (BitVec 8)) : List (BitVec 8) :=
  let z := r - 1 - m.length % r
  m ++ (if z = 0 then [0x9F] else 0x1F :: List.replicate (z - 1) 0 ++ [0x80])
/-- n blocks of output. -/
def keccakSqueeze (r : Nat) : Nat → List (BitVec 64) → List (BitVec 8)
  | 0, _ => []
  | n + 1, a => (a.flatMap fun w => nBytes w.toNat 8).take r ++ keccakSqueeze r n (keccakF a)
/-- n blocks of SHAKE's output: SHAKE256 has blocks of 136 bytes, SHAKE128 of 168. -/
def shakeOut (r n : Nat) (m : List (BitVec 8)) : List (BitVec 8) :=
  let p := shakePad r m
  keccakSqueeze r n (keccakAbsorb r (p.length / r) p (List.replicate 25 0))
/-- SHAKE256, 64 bytes. -/
def shake256 (m : List (BitVec 8)) : BitVec 512 := BitVec.ofNat 512 (ofBytes ((shakeOut 136 1 m).take 64))

end Sys2Proof.Machine
end

