-- ==== Sys2Proof/Machine/Mem.lean ====
section
/-! DEFINITION. Physical memory with the seals of encrypted lines, context entries, translation, TLBs, fault records
(R56 to R64, R67 to R69, R73, R180, R186, R193, R194). -/
namespace Sys2Proof.Machine

/-! ### Physical memory -/

/-- The key of a byte in `State.mem`: LOC, die, physical address. A LOC 3 address carries its PASID above bit 52 (R63). -/
def maddr (loc die pa : Nat) : Nat := (loc * 64 + die) * 2 ^ 80 + pa

/-- Bytes of a store of each kind (R1): HBM 256 GB, second tier 512 GB, weight store 2 GiB; host memory and scratchpads are judged
elsewhere. -/
def storeSize (loc : Nat) : Nat :=
  match loc with | 0 => 256000000000 | 1 => 512000000000 | 2 => 2147483648 | _ => 2 ^ 80

/-- Note an access to memory the module does not have. -/
def checkAbsent (s : State) (loc die pa n : Nat) : State :=
  if pa + n > storeSize loc then { s with absent := some (loc, die, pa) } else s

/-- Is a line kept encrypted (R73)? -/
def isSealed (loc : Nat) : Bool := loc == 1 || loc == 3

/-- Number of a die of the causality domain within this module, if it is one of its dies (R406). -/
def localDie (s : State) (d : Nat) : Option Nat := if d / 8 = s.mod.modidx.toNat then some (d % 8) else none

/-- Slice and set of a line number. -/
def l2Slice (line : Nat) : Nat := line % 48
def l2Set (line : Nat) : Nat := line / 48 % 1536
def l2Key (line : Nat) : Nat := l2Slice line * 1536 + l2Set line

/-- Is a line in the L2 of its die (R186)? -/
def inL2 (s : State) (loc die line : Nat) : Bool :=
  match localDie s die with
  | some k => (FMap.get [] (s.die k).l2 (l2Key line)).any fun x => x.loc == loc && x.line == line
  | none => false
/-- Does an L2 hold a LOC 1 line as plaintext (R195)? A line number of State.mem carries LOC and die. -/
def plainL2 (s : State) (line : Nat) : Bool :=
  let a := line * 128
  a / 2 ^ 80 / 64 == 1 && inL2 s 1 (a / 2 ^ 80 % 64) (a % 2 ^ 80 / 128)

/-- The seal an access through key slot `key` uses for a VA: PLAIN passes data unencrypted (R72, R73), also what is still in flight when
the slot is being destroyed (R74). -/
def sealOf (s : State) (loc key ctx va : Nat) : Seal :=
  if isSealed loc then
    let k := FMap.get KeySlot.init s.mod.keys key
    if k.st = .plain ∨ (k.st = .destroying ∧ k.key = 0) then ⟨0, 0, 0⟩ else ⟨k.key, ctx, va / 128⟩
  else ⟨0, 0, 0⟩

/-- The plaintext of a line as a reader under `sl` sees it: what its L2 holds, or what memory holds, decrypted (R73, R195). -/
def lineAs (s : State) (line : Nat) (sl : Seal) : BitVec 1024 :=
  let p := BitVec.ofNat 1024 (Memory.readN s.mem (line * 128) 128)
  match FMap.find s.seals line with
  | none => p
  | some w => if w = sl ∨ plainL2 s line then p else xtsCross w.key w.ctx w.va sl.key sl.ctx sl.va p

/-- A sealed line as seen under another seal: the same ciphertext, with the plaintext that seal gives it. -/
def reseal (s : State) (line : Nat) (sl : Seal) : State :=
  match FMap.find s.seals line with
  | some w => if w = sl then s else { s with mem := Memory.writeN s.mem (line * 128) 128 (lineAs s line sl).toNat, seals := FMap.put s.seals line sl }
  | none => s

/-- n bytes at a physical location, within one line, read under a seal. -/
def physRead (s : State) (loc die pa n : Nat) (sl : Seal) : Nat :=
  let a := maddr loc die pa
  if isSealed loc then ((lineAs s (a / 128) sl).toNat / 256 ^ (a % 128)) % 256 ^ n
  else Memory.readN s.mem a n

/-- Write n bytes at a physical location, within one line, under a seal. -/
def physWrite (s : State) (loc die pa n v : Nat) (sl : Seal) : State :=
  let a := maddr loc die pa
  if isSealed loc then
    let line := a / 128
    let s := reseal s line sl
    { s with mem := Memory.writeN s.mem a n v, seals := FMap.put s.seals line sl }
  else { s with mem := Memory.writeN s.mem a n v }

/-! ### Ways between the dies of the module (R10, R42) -/

/-- Link number of an end: 0 to 7 external, 8 west, 9 east, 10 row (R43). -/
def linkOf (unit : Nat) : Nat := unit - 48
def linkActive (s : State) (d unit : Nat) : Bool := ((s.die d).link (linkOf unit)).st == .active
/-- The die and end at the other side of a bridge end. -/
def bridgePeer (d unit : Nat) : Nat × Nat :=
  match unit with | 56 => (d - 1, 57) | 57 => (d + 1, 56) | _ => ((d + 4) % 8, 58)
/-- ACTIVE bridge ends of a die, out of the minimal-hop ones, towards another local die. -/
def bridgesTo (s : State) (d t : Nat) : List Nat :=
  let ew := if d % 4 < t % 4 then [57] else if d % 4 > t % 4 then [56] else []
  let rw := if d / 4 ≠ t / 4 then [58] else []
  (ew ++ rw).filter fun u => linkActive s d u
/-- Does a way of ACTIVE bridges lead from die d to die t of the module, in at most n of them? -/
def wayOpen (s : State) : Nat → Nat → Nat → Bool
  | 0, d, t => d == t
  | n + 1, d, t => d == t || (bridgesTo s d t).any fun u => wayOpen s n (bridgePeer d u).1 t
/-- Can a die of the module come to the memory of a domain die now: its own, one that a way of bridges leads to, or one of another module, to
which its access leaves as a request? -/
def reaches (s : State) (d dom : Nat) : Bool := match localDie s dom with | some t => wayOpen s 5 d t | none => true

/-! ### Contexts (R56, R57) -/

/-- Die and HBM address of a table pointer. -/
def ptrDie (p : Word) : Nat := (p.extractLsb' 0 5).toNat
def ptrAddr (p : Word) : Nat := (p.extractLsb' 16 36).toNat * 65536
/-- 8 bytes of HBM; of another module's die, what it returns (log 109). -/
def hbm8 (s : State) (die a : Nat) : Word :=
  BitVec.ofNat 64 (if (localDie s die).isSome then Memory.readN s.mem (maddr 0 die a) 8 else Config.farValue s.gtc (maddr 0 die a))
/-- Address of word w of a context entry in the HBM of CTXBASE's die. -/
def ctxAddr (s : State) (ctx w : Nat) : Nat := ptrAddr s.mod.ctxbase + 64 * ctx + 8 * w
def ctxWord (s : State) (ctx w : Nat) : Word := hbm8 s (ptrDie s.mod.ctxbase) (ctxAddr s ctx w)
def ctxV (s : State) (ctx : Nat) : Bool := (ctxWord s ctx 0).getLsbD 0
def ctxSinter (s : State) (ctx : Nat) : Nat := ((ctxWord s ctx 0).extractLsb' 1 2).toNat
def ctxPasid (s : State) (ctx : Nat) : Nat := ((ctxWord s ctx 0).extractLsb' 3 20).toNat
def ctxPasidv (s : State) (ctx : Nat) : Bool := (ctxWord s ctx 0).getLsbD 23
def ctxQuota (s : State) (ctx : Nat) : Nat :=
  let q := ((ctxWord s ctx 0).extractLsb' 24 16).toNat
  if q = 0 then 12288 else q
def ctxVec (s : State) (ctx : Nat) : Nat := ((ctxWord s ctx 0).extractLsb' 40 11).toNat
/-- A valid context: V, SINTER not 3, no other PASIDV entry with its PASID. -/
def ctxOk (s : State) (ctx : Nat) : Bool :=
  ctxV s ctx && decide (ctxSinter s ctx ≠ 3) &&
  (!ctxPasidv s ctx || (List.range 512).all fun x => x == ctx || !ctxPasidv s x || ctxPasid s x != ctxPasid s ctx)
/-- The context a PASID names. -/
def ctxOfPasid (s : State) (p : Nat) : Option Nat :=
  (List.range 512).find? fun x => ctxV s x && ctxPasidv s x && ctxPasid s x == p

/-! ### Page tables (R59 to R61) -/

def pteV (e : Word) : Bool := e.getLsbD 0
def pteLeaf (e : Word) : Bool := e.getLsbD 1
def pteR (e : Word) : Bool := e.getLsbD 2
def pteW (e : Word) : Bool := e.getLsbD 3
def pteX (e : Word) : Bool := e.getLsbD 4
def pteCow (e : Word) : Bool := e.getLsbD 5
def pteSysatom (e : Word) : Bool := e.getLsbD 6
def pteRoc (e : Word) : Bool := e.getLsbD 7
def pteNocomp (e : Word) : Bool := e.getLsbD 8
def pteSup (e : Word) : Bool := e.getLsbD 9
def pteKey (e : Word) : Nat := (e.extractLsb' 10 10).toNat
def pteLoc (e : Word) : Nat := (e.extractLsb' 20 3).toNat
def pteDie (e : Word) : Nat := (e.extractLsb' 23 5).toNat
def pteFrame (e : Word) : Nat := (e.extractLsb' 28 36).toNat * 65536

/-- Index bits and page size of a level (Table 3.5). -/
def lvlShift (lvl : Nat) : Nat := match lvl with | 0 => 16 | 1 => 21 | 2 => 30 | 3 => 39 | _ => 48
def lvlIndex (lvl va : Nat) : Nat := va / 2 ^ lvlShift lvl % (match lvl with | 0 => 32 | 4 => 256 | _ => 512)

/-- How a walk ends: level, die and address of the entry, the entry, and the fault code if the walk itself fails. -/
structure Walk where
  lvl : Nat
  die : Nat
  ea : Nat
  e : Word
  code : Nat
deriving DecidableEq, Repr

/-- The walk of R61 from level `lvl` down, the table at (die, addr). -/
def walkFrom (s : State) (va : Nat) : Nat → Nat → Nat → Walk
  | lvl, die, addr =>
    let ea := addr + 8 * lvlIndex lvl va
    let e := hbm8 s die ea
    if ¬ pteV e then ⟨lvl, die, ea, e, 1⟩
    else match lvl with
      | 0 => ⟨0, die, ea, e, 0⟩
      | n + 1 =>
        if n + 1 ≤ 2 ∧ pteLeaf e then ⟨n + 1, die, ea, e, 0⟩
        else if (n + 1 ≥ 3 ∧ pteLeaf e) ∨ pteLoc e ≠ 0 ∨ e.extractLsb' 2 18 ≠ 0 then ⟨n + 1, die, ea, e, 11⟩
        else walkFrom s va n (pteDie e) (pteFrame e)

def walk (s : State) (ctx va : Nat) : Walk :=
  let root := ctxWord s ctx 1
  walkFrom s va 4 (ptrDie root) (ptrAddr root)

/-- Kinds of access for translation. -/
inductive AccT where | read | write | exec | amo
deriving DecidableEq, Repr

/-- A master, as translation sees it: user mode for SUP pages; a supervisor Shuttle copy for the weight store; who it is to Sinter
(MKIND, MID, die, WHERE), unless it is none of its masters. -/
structure MasterT where
  user : Bool
  supCopy : Bool
  who : Option (Nat × Nat × Nat × Word)
deriving DecidableEq, Repr
/-- Accesses made for a task (R61). -/
def mUser : MasterT := ⟨true, false, none⟩
/-- Queues, Fumarole and host requesters are not user-mode masters; the Spindle's own channel counts as a supervisor Shuttle copy (R190). -/
def mQueue : MasterT := ⟨false, false, none⟩
def mSpindle : MasterT := ⟨false, true, none⟩
/-- Is the master a host requester? -/
def MasterT.isHost (m : MasterT) : Bool := match m.who with | some w => w.1 == 5 | none => false
def MasterT.by (m : MasterT) (kind mid die : Nat) (wh : Word) : MasterT := { m with who := some (kind, mid, die, wh) }

/-- A translation, or its fault: code, level, the entry concerned. -/
inductive TRes where
  | ok (ph : Phys) (lvl : Nat) (e : Word)
  | fault (code lvl : Nat) (e : Word)
deriving DecidableEq, Repr

/-- Bytes of a die's second tier below the CXL.mem range (R63); the ranges of another module are set by its own HDMCFG. -/
def hdmStart (s : State) (die : Nat) : Nat :=
  512000000000 - (if (localDie s die).isNone then 0 else if die % 8 = 0 then s.mod.hdm0 else if die % 8 = 4 then s.mod.hdm4 else 0) * 2 ^ 30

/-- Is some launch active on a domain die: from its first reservation there to its end, pre-empted meanwhile or not (R190)? One whose loading
failed has ended, and is active again when it reserves again (R112). -/
def launchActive (s : State) (die : Nat) : Bool :=
  s.launches.any fun l => l.phase != .ended && l.phase != .failed &&
    (l.resv.contains die || ((l.restore || l.relT != 0) && l.dies.contains die)) &&
    ((l.cores.any fun i => s.dieBase + i / 64 == die) || l.far.any fun i => i / 64 == die)

/-- The key check of R73 on a leaf entry: 0, or the fault's code. -/
def keyFault (s : State) (ctx : Nat) (e : Word) : Nat :=
  let k := FMap.get KeySlot.init s.mod.keys (pteKey e)
  if isSealed (pteLoc e) ∧ (k.st = .empty ∨ k.st = .destroying) then 9
  else if isSealed (pteLoc e) ∧ k.owner ≠ ctx then 10
  else 0

/-- Is a page still held as ROC, though its entry no longer says so (R65, log 69)? -/
def rocHeld (s : State) (ctx va : Nat) : Bool := s.rocPages.any fun x => x.ctx == ctx && x.vpn == va / 2 ^ lvlShift x.lvl

/-- The checks of R61 on a leaf entry; an atomic access is checked as READ, then as WRITE. No host request reaches host memory
(Table 8.1): one that names it faults PERM_READ or PERM_WRITE (log 40). -/
def checkLeaf (s : State) (ctx va lvl : Nat) (e : Word) (acc : AccT) (m : MasterT) : TRes :=
  let size := 2 ^ lvlShift lvl
  let f := fun code => TRes.fault code lvl e
  let wr := acc = .write ∨ acc = .amo
  if pteLoc e > 3 ∨ pteFrame e % size ≠ 0 ∨ (pteCow e ∧ pteW e) then f 11
  else if pteLoc e = 3 ∧ pteDie e ≠ 0 ∧ pteDie e ≠ 4 then f 11
  else if pteLoc e = 1 ∧ pteFrame e + size > hdmStart s (pteDie e) ∧ (pteDie e % 8 = 0 ∨ pteDie e % 8 = 4) ∧
      hdmStart s (pteDie e) < 512000000000 then f 11
  else if pteSup e ∧ m.user then f 5
  else if pteLoc e = 3 ∧ m.isHost then f (if acc = .write then 3 else 2)
  else if (acc = .read ∨ acc = .amo) ∧ ¬ pteR e then f 2
  else if acc = .exec ∧ ¬ pteX e then f 4
  else if acc = .amo ∧ keyFault s ctx e ≠ 0 then f (keyFault s ctx e)
  else if wr ∧ (pteRoc e ∨ rocHeld s ctx va) then f 6
  else if wr ∧ pteCow e then f 7
  else if wr ∧ ¬ pteW e then f 3
  else if wr ∧ pteLoc e = 2 ∧ (launchActive s (pteDie e) ∨ ¬ m.supCopy) then f 8
  else if keyFault s ctx e ≠ 0 then f (keyFault s ctx e)
  else
    let pa := pteFrame e + va % size + (if pteLoc e = 3 then ctxPasid s ctx * 2 ^ 52 else 0)
    .ok ⟨pteLoc e, pteDie e, pa, pteRoc e, pteNocomp e, pteSysatom e, pteKey e⟩ lvl e

/-! ### The L2 (R186, R187, R194) -/

/-- Write back a dirty line of HBM: its 512-byte block takes its state (R193), by NOCOMP of its page entry as it then stands (R194); where
the page of the line's last use no longer maps it, as it stood at that use. -/
def writeBack (s : State) (d : Nat) (dom : Nat) (x : L2Line) : State :=
  if ¬ x.dirty ∨ x.loc ≠ 0 then s
  else
    let blk := x.line / 4
    let v := BitVec.ofNat 4096 (Memory.readN s.mem (maddr 0 dom (blk * 512)) 512)
    let nocomp := match x.page with
      | some (c, va) =>
        let w := walk s c va
        if w.code = 0 ∧ pteLoc w.e = 0 ∧ pteDie w.e = dom ∧ pteFrame w.e ≤ x.line * 128 ∧ x.line * 128 < pteFrame w.e + 2 ^ lvlShift w.lvl then
          pteNocomp w.e
        else x.nocomp
      | none => x.nocomp
    let st : BitVec 4 := if nocomp then 3 else if v = 0 then 4 else (Config.storedLines v).setWidth 4
    let y := s.die d
    s.setDie d { y with blocks := FMap.set 0 y.blocks blk st }

def isPinned (y : Die) (loc line : Nat) : Bool := y.pins.any fun p => p.loc == loc && p.line == line

/-- A line of LOC 0 or 1 is used: it becomes the most recent of its set; a full set evicts its least recently used unpinned way. -/
def touchL2 (s : State) (d dom loc pa : Nat) (wr nocomp : Bool) (page : Option (Nat × Nat)) : State :=
  if loc > 1 then s
  else
    let y := s.die d
    let line := pa / 128
    let k := l2Key line
    let l := FMap.get [] y.l2 k
    match l.find? fun x => x.loc == loc && x.line == line with
    | some x =>
      -- a use that names no page leaves the one it has
      let l' := { x with dirty := x.dirty || wr, nocomp := if page.isSome then nocomp else x.nocomp, page := if page.isSome then page else x.page } :: l.filter fun z => !(z.loc == loc && z.line == line)
      s.setDie d { y with l2 := FMap.put y.l2 k l' }
    | none =>
      let victim := if l.length < 16 then none else l.reverse.find? fun z => !isPinned y z.loc z.line
      let l' := match victim with | some v => l.filter (· ≠ v) | none => l
      let bad := loc == 0 && y.badBlocks.contains (line / 4)
      let s := s.setDie d { y with l2 := FMap.put y.l2 k (⟨loc, line, wr, nocomp, bad, page⟩ :: l') }
      match victim with | some v => writeBack s d dom v | none => s

/-- Is a line held with data that arrived poisoned (R193), or has a location of it an uncorrectable error (R168)? -/
def l2Bad (s : State) (ph : Phys) : Bool :=
  match localDie s ph.die with
  | some k => ((s.die k).badLocs.any fun x => x.1 == ph.loc && x.2 / 16 == ph.pa / 128) ||
      (FMap.get [] (s.die k).l2 (l2Key (ph.pa / 128))).any fun x => x.loc == ph.loc && x.line == ph.pa / 128 && x.bad
  | none => false

/-! ### TLBs (R64) -/

/-- The TLBs (R64): one per core (its identity), per host port (1 000 + port), per engine class and die (2 000 + 8 × class + die). -/
def tlbFind (s : State) (t ctx va : Nat) : Option TlbEntry :=
  (FMap.get [] s.tlbs t).find? fun x => x.ctx == ctx && x.vpn == va / 2 ^ lvlShift x.lvl

/-- translate(ctx, va, acc, master) through a TLB (R61, R64). -/
def translate (s : State) (t ctx va : Nat) (acc : AccT) (m : MasterT) : TRes :=
  if va ≥ 2 ^ 56 then .fault 12 7 0
  else if ¬ ctxOk s ctx then .fault 13 7 0
  else match tlbFind s t ctx va with
    | some x => checkLeaf s ctx va x.lvl x.pte acc m
    | none =>
      let w := walk s ctx va
      if w.code ≠ 0 then .fault w.code w.lvl w.e else checkLeaf s ctx va w.lvl w.e acc m

/-- The entries a walk reads, from level `lvl` down: die and address. -/
def walkLines (s : State) (va : Nat) : Nat → Nat → Nat → List (Nat × Nat)
  | lvl, die, addr =>
    let ea := addr + 8 * lvlIndex lvl va
    let e := hbm8 s die ea
    (die, ea) :: match lvl with
      | 0 => []
      | n + 1 => if ¬ pteV e ∨ pteLeaf e then [] else walkLines s va n (pteDie e) (pteFrame e)
/-- The die of the master whose TLB this is. -/
def tlbDie (t : Nat) : Nat := if t ≥ 2000 then (t - 2000) % 8 else if t ≥ 1000 then 4 * ((t - 1000) % 2) else t / 64 % 8
/-- Must a translation wait, because no way of ACTIVE bridges leads to its context entry or to a table that it walks (R10, R42)? -/
def walkHeld (s : State) (t ctx va : Nat) : Bool :=
  let d := tlbDie t
  !reaches s d (ptrDie s.mod.ctxbase) || ((tlbFind s t ctx va).isNone && ctxV s ctx &&
    (let root := ctxWord s ctx 1; !(walkLines s va 4 (ptrDie root) (ptrAddr root)).all fun p => reaches s d p.1))
/-- First addresses of the pages of n bytes at a VA. -/
def pageVas (va n : Nat) : List Nat :=
  va :: (List.range (n / 65536 + 1)).filterMap fun k => let a := (va / 65536 + 1 + k) * 65536; if a < va + n then some a else none
/-- Must an access of n bytes at a VA that is made in one step wait, because no way leads to its tables or to its memory (R10, R42)? -/
def wayHeld (s : State) (t ctx va n : Nat) (acc : AccT) (m : MasterT) : Bool :=
  (pageVas va n).any fun a => walkHeld s t ctx a || (match translate s t ctx a acc m with
    | .ok ph _ _ => ph.loc != 3 && !reaches s (tlbDie t) ph.die
    | _ => false)
/-- A walk's reads use lines of the L2s that hold the tables (R186). -/
def walkUse (s : State) (ctx va : Nat) : State :=
  let root := ctxWord s ctx 1
  (walkLines s va 4 (ptrDie root) (ptrAddr root)).foldl (fun s p => match localDie s p.1 with
    | some d => touchL2 s d p.1 0 p.2 false false none | none => s) s

/-- Keep the leaf of a successful walk in a TLB of 512 entries; the oldest goes when it is full. For host memory the host translation of
the 4 KiB page is kept too (R63, R66). -/
def tlbFill (s : State) (t ctx va lvl : Nat) (e : Word) : State :=
  let s := if pteLoc e = 3 then
      let x := (ctxPasid s ctx, (pteFrame e + va % 2 ^ lvlShift lvl) / 4096)
      if s.ats.contains x then s else { s with ats := s.ats ++ [x] }
    else s
  let s := if (tlbFind s t ctx va).isSome then s else walkUse s ctx va
  let x : TlbEntry := ⟨ctx, lvl, va / 2 ^ lvlShift lvl, e⟩
  let s := if pteRoc e && !rocHeld s ctx va then { s with rocPages := x :: s.rocPages } else s
  let l := FMap.get [] s.tlbs t
  if l.any fun x => x.ctx == ctx && x.vpn == va / 2 ^ lvlShift x.lvl then s
  else { s with tlbs := FMap.put s.tlbs t ((x :: l).take 512) }

/-- Do data of a location arrive poisoned: a bad line, or one the L2 would fetch from a bad block (R168, R193)? -/
def lineBad (s : State) (ph : Phys) : Bool :=
  l2Bad s ph || (ph.loc == 0 && !inL2 s 0 ph.die (ph.pa / 128) && (match localDie s ph.die with
    | some k => (s.die k).badBlocks.contains (ph.pa / 512) | none => false))

/-- The locations that a write covers whole have good data again (R168). -/
def mendLocs (s : State) (d loc pa n : Nat) : State :=
  let y := s.die d
  if y.badLocs = [] then s
  else s.setDie d { y with badLocs := y.badLocs.filter fun x => !(x.1 == loc && decide (pa ≤ 8 * x.2) && decide (8 * x.2 + 8 ≤ pa + n)) }

/-- The leaf entry at a place of the tables, at or below a level: the pages whose entry it is. -/
def leavesAt (s : State) (ctx die a : Nat) : Nat → Nat → Nat → Nat → List TlbEntry
  | lvl, d, addr, vpn =>
    let n := match lvl with | 0 => 32 | 4 => 256 | _ => 512
    (List.range n).flatMap fun i =>
      let ea := addr + 8 * i
      let e := hbm8 s d ea
      let p := vpn * n + i
      if ¬ pteV e then []
      else match lvl with
        | 0 => if d = die ∧ ea = a then [⟨ctx, 0, p, e⟩] else []
        | k + 1 =>
          if k + 1 ≤ 2 ∧ pteLeaf e then (if d = die ∧ ea = a then [⟨ctx, k + 1, p, e⟩] else [])
          else if pteLeaf e ∨ pteLoc e ≠ 0 ∨ e.extractLsb' 2 18 ≠ 0 then []
          else leavesAt s ctx die a k (pteDie e) (pteFrame e) p
/-- A write to HBM that takes ROC from a leaf entry: the page stays as it is until a shoot-down of the domain (R65, log 69). -/
def rocNote (s : State) (die a n v : Nat) : State :=
  let w := a / 8 * 8
  let e := hbm8 s die w
  if ¬ (pteV e ∧ pteRoc e) then s
  else
    let o := a % 8
    let new := BitVec.ofNat 64 (e.toNat % 256 ^ o + v % 256 ^ n * 256 ^ o + e.toNat / 256 ^ (o + n) * 256 ^ (o + n))
    if pteV new ∧ pteRoc new then s
    else
      let l := (List.range 512).flatMap fun c => if ctxV s c then leavesAt s c die w 4 (ptrDie (ctxWord s c 1)) (ptrAddr (ctxWord s c 1)) 0 else []
      { s with rocPages := (l.filter fun x => !s.rocPages.any fun y => y.ctx == x.ctx && y.lvl == x.lvl && y.vpn == x.vpn) ++ s.rocPages }

/-- Write n bytes of one line of HBM, at a die of this module. -/
def setHbm (s : State) (die a n v : Nat) : State :=
  match localDie s die with
  | some d =>
    let s := mendLocs (if n ≤ 8 then rocNote s die a n v else s) d 0 a n
    touchL2 { checkAbsent s 0 die a n with mem := Memory.writeN s.mem (maddr 0 die a) n v } d die 0 a true false none
  | none => s
def setCtxWord (s : State) (ctx w : Nat) (v : Word) : State := setHbm s (ptrDie s.mod.ctxbase) (ctxAddr s ctx w) 8 v.toNat

/-! ### Reading and writing at a home -/

/-- Does a location lie on a die of another module? -/
def farHome (s : State) (ph : Phys) : Bool := ph.loc != 3 && (localDie s ph.die).isNone
/-- n bytes at a home, within one location; of a home in another module, what it returns (log 109). -/
def homeRead (s : State) (ctx va n : Nat) (ph : Phys) : Nat :=
  if farHome s ph then Config.farValue s.gtc (maddr ph.loc ph.die ph.pa) % 256 ^ n
  else if ph.loc = 4 then Memory.readN (s.core (ph.die % 8 * 64 + ph.pa / 2 ^ 22)).spad (ph.pa % 2 ^ 22) n
  else physRead s ph.loc ph.die ph.pa n (sealOf s ph.loc ph.key ctx va)

/-- A read at a home uses the line of its die's L2, which holds a line of the second tier as plaintext from then on (R186, R195). -/
def homeUse (s : State) (ctx va : Nat) (ph : Phys) : State :=
  match localDie s ph.die with
  | some d =>
    let line := maddr ph.loc ph.die ph.pa / 128
    let s := if ph.loc = 1 ∧ ¬ plainL2 s line then reseal s line (sealOf s ph.loc ph.key ctx va) else s
    touchL2 s d ph.die ph.loc ph.pa false ph.nocomp (some (ctx, va))
  | none => s

/-- Write n bytes at a home, within one location, and use the L2 line. A home in another module takes a request instead (`vaWrite`). -/
def homeWrite (s : State) (ctx va n v : Nat) (ph : Phys) : State :=
  if farHome s ph then s
  else if ph.loc = 4 then
    let i := ph.die % 8 * 64 + ph.pa / 2 ^ 22
    let c := s.core i
    s.setCore i { c with spad := Memory.writeN c.spad (ph.pa % 2 ^ 22) n v }
  else
    let s := checkAbsent s ph.loc ph.die ph.pa n
    let s := match localDie s ph.die with | some d => mendLocs (if ph.loc = 0 then rocNote s ph.die ph.pa n v else s) d ph.loc ph.pa n | none => s
    let s := physWrite s ph.loc ph.die ph.pa n v (sealOf s ph.loc ph.key ctx va)
    match localDie s ph.die with | some d => touchL2 s d ph.die ph.loc ph.pa true ph.nocomp (some (ctx, va)) | none => s

/-- A bank of a scratchpad here has granted an access of the SHUTTLE, VENT or CARDER path (2, 3, 4): its pointer moves to the path after it (R179).
Each access is granted in its own step, so the pointer decides nothing here (log 110). -/
def bankTurn (s : State) (path : Nat) (ph : Phys) : State :=
  if ph.loc = 4 ∧ farHome s ph = false ∧ 2 ≤ path ∧ path ≤ 4 then
    { s with bankPtr := FMap.put s.bankPtr ((ph.die % 8 * 64 + ph.pa / 2 ^ 22) * 16 + ph.pa / 2 ^ 18 % 16) ((path - 1) % 3) }
  else s

/-- A scratchpad address (Table 8.2, R180): none when it is not valid for a context, or the access runs past the end. -/
def spadPhys (s : State) (ctx a n : Nat) : Option Phys :=
  let r := a / 2 ^ 22 % 64
  let d := a / 2 ^ 28 % 32
  if a ≥ 2 ^ 33 ∨ r ≥ 48 ∨ a % 2 ^ 22 + n > 2 ^ 22 then none
  else match localDie s d with
    | none =>
      if s.launches.any fun l => l.ctx == ctx && l.relT != 0 && l.phase != .ended && l.far.contains (d * 64 + r) then
        some ⟨4, d, r * 2 ^ 22 + a % 2 ^ 22, false, false, true, 0⟩
      else none
    | some ld =>
      if s.launches.any fun l => l.ctx == ctx && l.phase != .ended && l.resv.contains d && l.cores.contains (ld * 64 + r) then
        some ⟨4, d, r * 2 ^ 22 + a % 2 ^ 22, false, false, true, 0⟩
      else none

/-! ### Interrupts and fault records (R30, R69) -/

/-- Send MSI-X; vectors 0 and 1 carry only the module's notifications (R30). -/
def sendMsix (s : State) (port vec : Nat) : State := if vec < 2 then s else { s with msix := s.msix ++ [(port, vec)] }
/-- Host port that serves a local die: 0 on die 0, 1 on die 4. -/
def portOf (die : Nat) : Nat := if die % 8 < 4 then 0 else 1

/-- A fault record (Table 3.9). -/
def faultRec (stamp : Nat) (code mkind mid : Nat) (wr frozen : Bool) (ctx die va : Nat) (pte : Word) (level : Nat) (wh : Word) :
    BitVec 512 :=
  BitVec.ofNat 512 (stamp % 2 ^ 64 +
    2 ^ 64 * (code % 256 + mkind * 2 ^ 8 + mid % 2 ^ 16 * 2 ^ 11 + (if wr then 2 ^ 27 else 0) + (if frozen then 2 ^ 28 else 0) +
      ctx % 512 * 2 ^ 29 + die % 32 * 2 ^ 38) +
    2 ^ 128 * (va % 2 ^ 56) + 2 ^ 192 * pte.toNat + 2 ^ 256 * (level % 8) + 2 ^ 320 * wh.toNat)

/-- Where a record stands among those of its cycle: MKIND, then MID (R69). -/
def recKey (r : BitVec 512) : Nat := (r.extractLsb' 72 3).toNat * 65536 + (r.extractLsb' 75 16).toNat
/-- Put a record into a fault ring at index i, before the records of the same cycle (among the n before i) that R69 orders after it. -/
def putRecord (s : State) (d a : Nat) (r : BitVec 512) : Nat → Nat → State
  | 0, i => setHbm s d (a + 64 * i) 64 r.toNat
  | n + 1, i =>
    let j := (i + 255) % 256
    let o := BitVec.ofNat 512 (Memory.readN s.mem (maddr 0 d (a + 64 * j)) 64)
    if o.extractLsb' 0 64 = r.extractLsb' 0 64 ∧ recKey r < recKey o then putRecord (setHbm s d (a + 64 * i) 64 o.toNat) d a r n j
    else setHbm s d (a + 64 * i) 64 r.toNat

/-- Write a record to its context's fault ring, or count it in LOST, and signal VEC through a port (R69), whatever V of its entry (log
35). -/
def writeFault (s : State) (ctx port : Nat) (r : BitVec 512) : State :=
  let w5 := ctxWord s ctx 5
  let fhead := (w5.extractLsb' 0 8).toNat
  let lost := (w5.extractLsb' 8 24).toNat
  let n := FMap.get 0 s.unackFaults ctx
  -- a page whose entry refused a write as ROC stays so until a shoot-down (R65)
  let s := if (r.extractLsb' 64 8).toNat = 6 then
      let lvl := (r.extractLsb' 256 3).toNat
      let va := (r.extractLsb' 128 56).toNat
      if rocHeld s ctx va then s else { s with rocPages := ⟨ctx, lvl, va / 2 ^ lvlShift lvl, r.extractLsb' 192 64⟩ :: s.rocPages }
    else s
  let s := if n ≥ 256 then
      setCtxWord s ctx 5 (BitVec.ofNat 64 ((w5.toNat / 2 ^ 32) * 2 ^ 32 + (min (lost + 1) (2 ^ 24 - 1)) * 2 ^ 8 + fhead))
    else
      let p := ctxWord s ctx 4
      let s := putRecord s (ptrDie p) (ptrAddr p) r n fhead
      let s := setCtxWord s ctx 5 (BitVec.ofNat 64 ((w5.toNat / 2 ^ 32) * 2 ^ 32 + lost * 2 ^ 8 + (fhead + 1) % 256))
      { s with unackFaults := FMap.set 0 s.unackFaults ctx (n + 1) }
  sendMsix s port (ctxVec s ctx)

/-! ### Whole accesses by the indivisible steps of engines, queues and ports -/

/-- Pieces of n bytes at va from offset off that each lie within one 8-byte location: (va, bytes, byte offset). -/
def piecesFrom (va n : Nat) : Nat → Nat → List (Nat × Nat × Nat)
  | 0, _ => []
  | k + 1, off =>
    if off ≥ n then []
    else
      let m := min (n - off) (8 - (va + off) % 8)
      (va + off, m, off) :: piecesFrom va n k (off + m)
/-- Pieces of n bytes at va. -/
def pieces8 (va n fuel : Nat) : List (Nat × Nat × Nat) := piecesFrom va n fuel 0

/-- A faulting access: code, level, entry, VA. -/
structure MFault where
  code : Nat
  lvl : Nat
  e : Word
  va : Nat
deriving DecidableEq, Repr

/-- The result of a step that may have touched memory the module does not have. -/
def finish (s : State) : Host.Outcome State Fault Refusal :=
  match s.absent with
  | some (l, d, a) => .fault (.absentMemory l d a)
  | none => .next s

end Sys2Proof.Machine
end

