-- ==== Sys2Proof/Machine/Home.lean ====
section
/-! DEFINITION. The home of a location: what each kind of access does there, Sinter, the order of accesses, causality between dies,
the ways of data back to a core (R144, R161, R190, R191, R218 to R236, R243 to R251, R385, R388, R408). -/
namespace Sys2Proof.Machine

/-! ### Accumulate operators (Tables 16.4, 16.6) -/

/-- Did a lock operation succeed on `old` (R388)? -/
def lockOk (aop : Nat) (old : Word) : Bool :=
  let readers := (old.extractLsb' 0 32).toNat
  let writer := old.getLsbD 32
  match aop with
  | 12 => !writer && !(old.getLsbD 34 && old.getLsbD 33) && decide (readers < 2 ^ 32 - 1)
  | 13 => decide (readers > 0)
  | 14 => !writer && decide (readers = 0)
  | _ => writer

def bit64 (i : Nat) : Word := (1 : Word) <<< i

/-- New lock word. -/
def lockNew (aop : Nat) (old : Word) : Word :=
  let lo := old.extractLsb' 0 32
  if lockOk aop old then
    match aop with
    | 12 => (old &&& ~~~(0xFFFFFFFF#64)) ||| (lo + 1).setWidth 64
    | 13 => (old &&& ~~~(0xFFFFFFFF#64)) ||| (lo - 1).setWidth 64
    | 14 => (old ||| bit64 32) &&& ~~~(bit64 33)
    | _ => old &&& ~~~(bit64 32)
  else if aop = 14 ∧ old.getLsbD 34 then old ||| bit64 33 else old

/-- New value, flags and ZM of an accumulate on a unit of w bits (R385, R245, R276). -/
def amoNew (aop w : Nat) (old : Nat) (opa opb : Word) (key : BitVec 128) (strm tag : BitVec 32) (dmax : Bool) :
    Nat × FlagBits × Bool :=
  let a := opa.toNat % 2 ^ w
  match aop with
  | 1 => ((old + a) % 2 ^ w, 0, false)
  | 2 => ((old + opa.toNat) % 2 ^ 64, 0, false)
  | 3 => let r := fadd f32 old a; (r.1, r.2, false)
  | 4 => (if toSigned w old < toSigned w a then a else old, 0, false)
  | 5 => (if toSigned w a < toSigned w old then a else old, 0, false)
  | 6 => let r := fmax f32 old a; (r.1, r.2, false)
  | 7 => let r := fmin f32 old a; (r.1, r.2, false)
  | 8 =>
    let x := Pair.ofNat old
    let y := Pair.ofNat opa.toNat
    let r := if dmax then amerge x y else lmerge x y key strm.toNat (0xC0000000 + tag.toNat % 2 ^ 30)
    (r.toNat, 0, isZeroPair r)
  | 9 => (if old = a then opb.toNat % 2 ^ w else old, 0, false)
  | 10 => (a, 0, false)
  | 11 => (if old < a then old + 1 else old, 0, false)
  | _ => ((lockNew aop (BitVec.ofNat 64 old)).toNat, 0, false)

/-- The flags of FADD, FMAX and FMIN also reach the home's sticky register (R245, R246). -/
def aopSticky (aop : Nat) : Bool := aop == 3 || aop == 6 || aop == 7

/-- Set flags at a home: AFLAGS of the core of a scratchpad, DAFLAGS of the die otherwise. -/
def stickyFlags (s : State) (ph : Phys) (fl : FlagBits) : State :=
  if fl = 0 then s
  else if ph.loc = 4 then
    let i := ph.die % 8 * 64 + ph.pa / 2 ^ 22
    let c := s.core i
    s.setCore i { c with aflags := c.aflags ||| fl }
  else match localDie s ph.die with
    | some d => s.setDie d { s.die d with daflags := (s.die d).daflags ||| fl }
    | none => s

/-! ### Masters, scopes and Sinter (R224, R249 to R251) -/

/-- The core a master of kind 0 or 1 belongs to. -/
def masterCore (mkind mid : Nat) : Option Nat := if mkind = 0 then some mid else if mkind = 1 then some (mid / 8) else none
/-- Quad of a core (R115): die, quad index. -/
def quadOf (core : Nat) : Nat × Nat := (core / 64, core % 64 / 8 / 2 * 4 + core % 64 % 8 / 2)
/-- Die of a master in the domain; none for a host requester. An engine's MID is its endpoint, which names no die: it counts as of die `d`,
that of the location (log 88). -/
def masterDie (base k m d : Nat) : Option Nat :=
  match masterCore k m with
  | some a => some (a / 64)
  | none => if k = 4 then some (base + m / 8) else if k = 5 then none else some d
/-- Does the scope of master (k, m) contain master (k', m') (Table 10.2)? A host requester lies in .sys only. -/
def scopeHas (base sc k m k' m' d : Nat) : Bool :=
  match sc with
  | 0 => masterCore k m != none && masterCore k m == masterCore k' m'
  | 1 => (match masterCore k m, masterCore k' m' with | some a, some b => quadOf a == quadOf b | _, _ => false)
  | 2 => (match masterDie base k m d, masterDie base k' m' d with | some a, some b => a == b | _, _ => false)
  | 3 => (match masterDie base k m d, masterDie base k' m' d with | some a, some b => a / 8 == b / 8 | _, _ => false)
  | _ => true

def ivalKey (mkind mid : Nat) : Nat := mkind * 65536 + mid
def bumpIval (s : State) (mkind mid : Nat) : State :=
  { s with ivals := FMap.set 0 s.ivals (ivalKey mkind mid) (FMap.get 0 s.ivals (ivalKey mkind mid) + 1) }

def isDevAcc (sc : Nat) : Bool := decide (sc ≤ 4)

/-- Sinter on one access of master n (R249 to R251): `sc` is 0 to 4 for a device accumulate, 5 for a host AtomicOp with SYSATOM = 0, 7
for a plain write, 8 for a read. `wh` is WHERE of the master. -/
def sinter (s : State) (mkind mid die ctx va : Nat) (ph : Phys) (sc : Nat) (wh : Word) : State :=
  let mode := ctxSinter s ctx
  if mode = 0 ∨ mode = 3 ∨ ph.loc ≠ 0 ∨ ph.pa ≥ 2 ^ 34 then s
  else
    let k := ph.die * 2 ^ 40 + ph.pa / 32
    let w := FMap.get 0 s.sinter k
    let wk := (w.extractLsb' 16 3).toNat
    let wm := (w.extractLsb' 0 16).toNat
    let wint := (w.extractLsb' 19 10).toNat
    let wsc := (w.extractLsb' 29 3).toNat
    let other := wk ≠ 0 ∧ ¬ (wk - 1 = mkind ∧ wm = mid)
    let case1 := FMap.get 0 s.ivals (ivalKey (wk - 1) wm) % 1024 = wint ∧
      ¬ (isDevAcc sc ∧ isDevAcc wsc ∧ scopeHas s.dieBase sc mkind mid (wk - 1) wm ph.die ∧ scopeHas s.dieBase wsc (wk - 1) wm mkind mid ph.die)
    let case2 := (sc = 5 ∧ isDevAcc wsc) ∨ (isDevAcc sc ∧ wsc = 5)
    let s := if other ∧ (case1 ∨ case2) then
        let trap := mode = 2
        let r := faultRec s.gtc 60 mkind mid (sc ≠ 8) trap ctx die (va / 32 * 32) (w.setWidth 64) 7 wh
        let s := writeFault s ctx (portOf die) r
        if trap then { s with races := s.races ++ [(mkind, mid, r)] } else s
      else s
    if sc = 8 then s
    else
      let iv := FMap.get 0 s.ivals (ivalKey mkind mid) % 1024
      { s with sinter := FMap.set 0 s.sinter k (BitVec.ofNat 32 (mid % 65536 + (mkind + 1) * 2 ^ 16 + iv * 2 ^ 19 + sc * 2 ^ 29)) }

/-- Sinter on an access of a master that it knows. -/
def sinterBy (s : State) (m : MasterT) (ctx va : Nat) (ph : Phys) (sc : Nat) : State :=
  match m.who with | some (k, mid, d, wh) => sinter s k mid d ctx va ph sc wh | none => s

/-! ### The weight store (R190, R191) -/

/-- Cycle at which weight-store bank b serves a read that reaches it at cycle a. -/
def wsServe (b a : Nat) : Nat :=
  let p := a % 32768
  if 4096 * b ≤ p ∧ p < 4096 * b + 512 then a - p + 4096 * b + 512 else a
/-- Is bank b refreshing at a cycle? -/
def wsHeld (b g : Nat) : Bool := wsServe b g ≠ g

/-- Cycle in which a weight-store read asked for at t0 arrives, with the bank and the network taken: a bank serves one unit of 512 bytes a
cycle, outside its refresh, and at most 71 units come in a run of 10 cycles, in the order they are asked for (log 110); what one request
reads of a unit travels together (R190); `who` tells one master from another. -/
def wsDue (s : State) (d : Nat) (who t0 pa : Nat) : Nat × State :=
  let b := pa / 65536 % 8
  let y := s.die d
  let unit := pa / 512 + 1 + who * 2 ^ 40
  if y.wsSeen.1 = unit ∧ y.wsSeen.2.1 = t0 then (y.wsSeen.2.2, s)
  else
    let sv := wsServe b (max (t0 + 18) (FMap.get 0 y.wsBank b))
    let run := max ((sv + 40) / 10) y.wsRun
    let (run, cnt) := if run = y.wsRun then (if y.wsCount ≥ 71 then (run + 1, 1) else (run, y.wsCount + 1)) else (run, 1)
    let due := max (sv + 40) (run * 10)
    (due, s.setDie d { y with wsRun := run, wsCount := cnt, wsPtr := (b + 1) % 8, wsBank := FMap.put y.wsBank b (sv + 1)
                              wsSeen := (unit, t0, due) })

/-- A read of the weight store by any path takes its units through the network of the store's die. The numbers of the masters: a core,
channel or queue MKIND × 2^16 + MID, an engine with a TLB of its own 2^20 + that. -/
def wsUnit (s : State) (who : Nat) (ph : Phys) : State :=
  if ph.loc = 2 then (match localDie s ph.die with | some d => (wsDue s d who s.gtc ph.pa).2 | none => s) else s
/-- Bytes of a home as a master receives them that has no landing: those of a line with an uncorrectable error are a free value (R168, R193,
log 36). -/
def homeTake (s : State) (ctx va n : Nat) (ph : Phys) : Nat × State :=
  if lineBad s ph then ((Config.freeValue s.free).toNat % 256 ^ n, { s with free := s.free + 1 }) else (homeRead s ctx va n ph, s)

/-! ### Vector clocks (R234 to R236) -/

def dieClock (y : Die) (j : Nat) : BitVec 32 := FMap.get 0 y.clock j
/-- a ≥ b as serial numbers. -/
def serialGe (a b : BitVec 32) : Bool := decide ((a - b).toNat < 2 ^ 31)
/-- A die's clock covers a dependency vector in every entry. -/
def clockCovers (y : Die) (dv : List (BitVec 32)) : Bool := (dv.zipIdx).all fun p => serialGe (dieClock y p.2) p.1

/-- Is a release of an engine of die d, known by a key, behind every write the die sent to another die before it (R236)? -/
def relOpen (s : State) (d key : Nat) : Bool :=
  serialGe (dieClock (s.die d) (s.dieBase + d)) ((FMap.find (s.die d).rels key).getD (s.die d).seq)
/-- The release waits: the SEQ it waits for is kept from its first try. -/
def relMark (s : State) (d key : Nat) : State :=
  let y := s.die d
  if (FMap.find y.rels key).isSome then s else s.setDie d { y with rels := FMap.put y.rels key y.seq }
/-- The release is made. -/
def relDone (s : State) (d key : Nat) : State :=
  let y := s.die d
  s.setDie d { y with rels := FMap.erase y.rels key }
/-- Keys of the engines' releases: a Shuttle command, a Vent entry, a Spindle copy, a launch, a conversion. -/
def relKeySh (core ch : Nat) (id : BitVec 32) : Nat := (core * 8 + ch) * 2 ^ 32 + id.toNat
def relKeyVent (t : Nat) : Nat := 2 ^ 64 + t
def relKeyCopy (q num : Nat) : Nat := 2 ^ 65 + num * 64 + q
def relKeyLaunch (l : Nat) : Nat := 2 ^ 192 + l
def relKeyConv (id : Nat) : Nat := 2 ^ 256 + id

/-- Does a link lead to a die of the causality domain, which alone is told of clocks (R237)? -/
def leadsHome (s : State) (d k : Nat) : Bool := decide (k ≥ 8) || s.mod.present.getLsbD (Config.linkModule d k).toNat
/-- Raise entry j of a die's clock; a change is owed to every link that leads to a die of the domain (R50, R235, R237). -/
def raiseClock (s : State) (d j : Nat) (v : BitVec 32) : State :=
  let y := s.die d
  if serialGe (dieClock y j) v then s
  else
    let links := (List.range 11).foldl (fun m k =>
      match FMap.find m k with
      | some l => if (l.st = .active ∨ l.st = .lowpower) ∧ leadsHome s d k then FMap.put m k { l with dirty := if l.dirty.contains j then l.dirty else l.dirty ++ [j] } else m
      | none => m) y.links
    s.setDie d { y with clock := FMap.set 0 y.clock j v, links := links }

/-- May write SEQ v of a die go out now: has every earlier write to its line been acknowledged (R234)? -/
def lineFree (s : State) (d dd line : Nat) (v : BitVec 32) : Bool :=
  !((s.die d).unacked.any fun u => u.2.1 == dd && u.2.2 == line && u.1 != v && serialGe v u.1)
/-- The next SEQ of a die (R234). -/
def nextSeq (s : State) (d : Nat) : BitVec 32 := (s.die d).seq + 1
/-- May die d send a write to a line of another die now: fewer than 2^31 unacknowledged, none to that line? -/
def maySend (s : State) (d dd line : Nat) : Bool :=
  decide ((s.die d).unacked.length < 2 ^ 31) && !((s.die d).unacked.any fun u => u.2.1 == dd && u.2.2 == line)
/-- Number a write to other dies. -/
def numberAll (s : State) (d : Nat) (dds : List Nat) (line : Nat) : State :=
  let y := s.die d
  s.setDie d { y with seq := y.seq + 1, unacked := y.unacked ++ dds.map fun dd => (y.seq + 1, dd, line) }
def numberWrite (s : State) (d dd line : Nat) : State := numberAll s d [dd] line
/-- SEQ of the oldest unacknowledged write of a die to die dd that went out under a TAG: answers carry no SEQ (Table 2.4). -/
def seqOf (y : Die) (dd tag : Nat) : Option (BitVec 32) :=
  (y.unacked.find? fun u => u.2.1 == dd && u.1.toNat % 2048 == tag % 2048).map (·.1)
/-- A write that went to several dies still awaits an acknowledgement of another die: the one of die dd is taken in. -/
def partAck (y : Die) (dd : Nat) (v : BitVec 32) : Option Die :=
  if y.unacked.any fun u => u.1 == v && u.2.1 != dd then some { y with unacked := y.unacked.filter fun u => !(u.1 == v && u.2.1 == dd) } else none
/-- The dependency vector of a SYS write: the sender's clock, its own entry raised to s − 1 (R236). -/
def depVector (s : State) (d : Nat) (num : BitVec 32) : List (BitVec 32) :=
  (List.range 32).map fun j =>
    let v := dieClock (s.die d) j
    if j = s.dieBase + d ∧ serialGe (num - 1) v then num - 1 else v
/-- An acknowledgement of SEQ v reaches its origin: the own entry rises to the SEQ below the oldest still unacknowledged (R235). -/
def ackWrite (s : State) (d : Nat) (v : BitVec 32) : State :=
  let y := s.die d
  let u := y.unacked.filter fun x => x.1 ≠ v
  let s := s.setDie d { y with unacked := u }
  let top := u.foldl (fun m x => if serialGe (x.1 - 1) m then m else x.1 - 1) y.seq
  raiseClock s d (s.dieBase + d) top

/-! ### Arrival of data at a core (R144, R190, R191, R408) -/

/-- Earliest arrival of a core's load of least delay L, issued at t0. -/
def leastDue (t0 l : Nat) : Nat := t0 + l - 2

/-- Least delay of a home for a core on local die d (Table 6.3). -/
def sourceDelay (s : State) (d : Nat) (ph : Phys) : Nat :=
  let peer : Bool := decide (localDie s ph.die ≠ some d)
  let hit : Bool := inL2 s ph.loc ph.die (ph.pa / 128)
  match ph.loc with
  | 0 => if peer then 700 else if hit then 40 else 400
  | 1 => if peer && hit then 700 else if hit then 40 else 900
  | 2 => if peer then 700 else 60
  | 3 => 2000
  | _ => if peer then 700 else 6

/-- Put data on its way to a Bobbin entry, if the core still holds the entry. -/
def sendData (s : State) (core : Nat) (t : Transit) : State :=
  let c := s.core core
  if c.bobs.any fun b => b.id == t.bob then s.setCore core { c with transit := c.transit ++ [t] } else s

/-- L1 set of a line (R185). -/
def l1Set (line : Nat) : Nat := line % 512
/-- Fill a line into an L1 of 10 ways, least recently used first out. A line served later stays (R222). -/
def l1Fill (c : Core) (x : L1Line) : Core :=
  if c.l1.any fun y => y.loc == x.loc && y.die == x.die && y.line == x.line && decide (y.srv > x.srv) then c else
  let rest := c.l1.filter fun y => !(y.loc == x.loc && y.die == x.die && y.line == x.line)
  let same := rest.filter fun y => l1Set y.line == l1Set x.line
  let drop := if same.length ≥ 10 then same.getLast? else none
  { c with l1 := x :: (match drop with | some v => rest.filter (· ≠ v) | none => rest) }
/-- Find a line and make it the most recent. -/
def l1Find (c : Core) (loc die line : Nat) : Option (L1Line × Core) :=
  (c.l1.find? fun y => y.loc == loc && y.die == die && y.line == line).map fun x =>
    (x, { c with l1 := x :: c.l1.filter (· ≠ x) })
/-- A store updates a present line (R185). -/
def l1Store (c : Core) (ph : Phys) (n v : Nat) : Core :=
  { c with l1 := c.l1.map fun y =>
      if y.loc = ph.loc ∧ y.die = ph.die ∧ y.line = ph.pa / 128 then
        let o := ph.pa % 128
        { y with data := BitVec.ofNat 1024 (y.data.toNat % 256 ^ o + v % 256 ^ n * 256 ^ o + y.data.toNat / 256 ^ (o + n) * 256 ^ (o + n)) }
      else y }
/-- A line with n bytes from offset o on replaced. -/
def patchLine (d : BitVec 1024) (o n v : Nat) : BitVec 1024 :=
  BitVec.ofNat 1024 (d.toNat % 256 ^ o + v % 256 ^ n * 256 ^ o + d.toNat / 256 ^ (o + n) * 256 ^ (o + n))
/-- Two locations of one line. -/
def sameLine (a b : Phys) : Bool := a.loc == b.loc && a.die == b.die && a.pa / 128 == b.pa / 128
/-- A fetched line with the core's own stores that are on their way to it, in path order (R222). -/
def l1Own (s : State) (mid : Nat) (ph : Phys) (data : BitVec 1024) : BitVec 1024 :=
  s.xacts.foldl (fun d x => match x.kind with
    | .wr v => if x.mkind = 0 ∧ x.mid = mid ∧ x.st ≠ .answered ∧ sameLine x.ph ph then patchLine d (x.ph.pa % 128) x.n v else d
    | _ => d) data
/-- A core's own store, as it is performed, also changes the line that an answer on its way brings to the core (R222). -/
def patchAnswers (s : State) (x : Xact) : State :=
  match x.kind with
  | .wr v => if x.mkind ≠ 0 then s else { s with xacts := s.xacts.map fun y =>
      if y.mkind = 0 ∧ y.mid = x.mid ∧ y.st = .answered ∧ sameLine y.ph x.ph then { y with line := patchLine y.line (x.ph.pa % 128) x.n v } else y }
  | _ => s
/-- Acquire or FENCE at a scope wider than .core: every line not ROC and not LOC 2 is dropped (R226, R229, R248). -/
def l1Drop (c : Core) : Core := { c with l1 := c.l1.filter fun y => y.keep || y.loc == 2, l1Epoch := c.l1Epoch + 1 }
/-- Every line that fits a test is dropped. -/
def l1DropIf (f : L1Line → Bool) (c : Core) : Core := { c with l1 := c.l1.filter fun y => !f y, l1Epoch := c.l1Epoch + 1 }

/-! ### Performing one access (R220) -/

def isWrite (k : XKind) : Bool := match k with | .rd => false | _ => true

/-- Two accesses touch one location. -/
def sameLoc (a b : Phys) : Bool := a.loc == b.loc && a.die == b.die && a.pa / 8 == b.pa / 8
/-- Are the writes a core made up to a cycle performed? -/
def writesDone (s : State) (core t : Nat) : Bool :=
  ((s.core core).accs.all fun a => match a.kind with | .wr => decide (a.t0 > t) | _ => true) &&
    s.xacts.all fun x => !(x.mkind == 0 && x.mid == core + 64 * s.dieBase && isWrite x.kind && x.st != .answered) || decide (x.t0 > t)
/-- Is a scratchpad granule closed to other paths (R161), or held back by a release of its core (R225, R361)? -/
def granuleClosed (s : State) (ph : Phys) : Bool :=
  ph.loc == 4 && (localDie s ph.die).isSome &&
    (let i := ph.die % 8 * 64 + ph.pa / 2 ^ 22
     let c := s.core i
     (c.spadLog.any fun g => g.1 == ph.pa % 2 ^ 22 / 64) || c.relSpad.any fun g => g.1 == ph.pa % 2 ^ 22 / 64 && !writesDone s i g.2)
/-- Does the store that holds a location hold accesses now: weight-store refresh, or a closed granule? -/
def homeHeld (s : State) (ph : Phys) : Bool :=
  granuleClosed s ph || (ph.loc == 2 && (match localDie s ph.die with
    | some d => (s.die d).wsRefresh == some (ph.pa / 65536 % 8) | none => false))

/-- Local die of an access's master. -/
def xDie (x : Xact) : Nat := x.die % 8

/-- Is every access of x's master before x in path order performed? -/
def priorDone (s : State) (x : Xact) (only : Xact → Bool) : Bool :=
  (s.xacts.takeWhile fun y => y.id != x.id).all fun y =>
    y.st == .answered || !(y.mkind == x.mkind && y.mid == x.mid && y.path == x.path) || !only y

/-- Has x's queue a read or a record of an earlier packet still to make (R101)? -/
def asksLeft (s : State) (x : Xact) : Bool :=
  x.mkind == 4 && x.path == 6 && (s.queue x.mid).out.any fun p => decide (p.num < x.seq) &&
    (match p.w with | .ask _ _ _ => true | .note _ _ => true | _ => false)

/-- Has an access reached its weight-store bank, 18 cycles after it left its master, outside a refresh window (R190, R191)? -/
def wsArrived (s : State) (x : Xact) : Bool :=
  x.ph.loc != 2 || (decide (x.t0 + 18 ≤ s.gtc) && !wsHeld (x.ph.pa / 65536 % 8) s.gtc)

/-- May access x be served now: it is at its home, its master's earlier accesses to the location are served (R221), what a release
covers is performed (R225, R236), and its home does not hold it. -/
def mayPerform (s : State) (x : Xact) : Bool :=
  let atHome := match x.st with | .home => true | .fresh => x.ph.die == x.die || x.ph.loc == 3 | _ => false
  atHome && decide (x.t0 ≤ s.gtc) && wsArrived s x && priorDone s x (fun y => sameLoc y.ph x.ph) && !homeHeld s x.ph && !asksLeft s x &&
  (match x.rel with
   -- a queue's accesses are performed in start order (R101)
   | none => x.mkind != 4 || x.path != 6 || priorDone s x (fun _ => true)
   | some sc =>
     priorDone s x (fun _ => true) &&
     (sc == 0 || (match localDie s x.ph.die with
       | some d => if x.ph.die == x.die then serialGe (dieClock (s.die d) x.die) x.num else clockCovers (s.die d) x.dv
       | none => true)))

/-- The value an access reads or returns, and the state its home is left in. -/
def performVal (s : State) (x : Xact) : Nat × State × FlagBits × Bool :=
  let old := homeRead s x.ctx x.va x.n x.ph
  match x.kind with
  | .rd =>
    let s := checkAbsent s x.ph.loc x.ph.die (x.ph.pa % 2 ^ 52) x.n
    (old, bankTurn (homeUse s x.ctx x.va x.ph) x.path x.ph, 0, false)
  | .wr v => (0, bankTurn (homeWrite s x.ctx x.va x.n v x.ph) x.path x.ph, 0, false)
  | .wrm v en =>
    let m := (List.range x.n).foldl (fun m i => m + (if en.testBit i then v / 256 ^ i % 256 else old / 256 ^ i % 256) * 256 ^ i) 0
    (0, bankTurn (homeWrite s x.ctx x.va x.n m x.ph) x.path x.ph, 0, false)
  | .amo aop w opa opb key strm tag dmax =>
    let r := amoNew aop w old opa opb key strm tag dmax
    let s := homeWrite s x.ctx x.va x.n r.1 x.ph
    (old, if aopSticky aop then stickyFlags s x.ph r.2.1 else s, r.2.1, r.2.2)

/-- Sinter's code of an access; 5 is the write of a host AtomicOp that is a read and a write. -/
def xSinter (x : Xact) : Nat := match x.kind with | .rd => 8 | .wr _ => if x.sc = 5 then 5 else 7 | .wrm _ _ => 7 | .amo _ _ _ _ _ _ _ _ => x.sc

/-- The line a core's load brings to its L1 (R185): as its home served it. -/
def servedLine (s : State) (x : Xact) : BitVec 1024 :=
  let a := maddr x.ph.loc x.ph.die (x.ph.pa / 128 * 128)
  if isSealed x.ph.loc then lineAs s (a / 128) (sealOf s x.ph.loc x.ph.key x.ctx x.va) else BitVec.ofNat 1024 (Memory.readN s.mem a 128)
def fillsL1 (x : Xact) : Bool := decide (x.ph.loc ≤ 2) && x.path == 0

/-- Deliver the answer of an access to its master. -/
def deliver (s : State) (x : Xact) : State :=
  -- an accumulate that was not performed returns no value of its home: a free value (log 36)
  let (x, s) := if x.nack then ({ x with val := (Config.freeValue s.free).toNat % 256 ^ x.n }, { s with free := s.free + 1 }) else (x, s)
  match x.ret with
  | .load core bob off =>
    let d := core / 64
    let c := s.core core
    -- the whole line is fetched into the L1 (R185), unless its data are poisoned (R193)
    let s := if fillsL1 x ∧ x.epoch = c.l1Epoch ∧ ¬ x.bad then
        s.setCore core (l1Fill c ⟨x.ph.loc, x.ph.die, x.ph.pa / 128, l1Own s x.mid x.ph x.line, x.ph.roc, x.srv⟩)
      else s
    let least := leastDue x.t0 x.num.toNat
    let (due, s) := if x.ph.loc ≠ 2 then (least, s)
      else match localDie s x.ph.die with
        | some k => let r := wsDue s k (x.mkind * 65536 + x.mid) x.t0 x.ph.pa; (if k = d then r.1 else max least r.1, r.2)
        | none => (least, s)
    sendData s core ⟨bob, off, x.n, x.val, max s.gtc due, if x.bad then 3 else 0⟩
  | .queue q num =>
    let qq := s.queue q
    s.setQueue q { qq with out := qq.out.map fun p => if p.num = num then { p with res := some (BitVec.ofNat 64 x.val) } else p }
  | .sh core ch id k =>
    if core % 64 = 48 then
      let q := core / 64 * 8 + ch
      { s with qcopies := s.qcopies.map fun (y : QCopy) => if y.q = q ∧ y.num % 2 ^ 32 = id.toNat then { y with unacked := y.unacked - 1 } else y }
    else
      let c := s.core core
      match c.shq.find? fun y => y.ch == ch && y.id == id with
      | none => s
      | some y =>
        -- number 1 is the completion record, whose answer changes nothing else (R378)
        let y0 := { y with unacked := y.unacked - 1 }
        let y := { y with unacked := y.unacked - 1, status := if x.nack ∧ y.status = 0 then 4 else y.status
                          last := if x.nack then y.last else some (max x.t0 (y.last.getD 0)) }
        let y := match x.kind with
          | .amo aop w a b key strm tag dmax =>
            let r := if x.nack then (0, 0, false) else amoNew aop w x.val a b key strm tag dmax
            { y with acted := true, flags := y.flags ||| r.2.1, zm := y.zm || r.2.2 }
          | _ => { y with acted := true }
        let y := if k = 1 then y0 else y
        let s := s.setCore core { c with shq := c.shq.map fun z => if z.ch = ch ∧ z.id = id then y else z }
        if k = 1 then s else match y.kind with | .accr => sendData s core ⟨y.bob, 0, 8, x.val, s.gtc, if x.bad then 3 else 0⟩ | _ => s
  | .gran core ch id p =>
    let c := s.core core
    s.setCore core { c with shq := c.shq.map fun z => if z.ch = ch ∧ z.id = id then { z with got := z.got ++ [(p, x.val)] } else z }
  | .host port => { s with answers := s.answers ++ [.data port x.val] }
  | .unit q va => s.setQueue q { s.queue q with far := (s.queue q).far ++ [(va, BitVec.ofNat 64 x.val)] }
  | .source q num off =>
    { s with qcopies := s.qcopies.map fun (y : QCopy) => if y.q = q ∧ y.num = num then { y with got := y.got ++ [(off, x.val)] } else y }
  | _ => s

/-- Replace an access. -/
def setXact (s : State) (x : Xact) : State := { s with xacts := s.xacts.map fun y => if y.id = x.id then x else y }
def dropXact (s : State) (id : Nat) : State := { s with xacts := s.xacts.filter fun y => y.id != id }

/-! ### Packets (R34, R39) -/

/-- A header of Table 2.4. -/
def mkHdr (ptype len sdie sep ddie dep : Nat) (sys : Bool) (seq : BitVec 32) (va ctx group aop tag stamp : Nat) : BitVec 256 :=
  BitVec.ofNat 256 (ptype % 16 + len % 32 * 2 ^ 4 + sdie % 32 * 2 ^ 9 + sep % 64 * 2 ^ 14 + ddie % 32 * 2 ^ 20 + dep % 64 * 2 ^ 25 +
    (if sys then 2 ^ 31 else 0) + seq.toNat * 2 ^ 32 + va % 2 ^ 56 * 2 ^ 64 + ctx % 512 * 2 ^ 120 + group % 4096 * 2 ^ 129 +
    aop % 32 * 2 ^ 141 + tag % 4096 * 2 ^ 146 + stamp % 2 ^ 64 * 2 ^ 192)
def pkPtype (h : BitVec 256) : Nat := (h.extractLsb' 0 4).toNat
def pkLen (h : BitVec 256) : Nat := (h.extractLsb' 4 5).toNat
def pkSdie (h : BitVec 256) : Nat := (h.extractLsb' 9 5).toNat
def pkSep (h : BitVec 256) : Nat := (h.extractLsb' 14 6).toNat
def pkDdie (h : BitVec 256) : Nat := (h.extractLsb' 20 5).toNat
def pkDep (h : BitVec 256) : Nat := (h.extractLsb' 25 6).toNat
def pkSys (h : BitVec 256) : Bool := h.getLsbD 31
def pkSeq (h : BitVec 256) : BitVec 32 := h.extractLsb' 32 32
def pkVa (h : BitVec 256) : Nat := (h.extractLsb' 64 56).toNat
def pkCtx (h : BitVec 256) : Nat := (h.extractLsb' 120 9).toNat
def pkGroup (h : BitVec 256) : Nat := (h.extractLsb' 129 12).toNat
def pkAop (h : BitVec 256) : Nat := (h.extractLsb' 141 5).toNat
def pkTag (h : BitVec 256) : Nat := (h.extractLsb' 146 12).toNat
def pkRsvd (h : BitVec 256) : BitVec 34 := h.extractLsb' 158 34
def pkStamp (h : BitVec 256) : Nat := (h.extractLsb' 192 64).toNat

/-- Router at which an endpoint enters its die's fabric (Tables 2.1, 2.2): agents at router 19, the host port at router 0. -/
def epRouter (ep : Nat) : Nat := if ep < 48 then ep else if ep = 63 then 0 else 19

/-- Port at which an agent's packet enters its router: a core's requests at 4, its L2 slice's answers at 5, the host's at 9 (Table 2.1). -/
def injPort (d ep ptype : Nat) : Nat := if ep < 48 then (if ptype = 1 ∨ ptype = 3 ∨ ptype = 5 then 5 else 4) else if ep = 63 ∧ (d = 0 ∨ d = 4) then 9 else 5
/-- Flits of a packet (R38): 204 bytes in the first, 236 in each further one; a dependency vector travels after the data. -/
def packetFlits (p : Packet) : Nat :=
  let n := 32 * pkLen p.hdr + 4 * p.dv.length
  if n ≤ 204 then 1 else 1 + (n - 204 + 235) / 236
/-- A packet enters the fabric at its origin, one flit a cycle through its port (R33), or, to a die that is not present, is discarded there
(R406). -/
def sendPacket (s : State) (d ep : Nat) (p : Packet) : State :=
  if ¬ diePresent s (pkDdie p.hdr) then
    s.setDie d { s.die d with badpkt := min ((s.die d).badpkt + 1) 65535 }
  else
    let y := s.die d
    let r := y.router (epRouter ep)
    let k := injPort d ep (pkPtype p.hdr)
    let at_ := max s.gtc (FMap.get 0 r.inj k)
    s.setDie d (y.setRouter (epRouter ep) { r with be := r.be ++ [⟨p, at_, false, 0⟩], inj := FMap.put r.inj k (at_ + packetFlits p) })

/-- PTYPE of a request and of its answer (Table 2.4): a signal write, the completion flag of a Vent engine, another write. -/
def reqPtype (x : Xact) : Nat :=
  match x.kind with
  | .rd => 0
  | .wr _ => if x.sig then 9 else if x.mkind = 2 ∧ x.rel.isSome then 7 else 2
  | .wrm _ _ => 2
  | .amo _ _ _ _ _ _ _ _ => 4
def ansPtype (k : XKind) : Nat := match k with | .rd => 1 | .wr _ => 3 | .wrm _ _ => 3 | .amo _ _ _ _ _ _ _ _ => 5
/-- Endpoint of a master (Table 2.2): the router of a core or channel, Spindle for queues, the host port, an engine itself, whose MID it is. -/
def masterEp (x : Xact) : Nat :=
  match masterCore x.mkind x.mid with | some c => c % 64 | none => if x.mkind = 4 then 48 else if x.mkind = 5 then 63 else x.mid % 64
/-- Endpoint of a home: the L2 slice of the line, or the core of a scratchpad. -/
def homeEp (ph : Phys) : Nat := if ph.loc = 4 then ph.pa / 2 ^ 22 else l2Slice (ph.pa % 2 ^ 52 / 128)

/-- Does an access travel with SYS = 1 (R236)? -/
def xSys (x : Xact) : Bool := (match x.rel with | some sc => sc != 0 | none => false) || (match x.acq with | some sc => sc != 0 | none => false)

/-- Does a core's load ask another module for its whole line (R185)? -/
def farLine (s : State) (x : Xact) : Bool := fillsL1 x && (localDie s x.ph.die).isNone && x.kind == .rd
/-- Data words of a packet, to whole units of 32 bytes (R38). -/
def padData (l : List Word) : List Word := l ++ List.replicate ((4 - l.length % 4) % 4) 0
/-- AOP of a write of less than a unit of 32 bytes, a code that Table 16.4 gives to no operator. -/
def partAop : Nat := 31
/-- The data a request carries. DESIGN CHOICE (log 111): the header has no size under 32 bytes; a write of less names its bytes, from VA on,
by a mask in the first data word, before their values; an accumulate carries its operands and, in the third data word, its unit's bits. -/
def reqData (x : Xact) : List Word :=
  let words := fun (v n : Nat) => (List.range ((n + 7) / 8)).map fun i => BitVec.ofNat 64 (v / 2 ^ (64 * i))
  match x.kind with
  | .rd => []
  | .wr v => padData (BitVec.ofNat 64 (2 ^ x.n - 1) :: words v x.n)
  | .wrm v en => padData (BitVec.ofNat 64 en :: words v x.n)
  | .amo _ w a b _ _ _ _ => padData [a, b, BitVec.ofNat 64 w]
/-- Send a request that may leave its die, with its dependency vector (R234, R236). To a die that is not present a write completes at once, not
performed (R406). -/
def sendFresh (s : State) (x : Xact) : State :=
  let d := xDie x
  let line := x.ph.pa / 128
  if x.st ≠ .fresh ∨ x.ph.die = x.die ∨ x.ph.loc = 3 ∨ ¬ (isWrite x.kind → lineFree s d x.ph.die line x.num) ∨
      (x.mkind = 4 ∧ x.path = 6 ∧ localDie s x.ph.die = none ∧ ¬ (priorDone s x (fun _ => true) ∧ ¬ asksLeft s x)) then s
  else
    let wr := isWrite x.kind
    let num := if wr then x.num else 0
    let dv := if wr ∧ xSys x then depVector s d num else []
    let ln := farLine s x
    let data := reqData x
    let h := mkHdr (reqPtype x) (if ln then 4 else data.length / 4) x.die (masterEp x) x.ph.die (homeEp x.ph) (xSys x) num
      (if ln then x.va / 128 * 128 else x.va) x.ctx 0
      (match x.kind with | .amo aop _ _ _ _ _ _ _ => aop | .rd => 0 | _ => partAop) (if wr then num.toNat % 2048 else x.id % 2048) s.gtc
    let s := setXact s { x with st := .sent, num := num, dv := dv, epoch := (s.core (x.mid % 512)).l1Epoch }
    let s := if wr ∧ ¬ diePresent s x.ph.die then ackWrite (dropXact (deliver s { x with nack := true }) x.id) d num else s
    sendPacket s d (masterEp x) ⟨h, data, dv, if (localDie s x.ph.die).isSome then .req x.id else .plain⟩
/-- Send what may be sent. -/
def sendAll (s : State) : State := s.xacts.foldl (fun s x => match s.xacts.find? fun y => y.id == x.id with
  | some y => sendFresh s y | none => s) s

/-- A lock operation that fails orders nothing (R247, R388). -/
def lockLost (k : XKind) (old : Nat) : Bool :=
  match k with
  | .amo aop _ _ _ _ _ _ _ => decide (12 ≤ aop) && decide (aop ≤ 15) && !lockOk aop (BitVec.ofNat 64 old)
  | _ => false

/-- Interval steps of an access at its home (R249): one for a release, one for an acquire; an acquire load of a core counts when the segment
in which it lands commits (R233). -/
def countOrder (s : State) (x : Xact) : State :=
  let s := if x.rel.isSome then bumpIval s x.mkind x.mid else s
  if x.acq.isSome ∧ x.mkind ≠ 0 then bumpIval s x.mkind x.mid else s
/-- A race of a core's load reaches the core at the load's landing (R251): the record waits with its Bobbin entry. -/
def raceToLanding (s : State) (x : Xact) (n : Nat) : State :=
  match x.mkind, x.ret, s.races[n]? with
  | 0, .load core bob _, some (_, _, r) =>
    let c := s.core core
    { s.setCore core { c with bobs := c.bobs.map fun b => if b.id = bob then { b with race := some r } else b } with races := s.races.take n }
  | _, _, _ => s

/-- Sinter checks an access where it is served, at its home or at a line of the L1 (R249, R251). -/
def sinterX (s : State) (x : Xact) : State := raceToLanding (sinter s x.mkind x.mid x.die x.ctx x.va x.ph (xSinter x) x.wh) x s.races.length

/-- Serve access x at its home: the value is fixed, Sinter checks it, the answer starts back; on the home's own die it is delivered at
once (R220, R243, R249). -/
def performX (s : State) (x : Xact) : State :=
  let delay := sourceDelay s (xDie x) x.ph
  let wasBad := lineBad s x.ph
  let (v, s, _, _) := performVal s x
  let x := match x.kind with
    | .rd => if fillsL1 x then { x with line := servedLine s x, bad := lineBad s x.ph } else x
    | .amo _ _ _ _ _ _ _ _ => { x with bad := wasBad }
    | _ => x
  let s := patchAnswers { s with served := s.served + 1 } x
  let x := { x with srv := s.served, epoch := (s.core (x.mid % 512)).l1Epoch }
  let s := sinterX s x
  let s := if lockLost x.kind v then s else countOrder s x
  let x := { x with st := .answered, val := v, t0 := if isWrite x.kind then s.gtc else x.t0, num := if isWrite x.kind then x.num else BitVec.ofNat 32 delay }
  if x.ph.die = x.die ∨ x.ph.loc = 3 then dropXact (deliver s x) x.id
  else
    let s := setXact s x
    match localDie s x.ph.die with
    | none => s
    | some hd =>
      let sysr := x.acq.isSome && xSys x
      let dv := if sysr then (List.range 32).map (dieClock (s.die hd)) else []
      let data : List Word := match x.kind with
        | .wr _ => [] | .wrm _ _ => []
        | .rd => if fillsL1 x then (List.range 16).map fun i => x.line.extractLsb' (64 * i) 64 else padData [BitVec.ofNat 64 v]
        | _ => padData [BitVec.ofNat 64 v]
      let h := mkHdr (ansPtype x.kind) (data.length / 4) x.ph.die (homeEp x.ph) x.die (masterEp x) (xSys x) 0 0 x.ctx 0 0
        (if isWrite x.kind then x.num.toNat % 2048 else x.id % 2048) s.gtc
      sendPacket s hd (homeEp x.ph) ⟨h, data, dv, .ans x.id⟩

/-- A translated access enters the list of accesses, in path order; a write to another die takes its number in that order (R234). -/
def addXact (s : State) (x : Xact) : State :=
  let d := xDie x
  let local_ := x.ph.die = x.die
  let away : Bool := decide (x.ph.die ≠ x.die) && x.ph.loc != 3 && isWrite x.kind
  let num := if local_ ∧ x.rel.isSome then (s.die d).seq else if away then nextSeq s d else 0
  let s := if away then numberWrite s d x.ph.die (x.ph.pa / 128) else s
  sendFresh { s with xacts := s.xacts ++ [{ x with id := s.nextId, num := num }], nextId := s.nextId + 1 }
    { x with id := s.nextId, num := num }

/-! ### Accesses by engines, ports and queues in one step -/

/-- Does a refreshing bank hold a whole access of n bytes at a VA, on some page, which reaches it 18 cycles from now (R190, R191)? -/
def wsHolds (s : State) (t ctx va n : Nat) (m : MasterT) : Bool :=
  (pageVas va n).any fun a => match translate s t ctx a .read m with
    | .ok ph _ _ => ph.loc == 2 && wsHeld (ph.pa / 65536 % 8) (s.gtc + 18)
    | _ => false
/-- Has a master a write of its path to some of the n bytes at a location still unperformed? Its later read waits for it (R221). -/
def writesTo (s : State) (mkind mid : Nat) (ph : Phys) (n : Nat) : Bool :=
  s.xacts.any fun x => isWrite x.kind && x.st != .answered && x.mkind == mkind && x.mid == mid && x.ph.loc == ph.loc && x.ph.die == ph.die &&
    decide (x.ph.pa < ph.pa + n) && decide (ph.pa < x.ph.pa + x.n)
/-- The same over n bytes at a VA, on at most two pages. -/
def ownWrites (s : State) (t ctx va n : Nat) (m : MasterT) : Bool :=
  match m.who with
  | none => false
  | some (k, mid, _, _) =>
    let n1 := min n (65536 - va % 65536)
    [(va, n1), (va + n1, n - n1)].any fun p => p.2 != 0 && (match translate s t ctx p.1 .read m with
      | .ok ph _ _ => writesTo s k mid ph p.2
      | _ => false)
/-- Must a whole read of n bytes at a VA wait: for a way to it, for a refresh, or for the master's own earlier writes there? -/
def vaHeld (s : State) (t ctx va n : Nat) (m : MasterT) : Bool :=
  wayHeld s t ctx va n .read m || wsHolds s t ctx va n m || ownWrites s t ctx va n m

/-- Read n bytes at a VA, page by page; the first fault stops it (R58, R61). -/
def vaGet (acc0 : AccT) (s : State) (t ctx va n : Nat) (m : MasterT) : Except MFault (Nat × State) :=
  (pieces8 va n (n / 8 + 2)).foldlM (fun acc p =>
    match translate acc.2 t ctx p.1 acc0 m with
    | .fault c l e => .error ⟨c, l, e, p.1⟩
    | .ok ph l e =>
      let s := checkAbsent (tlbFill acc.2 t ctx p.1 l e) ph.loc ph.die (ph.pa % 2 ^ 52) p.2.1
      let (v, s) := homeTake s ctx p.1 p.2.1 ph
      .ok (acc.1 + v * 256 ^ p.2.2, sinterBy (wsUnit (homeUse s ctx p.1 ph) (2 ^ 20 + t) ph) m ctx p.1 ph 8)) (0, s)

def vaRead := vaGet .read

/-- Path of a master's kind (Table 10.1). -/
def pathOf (mkind : Nat) : Nat := match mkind with | 0 => 0 | 1 => 2 | 2 => 3 | 3 => 4 | 4 => 6 | 5 => 5 | _ => 3
/-- An access that leaves as a request: kind, path, context, VA, bytes, location; a release at .sys or not; where its answer goes. -/
def postXact (s : State) (m : MasterT) (ctx va n : Nat) (kind : XKind) (ph : Phys) (rel : Bool) (ret : Ret) : State :=
  let w := m.who.getD (4, 0, s.dieBase, 0)
  addXact s { id := 0, mkind := w.1, mid := w.2.1, die := w.2.2.1, path := pathOf w.1, ctx := ctx, va := va, n := n, ph := ph, kind := kind
              rel := if rel then some 4 else none, acq := none, sc := (match kind with | .amo _ _ _ _ _ _ _ _ => 4 | _ => 7), seq := 0, num := 0
              dv := [], st := .fresh, t0 := s.gtc, val := 0
              nack := false, ret := ret, wh := w.2.2.2 }
/-- Does a release by a master have its home on another die, to which it travels as a request (R234, R236)? -/
def leavesDie (m : MasterT) (ph : Phys) : Bool :=
  match m.who with | some w => decide (ph.loc ≠ 3) && decide (ph.die ≠ w.2.2.1) | none => false

/-- Number a write to another die of the module that is performed, and acknowledged, in the step that makes it (R234, R235). -/
def numberNow (s : State) (d : Nat) (ph : Phys) : State :=
  if ph.loc = 3 ∨ ph.die = s.dieBase + d ∨ (localDie s ph.die).isNone then s
  else let v := nextSeq s d; ackWrite (numberWrite s d ph.die (ph.pa / 128)) d v
/-- May a write of n bytes at a VA be made in one step: is every line of another die that it writes free of earlier writes (R234)? -/
def linesOpen (s : State) (t ctx va n : Nat) (m : MasterT) : Bool :=
  let d := tlbDie t
  (pieces8 va n (n / 8 + 2)).all fun p => match translate s t ctx p.1 .write m with
    | .ok ph _ _ => ph.loc == 3 || ph.die == s.dieBase + d || (localDie s ph.die).isNone || maySend s d ph.die (ph.pa / 128)
    | _ => true
/-- Write n bytes at a VA: pages before a faulting one are written (R58). To a home in another module the write leaves as a request; a
release (`rel`) leaves so for every other die; `ret` is where the answers of requests go. -/
def vaPut (rel : Bool) (ret : Ret) (s : State) (t ctx va n v : Nat) (m : MasterT) : State × Option MFault :=
  (pieces8 va n (n / 8 + 2)).foldl (fun acc p =>
    match acc.2 with
    | some _ => acc
    | none =>
      match translate acc.1 t ctx p.1 .write m with
      | .fault c l e => (acc.1, some ⟨c, l, e, p.1⟩)
      | .ok ph l e =>
        let s := tlbFill acc.1 t ctx p.1 l e
        let x := v / 256 ^ p.2.2 % 256 ^ p.2.1
        if farHome s ph ∨ (rel ∧ leavesDie m ph) then (postXact s m ctx p.1 p.2.1 (.wr x) ph rel ret, none)
        else (numberNow (sinterBy (homeWrite s ctx p.1 p.2.1 x ph) m ctx p.1 ph 7) (tlbDie t) ph, none)) (s, none)
def vaWrite := vaPut false .none
/-- A record or a flag that an engine writes as a release at .sys. -/
def vaRelease := vaPut true .none
/-- Are data of n bytes at a VA poisoned (R168, R193)? -/
def vaBad (s : State) (t ctx va n : Nat) (m : MasterT) : Bool :=
  (pieces8 va n (n / 8 + 2)).any fun p => match translate s t ctx p.1 .read m with | .ok ph _ _ => lineBad s ph | _ => false

end Sys2Proof.Machine
end

