-- ==== Sys2Proof/Machine/Matrix.lean ====
section
/-! DEFINITION. The X lane and the accumulator rows of lane V2 (R160, R267 to R269, R342 to R352). -/
namespace Sys2Proof.Machine

/-- A tile read or modified before its first mzero of the segment is live-in; a second tile both live-in and modified takes
SEG_LIMIT SUB 4 (R160). -/
def touchTile (cu : Cursor) (c : Core) (t : Nat) (mods : Bool) : LM Core :=
  let a := c.arch
  let live := if a.tZero.contains t ∨ a.tLive.contains t then a.tLive else t :: a.tLive
  let md := if mods ∧ ¬ a.tMod.contains t then t :: a.tMod else a.tMod
  if (live.filter fun x => md.contains x).length > 1 then segLimit cu 4
  else .ok { c with arch := { a with tLive := live, tMod := md } }

def tilePhase (c : Core) (t : Nat) : Nat := FMap.get 0 c.arch.phase t
def tileRow (c : Core) (t r : Nat) : RowWord := FMap.get 0 (FMap.get [] c.tiles t) r
def rowElem (x : RowWord) (j : Nat) : Nat := elem 32 x.toNat j
def buildRow (g : Nat → Nat) : RowWord := BitVec.ofNat 8192 (packElems 32 g 256)

/-- One operand of mpush: a register, or a pop of tile-fetch port k (R344). -/
def pushOperand (cu : Cursor) (c : Core) (reg : BitVec 6) (fromPort : Bool) (k : Nat) : LM (VWord × Core) :=
  if ¬ fromPort then .ok (readV c reg.toNat, c)
  else if reg ≠ 0 then illegal cu 2
  else match FMap.find c.arch.tfports k with
    | none => illegal cu 3
    | some p =>
      if p.taken ≥ patTotal (patFmtOf c p.img) p.img then illegal cu 3
      else match p.buf with
        | [] => .error .tile
        | e :: t => match e.fault with
          | some f => .error (.trap { f with lane := cu.lane })
          | none => .ok (e.val, { c with
              unpins := c.unpins ++ e.pins
              arch := { c.arch with tfports := FMap.put c.arch.tfports k { p with buf := t, taken := p.taken + 1 } } })
def mpushBody (f : XP) (cu : Cursor) (c : Core) : LM Core := do
  let (a, c) ← pushOperand cu c f.va (f.pa = 1) 0
  let (b, c) ← pushOperand cu c f.vb (f.pb = 1) 1
  .ok (emit cu 1 (.stage (.push a b)) c)
def execMpush (f : XP) (s : State) := laneStep s f.pr (mpushBody f)

def mscaleBody (f : XS) (sideB : Bool) (cu : Cursor) (c : Core) : LM Core := do
  need cu (decide (f.arg.toNat < 8) && (f.arg.getLsbD 0 == sideB))
  .ok (emit cu 1 (.stage (.scale sideB (f.arg.toNat / 2) (readV c f.src.toNat))) c)
def execMscaleA (f : XS) (s : State) := laneStep s f.pr (mscaleBody f false)
def execMscaleB (f : XS) (s : State) := laneStep s f.pr (mscaleBody f true)

def mshiftBody (f : XT) (cu : Cursor) (c : Core) : LM Core := do
  need cu (f.tile = 0 && f.arg = 0)
  .ok (emit cu 1 (.stage .shift) c)
def execMshift (f : XT) (s : State) := laneStep s f.pr (mshiftBody f)

/-- k-pack of a beat format (Table 15.2). -/
def fmK (fm : Nat) : Nat := if fm = 6 then 4 else if fm ≤ 1 ∨ (7 ≤ fm ∧ fm ≤ 10) then 1 else 2
/-- A operand format. -/
def fmA (fm : Nat) : FFmt :=
  match fm with
  | 0 => bf16 | 1 => f16 | 2 => e4m3 | 3 => e4m3 | 4 => e5m2 | 5 => e5m2 | 6 => e2m1
  | 7 => bf16 | 8 => bf16 | 9 => f16 | 10 => f16 | 11 => e4m3 | 12 => e4m3 | _ => e5m2
/-- B operand format of FM 0 to 6. -/
def fmB (fm : Nat) : FFmt := match fm with | 0 => bf16 | 1 => f16 | 2 => e4m3 | 3 => e5m2 | 4 => e4m3 | 5 => e5m2 | _ => e2m1

/-- B[p][j] as a value; w4 and w3 weights expand through the column scale (R269, R347). -/
def beatB (fm sub : Nat) (b sb : VWord) (p j : Nat) : XR :=
  let k := fmK fm
  if fm ≤ 6 then (fmB fm).decode (elem (fmB fm).width b.toNat (j * k + p))
  else
    let w := if fm % 2 = 1 then 4 else 3
    let q := toSigned w (elem w b.toNat (j * 4 + (sub * k + p)))
    let sc := bf16.decode (elem 16 sb.toNat j)
    let f := fmA fm
    f.decode (round f .rne (decide (fm ≥ 11)) ((XR.ofInt q).mul sc).1).1
def beatA (fm : Nat) (a : VWord) (i p : Nat) : XR :=
  (fmA fm).decode (elem (fmA fm).width a.toNat (i * fmK fm + p))

/-- An e2m1 encoding in units of one half. -/
def e2m1Half (x : Nat) : Int :=
  let m : Int := [0, 1, 2, 3, 4, 6, 8, 12].getD (x % 8) 0
  if x ≥ 8 then -m else m

/-- One element of a beat of R267. -/
def beatElem (fm sub : Nat) (a b sb : VWord) (c0 : Nat) (i j : Nat) : Nat :=
  let s := (List.range (fmK fm)).foldl (fun acc p => (acc.add ((beatA fm a i p).mul (beatB fm sub b sb p j)).1).1) (f32.decode c0)
  (roundRne f32 s).1

/-- Block sum of one mx4 beat at (i, j), in quarters (R268). -/
def mxSum (a b : VWord) (i j : Nat) : Int :=
  (List.range 4).foldl (fun acc p => acc + e2m1Half (elem 4 a.toNat (4 * i + p)) * e2m1Half (elem 4 b.toNat (4 * j + p))) 0

/-- The block-end element: C + P × scales, rounded once; a scale 0xFF gives the canonical NaN. -/
def mxEnd (c0 : Nat) (p : Int) (sa sb : Nat) : Nat :=
  if sa = 255 ∨ sb = 255 then 0x7FC00000
  else
    let x : XR := if p = 0 then .zero false else .fin (p < 0) p.natAbs (-2 + (sa : Int) - 127 + sb - 127)
    (roundRne f32 ((f32.decode c0).add x).1).1

/-- Add a beat's products to the tile as it stands (R347). -/
def applyBeat (c : Core) (t fm sub : Nat) (a b sa sb : VWord) (blockEnd : Bool) : Core :=
  let tile := FMap.get [] c.tiles t
  if fm = 6 then
    let ps := FMap.get [] c.psum t
    let get : Nat → Nat → Int := fun i j => FMap.get 0 ps (i * 256 + j) + mxSum a b i j
    if blockEnd then
      let rows := (List.range 256).foldl (fun m i =>
        FMap.set 0 m i (buildRow fun j => mxEnd (rowElem (FMap.get 0 tile i) j) (get i j) (elem 8 sa.toNat i) (elem 8 sb.toNat j))) tile
      { c with tiles := FMap.set [] c.tiles t rows, psum := FMap.erase c.psum t }
    else
      let ps' := (List.range 65536).foldl (fun m k => FMap.set 0 m k (get (k / 256) (k % 256))) ps
      { c with psum := FMap.set [] c.psum t ps' }
  else
    let rows := (List.range 256).foldl (fun m i =>
      FMap.set 0 m i (buildRow fun j => beatElem fm sub a b sb (rowElem (FMap.get 0 tile i) j) i j)) tile
    { c with tiles := FMap.set [] c.tiles t rows }

/-- macc: `limit` is the core's beat limit in the throttle window (R13, R14). -/
def maccBody (f : XT) (limit : Nat) (cu : Cursor) (c : Core) : LM Core := do
  let la := f.arg.toNat % 4
  let lb := f.arg.toNat / 4 % 4
  let fm := f.arg.toNat / 16 % 16
  let sub := f.arg.toNat / 256 % 4
  let t := f.tile.toNat
  need cu (decide (f.arg.toNat < 1024) && decide (fm ≠ 15) &&
    (if fm ≥ 7 then decide (sub ≤ 4 / fmK fm - 1) else decide (sub = 0)) && (fm == 6 || decide (tilePhase c t = 0)))
  if c.maccs ≥ limit then .error .throttle
  else do
    let c ← touchTile cu c t true
    let a := FMap.get StageLevel.zero c.arch.stage la
    let b := FMap.get StageLevel.zero c.arch.stage lb
    let ph := tilePhase c t
    let last := decide (ph = 7)
    let arch := if fm = 6 then { c.arch with phase := FMap.set 0 c.arch.phase t (if last then 0 else ph + 1) } else c.arch
    .ok (emit cu 8 (.beat t fm sub a.a b.b a.sa b.sb last) { c with maccs := c.maccs + 1, arch := arch })

def mzeroBody (f : XT) (cu : Cursor) (c : Core) : LM Core := do
  need cu (f.arg = 0)
  let t := f.tile.toNat
  let a := c.arch
  let md := if a.tMod.contains t then a.tMod else t :: a.tMod
  let z := if a.tZero.contains t then a.tZero else t :: a.tZero
  if (a.tLive.filter fun x => md.contains x).length > 1 then segLimit cu 4
  else .ok (emit cu 1 (.mzero t) { c with arch := { a with tMod := md, tZero := z } })
def execMzero (f : XT) (s : State) := laneStep s f.pr (mzeroBody f)

/-! ### Epilogue configurations (Table 15.3) -/

def ecDk (g : BitVec 2048) : Bool := g.getLsbD 0
def ecVd (g : BitVec 2048) : Nat := (g.extractLsb' 1 6).toNat
def ecBias (g : BitVec 2048) : Bool := g.getLsbD 7
def ecCsc (g : BitVec 2048) : Bool := g.getLsbD 8
def ecAct (g : BitVec 2048) : Nat := (g.extractLsb' 9 3).toNat
def ecAlpha (g : BitVec 2048) : Nat := (g.extractLsb' 64 32).toNat
/-- SPBASE, SPSTRIDE, BIASOFF, CSOFF in words 2 to 5. -/
def ecOff (g : BitVec 2048) (w : Nat) : Nat := (g.extractLsb' (64 * w) 22).toNat
def ecValid (g : BitVec 2048) : Bool :=
  ecVd g % 2 == 0 && decide (ecAct g ≤ 3) && (g.extractLsb' 12 52 == 0) && (g.extractLsb' 96 32 == 0) &&
  ([2, 3, 4, 5].all fun w => g.extractLsb' (64 * w + 22) 42 == 0) && (g.extractLsb' 384 1664 == 0) &&
  ([4, 5].all fun w => ecOff g w % 4 == 0 && decide (ecOff g w + 1024 ≤ 0x400000))

def mcfgBody (f : XS) (cu : Cursor) (c : Core) : LM Core := do
  let img : BitVec 2048 := (readV c f.src.toNat).setWidth 2048
  need cu (decide (f.arg.toNat < 4) && ecValid img)
  .ok (emit cu 1 (.ecfg f.arg.toNat img) c)
def execMcfg (f : XS) (s : State) := laneStep s f.pr (mcfgBody f)

/-- Format of scratchpad bank n (Table 8.3): FMT, SAT, RTZ. -/
def bankFmt (c : Core) (n : Nat) : Nat := (FMap.get 0 c.arch.spfmt n).toNat % 16
def bankSat (c : Core) (n : Nat) : Bool := (FMap.get 0 c.arch.spfmt n).getLsbD 4
def bankMode (c : Core) (n : Nat) : RMode := if (FMap.get 0 c.arch.spfmt n).getLsbD 5 then .rtz else .rne
/-- Element bytes × 8 of an FMT of Table 8.3. -/
def bankWidth (fmt : Nat) : Nat :=
  match fmt with | 2 => 16 | 3 => 16 | 4 => 8 | 5 => 8 | 6 => 4 | 7 => 8 | 8 => 16 | _ => 32
/-- Vector type code of a bank format. -/
def bankTy (fmt : Nat) : Nat :=
  match fmt with | 2 => 7 | 3 => 8 | 4 => 9 | 5 => 10 | 6 => 11 | 7 => 0 | 8 => 2 | 9 => 4 | _ => 6
/-- Encode a value in a bank's format; integers saturate (R182, R263). -/
def bankEncode (fmt : Nat) (mode : RMode) (satb : Bool) (x : XR) : Nat × FlagBits :=
  let t := bankTy fmt
  if tyIsInt t then
    let (lo, hi) := tyRange t
    let r := toIntRange mode lo hi x
    (wrapN (tyWidth t) r.1, r.2)
  else round (tyFmt t) mode ((t == 9 || t == 10) && satb) x

/-- One column of an epilogue (R350): the f32 result with its flags. -/
def drainElem (c : Core) (g : BitVec 2048) (y0 j : Nat) : Nat × FlagBits :=
  let sp := fun off => Memory.readN c.spad (off + 4 * j) 4
  let (y, f1) := if ecCsc g then fmul f32 y0 (sp (ecOff g 5)) else (y0, 0)
  let (y, f2) := fmul f32 y (ecAlpha g)
  let (y, f3) := if ecBias g then fadd f32 y (sp (ecOff g 4)) else (y, 0)
  let (y, f4) := match ecAct g with
    | 1 => (if (f32.decode y).isNan then 0x7FC00000 else if XR.lt (.zero false) (f32.decode y) then y else 0, 0)
    | 2 => vsigmE f32 y
    | 3 => vtanhE f32 y
    | _ => (y, 0)
  (y, f1 ||| f2 ||| f3 ||| f4)

def mdrainBody (f : XT) (cu : Cursor) (c : Core) : LM Core := do
  let row := f.arg.toNat % 256
  let t := f.tile.toNat
  need cu (decide (f.arg.toNat < 1024) && decide (tilePhase c t = 0))
  let g := FMap.get 0 c.arch.ecfg (f.arg.toNat / 256 % 4)
  let c ← touchTile cu c t false
  let x := tileRow c t row
  let ys := (List.range 256).map fun j => drainElem c g (rowElem x j) j
  let y := fun j => ys.getD j (0, 0)
  if ecDk g then
    let off := ecOff g 2 + row * ecOff g 3
    let bank := off / 2 ^ 18
    let fmt := bankFmt c bank
    let bytes := 256 * bankWidth fmt / 8
    need cu (decide (off + bytes ≤ 0x400000) && decide ((off + bytes - 1) / 2 ^ 18 = bank) && decide (fmt ≠ 6))
    let c ← logSpad cu c off bytes
    let enc := ys.map fun p => bankEncode fmt (bankMode c bank) (bankSat c bank) (f32.decode p.1)
    let val := packElems (bankWidth fmt) (fun j => (enc.getD j (0, 0)).1) 256
    let fl := (List.range 256).map fun j => (j / 2, (y j).2 ||| (enc.getD j (0, 0)).2)
    .ok (emitFlags cu 20 0 fl (emit cu 20 (.spad [(off, bytes, 2 ^ bytes - 1, val)]) c))
  else
    let part := fun h => buildV 32 fun p => (y (2 * p + h)).1
    let c := emit cu 12 (.v (mapReg c.arch.rot (ecVd g)) (part 0) (-1)) c
    let c := emit cu 12 (.v (mapReg c.arch.rot (ecVd g + 1)) (part 1) (-1)) c
    .ok (emitFlags cu 12 0 ((List.range 256).map fun j => (j / 2, (y j).2)) c)
def execMdrain (f : XT) (s : State) := laneStep s f.pr (mdrainBody f)

/-! ### Accumulator rows through V2 (R349, R352) -/

/-- Checks common to the VA form. -/
def vaCheck (f : VA) (wsOk nfOk : Bool) (cu : Cursor) (c : Core) : LM Unit :=
  need cu (f.fn = 0 && f.rsvd = 0 && decide (f.vd.toNat ≤ 62) && (f.vd.toNat % 2 == 0) && (wsOk || f.ws = 0) &&
    (nfOk || f.nf = 0) && decide (tilePhase c f.tile.toNat = 0))
def vaRow (f : VA) (c : Core) : Nat := (readS c f.rs.toNat).toNat % 256

def ardBody (f : VA) (cu : Cursor) (c : Core) : LM Core := do
  vaCheck f true false cu c
  let c ← touchTile cu c f.tile.toNat false
  let x := tileRow c f.tile.toNat (vaRow f c)
  let m := epMask c f.ep
  let part := fun h => (buildV 32 fun p => rowElem x (2 * p + h),
    buildV 32 fun p => if m.getLsbD (2 * p + h) then 2 ^ 32 - 1 else 0)
  writeVs cu f.vd f.ws 6 [part 0, part 1] c
def execArd (f : VA) (s : State) := laneStep s f.pr (ardBody f)

def rowWrite (f : VA) (op : RowOp) (cu : Cursor) (c : Core) : LM Core := do
  vaCheck f false (op != .wr) cu c
  let c ← touchTile cu c f.tile.toNat true
  let a := readV c f.vd.toNat
  let b := readV c (f.vd.toNat + 1)
  let m := epMask c f.ep
  let val := buildRow fun j => elem 32 (if j % 2 = 0 then a else b).toNat (j / 2)
  let mask := buildRow fun j => if m.getLsbD j then 2 ^ 32 - 1 else 0
  .ok (emit cu 3 (.row f.tile.toNat (vaRow f c) op val mask (f.nf = 1)) c)
def execAwr (f : VA) (s : State) := laneStep s f.pr (rowWrite f .wr)
def execAadd (f : VA) (s : State) := laneStep s f.pr (rowWrite f .add)
def execAmax (f : VA) (s : State) := laneStep s f.pr (rowWrite f .max)
def execAscl (f : VA) (s : State) := laneStep s f.pr (rowWrite f .scl)

/-- One element of a row update, with its flags (Table 15.4). -/
def rowOpElem (op : RowOp) (x v : Nat) : Nat × FlagBits :=
  match op with
  | .wr => (v, 0) | .add => fadd f32 x v | .max => fmax f32 x v | .scl => fmul f32 x v

/-- The elements of a row after a row write, with the flags of each (R349). -/
def rowRes (c : Core) (t r : Nat) (op : RowOp) (val mask : RowWord) : List (Nat × FlagBits) :=
  let x := FMap.get 0 (FMap.get [] c.tiles t) r
  (List.range 256).map fun j =>
    if mask.getLsbD (32 * j) then rowOpElem op (rowElem x j) (rowElem val j) else (rowElem x j, 0)
/-- Its flags, by the positions of R265. -/
def rowFlags (res : List (Nat × FlagBits)) : List (Nat × FlagBits) := res.zipIdx.map fun p => (p.2 / 2, p.1.2)
/-- Apply a row write to the row as it stands (R349). -/
def applyRow (c : Core) (t r : Nat) (op : RowOp) (val mask : RowWord) (nf : Bool) : Core :=
  let tile := FMap.get [] c.tiles t
  let res := rowRes c t r op val mask
  let x' := buildRow fun j => (res.getD j (0, 0)).1
  let vxf := if nf then c.arch.vxf else (rowFlags res).foldl (fun a p => vxfOr a p.1 p.2) c.arch.vxf
  { c with tiles := FMap.set [] c.tiles t (FMap.set 0 tile r x'), arch := { c.arch with vxf := vxf } }

end Sys2Proof.Machine
end

