-- ==== Sys2Proof/Machine/Tensor.lean ====
section
/-! DEFINITION. Descriptor records, layout tags, sharding maps and index resolution (R198 to R207, R212, R217). -/
namespace Sys2Proof.Machine

/-! ### Fields of a descriptor image (Table 9.1) -/

def dRank (d : BitVec 2048) : Nat := (d.extractLsb' 36 3).toNat + 1
def dTag (d : BitVec 2048) : Nat := (d.extractLsb' 39 6).toNat
def dPtag (d : BitVec 2048) : Nat := (d.extractLsb' 45 6).toNat
def dRly (d : BitVec 2048) : Bool := d.getLsbD 51
def dRsh (d : BitVec 2048) : Bool := d.getLsbD 52
def dFill (d : BitVec 2048) : BitVec 32 := d.extractLsb' 64 32
def dExt (d : BitVec 2048) (i : Nat) : Nat := if i < 8 then (d.extractLsb' (128 + 32 * i) 32).toNat else 0
def dTlog (d : BitVec 2048) (i : Nat) : Nat := if i < 8 then (d.extractLsb' (384 + 8 * i) 8).toNat else 0
/-- Address field of word k (byte 8k): BASE 8, DBASE 9, SSTRIDE 10, NBASE 11, NSSTRIDE 12, BMAP 13, RBMAP 14, DVA 15. -/
def dWord (d : BitVec 2048) (k : Nat) : Nat := (d.extractLsb' (64 * k) 64).toNat
def dMap (d : BitVec 2048) : BitVec 512 := d.extractLsb' 1024 512
def dNmap (d : BitVec 2048) : BitVec 512 := d.extractLsb' 1536 512
/-- Replace word k of an image. -/
def dSetWord (d : BitVec 2048) (k : Nat) (v : Nat) : BitVec 2048 :=
  (d &&& ~~~((BitVec.ofNat 2048 (2 ^ 64 - 1)) <<< (64 * k))) ||| ((BitVec.ofNat 2048 (v % 2 ^ 64)) <<< (64 * k))
/-- Replace n bits at position p. -/
def dSetBits (d : BitVec 2048) (p n v : Nat) : BitVec 2048 :=
  (d &&& ~~~((BitVec.ofNat 2048 (2 ^ n - 1)) <<< p)) ||| ((BitVec.ofNat 2048 (v % 2 ^ n)) <<< p)

/-- Pack factor g (Table 9.2). -/
def fmtPack (fmt : Nat) : Nat :=
  match fmt with | 3 => 2 | 4 => 2 | 5 => 4 | 6 => 2 | 9 => 4 | 10 => 4 | 11 => 2 | _ => 1

/-! ### Sharding maps (Table 9.3) -/

def mAxsize (m : BitVec 512) (a : Nat) : Nat := (m.extractLsb' (8 * a) 8).toNat
def mRole (m : BitVec 512) (a : Nat) : Nat := (m.extractLsb' (32 + 8 * a) 2).toNat
def mDim (m : BitVec 512) (a : Nat) : Nat := (m.extractLsb' (34 + 8 * a) 3).toNat
def mNax (m : BitVec 512) : Nat := (m.extractLsb' 64 3).toNat
def mDie (m : BitVec 512) (p : Nat) : Nat := (m.extractLsb' (96 + 5 * p) 5).toNat
def mBlk (m : BitVec 512) (d : Nat) : Nat := (m.extractLsb' (256 + 32 * d) 16).toNat
def mRem (m : BitVec 512) (d : Nat) : Nat := (m.extractLsb' (272 + 32 * d) 2).toNat
def mHalo (m : BitVec 512) (d : Nat) : Nat := (m.extractLsb' (276 + 32 * d) 4).toNat
def mPadl (m : BitVec 512) (d : Nat) : Nat := (m.extractLsb' (280 + 32 * d) 4).toNat
/-- Mesh positions P. -/
def mPositions (m : BitVec 512) : Nat := ((List.range (mNax m)).map (mAxsize m)).prod
/-- Digit of position p on axis a; axis 0 varies fastest. -/
def mDigit (m : BitVec 512) (p a : Nat) : Nat :=
  p / ((List.range a).map (mAxsize m)).prod % max 1 (mAxsize m a)
def mSplitAxes (m : BitVec 512) (d : Nat) : List Nat :=
  (List.range (mNax m)).filter fun a => mRole m a == 1 && mDim m a == d
/-- n of dimension d (R204). -/
def mShards (m : BitVec 512) (d : Nat) : Nat := ((mSplitAxes m d).map (mAxsize m)).prod
def mHasPsum (m : BitVec 512) : Bool := (List.range (mNax m)).any fun a => mRole m a == 2

/-- B of R204 for LAST. -/
def lastB (e n blk : Nat) : Nat := if blk ≠ 0 then blk else (e + n - 1) / n

/-- split(): shard and local index of element x (R204). rem: 0 LAST, 1 BALANCED, 2 CYCLIC. -/
def split (e n blk rem x : Nat) : Nat × Nat :=
  match rem with
  | 0 => let b := max 1 (lastB e n blk); (x / b, x % b)
  | 1 =>
    let q := e / n
    let m := e % n
    if x < m * (q + 1) then (x / (q + 1), x % (q + 1))
    else (m + (x - m * (q + 1)) / max 1 q, (x - m * (q + 1)) % max 1 q)
  | _ => ((x / max 1 blk) % n, x / (max 1 blk * n) * blk + x % max 1 blk)
/-- len(k) (R204). -/
def splitLen (e n blk rem k : Nat) : Nat :=
  match rem with
  | 0 => let b := lastB e n blk; min b (e - k * b)
  | 1 => if k < e % n then e / n + 1 else e / n
  | _ => let full := e / (max 1 blk * n); let r := e % (max 1 blk * n); full * blk + min blk (r - k * blk)
/-- start(k) for LAST and BALANCED. -/
def splitStart (e n blk rem k : Nat) : Nat :=
  match rem with
  | 0 => k * lastB e n blk
  | _ => k * (e / n) + min k (e % n)

def roundUp (x g : Nat) : Nat := (x + g - 1) / g * g

/-- Lmax_d and the stored extent S_d (R205). -/
def lmax (d : BitVec 2048) (m : BitVec 512) (i : Nat) : Nat :=
  let n := mShards m i
  ((List.range n).map fun k => splitLen (dExt d i) n (mBlk m i) (mRem m i) k).foldl max 0
def storedExt (d : BitVec 2048) (m : BitVec 512) (i : Nat) : Nat :=
  roundUp (lmax d m i + 2 * mHalo m i) (max (2 ^ mPadl m i) (2 ^ dTlog d i))
def storedExts (d : BitVec 2048) (m : BitVec 512) : List Nat := (List.range (dRank d)).map (storedExt d m)
def tileExts (d : BitVec 2048) : List Nat := (List.range (dRank d)).map fun i => 2 ^ dTlog d i

/-- Elements and bytes per layout block of the block formats (Table 11.2). -/
def fmtBlock (fmt : Nat) : Nat × Nat :=
  match fmt with | 5 => (1024, 544) | 9 => (1024, 528) | 10 => (1024, 400) | _ => (2048, 2056)
/-- Bytes of n elements, whole blocks for the block formats. -/
def fmtBytes (fmt n : Nat) : Nat :=
  if fmtIsByte fmt then (n * fmtWidth fmt + 7) / 8 else (n + (fmtBlock fmt).1 - 1) / (fmtBlock fmt).1 * (fmtBlock fmt).2
def shardBytes (d : BitVec 2048) (m : BitVec 512) : Nat := fmtBytes (slotFmt d) (storedExts d m).prod

/-- Row-major index of u over extents s. -/
def rowMajor (u s : List Nat) : Nat := (u.zip s).foldl (fun acc p => acc * p.2 + p.1) 0

/-- Swap the last two entries. -/
def swapLast (l : List Nat) : List Nat :=
  match l.reverse with | a :: b :: t => (b :: a :: t).reverse | _ => l

/-- elem_index(tag, u, S, X, g) (R201). -/
def elemIndex (tag : Nat) (u s x : List Nat) (g : Nat) : Nat :=
  let sw := fun (l : List Nat) => if tag % 2 = 1 then swapLast l else l
  let u := sw u
  let s := sw s
  let x := sw x
  let tiled := tag / 2 % 2 = 1
  let base := if tiled then rowMajor (List.zipWith (· / ·) u x) (List.zipWith (· / ·) s x) * x.prod else 0
  let v := if tiled then List.zipWith (· % ·) u x else u
  let vv := if tiled then x else s
  let r := v.length
  if tag / 4 % 2 = 1 ∧ r ≥ 2 then
    let i := v.getD (r - 2) 0
    let j := v.getD (r - 1) 0
    let v' := (v.set (r - 2) (i / g)).set (r - 1) (j * g + i % g)
    let e' := (vv.set (r - 2) (vv.getD (r - 2) 1 / g)).set (r - 1) (vv.getD (r - 1) 1 * g)
    base + rowMajor v' e'
  else base + rowMajor v vv

/-- Where an element lies (R206): position, shard base VA, stored coordinate. -/
structure Loc where
  p : Nat
  base : Nat
  u : List Nat
deriving DecidableEq, Repr

/-- Mesh position of digits. -/
def mPosOf (m : BitVec 512) (digits : List Nat) : Nat :=
  (List.range (mNax m)).foldl (fun acc a => acc + digits.getD a 0 * ((List.range a).map (mAxsize m)).prod) 0

/-- Set the digits of shard index k on the axes `ax` (ascending; the last varies fastest). -/
def setDigits (m : BitVec 512) (digits ax : List Nat) (k : Nat) : List Nat :=
  (ax.reverse.foldl (fun (st : List Nat × Nat) a =>
    (st.1.set a (st.2 % max 1 (mAxsize m a)), st.2 / max 1 (mAxsize m a))) (digits, k)).1
/-- Shard index of digits on the axes of a dimension. -/
def shardIdx (m : BitVec 512) (digits ax : List Nat) : Nat :=
  ax.foldl (fun acc a => acc * mAxsize m a + digits.getD a 0) 0

/-- Is any coordinate out of range? -/
def isOut (d : BitVec 2048) (x : List Nat) : Bool := (x.zipIdx).any fun p => decide (p.1 ≥ dExt d p.2)

/-- locate(D, M, b, t, x, w) (R206); none is OUT. `own` forces the owner's shard with the given REPL digits. -/
def locate (d : BitVec 2048) (m : BitVec 512) (b t : Nat) (x : List Nat) (w : Nat) : Option Loc :=
  if isOut d x then none
  else
    let np := mPositions m
    let me := (List.range np).find? fun q => mDie m q == w
    let c : List Nat := match me with
      | some q => (List.range 4).map (mDigit m q) | none => [0, 0, 0, 0]
    let dims := List.range (dRank d)
    let ko := dims.map fun i => split (dExt d i) (mShards m i) (mBlk m i) (mRem m i) (x.getD i 0)
    let h : List (Option Nat) := dims.map fun i =>
      match me with
      | none => none
      | some _ =>
        if mRem m i = 2 ∧ mSplitAxes m i ≠ [] then none
        else
          let n := mShards m i
          let k := shardIdx m c (mSplitAxes m i)
          let st := splitStart (dExt d i) n (mBlk m i) (mRem m i) k
          let len := splitLen (dExt d i) n (mBlk m i) (mRem m i) k
          let xi := x.getD i 0 + mHalo m i
          if st ≤ xi ∧ xi - st < len + 2 * mHalo m i then some (xi - st) else none
    match me with
    | some q =>
      if h.all Option.isSome then some ⟨q, b + q * t, h.map fun o => o.getD 0⟩
      else
        let c' := dims.foldl (fun cs i => setDigits m cs (mSplitAxes m i) (ko.getD i (0, 0)).1) c
        let p := mPosOf m c'
        some ⟨p, b + p * t, dims.map fun i => (ko.getD i (0, 0)).2 + mHalo m i⟩
    | none =>
      let c' := dims.foldl (fun cs i => setDigits m cs (mSplitAxes m i) (ko.getD i (0, 0)).1) c
      let p := mPosOf m c'
      some ⟨p, b + p * t, dims.map fun i => (ko.getD i (0, 0)).2 + mHalo m i⟩

/-- The owner's copies a write goes to (R207): one per position of the REPL axes, ascending; PSUM axes keep the writer's digit. -/
def ownerCopies (d : BitVec 2048) (m : BitVec 512) (b t : Nat) (x : List Nat) (w : Nat) : List Loc :=
  if isOut d x then []
  else
    let np := mPositions m
    let me := (List.range np).find? fun q => mDie m q == w
    let mine : Nat → Nat := fun a => match me with | some q => mDigit m q a | none => 0
    let dims := List.range (dRank d)
    let ko := dims.map fun i => split (dExt d i) (mShards m i) (mBlk m i) (mRem m i) (x.getD i 0)
    let own := dims.foldl (fun cs i => setDigits m cs (mSplitAxes m i) (ko.getD i (0, 0)).1) [0, 0, 0, 0]
    ((List.range np).filter fun p => (List.range (mNax m)).all fun a =>
      match mRole m a with
      | 0 => true
      | 1 => mDigit m p a == own.getD a 0
      | _ => mDigit m p a == mine a).map fun p =>
        ⟨p, b + p * t, dims.map fun i => (ko.getD i (0, 0)).2 + mHalo m i⟩

/-- Elements of a block of a format that share a scale (Table 11.2). -/
def scaleBlock (fmt : Nat) : Nat := match fmt with | 5 => 32 | 9 => 128 | 10 => 128 | 11 => 2048 | _ => 1
/-- How far an aligned run of b elements reaches along each extent of a row-major order, the last extent first. -/
def runBox (b : Nat) : List Nat → List Nat
  | [] => []
  | v :: t => let n := Nat.gcd v b; n :: (if n = v then runBox (b / n) t else t.map fun _ => 1)
/-- Extents, in logical dimensions, of a block of a block format under a tag: blocks run along the element index (R201). -/
def blockBox (d : BitVec 2048) (m : BitVec 512) (tag : Nat) : List Nat :=
  let b := scaleBlock (slotFmt d)
  let sw := fun (l : List Nat) => if tag % 2 = 1 then swapLast l else l
  let v := sw (if tag / 2 % 2 = 1 then tileExts d else storedExts d m)
  let g := fmtPack (slotFmt d)
  let box := match v.reverse with
    | x :: y :: t =>
      if tag / 4 % 2 = 1 then
        match runBox b (x * g :: y / g :: t) with
        | p :: q :: r => (if p ≥ g then p / g :: q * g :: r else 1 :: p :: r)
        | l => l
      else runBox b (x :: y :: t)
    | l => runBox b l
  sw box.reverse
/-- Where the storage goes on beyond the end of the tensor, for a coordinate out of range: in the shard of the last element, or, under
CYCLIC, where split() puts it (R204, R205, R217). -/
def outLoc (d : BitVec 2048) (m : BitVec 512) (b t : Nat) (x : List Nat) (w : Nat) : Option Loc :=
  let c := x.zipIdx.map fun p =>
    if p.1 < dExt d p.2 then p.1
    else if mRem m p.2 = 2 then (split (dExt d p.2) (mShards m p.2) (mBlk m p.2) 2 p.1).1 * mBlk m p.2
    else dExt d p.2 - 1
  let past := fun (p : Nat × Nat) =>
    let a := x.getD p.2 0
    if a < (dExt d p.2) then p.1
    else if mRem m p.2 = 2 then (split (dExt d p.2) (mShards m p.2) (mBlk m p.2) 2 a).2
    else p.1 + (a - c.getD p.2 0)
  (locate d m b t c w).map fun l => { l with u := l.u.zipIdx.map past }
/-- Does the whole block of such a place lie outside the tensor: does its least corner (Table 9.5)? -/
def cornerOut (d : BitVec 2048) (m : BitVec 512) (tag : Nat) (x : List Nat) (l : Loc) : Bool :=
  let box := blockBox d m tag
  let ext := storedExts d m
  l.u.zipIdx.any fun p =>
    let xi := x.getD p.2 0
    let r := p.1 % max 1 (box.getD p.2 1)
    let at_ := if mRem m p.2 = 2 then
        let o := p.1 - r
        (o / mBlk m p.2 * mShards m p.2 + xi / mBlk m p.2 % mShards m p.2) * mBlk m p.2 + o % mBlk m p.2
      else xi - r
    decide (xi ≥ dExt d p.2) && (decide (p.1 ≥ ext.getD p.2 0) || decide (at_ ≥ dExt d p.2))

/-- Tile of a stored coordinate: row-major over the unswapped stored grid (R209). -/
def tileOf (d : BitVec 2048) (m : BitVec 512) (u : List Nat) : Nat :=
  rowMajor (List.zipWith (· / ·) u (tileExts d)) (List.zipWith (· / ·) (storedExts d m) (tileExts d))
/-- Tiles per shard. -/
def tileCount (d : BitVec 2048) (m : BitVec 512) : Nat := (List.zipWith (· / ·) (storedExts d m) (tileExts d)).prod

/-- Byte offset of a byte-format element within its shard under a tag. -/
def elemOff (d : BitVec 2048) (m : BitVec 512) (tag : Nat) (u : List Nat) : Nat :=
  elemIndex tag u (storedExts d m) (tileExts d) (fmtPack (slotFmt d)) * fmtWidth (slotFmt d) / 8

/-- Bit offset of element index j within a shard (Table 11.2 for the block formats). -/
def posBits (fmt j : Nat) : Nat :=
  match fmt with
  | 5 => j / 1024 * 544 * 8 + j % 1024 * 4
  | 9 => j / 1024 * 528 * 8 + j % 1024 * 4
  | 10 => j / 1024 * 400 * 8 + j % 1024 * 3
  | 11 => j / 2048 * 2056 * 8 + j % 2048 * 8
  | _ => j * fmtWidth fmt
/-- Byte offset and bytes of the scale of element index j; none for the byte formats. -/
def posScale (fmt j : Nat) : Option (Nat × Nat) :=
  match fmt with
  | 5 => some (j / 1024 * 544 + 512 + j % 1024 / 32, 1)
  | 9 => some (j / 1024 * 528 + 512 + 2 * (j % 1024 / 128), 2)
  | 10 => some (j / 1024 * 400 + 384 + 2 * (j % 1024 / 128), 2)
  | 11 => some (j / 2048 * 2056 + 2048, 4)
  | _ => none
/-- Element index of a stored coordinate under a tag. -/
def elemIdx (d : BitVec 2048) (m : BitVec 512) (tag : Nat) (u : List Nat) : Nat :=
  elemIndex tag u (storedExts d m) (tileExts d) (fmtPack (slotFmt d))
/-- Address of an element: a byte address for the byte formats, a bit address for the block formats. -/
def elemAddr (d : BitVec 2048) (m : BitVec 512) (tag base : Nat) (u : List Nat) : Nat :=
  if fmtIsByte (slotFmt d) then base + elemOff d m tag u else 8 * base + posBits (slotFmt d) (elemIdx d m tag u)

/-! ### Checks of records, tags and maps (R200, R201, R203) -/

def tagOk (d : BitVec 2048) (tag : Nat) : Bool :=
  let r := dRank d
  decide (tag < 8) && (tag % 2 == 0 || decide (r ≥ 2)) &&
  (tag / 4 % 2 == 0 || (decide (r ≥ 2) &&
    decide (2 ^ dTlog d (if tag % 2 = 1 then r - 1 else r - 2) ≥ fmtPack (slotFmt d))))

def mapOk (d : BitVec 2048) (m : BitVec 512) : Bool :=
  let r := dRank d
  let nax := mNax m
  let np := mPositions m
  decide (nax ≤ 4) && decide (np ≤ 32) &&
  ((List.range 4).all fun a =>
    if a < nax then decide (1 ≤ mAxsize m a) && decide (mAxsize m a ≤ 32) && decide (mRole m a ≤ 2) &&
      (if mRole m a = 1 then decide (mDim m a < r) else mDim m a == 0) && (m.extractLsb' (37 + 8 * a) 3 == 0)
    else mAxsize m a == 0 && m.extractLsb' (32 + 8 * a) 8 == 0) &&
  (m.extractLsb' 67 29 == 0) &&
  ((List.range np).all fun p => (List.range p).all fun q => mDie m p != mDie m q) &&
  ((List.range 32).all fun p => decide (p < np) || mDie m p == 0) &&
  ((List.range 8).all fun i =>
    if i < r then
      (m.extractLsb' (274 + 32 * i) 2 == 0) && (m.extractLsb' (284 + 32 * i) 4 == 0) && decide (mRem m i ≤ 2) &&
      (mRem m i != 2 || (mBlk m i != 0 && mHalo m i == 0)) && (mRem m i != 1 || mBlk m i == 0) &&
      (mRem m i != 0 || decide (mShards m i * lastB (dExt d i) (mShards m i) (mBlk m i) ≥ dExt d i))
    else m.extractLsb' (256 + 32 * i) 32 == 0)

/-- The checks DLD makes on a record (R200). -/
def recordOk (d : BitVec 2048) : Bool :=
  let r := dRank d
  let tile := ((List.range r).map fun i => 2 ^ dTlog d i).prod * fmtWidth (slotFmt d) / 8
  decide (slotFmt d ≤ 11) && (d.extractLsb' 53 11 == 0) && (d.extractLsb' 96 32 == 0) && (d.extractLsb' 448 64 == 0) &&
  ((List.range 8).all fun i =>
    if i < r then decide (1 ≤ dExt d i) && decide (dTlog d i ≤ 15) else dExt d i == 0 && dTlog d i == 0) &&
  decide (512 ≤ tile) && decide (tile ≤ 65536) && tagOk d (dTag d) && (if dRly d then tagOk d (dPtag d) else dPtag d == 0) &&
  ([8, 9, 10, 11, 12, 13, 14].all fun k => decide (dWord d k < 2 ^ 56)) && (dWord d 15 == 0) &&
  (dRly d || dWord d 9 == 0) && mapOk d (dMap d) && decide (shardBytes d (dMap d) ≤ dWord d 10) &&
  (if dRsh d then mapOk d (dNmap d) && decide (shardBytes d (dNmap d) ≤ dWord d 12)
   else dWord d 11 == 0 && dWord d 12 == 0 && dNmap d == 0)

/-- The refusals of RESHARD on the map (R212), judged against the slot's image. -/
def reshardOk (d : BitVec 2048) (m : BitVec 512) (nbase nsstride : Nat) : Bool :=
  !dRsh d && mapOk d m && decide (shardBytes d m ≤ nsstride) && decide (nbase < 2 ^ 56) && decide (nsstride < 2 ^ 56) &&
  ((List.range (mNax m)).all fun a => mRole m a != 2 ||
    (decide (a < mNax (dMap d)) && mRole (dMap d) a == 2 && mAxsize (dMap d) a == mAxsize m a &&
      m.extractLsb' 96 160 == (dMap d).extractLsb' 96 160))

end Sys2Proof.Machine
end

