-- ==== Sys2Proof/Machine/MemOps.lean ====
section
/-! DEFINITION. M-lane loads and stores, and accesses through tensor slots (R353 to R368). -/
namespace Sys2Proof.Machine

/-! ### Admission through the lock tables (R206, R210, R215) -/

/-- The lock table of a shard. -/
def lockOf (s : State) (ctx dva : Nat) (reshard : Bool) (shard : Nat) : Option LockTab :=
  s.locks.find? fun l => l.ctx == ctx && l.dva == dva && l.reshard == reshard && l.shard == shard
def tileBusy (s : State) (ctx dva : Nat) (reshard : Bool) (shard t : Nat) : Bool :=
  match lockOf s ctx dva reshard shard with | some l => l.busy.contains t | none => false
def tileDone (s : State) (ctx dva : Nat) (reshard : Bool) (shard t : Nat) : Bool :=
  match lockOf s ctx dva reshard shard with | some l => l.done.contains t | none => false

/-- What admission answers. -/
inductive Admit where
  | out
  | wait
  | at (va : Nat)
deriving DecidableEq, Repr

/-- ADMIT(p, u) under the current map (R210). -/
def admitOld (s : State) (ctx : Nat) (d : BitVec 2048) (l : Loc) : Admit :=
  let t := tileOf d (dMap d) l.u
  if dRly d ∧ tileBusy s ctx (dWord d 15) false l.p t then .wait
  else if dRly d ∧ tileDone s ctx (dWord d 15) false l.p t then
    .at (elemAddr d (dMap d) (dPtag d) (dWord d 9 + l.p * dWord d 10) l.u)
  else .at (elemAddr d (dMap d) (dTag d) (dWord d 8 + l.p * dWord d 10) l.u)

/-- Tag of the reshard destination: PTAG while a relayout is in progress (R212). -/
def newTag (d : BitVec 2048) : Nat := if dRly d then dPtag d else dTag d

/-- Admission of one location of the reshard destination; none when its piece is not yet done. -/
def admitNew (s : State) (ctx : Nat) (d : BitVec 2048) (l : Loc) : Option Admit :=
  let t := tileOf d (dNmap d) l.u
  if tileBusy s ctx (dWord d 15) true l.p t then some .wait
  else if tileDone s ctx (dWord d 15) true l.p t then some (.at (elemAddr d (dNmap d) (newTag d) l.base l.u))
  else none

/-- The address a read of coordinate x by a master on die w uses (R206, R210, R215). -/
def admitRead (s : State) (ctx : Nat) (d : BitVec 2048) (x : List Nat) (w : Nat) : Admit :=
  if dRsh d then
    match locate d (dNmap d) (dWord d 11) (dWord d 12) x w with
    | none => .out
    | some l => match admitNew s ctx d l with
      | some a => a
      | none => match locate d (dMap d) (dWord d 8) (dWord d 10) x w with
        | none => .out
        | some l' => admitOld s ctx d l'
  else match locate d (dMap d) (dWord d 8) (dWord d 10) x w with
    | none => .out
    | some l => admitOld s ctx d l

/-- Does the block of a coordinate out of range lie wholly outside, under the map and tag in which its tile stands (R210, R215, R217)? -/
def blockOut (s : State) (ctx : Nat) (d : BitVec 2048) (x : List Nat) (w : Nat) : Bool :=
  let old := match outLoc d (dMap d) (dWord d 8) (dWord d 10) x w with
    | none => true
    | some l => cornerOut d (dMap d) (if dRly d ∧ tileDone s ctx (dWord d 15) false l.p (tileOf d (dMap d) l.u) then dPtag d else dTag d) x l
  if dRsh d then
    match outLoc d (dNmap d) (dWord d 11) (dWord d 12) x w with
    | some l => if tileDone s ctx (dWord d 15) true l.p (tileOf d (dNmap d) l.u) then cornerOut d (dNmap d) (newTag d) x l else old
    | none => old
  else old
/-- What a coordinate outside the tensor reads as: FILL, and a zero element in a block that lies wholly outside (Table 9.5). -/
def outElem (s : State) (ctx : Nat) (d : BitVec 2048) (x : List Nat) (w : Nat) : Nat :=
  if !fmtIsByte (slotFmt d) && blockOut s ctx d x w then 0 else (dFill d).toNat

/-- The addresses a write goes to, one per replica (R207, R215). -/
def admitWrite (s : State) (ctx : Nat) (d : BitVec 2048) (x : List Nat) (w : Nat) : List Admit :=
  let olds := (ownerCopies d (dMap d) (dWord d 8) (dWord d 10) x w).map (admitOld s ctx d)
  if dRsh d then
    let news := (ownerCopies d (dNmap d) (dWord d 11) (dWord d 12) x w).map (admitNew s ctx d)
    -- a replica whose piece is not yet done goes to the old copies
    (news.filterMap id) ++ (if news.any Option.isNone then olds else [])
  else olds

/-- Where the writes of coordinate x lie now, those of a busy tile where the tile lies until it has been converted (R210, R355; log 115). -/
def writeTargets (s : State) (ctx : Nat) (d : BitVec 2048) (x : List Nat) (w : Nat) : List Nat :=
  let olds := (ownerCopies d (dMap d) (dWord d 8) (dWord d 10) x w).map fun l =>
    let t := tileOf d (dMap d) l.u
    if dRly d ∧ tileDone s ctx (dWord d 15) false l.p t then
      elemAddr d (dMap d) (dPtag d) (dWord d 9 + l.p * dWord d 10) l.u
    else elemAddr d (dMap d) (dTag d) (dWord d 8 + l.p * dWord d 10) l.u
  if dRsh d then
    let news := (ownerCopies d (dNmap d) (dWord d 11) (dWord d 12) x w).map fun l =>
      let t := tileOf d (dNmap d) l.u
      if tileDone s ctx (dWord d 15) true l.p t then
        some (elemAddr d (dNmap d) (newTag d) l.base l.u)
      else none
    news.filterMap id ++ (if news.any Option.isNone then olds else [])
  else olds

/-- PARTIAL_READ: does a read of x meet a PSUM axis (R207, R215)? -/
def partialRead (s : State) (ctx : Nat) (d : BitVec 2048) (x : List Nat) (w : Nat) : Bool :=
  !isOut d x && (if dRsh d then
    mHasPsum (dNmap d) || (mHasPsum (dMap d) &&
      (match locate d (dNmap d) (dWord d 11) (dWord d 12) x w with
        | some l => (admitNew s ctx d l).isNone | none => false))
  else mHasPsum (dMap d))

/-! ### Addresses -/

/-- ADDR_RANGE (code 12): bits beyond the space (R354). -/
def addrRange {α : Type} (cu : Cursor) (va : Word) (wr : Bool) : LM α := .error (.trap ⟨12, 0, cu.lane, 7, va, wr, 0⟩)

/-- An effective address: own scratchpad offset, or device VA (R354); `n` bytes aligned to `al`. -/
inductive EA where
  | spad (off : Nat)
  | dev (va : Nat)
deriving DecidableEq, Repr

def effAddr (cu : Cursor) (a : Word) (n al : Nat) (wr : Bool) : LM EA :=
  if a.toNat % al ≠ 0 then illegal cu 2
  else if a.getLsbD 63 then
    if a.extractLsb' 22 41 ≠ 0 ∨ a.toNat % 2 ^ 22 + n > 2 ^ 22 then addrRange cu a wr else .ok (.spad (a.toNat % 2 ^ 22))
  else if a.toNat ≥ 2 ^ 56 ∨ a.toNat + n > 2 ^ 56 then addrRange cu a wr
  else .ok (.dev a.toNat)

/-- Split n bytes at va into pieces that each lie in one location: (va, bytes, byte offset). -/
def pieces (va : Nat) : Nat → Nat → List (Nat × Nat × Nat)
  | 0, _ => []
  | fuel + 1, n =>
    let rec go (va off n : Nat) : Nat → List (Nat × Nat × Nat)
      | 0 => []
      | k + 1 =>
        if n = 0 then [] else
        let m := min n (8 - va % 8)
        (va, m, off) :: go (va + m) (off + m) (n - m) k
    go va 0 n (fuel + 1)
/-- Pieces of n bytes. -/
def locPieces (va n : Nat) : List (Nat × Nat × Nat) := pieces va (n / 8 + 2) n

/-- A master's die: the core's. -/
def coreDie (cu : Cursor) : Nat := cu.core / 64

/-- Bytes a buffered store of the open segment writes, by device VA: (va, bytes, value). -/
def storeParts (s : State) (c : Core) (w : Nat) (b : BufStore) : List (Nat × Nat × Nat) :=
  match b.kind with
  | .dev parts _ => parts
  | .slot d ew elems => elems.flatMap fun e =>
      (admitWrite s c.ctx d e.1 w).filterMap fun a => match a with | .at va => some (va, ew / 8, e.2) | _ => none

/-- Overlay of the core's own buffered stores on bytes [va, va + n) placed at byte `off` of a landing: (value, byte mask)
(R159, R356). -/
def overlay (parts : List (Nat × Nat × Nat)) (va n off : Nat) (acc : VWord × BitVec 512) : VWord × BitVec 512 :=
  parts.foldl (fun acc p =>
    (List.range p.2.1).foldl (fun acc i =>
      let b := p.1 + i
      if va ≤ b ∧ b < va + n then
        let k := off + (b - va)
        ((acc.1 &&& ~~~((BitVec.ofNat 4096 255) <<< (8 * k))) ||| ((BitVec.ofNat 4096 (elem 8 p.2.2 i)) <<< (8 * k)),
          acc.2 ||| ((1 : BitVec 512) <<< k))
      else acc) acc) acc

/-- One access record of the issuing operation. -/
def mkAcc (cu : Cursor) (id : Nat) (kind : AccKind) (va n val bob off : Nat) : Acc :=
  { id := id, kind := kind, va := va, n := n, val := val, seq := cu.seq, lane := cu.lane, pos := cu.pos, bob := bob, off := off, rel := none
    acq := false, phys := none, performed := false, elem := none, pages := [], sup := false, t0 := cu.gtc }

/-- Append accesses, numbering them. -/
def addAccs (c : Core) (l : List Acc) : Core :=
  { c with accs := c.accs ++ (l.zipIdx.map fun p => { p.1 with id := c.nextAcc + p.2 }), nextAcc := c.nextAcc + l.length }

/-- The own scratchpad as an M-lane load sees it: with the stores of lane M0 in its own bundle, earlier in group-M program order, though
they take effect at the end of the tick (R356, R357). -/
def spadSeen (cu : Cursor) (c : Core) : Memory :=
  (c.arch.pend.filter fun p => p.seq == cu.seq && decide (6 ≤ p.lane) && decide (p.lane < cu.lane)).foldl (fun m p =>
    match p.eff with
    | .spad parts => parts.foldl (fun m q => Memory.writeEn m q.1 q.2.1 q.2.2.1 q.2.2.2) m
    | _ => m) c.spad

/-- Issue the reads of a landing: a list of (va, bytes, byte offset). Own-scratchpad bytes are read at issue. -/
def issueReads (s : State) (cu : Cursor) (c : Core) (dest : LandDest) (ws : BitVec 1) (reads : List (EA × Nat × Nat)) (acq : Bool)
    (known : VWord × BitVec 512) : LM Core := do
  let dev := reads.flatMap fun r => match r.1 with
    | .dev va => (locPieces va r.2.1).map fun p => (p.1, p.2.1, r.2.2 + p.2.2)
    | .spad _ => []
  let sp := reads.filterMap fun r => match r.1 with | .spad o => some (o, r.2.1, r.2.2) | .dev _ => none
  let parts := c.arch.stores.flatMap (storeParts s c (s.dieBase + coreDie cu))
  let ov := dev.foldl (fun acc r => overlay parts r.1 r.2.1 r.2.2 acc) known
  let (id, c) ← takeBob cu c dest ws (dev.length + sp.length) ov.1 ov.2
  let c := { c with transit := c.transit ++ sp.map fun r => ⟨id, r.2.2, r.2.1, Memory.readN (spadSeen cu c) r.1 r.2.1, cu.gtc + 4, 0⟩ }
  .ok (addAccs c (dev.map fun r => { mkAcc cu 0 .rd r.1 r.2.1 0 id r.2.2 with acq := acq }))

/-- Distinct 64 KiB pages of store pieces, for translation at issue. -/
def walkPages (parts : List (Nat × Nat × Nat)) : List Nat :=
  (parts.flatMap fun p => [p.1, p.1 + p.2.1 - 1]).foldl (fun l a => if l.any fun b => b / 65536 == a / 65536 then l else l ++ [a]) []

/-- Buffer one store operation whose device parts are given (R357). -/
def bufferStore (cu : Cursor) (c : Core) (kind : StoreKind) (parts : List (Nat × Nat × Nat)) : LM Core := do
  checkStores cu c
  let c' := addAccs c ((walkPages parts).map fun a => mkAcc cu 0 .walk a 1 0 0 0)
  let ids := (List.range (walkPages parts).length).map fun i => c.nextAcc + i
  .ok { c' with arch := { c'.arch with stores := c'.arch.stores ++ [⟨cu.seq, cu.lane, kind, ids, cu.pos⟩] } }

/-- DT where it must be a register code, as a load's destination must; a channel code takes SUB 3 (R287, R353). -/
def loadDst (cu : Cursor) (dt : BitVec 7) : LM Unit :=
  if dt.toNat ≤ 63 then .ok () else if 80 ≤ dt.toNat ∧ dt.toNat ≤ 83 then illegal cu 3 else illegal cu 2

/-! ### MA form (R359, R360) -/

def maAddr (f : MA) (bytes : Nat) (c : Core) : Word := readS c f.bs.toNat + BitVec.ofInt 64 (f.off.toInt * bytes)

def loadMA (f : MA) (bytes al : Nat) (dest : Nat → LandDest) (s : State) (cu : Cursor) (c : Core) : LM Core := do
  loadDst cu f.dt
  let ea ← effAddr cu (maAddr f bytes c) bytes al false
  issueReads s cu c (dest (mapReg c.arch.rot f.dt.toNat)) f.ws [(ea, bytes, 0)] false (0, 0)
/-- A store of n bytes of a value at an effective address. A release to the core's own scratchpad closes its granule to other paths, from the commit
on, until the stores before it are performed (R225, R361). -/
def storeAt (ea : EA) (bytes val : Nat) (rel : Option Nat) (cu : Cursor) (c : Core) : LM Core :=
  match ea with
  | .spad o => do
    let c ← logSpad cu c o bytes
    let c := if rel.isSome then { c with arch := { c.arch with relSpad := c.arch.relSpad ++ [o / 64] } } else c
    .ok (emit cu 1 (.spad [(o, bytes, 2 ^ bytes - 1, val)]) c)
  | .dev va =>
    let parts := (locPieces va bytes).map fun p => (p.1, p.2.1, val / 256 ^ p.2.2 % 256 ^ p.2.1)
    bufferStore cu c (.dev parts rel) parts
def storeMA (f : MA) (bytes al : Nat) (vec : Bool) (cu : Cursor) (c : Core) : LM Core := do
  need cu (f.ws = 0)
  let ea ← effAddr cu (maAddr f bytes c) bytes al true
  let (v, c) ← if vec then do
      let (v, c) ← resolveV cu f.dt c
      pure (v.toNat, c)
    else do
      let (v, c) ← resolveS cu f.dt c
      pure (v.toNat % 256 ^ bytes, c)
  storeAt ea bytes v none cu c

def execLdI8 (f : MA) (s : State) := laneStep s f.pr (loadMA f 1 1 (fun r => .s r 1 true) s)
def execLdI16 (f : MA) (s : State) := laneStep s f.pr (loadMA f 2 2 (fun r => .s r 2 true) s)
def execLdI32 (f : MA) (s : State) := laneStep s f.pr (loadMA f 4 4 (fun r => .s r 4 true) s)
def execLdI64 (f : MA) (s : State) := laneStep s f.pr (loadMA f 8 8 (fun r => .s r 8 true) s)
def execLdN8 (f : MA) (s : State) := laneStep s f.pr (loadMA f 1 1 (fun r => .s r 1 false) s)
def execLdN16 (f : MA) (s : State) := laneStep s f.pr (loadMA f 2 2 (fun r => .s r 2 false) s)
def execLdN32 (f : MA) (s : State) := laneStep s f.pr (loadMA f 4 4 (fun r => .s r 4 false) s)
def execStB8 (f : MA) (s : State) := laneStep s f.pr (storeMA f 1 1 false)
def execStB16 (f : MA) (s : State) := laneStep s f.pr (storeMA f 2 2 false)
def execStB32 (f : MA) (s : State) := laneStep s f.pr (storeMA f 4 4 false)
def execStB64 (f : MA) (s : State) := laneStep s f.pr (storeMA f 8 8 false)
def execVld (f : MA) (s : State) := laneStep s f.pr (loadMA f 512 64 (fun r => .v r) s)
def execVst (f : MA) (s : State) := laneStep s f.pr (storeMA f 512 64 true)
def execVldb (f : MA) (s : State) := laneStep s f.pr (loadMA f 8 8 (fun r => .bcast r) s)

/-- ldacq: OFF[9:0] signed, scaled by 8; OFF[12:10] the scope (R360). -/
def ldacqBody (f : MA) (s : State) (cu : Cursor) (c : Core) : LM Core := do
  let scope := (f.off.extractLsb' 10 3).toNat
  need cu (decide (scope ≤ 4))
  loadDst cu f.dt
  let a := readS c f.bs.toNat + BitVec.ofInt 64 ((f.off.setWidth 10).toInt * 8)
  let ea ← effAddr cu a 8 8 false
  issueReads s cu c (.acq (mapReg c.arch.rot f.dt.toNat) scope) f.ws [(ea, 8, 0)] true (0, 0)
def execLdacq (f : MA) (s : State) := laneStep s f.pr (ldacqBody f s)

/-! ### MX-form accesses (R361 to R363) -/

def mxAddr (f : MX) (c : Core) : Word := readS c f.bs.toNat + readS c f.ix.toNat

def strelBody (f : MX) (cu : Cursor) (c : Core) : LM Core := do
  need cu (f.ws = 0 && decide (f.fn.toNat ≤ 4))
  let ea ← effAddr cu (mxAddr f c) 8 8 true
  let (v, c) ← resolveS cu f.dt c
  storeAt ea 8 v.toNat (some f.fn.toNat) cu c
def execStrel (f : MX) (s : State) := laneStep s f.pr (strelBody f)

def vldxBody (f : MX) (s : State) (cu : Cursor) (c : Core) : LM Core := do
  need cu (f.fn = 0)
  loadDst cu f.dt
  let ea ← effAddr cu (mxAddr f c) 512 64 false
  issueReads s cu c (.v (mapReg c.arch.rot f.dt.toNat)) f.ws [(ea, 512, 0)] false (0, 0)
def execVldx (f : MX) (s : State) := laneStep s f.pr (vldxBody f s)
def vstxBody (f : MX) (cu : Cursor) (c : Core) : LM Core := do
  need cu (f.fn = 0 && f.ws = 0)
  let ea ← effAddr cu (mxAddr f c) 512 64 true
  let (v, c) ← resolveV cu f.dt c
  storeAt ea 512 v.toNat none cu c
def execVstx (f : MX) (s : State) := laneStep s f.pr (vstxBody f)

/-- Effective addresses of the unmasked elements of a gather or scatter: (element, address) (R363). -/
def gatherAddrs (f : MX) (wr : Bool) (cu : Cursor) (c : Core) : LM (List (Nat × EA)) :=
  let bytes := if f.fn.getLsbD 0 then 8 else 4
  let ep : BitVec 4 := f.fn.extractLsb' 1 4
  let idx := readV c f.ix.toNat
  let base := (readS c f.bs.toNat).toNat
  ((List.range (512 / bytes)).filter fun i => (epMask c ep).getLsbD i).mapM fun i => do
    let a : Int := base + toSigned 32 (elem 32 idx.toNat i) * bytes
    if a < 0 ∨ a ≥ 2 ^ 64 then addrRange cu (BitVec.ofInt 64 a) wr
    else do
      let ea ← effAddr cu (BitVec.ofInt 64 a) bytes bytes wr
      pure (i, ea)
def gatherBody (f : MX) (s : State) (cu : Cursor) (c : Core) : LM Core := do
  need cu (decide (f.fn.toNat < 32))
  loadDst cu f.dt
  let l ← gatherAddrs f false cu c
  let bytes := if f.fn.getLsbD 0 then 8 else 4
  let mask := spread (8 * bytes) (epMask c (f.fn.extractLsb' 1 4))
  issueReads s cu c (.gather (mapReg c.arch.rot f.dt.toNat) mask) f.ws (l.map fun p => (p.2, bytes, p.1 * bytes)) false (0, 0)
def execGather (f : MX) (s : State) := laneStep s f.pr (gatherBody f s)
def scatterBody (f : MX) (cu : Cursor) (c : Core) : LM Core := do
  need cu (decide (f.fn.toNat < 32) && f.ws = 0)
  let l ← gatherAddrs f true cu c
  let bytes := if f.fn.getLsbD 0 then 8 else 4
  let (v, c) ← resolveV cu f.dt c
  let val := fun i => elem (8 * bytes) v.toNat i
  let sp := l.filterMap fun p => match p.2 with | .spad o => some (o, bytes, 2 ^ bytes - 1, val p.1) | .dev _ => none
  let dv := l.filterMap fun p => match p.2 with | .dev a => some (a, bytes, val p.1) | .spad _ => none
  let c ← sp.foldlM (fun c p => logSpad cu c p.1 p.2.1) c
  let c := if sp = [] then c else emit cu 1 (.spad sp) c
  if dv = [] then .ok c else bufferStore cu c (.dev dv none) dv
def execScatter (f : MX) (s : State) := laneStep s f.pr (scatterBody f)

/-! ### Tensor slots (R364 to R368) -/

/-- The occupied slot of a BS field; empty or out of range takes SUB 2. -/
def slotOf (cu : Cursor) (c : Core) (bs : BitVec 6) : LM (BitVec 2048) :=
  if bs.toNat ≥ 32 then illegal cu 2
  else match FMap.find c.arch.slots bs.toNat with | some d => .ok d | none => illegal cu 2

def dldBody (f : MX) (s : State) (cu : Cursor) (c : Core) : LM Core := do
  need cu (decide (f.dt.toNat < 32) && f.ix = 0 && f.fn = 0 && f.ws = 0)
  let a := readS c f.bs.toNat
  need cu (a.toNat % 8 == 0)
  if a.toNat ≥ 2 ^ 56 then addrRange cu a false
  else issueReads s cu c (.slot f.dt.toNat a) 0 [(.dev a.toNat, 256, 0)] false (0, 0)
def execDld (f : MX) (s : State) := laneStep s f.pr (dldBody f s)

def devictBody (f : MX) (cu : Cursor) (c : Core) : LM Core := do
  need cu (f.dt = 0 && f.ix = 0 && f.fn = 0 && f.ws = 0)
  let _ ← slotOf cu c f.bs
  .ok (emit cu 1 (.slot f.bs.toNat none) c)
def execDevict (f : MX) (s : State) := laneStep s f.pr (devictBody f)

def dgetBody (f : MX) (cu : Cursor) (c : Core) : LM Core := do
  need cu (decide (f.fn.toNat < 32) && f.ix = 0)
  loadDst cu f.dt
  let d ← slotOf cu c f.bs
  writeS cu f.dt f.ws 1 (BitVec.ofNat 64 (dWord d f.fn.toNat)) c
def execDget (f : MX) (s : State) := laneStep s f.pr (dgetBody f)

/-- relay: the slot's RLY, PTAG and DBASE change at the end of the issue tick; the request goes at commit (R208, R366). -/
def relayBody (f : MX) (cu : Cursor) (c : Core) : LM Core := do
  need cu (decide (f.fn.toNat < 64) && f.dt = 0 && f.ws = 0)
  let d ← slotOf cu c f.bs
  let dest := (readS c f.ix.toNat).toNat
  need cu (!dRly d && !dRsh d && tagOk d f.fn.toNat && decide (dest < 2 ^ 56))
  let d' := dSetWord (dSetBits (dSetBits d 45 6 f.fn.toNat) 51 1 1) 9 dest
  let c := emit cu 1 (.slot f.bs.toNat (some d')) c
  .ok { c with arch := { c.arch with posted := c.arch.posted ++ [.relay d'] } }
def execRelay (f : MX) (s : State) := laneStep s f.pr (relayBody f)

/-- reshard: the 64-byte map is read as a load; the refusals are judged at its landing (R367). -/
def reshardBody (f : MX) (s : State) (cu : Cursor) (c : Core) : LM Core := do
  need cu (f.fn = 0 && f.ws = 0 && (f.ix.toNat % 2 == 0))
  let _ ← slotOf cu c f.bs
  let mapVa := readS c f.ix.toNat
  let stride := readS c (f.ix.toNat + 1)
  let (nbase, c) ← resolveS cu f.dt c
  need cu (mapVa.toNat % 64 == 0)
  if mapVa.toNat ≥ 2 ^ 56 then addrRange cu mapVa false
  else issueReads s cu c (.map f.bs.toNat nbase stride mapVa) 0 [(.dev mapVa.toNat, 64, 0)] false (0, 0)
def execReshard (f : MX) (s : State) := laneStep s f.pr (reshardBody f s)

/-- Coordinates of the elements of a tld or tst: start coordinate, stepped dimension (R368). -/
def tensorCoords (d : BitVec 2048) (x : VWord) (step e : Nat) : List Nat :=
  (List.range (dRank d)).map fun i => elem 32 x.toNat i + (if i = step then e else 0)

/-- Own buffered bytes of an element whose tile is busy: the element writes of the same tensor (R159, R210). -/
def overlayElem (stores : List BufStore) (d : BitVec 2048) (co : List Nat) (w off : Nat) (acc : VWord × BitVec 512) : VWord × BitVec 512 :=
  stores.foldl (fun acc b => match b.kind with
    | .slot img w' elems =>
      if dWord img 15 = dWord d 15 ∧ w' = w then
        elems.foldl (fun acc e => if e.1 = co then overlay [(0, w / 8, e.2)] 0 (w / 8) off acc else acc) acc
      else acc
    | _ => acc) acc

def tldBody (f : MX) (s : State) (cu : Cursor) (c : Core) : LM Core := do
  need cu (decide (f.fn.toNat ≤ 1))
  loadDst cu f.dt
  let d ← slotOf cu c f.bs
  let r := dRank d
  need cu (fmtIsByte (slotFmt d) && (f.fn = 0 || decide (r ≥ 2)))
  let w := fmtWidth (slotFmt d)
  let x := readV c f.ix.toNat
  let n := 4096 / w
  let die := s.dieBase + coreDie cu
  let coords := (List.range n).map fun e => (e, tensorCoords d x (r - 1 - f.fn.toNat) e)
  if coords.any fun p => partialRead s c.ctx d p.2 die then .error (.trap (Trap.core 52 f.bs.toNat cu.lane))
  else do
    let ins := coords.filter fun p => !isOut d p.2
    -- out-of-range elements read FILL: known bytes of the landing
    let fillMask := buildV w fun e => if isOut d ((coords.getD e (0, [])).2) then 2 ^ w - 1 else 0
    let byteMask : BitVec 512 := BitVec.ofNat 512 (packElems 1 (fun k => if fillMask.getLsbD (8 * k) then 1 else 0) 512)
    let parts := c.arch.stores.flatMap (storeParts s c die)
    let ov := ins.foldl (fun acc p => match admitRead s c.ctx d p.2 die with
      | .at va => overlay parts va (w / 8) (p.1 * w / 8) acc
      | .wait => overlayElem c.arch.stores d p.2 w (p.1 * w / 8) acc
      | .out => acc) (fillV w (dFill d) &&& fillMask, byteMask)
    let (id, c) ← takeBob cu c (.v (mapReg c.arch.rot f.dt.toNat)) f.ws ins.length ov.1 ov.2
    .ok (addAccs c (ins.map fun p => { mkAcc cu 0 .rd 0 (w / 8) 0 id (p.1 * w / 8) with elem := some (d, p.2) }))
def execTld (f : MX) (s : State) := laneStep s f.pr (tldBody f s)

def tstBody (f : MX) (s : State) (cu : Cursor) (c : Core) : LM Core := do
  need cu (decide (f.fn.toNat ≤ 1) && f.ws = 0)
  let d ← slotOf cu c f.bs
  let r := dRank d
  need cu (fmtIsByte (slotFmt d) && (f.fn = 0 || decide (r ≥ 2)))
  let (v, c) ← resolveV cu f.dt c
  let w := fmtWidth (slotFmt d)
  let x := readV c f.ix.toNat
  let elems := ((List.range (4096 / w)).map fun e => (tensorCoords d x (r - 1 - f.fn.toNat) e, elem w v.toNat e)).filter
    fun p => !isOut d p.1
  let parts := elems.flatMap fun e => (admitWrite s c.ctx d e.1 (s.dieBase + coreDie cu)).filterMap fun a =>
    match a with | .at va => some (va, w / 8, e.2) | _ => none
  bufferStore cu c (.slot d w elems) parts
def execTst (f : MX) (s : State) := laneStep s f.pr (tstBody f s)

end Sys2Proof.Machine
end

