-- ==== Sys2Proof/Machine/Streams.lean ====
section
/-! DEFINITION. Stream ports, tile-fetch ports and channel bindings (R369 to R374). -/
namespace Sys2Proof.Machine

/-- Least and greatest start address of the rows of an address-mode pattern. -/
def patSpan (g : BitVec 768) : Int × Int :=
  [1, 2, 3].foldl (fun acc j =>
    let d : Int := (patCount g j - 1 : Nat) * patStride g j
    (acc.1 + min d 0, acc.2 + max d 0)) ((patBase g : Int), (patBase g : Int))
/-- Bytes of one row in address mode. -/
def patRowBytes (g : BitVec 768) : Nat := patCount g 0 * fmtWidth (patFmt g) / 8

/-- The checks of a pattern record common to sbind and tfcfg (R369 to R371): reserved bits, counts, formats, slot and range. -/
def patOk (c : Core) (tf : Bool) (g : BitVec 768) : Bool :=
  (g.extractLsb' 17 47 == 0) && (g.extractLsb' 96 32 == 0) && (g.extractLsb' 184 8 == 0) && (g.extractLsb' 448 3 == 0) &&
  (g.extractLsb' 460 52 == 0) && decide (patGrp g ≠ 3) && (patStride g 0 == 0) &&
  ([0, 1, 2, 3].all fun j => decide (1 ≤ patCount g j) && (decide (j ≤ patNdm1 g) || patCount g j == 1)) &&
  (if patSlotm g then
    !patSpad g && patFmt g == 0 &&
    (match FMap.find c.arch.slots (patSlot g) with
     | none => false
     | some d => (if tf then decide (slotFmt d ≠ 11) else fmtIsByte (slotFmt d)) && (!patT g || decide (dRank d ≥ 2)) &&
        ([1, 2, 3].all fun j => decide (j > patNdm1 g) || decide (patDim g j < dRank d)))
   else
    decide (patFmt g ≤ 11) && (patCount g 0 * fmtWidth (patFmt g) % 8 == 0) &&
    (!patSpad g || (decide (0 ≤ (patSpan g).1) && decide ((patSpan g).2 + patRowBytes g ≤ 2 ^ 22)))) &&
  (!tf || (!patDir g && patGrp g == 0 && !patSpad g))

/-- A pattern that reads through a map with a PSUM axis (R207, R371). -/
def patPartial (c : Core) (g : BitVec 768) : Bool :=
  patSlotm g && !patDir g && (match FMap.find c.arch.slots (patSlot g) with
    | some d => mHasPsum (if dRsh d then dNmap d else dMap d) | none => false)

def sbindBody (f : MX) (cu : Cursor) (c : Core) : LM Core := do
  need cu (decide (f.fn.toNat < 8) && f.bs = 0 && f.ix = 0 && f.ws = 0)
  let (v, c) ← resolveV cu f.dt c
  let img : BitVec 768 := v.setWidth 768
  need cu (patOk c false img)
  if patPartial c img then .error (.trap (Trap.core 52 (patSlot img) cu.lane))
  else .ok (emit cu 1 (.port f.fn.toNat (.bind img)) c)
def execSbind (f : MX) (s : State) := laneStep s f.pr (sbindBody f)

def sunbindBody (f : MX) (cu : Cursor) (c : Core) : LM Core := do
  need cu (decide (f.fn.toNat < 8) && f.bs = 0 && f.ix = 0 && f.dt = 0 && f.ws = 0)
  .ok (emit cu 1 (.port f.fn.toNat .unbind) c)
def execSunbind (f : MX) (s : State) := laneStep s f.pr (sunbindBody f)

/-- Entries moved before the bundle at the cursor, by the group of that lane (R372, R136 with H = G). -/
def movedAt (cu : Cursor) (p : Port) : Nat :=
  if patGrp p.img = grpCode cu.lane ∧ p.mark.1 = cu.seq + 1 then p.mark.2 else p.moved

def sposBody (f : MX) (cu : Cursor) (c : Core) : LM Core := do
  need cu (decide (f.fn.toNat < 8) && f.bs = 0 && f.ix = 0)
  loadDst cu f.dt
  match FMap.find c.arch.ports f.fn.toNat with
  | none => illegal cu 3
  | some p =>
    let total := min (patTotal (patFmtOf c p.img) p.img) (2 ^ 32 - 1)
    writeS cu f.dt f.ws 1 (BitVec.ofNat 64 (movedAt cu p % 2 ^ 32 + total * 2 ^ 32)) c
def execSpos (f : MX) (s : State) := laneStep s f.pr (sposBody f)

def sfillBody (f : MX) (cu : Cursor) (c : Core) : LM Core := do
  need cu (decide (f.fn.toNat < 8) && f.bs = 0 && f.ix = 0 && f.ws = 0)
  let (v, c) ← resolveS cu f.dt c
  match FMap.find c.arch.ports f.fn.toNat with
  | none => illegal cu 3
  | some _ => .ok (emit cu 1 (.port f.fn.toNat (.fill (v.setWidth 32))) c)
def execSfill (f : MX) (s : State) := laneStep s f.pr (sfillBody f)

/-- tfcfg (R373): FN[0] the port, FN[1] disable. -/
def tfcfgBody (f : MX) (cu : Cursor) (c : Core) : LM Core := do
  need cu (decide (f.fn.toNat < 4) && f.bs = 0 && f.ix = 0 && f.ws = 0)
  if f.fn.toNat ≥ 2 then do
    need cu (f.dt = 0)
    .ok (emit cu 1 (.tfcfg (f.fn.toNat % 2) none) c)
  else do
    let (v, c) ← resolveV cu f.dt c
    let img : BitVec 768 := v.setWidth 768
    need cu (patOk c true img)
    if patPartial c img then .error (.trap (Trap.core 52 (patSlot img) cu.lane))
    else .ok (emit cu 1 (.tfcfg (f.fn.toNat % 2) (some img)) c)
def execTfcfg (f : MX) (s : State) := laneStep s f.pr (tfcfgBody f)

/-- cbind and cunbind (R374): legal only in a checkpoint bundle; binding clears the channel's bit in BRK. -/
def cbindBody (f : MX) (cu : Cursor) (c : Core) : LM Core := do
  need cu (decide (f.fn.toNat < 4) && f.bs = 0 && f.ix = 0 && f.ws = 0 && cu.ckpt)
  let (v, c) ← resolveS cu f.dt c
  need cu (decide (v.toNat < 2 ^ 26))
  let n := f.fn.toNat
  let b : ChanBind := ⟨v.toNat % 4096, v.getLsbD 12, v.toNat / 2 ^ 13 % 4096, v.getLsbD 25, false, false⟩
  .ok { c with arch := { c.arch with chans := FMap.put c.arch.chans n b, brk := c.arch.brk &&& ~~~((1 : BitVec 4) <<< n) } }
def execCbind (f : MX) (s : State) := laneStep s f.pr (cbindBody f)
def cunbindBody (f : MX) (cu : Cursor) (c : Core) : LM Core := do
  need cu (decide (f.fn.toNat < 4) && f.bs = 0 && f.ix = 0 && f.dt = 0 && f.ws = 0 && cu.ckpt)
  .ok { c with arch := { c.arch with chans := FMap.erase c.arch.chans f.fn.toNat } }
def execCunbind (f : MX) (s : State) := laneStep s f.pr (cunbindBody f)

end Sys2Proof.Machine
end

