-- ==== Sys2Proof/Machine/Shuttle.lean ====
section
/-! DEFINITION. Lane operations that hand work to the Shuttle and the Vent engines, and the fences (R229 to R232, R375 to R395):
posting at issue. What the engines do with a command stands in ShuttleRun.lean and Vent.lean. -/
namespace Sys2Proof.Machine

/-! ### Command records (Tables 16.2, 16.3) -/

/-- Word w of a record. -/
def recWord (g : BitVec 2432) (w : Nat) : Word := g.extractLsb' (64 * w) 64
def cpSk (g : BitVec 2432) : Nat := (g.extractLsb' 0 2).toNat
def cpDk (g : BitVec 2432) : Nat := (g.extractLsb' 2 2).toNat
def cpNdm1 (g : BitVec 2432) : Nat := (g.extractLsb' 4 3).toNat
/-- Granule bytes, 2^ESZ. -/
def cpGran (g : BitVec 2432) : Nat := 2 ^ (g.extractLsb' 7 2).toNat
def cpNote (g : BitVec 2432) : Bool := g.getLsbD 9
def cpScope (g : BitVec 2432) : Nat := (g.extractLsb' 10 3).toNat
def cpX (g : BitVec 2432) (dst : Bool) (m : Nat) : Nat := (g.extractLsb' ((if dst then 768 else 512) + 32 * m) 32).toNat
def cpCount (g : BitVec 2432) (j : Nat) : Nat := (g.extractLsb' (1024 + 32 * j) 32).toNat
def cpStr (g : BitVec 2432) (dst : Bool) (j : Nat) : Int := (recWord g ((if dst then 28 else 20) + j)).toInt
def cpDim (g : BitVec 2432) (dst : Bool) (j : Nat) : Nat := (g.extractLsb' ((if dst then 2368 else 2304) + 3 * j) 3).toNat
def cpBase (g : BitVec 2432) (dst : Bool) : Word := recWord g (if dst then 2 else 1)
def cpKind (g : BitVec 2432) (dst : Bool) : Nat := if dst then cpDk g else cpSk g
/-- Granules of a command. -/
def cpTotal (g : BitVec 2432) : Nat := ((List.range 8).map (cpCount g)).prod

/-- One side of a copy record (R381). -/
def cpSideOk (c : Core) (g : BitVec 2432) (dst : Bool) : Bool :=
  let k := cpKind g dst
  let gran := cpGran g
  if k = 2 then
    match FMap.find c.arch.slots (cpBase g dst).toNat with
    | none => false
    | some d => decide ((cpBase g dst).toNat < 32) && fmtIsByte (slotFmt d) && (gran * 8 == fmtWidth (slotFmt d)) &&
        ((List.range 8).all fun j => if j ≤ cpNdm1 g then decide (cpDim g dst j < dRank d) else cpDim g dst j == 0)
  else ((cpBase g dst).toNat % gran == 0) && ((List.range 8).all fun j => cpStr g dst j % gran == 0)

/-- A valid copy or fill record (R381). -/
def cpOk (c : Core) (fill : Bool) (g : BitVec 2432) : Bool :=
  (g.extractLsb' 13 51 == 0) && decide (cpScope g ≤ 4) && decide (cpSk g ≠ 3) && decide (cpDk g ≠ 3) &&
  (g.extractLsb' 248 8 == 0) && (g.extractLsb' 320 192 == 0) && (g.extractLsb' 2328 40 == 0) && (g.extractLsb' 2392 40 == 0) &&
  ((recWord g 3).toNat % 32 == 0) && (fill || recWord g 4 == 0) &&
  ((List.range 8).all fun j => decide (1 ≤ cpCount g j) && (decide (j ≤ cpNdm1 g) || cpCount g j == 1)) &&
  decide (cpTotal g ≤ 2 ^ 32) && cpSideOk c g true &&
  (if fill then cpSk g == 0 && recWord g 1 == 0 && g.extractLsb' 512 256 == 0 && g.extractLsb' 1280 512 == 0
   else cpSideOk c g false)

def acAop (g : BitVec 2432) : Nat := (g.extractLsb' 64 5).toNat
def acW (g : BitVec 2432) : Bool := g.getLsbD 69
def acSpa (g : BitVec 2432) : Bool := g.getLsbD 70
def acScope (g : BitVec 2432) : Nat := (g.extractLsb' 71 3).toNat
def acOrd (g : BitVec 2432) : Nat := (g.extractLsb' 74 2).toNat
def acF (g : BitVec 2432) : Nat := (g.extractLsb' 76 6).toNat
def acNote (g : BitVec 2432) : Bool := g.getLsbD 82
def acDmax (g : BitVec 2432) : Bool := g.getLsbD 83
def acKey (g : BitVec 2432) : BitVec 128 := g.extractLsb' 320 128
def acStrm (g : BitVec 2432) : BitVec 32 := g.extractLsb' 448 32
/-- The widths an operator allows (Table 16.4). -/
def aopWOk (aop : Nat) (w : Bool) : Bool :=
  match aop with
  | 1 => true | 4 => true | 5 => true | 9 => true | 10 => true | 11 => true
  | 3 => !w | 6 => !w | 7 => !w
  | 2 => w | 8 => w | 12 => w | 13 => w | 14 => w | 15 => w
  | _ => false
def isLockOp (aop : Nat) : Bool := decide (12 ≤ aop) && decide (aop ≤ 15)

/-- A valid accumulate record (R384). -/
def acOk (ret : Bool) (g : BitVec 2432) : Bool :=
  let aop := acAop g
  (g.extractLsb' 84 44 == 0) && (g.extractLsb' 480 32 == 0) && (g.extractLsb' 312 8 == 0) && aopWOk aop (acW g) &&
  ((recWord g 0).toNat % (if acW g then 8 else 4) == 0) && decide (acScope g ≤ 4) &&
  (ret || decide (acOrd g % 2 = 0)) && ((recWord g 4).toNat % 32 == 0) &&
  (aop == 9 || recWord g 3 == 0) && (aop == 2 || acF g == 0) &&
  (aop == 8 || (!acDmax g && acKey g == 0 && acStrm g == 0)) &&
  (!isLockOp aop || (recWord g 2 == 0 && acOrd g == 0 && acScope g == 0))

/-- fx_from(x, F) with its flags (R255). -/
def fxFrom (x f : Nat) : Word × FlagBits :=
  match f32.decode x with
  | .nan => (0, flInvalid)
  | .inf n => (if n then BitVec.ofInt 64 (-(2 ^ 63)) else BitVec.ofInt 64 (2 ^ 63 - 1), flInvalid)
  | .fin n m e =>
    let v := roundInt .rne n m (e + f)
    (BitVec.ofInt 64 (sat v (-(2 ^ 63)) (2 ^ 63 - 1)), if v < -(2 ^ 63) ∨ v > 2 ^ 63 - 1 then flInvalid else 0)

/-! ### Posting (R376, R377) -/

/-- Post a command on a channel: it takes NEXTID and counts one toward the limit of 64. -/
def postCmd (cu : Cursor) (c : Core) (ch : Nat) (kind : ShKind) (img : BitVec 2432) (t q : Word) (bob : Nat)
    (fl : FlagBits) : LM (BitVec 32 × Core) :=
  if c.arch.cmds.length ≥ 64 then segLimit cu 6
  else
    let id := FMap.get 0 c.arch.nextId ch
    let slot := fun dst => if cpKind img dst = 2 then FMap.find c.arch.slots (cpBase img dst).toNat else none
    let cp := match kind with | .copy => true | .fill => true | _ => false
    let cmd : ShCmd :=
      { id := id, ch := ch, kind := kind, img := img, sslot := if cp then slot false else none, dslot := if cp then slot true else none
        t := t, teff := 0, late := false, q := q, bob := bob, seq := cu.seq, started := none, frozen := false, killed := false
        ctx := c.ctx, pos := 0, conv := none, status := 0, flags := fl, zm := false, acted := false, unacked := 0, last := none }
    .ok (id, { c with arch := { c.arch with nextId := FMap.set 0 c.arch.nextId ch (id + 1), cmds := c.arch.cmds ++ [cmd] } })

def copyBody (f : MX) (fill : Bool) (cu : Cursor) (c : Core) : LM Core := do
  need cu (decide (f.fn.toNat < 8))
  -- a destination outside 0 to 63, a channel code too, takes SUB 2 (R375; log 120)
  need cu (decide (f.dt.toNat ≤ 63))
  let img : BitVec 2432 := (readV c f.ix.toNat).setWidth 2432
  need cu (cpOk c fill img)
  let (id, c) ← postCmd cu c f.fn.toNat (if fill then .fill else .copy) img (readS c f.bs.toNat) 0 0 0
  writeS cu f.dt f.ws 1 (id.setWidth 64) c
def execCopy (f : MX) (s : State) := laneStep s f.pr (copyBody f false)
def execFill (f : MX) (s : State) := laneStep s f.pr (copyBody f true)

/-- The operand an accumulate carries: converted for FXADD (R385), with its flags. -/
def acOperand (g : BitVec 2432) : Word × FlagBits :=
  if acAop g = 2 then fxFrom ((recWord g 2).toNat % 2 ^ 32) (acF g) else (recWord g 2, 0)

def accBody (f : MX) (cu : Cursor) (c : Core) : LM Core := do
  need cu (decide (f.fn.toNat < 8) && f.dt = 0 && f.ws = 0)
  let img : BitVec 2432 := ((readV c f.ix.toNat).setWidth 512).setWidth 2432
  need cu (acOk false img)
  let (q, fl) := acOperand img
  let (_, c) ← postCmd cu c f.fn.toNat .acc img (readS c f.bs.toNat) q 0 fl
  .ok c
def execAcc (f : MX) (s : State) := laneStep s f.pr (accBody f)

/-- The acquire an accr makes at its landing: its scope, or for a lock operation that takes a lock 16 more than its operator, since the
old word decides (R386, R388, R247). -/
def accrAcq (g : BitVec 2432) : Option Nat :=
  if acAop g = 12 ∨ acAop g = 14 then some (16 + acAop g)
  else if isLockOp (acAop g) then none else if acOrd g % 2 = 1 then some (acScope g) else none

/-- accr: the old value returns through the Bobbin at the bundle's delay (R384). -/
def accrBody (f : MX) (cu : Cursor) (c : Core) : LM Core := do
  need cu (decide (f.fn.toNat < 8) && f.bs = 0)
  -- a destination outside 0 to 63, a channel code too, takes SUB 2 (R375; log 120)
  need cu (decide (f.dt.toNat ≤ 63))
  let img : BitVec 2432 := ((readV c f.ix.toNat).setWidth 512).setWidth 2432
  need cu (acOk true img)
  let (q, fl) := acOperand img
  let (bob, c) ← takeBob cu c (.accr (mapReg c.arch.rot f.dt.toNat) (accrAcq img)) f.ws 1 0 0
  let (_, c) ← postCmd cu c f.fn.toNat .accr img 0 q bob fl
  .ok c
def execAccr (f : MX) (s : State) := laneStep s f.pr (accrBody f)

/-- sigw: a record of its own makes the value and the address travel as an accumulate does (R387). -/
def sigwBody (f : MX) (cu : Cursor) (c : Core) : LM Core := do
  let scope := f.fn.toNat / 8 % 8
  need cu (decide (scope ≤ 4) && f.ws = 0)
  loadDst cu f.dt
  let a := readS c f.ix.toNat
  need cu (a.toNat % 8 == 0)
  let img : BitVec 2432 := BitVec.ofNat 2432 (a.toNat + (readS c f.dt.toNat).toNat * 2 ^ 128)
  let (_, c) ← postCmd cu c (f.fn.toNat % 8) (.sigw scope (f.fn.getLsbD 6)) img (readS c f.bs.toNat) (readS c f.dt.toNat) 0 0
  .ok c
def execSigw (f : MX) (s : State) := laneStep s f.pr (sigwBody f)

/-! ### CHDONE and volatile reads (R316, R378, R379) -/

/-- Serial order of 32-bit identifiers. -/
def serialLt (a b : BitVec 32) : Bool := decide (0 < (b - a).toNat) && decide ((b - a).toNat < 2 ^ 31)

/-- CHDONE of channel c: the least incomplete committed ID, else NEXTID as it stood at the last commit. -/
def chdoneOf (c : Core) (ch : Nat) : BitVec 32 :=
  (c.shq.filter fun x => x.ch == ch).foldl (fun m x => if serialLt x.id m then x.id else m) (FMap.get 0 c.idCommit ch)

/-- A volatile read: in the second run of a rerun pair the value of the same read of the first run (R316). -/
def volatile (c : Core) (v : Word) : Word × Core :=
  match c.rerun with
  | some r =>
    if r.run = 2 then
      (match c.vols with | x :: t => (x, { c with vols := t }) | [] => (v, c))
    else (v, { c with rerun := some { r with volA := r.volA ++ [v] } })
  | none => (v, c)

def chdoneBody (f : MX) (cu : Cursor) (c : Core) : LM Core := do
  need cu (decide (f.fn.toNat < 16) && f.bs = 0 && f.ix = 0)
  -- a destination outside 0 to 63, a channel code too, takes SUB 2 (R375; log 120)
  need cu (decide (f.dt.toNat ≤ 63))
  let ch := f.fn.toNat % 8
  let (v, c) := volatile c ((if f.fn.getLsbD 3 then FMap.get 0 c.arch.nextId ch else chdoneOf c ch).setWidth 64)
  writeS cu f.dt f.ws 1 v c
def execChdone (f : MX) (s : State) := laneStep s f.pr (chdoneBody f)

/-! ### Vent posts (R390, R391, R394, R395) -/

def vtV (g : BitVec 1024) : Bool := g.getLsbD 0
def vtGroup (g : BitVec 1024) : Nat := (g.extractLsb' 1 12).toNat
def vtOper (g : BitVec 1024) : Nat := (g.extractLsb' 13 3).toNat
def vtEty (g : BitVec 1024) : Nat := (g.extractLsb' 16 4).toNat
def vtF (g : BitVec 1024) : Nat := (g.extractLsb' 20 6).toNat
def vtRing (g : BitVec 1024) : Bool := g.getLsbD 26
def vtNexp (g : BitVec 1024) : Nat := (g.extractLsb' 27 6).toNat
def vtDmax (g : BitVec 1024) : Bool := g.getLsbD 33
def vtSide (g : BitVec 1024) : Bool := g.getLsbD 34
def vtFin (g : BitVec 1024) : Bool := g.getLsbD 35
def vtPeers (g : BitVec 1024) : BitVec 32 := g.extractLsb' 64 32
def vtRdie (g : BitVec 1024) (i : Nat) : Nat := (g.extractLsb' (64 + 5 * i) 5).toNat
def vtRlen (g : BitVec 1024) : Nat := (g.extractLsb' 104 3).toNat + 1
def vtSrc (g : BitVec 1024) : Nat := (g.extractLsb' 128 64).toNat
def vtLen (g : BitVec 1024) : Nat := (g.extractLsb' 192 17).toNat
def vtCirc (g : BitVec 1024) : Nat := (g.extractLsb' 209 12).toNat
def vtCtx (g : BitVec 1024) : Nat := (g.extractLsb' 221 9).toNat
def vtRspad (g : BitVec 1024) : Nat := (g.extractLsb' 256 64).toNat
def vtRva (g : BitVec 1024) : Nat := (g.extractLsb' 320 56).toNat
def vtFlag (g : BitVec 1024) : Nat := (g.extractLsb' 384 56).toNat
def vtSinst (g : BitVec 1024) : Nat := (g.extractLsb' 448 32).toNat
def vtRinst (g : BitVec 1024) : Nat := (g.extractLsb' 480 32).toNat
def vtKey (g : BitVec 1024) : BitVec 128 := g.extractLsb' 576 128
def vtStrm (g : BitVec 1024) : Nat := (g.extractLsb' 704 32).toNat
def vtNode (g : BitVec 1024) : Nat := (g.extractLsb' 736 32).toNat
/-- Replace n bits of an entry. -/
def vtSet (g : BitVec 1024) (p n v : Nat) : BitVec 1024 :=
  (g &&& ~~~((BitVec.ofNat 1024 (2 ^ n - 1)) <<< p)) ||| ((BitVec.ofNat 1024 (v % 2 ^ n)) <<< p)
/-- Dies of a ring, in order. -/
def vtRing8 (g : BitVec 1024) : List Nat := (List.range (vtRlen g)).map (vtRdie g)
/-- Element bytes a contribution is applied with: 4, or 2 for bf16; 8 for FXSUM, DRAW and COPY. -/
def vtElem (g : BitVec 1024) : Nat := if vtOper g ≤ 2 then (if vtEty g = 8 then 2 else 4) else 8

/-- A valid entry image for a die, the domain dies being those below `dom` that are present (Table 16.8, R390). -/
def vtOk (die : Nat) (present : Nat → Bool) (g : BitVec 1024) : Bool :=
  if ¬ vtV g then g == 0
  else
    let ety := vtEty g
    (g.extractLsb' 36 28 == 0) && (g.extractLsb' 230 26 == 0) && (g.extractLsb' 376 8 == 0) && (g.extractLsb' 440 8 == 0) &&
    (g.extractLsb' 512 64 == 0) && (g.extractLsb' 768 256 == 0) &&
    (match vtOper g with
      | 0 => ety == 4 || ety == 6 || ety == 8
      | 1 => ety == 4 || ety == 6 | 2 => ety == 4 || ety == 6
      | 3 => ety == 0 | 4 => ety == 6 | 5 => ety == 0 | _ => false) &&
    decide (1 ≤ vtNexp g) && decide (vtNexp g ≤ 32) && (vtOper g != 3 || vtNexp g == 2) &&
    decide (8 ≤ vtLen g) && decide (vtLen g ≤ 65536) && (vtLen g % 8 == 0) && (vtOper g != 4 || decide (vtLen g ≤ 32768)) &&
    (decide (vtOper g > 2) || vtLen g % vtElem g == 0) &&
    (if vtRing g then
      (g.extractLsb' 107 21 == 0) && (vtRing8 g).contains die && (vtRing8 g).all present
     else (g.extractLsb' 96 32 == 0) && ((List.range 32).all fun j => !(vtPeers g).getLsbD j || present j))


def postReq (p : Posted) (c : Core) : Core := { c with arch := { c.arch with posted := c.arch.posted ++ [p] } }

def ventsetBody (f : MX) (s : State) (cu : Cursor) (c : Core) : LM Core := do
  need cu (f.dt = 0 && f.fn = 0 && f.ws = 0)
  let i := (readS c f.bs.toNat).toNat
  let img : BitVec 1024 := (readV c f.ix.toNat).setWidth 1024
  need cu (decide (i < 1024) && vtOk (s.dieBase + coreDie cu) (diePresent s) img)
  .ok (postReq (.vset i img) c)
def execVentset (f : MX) (s : State) := laneStep s f.pr (ventsetBody f s)
def ventrdyBody (f : MX) (cu : Cursor) (c : Core) : LM Core := do
  need cu (f.dt = 0 && f.fn = 0 && f.ix = 0 && f.ws = 0)
  let i := (readS c f.bs.toNat).toNat
  need cu (decide (i < 1024))
  .ok (postReq (.vready i) c)
def execVentrdy (f : MX) (s : State) := laneStep s f.pr (ventrdyBody f)
def ventgrpBody (f : MX) (cu : Cursor) (c : Core) : LM Core := do
  need cu (f.fn = 0 && f.ix = 0 && f.ws = 0)
  loadDst cu f.dt
  let g := (readS c f.dt.toNat).toNat
  need cu (decide (g < 2 ^ 13) && decide (g % 4096 ≠ 0))
  .ok (postReq (.vgroup (g % 4096) (g / 4096 = 1) ((readS c f.bs.toNat).setWidth 32)) c)
def execVentgrp (f : MX) (s : State) := laneStep s f.pr (ventgrpBody f)
def collmodeBody (f : MX) (cu : Cursor) (c : Core) : LM Core := do
  need cu (f.dt = 0 && f.fn = 0 && f.ix = 0 && f.ws = 0)
  let m := (readS c f.bs.toNat).toNat
  need cu (decide (m < 2))
  .ok (postReq (.collmode (m = 1)) c)
def execCollmode (f : MX) (s : State) := laneStep s f.pr (collmodeBody f)

/-! ### Fences (R229 to R232, R396) -/

def addWait (w : Wait) (c : Core) : Core := { c with waits := c.waits ++ [w] }
def fenceBody (f : MX) (cu : Cursor) (c : Core) : LM Core := do
  need cu (cu.ckpt && f.dt = 0 && f.bs = 0 && f.ix = 0 && decide (f.fn.toNat ≤ 4) && f.ws = 0)
  .ok (addWait (.fence f.fn.toNat) c)
def execFence (f : MX) (s : State) := laneStep s f.pr (fenceBody f)
def fencexBody (f : MX) (cu : Cursor) (c : Core) : LM Core := do
  let p := f.fn.toNat / 8 % 8
  let q := f.ix.toNat
  need cu (cu.ckpt && f.dt = 0 && f.bs = 0 && decide (f.fn.toNat < 64) && decide (f.fn.toNat % 8 ≤ 4) && decide (p ≠ 0) &&
    decide (0 < q) && decide (q < 8) && f.ws = 0)
  .ok (addWait (.fencex (f.fn.toNat % 8) p q) c)
def execFencex (f : MX) (s : State) := laneStep s f.pr (fencexBody f)
def flushBody (f : MX) (cu : Cursor) (c : Core) : LM Core := do
  need cu (cu.ckpt && f.dt = 0 && f.bs = 0 && f.ix = 0 && f.fn = 0 && f.ws = 0)
  .ok (addWait .flush c)
def execFlush (f : MX) (s : State) := laneStep s f.pr (flushBody f)

end Sys2Proof.Machine
end

