-- ==== Sys2Proof/Machine/Csr.lean ====
section
/-! DEFINITION. Control and status registers (R154, R156, R181, R189, R192, R246, R266, R315, R316), the MACC limit (R13, R14, R19,
R21), slot-table loads by a core (R317). -/
namespace Sys2Proof.Machine

/-! ### Reading and writing a CSR (Table 13.4) -/

def csrUictl (a : Arch) : Word :=
  BitVec.ofNat 64 ((if a.uiEn then 1 else 0) + (if a.uiActive then 2 else 0) + a.uiPend.toNat * 2 ^ 8)
def csrTfstat (a : Arch) : Word :=
  BitVec.ofNat 64 (a.tfNref.toNat + (if a.tfWay then 2 ^ 32 else 0) + (if a.tfQ then 2 ^ 33 else 0))
def csrLoopstat (l : List LoopEntry) : Word :=
  BitVec.ofNat 64 ((match l with | e :: _ => e.i % 2 ^ 33 | [] => 0) + l.length * 2 ^ 33)
/-- Logical order of the stage predicates under ROT (Table 13.7). -/
def csrGreg (a : Arch) : Word :=
  BitVec.ofNat 64 ((List.range 32).foldl (fun v i => if a.getG (mapG a.rot i) then v + 2 ^ i else v) 0)
/-- A logical image to physical order. -/
def gregPhys (rot : BitVec 5) (x : Word) : BitVec 32 :=
  BitVec.ofNat 32 ((List.range 32).foldl (fun v i => if x.getLsbD i then v + 2 ^ mapG rot i else v) 0)
/-- WSCAL (Table 8.5). -/
def wscal : Word := BitVec.ofNat 64 (0x8000 + 0x200 * 2 ^ 16 + 0x1000 * 2 ^ 26 + 8 * 2 ^ 42)

/-- The value of CSR n at issue; none when Table 13.4 does not list it. -/
def csrValue (s : State) (cu : Cursor) (c : Core) (n : Nat) : Option Word :=
  let a := c.arch
  if n = 0 then some a.ctk
  else if n = 1 then some (BitVec.ofNat 64 cu.gtc)
  else if n = 2 then some (BitVec.ofNat 64 (cu.core + 64 * s.dieBase))
  else if n = 3 then some (if c.late then 1 else 0)
  else if n = 4 then some (csrLoopstat (loopsAt cu c))
  else if n = 8 then some (a.rot.setWidth 64)
  else if n = 0x10 then some (csrUictl a)
  else if n = 0x11 then some (a.uiVec.setWidth 64)
  else if n = 0x12 then some (a.uiPc.setWidth 64)
  else if n = 0x13 then some (a.uiRot.setWidth 64)
  else if n = 0x18 then some (BitVec.ofNat 64 (a.ovr.toNat + a.brk.toNat * 256))
  else if n = 0x19 then some (csrTfstat a)
  else if n = 0x1A then some wscal
  else if 0x20 ≤ n ∧ n ≤ 0x2F then some ((FMap.get 0 a.spfmt (n - 0x20)).setWidth 64)
  else if 0x30 ≤ n ∧ n ≤ 0x3F then some ((a.vxf >>> (64 * (n - 0x30))).setWidth 64)
  else if n = 0x40 then some ((vxfAny a.vxf).setWidth 64)
  else if n = 0x41 then some (c.aflags.setWidth 64)
  else if n = 0x42 then some ((s.die (cu.core / 64)).daflags.setWidth 64)
  else if 0x48 ≤ n ∧ n ≤ 0x4F then some (FMap.get 0 a.jrec (n - 0x48))
  else if n = 0x50 then some (csrGreg a)
  else none

/-- The CSRs on which csrs and csrc are legal (Table 13.4). -/
def csrRw (n : Nat) : Bool := n == 8 || n == 0x11 || (decide (0x20 ≤ n) && decide (n ≤ 0x2F)) || n == 0x50
/-- The volatile reads of R316. -/
def csrVolatile (n : Nat) : Bool := n == 0 || n == 1 || n == 0x41 || n == 0x42

/-- Effect of a write at the end of its tick, by the access code of each field (Table 0.2). -/
def applyCsr (a : Arch) (n : Nat) (x : Word) : Arch :=
  if n = 8 then { a with rot := x.setWidth 5 }
  else if n = 0x10 then { a with uiEn := x.getLsbD 0, uiPend := a.uiPend &&& ~~~(x.extractLsb' 8 8) }
  else if n = 0x11 then { a with uiVec := x.setWidth 16 }
  else if n = 0x18 then { a with ovr := a.ovr &&& ~~~(x.setWidth 8) }
  else if n = 0x19 then { a with tfNref := a.tfNref &&& ~~~(x.setWidth 32), tfWay := a.tfWay || x.getLsbD 32, tfQ := a.tfQ || x.getLsbD 33 }
  else if 0x20 ≤ n ∧ n ≤ 0x2F then { a with spfmt := FMap.set 0 a.spfmt (n - 0x20) (x.setWidth 6) }
  else if 0x30 ≤ n ∧ n ≤ 0x3F then { a with vxf := a.vxf &&& ~~~(x.setWidth 1024 <<< (64 * (n - 0x30))) }
  else a

/-- Queue a write: AFLAGS and DAFLAGS are cleared at commit, GREG sets all predicates, everything else at the end of the tick. -/
def csrWrite (cu : Cursor) (n : Nat) (x : Word) (c : Core) : Core :=
  if n = 0x41 then postReq (.aflags (x.setWidth 5)) c
  else if n = 0x42 then postReq (.daflags (x.setWidth 5)) c
  else if n = 0x50 then emit cu 1 (.gall (gregPhys c.arch.rot x)) c
  else emit cu 1 (.csr n x) c

/-- The old value of the CSR an SI operation names, read as R316 says. -/
def csrOld (f : SI) (s : State) (cu : Cursor) (c : Core) : LM (Nat × Word × Core) :=
  let n := f.imm.toNat
  if n ≥ 1024 then illegal cu 2
  else match csrValue s cu c n with
    | none => illegal cu 2
    | some v => if csrVolatile n then let r := volatile c v; .ok (n, r.1, r.2) else .ok (n, v, c)

/-- A write of a reserved FMT takes SUB 2 (R181). -/
def csrFmtOk (n : Nat) (x : Word) : Bool := !(decide (0x20 ≤ n) && decide (n ≤ 0x2F)) || decide (x.toNat % 16 < 10)

def csrrBody (f : SI) (s : State) (cu : Cursor) (c : Core) : LM Core := do
  need cu (f.sa = 0)
  let (_, v, c) ← csrOld f s cu c
  writeS cu f.dst f.ws 1 v c
def execCsrr (f : SI) (s : State) := laneStep s f.pr (csrrBody f s)

def csrUpdate (f : SI) (s : State) (rwOnly : Bool) (new : Word → Word → Word) (cu : Cursor) (c : Core) : LM Core := do
  let (n, old, c) ← csrOld f s cu c
  need cu (!rwOnly || csrRw n)
  let (x, c) ← resolveS cu f.sa c
  need cu (csrFmtOk n (new old x))
  writeS cu f.dst f.ws 1 old (csrWrite cu n (new old x) c)
def execCsrw (f : SI) (s : State) := laneStep s f.pr (csrUpdate f s false fun _ x => x)
def execCsrs (f : SI) (s : State) := laneStep s f.pr (csrUpdate f s true fun old x => old ||| x)
def execCsrc (f : SI) (s : State) := laneStep s f.pr (csrUpdate f s true fun old x => old &&& ~~~x)

/-! ### The MACC limit (R13, R19, R21) -/

/-- Beats and power cap of a mode (Table 1.2). -/
def modeBeats (m : Nat) : Nat := match m with | 0 => 0 | 1 => 1024 | 2 => 2457 | _ => 4096
def modeCap (m : Nat) : Nat := match m with | 0 => 250 | 1 => 2000 | 2 => 2800 | 3 => 3200 | _ => 3600
/-- Beats per core and window in force. -/
def maccLimit (m : Module) : Nat :=
  let md := m.active.toNat
  let cap := modeCap md
  let w := m.actCap.toNat
  let l := if w = 0 ∨ w ≥ cap then modeBeats md else max 256 (modeBeats md * w / cap)
  if m.limit then min l 1024 else l
def execMacc (f : XT) (s : State) := laneStep s f.pr (maccBody f (maccLimit s.mod))

/-! ### Slot-table loads (R45, R46, R98, R317) -/

/-- Entries of a 4 096-byte image. -/
def slotImage (v : Nat) : FMap (BitVec 128) :=
  (List.range 256).foldl (fun m i => FMap.set 0 m i (BitVec.ofNat 128 (v / 2 ^ (128 * i)))) []

/-- Is a target unit present on local die d: routers, link ends, and the bridge ends of the die's place in the grid (R10)? -/
def unitExists (d unit : Nat) : Bool :=
  decide (unit < 56) || (unit == 56 && decide (d % 4 ≠ 0)) || (unit == 57 && decide (d % 4 ≠ 3)) || unit == 58

/-- Does a domain die lie in the launch of core i? -/
def inLaunch (s : State) (i j : Nat) : Bool :=
  match s.launch (s.core i).launch with | some l => l.dies.contains j | none => false

/-- A lane operation that also acts outside its core. -/
def laneStepS (s : State) (pr : BitVec 6) (body : Cursor → Core → LM State) : Host.Outcome State Fault Refusal :=
  let c := s.core s.cur.core
  match stagePred c pr with
  | none => .next (s.setCore s.cur.core (takeTrap s.cur (Trap.illegal 2 s.cur.lane) c))
  | some false => .next s
  | some true =>
    match body s.cur c with
    | .ok s' => .next s'
    | .error (.trap t) => .next (s.setCore s.cur.core (takeTrap s.cur t c))
    | .error e => .next (s.setCore s.cur.core { c with stalled := some e })

/-- slotld: reads the image at issue, sends the load, and holds the core until the target answers. -/
def slotldBody (f : SC) (s : State) (cu : Cursor) (c : Core) : LM State := do
  need cu (cu.ckpt && f.fn = 0 && decide (f.tgt.toNat < 2 ^ 14) && decide (f.tgt.toNat / 128 < 64))
  let (v, c) ← resolveS cu f.sa c
  let (t, c) ← resolveS cu (f.tgt.setWidth 7) c
  let unit := v.toNat / 32 % 64
  need cu (!v.getLsbD 11 && decide (unit ≤ 58))
  let va := v.toNat / 4096 * 4096
  let m := mUser.by 0 (cu.core + 64 * s.dieBase) (s.dieBase + cu.core / 64) (BitVec.ofNat 64 cu.pos)
  if va ≥ 2 ^ 56 then addrRange cu (BitVec.ofNat 64 va) false
  -- the lane waits for a way to the image, a refreshing bank, and the core's own earlier writes to it (R42, R191, R221)
  else if vaHeld s cu.core c.ctx va 4096 m then .error .tile
  else match vaRead s cu.core c.ctx va 4096 m with
    | .error e => .error (.trap ⟨e.code, 0, cu.lane, e.lvl, BitVec.ofNat 64 e.va, false, e.e⟩)
    | .ok (img, s) =>
      let j := v.toNat % 32
      let dst := mapReg c.arch.rot (f.tgt.toNat / 128)
      let there : Bool := inLaunch s cu.core j && (match localDie s j with | some d => unitExists d unit | none => true)
      let load : SlotLoad := ⟨j, unit, slotImage img, t.toNat, .inr cu.core, if there then none else some 3⟩
      .ok { s.setCore cu.core (addWait (.slotld dst 0) c) with slotLoads := s.slotLoads ++ [load] }
def execSlotld (f : SC) (s : State) := laneStepS s f.pr (slotldBody f s)

end Sys2Proof.Machine
end

