-- ==== Sys2Proof/Machine/Seq.lean ====
section
/-! DEFINITION. The sequencer: fetch, issue conditions, results and landings, loop-backs (R130 to R147, R157, R286). -/
namespace Sys2Proof.Machine

/-! ### Groups -/

/-- Sequence number of the next part of a group. -/
def Arch.next (a : Arch) (g : Grp) : Nat := match g with | .s => a.nextS | .v => a.nextV | .m => a.nextM | .x => a.nextX
/-- The group has issued its part. -/
def Arch.advance (a : Arch) (g : Grp) : Arch :=
  match g with
  | .s => { a with nextS := a.nextS + 1 } | .v => { a with nextV := a.nextV + 1 }
  | .m => { a with nextM := a.nextM + 1 } | .x => { a with nextX := a.nextX + 1 }
/-- The oldest bundle that some group has not issued. -/
def Arch.lo (a : Arch) : Nat := min (min a.nextS a.nextV) (min a.nextM a.nextX)
/-- Has every group come to bundle n? -/
def Arch.allAt (a : Arch) (n : Nat) : Bool := a.nextS == n && a.nextV == n && a.nextM == n && a.nextX == n
def Arch.fetched (a : Arch) (n : Nat) : Option Fetched := a.fq.find? fun f => f.seq == n
def grpLanes (g : Grp) : List Nat := match g with | .s => [0, 1] | .v => [2, 3, 4, 5] | .m => [6, 7] | .x => [8]
def allGrps : List Grp := [.s, .v, .m, .x]

/-! ### Fetch (R130, R131, R277) -/

/-- The sequencer's way past a bundle at `pos` of `len` positions: loop-backs are known at fetch (R132, R142). -/
def fetchPast (loops : List LoopEntry) (pos len : Nat) : List LoopEntry × Nat :=
  match loops with
  | t :: r => if t.e = pos then (if t.i + 1 < t.kn + t.dn then ({ t with i := t.i + 1 } :: r, t.s) else (r, pos + len)) else (loops, pos + len)
  | [] => ([], pos + len)

/-- A fetched bundle enters the queue; after a control transfer it issues three ticks after its fetch at the earliest (R132). -/
def enqueue (c : Core) (bits : BitVec 384) (bad : Option Nat) (len : Nat) : Core :=
  let a := c.arch
  let f : Fetched := ⟨a.fseq, a.fpos, len == 25, a.frdy, bad, bits, a.floops⟩
  let r := fetchPast a.floops a.fpos len
  { c with arch := { a with fq := a.fq ++ [f], fseq := a.fseq + 1, fpos := r.2, floops := r.1, flit := 0, fhalt := bad.isSome } }

/-- The 384 bits of the literal at a position. -/
def literalBits (code : FMap (BitVec 16)) (pos : Nat) : BitVec 384 :=
  BitVec.ofNat 384 ((List.range 24).foldl (fun v k => v + (FMap.get 0 code (pos + 1 + k)).toNat * 2 ^ (16 * k)) 0)

/-- Read one code index. -/
def fetchIndex (c : Core) : Core :=
  let a := c.arch
  if a.fhalt ∨ a.fseq > a.lo + 32 then c
  else if a.flit ≠ 0 then
    if a.flit = 24 then enqueue c (literalBits c.code a.fpos) none 25 else { c with arch := { a with flit := a.flit + 1 } }
  else if a.fpos ≥ c.coden then enqueue c 0 (some 1) 1
  else
    let i := (FMap.get 0 c.code a.fpos).toNat
    if i < c.dictn then enqueue c (FMap.get 0 c.dict i) none 1
    else if i < 0x2000 then enqueue c 0 (some 2) 1
    else if i ≠ 0xFFFF then enqueue c 0 (some 0) 1
    else if a.fpos + 24 ≥ c.coden then enqueue c 0 (some 1) 1
    else { c with arch := { a with flit := 1 } }

/-- n indices. -/
def fetchN : Nat → Core → Core
  | 0, c => c
  | n + 1, c => fetchN n (fetchIndex c)

def execBundleFetch (core : Nat) (s : State) : Host.Outcome State Fault Refusal := .next (s.setCore core (fetchN 4 (s.core core)))

/-- Start fetching at a position: everything fetched is discarded and its numbers are given again (R131). -/
def redirect (a : Arch) (n pos : Nat) : Arch :=
  { a with fq := a.fq.filter fun f => decide (f.seq < n), fseq := n, fpos := pos, flit := 0, fhalt := false, frdy := a.tick + 3, floops := a.loops }

/-! ### Issue conditions (R132, R134, R157) -/

/-- Does a bundle hold a control operation in S0? -/
def isCtl (f : Fetched) : Bool :=
  let op := (f.bits.extractLsb' 24 8).toNat
  f.bad.isNone && decide (0xC0 ≤ op) && decide (op ≤ 0xCE) && op != 0xC6 && op != 0xC7
def isCkpt (f : Fetched) : Bool := f.bad.isNone && bundleCkpt f.bits
/-- Does S0 of the 384 bits hold an EXIT, EXITAB, JOIN or UIRET, and which stage predicate gates it? -/
def endField (bits : BitVec 384) : Option (BitVec 6) :=
  let op := (bits.extractLsb' 24 8).toNat
  if op = 0xC9 ∨ op = 0xCA ∨ op = 0xCB ∨ op = 0xCD then some (bits.extractLsb' 32 6) else none
/-- May a bundle act as a checkpoint bundle by its S0 operation? Its predicate is read when every bundle before it has issued (R157). -/
def mayEnd (f : Fetched) : Bool := f.bad.isNone && (endField f.bits).isSome
/-- Does a bundle end a rotating loop? -/
def endsRot (f : Fetched) : Bool := match f.loops with | t :: _ => t.rt && t.e == f.pos | [] => false
/-- Does a bundle act as a sync bundle? -/
def isSync (f : Fetched) : Bool := isCkpt f || endsRot f || (f.bad.isNone && bundleSync f.bits)

/-- Is an EXIT, EXITAB, JOIN or UIRET known not to act as a checkpoint bundle: S has issued it, or stands at it and its predicate reads 0?
Before S comes to it nothing tells (log 107). -/
def endIdle (c : Core) (f : Fetched) : Bool :=
  decide (c.arch.nextS > f.seq) ||
    (c.arch.nextS == f.seq && (match endField f.bits with | some pr => stagePred c pr == some false | none => true))

/-- R134 for one group, but for stalls. -/
def groupMay (c : Core) (g : Grp) : Bool :=
  let a := c.arch
  let n := a.next g
  let lo := a.lo
  match a.fetched n with
  | none => false
  | some f =>
    decide (f.ready ≤ a.tick) && decide (n < lo + 16) &&
    (a.fq.all fun k => decide (k.seq ≥ n) || (!((isSync k || (k.seq == a.segK && a.segCk)) && decide (k.seq ≥ lo)) && !(isCtl k && decide (a.nextS ≤ k.seq)))) &&
    (!isCkpt f || decide (n ≤ a.segK)) && (!mayEnd f || decide (n ≤ lo) || endIdle c f)

/-- Discard what was fetched beyond bundle k when a control operation of S takes effect (R131, R132). -/
def haltAfter (a : Arch) : Arch :=
  match a.ctl with
  | some (k, _) => { a with fq := a.fq.filter fun f => decide (f.seq ≤ k), fhalt := true }
  | none => a

/-! ### Results (R135, R138) -/

/-- CRC-64, ECMA-182 polynomial, one bit at a time over n bits of v. -/
def crcBits (crc : BitVec 64) (v : Nat) : Nat → BitVec 64
  | 0 => crc
  | n + 1 =>
    let bit : Bool := crc.getLsbD 63 != decide (v / 2 ^ n % 2 = 1)
    crcBits ((crc <<< 1) ^^^ (if bit then 0x42F0E1EBA9EA3693#64 else 0)) v n
def crcNat (crc : BitVec 64) (v n : Nat) : BitVec 64 := crcBits crc v n

/-- The bytes that a scratchpad write changes, the others 0. -/
def spadPart (p : Nat × Nat × Nat × Nat) : Nat :=
  p.2.2.2 % 256 ^ p.2.1 &&& packElems 8 (fun i => if p.2.2.1.testBit i then 255 else 0) p.2.1
/-- What a result adds to the CRC of a run of a rerun pair (R169): register file, number, bits, how many. -/
def effWord : Eff → Option (Nat × Nat × Nat × Nat)
  | .s r v => some (1, r, v.toNat, 64) | .v r v m => some (2, r, (v &&& m).toNat, 4096) | .p i v => some (3, i, v.toNat, 1024)
  | .g r b => some (4, r, b.toNat, 1) | .gall v => some (5, 0, v.toNat, 32) | .csr n v => some (6, n, v.toNat, 64)
  | .flags fl => some (7, 0, fl.foldl (fun k f => k * 2 ^ 16 + f.1 * 2 ^ 5 + f.2.toNat) 0, 16 * fl.length)
  | .row t r _ v m _ => some (8, 256 * t + r, (v &&& m).toNat, 8192)
  | .slot n d => some (9, n, (match d with | some x => x.toNat | none => 0), 2048)
  | .spad parts => some (10, 0, parts.foldl (fun k p => k * 2 ^ 4160 + p.1 + 2 ^ 32 * (p.2.1 + 2 ^ 32 * (spadPart p))) 0, 4160 * parts.length)
  | .ecfg n g => some (11, n, g.toNat, 2048)
  | _ => none
/-- The CRC after a result, while a rerun pair runs. -/
def effCrc (c : Core) (e : Eff) : BitVec 64 :=
  match c.rerun, effWord e with
  | some _, some (f, r, v, n) => crcNat (crcNat (crcNat c.rcrc f 8) r 16) v n
  | _, _ => c.rcrc
/-- The rows a result writes, for the error handling of R168. -/
def effRows : Eff → List (Nat × Nat)
  | .row t r _ _ _ _ => [(t, r)] | .beat t _ _ _ _ _ _ _ => [(t, 256)] | .mzero t => [(t, 256)] | _ => []

/-- Apply one result to its core; latch writes of results from before the checkpoint are dropped (R138). -/
def applyEff (p : Pend) (c : Core) : Core :=
  let c := { c with rcrc := effCrc c p.eff, rowLog := effRows p.eff ++ c.rowLog }
  let a := c.arch
  let put := fun (x : Arch) => { c with arch := x }
  match p.eff with
  | .s r v => put (a.setS r v)
  | .v r v m => put (a.setV r ((a.getV r &&& ~~~m) ||| (v &&& m)))
  | .p i v => put (a.setP i v)
  | .g r b => put (a.setG r b)
  | .gall v => put { a with g := v }
  | .latch i v => if p.seq < a.segK then c else put (a.setLatch i v)
  | .flags fl => put { a with vxf := fl.foldl (fun x f => vxfOr x f.1 f.2) a.vxf }
  | .csr n v => put (applyCsr a n v)
  | .ovr n => put { a with ovr := a.ovr ||| ((1 : BitVec 8) <<< n) }
  | .spad parts => { c with spad := parts.foldl (fun m q => Memory.writeEn m q.1 q.2.1 q.2.2.1 q.2.2.2) c.spad }
  | .row t r op v m nf => applyRow c t r op v m nf
  | .beat t fm sub x y sx sy e => applyBeat c t fm sub x y sx sy e
  | .mzero t => { c with tiles := FMap.erase c.tiles t, psum := FMap.erase c.psum t, arch := { a with phase := FMap.erase a.phase t } }
  | .stage op =>
    let l0 := FMap.get StageLevel.zero a.stage 0
    match op with
    | .push x y => put { a with stage := FMap.put a.stage 0 { l0 with a := x, b := y } }
    | .scale sideB lvl v =>
      let l := FMap.get StageLevel.zero a.stage lvl
      put { a with stage := FMap.put a.stage lvl (if sideB then { l with sb := v } else { l with sa := v }) }
    | .shift =>
      put { a with stage := (List.range 4).map fun i => (i, FMap.get StageLevel.zero a.stage (if i = 0 then 3 else i - 1)) }
  | .ecfg n g => put { a with ecfg := FMap.set 0 a.ecfg n g }
  | .slot n d => put { a with slots := match d with | some x => FMap.put a.slots n x | none => FMap.erase a.slots n }
  | .port n op =>
    match op with
    | .bind g => put { a with ports := FMap.put a.ports n ⟨g, patFill g, 0, (0, 0), 0, [], []⟩ }
    | .unbind => put { a with ports := FMap.erase a.ports n }
    | .fill v => put { a with ports := match FMap.find a.ports n with | some q => FMap.put a.ports n { q with fill := v } | none => a.ports }
  | .tfcfg n g =>
    let held := match FMap.find a.tfports n with | some q => q.buf.flatMap fun e => e.pins | none => []
    { c with unpins := c.unpins ++ held
             arch := { a with tfports := match g with | some x => FMap.put a.tfports n ⟨x, 0, 0, []⟩ | none => FMap.erase a.tfports n } }
  | .loopPush e => put { a with loops := e :: a.loops }
  | .land _ _ _ => c

/-- Has the group of an item issued the bundle at which it is due? -/
def isDue (a : Arch) (p : Pend) : Bool := decide (p.due < a.next p.grp)
def isLand (p : Pend) : Bool := match p.eff with | .land _ _ _ => true | _ => false
/-- Order of writes in one tick: by producing bundle, then by lane; items of one operation keep their order (R135). -/
def pendLe (p q : Pend) : Bool := decide (p.seq < q.seq) || (p.seq == q.seq && decide (p.lane ≤ q.lane))
def insertPend (p : Pend) : List Pend → List Pend
  | [] => [p]
  | q :: t => if pendLe q p then q :: insertPend p t else p :: q :: t
def sortPend (l : List Pend) : List Pend := l.foldl (fun acc p => insertPend p acc) []
/-- Does an item set bits that software clears: VXF flags, PORTSTAT.OVR? In one tick with a CSR write it is the later (R315). -/
def isDevice (p : Pend) : Bool := match p.eff with | .flags _ => true | .ovr _ => true | _ => false
/-- The items due, in order. -/
def dueItems (a : Arch) : List Pend :=
  let l := sortPend (a.pend.filter (isDue a))
  (l.filter fun p => !isDevice p) ++ l.filter isDevice

/-- Entries a write port still holds are formed before its binding goes; which item changes a port. -/
def portOf? (p : Pend) : Option Nat :=
  match p.eff with | .port n (.bind _) => some n | .port n .unbind => some n | _ => none

/-! ### Stream ports (R149, R150, R370, R371) -/

/-- Coordinate of element i of entry k of a slot-mode pattern; a coordinate below 0 is given as one beyond every extent. -/
def patCoord (d : BitVec 2048) (fmt : Nat) (g : BitVec 768) (k i : Nat) : List Nat :=
  let (i1, i2, i3, e) := patPos fmt g k
  let step := if patT g then dRank d - 2 else dRank d - 1
  (List.range (dRank d)).map fun x =>
    let v : Int := (patX g x : Int) + (if x = step then (e * fmtEntry fmt + i : Nat) else 0) +
      (if 1 ≤ patNdm1 g ∧ patDim g 1 = x then i1 * patStride g 1 else 0) +
      (if 2 ≤ patNdm1 g ∧ patDim g 2 = x then i2 * patStride g 2 else 0) +
      (if 3 ≤ patNdm1 g ∧ patDim g 3 = x then i3 * patStride g 3 else 0)
    if v < 0 then 2 ^ 40 else v.toNat

/-- A core as a master, at the bundle it issues next. -/
def mCore (s : State) (core : Nat) : MasterT :=
  let a := (s.core core).arch
  mUser.by 0 (core + 64 * s.dieBase) (s.dieBase + core / 64) (BitVec.ofNat 64 (match a.fetched a.lo with | some f => f.pos | none => a.fpos))

/-- Slot image of a pattern. -/
def patImg (c : Core) (g : BitVec 768) : BitVec 2048 := FMap.get 0 c.arch.slots (patSlot g)

/-- A trap from a faulting access. -/
def mfTrap (lane : Nat) (wr : Bool) (e : MFault) : Trap := ⟨e.code, 0, lane, e.lvl, BitVec.ofNat 64 e.va, wr, e.e⟩

/-- Form entry k of a read pattern as memory stands; none while a tile is busy or a weight-store bank holds. An entry of an emptied slot
carries ILLEGAL_OP SUB 2, one of a partial-summed element PARTIAL_READ (R200, R207, R215), one of poisoned data POISON (R168). -/
def formRead (s : State) (core : Nat) (g : BitVec 768) (fill : BitVec 32) (k : Nat) : Option (PortEntry × State) :=
  let c := s.core core
  let fmt := patFmtOf c g
  let w := fmtWidth fmt
  let live := patLive fmt g k
  let rest : VWord := if fmtIsByte fmt then fillV w fill else 0
  if patSlotm g then
    let d := patImg c g
    let die := s.dieBase + core / 64
    if patEmpty c g then some (⟨0, some (Trap.illegal 2 0)⟩, s)
    else if patPartial c g then some (⟨0, some (Trap.core 52 (patSlot g) 0)⟩, s)
    else (List.range live).foldlM (fun (acc : PortEntry × State) i =>
      let x := patCoord d fmt g k i
      let setE := fun (v : VWord) (e : Nat) =>
        (v &&& ~~~(BitVec.ofNat 4096 (2 ^ w - 1) <<< (w * i))) ||| (BitVec.ofNat 4096 (e % 2 ^ w) <<< (w * i))
      if acc.1.fault.isSome then some acc
      else if isOut d x then some ({ acc.1 with val := setE acc.1.val fill.toNat }, acc.2)
      else if partialRead acc.2 c.ctx d x die then some ({ acc.1 with fault := some (Trap.core 52 (patSlot g) 0) }, acc.2)
      else match admitRead acc.2 c.ctx d x die with
        | .out => some acc
        | .wait => none
        | .at va =>
          if vaHeld acc.2 core c.ctx va (w / 8) (mCore s core) then none
          else if vaBad acc.2 core c.ctx va (w / 8) (mCore s core) then some ({ acc.1 with fault := some (Trap.core 53 3 0) }, acc.2)
          else match vaRead acc.2 core c.ctx va (w / 8) (mCore s core) with
          | .ok (v, s') => some ({ acc.1 with val := setE acc.1.val v }, s')
          | .error e => some ({ acc.1 with fault := some (mfTrap 0 false e) }, acc.2))
      (⟨rest, none⟩, s)
  else
    let n := live * w / 8
    let a := patAddr fmt g k
    let whole := fun (v : Nat) => (rest &&& ~~~(lowMask 1 (8 * n))) ||| BitVec.ofNat 4096 (v % 256 ^ n)
    if patSpad g then some (⟨whole (Memory.readN c.spad (a.toNat % 2 ^ 22) n), none⟩, s)
    else
      let va := (a % 2 ^ 64).toNat
      if vaHeld s core c.ctx va n (mCore s core) then none
      else if vaBad s core c.ctx va n (mCore s core) then some (⟨0, some (Trap.core 53 3 0)⟩, s)
      else match vaRead s core c.ctx va n (mCore s core) with
      | .ok (v, s') => some (⟨whole v, none⟩, s')
      | .error e => some (⟨0, some (mfTrap 0 false e)⟩, s)

/-- Does a held fence hold back later CORE-path accesses, to which the fetches of stream ports belong (R219, R229, R230)? -/
def fenced (c : Core) : Bool := c.waits.any fun w => match w with | .fence _ => true | .fencex _ _ q => q % 2 == 1 | _ => false
/-- May a read port fetch? -/
def portWants (c : Core) (n : Nat) : Bool :=
  !fenced c && match FMap.find c.arch.ports n with
  | some p => !patDir p.img && decide (p.buf.length < 8) && decide (p.moved + p.buf.length < patTotal (patFmtOf c p.img) p.img)
  | none => false

def execStreamPortFetch (core port : Nat) (s : State) : Host.Outcome State Fault Refusal :=
  let c := s.core core
  match FMap.find c.arch.ports port with
  | none => .next s
  | some p =>
    if ¬ portWants c port then .next s
    else match formRead s core p.img p.fill (p.moved + p.buf.length) with
      | none => .next s
      | some (e, s) => finish (s.setCore core (putPort (s.core core) port { p with buf := p.buf ++ [e] }))

/-- Insert a store in M-group program order. -/
def insertStore (b : BufStore) : List BufStore → List BufStore
  | [] => [b]
  | q :: t => if q.seq < b.seq ∨ (q.seq = b.seq ∧ q.lane ≤ b.lane) then q :: insertStore b t else b :: q :: t

/-- Form the writes of the oldest pushed entry of a write port: to the bank, or into the store buffer with its translations. -/
def drainEntry (s : State) (core port : Nat) (p : Port) (e : PushEntry) : State :=
  let c := s.core core
  let g := p.img
  -- a slot emptied since the push was made: the push went through its record (R200)
  let d := if patEmpty c g then e.img else patImg c g
  let fmt := if patSlotm g then slotFmt d else patFmt g
  let w := fmtWidth fmt
  let live := patLive fmt g e.idx
  let n := live * w / 8
  let c := putPort c port { p with out := p.out.drop 1 }
  if patSpad g then
    let o := (patAddr fmt g e.idx).toNat % 2 ^ 22
    let crc := if c.rerun.isSome then crcNat (crcNat c.rcrc o 32) (e.val.toNat % 256 ^ n) (8 * n) else c.rcrc
    s.setCore core { c with spad := Memory.writeN c.spad o n e.val.toNat, rcrc := crc }
  else
    let elems := if patSlotm g then
        ((List.range live).map fun i => (patCoord d fmt g e.idx i, elem w e.val.toNat i)).filter fun x => !isOut d x.1
      else []
    let parts := if patSlotm g then
        elems.flatMap fun x => (admitWrite s c.ctx d x.1 (s.dieBase + core / 64)).filterMap fun a =>
          match a with | .at va => some (va, w / 8, x.2) | _ => none
      else
        let va := (patAddr fmt g e.idx % 2 ^ 64).toNat
        (locPieces va n).map fun q => (q.1, q.2.1, e.val.toNat / 256 ^ q.2.2 % 256 ^ q.2.1)
    let cu : Cursor := ⟨core, e.lane, e.seq, e.pos, 0, false, false, s.gtc⟩
    let pages := walkPages parts
    let ids := (List.range pages.length).map fun i => c.nextAcc + i
    let c := addAccs c (pages.map fun a => mkAcc cu 0 .walk a 1 0 0 0)
    let kind := if patSlotm g then StoreKind.slot d w elems else .dev parts none
    s.setCore core { c with arch := { c.arch with stores := insertStore ⟨e.seq, e.lane, kind, ids, e.pos⟩ c.arch.stores } }

def execStreamPortDrain (core port : Nat) (s : State) : Host.Outcome State Fault Refusal :=
  match FMap.find (s.core core).arch.ports port with
  | none => .next s
  | some p => match p.out with
    | [] => .next s
    | e :: _ => .next (drainEntry s core port p e)

/-- Form every waiting entry of a port. -/
def drainAll (core port : Nat) : Nat → State → State
  | 0, s => s
  | k + 1, s =>
    match FMap.find (s.core core).arch.ports port with
    | none => s
    | some p => match p.out with | [] => s | e :: _ => drainAll core port k (drainEntry s core port p e)

/-! ### Writeback and landing (R135, R143, R145) -/

/-- Write the results due before the next landing of the tick. -/
def execResultWriteback (core : Nat) (s : State) : Host.Outcome State Fault Refusal :=
  let due := (dueItems (s.core core).arch).takeWhile fun p => !isLand p
  let s := (due.filterMap portOf?).foldl (fun s n => drainAll core n 8 s) s
  let c := s.core core
  let c := { c with arch := { c.arch with pend := c.arch.pend.filter fun p => !due.contains p } }
  .next (s.setCore core (due.foldl (fun c p => applyEff p c) c))

/-- The landed bytes: the core's own buffered bytes over the data that arrived. -/
def bobValue (b : Bob) : VWord :=
  let m : VWord := BitVec.ofNat 4096 (packElems 8 (fun k => if b.mask.getLsbD k then 255 else 0) 512)
  (b.data &&& ~~~m) ||| (b.ovl &&& m)

/-- Has a landing's data arrived by the end of the previous cycle (R146)? -/
def arrivedBy (c : Core) (g id : Nat) : Bool :=
  match c.bobs.find? fun b => b.id == id with
  | some b => b.waiting == 0 && (b.arrived == 0 || decide (b.arrived < g))
  | none => true

/-- Cursor of a pending operation, for a fault at its landing. -/
def pendCursor (core g : Nat) (p : Pend) : Cursor := ⟨core, p.lane, p.seq, p.pos, 0, false, false, g⟩

/-- Write a landed value: register unless suppressed, latch of the lane if the operation belongs to the open segment. -/
def landReg (c : Core) (p : Pend) (ws : Bool) (e : Eff) (l : LWord) : Core :=
  let c := if ws then c else applyEff { p with eff := e } c
  if p.lane ≤ 7 then applyEff { p with eff := .latch p.lane l } c else c

/-- Land one entry: the destination is written, or the refusal of R364, R367, R384 is taken (R143, R356, R364, R367, R384). -/
def landOne (c : Core) (p : Pend) (b : Bob) (dest : LandDest) (ws : Bool) : Except Trap Core :=
  let v := bobValue b
  let ill := Trap.illegal 2 p.lane
  if b.poison ≠ 0 then .error (Trap.core 53 b.poison p.lane)
  else match dest with
    | .s r n sx =>
      let x := v.toNat % 256 ^ n
      let y : Word := if sx then BitVec.ofInt 64 (toSigned (8 * n) x) else BitVec.ofNat 64 x
      .ok (landReg c p ws (.s r y) (y.setWidth 512))
    | .v r => .ok (landReg c p ws (.v r v (-1)) (v.setWidth 512))
    | .bcast r =>
      let x : VWord := BitVec.ofNat 4096 (packElems 64 (fun _ => v.toNat % 2 ^ 64) 64)
      .ok (landReg c p ws (.v r x (-1)) (x.setWidth 512))
    | .gather r m => .ok (landReg c p ws (.v r v m) ((v &&& m).setWidth 512))
    | .acq r sc =>
      let c := { c with arch := { c.arch with acqs := c.arch.acqs + 1 } }
      let c := landReg c p ws (.s r (v.setWidth 64)) (v.setWidth 512 &&& BitVec.ofNat 512 (2 ^ 64 - 1))
      .ok (if sc = 0 then c else l1Drop c)
    | .slot n dva =>
      let d : BitVec 2048 := v.setWidth 2048
      if recordOk d then .ok (applyEff { p with eff := .slot n (some (dSetWord d 15 dva.toNat)) } c) else .error ill
    | .map n nb st va =>
      let m : BitVec 512 := v.setWidth 512
      match FMap.find c.arch.slots n with
      | none => .error ill
      | some d =>
        if reshardOk d m nb.toNat st.toNat then
          let d := dSetBits (dSetWord (dSetWord d 11 nb.toNat) 12 st.toNat) 52 1 1
          let d := (d &&& ~~~(BitVec.ofNat 2048 (2 ^ 512 - 1) <<< 1536)) ||| (m.setWidth 2048 <<< 1536)
          .ok (postReq (.reshard d va.toNat) (applyEff { p with eff := .slot n (some d) } c))
        else .error ill
    | .accr r acq =>
      if c.arch.cmds.any fun x => x.bob == b.id && (match x.kind with | .accr => true | _ => false) then .error ill
      else
        let c := landReg c p ws (.s r (v.setWidth 64)) (v.setWidth 512 &&& BitVec.ofNat 512 (2 ^ 64 - 1))
        .ok (match acq with
          | some sc => if sc = 0 ∨ (sc ≥ 16 ∧ ¬ lockOk (sc - 16) (v.setWidth 64)) then c else l1Drop c
          | none => c)

/-- The trap of a master's core by a race report (R251): the report's fields. -/
def raceTrap (r : BitVec 512) : Trap := ⟨60, 0, 15, 7, r.extractLsb' 128 64, r.getLsbD 91, r.extractLsb' 192 64⟩

/-- Land the first item due, if it is a landing. -/
def execLoadLanding (core : Nat) (s : State) : Host.Outcome State Fault Refusal :=
  let c := s.core core
  match dueItems c.arch with
  | [] => .next s
  | p :: _ =>
    match p.eff with
    | .land id dest ws =>
      match c.bobs.find? fun b => b.id == id with
      | none => .next (s.setCore core { c with arch := { c.arch with pend := c.arch.pend.erase p } })
      | some b =>
        match b.race with
        | some r =>
          -- the load's segment rolls back and the core freezes with the record Sinter has written (R251)
          let c := { c with bobs := c.bobs.map fun x => if x.id = id then { x with race := none } else x }
          .next (s.setCore core (takeTrap (pendCursor core s.gtc p) (raceTrap r) c))
        | none =>
        match landOne c p b dest ws with
        | .error t => .next (s.setCore core (takeTrap (pendCursor core s.gtc p) t c))
        | .ok c =>
          .next (s.setCore core { c with bobs := c.bobs.filter fun x => x.id != id
                                         landed := if p.seq < c.arch.segK then c.landed ++ [b] else c.landed, arch := { c.arch with pend := c.arch.pend.erase p } })
    | _ => .next s

/-- Data arrives in Bobbin entries (R144 to R146). -/
def arriveOne (g : Nat) (c : Core) (t : Transit) : Core :=
  { c with bobs := c.bobs.map fun b =>
      if b.id = t.bob then
        { b with data := b.data ||| (BitVec.ofNat 4096 (t.val % 256 ^ t.n) <<< (8 * t.off)), waiting := b.waiting - 1
                 arrived := max b.arrived g, poison := max b.poison t.poison }
      else b }
def execDataArrival (core : Nat) (s : State) : Host.Outcome State Fault Refusal :=
  let c := s.core core
  let now := c.transit.filter fun t => decide (t.due ≤ s.gtc)
  .next (s.setCore core (now.foldl (arriveOne s.gtc) { c with transit := c.transit.filter fun t => decide (t.due > s.gtc) }))

/-- BOBBIN_FULL, taken in the tick after the hold began (R147). -/
def execBobbinFull (core : Nat) (s : State) : Host.Outcome State Fault Refusal :=
  let c := s.core core
  let pos := match c.arch.fetched c.arch.nextM with | some f => f.pos | none => c.arch.fpos
  let cu : Cursor := ⟨core, 15, c.arch.nextM, pos, 0, false, false, s.gtc⟩
  .next (s.setCore core (takeTrap cu (Trap.illegal 8 15) c))

/-! ### Loop-back and control transfer (R132, R142, R308) -/

/-- The loop-back step for the bundle every group has just issued. -/
def loopBackArch (a : Arch) : Arch :=
  match a.loops with
  | [] => a
  | t :: r =>
    let i := t.i + 1
    if i < t.kn + t.dn then
      let a := { a with loops := { t with i := i } :: r
                        ctl := match a.ctl with | some (k, .join d _) => some (k, .join d t.s) | x => x }
      if t.rt then
        let a := { a with rot := a.rot + 1 }
        a.setG (mapG a.rot 0) (decide (i < t.kn))
      else a
    else { a with loops := r }

/-- The bundle at the head of the fetch queue is complete. -/
def headDone (a : Arch) : Option Fetched :=
  match a.fq with | f :: _ => if f.seq < a.lo then some f else none | [] => none
def popHead (a : Arch) : Arch := { a with fq := a.fq.drop 1 }
/-- Does its completion make a loop-back? A control transfer of its own takes its place. -/
def loopsHere (a : Arch) (f : Fetched) : Bool :=
  (match a.loops with | t :: _ => t.e == f.pos | [] => false) &&
  (match a.ctl with | some (k, .jump _) => k != f.seq | some (k, .pop _) => k != f.seq | some (k, .push _ _) => k != f.seq | _ => true)

def execLoopBack (core : Nat) (s : State) : Host.Outcome State Fault Refusal :=
  let c := s.core core
  match headDone c.arch with
  | some f =>
    let a := popHead (if loopsHere c.arch f then loopBackArch c.arch else c.arch)
    -- the write of g0 is a register write of a rerun pair's run (R169)
    let k := if c.rerun.isSome ∧ a.rot ≠ c.arch.rot then crcNat (crcNat c.rcrc a.rot.toNat 5) (a.getG (mapG a.rot 0)).toNat 1 else c.rcrc
    .next (s.setCore core { c with arch := a, rcrc := k })
  | none => .next s

/-- Return from the user-level handler (R155): held writes are due as many bundles after the first as remained at entry; the handler's own
results in flight stay due as they were. -/
def leaveUi (a : Arch) : Arch :=
  let held := a.uiHeld.map fun p => { p with due := p.due - a.uiHeldAt + a.lo, seq := p.seq }
  let b := { a with ctl := none, uiActive := false, rot := a.uiRot, uiHeld := [], pend := a.pend ++ held }
  redirect b a.lo a.uiPc.toNat

/-- A branch, loop set-up, lbreak or uiret whose bundle every group has issued. -/
def takeCtl (a : Arch) : Arch :=
  match a.ctl with
  | none => a
  | some (k, x) =>
    if a.lo ≤ k then a
    else match x with
      | .jump t => redirect { a with ctl := none } (k + 1) t
      | .push t e =>
        let a := { a with ctl := none, loops := e :: a.loops }
        redirect (if e.rt then a.setG (mapG a.rot 0) true else a) (k + 1) t
      | .pop t => redirect { a with ctl := none, loops := a.loops.drop 1 } (k + 1) t
      | .uiret => leaveUi a
      | _ => a

/-- Position of the next bundle to issue when none after the completed ones is in the queue. -/
def nextFetchPos (a : Arch) : Nat := match a.fetched a.lo with | some f => f.pos | none => a.fpos
/-- The 384 bits of the bundle at a position, where the code names one. -/
def bitsAt (c : Core) (pos : Nat) : Option (BitVec 384) :=
  let i := (FMap.get 0 c.code pos).toNat
  if pos ≥ c.coden then none
  else if i < c.dictn then some (FMap.get 0 c.dict i)
  else if i = 0xFFFF ∧ pos + 24 < c.coden then some (literalBits c.code pos)
  else none
/-- Is the bundle at a position a checkpoint bundle: by its header bit, or by an EXIT, EXITAB, JOIN or UIRET whose predicate reads 1 (R157)? -/
def ckptAt (c : Core) (pos : Nat) : Bool :=
  match bitsAt c pos with
  | none => false
  | some b => bundleCkpt b || (match endField b with | some pr => stagePred c pr == some true | none => false)

/-- Is a control operation whose bundle every group has issued waiting to end the task or park it (EXIT, EXITAB, JOIN)? -/
def endCtl (a : Arch) : Bool :=
  match a.ctl with
  | some (k, .exit _ _) => decide (k < a.lo) | some (k, .exitab _ _) => decide (k < a.lo) | some (k, .join _ _) => decide (k < a.lo)
  | _ => false
/-- Do the conditions of R154 hold, every group having issued the checkpoint bundle and nothing after it? -/
def uiEnters (a : Arch) : Bool := a.uiEn && !a.uiActive && a.uiPend != 0 && a.segCk && a.allAt (a.segK + 1) && a.ctl.isNone

/-- Is the handler to be entered: a pre-emption requested meanwhile saves first (Table 7.6)? -/
def uiNow (c : Core) : Bool := c.arch.uiGo && !c.preempt
/-- Is the core at the end of its segment (R157, R158)? -/
def atBoundary (c : Core) : Bool :=
  let a := c.arch
  !c.owes && (endCtl a || (a.ctl.isNone && a.allAt a.lo && ((decide (a.lo > a.segK) && ckptAt c (nextFetchPos a)) || uiNow c)))

end Sys2Proof.Machine
end

