-- ==== Sys2Proof/Machine/Task.lean ====
section
/-! DEFINITION. Queue completions and faults, user-interrupt events, tracing, tasks and the end of a launch (R69, R86, R95, R97,
R113 to R129). -/
namespace Sys2Proof.Machine

/-! ### TLBs of the engines (R64): one per engine class and die -/

def tlbSpindle (die : Nat) : Nat := 2000 + die
def tlbCarder (die : Nat) : Nat := 2008 + die
def tlbVent (die : Nat) : Nat := 2016 + die
def tlbTrace (die : Nat) : Nat := 2024 + die
/-- A queue as a master. -/
def mQ (s : State) (q : Nat) (wh : Word) : MasterT := mQueue.by 4 q (s.dieBase + q / 8) wh

/-! ### Indivisible accumulates by engines -/

/-- May an accumulate go to host memory (R244)? -/
def hostAmo (aop w : Nat) : Bool := (aop == 1 && w == 64) || aop == 9 || aop == 10

/-- An accumulate on the unit at a VA: the old value, flags and ZM; none where host memory does not take the operator. -/
def vaAmo (s : State) (t ctx va aop w : Nat) (opa opb : Word) (m : MasterT) : Except MFault (Option Nat × State) :=
  match translate s t ctx va .amo m with
  | .fault c l e => .error ⟨c, l, e, va⟩
  | .ok ph l e =>
    let s := tlbFill s t ctx va l e
    if ph.loc = 3 ∧ ¬ hostAmo aop w then .ok (none, s)
    else if farHome s ph then
      -- a request leaves; what it returns to a master that does not wait for it is a free value (log 109)
      .ok (some (homeRead s ctx va (w / 8) ph), postXact s m ctx va (w / 8) (.amo aop w opa opb 0 0 0 false) ph false .none)
    else
      let old := homeRead s ctx va (w / 8) ph
      let r := amoNew aop w old opa opb 0 0 0 false
      let s := stickyFlags (homeWrite s ctx va (w / 8) r.1 ph) ph (if aopSticky aop then r.2.1 else 0)
      .ok (some old, numberNow (sinterBy s m ctx va ph 4) (tlbDie t) ph)

/-- Is a location on a present die other than `me`, to which an access travels as a request? -/
def awayHome (s : State) (me : Nat) (ph : Phys) : Bool := decide (ph.loc ≤ 2) && ph.die != me && diePresent s ph.die

/-- A SUM accumulate by an engine on the unit at a VA: done at once at a home on its own die; to another die a request leaves on the engine's
path, a release (R95, R96, R219, R234, R236). -/
def vaAmoOut (s : State) (mkind mid path ctx va : Nat) (opa : Word) (m : MasterT) : Except MFault (Option Nat × State) :=
  let t := tlbSpindle ((match masterCore mkind mid with | some c => c / 64 | none => mid / 8) % 8)
  match translate s t ctx va .amo m with
  | .fault c l e => .error ⟨c, l, e, va⟩
  | .ok ph l e =>
    if ¬ awayHome s (s.dieBase + (t - 2000)) ph then do
      let (v, s) ← vaAmo s t ctx va 1 64 opa 0 m
      .ok (v, bumpIval s mkind mid)
    else .ok (none, addXact (bumpIval (tlbFill s t ctx va l e) mkind mid)
      { id := 0, mkind := mkind, mid := mid, die := s.dieBase + (t - 2000), path := path, ctx := ctx, va := va, n := 8, ph := ph
        kind := .amo 1 64 opa 0 0 0 0 false, rel := some 4, acq := none, sc := 4, seq := 0, num := 0, dv := [], st := .fresh, t0 := s.gtc
        val := 0, nack := false, ret := .none, wh := 0 })

/-! ### Queue faults and completions (R68, R69, R86) -/

/-- WHERE of a packet (R86). -/
def whereOf (ring idx depth : Nat) : Word := BitVec.ofNat 64 (ring % 2 ^ 22 + idx % 65536 * 2 ^ 32 + depth % 16 * 2 ^ 48)

/-- Freeze a queue with a fault record. -/
def queueFault (s : State) (q code : Nat) (wr : Bool) (va : Nat) (pte : Word) (lvl : Nat) (wh : Word) : State :=
  let qq := s.queue q
  let s := s.setQueue q { qq with frozen := true, where_ := wh }
  writeFault s qq.qctx.toNat (portOf (q / 8)) (faultRec s.gtc code 4 q wr true qq.qctx.toNat (s.dieBase + q / 8) va pte lvl wh)

def mfQueue (s : State) (q : Nat) (wr : Bool) (e : MFault) (wh : Word) : State := queueFault s q e.code wr e.va e.e e.lvl wh

/-- A started packet is complete, with its result; the next service recognises it (R102). -/
def completePkt (s : State) (q num : Nat) (res : Option Word) : State :=
  let qq := s.queue q
  s.setQueue q { qq with out := qq.out.map fun p => if p.num = num then { p with w := .done, res := res } else p }

/-- WHERE of a started packet. -/
def pktWhere (s : State) (q num : Nat) : Word :=
  match (s.queue q).out.find? fun p => p.num == num with | some p => whereOf p.ring p.idx p.depth | none => 0

/-! ### User-interrupt descriptors (R97) -/

/-- Record an event with a value on the descriptor at va. -/
def notifyEvent (s : State) (q va : Nat) (v : Word) : Except MFault State :=
  let ctx := (s.queue q).qctx.toNat
  let t := tlbSpindle (q / 8)
  match translate s t ctx va .amo mQueue with
  | .fault c l e => .error ⟨c, l, e, va⟩
  | .ok ph l e =>
    let s := tlbFill s t ctx va l e
    let at_ := fun k => { ph with pa := ph.pa + 8 * k }
    let rd := fun k => homeRead s ctx (va + 8 * k) 8 (at_ k)
    let count := rd 1
    let first := if count = rd 2 then s.gtc else rd 4
    let m := mQ s q 0
    let put := fun (s : State) (k x : Nat) => homeWrite s ctx (va + 8 * k) 8 x (at_ k)
    let count1 := (count + 1) % 2 ^ 64
    -- a descriptor on another module's die is written by one request; what is read there is a free value (log 109)
    let s := if farHome s ph then
        postXact s m ctx va 40 (.wrm (count1 * 2 ^ 64 + v.toNat * 2 ^ 192 + first * 2 ^ 256) (2 ^ 40 - 1 - 255 - 255 * 2 ^ 16)) ph false .none
      else numberNow (put (put (put s 4 first) 1 count1) 3 v.toNat) (q / 8) ph
    let s := sinterBy (sinterBy s m ctx va (at_ 0) 7) m ctx (va + 32) (at_ 4) 7
    let d := q / 8
    let y := s.die d
    .ok (if (y.tracked ++ y.extra).any fun x => x.1 == ctx && x.2.1 == va then s
      else if y.tracked.length < 256 then s.setDie d { y with tracked := y.tracked ++ [(ctx, va, q)] }
      else s.setDie d { y with extra := y.extra ++ [(ctx, va, q)] })

/-! ### Tracing (R127 to R129) -/

/-- Is tracing on for a launch: TRACE, and a ring of legal size and alignment? -/
def traceOn (s : State) (l : Launch) : Bool :=
  let w6 := ctxWord s l.ctx 6
  let lg := (ctxWord s l.ctx 7).toNat % 32
  l.flags.getLsbD 2 && decide (8 ≤ lg) && decide (lg ≤ 24) && (w6.toNat % 4096 == 0)
/-- Count a dropped record. -/
def traceLost (s : State) (ctx : Nat) : State :=
  let w := ctxWord s ctx 7
  let n := w.toNat / 2 ^ 32
  setCtxWord s ctx 7 (BitVec.ofNat 64 (w.toNat % 2 ^ 32 + min (n + 1) (2 ^ 32 - 1) * 2 ^ 32))
/-- Record an event of a launch on a local die. -/
def trace (s : State) (l : Launch) (die kind unit a0 : Nat) (a1 : Word) : State :=
  if ¬ traceOn s l then s
  else
    let y := s.die die
    if y.trace.length ≥ 256 then traceLost s l.ctx
    else s.setDie die { y with trace := y.trace ++ [⟨l.ctx, BitVec.ofNat 64 s.gtc, kind, s.dieBase + die, unit, BitVec.ofNat 32 (min a0 (2 ^ 32 - 1)), a1⟩] }
/-- Record an event of the launch a core belongs to. -/
def traceCore (s : State) (core kind a0 : Nat) (a1 : Word) : State :=
  match s.launch (s.core core).launch with
  | some l => trace s l (core / 64) kind (core % 64) a0 a1
  | none => s

/-- Fumarole of a die as a master (log 88): Table 3.9 codes it with no MKIND of its own; it counts as a queue of its die past the last. -/
def mTrace (s : State) (die : Nat) : MasterT := mQueue.by 4 (8 * 32 + s.dieBase + die) (s.dieBase + die) 0
/-- Place in a ring at VA of the record of number n. -/
def traceSlot (va lg n : Nat) : Nat := va + 64 + 32 * (n % 2 ^ lg)
/-- Must the oldest record of a die wait for a way to its ring, or for earlier writes to the lines it writes (R42, R234)? -/
def traceHeld (s : State) (die : Nat) (r : TraceRec) : Bool :=
  let t := tlbTrace die
  let m := mTrace s die
  let va := (ctxWord s r.ctx 6).toNat % 2 ^ 56
  let held := fun (a n : Nat) => wayHeld s t r.ctx a n .write m || !linesOpen s t r.ctx a n m
  held va 8 || (match vaRead s t r.ctx va 8 m with
    | .ok (n, _) => held (traceSlot va ((ctxWord s r.ctx 7).toNat % 32) n) 32
    | .error _ => false)
/-- TRACE_RECORD_WRITE: number the oldest record, write it, then its number, a release. -/
def execTraceRecordWrite (die : Nat) (s : State) : Host.Outcome State Fault Refusal :=
  let y := s.die die
  match y.trace with
  | [] => .next s
  | r :: rest =>
    if traceHeld s die r then .next s else
    let m := mTrace s die
    let s := s.setDie die { y with trace := rest }
    let t := tlbTrace die
    let va := (ctxWord s r.ctx 6).toNat % 2 ^ 56
    let lg := (ctxWord s r.ctx 7).toNat % 32
    match vaAmo s t r.ctx va 1 64 1 0 m with
    | .error _ => .next (traceLost s r.ctx)
    | .ok (old, s) =>
      let n := old.getD 0
      let at_ := traceSlot va lg n
      let v := r.stamp.toNat + 2 ^ 64 * (r.kind + r.die % 32 * 2 ^ 8 + r.unit % 64 * 2 ^ 13 + r.a0.toNat * 2 ^ 32) + 2 ^ 128 * r.a1.toNat
      match vaWrite s t r.ctx at_ 24 v m with
      | (s, some _) => .next (traceLost s r.ctx)
      | (s, none) =>
        match vaRelease s t r.ctx (at_ + 24) 8 n m with
        | (s, some _) => .next (traceLost s r.ctx)
        | (s, none) => finish (bumpIval s 4 (8 * 32 + s.dieBase + die))

/-! ### End of a launch (R125, R126, R95) -/

/-- End status (Table 5.5). -/
def launchStatus (l : Launch) : Word :=
  BitVec.ofNat 64 ((if l.badDict then 2 else if l.nabn > 0 then 1 else 0) + min l.nabn (2 ^ 32 - 1) * 2 ^ 8 + l.nret % 512 * 2 ^ 40)

/-- The signal decrement and the notification of an ended launch (R95); what is done is cleared from the record of the launch. -/
def launchSignals (s : State) (l : Launch) : Launch × State × Option MFault :=
  let q := l.queue
  let m := mQ s q (pktWhere s q l.num)
  let r := if l.sig = 0 then Except.ok (none, s) else
    vaAmoOut s 4 q 6 l.ctx l.sig (-1) m
  match r with
  | .error e => (l, s, some e)
  | .ok (_, s) =>
    let l := { l with sig := 0 }
    match l.notify with
    | none => (l, s, none)
    | some va => (match notifyEvent s q va l.status with | .ok s => ({ l with notify := none }, s, none) | .error e => (l, s, some e))

/-- The packet of an ended launch completes, with the end status. -/
def launchClose (s : State) (l : Launch) : State :=
  { completePkt s l.queue l.num (some l.status) with launches := s.launches.filter fun (x : Launch) => x.id != l.id }

/-- Deliver the end status: the status record (Table 5.6), then the signal, the notification and the packet's completion. A fault
freezes the queue, and what is left is delivered when it resumes (R126). -/
def launchDeliver (s : State) (l : Launch) : State :=
  let q := l.queue
  let wh := pktWhere s q l.num
  let owe := fun (s : State) (l : Launch) (e : MFault) =>
    let s := s.setLaunch l
    mfQueue (s.setQueue q { s.queue q with owed := (s.queue q).owed ++ [l.id] }) q true e wh
  let rec_ := l.status.toNat + 2 ^ 64 * l.relFirst + 2 ^ 128 * l.relT + 2 ^ 192 * l.preempts +
    2 ^ 512 * (match l.first with | some r => r.toNat | none => 0)
  match if l.statusva = 0 then (s, none) else vaWrite s (tlbSpindle (q / 8)) l.ctx l.statusva 128 rec_ (mQ s q wh) with
  | (s, some e) => owe s l e
  | (s, none) =>
    match launchSignals s { l with statusva := 0 } with
    | (l, s, some e) => owe s l e
    | (l, s, none) => launchClose s l

/-- Has a Vent engine still to do its part for a launch? -/
def vOpen (s : State) : VCover → Bool
  | .fire d f => (s.die d).fires.contains f
  | .sent d v => (s.die d).unacked.any fun u => u.1 == v
  | .own d t g => (s.die d).ventOwn.contains (t, g)
/-- Is everything the launch's release covers performed (R95)? -/
def launchCovered (s : State) (l : Launch) : Bool :=
  (s.xacts.all fun x => !l.cover.contains x.id || (match x.st with | .answered => true | _ => false)) &&
  (l.coverSh.all fun p => ((s.core p.1).shq.all fun x => !(x.ch == p.2.1 && x.id == p.2.2))) && l.coverV.all fun v => !vOpen s v

/-- Deliver the end of the launch: with a signal to lower, once everything that release covers is performed (R95, R236). -/
def launchTry (s : State) (l : Launch) : State :=
  let d := l.queue / 8
  let k := relKeyLaunch l.id
  let wh := pktWhere s l.queue l.num
  if l.statusva ≠ 0 ∧ (¬ linesOpen s (tlbSpindle d) l.ctx l.statusva 128 (mQ s l.queue wh) ∨
      wayHeld s (tlbSpindle d) l.ctx l.statusva 128 .write (mQ s l.queue wh)) then s
  else if l.sig = 0 then launchDeliver s l
  -- a release of what the queue itself has under way (R225)
  else if s.xacts.any fun x => x.mkind == 4 && x.mid == l.queue && x.path == 6 && x.st != .answered then s
  else if ¬ launchCovered s l then s
  else if ¬ relOpen s d k then relMark s d k
  else launchDeliver (relDone s d k) l

/-- An ended launch whose delivery is not owed by a frozen queue. -/
def toDeliver (s : State) (l : Launch) : Bool :=
  (match l.phase with | .ended => true | _ => false) && !(s.queue l.queue).owed.contains l.id

/-- The launch ends: its cores and save slots become free, and its status is delivered when its writes are performed. -/
def launchEnd (s : State) (id : Nat) : State :=
  match s.launch id with
  | none => s
  | some l =>
    let mine := fun (c : Nat) => l.cores.contains c && (s.core c).launch == id
    let cover := s.xacts.filterMap fun x => match masterCore x.mkind x.mid with | some c => if mine (c % 512) then some x.id else none | none => none
    let coverSh := (l.cores.filter mine).flatMap fun c => (s.core c).shq.map fun x => (c, x.ch, x.id)
    let coverV := s.dies.flatMap fun y => (y.2.fires.filter fun f => mine f.2.1).map fun f => VCover.fire y.1 f
    let st := launchStatus l
    let s := trace s l (l.queue / 8) 12 48 0 st
    let l := { l with phase := .ended, status := st, relT := s.gtc, relFirst := if l.badDict then 0 else l.relFirst, cover := cover, coverSh := coverSh, coverV := l.coverV ++ coverV }
    let s := l.cores.foldl (fun s i => let c := s.core i
      if c.launch = id ∧ c.mode ≠ .retired then
        s.setCore i { c with mode := .free, launch := 0, task := none, parked := [], openGroup := none
                             unpins := c.unpins ++ heldPins c.arch.tfports, arch := { c.arch with tfports := [] } }
      else s) s
    let s := { s with groups := s.groups.filter fun (g : SGroup) => g.launch != id
                      saveUse := s.saveUse.map fun (p : Nat × List Nat) => (p.1, p.2.filter fun x => x != id)
                      saves := s.saves.filter (fun (x : Nat × Nat × Core) => x.1 != id)
                      pool := s.pool.filter fun (x : Nat × Nat × Memory) => x.1 != id }
    launchTry (s.setLaunch l) l

/-- Has a core committed stores that have not translated? A terminated task's writes are released (R115). -/
def storesLeft (c : Core) : Bool := c.accs.any fun a => match a.kind with | .wr => true | _ => false

/-- Has every index been taken, none granted and still on its way, and every task terminated (R125)? -/
def launchDone (s : State) (l : Launch) : Bool :=
  (match l.phase with | .running => true | _ => false) && l.dies.all (fun d => l.released.contains d) &&
  (l.shares.all fun p => decide (p.2.1 ≥ p.2.2)) && l.granted == [] &&
  (s.groups.all fun g => g.launch != l.id || (decide (g.next ≥ g.hi) && g.live == 0)) &&
  (l.cores.all fun i => (s.core i).launch != l.id || ((s.core i).task.isNone && (s.core i).parked == [] && !storesLeft (s.core i)))
/-- End the launch if it is done. -/
def checkEnd (s : State) (id : Nat) : State :=
  match s.launch id with | some l => if launchDone s l then launchEnd s id else s | none => s

/-! ### Tasks (R114 to R124) -/

def recStamp (r : BitVec 512) : Nat := r.toNat % 2 ^ 64
/-- The earlier of two records: STAMP, then master kind, then identifier (R69, R121). -/
def firstRec (a b : Option (BitVec 512)) : Option (BitVec 512) :=
  match a, b with
  | none, x => x | x, none => x
  | some x, some y =>
    let k := fun (r : BitVec 512) => (recStamp r, (r.toNat / 2 ^ 72) % 8, (r.toNat / 2 ^ 75) % 65536)
    if (k y).1 < (k x).1 ∨ ((k y).1 = (k x).1 ∧ ((k y).2.1 < (k x).2.1 ∨ ((k y).2.1 = (k x).2.1 ∧ (k y).2.2 < (k x).2.2)))
    then some y else some x

/-- The state of the strand at a task's start (R114, R156, Table 5.4). What the rules do not reset stays: format registers, UICTL.EN,
UIVEC, channel bindings, NEXTID. -/
def taskArch (old : Arch) (arg : Word) (idx : Word) (ply : Nat) (parent : Word) (core : Nat) (rel : Nat) : Arch :=
  let regs : List (Nat × Word) := [(1, arg), (2, idx), (3, BitVec.ofNat 64 ply), (4, parent), (5, BitVec.ofNat 64 core), (6, BitVec.ofNat 64 rel)]
  { Arch.init with
    s := regs.foldl (fun m p => FMap.set 0 m p.1 p.2) []
    spfmt := old.spfmt, uiEn := old.uiEn, uiVec := old.uiVec, chans := old.chans, nextId := old.nextId }

/-- Parent's task index of a task. -/
def parentOf (s : State) (t : Task) : Word :=
  match t.group with
  | some g => (match s.groups.find? fun x => x.id == g with | some x => x.parent | none => -1)
  | none => -1

/-- Discard what has not landed (R122, R145). -/
def dropFlight (c : Core) : Core :=
  { c with arch := { c.arch with pend := [], uiHeld := [] }, bobs := [], landed := [], transit := []
           accs := c.accs.filter fun a => match a.kind with | .wr => true | _ => false }

/-- Start a task on a core. -/
def startTask (s : State) (core : Nat) (t : Task) : State :=
  match s.launch (s.core core).launch with
  | none => s
  | some l =>
    let c := dropFlight (s.core core)
    let a := taskArch c.arch l.argva t.idx t.ply (parentOf s t) (core + 64 * s.dieBase) l.relT
    let c := { c with mode := .run, task := some t, arch := a, keep := a, openGroup := none, waits := [], vols := [], rerun := none
                      bobFull := none, stalled := none, held := false, stuck := false, owes := false, rowLog := [], rcrc := 0
                      unpins := c.unpins ++ heldPins c.arch.tfports }
    let m := core + 64 * s.dieBase
    -- the intervals of the core and of its Shuttle channels begin afresh (R249)
    let iv := (List.range 8).foldl (fun v k => FMap.set 0 v (ivalKey 1 (m * 8 + k)) 0) (FMap.set 0 s.ivals (ivalKey 0 m) 0)
    let s := { s.setCore core c with ivals := iv }
    traceCore s core 3 t.ply t.idx

/-- Does the instance of a spawner's core for a domain hold a core (R115)? -/
def inInstance (dom a b : Nat) : Bool :=
  match dom with | 0 => a == b | 1 => quadOf a == quadOf b | 2 => a / 64 == b / 64 | _ => true

/-- The domain of a group's ply. -/
def groupDom (s : State) (g : SGroup) : Nat :=
  match s.launch g.launch with
  | some l => (l.plies.getD g.ply (0, 0, 0, 0)).1
  | none => 0

/-- The spawn group a group's children come from: a requeued task's group leads back to the one it was taken from (R124). -/
def originOf (s : State) (g : Nat) : Nat → Nat
  | 0 => g
  | n + 1 => match (s.groups.find? fun x => x.id == g).bind fun x => x.requeue with
    | some (some g') => originOf s g' n
    | _ => g

/-- SCOPE of a group's ply. -/
def groupScope (s : State) (g : SGroup) : Nat :=
  match s.launch g.launch with | some l => (l.plies.getD g.ply (0, 0, 0, 0)).2.1 | none => 0
/-- May a child of a group start: are the spawner's writes before the spawn, which released them at the ply's SCOPE, performed (R309)? -/
def groupOpen (s : State) (g : SGroup) : Bool := writesDone s g.core g.since

/-- Groups an idle core may take from, in order: requeued tasks, then narrowest instance, oldest first (R116, R120, R124). DESIGN CHOICE
(log 112): the instances of DOMAIN and SYSTEM are one set of cores (R115); every group of DOMAIN goes before every one of SYSTEM. -/
def takeable (s : State) (core : Nat) : List SGroup :=
  let c := s.core core
  let ok := s.groups.filter fun g => g.launch == c.launch && decide (g.next < g.hi) && inInstance (groupDom s g) g.core core && groupOpen s g && !g.asking.contains core
  match c.parked with
  | p :: _ =>
    let mine := ok.filter fun g => originOf s g.id s.groups.length == p.group
    (mine.filter fun g => g.requeue.isSome) ++ mine.filter fun g => g.requeue.isNone
  | [] =>
    (ok.filter fun g => g.requeue.isSome) ++
      ([0, 1, 2, 3, 4, 5].flatMap fun d => ok.filter fun g => g.requeue.isNone && groupDom s g == d)

/-- The die's ply-0 share of the core's launch. -/
def shareOf (s : State) (core : Nat) : Option (Launch × Nat × Nat) :=
  match s.launch (s.core core).launch with
  | some l => (match FMap.find l.shares (core / 64) with | some (a, b) => if a < b then some (l, a, b) else none | none => none)
  | none => none

/-- Does a core wait for the answer to a task-range message of its own? -/
def asksChild (s : State) (core : Nat) : Bool := s.groups.any fun g => g.asking.contains core
/-- Is there work for an idle core? -/
def hasWork (s : State) (core : Nat) : Bool :=
  (match (s.core core).mode with | .idle => true | _ => false) && !(s.core core).preempt && !asksChild s core &&
  (takeable s core != [] || ((s.core core).parked == [] && (shareOf s core).isSome))

/-- Change one spawn group. -/
def setGroup (s : State) (id : Nat) (f : SGroup → SGroup) : State :=
  { s with groups := s.groups.map fun (x : SGroup) => if x.id = id then f x else x }
/-- A core starts child `idx` of a group: behind the spawner's release, it acquires at the ply's SCOPE (R309, R226). -/
def startChild (s : State) (g : SGroup) (core idx : Nat) : State :=
  startTask (if groupScope s g = 0 then s else s.setCore core (l1Drop (s.core core))) core ⟨g.ply, BitVec.ofNat 64 idx, some g.id⟩
/-- A task-range message about a group, from Treadle to Treadle (R119). -/
def groupMsg (s : State) (g : SGroup) (src dst : Nat) (data : List Word) (m : Msg) : State :=
  let ctx := match s.launch g.launch with | some l => l.ctx | none => 0
  sendPacket s src 49 ⟨mkHdr 8 1 (s.dieBase + src) 49 (s.dieBase + dst) 49 false 0 0 ctx 0 0 0 s.gtc, padData data, [], m⟩
/-- An idle core takes one task (R116): a child of a group on another die it asks for over the fabric (R119). -/
def takeTask (s : State) (core : Nat) : State :=
  match takeable s core with
  | g :: _ =>
    if g.die = core / 64 then startChild (setGroup s g.id fun x => { x with next := x.next + 1, live := x.live + 1 }) g core g.next
    else groupMsg (setGroup s g.id fun x => { x with asking := x.asking ++ [core] }) g (core / 64) g.die
      [BitVec.ofNat 64 g.id, BitVec.ofNat 64 core] (.childAsk g.id core)
  | [] =>
    if (s.core core).parked ≠ [] then s
    else match shareOf s core with
      | some (l, a, b) =>
        startTask (s.setLaunch { l with shares := FMap.put l.shares (core / 64) (a + 1, b) }) core ⟨0, BitVec.ofNat 64 a, none⟩
      | none => s
/-- A group's die answers a core's message: the next index, or a refusal when none is left. -/
def giveChild (s : State) (id core : Nat) : State :=
  match s.groups.find? fun g => g.id == id with
  | none => s
  | some g =>
    if g.next < g.hi then
      groupMsg (setGroup s id fun x => { x with next := x.next + 1, live := x.live + 1 }) g g.die (core / 64)
        [BitVec.ofNat 64 id, BitVec.ofNat 64 core, BitVec.ofNat 64 g.next] (.childGive id core g.next)
    else groupMsg s g g.die (core / 64) [BitVec.ofNat 64 id, BitVec.ofNat 64 core] (.childNone id core)
/-- The answer reaches the core's die: the core starts the child, or, when it can take no task any more, the child becomes a group of one index there,
which the die's cores take from (R116, R124). -/
def takeChild (s : State) (id core : Nat) (idx : Option Nat) : State :=
  match s.groups.find? fun g => g.id == id with
  | none => s
  | some g =>
    let s := setGroup s id fun x => { x with asking := x.asking.erase core }
    let c := s.core core
    match idx with
    | none => s
    | some i =>
      if (match c.mode with | .idle => true | _ => false) && !c.preempt && c.launch == g.launch then startChild s g core i
      else
        let one : SGroup := ⟨s.nextId, g.launch, core / 64, g.core, g.ply, g.parent, i, i + 1, 0, 0, false, none, some (some id), [], g.since, []⟩
        { s with groups := s.groups ++ [one], nextId := s.nextId + 1 }
def execTaskTake (core : Nat) (s : State) : Host.Outcome State Fault Refusal := .next (if hasWork s core then takeTask s core else s)

/-- One child of a group has terminated, on core `w.1` in cycle `w.2`; a requeued task reports to the group it came from, and so on to the
spawn group (R124). -/
def childEndN (abn : Bool) (r : Option (BitVec 512)) (w : Nat × Nat) : Nat → State → Nat → State
  | 0, s, _ => s
  | n + 1, s, g =>
    let up := (s.groups.find? fun x => x.id == g).bind fun x => x.requeue
    let s := { s with groups := s.groups.map fun (x : SGroup) =>
      if x.id = g then { x with live := x.live - 1, nabn := x.nabn + (if abn then 1 else 0), first := firstRec x.first r
                                ends := w :: x.ends.filter fun e => e.1 != w.1 } else x }
    match up with | some (some g') => childEndN abn r w n s g' | _ => s
def childEnd (s : State) (g core : Nat) (abn : Bool) (r : Option (BitVec 512)) : State :=
  childEndN abn r (core, s.gtc) (s.groups.length + 1) s g

/-- The task of a core terminates: its writes are released, its pins are given up, its group and launch count it (R115, R121, R125). -/
def endTask (s : State) (core : Nat) (abn : Bool) (r : Option (BitVec 512)) : State :=
  let c := s.core core
  match c.task with
  | none => s
  | some t =>
    let s := traceCore s core 4 (t.ply + (if abn then 2 ^ 31 else 0)) t.idx
    let s := bumpIval s 0 (core + 64 * s.dieBase)
    let c := dropFlight c
    let s := s.setCore core { c with mode := .idle, task := none, openGroup := none, waits := [], unpins := c.unpins ++ heldPins c.arch.tfports
                                     arch := { c.arch with tfports := [], ctl := none, fq := [], fhalt := true } }
    let s := match s.launch c.launch with
      | some l => s.setLaunch { l with nabn := l.nabn + (if abn then 1 else 0), first := if abn then firstRec l.first r else l.first }
      | none => s
    let s := match t.group with | some g => childEnd s g core abn r | none => s
    checkEnd s c.launch

/-- EXIT with a successor: a task of the same ply and parent on the same core (R122). -/
def successor (s : State) (core : Nat) (idx : Word) : State :=
  match (s.core core).task with
  | none => s
  | some t =>
    let s := traceCore s core 4 t.ply t.idx
    startTask (bumpIval s 0 (core + 64 * s.dieBase)) core { t with idx := idx }

/-- A new spawn group of a core (R119, R309). -/
def spawnGroup (s : State) (core lo hi : Nat) : State :=
  match (s.core core).task with
  | none => s
  | some t =>
    let id := s.nextId
    let c := s.core core
    let g : SGroup := ⟨id, c.launch, core / 64, core, t.ply + 1, t.idx, lo, hi, 0, 0, false, none, none, [], s.gtc, []⟩
    let s := { s.setCore core { c with openGroup := some id } with groups := s.groups ++ [g], nextId := id + 1 }
    traceCore s core 5 (hi - lo) (BitVec.ofNat 64 lo)

/-- Has a group's instance a live core other than `core`? -/
def groupLive (s : State) (g : SGroup) (core : Nat) : Bool :=
  match s.launch g.launch with
  | some l => l.cores.any fun i => (match (s.core i).mode with | .retired => false | _ => i != core) && inInstance (groupDom s g) g.core i
  | none => false

/-- Requeue the tasks of a retired core as one-index groups on its die, taken first (R124). A task whose instance has no live core
left is counted abnormal. -/
def requeueTask (s : State) (core : Nat) (t : Task) : State :=
  let c := s.core core
  let old : Option SGroup := match t.group with | some g => s.groups.find? fun x => x.id == g | none => none
  let g : SGroup := ⟨s.nextId, c.launch, core / 64, (match old with | some o => o.core | none => core), t.ply, parentOf s t, t.idx.toNat, t.idx.toNat + 1,
    0, 0, false, none, some t.group, [], (match old with | some o => o.since | none => 0), []⟩
  let s := match old with
    | some o => { s with groups := s.groups.map fun (x : SGroup) => if x.id = o.id then { x with requeued := true } else x }
    | none => s
  if groupLive s g core then { s with groups := s.groups ++ [g], nextId := s.nextId + 1 }
  else
    let s := match s.launch c.launch with | some l => s.setLaunch { l with nabn := l.nabn + 1 } | none => s
    let s := traceCore s core 4 (t.ply + 2 ^ 31) t.idx
    match t.group with | some g => childEnd s g core true none | none => s

/-- Requeued tasks that still wait when the last core of their instance is retired: each is counted abnormal, without a fault record, and
terminates (R124). DESIGN CHOICE (log 119): children of an ordinary spawn group that nobody has taken stay so. -/
def abandonTasks (s : State) (core : Nat) : State :=
  let id := (s.core core).launch
  (s.groups.filter fun g => g.launch == id && g.requeue.isSome && decide (g.next < g.hi) && !groupLive s g core).foldl (fun s g =>
    let s := match s.launch id with | some l => s.setLaunch { l with nabn := l.nabn + 1 } | none => s
    let s := traceCore s core 4 (g.ply + 2 ^ 31) (BitVec.ofNat 64 g.next)
    let s := { s with groups := s.groups.map fun (x : SGroup) => if x.id = g.id then { x with next := x.hi } else x }
    match g.requeue with | some (some o) => childEnd s o core true none | _ => s) s

end Sys2Proof.Machine
end

