-- ==== Sys2Proof/Machine/Slot.lean ====
section
/-! DEFINITION. Save slots: the bytes a pre-empted core writes and a restore reads back (R167, R176, R177, R198, Tables 7.4, 7.7 to 7.9).
Log 118 names what the tables leave open: the inner layout of some areas, and what of a core no field of the slot has, which the image in
`State.saves` holds. A JOIN parks its task's state in the slot's parking area (R120, R175). -/
namespace Sys2Proof.Machine

/-! ### Bytes -/

/-- The n bytes of a value at an offset, those that are not zero, in ascending order. -/
def bytesAt (a n v : Nat) : Memory :=
  (List.range n).filterMap fun i => let b := v / 256 ^ i % 256; if b = 0 then none else some (a + i, BitVec.ofNat 8 b)
/-- Fields one after the other: offset, bytes, value. -/
def fieldBytes (base : Nat) (l : List (Nat × Nat × Nat)) : Memory := l.flatMap fun f => bytesAt (base + f.1) f.2.1 f.2.2
/-- Cells of [a, a + n). -/
def slotPart (m : Memory) (a n : Nat) : Memory := m.filter fun c => decide (a ≤ c.1) && decide (c.1 < a + n)
/-- The value of n bytes at an offset. -/
def slotVal (m : Memory) (a n : Nat) : Nat := (slotPart m a n).foldl (fun r c => r + c.2.toNat * 256 ^ (c.1 - a)) 0
/-- The memory that holds some bytes, in canonical form. -/
def Memory.holding (l : List (Nat × Byte)) : Memory := l.foldr (fun x m => Memory.write m x.1 x.2) []
/-- Put other cells in the place of those of [a, a + n). -/
def putPart (m : Memory) (a n : Nat) (l : Memory) : Memory :=
  Memory.holding ((m.filter fun c => decide (c.1 < a)) ++ l ++ m.filter fun c => decide (a + n ≤ c.1))

/-! ### The header (Tables 7.8, 7.9) -/

/-- FLAGS of a save header (Table 7.8). -/
def saveFlags (c : Core) : Nat :=
  (match c.mode with | .frozen _ _ _ => 1 | _ => 0) + (if c.rerun.isSome then 2 else 0) + (if c.arch.uiActive then 4 else 0) +
    (if c.late then 8 else 0)
/-- A saved loop-stack entry (Table 7.9). -/
def loopBits (e : LoopEntry) : Nat :=
  e.s % 2 ^ 16 + e.e % 2 ^ 16 * 2 ^ 16 + e.kn % 2 ^ 32 * 2 ^ 32 + e.dn % 2 ^ 8 * 2 ^ 64 + (if e.rt then 2 ^ 72 else 0) + e.i % 2 ^ 33 * 2 ^ 95
def loopOf (v : Nat) : LoopEntry :=
  { s := v % 2 ^ 16, e := v / 2 ^ 16 % 2 ^ 16, kn := v / 2 ^ 32 % 2 ^ 32, dn := v / 2 ^ 64 % 2 ^ 8, i := v / 2 ^ 95, rt := v.testBit 72 }
/-- The loop stack, bottom first. -/
def loopFields (l : List LoopEntry) : List (Nat × Nat × Nat) := l.reverse.zipIdx.map fun p => (0x80 + 16 * p.2, 16, loopBits p.1)
def regFields {α : Type} (m : FMap α) (a n w : Nat) (f : Option α → Nat) : List (Nat × Nat × Nat) :=
  (List.range n).map fun i => (a + w * i, w, f (FMap.find m i))
def vals (m : FMap Word) (a n : Nat) : List (Nat × Nat × Nat) := regFields m a n 8 fun x => (x.getD 0).toNat

/-- The header and strand of core identity `mid`, saved at `gtc` (Table 7.8). -/
def slotHeader (mid gtc npend : Nat) (c : Core) : List (Nat × Nat × Nat) :=
  let a := c.arch
  [(0x00, 4, 0x44575356), (0x04, 2, 1), (0x06, 2, saveFlags c), (0x08, 2, mid), (0x0A, 1, c.parked.length), (0x0B, 1, a.loops.length), (0x0C, 2, npend),
   (0x0E, 2, c.shq.length), (0x10, 8, gtc), (0x18, 8, a.ctk.toNat), (0x20, 4, nextFetchPos a % 2 ^ 16), (0x24, 1, a.rot.toNat), (0x25, 1, a.uiRot.toNat),
   (0x26, 2, a.uiVec.toNat), (0x28, 2, a.uiPc.toNat), (0x2A, 2, (c.rerun.map Rerun.aband).getD 0), (0x30, 8, (csrUictl a).toNat),
   (0x38, 8, a.ovr.toNat + a.brk.toNat * 256)] ++ vals a.jrec 0x40 8 ++ loopFields a.loops ++ [(0xE0, 4, a.g.toNat)] ++ vals a.s 0x100 64 ++
  ((List.range 8).map fun i => (0x300 + 8 * i, 8, (FMap.get 0 a.shadow (8 + i)).toNat)) ++ (regFields a.spfmt 0x340 16 8 fun x => (x.getD 0).toNat) ++
  [(0x3C0, 8, (csrTfstat a).toNat), (0x3C8, 8, c.aflags.toNat), (0x400, 128, a.vxf.toNat),
   (0x480, 64, match c.mode with | .frozen _ _ r => r.toNat | _ => 0)]

/-! ### The pending-writes record (R167, Table 7.4) -/

/-- An item's KIND, REG, ROW, value bytes and value; none of what no item carries. -/
def itemOf (c : Core) (p : Pend) : Option (Nat × Nat × Nat × Nat × Nat) :=
  match p.eff with
  | .s r v => some (1, r, 0, 8, v.toNat)
  | .v r v m => some (2, r, 0, 512, ((v &&& m) ||| (FMap.get 0 c.arch.v r &&& ~~~m)).toNat)
  | .p i v => some (3, i, 0, 128, v.toNat)
  | .g r b => some (4, r, 0, 8, if b then 1 else 0)
  | .row t r op v m nf => some (5, t, r, 1024, (FMap.get 0 (FMap.get [] (applyRow c t r op v m nf).tiles t) r).toNat)
  | .land b dest _ =>
    let r := match dest with
      | .s r _ _ => r | .v r => r | .bcast r => r | .gather r _ => r | .acq r _ => r | .slot n _ => n | .map n _ _ _ => n | .accr r _ => r
    some (6, r, 0, 512, ((c.bobs.find? fun x => x.id == b).map fun x => (bobValue x).toNat).getD 0)
  | _ => none
/-- GROUP of an item. -/
def itemGroup (g : Grp) : Nat := match g with | .s => 0 | .v => 1 | .m => 2 | .x => 3
/-- An item: head and value, the value padded to a multiple of 16. -/
def itemBits (k : Nat) (p : Pend) (i : Nat × Nat × Nat × Nat × Nat) : Nat × Nat :=
  let (kind, reg, row, len, val) := i
  (16 + (len + 15) / 16 * 16, kind + itemGroup p.grp * 2 ^ 4 + reg % 2 ^ 8 * 2 ^ 8 + row % 2 ^ 8 * 2 ^ 16 + (p.due + 1 - k) % 2 ^ 12 * 2 ^ 24 + p.lane % 16 * 2 ^ 36 +
    (k - p.seq) % 2 ^ 12 * 2 ^ 40 + len * 2 ^ 64 + val * 2 ^ 128)
/-- The record, and behind it the one that a user-level handler holds (R155), its items counted from the handler's entry. -/
def slotItems (c : Core) : List (Nat × Nat) :=
  (c.arch.pend.filterMap fun p => (itemOf c p).map (itemBits c.arch.segK p)) ++
  c.arch.uiHeld.filterMap fun p => (itemOf c p).map (itemBits c.arch.uiHeldAt p)
/-- Items packed from an offset. -/
def packItems : Nat → List (Nat × Nat) → Memory
  | _, [] => []
  | a, (n, v) :: t => bytesAt a n v ++ packItems (a + n) t
/-- Are n items from an offset valid: KIND 1 to 6, D not 0? -/
def itemsOk (m : Memory) : Nat → Nat → Bool
  | _, 0 => true
  | a, n + 1 =>
    let h := slotVal m a 16
    decide (1 ≤ h % 16) && decide (h % 16 ≤ 6) && decide (h / 2 ^ 24 % 2 ^ 12 ≠ 0) && itemsOk m (a + 16 + (h / 2 ^ 64 % 2 ^ 16 + 15) / 16 * 16) n

/-! ### The areas (Table 7.7) -/

/-- A parked state (R120): 40 960 bytes. -/
def parkedFields (x : Parked) : List (Nat × Nat × Nat) :=
  [(0x0B, 1, x.loops.length), (0x20, 4, x.pos % 2 ^ 16), (0x24, 1, x.rot.toNat)] ++ loopFields x.loops ++ [(0xE0, 4, x.g.toNat)] ++ vals x.s 0x200 64 ++
  [(0x400, 128, x.vxf.toNat)] ++ (regFields x.p 0x800 16 128 fun y => (y.getD 0).toNat) ++ regFields x.v 0x1000 64 512 fun y => (y.getD 0).toNat
/-- Tensor slots d0 to d31, in descriptor format (R198). -/
def slotTensors (m : FMap (BitVec 2048)) : Memory := fieldBytes 0xC000 (regFields m 0 32 256 fun y => (y.getD 0).toNat)
/-- Matrix staging: each level's A then B, then each level's scales. -/
def stageFields (m : FMap StageLevel) : List (Nat × Nat × Nat) :=
  ((List.range 4).flatMap fun l => let x := FMap.get StageLevel.zero m l; [(1024 * l, 512, x.a.toNat), (1024 * l + 512, 512, x.b.toNat)]) ++
  ((List.range 4).flatMap fun l => let x := FMap.get StageLevel.zero m l; [(4096 + 1024 * l, 512, x.sa.toNat), (4608 + 1024 * l, 512, x.sb.toNat)])
/-- A stream port: its record, fill value, entries moved. -/
def portFields (m : FMap Port) : List (Nat × Nat × Nat) :=
  (List.range 8).flatMap fun n => match FMap.find m n with
    | some p => [(128 * n, 96, p.img.toNat), (128 * n + 96, 4, p.fill.toNat), (128 * n + 104, 8, p.moved)]
    | none => []
/-- A fabric channel: binding, word counts, received words, words to send. -/
def chanFields (c : Core) : List (Nat × Nat × Nat) :=
  (List.range 4).flatMap fun n =>
    let b := match FMap.find c.arch.chans n with
      | some b => b.scirc + (if b.sen then 2 ^ 12 else 0) + b.rcirc * 2 ^ 13 + (if b.ren then 2 ^ 25 else 0)
      | none => 0
    let r := FMap.get [] c.rx n
    let t := FMap.get [] c.tx n
    let o := 6144 * n
    [(o, 8, b), (o + 0x100, 8, r.length + t.length * 2 ^ 32)] ++ (r.zipIdx.map fun w => (o + 0x400 + 8 * w.2, 8, w.1.toNat)) ++
      t.zipIdx.map fun w => (o + 0xC00 + 8 * w.2, 8, w.1.2.toNat)
/-- Shuttle channels: next transfer ID, CHDONE, notifications. -/
def shuttleFields (c : Core) : List (Nat × Nat × Nat) :=
  (List.range 8).flatMap fun n => [(64 * n, 4, (FMap.get 0 c.arch.nextId n).toNat), (64 * n + 4, 4, (FMap.get 0 c.chdone n).toNat),
    (64 * n + 8, 1, if c.arch.uiPend.getLsbD n then 1 else 0)]
/-- a0 to a3, row-major: 256 rows of 1 024 bytes each. -/
def tileFields (m : FMap (FMap RowWord)) : List (Nat × Nat × Nat) :=
  (List.range 4).flatMap fun t => regFields (FMap.get [] m t) (0x40000 * t) 256 1024 fun y => (y.getD 0).toNat
/-- The bytes of a save slot. -/
def slotBytes (mid gtc : Nat) (c : Core) : Memory :=
  let a := c.arch
  let items := slotItems c
  Memory.holding <| fieldBytes 0 (slotHeader mid gtc items.length c) ++ fieldBytes 0x1000 (regFields a.v 0 64 512 fun x => (x.getD 0).toNat) ++
  fieldBytes 0x9000 (regFields a.p 0 16 128 fun x => (x.getD 0).toNat) ++ fieldBytes 0x9800 (regFields a.ecfg 0 4 256 fun x => (x.getD 0).toNat) ++
  fieldBytes 0x9C00 (regFields a.tfports 0 2 128 fun x => ((x.map TfPort.img).getD 0).toNat) ++ fieldBytes 0xA000 (stageFields a.stage) ++ slotTensors a.slots ++
  fieldBytes 0xE000 (portFields a.ports) ++ fieldBytes 0xE400 (shuttleFields c) ++
  fieldBytes 0x10000 (c.shq.zipIdx.map fun x => (64 * x.2, 64, (x.1.img.setWidth 512).toNat)) ++ fieldBytes 0x12000 (chanFields c) ++ packItems 0x18000 items ++
  (c.parked.reverse.zipIdx.flatMap fun x => fieldBytes (0x38000 + 0xA000 * x.2) (parkedFields x.1)) ++
  fieldBytes 0x80000 (tileFields c.tiles) ++ c.spad.map fun x => (0x180000 + x.1, x.2)

/-! ### Reading a slot back (R177) -/

/-- Does a slot pass the checks of a restore: MAGIC, VER, CORE, and every item (R167, R177)? -/
def slotOk (m : Memory) (mid : Nat) : Bool :=
  let h := slotPart m 0 0x40
  decide (slotVal h 0 4 = 0x44575356) && decide (slotVal h 4 2 = 1) && decide (slotVal h 8 2 = mid) && itemsOk (slotPart m 0x18000 0x20000) 0x18000 (slotVal h 0xC 2)
/-- Registers of w bytes from an offset, those that are not zero. -/
def regsBack {k : Nat} (m : Memory) (a i0 n w : Nat) : FMap (BitVec k) :=
  let m := slotPart m a (n * w)
  (List.range n).foldl (fun r i => FMap.set 0 r (i0 + i) (BitVec.ofNat k (slotVal m (a + w * i) w))) []
def loopsBack (m : Memory) (base n : Nat) : List LoopEntry := ((List.range n).map fun j => loopOf (slotVal m (base + 0x80 + 16 * j) 16)).reverse
/-- A parked state with what its area holds. -/
def parkedBack (m : Memory) (x : Parked) (j : Nat) : Parked :=
  let o := 0x38000 + 0xA000 * j
  let m := slotPart m o 0xA000
  { x with pos := slotVal m (o + 0x20) 4, rot := BitVec.ofNat 5 (slotVal m (o + 0x24) 1), loops := loopsBack m o (slotVal m (o + 0x0B) 1)
           g := BitVec.ofNat 32 (slotVal m (o + 0xE0) 4), s := regsBack m (o + 0x200) 0 64 8, vxf := BitVec.ofNat 1024 (slotVal m (o + 0x400) 128)
           p := regsBack m (o + 0x800) 0 16 128, v := regsBack m (o + 0x1000) 0 64 512 }
/-- The strand with what the slot holds. -/
def archBack (m : Memory) (a : Arch) : Arch :=
  let h := slotPart m 0 0x1000
  let ui := slotVal h 0x30 8
  let tf := slotVal h 0x3C0 8
  { a with ctk := BitVec.ofNat 64 (slotVal h 0x18 8), rot := BitVec.ofNat 5 (slotVal h 0x24 1), uiRot := BitVec.ofNat 5 (slotVal h 0x25 1)
           uiVec := BitVec.ofNat 16 (slotVal h 0x26 2), uiPc := BitVec.ofNat 16 (slotVal h 0x28 2), uiEn := ui.testBit 0, uiActive := ui.testBit 1
           uiPend := BitVec.ofNat 8 (ui / 256), ovr := BitVec.ofNat 8 (slotVal h 0x38 1), brk := BitVec.ofNat 4 (slotVal h 0x39 1), jrec := regsBack h 0x40 0 8 8
           loops := loopsBack h 0 (slotVal h 0x0B 1), g := BitVec.ofNat 32 (slotVal h 0xE0 4), s := regsBack h 0x100 0 64 8, shadow := regsBack h 0x300 8 8 8
           spfmt := regsBack h 0x340 0 16 8, tfNref := BitVec.ofNat 32 tf, tfWay := tf.testBit 32, tfQ := tf.testBit 33
           vxf := BitVec.ofNat 1024 (slotVal h 0x400 128), v := regsBack m 0x1000 0 64 512, p := regsBack m 0x9000 0 16 128, ecfg := regsBack m 0x9800 0 4 256
           slots := regsBack m 0xC000 0 32 256 }
/-- The tiles with what the slot holds. -/
def tilesBack (m : Memory) : FMap (FMap RowWord) :=
  (List.range 4).foldl (fun r t => FMap.set [] r t (regsBack m (0x80000 + 0x40000 * t) 0 256 1024)) []
/-- The core a restore makes of its slot. -/
def slotBack (m : Memory) (c : Core) : Core :=
  let a := archBack m c.arch
  let h := slotPart m 0 0x1000
  let f := slotVal h 6 2
  { c with arch := a, keep := a, late := f.testBit 3, aflags := BitVec.ofNat 5 (slotVal h 0x3C8 8)
           rerun := if f.testBit 1 then c.rerun.map fun r => { r with aband := slotVal h 0x2A 2 } else none
           mode := match c.mode with | .frozen t pos _ => .frozen t pos (BitVec.ofNat 512 (slotVal h 0x480 64)) | x => x
           parked := (c.parked.reverse.zipIdx.map fun x => parkedBack m x.1 x.2).reverse
           tiles := tilesBack m, tilesK := tilesBack m, spad := Memory.holding ((slotPart m 0x180000 0x400000).map fun x => (x.1 - 0x180000, x.2)) }

/-! ### The save pool (R175) -/

/-- The slot of a launch on a core. -/
def poolOf (s : State) (l core : Nat) : Memory :=
  match s.pool.find? fun x => x.1 == l && x.2.1 == core with | some x => x.2.2 | none => []
def setPool (s : State) (l core : Nat) (m : Memory) : State :=
  { s with pool := (s.pool.filter fun (x : Nat × Nat × Memory) => !(x.1 == l && x.2.1 == core)) ++ [(l, core, m)] }

/-! ### JOIN (R115, R120, R121, R310) -/

/-- Write the status of a JOIN, to its register and to the latch of lane S0 (R138), and the first record (R121, R310). -/
def joinWrite (a : Arch) (dst nabn : Nat) (requeued : Bool) (first : Option (BitVec 512)) : Arch :=
  let st := min nabn (2 ^ 32 - 1) + (if requeued then 2 ^ 32 else 0)
  let r := match first with | some r => r | none => 0
  let a := { a with jrec := (List.range 8).foldl (fun m j => FMap.set 0 m j (r.extractLsb' (64 * j) 64)) [] }
  (a.setS dst (BitVec.ofNat 64 st)).setLatch 0 (BitVec.ofNat 512 st)

/-- JOIN after its commit: results in flight are discarded; without an open group it completes at once, else the task parks (R120,
R310). -/
def joinPark (s : State) (core dst pos : Nat) : State :=
  let c := dropFlight (s.core core)
  let a := redirect { c.arch with ctl := none } c.arch.lo pos
  match c.openGroup, c.task with
  | some g, some t =>
    let pk : Parked := ⟨t, pos, a.rot, a.loops, a.g, a.s, a.vxf, a.p, a.v, dst, g, a.uiEn, a.uiPend, a.uiVec, a.uiPc, a.uiRot, a.uiDepth, a.shadow⟩
    let s := s.setCore core { c with mode := .idle, task := none, parked := pk :: c.parked, openGroup := none, arch := { a with fhalt := true } }
    -- the state goes to the parking area of the launch's save slot (R175)
    let o := 0x38000 + 0xA000 * c.parked.length
    setPool s c.launch core (putPart (poolOf s c.launch core) o 0xA000 (fieldBytes o (parkedFields pk)))
  | _, _ =>
    let a := { joinWrite a dst 0 false none with segCk := false }
    traceCore (s.setCore core { c with arch := a, keep := a }) core 6 0 0

/-- Are the writes that children made before they ended performed: their release at the ply's SCOPE (R115)? At .core the path's own order
is enough. -/
def groupReleased (s : State) (g : SGroup) : Bool :=
  groupScope s g == 0 || g.ends.all fun e => writesDone s e.1 e.2
/-- Is the join of the task parked last complete: no child left to take or running, and all of them released (R115, R120)? -/
def joinReady (s : State) (core : Nat) : Bool :=
  let c := s.core core
  match c.mode, c.parked with
  | .idle, p :: _ => (match s.groups.find? fun g => g.id == p.group with
      | some g => decide (g.next ≥ g.hi) && g.live == 0 && groupReleased s g
      | none => true)
  | _, _ => false

/-- JOIN_COMPLETE: the parked state is restored, the status and the first record are written. The notifications that came meanwhile stay
pending beside the parked ones (log 108). -/
def execJoinComplete (core : Nat) (s : State) : Host.Outcome State Fault Refusal :=
  let c := s.core core
  if ¬ joinReady s core then .next s
  else match c.parked with
    | [] => .next s
    | p0 :: rest =>
      let p := parkedBack (poolOf s c.launch core) p0 rest.length
      let g := s.groups.find? fun g => g.id == p.group
      let nabn := match g with | some g => g.nabn | none => 0
      let rq := match g with | some g => g.requeued | none => false
      let first := match g with | some g => g.first | none => none
      let a := { c.arch with rot := p.rot, loops := p.loops, g := p.g, s := p.s, vxf := p.vxf, p := p.p, v := p.v, ctl := none, pend := [],
                              uiEn := p.uiEn, uiActive := false, uiPend := p.uiPend ||| c.arch.uiPend, uiVec := p.uiVec, uiPc := p.uiPc,
                              uiRot := p.uiRot, uiDepth := p.uiDepth, uiHeld := [], shadow := p.shadow }
      let a := joinWrite (redirect a a.lo p.pos) p.dst nabn rq first
      let a := { a with segK := a.lo, segCk := false }
      -- the join acquires at the child ply's SCOPE (R115, R226)
      let c := match g with | some g => if groupScope s g = 0 then c else l1Drop c | none => c
      let s := s.setCore core { c with mode := .run, task := some p.task, parked := rest, openGroup := none, arch := a, keep := a }
      let s := { bumpIval s 0 (core + 64 * s.dieBase) with groups := s.groups.filter fun (g : SGroup) => g.id != p.group }
      .next (traceCore s core 6 nabn (BitVec.ofNat 64 (min nabn (2 ^ 32 - 1) + (if rq then 2 ^ 32 else 0))))

end Sys2Proof.Machine
end

