-- ==== Sys2Proof/Machine/Seg.lean ====
section
/-! DEFINITION. Segments: translation of a core's accesses, commit, rollback, the supervisor handler, detected errors, rerun pairs,
retirement, pre-emption saves, fences, tile fetch and pins (R42, R67 to R69, R154 to R177, R187 to R189, R226 to R233, R355, R373). -/
namespace Sys2Proof.Machine

/-- Master identifier of a core: domain die × 64 + router index. -/
def coreMid (s : State) (core : Nat) : Nat := core + 64 * s.dieBase

/-! ### Translation and hand-on of a core's accesses (R355) -/


/-- Scope of an acquire load, from its landing. -/
def acqScope (c : Core) (bob : Nat) : Nat :=
  match (c.arch.pend ++ c.arch.uiHeld).find? fun p => (match p.eff with | .land b (.acq _ _) _ => b == bob | _ => false) with
  | some p => (match p.eff with | .land _ (.acq _ sc) _ => sc | _ => 4)
  | none => 4

/-- The access at a home that a core access becomes. -/
def coreXact (s : State) (core : Nat) (a : Acc) (va : Nat) (ph : Phys) : Xact :=
  let c := s.core core
  { id := 0, mkind := 0, mid := coreMid s core, die := s.dieBase + core / 64, path := 0, ctx := c.ctx, va := va, n := a.n, ph := ph
    kind := match a.kind with | .wr => .wr a.val | _ => .rd
    rel := a.rel, acq := if a.acq then some (acqScope c a.bob) else none, sc := 7, seq := a.seq, num := 0, dv := [], st := .fresh
    t0 := a.t0, val := 0, nack := false
    ret := match a.kind with | .wr => .store core | _ => .load core a.bob a.off
    wh := BitVec.ofNat 64 a.pos }

/-- Page translation a store's walk found. -/
def walkPhys (c : Core) (ids : List Nat) (va : Nat) : Option Phys :=
  (c.accs.find? fun a => ids.contains a.id && a.va / 65536 == va / 65536).bind fun a =>
    a.phys.map fun p => { p with pa := p.pa / 65536 * 65536 + va % 65536 }

/-- Was access a issued after the store (seq, lane)? -/
def storeBefore (a : Acc) (seq lane : Nat) : Bool := decide (seq < a.seq) || (seq == a.seq && decide (lane < a.lane))
/-- What the core's own stores issued before a load have not yet put on its path: physical location, bytes, value, oldest first. Committed
stores that wait (for a tile, or behind a release) come before those of the open segment (R356). -/
def ownStores (s : State) (core : Nat) (a : Acc) : List (Phys × Nat × Nat) :=
  let c := s.core core
  let before := c.accs.takeWhile fun x => x.id != a.id
  (c.accs.filterMap fun x => match x.kind, x.phys with
    | .wr, some ph => if before.contains x || storeBefore a x.seq x.lane then some (ph, x.n, x.val) else none
    | _, _ => none) ++
  (c.arch.stores.filter fun b => storeBefore a b.seq b.lane).flatMap fun b =>
    (storeParts s c (s.dieBase + core / 64) b).filterMap fun p => (walkPhys c b.walks p.1).map fun ph => (ph, p.2.1, p.2.2)
/-- A load sees the core's own stores at its location under whatever virtual address they were made (R356): their bytes are laid over the
landing's, beside those that the issue found by virtual address. -/
def forwardStores (s : State) (core : Nat) (a : Acc) (ph : Phys) : State :=
  let c := s.core core
  let parts := (ownStores s core a).filterMap fun p => if p.1.loc = ph.loc ∧ p.1.die = ph.die then some (p.1.pa, p.2.1, p.2.2) else none
  if parts = [] then s
  else s.setCore core { c with bobs := c.bobs.map fun b =>
    if b.id = a.bob then let r := overlay parts ph.pa a.n a.off (b.ovl, b.mask); { b with ovl := r.1, mask := r.2 } else b }

/-- Hand a translated read on: to the L1 if it holds the line (acquires read at the home), else to its path. -/
def handRead (s : State) (core : Nat) (a : Acc) (va : Nat) (ph : Phys) : State :=
  let s := forwardStores s core a ph
  let c := s.core core
  let line := ph.pa / 128
  -- a load behind one of the core's own to the location that is still under way goes the same way (R221)
  let behind := s.xacts.any fun x => x.mkind == 0 && x.mid == coreMid s core && !isWrite x.kind && sameLoc x.ph ph
  match if a.acq ∨ ph.loc > 2 ∨ behind then none else l1Find c ph.loc ph.die line with
  | some (x, c) =>
    let v := x.data.toNat / 256 ^ (ph.pa % 128) % 256 ^ a.n
    sendData (sinterX (s.setCore core c) (coreXact s core a va ph)) core ⟨a.bob, a.off, a.n, v, max s.gtc (leastDue a.t0 10), 0⟩
  | none => addXact s (coreXact s core a va ph)

/-- Hand a translated store on: the L1 line is updated, the write joins its path. -/
def handWrite (s : State) (core : Nat) (a : Acc) (ph : Phys) : State :=
  let s := s.setCore core (l1Store (s.core core) ph a.n a.val)
  addXact s (coreXact s core a a.va ph)

/-- Drop an access of a core. -/
def dropAcc (s : State) (core id : Nat) : State :=
  let c := s.core core
  s.setCore core { c with accs := c.accs.filter fun a => a.id != id }

/-- Where a core access goes: its VAs, or a wait for a busy tile (R206, R210, R215). -/
inductive AccAt where
  | wait
  | fill (v : Nat)
  | va (l : List Nat)
deriving DecidableEq, Repr

def accAt (s : State) (core : Nat) (a : Acc) : AccAt :=
  match a.elem with
  | none => .va [a.va]
  | some (d, x) =>
    let die := s.dieBase + core / 64
    let ctx := (s.core core).ctx
    match a.kind with
    | .wr =>
      let l := admitWrite s ctx d x die
      if l.any fun y => (match y with | .wait => true | _ => false) then .wait
      else .va (l.filterMap fun y => match y with | .at v => some v | _ => none)
    | _ => (match admitRead s ctx d x die with
        | .wait => .wait
        | .out => .fill (dFill d).toNat
        | .at v => .va [v])

/-- Does an access wait for a busy tile? Such an access lets the accesses of the core behind it go on (R216). -/
def accWaits (s : State) (core : Nat) (a : Acc) : Bool := accAt s core a == .wait
/-- The oldest access that has no translation yet and does not wait for a tile. -/
def firstAcc (s : State) (core : Nat) : Option Acc := (s.core core).accs.find? fun a => a.phys.isNone && !accWaits s core a

/-- Hand on the committed stores that are translated, in order; a release waits for every access before it (R158, R225). -/
def handOn : Nat → State → Nat → State
  | 0, s, _ => s
  | n + 1, s, core =>
    let l := (s.core core).accs.filter fun a => match a.kind with | .walk => false | _ => true
    match l.find? fun a => !accWaits s core a with
    | some a => (match a.kind, a.phys with
        | .wr, some ph =>
          if a.rel.isSome ∧ l.head? ≠ some a then s else handOn n (handWrite (dropAcc s core a.id) core a ph) core
        | _, _ => s)
    | none => s

/-- Where a VA of a committed element lies, by the translation its segment found before its commit (R355). -/
def pagePhys (a : Acc) (va : Nat) : Option Phys :=
  (a.pages.find? fun p => p.1 == va / 65536).map fun p => { p.2 with pa := p.2.pa / 65536 * 65536 + va % 65536 }

/-- Kind of access a walk asks permission for. -/
def accKind (a : Acc) : AccT := match a.kind with | .rd => .read | _ => .write

/-- Take a translation fault in a core (R67, R355): the segment rolls back. -/
def accTrap (s : State) (core : Nat) (a : Acc) (va code lvl : Nat) (e : Word) : State :=
  let cu : Cursor := ⟨core, a.lane, a.seq, a.pos, 0, false, false, s.gtc⟩
  let wr := match a.kind with | .rd => false | _ => true
  s.setCore core (takeTrap cu ⟨code, 0, a.lane, lvl, BitVec.ofNat 64 va, wr, e⟩ (s.core core))

/-- TRANSLATION_WALK_COMPLETE: the walk of the core's oldest untranslated access reports a translation or a fault. -/
def execTranslationWalkComplete (core id : Nat) (s : State) : Host.Outcome State Fault Refusal :=
  let c := s.core core
  match firstAcc s core with
  | none => .next s
  | some a =>
    if a.id ≠ id then .next s
    else match accAt s core a with
    | .wait => .next s
    | .fill v => .next (sendData (dropAcc s core id) core ⟨a.bob, a.off, a.n, v, s.gtc, 0⟩)
    | .va l =>
      match l.findSome? fun va => if (pagePhys a va).isSome then none else (match translate s core c.ctx va (accKind a) mUser with
          | .fault code lvl e => some (va, code, lvl, e) | .ok _ _ _ => none) with
      | some (va, code, lvl, e) => .next (accTrap s core a va code lvl e)
      | none =>
        let s := l.foldl (fun s va => match pagePhys a va with
         | some ph => handWrite s core { a with va := va } ph
         | none => match translate s core c.ctx va (accKind a) mUser with
          | .ok ph lvl e =>
            let s := tlbFill s core c.ctx va lvl e
            (match a.kind with
            | .rd => handRead s core a va ph
            | .wr => handWrite s core { a with va := va } ph
            | .walk => s.setCore core { s.core core with accs := (s.core core).accs.map fun x => if x.id = id then { x with phys := some ph } else x })
          | .fault _ _ _ => s) s
        let s := match a.kind with | .walk => s | _ => dropAcc s core id
        finish (checkEnd (handOn (s.core core).accs.length s core) (s.core core).launch)

/-- The walk a core's accesses wait for, if it can report now: in a core that runs, or one that translates. A committed store faults no
more, since its segment cannot roll back: its element of a tile converted since then waits until it translates (R355; log 115). Accesses
of a segment that a fence opened wait for the fence (R229 to R232). -/
def walkReady (s : State) (core : Nat) : Option Nat :=
  let c := s.core core
  match firstAcc s core with
  | none => none
  | some a =>
    if c.waits != [] && decide (a.seq ≥ c.arch.segK) && (match a.kind with | .wr => false | _ => true) then none
    else match accAt s core a with
    | .wait => none
    | .fill _ => some a.id
    | .va l =>
      let run := match c.mode, a.kind with | _, .wr => false | .run, _ => true | _, _ => false
      -- a walk waits until a way leads to the tables (R42)
      if l.any fun va => (pagePhys a va).isNone && walkHeld s core c.ctx va then none else
      let ok := l.all fun va => (pagePhys a va).isSome || (match translate s core c.ctx va (accKind a) mUser with | .ok _ _ _ => true | _ => false)
      if run || ok then some a.id else none

/-! ### Commit (R158) -/

/-- Has every store of the open segment translated (R355)? -/
def storesWalked (c : Core) : Bool := c.accs.all fun a => match a.kind with | .walk => a.phys.isSome | _ => true

/-- VAs that the elements of a store through a slot go to, those of a busy tile as before its conversion (R210; log 115). -/
def slotTargets (s : State) (core : Nat) (b : BufStore) : List Nat :=
  match b.kind with
  | .dev _ _ => []
  | .slot d w elems => elems.flatMap fun e =>
      (writeTargets s (s.core core).ctx d e.1 (s.dieBase + core / 64)).flatMap fun va => [va, va + w / 8 - 1]
/-- The pages that such elements need and no walk of the store has found. -/
def pagesLeft (s : State) (core : Nat) (b : BufStore) : List Nat :=
  let c := s.core core
  (slotTargets s core b).foldl (fun l va =>
    if (walkPhys c b.walks va).isSome || l.any (fun x => x / 65536 == va / 65536) then l else l ++ [va]) []
/-- Are walks of the open segment's slot stores still to be asked for: elements whose tile was converted, or was busy, since their issue? -/
def walksLeft (s : State) (core : Nat) : Bool := (s.core core).arch.stores.any fun b => pagesLeft s core b != []
/-- Ask for them: the commit waits until they report (R355). -/
def askWalks (s : State) (core : Nat) : State :=
  (s.core core).arch.stores.foldl (fun s b =>
    let l := pagesLeft s core b
    if l = [] then s
    else
      let c := s.core core
      let cu : Cursor := ⟨core, b.lane, b.seq, b.pos, 0, false, false, s.gtc⟩
      let ids := (List.range l.length).map fun i => c.nextAcc + i
      let c := addAccs c (l.map fun a => mkAcc cu 0 .walk a 1 0 0 0)
      s.setCore core { c with arch := { c.arch with stores := c.arch.stores.map fun x => if x = b then { x with walks := x.walks ++ ids } else x } }) s

/-- The committed accesses of one buffered store. -/
def storeAccs (c : Core) (g : Nat) (b : BufStore) : List Acc :=
  let cu : Cursor := ⟨0, b.lane, b.seq, b.pos, 0, false, false, g⟩
  let pages := c.accs.filterMap fun a => if b.walks.contains a.id then a.phys.map fun p => (a.va / 65536, p) else none
  match b.kind with
  | .dev parts rel => parts.map fun p => { mkAcc cu 0 .wr p.1 p.2.1 p.2.2 0 0 with phys := walkPhys c b.walks p.1, rel := rel }
  | .slot d w elems => elems.map fun e => { mkAcc cu 0 .wr 0 (w / 8) e.2 0 0 with elem := some (d, e.1), pages := pages }

/-- Beats and drains issued before the checkpoint are folded into the state at the checkpoint (R167). -/
def isFolded (p : Pend) : Bool := match p.eff with | .beat _ _ _ _ _ _ _ _ => true | .spad _ => p.lane == 8 | _ => false
def foldMatrix (c : Core) : Core :=
  let l := sortPend (c.arch.pend.filter isFolded)
  l.foldl (fun c p => applyEff p c) { c with arch := { c.arch with pend := c.arch.pend.filter fun p => !isFolded p } }

/-- A command enters the time-sorted buffer (R377). -/
def enterCmd (g : Nat) (x : ShCmd) : ShCmd :=
  { x with teff := if x.t.toNat ≤ g then g else x.t.toNat, late := decide (x.t ≠ 0) && decide (x.t.toNat < g) }

/-- Send one posted request (R309, R358, R390 to R395). -/
def sendPosted (s : State) (core : Nat) (p : Posted) : State :=
  let d := core / 64
  let c := s.core core
  match p with
  | .spawn lo hi => spawnGroup s core lo.toNat hi.toNat
  | .relay img => { s with convs := s.convs ++ [⟨s.nextId, false, c.ctx, d, img, false, [], false, false, 0, []⟩], nextId := s.nextId + 1 }
  | .reshard img va => { s with convs := s.convs ++ [⟨s.nextId, true, c.ctx, d, img, false, [], dRly img, false, va, []⟩], nextId := s.nextId + 1 }
  | .vset i img =>
    let y := s.die d
    s.setDie d { y with vent := FMap.set 0 y.vent i (if vtV img then vtSet img 221 9 c.ctx else 0), ventSt := FMap.erase y.ventSt i }
  | .vready i => let y := s.die d; s.setDie d { y with fires := y.fires ++ [(i, core, s.gtc)] }
  | .vgroup g destroy mask =>
    -- to a die of another module a packet leaves at once (log 111)
    ((List.range 32).filter fun j => mask.getLsbD j).foldl (fun s j =>
      let t := BitVec.ofNat 64 (s.gtc + 16)
      if (localDie s j).isSome then { s with grpUpd := s.grpUpd ++ [(j, g, destroy, t)] }
      else sendPacket s d (core % 64) ⟨mkHdr 9 1 (s.dieBase + d) (core % 64) j 49 false 0 0 c.ctx 0 0 0 s.gtc,
        padData [BitVec.ofNat 64 g, if destroy then 1 else 0, t], [], .plain⟩) s
  | .collmode on => s.setDie d { s.die d with ventMode := on }
  | .aflags clr => s.setCore core { c with aflags := c.aflags &&& ~~~clr }
  | .daflags clr => s.setDie d { s.die d with daflags := (s.die d).daflags &&& ~~~clr }

/-- Words of the segment go out on their circuits; popped words are freed (R152, R374). -/
def commitChans (c : Core) (g : Nat) : Core :=
  let a := c.arch
  let tx := a.pushed.foldl (fun m p =>
    let circ := match FMap.find a.chans p.1 with | some b => b.scirc | none => 0
    FMap.put m p.1 (FMap.get [] m p.1 ++ p.2.map fun w => (circ, w))) c.tx
  let rx := a.popped.foldl (fun m p => FMap.put m p.1 ((FMap.get [] m p.1).drop p.2)) c.rx
  let at_ := a.pushed.foldl (fun m p => if FMap.get [] c.tx p.1 = [] then FMap.put m p.1 (g, false) else m) c.txAt
  { c with tx := tx, txAt := at_, rx := rx, arch := { a with pushed := [], popped := [] } }

/-- The commit of the open segment: everything it holds back becomes permanent and a new segment opens. -/
def commitSegment (s : State) (core : Nat) : State :=
  let c := foldMatrix (s.core core)
  let a := c.arch
  let posted := a.posted
  let writes := a.stores.flatMap (storeAccs c s.gtc)
  let c := { c with accs := c.accs.filter fun x => match x.kind with | .walk => false | _ => true }
  let c := commitChans (addAccs c writes) s.gtc
  let c := { c with shq := c.shq ++ a.cmds.map (enterCmd s.gtc), idCommit := a.nextId, spadLog := [], tilesK := c.tiles, psumK := c.psum
                    landed := [], vols := [], held := false, rowLog := [], rcrc := 0
                    relSpad := (c.relSpad.filter fun (x : Nat × Nat) => !writesDone s core x.2) ++ a.relSpad.map fun x => (x, s.gtc) }
  let a' := { c.arch with relSpad := [], stores := [], cmds := [], posted := [], latch := [], tLive := [], tMod := [], tZero := [], segK := a.lo, segCk := true, uiGo := false, skip := none, acqs := 0 }
  let s := s.setCore core { c with arch := a', keep := a' }
  -- the acquires that landed in the segment are now in effect (R233, R249)
  let s := a.acqs.repeat (fun s => bumpIval s 0 (core + 64 * s.dieBase)) s
  let s := handOn (writes.length + 64) s core
  posted.foldl (fun s p => sendPosted s core p) s

/-- The bundles of the committed segment leave; the next segment's kept state is the present one. -/
def rekeep (s : State) (core : Nat) (f : Arch → Arch) : State :=
  let c := s.core core
  let a := f c.arch
  s.setCore core { c with arch := a, keep := a }

/-- The flags of the row writes still to come, as changes of VXF of their own: each row as the writes before it leave it. -/
def rowFlagItems (c : Core) : List Pend :=
  (c.arch.pend.foldl (fun (acc : Core × List Pend) p => match p.eff with
    | .row t r op v m nf => (applyRow acc.1 t r op v m true,
        if nf then acc.2 else acc.2 ++ [{ p with eff := .flags ((rowFlags (rowRes acc.1 t r op v m)).filter fun f => f.2 != 0) }])
    | _ => acc) (c, [])).2
/-- Entry to the user-level handler (R154). The record that is held carries no flags of VXF (R265): those land when they are due. -/
def enterUi (fl : List Pend) (a : Arch) : Arch :=
  let pc := nextFetchPos a
  let b := { a with uiPc := BitVec.ofNat 16 pc, uiRot := a.rot, uiActive := true, uiHeld := recItems a.pend,
                    uiHeldAt := a.lo, pend := a.pend.filter isFlags ++ fl, uiDepth := a.loops.length }
  redirect b a.lo a.uiVec.toNat

/-- The core is at a closed checkpoint, where a pre-emption saves it. -/
def atSavePoint (c : Core) : Bool := !c.owes && c.arch.allAt c.arch.segK

/-- Record of a core fault (R165, Tables 3.9 and 7.2). -/
def coreRec (s : State) (core : Nat) (t : Trap) (pos : Nat) (frozen : Bool) : BitVec 512 :=
  let detail := BitVec.ofNat 64 (t.sub % 256 + t.lane % 16 * 256)
  faultRec s.gtc t.code 0 (coreMid s core) t.wr frozen (s.core core).ctx (s.dieBase + core / 64) t.va.toNat
    (if t.code ≥ 48 ∧ t.code ≠ 60 then detail else t.pte) t.level (BitVec.ofNat 64 pos)

/-- A commit that would put more than 128 commands in flight waits (R377). -/
def shqFull (c : Core) : Bool := decide (c.shq.length + c.arch.cmds.length > 128)
/-- Is a reshard's map still to land (R367)? -/
def mapPending (c : Core) : Option Pend :=
  c.arch.pend.find? fun p => decide (p.seq ≥ c.arch.segK) && (match p.eff with | .land _ (.map _ _ _ _) _ => true | _ => false)

/-- What follows a commit: the end of the task, a join, the entry to the handler. -/
def afterCommit (s : State) (core : Nat) (ctl : Option (Nat × Ctl)) (ui : Bool) : State :=
  match ctl with
  | some (_, .exit none _) => endTask s core false none
  | some (_, .exit (some x) _) => successor s core x
  | some (_, .exitab sub pos) => endTask s core true (some (coreRec s core (Trap.core 54 sub 0) pos false))
  | some (_, .join dst pos) => joinPark s core dst pos
  | _ => if ui then rekeep s core (enterUi (rowFlagItems (s.core core))) else s

/-- SEGMENT_COMMIT. -/
def execSegmentCommit (core : Nat) (s : State) : Host.Outcome State Fault Refusal :=
  let c := s.core core
  if ¬ atBoundary c ∨ ¬ storesWalked c ∨ shqFull c then .next s
  else if walksLeft s core then .next (askWalks s core)
  else match mapPending c with
    | some p => .next (s.setCore core (takeTrap (pendCursor core s.gtc p) (Trap.illegal 2 p.lane) c))
    | none =>
      let ctl := if endCtl c.arch then c.arch.ctl else none
      finish (afterCommit (commitSegment s core) core ctl (uiNow c))

/-! ### Rollback, freeze and the supervisor handler (R164, R172, R173) -/

/-- Freeze a core with its fault record. -/
def freezeCore (s : State) (core : Nat) (t : Trap) (pos : Nat) : State :=
  let r := coreRec s core t pos true
  let c := s.core core
  let s := s.setCore core { c with mode := .frozen t pos r }
  writeFault s c.ctx (portOf (core / 64)) r

/-- A rerun pair interrupted by a rollback starts afresh (Table 7.6). -/
def freshPair (c : Core) : Core := { c with vols := [], rerun := c.rerun.map fun r => { r with run := 1, volA := [], heldA := false } }

/-- Loads whose Bobbin entry is gone have no answer to give. -/
def dropOrphans (s : State) (core : Nat) : State :=
  let c := s.core core
  { s with xacts := s.xacts.filter fun (x : Xact) => match x.ret with | .load k b _ => k != core || c.bobs.any fun y => y.id == b | _ => true }

/-- ROLLBACK_COMPLETE: NOTPRESENT and COW enter the supervisor handler; every other code freezes the core with a record. -/
def execRollbackComplete (core : Nat) (s : State) : Host.Outcome State Fault Refusal :=
  let c := s.core core
  match c.mode with
  | .rolled t pos =>
    let s := dropOrphans (s.setCore core (freshPair c)) core
    let s := traceCore s core 10 (t.code + 256 * t.sub) (BitVec.ofNat 64 (nextFetchPos c.arch))
    if t.code = 60 then
      -- Sinter has written the record (R251)
      .next (s.setCore core { s.core core with mode := .frozen t pos (coreRec s core t pos true) })
    else if t.code = 1 ∨ t.code = 7 then
      let c := s.core core
      .next { s.setCore core { c with mode := .handler t pos false 0 } with cow := FMap.put s.cow c.ctx (FMap.get [] s.cow c.ctx ++ [core]) }
    else finish (freezeCore s core t pos)
  | _ => .next s

/-- Release a context's copy-on-write lock. -/
def cowRelease (s : State) (ctx : Nat) : State :=
  let l := (FMap.get [] s.cow ctx).drop 1
  { s with cow := if l = [] then FMap.erase s.cow ctx else FMap.put s.cow ctx l }

/-- A line's plaintext through an entry's location. -/
def entryPhys (e : Word) (off : Nat) : Phys := ⟨pteLoc e, pteDie e, pteFrame e + off, pteRoc e, pteNocomp e, pteSysatom e, pteKey e⟩

/-- Copy or zero a page, line by line (R173): plaintext under KEY with the VA tweak. -/
def copyPage (s : State) (ctx page size : Nat) (src : Option Word) (dst : Word) : State :=
  (List.range (size / 128)).foldl (fun s i =>
    let v := match src with | some e => homeRead s ctx (page + 128 * i) 128 (entryPhys e (128 * i)) | none => 0
    let s := match src with | some e => homeUse s ctx (page + 128 * i) (entryPhys e (128 * i)) | none => s
    homeWrite s ctx (page + 128 * i) 128 v (entryPhys dst (128 * i))) s

/-- Set bits [p + n − 1 : p] of an entry. -/
def pteSet (e : Word) (p n v : Nat) : Word := (e &&& ~~~((BitVec.ofNat 64 (2 ^ n - 1)) <<< p)) ||| ((BitVec.ofNat 64 (v % 2 ^ n)) <<< p)

/-- Must the handler wait for a way to what it reads and writes: context, tables, page pool, pages (R10, R42)? -/
def cowHeld (s : State) (core ctx va : Nat) : Bool :=
  let far := fun e => !reaches s (core / 64) e
  let w := walk s ctx va
  let arr := ctxWord s ctx 2
  far (ptrDie s.mod.ctxbase) || walkHeld s core ctx va || (decide ((ctxWord s ctx 3).toNat % 2 ^ 32 ≠ 0) &&
    (far w.die || (pteV w.e && far (pteDie w.e)) || far (ptrDie arr) ||
      far (pteDie (hbm8 s (ptrDie arr) (ptrAddr arr + 8 * ((ctxWord s ctx 3).toNat % 2 ^ 32 - 1))))))
/-- COW_LOCK_ACQUIRE: the handler of the core at the head of its context's lock runs to its shoot-down, its replay or its freeze. -/
def execCowLockAcquire (core : Nat) (s : State) : Host.Outcome State Fault Refusal :=
  let c := s.core core
  match c.mode with
  | .handler t pos false _ =>
    if (FMap.get [] s.cow c.ctx).head? ≠ some core ∨ cowHeld s core c.ctx t.va.toNat then .next s
    else
      let ctx := c.ctx
      let va := t.va.toNat
      let w := walk s ctx va
      let e := w.e
      let zero : Bool := !pteV e && pteW e && (w.lvl == 0 || (decide (w.lvl ≤ 2) && pteLeaf e))
      let out := fun (s : State) => cowRelease s ctx
      if pteV e ∧ w.code = 0 ∧ ¬ pteCow e then .next (out (s.setCore core (replayCore c)))
      else if w.code = 11 then finish (freezeCore (out s) core { t with code := 11, level := w.lvl, pte := e } pos)
      else if ¬ pteV e ∧ ¬ zero then finish (freezeCore (out s) core { t with code := 1, level := w.lvl, pte := e } pos)
      else
        let size := 2 ^ lvlShift w.lvl
        let cnt := (ctxWord s ctx 3).toNat % 2 ^ 32
        if cnt = 0 then finish (freezeCore (out s) core t pos)
        else
          let arr := ctxWord s ctx 2
          let f := hbm8 s (ptrDie arr) (ptrAddr arr + 8 * (cnt - 1))
          if pteLoc f > 1 ∨ pteFrame f % size ≠ 0 then finish (freezeCore (out s) core { t with code := 11 } pos)
          else
            let s := setCtxWord s ctx 3 (BitVec.ofNat 64 ((ctxWord s ctx 3).toNat / 2 ^ 32 * 2 ^ 32 + (cnt - 1)))
            let n := pteSet (pteSet (pteSet (pteSet e 0 1 1) 3 1 1) 5 1 0) 20 3 (pteLoc f)
            let n := pteSet (pteSet n 23 5 (pteDie f)) 28 36 (pteFrame f / 65536)
            let page := va / size * size
            let s := copyPage s ctx page size (if pteCow e ∧ pteV e then some e else none) n
            let s := setHbm s w.die w.ea 8 n.toNat
            let id := s.nextId
            let sh : Shoot := ⟨ctx, false, w.lvl, false, page, .core core id, none, false⟩
            let c := s.core core
            finish { s.setCore core { c with mode := .handler t pos true id } with shoots := s.shoots ++ [sh], nextId := id + 1 }
  | _ => .next s

/-- RETURN from the handler when its shoot-down, and not one of a run that an error ended, is complete (R173). -/
def handlerDone (s : State) (core req : Nat) : State :=
  let c := s.core core
  match c.mode with
  | .handler _ _ true r => if r = req then cowRelease (s.setCore core (replayCore c)) c.ctx else s
  | _ => s

/-! ### Circuits (R42) -/

/-- Mark a circuit broken at both of its end cores: PORTSTAT.BRK of every channel bound to it, in the live and the kept state. -/
def breakAt (circ : Nat) (a : Arch) : Arch :=
  a.chans.foldl (fun a p =>
    let b := p.2
    let sb := b.sen && b.scirc == circ
    let rb := b.ren && b.rcirc == circ
    if sb || rb then
      { a with brk := a.brk ||| ((1 : BitVec 4) <<< p.1)
               chans := FMap.put a.chans p.1 { b with sbrk := b.sbrk || sb, rbrk := b.rbrk || rb } }
    else a) a
/-- Break a circuit: its flits are discarded everywhere, its end cores are marked. -/
def breakCircuit (s : State) (circ : Nat) : State :=
  let drop := fun (m : FMap (List CFlit)) => m.map fun (p : Nat × List CFlit) => (p.1, p.2.filter fun f => f.circ != circ)
  { s with
    cores := s.cores.map fun (p : Nat × Core) => (p.1, { p.2 with arch := breakAt circ p.2.arch, keep := breakAt circ p.2.keep })
    dies := s.dies.map fun (p : Nat × Die) => (p.1, { p.2 with
      routers := p.2.routers.map fun (r : Nat × Router) => (r.1, { r.2 with circ := drop r.2.circ })
      links := p.2.links.map fun (l : Nat × Link) => (l.1, { l.2 with circs := l.2.circs.filter fun x => x != circ }) })
    wires := s.wires.filter fun w => (match w.f.body with | .circuit _ => (w.f.link.extractLsb' 32 12).toNat != circ | _ => true) }
/-- Circuits that end at a core. -/
def coreCircs (c : Core) : List Nat :=
  (c.arch.chans.flatMap fun p => (if p.2.sen then [p.2.scirc] else []) ++ (if p.2.ren then [p.2.rcirc] else [])).eraseDups

/-! ### Detected errors, rerun pairs, retirement (R168 to R171) -/

/-- The bits of a posted request, for the CRC of a run (R169). -/
def postedWord : Posted → Nat × Nat × Nat
  | .spawn lo hi => (1, lo.toNat + 2 ^ 64 * hi.toNat, 128) | .relay d => (2, d.toNat, 2048) | .reshard d va => (3, d.toNat + 2 ^ 2048 * va, 2112)
  | .vset i g => (4, i + 64 * g.toNat, 1088) | .vready i => (5, i, 64) | .vgroup g d m => (6, g + 256 * d.toNat + 512 * m.toNat, 64)
  | .collmode b => (7, b.toNat, 1) | .aflags k => (8, k.toNat, 5) | .daflags k => (9, k.toNat, 5)

/-- CRC of what a run would commit (R169), in commit order: the register and scratchpad writes as they were made, MDRAIN rows
and pushes included, and those still pending at its end; then stores, commands, requests, channel words. -/
def segmentCrc (c : Core) : BitVec 64 :=
  let a := c.arch
  let k := (sortPend (a.pend.filter fun p => decide (p.seq ≥ a.segK))).foldl (fun k p => match effWord p.eff with
    | some (f, r, v, n) => crcNat (crcNat (crcNat (crcNat k f 8) r 16) v n) (p.due - a.segK) 16 | none => k) c.rcrc
  let k := a.stores.foldl (fun k b => match b.kind with
    | .dev parts _ => parts.foldl (fun k p => crcNat (crcNat k p.1 56) p.2.2 64) k
    | .slot d _ el => el.foldl (fun k e => crcNat (crcNat k (dWord d 8 + e.1.foldl (fun x y => x * 2 ^ 32 + y) 0) 256) e.2 64) k) k
  let k := a.cmds.foldl (fun k x => crcNat (crcNat k (x.ch + 8 * x.id.toNat) 35) (x.img.toNat + x.t.toNat * 2 ^ 2432) 2496) k
  let k := a.posted.foldl (fun k p => let w := postedWord p; crcNat (crcNat k w.1 8) w.2.1 w.2.2) k
  a.pushed.foldl (fun k p => p.2.foldl (fun k w => crcNat (crcNat k p.1 2) w.toNat 64) k) k

/-- When every core of a pre-empted launch has saved, its cores become free and it returns to reservation, with its class as effective
class (R111). DESIGN CHOICE (log 119): no trace record is written for it (R128). -/
def allSaved (s : State) (id : Nat) : State :=
  match s.launch id with
  | none => s
  | some l =>
    let live := l.cores.filter fun i => match (s.core i).mode with | .retired => false | _ => true
    match l.phase with
    | .saving =>
      if live.all fun i => l.saved.contains i then
        let s := l.cores.foldl (fun s i => match (s.core i).mode with
          | .saved => s.setCore i { s.core i with mode := .free } | _ => s) s
        s.setLaunch { l with phase := .reserving, resv := [], released := [], saved := [], restore := true, eff := l.cls, frames := 0
                             preempts := l.preempts + 1 }
      else s
    | _ => s

/-- Retire a core (R170). -/
def retireCore (s : State) (core : Nat) : State :=
  let c := rollbackCore (s.core core)
  let pos := match c.arch.fetched c.arch.segK with | some f => f.pos | none => c.arch.fpos
  let s := s.setCore core c
  let s := if c.rerun.isSome then traceCore s core 11 1 (BitVec.ofNat 64 pos) else s
  let r := coreRec s core (Trap.core 55 0 15) pos false
  let circs := coreCircs c
  let ctx := c.ctx
  let tasks := (match c.task with | some t => [t] | none => []) ++ c.parked.map fun p => p.task
  let s := s.setCore core { c with mode := .retired, task := none, parked := [], openGroup := none, rerun := none
                                   unpins := c.unpins ++ heldPins c.arch.tfports, arch := { c.arch with tfports := [] } }
  let s := tasks.foldl (fun s t => requeueTask s core t) s
  let s := circs.foldl breakCircuit s
  let s := match s.launch c.launch with | some l => s.setLaunch { l with nret := l.nret + 1 } | none => s
  let s := { s with mod := { s.mod with retired := s.mod.retired ++ [core] } }
  checkEnd (allSaved (writeFault (abandonTasks s core) ctx (portOf (core / 64)) r) c.launch) c.launch

/-- A granule or row written in the open segment is recovered by a rerun pair; older data are poisoned (Table 7.5). -/
def errInSegment (c : Core) : ErrLoc → Bool
  | .granule g => c.spadLog.any fun x => x.1 == g
  | .row t r => c.rowLog.contains (t, r) || c.rowLog.contains (t, 256)
  | _ => true

/-- The trace record of a rollback that no fault made (KIND 10, Table 5.8). -/
def rollTrace (s : State) (core : Nat) : State := traceCore s core 10 0 (BitVec.ofNat 64 (nextFetchPos (s.core core).arch))

/-- Begin a rerun pair, or a fresh one after a further error (R169, Table 7.6). -/
def startPair (s : State) (core : Nat) : State :=
  let c := s.core core
  let aband := match c.rerun with | some r => r.aband + 1 | none => 0
  if aband ≥ 3 then retireCore s core
  else
    let c := rollbackCore c
    let s := traceCore s core 10 0 (BitVec.ofNat 64 (nextFetchPos c.arch))
    dropOrphans (s.setCore core { c with mode := .run, vols := [], rerun := some ⟨1, aband, 0, 0, false, []⟩ }) core

/-- DETECTED_ERROR (R168, R171). An error in the handler restarts it from its first step (R173). -/
def execDetectedError (core : Nat) (loc : ErrLoc) (s : State) : Host.Outcome State Fault Refusal :=
  let c := s.core core
  let poison := fun sub => .next (s.setCore core (takeTrap ⟨core, 15, 0, nextFetchPos c.arch, 0, false, false, s.gtc⟩ (Trap.core 53 sub 15) c))
  match loc, c.mode with
  | .correctable, _ => .next s
  | .blockState d b, _ => .next (s.setDie d { s.die d with badBlocks := (s.die d).badBlocks ++ [b] })
  | .l1 line, _ => .next (s.setCore core { c with l1 := c.l1.filter fun x => x.line != line })
  | .stored l d k, _ =>
    -- the 128-byte line that holds the bytes
    .next (s.setDie d { s.die d with badLocs := (s.die d).badLocs ++ (List.range 16).map fun i => (l, 16 * k + i) })
  | .data bob, _ =>
    .next (s.setCore core { c with bobs := c.bobs.map fun b => if b.id = bob then { b with poison := 3 } else b })
  | .granule g, .run => if errInSegment c (.granule g) then finish (startPair s core) else poison 1
  | .row t r, .run => if errInSegment c (.row t r) then finish (startPair s core) else poison 2
  | _, .run => finish (startPair s core)
  | _, .handler t pos _ _ => .next (s.setCore core { c with mode := .handler t pos false 0 })
  | _, _ => .next s

/-- RERUN_PAIR_COMPARE: the end of a run of a pair (R169). -/
def execRerunPairCompare (core : Nat) (s : State) : Host.Outcome State Fault Refusal :=
  let c := s.core core
  match c.rerun with
  | none => .next s
  | some r =>
    if ¬ atBoundary c ∨ ¬ storesWalked c ∨ shqFull c then .next s
    else if walksLeft s core then .next (askWalks s core)
    else if c.preempt then
      -- the pair is abandoned and the core saved; a fresh pair runs after restore
      .next (rollTrace (dropOrphans (s.setCore core (freshPair (rollbackCore c))) core) core)
    else if r.run = 1 then
      let crc := segmentCrc c
      let c2 := rollbackCore c
      .next (rollTrace (dropOrphans (s.setCore core { c2 with vols := r.volA, rerun := some { r with run := 2, crcA := crc, ctkA := c.arch.ctk, heldA := c.held } }) core) core)
    else if segmentCrc c = r.crcA ∧ (c.arch.ctk = r.ctkA ∨ r.heldA ∨ c.held) then
      match mapPending c with
      | some p => .next (s.setCore core (takeTrap (pendCursor core s.gtc p) (Trap.illegal 2 p.lane) c))
      | none =>
        let s := traceCore (s.setCore core { c with rerun := none }) core 11 0 (BitVec.ofNat 64 (nextFetchPos c.keep))
        finish (afterCommit (commitSegment s core) core (if endCtl c.arch then c.arch.ctl else none) (uiNow c))
    else finish (retireCore s core)

/-! ### Pre-emption saves (R153, R176) -/

/-- May a pre-empted core save now: a checkpoint, no started Shuttle command outstanding, every landing's data here? -/
def saveReady (c : Core) : Bool :=
  c.preempt &&
  (match c.mode with | .run => atSavePoint c | .idle => true | .frozen _ _ _ => true | _ => false) &&
  (c.shq.all fun x => x.started.isNone || x.frozen) && (c.bobs.all fun b => b.waiting == 0) &&
  (c.accs.all fun a => match a.kind with | .wr => false | _ => true)

/-- A pre-empted core held by a port or channel rolls back to its checkpoint (R153). -/
def saveRolls (c : Core) : Bool :=
  c.preempt && (match c.mode with | .run => true | _ => false) && c.stuck && !atSavePoint c && !atBoundary c

/-- PREEMPT_SAVE: the rollback of a held core, or the save of a core at its checkpoint: its slot is written (`slotBytes`). What is not saved
is dropped: L1, fetched stream data, pins. -/
def execPreemptSave (core : Nat) (s : State) : Host.Outcome State Fault Refusal :=
  let c := s.core core
  if saveRolls c then .next (rollTrace (dropOrphans (s.setCore core (freshPair (rollbackCore c))) core) core)
  else if ¬ saveReady c then .next s
  else
    let c := dropTiles (freshPair (rollbackCore c))
    let a := { c.arch with ports := c.arch.ports.map fun (p : Nat × Port) => (p.1, { p.2 with buf := [] }) }
    let img := { c with arch := a, keep := a, l1 := [], preempt := false, unpins := [] }
    let l := c.launch
    let s := s.setCore core { Core.init with
      mode := .saved, l1Epoch := c.l1Epoch + 1, unpins := c.unpins, arch := { Arch.init with spfmt := c.arch.spfmt }, keep := { Arch.init with spfmt := c.arch.spfmt } }
    let s := { s with saves := (s.saves.filter fun (x : Nat × Nat × Core) => !(x.1 == l && x.2.1 == core)) ++ [(l, core, img)]
               }
    let s := setPool s l core (slotBytes (coreMid s core) s.gtc img)
    match s.launch l with
    | none => .next s
    | some x =>
      let s := trace s x (core / 64) 8 (core % 64) (saveFlags img) img.arch.ctk
      .next (allSaved (s.setLaunch { x with saved := x.saved ++ [core] }) l)

/-! ### Fences (R229 to R232, R396) -/

/-- Is a write of a core on one of the given paths not yet performed? -/
def pathBusy (s : State) (core : Nat) (pick : Xact → Bool) : Bool :=
  s.xacts.any fun x => masterCore x.mkind x.mid == some (coreMid s core) && pick x && (match x.st with | .answered => false | _ => true)
/-- Has a core any access of its CORE path not yet performed? -/
def coreBusy (s : State) (core : Nat) : Bool :=
  let c := s.core core
  pathBusy s core (fun x => x.mkind == 0) ||
    (c.accs.any fun a => match a.kind with | .walk => false | .wr => true | .rd => decide (a.seq < c.arch.segK))
/-- Is a Shuttle command of a core committed before the fence not complete? -/
def shuttleBusy (c : Core) : Bool := c.shq != []

/-- Does a held operation's condition hold (R229 to R231)? FENCEX path sets: bit 0 CORE, bit 1 MATRIX, bit 2 SHUTTLE. -/
def waitMet (s : State) (core : Nat) : Wait → Bool
  | .fence _ => !coreBusy s core
  | .fencex _ p _ => (p % 2 == 0 || !coreBusy s core) && (p / 4 % 2 == 0 || !shuttleBusy (s.core core))
  | .flush => !coreBusy s core && !shuttleBusy (s.core core) &&
      !(s.xacts.any fun x => masterCore x.mkind x.mid == some (coreMid s core))
  | .slotld _ _ => false

/-- What stream ports have fetched ahead is discarded: later pops read after the fence (R229, R230). -/
def dropPortBufs (c : Core) : Core :=
  { c with arch := { c.arch with ports := c.arch.ports.map fun (p : Nat × Port) => (p.1, { p.2 with buf := [] }) } }
/-- FENCE_CONDITION_MET: the fence's conditions hold and the core issues again; a fence wider than .core drops the L1, a fencex whose
second set names MATRIX discards what the tile-fetch buffers hold. -/
def execFenceConditionMet (core : Nat) (s : State) : Host.Outcome State Fault Refusal :=
  let c := s.core core
  match c.waits with
  | [] => .next s
  | w :: rest =>
    if ¬ waitMet s core w then .next s
    else
      let c := { c with waits := rest }
      let c := match w with
        | .fence sc => dropPortBufs (if sc = 0 then c else l1Drop c)
        | .fencex sc _ q =>
          let c := if q % 2 = 1 then dropPortBufs (if sc = 0 then c else l1Drop c) else c
          if q / 2 % 2 = 1 then
            { c with unpins := c.unpins ++ heldPins c.arch.tfports
                     arch := { c.arch with tfports := c.arch.tfports.map fun (p : Nat × TfPort) => (p.1, { p.2 with buf := [], formed := p.2.taken }) } }
          else c
        | _ => c
      .next (s.setCore core c)

/-! ### Tile fetch and pins (R187 to R189, R373) -/

/-- Release one pin: the line is uncharged when its count reaches 0. -/
def unpinOne (s : State) (p : Nat × Nat) : State :=
  let d := p.1 / 2
  let loc := p.1 % 2
  let y := s.die d
  match y.pins.find? fun q => q.loc == loc && q.line == p.2 with
  | none => s
  | some q =>
    if q.count ≤ 1 then
      let k := q.owner * 64 + l2Slice q.line
      s.setDie d { y with pins := y.pins.filter fun z => !(z.loc == loc && z.line == p.2), charged := FMap.set 0 y.charged k (FMap.get 0 y.charged k - 1) }
    else s.setDie d { y with pins := y.pins.map fun z => if z.loc = loc ∧ z.line = p.2 then { z with count := z.count - 1 } else z }
/-- Release the pins a core has given up. -/
def releasePins (s : State) (core : Nat) : State :=
  let c := s.core core
  c.unpins.foldl unpinOne (s.setCore core { c with unpins := [] })

/-- Offer a line of local die d for pinning: granted, refused for WAY, refused for QUOTA. -/
inductive PinAns where | grant | way | quota
deriving DecidableEq, Repr
def pinLine (s : State) (d ctx loc line : Nat) : PinAns × State :=
  let y := s.die d
  match y.pins.find? fun q => q.loc == loc && q.line == line with
  | some q =>
    if q.count ≥ 255 then (.way, s)
    else (.grant, s.setDie d { y with pins := y.pins.map fun z => if z.loc = loc ∧ z.line = line then { z with count := z.count + 1 } else z })
  | none =>
    if (y.pins.filter fun q => l2Key q.line == l2Key line).length ≥ 12 then (.way, s)
    else
      let k := ctx * 64 + l2Slice line
      let n := FMap.get 0 y.charged k
      if n ≥ ctxQuota s ctx then (.quota, s)
      else (.grant, s.setDie d { y with pins := y.pins ++ [⟨loc, line, 1, ctx⟩], charged := FMap.set 0 y.charged k (n + 1) })

/-- Count a refusal in TFSTAT, in the live and the kept state. -/
def tfRefuse (w : Bool) (a : Arch) : Arch :=
  { a with tfNref := if a.tfNref = -1 then a.tfNref else a.tfNref + 1, tfWay := a.tfWay || w, tfQ := a.tfQ || !w }

/-- Where a tile-fetch read may go: L2 of this die's HBM, second tier, or the weight store (log 40). -/
def tfPage (s : State) (d : Nat) (ph : Phys) : Bool := decide (ph.loc ≤ 2) && (ph.loc == 2 || decide (localDie s ph.die = some d))

/-- Lines fetched for one operand: those pinned, those offered for pinning (R187): die and LOC, line. -/
structure TfLines where
  pins : List (Nat × Nat)
  offered : List (Nat × Nat)
deriving DecidableEq, Repr

/-- Read n bytes for tile fetch, offering each L2 line once for an operand. -/
def tfRead (s : State) (core ctx va n : Nat) (l : TfLines) : Except MFault (Nat × TfLines × State) :=
  let d := core / 64
  (pieces8 va n (n / 8 + 2)).foldlM (fun (acc : Nat × TfLines × State) p =>
    let (v, l, s) := acc
    match translate s core ctx p.1 .read mUser with
    | .fault c lv e => .error ⟨c, lv, e, p.1⟩
    | .ok ph lv e =>
      if ¬ tfPage s d ph then .error ⟨2, 7, e, p.1⟩
      else
        let s := checkAbsent (tlbFill s core ctx p.1 lv e) ph.loc ph.die ph.pa p.2.1
        let key := (2 * d + ph.loc, ph.pa / 128)
        let v := v + homeRead s ctx p.1 p.2.1 ph * 256 ^ p.2.2
        let s := sinterBy s (mCore s core) ctx p.1 ph 8
        if lineBad s ph then .error ⟨53, 7, 0, p.1⟩
        else if ph.loc = 2 then .ok (v, l, wsUnit s (2 ^ 21 + core) ph)
        else if l.offered.contains key then .ok (v, l, s)
        else
          let l := { l with offered := l.offered ++ [key] }
          match pinLine (homeUse s ctx p.1 ph) d ctx ph.loc (ph.pa / 128) with
          | (.grant, s) => .ok (v, { l with pins := l.pins ++ [key] }, s)
          | (ans, s) =>
            let c := s.core core
            let w := match ans with | .way => true | _ => false
            .ok (v, l, s.setCore core { c with arch := tfRefuse w c.arch, keep := tfRefuse w c.keep })) (0, l, s)

/-- The trap an operand carries that could not be fetched: poisoned data give POISON SUB 3 (R168). -/
def tileTrap (e : MFault) : Trap := if e.code = 53 then Trap.core 53 3 8 else mfTrap 8 false e
/-- Form operand k of a tile-fetch pattern; none while a tile is busy or a weight-store bank holds. An operand of an emptied slot carries
ILLEGAL_OP SUB 2, one with a partial-summed element PARTIAL_READ (R200, R207, R215). -/
def formTile (s : State) (core : Nat) (g : BitVec 768) (k : Nat) : Option (TfEntry × State) :=
  let c := s.core core
  let fmt := patFmtOf c g
  let w := fmtWidth fmt
  let live := patLive fmt g k
  -- positions past the end of a row read FILL, zero bytes for the block formats (R370)
  let rest : VWord := if fmtIsByte fmt then fillV w (patFill g) else 0
  if patSlotm g then
    let d := patImg c g
    let die := s.dieBase + core / 64
    if patEmpty c g then some (⟨0, some (Trap.illegal 2 8), []⟩, s)
    else if patPartial c g then some (⟨0, some (Trap.core 52 (patSlot g) 8), []⟩, s)
    else
      let r := (List.range live).foldlM (fun (acc : VWord × Option Trap × TfLines × State) i =>
        let (val, bad, l, s) := acc
        let x := patCoord d fmt g k i
        let setE := fun (e : Nat) =>
          (val &&& ~~~(BitVec.ofNat 4096 (2 ^ w - 1) <<< (w * i))) ||| (BitVec.ofNat 4096 (e % 2 ^ w) <<< (w * i))
        if bad.isSome then some acc
        else if isOut d x then some (setE (outElem s c.ctx d x die), none, l, s)
        else if partialRead s c.ctx d x die then some (val, some (Trap.core 52 (patSlot g) 8), l, s)
        else match admitRead s c.ctx d x die with
          | .out => some acc
          | .wait => none
          | .at va =>
            let bits : Bool := !fmtIsByte fmt
            let a := if bits then va / 8 else va
            let n := if bits then (va % 8 + w + 7) / 8 else w / 8
            if vaHeld s core c.ctx a n mUser then none
            else match tfRead s core c.ctx a n l with
            | .ok (v, l, s) => some (setE (if bits then v / 2 ^ (va % 8) else v), none, l, s)
            | .error e => some (val, some (tileTrap e), l, s))
        (rest, none, ⟨[], []⟩, s)
      r.map fun r => (⟨r.1, r.2.1, r.2.2.1.pins⟩, r.2.2.2)
  else
    let va := (patAddr fmt g k % 2 ^ 64).toNat
    let n := live * w / 8
    if vaHeld s core c.ctx va n mUser then none
    else match tfRead s core c.ctx va n ⟨[], []⟩ with
    | .ok (v, l, s') => some (⟨(rest &&& ~~~(lowMask 1 (8 * n))) ||| BitVec.ofNat 4096 v, none, l.pins⟩, s')
    | .error e => some (⟨0, some (tileTrap e), []⟩, s)

/-- May a tile-fetch port fetch? -/
def tileWants (c : Core) (n : Nat) : Bool :=
  match FMap.find c.arch.tfports n with
  | some p => decide (p.buf.length < 8) && decide (p.formed < patTotal (patFmtOf c p.img) p.img)
  | none => false

/-- TILE_FETCH: the next operand enters the port's buffer. -/
def execTileFetch (core port : Nat) (s : State) : Host.Outcome State Fault Refusal :=
  let s := releasePins s core
  let c := s.core core
  match FMap.find c.arch.tfports port with
  | none => .next s
  | some p =>
    if ¬ tileWants c port then .next s
    else match formTile s core p.img p.formed with
      | none => .next s
      | some (e, s) =>
        let c := s.core core
        finish (s.setCore core { c with arch := { c.arch with tfports := FMap.put c.arch.tfports port { p with buf := p.buf ++ [e], formed := p.formed + 1 } } })

end Sys2Proof.Machine
end

