-- ==== Sys2Proof/Machine/ShuttleRun.lean ====
section
/-! DEFINITION. What the Shuttle does with its commands: start, moves, conversion, accumulates, completion; the Spindle's own channel
(R96, R182, R183, R376 to R389). -/
namespace Sys2Proof.Machine

/-! ### Masters and faults -/

/-- Identifier of a Shuttle channel: core × 8 + channel. -/
def chanMid (s : State) (core ch : Nat) : Nat := coreMid s core * 8 + ch
def getCmd (s : State) (core ch : Nat) (id : BitVec 32) : Option ShCmd := (s.core core).shq.find? fun x => x.ch == ch && x.id == id
def setCmd (s : State) (core : Nat) (x : ShCmd) : State :=
  let c := s.core core
  s.setCore core { c with shq := c.shq.map fun y => if y.ch = x.ch ∧ y.id = x.id then x else y }

/-- Write the record of a channel's fault. -/
def chanRec (s : State) (core : Nat) (x : ShCmd) (wr frozen : Bool) (e : MFault) : BitVec 512 :=
  faultRec s.gtc e.code 1 (chanMid s core x.ch) wr frozen x.ctx (s.dieBase + core / 64) e.va e.e e.lvl (x.id.setWidth 64)
/-- A translation fault freezes the channel (R67, R380). -/
def chanFault (s : State) (core : Nat) (x : ShCmd) (wr : Bool) (e : MFault) : State :=
  let r := chanRec s core x wr true e
  let s := setCmd s core { x with frozen := true }
  let c := s.core core
  writeFault (s.setCore core { c with shFault := FMap.put c.shFault x.ch r }) x.ctx (portOf (core / 64)) r

/-! ### Granules (R381, R382) -/

/-- Index ij of granule p in loop dimension j, i0 varying fastest. -/
def granIdx (g : BitVec 2432) (p j : Nat) : Nat := p / ((List.range j).map (cpCount g)).prod % cpCount g j
/-- Address of a granule on one side, in the address kinds. -/
def granAddr (g : BitVec 2432) (dst : Bool) (p : Nat) : Int :=
  (List.range 8).foldl (fun (a : Int) j => a + granIdx g p j * cpStr g dst j) (cpBase g dst).toNat
/-- Coordinate of a granule on one side, in the slot kind; a coordinate below 0 is given as one beyond every extent. -/
def granCoord (g : BitVec 2432) (d : BitVec 2048) (dst : Bool) (p : Nat) : List Nat :=
  (List.range (dRank d)).map fun x =>
    let v : Int := (List.range 8).foldl (fun (a : Int) j =>
      if j ≤ cpNdm1 g ∧ cpDim g dst j = x then a + granIdx g p j * cpStr g dst j else a) (cpX g dst x)
    if v < 0 then 2 ^ 40 else v.toNat

/-- A place a granule is read from or written to. -/
inductive Place where
  | va (a : Nat)
  | sp (a : Nat)
deriving DecidableEq, Repr
/-- The location of a place. -/
def Place.key : Place → Nat | .va a => a / 8 | .sp a => 2 ^ 70 + a / 8
def Place.off : Place → Nat | .va a => a % 8 | .sp a => a % 8

/-- Translate a place; a scratchpad address that is not valid faults with LEVEL 7 (R180). -/
def placePhys (s : State) (t ctx : Nat) (p : Place) (n : Nat) (acc : AccT) (m : MasterT) : Except MFault (Phys × State) :=
  match p with
  | .va a => (match translate s t ctx a acc m with
      | .fault c l e => .error ⟨c, l, e, a % 2 ^ 56⟩
      | .ok ph l e => .ok (ph, tlbFill s t ctx a l e))
  | .sp a => (match spadPhys s ctx a n with
      | some ph => .ok (ph, s)
      | none => .error ⟨if acc = .write then 3 else 2, 7, 0, a % 2 ^ 56⟩)

/-- Where granule p is written: none while a tile is busy; one place per replica. -/
def dstPlaces (s : State) (core : Nat) (x : ShCmd) (p : Nat) : Option (List Place) :=
  match x.dslot with
  | some d =>
    let co := granCoord x.img d true p
    if isOut d co then some []
    else
      let l := admitWrite s x.ctx d co (s.dieBase + core / 64)
      if l.any fun y => (match y with | .wait => true | _ => false) then none
      else some (l.filterMap fun y => match y with | .at v => some (.va v) | _ => none)
  | none =>
    let a := (granAddr x.img true p % 2 ^ 64).toNat
    some [if cpDk x.img = 1 then .sp a else .va a]

/-- Destination units of a command: (granule, replica) pairs, in order. -/
def cmdUnit (p : Nat) : Nat × Nat := (p / 32, p % 32)
/-- Has an earlier unit of the command written the location? -/
def keySeen (s : State) (core : Nat) (x : ShCmd) (key u : Nat) : Bool :=
  (List.range (u / 32 + 1)).any fun p => match dstPlaces s core x p with
    | some l => l.zipIdx.any fun y => y.1.key == key && decide (p * 32 + y.2 < u)
    | none => false

/-- What a started copy or fill does next. -/
inductive ShNext where
  | done
  | wait
  | skip (u : Nat)
  | write (u key : Nat) (pl : Place)
deriving DecidableEq, Repr
def copyNext (s : State) (core : Nat) (x : ShCmd) : ShNext :=
  let u := x.pos
  let (p, j) := cmdUnit u
  if p ≥ cpTotal x.img then .done
  else match dstPlaces s core x p with
    | none => .wait
    | some l => match l[j]? with
      | none => .skip ((p + 1) * 32)
      | some pl => if keySeen s core x pl.key u then .skip (u + 1) else .write u pl.key pl

/-- Row r of a converting copy: scratchpad address on one side. -/
def rowAddr (g : BitVec 2432) (dst : Bool) (r : Nat) : Nat := (granAddr g dst (r * cpCount g 0) % 2 ^ 64).toNat
def rowCount (g : BitVec 2432) : Nat := cpTotal g / cpCount g 0
/-- Bytes of n elements in a bank format; mx4 keeps 1 024 elements in 544 bytes. -/
def bankBytes (fmt n : Nat) : Nat := if fmt = 6 then n / 1024 * 544 else n * bankWidth fmt / 8
/-- Is everything a command writes on its way or performed? -/
def cmdMoved (s : State) (core : Nat) (x : ShCmd) : Bool :=
  match x.kind with
  | .copy => (match x.conv with
      | some _ => decide (x.pos / 65536 ≥ rowCount x.img)
      | none => (match copyNext s core x with | .done => true | _ => false))
  | .fill => (match copyNext s core x with | .done => true | _ => false)
  | _ => x.acted || x.unacked == 0 && x.status != 0

/-- Where granule p of a copy is read: `wait` while a tile is busy, nowhere where it is FILL. -/
inductive Source where
  | wait
  | fill (v : Nat)
  | at (pl : Place)
deriving DecidableEq, Repr
def srcPlace (s : State) (core : Nat) (x : ShCmd) (p : Nat) : Source :=
  let n := cpGran x.img
  match x.kind with
  | .fill => .fill ((recWord x.img 4).toNat % 256 ^ n)
  | _ =>
    match x.sslot with
    | some d =>
      let co := granCoord x.img d false p
      let out := Source.fill ((dFill d).toNat % 256 ^ n)
      if isOut d co then out
      else (match admitRead s x.ctx d co (s.dieBase + core / 64) with | .wait => .wait | .out => out | .at v => .at (.va v))
    | none =>
      let a := (granAddr x.img false p % 2 ^ 64).toNat
      .at (if cpSk x.img = 1 then .sp a else .va a)

/-! ### Path order (R221, R377) -/

/-- Has a command all its accesses on their way? -/
def cmdSent (s : State) (core : Nat) (x : ShCmd) : Bool :=
  match x.kind with | .copy => cmdMoved s core x | .fill => cmdMoved s core x | _ => x.acted || x.unacked != 0 || x.status != 0
/-- Do n bytes at a place overlap m bytes at a location? -/
def placeHits (s : State) (core : Nat) (y : ShCmd) (pl : Place) (n : Nat) (ph : Phys) (m : Nat) : Bool :=
  match placePhys s core y.ctx pl n .read mUser with
  | .ok (q, _) => q.loc == ph.loc && q.die == ph.die && decide (q.pa / 8 ≤ (ph.pa + m - 1) / 8) && decide (ph.pa / 8 ≤ (q.pa + n - 1) / 8)
  | .error _ => false
/-- May an access that a command has still to make touch m bytes at a location? -/
def cmdTouches (s : State) (core : Nat) (y : ShCmd) (ph : Phys) (m : Nat) : Bool :=
  let n := cpGran y.img
  match y.kind, y.conv with
  | .copy, some (f, regs) =>
    (List.range (rowCount y.img - y.pos / 65536)).any fun i =>
      let r := y.pos / 65536 + i
      let k := cpCount y.img 0
      let da := rowAddr y.img true r
      placeHits s core y (.sp (rowAddr y.img false r)) (bankBytes (f.toNat % 16) k) ph m ||
        placeHits s core y (.sp da) (bankBytes ((FMap.get 0 regs (da / 2 ^ 18)).toNat % 16) k) ph m
  | .copy, none =>
    (List.range (cpTotal y.img - y.pos / 32)).any fun i =>
      let p := y.pos / 32 + i
      (match srcPlace s core y p with | .wait => true | .fill _ => false | .at pl => placeHits s core y pl n ph m) ||
        (match dstPlaces s core y p with | none => true | some l => l.any fun pl => placeHits s core y pl n ph m)
  | .fill, _ =>
    (List.range (cpTotal y.img - y.pos / 32)).any fun i =>
      match dstPlaces s core y (y.pos / 32 + i) with | none => true | some l => l.any fun pl => placeHits s core y pl n ph m
  | .sigw _ _, _ => placeHits s core y (.va (recWord y.img 0).toNat) 8 ph m
  | _, _ => let a := (recWord y.img 0).toNat; placeHits s core y (if acSpa y.img then .sp a else .va a) 8 ph m
/-- Has a command of the channel that started before x an access to m bytes at a location still to make? One that a fault froze comes later. -/
def orderHeld (s : State) (core : Nat) (x : ShCmd) (ph : Phys) (m : Nat) : Bool :=
  (s.core core).shq.any fun y => y.ch == x.ch && y.id != x.id && !y.frozen && !y.killed &&
    (match y.started, x.started with | some a, some b => decide (a < b) | _, _ => false) && !cmdSent s core y && cmdTouches s core y ph m

/-- Value of a granule: none while a tile is busy, the scratchpad granule is closed, no way leads there, or an earlier access of the channel to it
is still to be made (R221); its fault; or the value read. -/
def granValue (s : State) (core : Nat) (x : ShCmd) (p : Nat) : Option (Except MFault (Nat × State)) :=
  let n := cpGran x.img
  let m := mUser.by 1 (chanMid s core x.ch) (s.dieBase + core / 64) (x.id.setWidth 64)
  match srcPlace s core x p with
  | .wait => none
  | .fill v => some (.ok (v, s))
  | .at pl => match placePhys s core x.ctx pl n .read mUser with
    | .error e => some (Except.error e)
    | .ok (ph, s) =>
      if farHome s ph then (match x.got.find? fun g => g.1 == p with | some g => some (.ok (g.2 % 256 ^ n, s)) | none => none)
      else if granuleClosed s ph ∨ (ph.loc = 2 ∧ wsHeld (ph.pa / 65536 % 8) (s.gtc + 18)) ∨ writesTo s 1 (chanMid s core x.ch) ph n ∨
          orderHeld s core x ph n ∨ (ph.loc ≠ 3 ∧ ¬ reaches s (core / 64) ph.die) then none
      else
        let va := match pl with | .va a => a | .sp a => a
        let (v, s) := homeTake s x.ctx va n ph
        let t := bankTurn (wsUnit (homeUse (checkAbsent s ph.loc ph.die (ph.pa % 2 ^ 52) n) x.ctx va ph) (2 ^ 16 + chanMid s core x.ch) ph) 2 ph
        some (.ok (v, sinterBy t m x.ctx va ph 8))

/-- The access a command writes a location with. -/
def shXact (s : State) (core : Nat) (x : ShCmd) (va n : Nat) (ph : Phys) (kind : XKind) (rel acq : Option Nat) (sc : Nat) : Xact :=
  { id := 0, mkind := 1, mid := chanMid s core x.ch, die := s.dieBase + core / 64, path := 2, ctx := x.ctx, va := va, n := n, ph := ph
    kind := kind, rel := rel, acq := acq, sc := sc, seq := x.seq, num := 0, dv := [], st := .fresh, t0 := s.gtc, val := 0, nack := false
    ret := .sh core x.ch x.id 0, wh := x.id.setWidth 64 }

/-- Ask for granules that lie on another module's die and that go to one location. -/
def askFar (s : State) (core : Nat) (x : ShCmd) (key : Nat) (ps : List Nat) : State :=
  ps.foldl (fun s p =>
    if (match dstPlaces s core x p with | some l => l.any fun y => y.key == key | none => false) then
      match srcPlace s core x p with
      | .at pl => (match placePhys s core x.ctx pl (cpGran x.img) .read mUser with
        | .ok (ph, s) =>
          let ret := Ret.gran core x.ch x.id p
          if farHome s ph ∧ ¬ (x.got.any fun g => g.1 == p) ∧ ¬ (s.xacts.any fun y => y.ret == ret) ∧ ¬ orderHeld s core x ph (cpGran x.img) then
            addXact s { shXact s core x (match pl with | .va a => a | .sp a => a) (cpGran x.img) ph .rd none none 7 with ret := ret }
          else s
        | .error _ => s)
      | _ => s
    else s) s

/-- Combine the granules from p on that lie in one location: value, byte mask, furthest state; none to wait. -/
def gatherLoc (s : State) (core : Nat) (x : ShCmd) (key : Nat) : List Nat → Option (Except MFault (Nat × Nat × State))
  | [] => some (.ok (0, 0, s))
  | p :: rest =>
    match dstPlaces s core x p with
    | none => none
    | some l =>
      match l.find? fun y => y.key == key with
      | none => gatherLoc s core x key rest
      | some pl =>
        match granValue s core x p with
        | none => none
        | some (.error e) => some (.error e)
        | some (.ok (v, s)) =>
          match gatherLoc s core x key rest with
          | some (.ok (w, en, s')) =>
            let n := cpGran x.img
            -- a later granule of the command overwrites an earlier one
            let fresh := (List.range n).filter fun i => !en.testBit (pl.off + i)
            let w := fresh.foldl (fun w i => w + v / 256 ^ i % 256 * 256 ^ (pl.off + i)) w
            some (.ok (w, fresh.foldl (fun en i => en + 2 ^ (pl.off + i)) en, s'))
          | r => r

/-- Move the next location of a plain copy or fill; units that write nothing of their own are passed over. -/
def copyStep : Nat → State → Nat → ShCmd → State
  | 0, s, _, _ => s
  | k + 1, s, core, x =>
    match copyNext s core x with
    | .done => setCmd s core x
    | .wait => setCmd s core x
    | .skip u => copyStep k s core { x with pos := u }
    | .write u key pl =>
      let a := match pl with | .va a => a / 8 * 8 | .sp a => a / 8 * 8
      let ps := (List.range (cpTotal x.img - u / 32)).map fun i => u / 32 + i
      let held : Bool := (match pl with | .va b => walkHeld s core x.ctx b | .sp _ => false) ||
        ps.any fun p => match srcPlace s core x p with | .at (.va b) => decide (p < u / 32 + 64) && walkHeld s core x.ctx b | _ => false
      if held then setCmd s core x
      else match gatherLoc s core x key ps with
      | none => askFar (setCmd s core x) core x key ps
      | some (.error e) => chanFault s core x false e
      | some (.ok (v, en, s)) =>
        match placePhys s core x.ctx (match pl with | .va _ => .va a | .sp _ => .sp a) 8 .write mUser with
        | .error e => chanFault s core x true e
        | .ok (ph, s') =>
          if orderHeld s core x ph 8 then setCmd s core x
          else
            let s := setCmd s' core { x with pos := u + 1, unacked := x.unacked + 1 }
            addXact s (shXact s core x a 8 ph (.wrm v en) none none 7)

/-! ### Converting copies (R182, R383) -/

/-- Format register of the bank that holds a scratchpad address, as the last committed segment left it (R183). -/
def bankReg (s : State) (a : Nat) : BitVec 6 :=
  -- that of another module's core: a free value (log 109)
  if (localDie s (a / 2 ^ 28 % 32)).isNone then BitVec.ofNat 6 (Config.farValue (2 ^ 80 + a / 2 ^ 18) 0) else
  FMap.get 0 (s.core (a / 2 ^ 28 % 32 % 8 * 64 + a / 2 ^ 22 % 64)).keep.spfmt (a / 2 ^ 18 % 16)
def regFmt (r : BitVec 6) : Nat := r.toNat % 16
/-- Is a copy converting: both sides scratchpads whose first banks have different formats, neither RAW? -/
def convOf (s : State) (x : ShCmd) : Option (BitVec 6 × FMap (BitVec 6)) :=
  match x.kind with
  | .copy =>
    let a := bankReg s (cpBase x.img false).toNat
    let b := bankReg s (cpBase x.img true).toNat
    if cpSk x.img = 1 ∧ cpDk x.img = 1 ∧ regFmt a ≠ 0 ∧ regFmt b ≠ 0 ∧ regFmt a ≠ regFmt b then
      some (a, (List.range (rowCount x.img)).foldl (fun m r => let d := rowAddr x.img true r; FMap.put m (d / 2 ^ 18) (bankReg s d)) [])
    else none
  | _ => none

/-- The requirements on a converting copy; a breach is BADLEN. -/
def convOk (s : State) (x : ShCmd) (fs fd : Nat) : Bool :=
  let g := x.img
  let n := cpCount g 0
  let side := fun (dst : Bool) (f : Nat) => (List.range (rowCount g)).all fun r =>
    let a := rowAddr g dst r
    let b := bankBytes f n
    decide (a % 2 ^ 18 + b ≤ 2 ^ 18) && decide (regFmt (bankReg s a) = f) &&
    ((fs != 6 && fd != 6) || a % 2 ^ 18 % 544 == 0)
  cpStr g false 0 == 0 && cpStr g true 0 == 0 && side false fs && side true fd && ((fs != 6 && fd != 6) || n % 1024 == 0)

/-- Value of element i of a row in a bank format. -/
def bankDecode (fmt : Nat) (bytes i : Nat) : XR :=
  match fmt with
  | 1 => f32.decode (elem 32 bytes i) | 2 => f16.decode (elem 16 bytes i) | 3 => bf16.decode (elem 16 bytes i)
  | 4 => e4m3.decode (elem 8 bytes i) | 5 => e5m2.decode (elem 8 bytes i)
  | 6 =>
    let blk := bytes / 256 ^ (i / 1024 * 544)
    let sc := elem 8 blk (512 + i % 1024 / 32)
    if sc = 255 then .nan else XR.scale ((sc : Int) - 127) (e2m1.decode (elem 4 blk (i % 1024)))
  | 7 => XR.ofInt (toSigned 8 (elem 8 bytes i)) | 8 => XR.ofInt (toSigned 16 (elem 16 bytes i))
  | _ => XR.ofInt (toSigned 32 (elem 32 bytes i))
/-- A signalling NaN of a source element raises invalid (R253). -/
def bankSnan (fmt bytes i : Nat) : FlagBits :=
  match fmt with
  | 1 => f32.snanFlag (elem 32 bytes i) | 2 => f16.snanFlag (elem 16 bytes i) | 3 => bf16.snanFlag (elem 16 bytes i)
  | 5 => e5m2.snanFlag (elem 8 bytes i) | _ => 0

/-- Encode a row of n elements: bytes and flags. -/
def rowEncode (fs : Nat) (reg : BitVec 6) (bytes n : Nat) : Nat × FlagBits :=
  let fd := regFmt reg
  let mode : RMode := if reg.getLsbD 5 then .rtz else .rne
  let xs := (List.range n).map (bankDecode fs bytes)
  let sn := (List.range n).foldl (fun (fl : FlagBits) i => fl ||| bankSnan fs bytes i) 0
  if fd = 6 then
    (List.range (n / 1024)).foldl (fun (acc : Nat × FlagBits) b =>
      (List.range 32).foldl (fun (acc : Nat × FlagBits) k =>
        let r := mxEncode mode ((List.range 32).map fun i => xs.getD (1024 * b + 32 * k + i) .nan)
        let v := packElems 4 (fun i => (r.2.getD i (0, 0)).1) 32
        (acc.1 + v * 256 ^ (544 * b + 16 * k) + r.1 * 256 ^ (544 * b + 512 + k), r.2.foldl (fun fl p => fl ||| p.2) acc.2)) acc) (0, sn)
  else
    let enc := xs.map (bankEncode fd mode (reg.getLsbD 4))
    (packElems (bankWidth fd) (fun i => (enc.getD i (0, 0)).1) n, enc.foldl (fun fl p => fl ||| p.2) sn)

/-- Move the next location of a converting copy: `pos` counts row × 2^16 + location of the row. -/
def convStep (s : State) (core : Nat) (x : ShCmd) (fs : Nat) (regs : FMap (BitVec 6)) : State :=
  let g := x.img
  let r := x.pos / 65536
  let k := x.pos % 65536
  if r ≥ rowCount g then s
  else
    let n := cpCount g 0
    let sa := rowAddr g false r
    let da := rowAddr g true r
    let reg := FMap.get 0 regs (da / 2 ^ 18)
    let sb := bankBytes fs n
    let db := bankBytes (regFmt reg) n
    match spadPhys s x.ctx sa sb, spadPhys s x.ctx da db with
    | none, _ => chanFault s core x false ⟨2, 7, 0, sa % 2 ^ 56⟩
    | _, none => chanFault s core x true ⟨3, 7, 0, da % 2 ^ 56⟩
    | some sp, some dp =>
      let closed := fun (ph : Phys) (n : Nat) => (List.range (n / 64 + 2)).any fun i => granuleClosed s { ph with pa := ph.pa + min (64 * i) (n - 1) }
      if closed sp sb ∨ writesTo s 1 (chanMid s core x.ch) sp sb ∨ orderHeld s core x sp sb ∨ orderHeld s core x dp db ∨
          ¬ reaches s (core / 64) sp.die then s
      else
        let (v, fl) := rowEncode fs reg (homeRead s x.ctx sa sb sp) n
        let s := bankTurn s 2 sp
        let lo := max da ((da / 8 + k) * 8)
        let hi := min (da + db) ((da / 8 + k + 1) * 8)
        if lo ≥ hi then setCmd s core { x with pos := (r + 1) * 65536, flags := x.flags ||| fl }
        else
          let s := setCmd s core { x with pos := x.pos + 1, unacked := x.unacked + 1 }
          addXact s (shXact s core x lo (hi - lo) { dp with pa := dp.pa + (lo - da) } (.wr (v / 256 ^ (lo - da) % 256 ^ (hi - lo))) none none 7)

/-! ### Start (R377, R383, R384, R386, R387) -/

/-- Does a command wait as a release before it starts? An operation that gives up a lock is a release at .sys (R247, R386). -/
def isRelease (x : ShCmd) : Bool :=
  match x.kind with
  | .sigw _ _ => true
  | .acc => decide (acOrd x.img ≥ 2) || acAop x.img == 13 || acAop x.img == 15
  | .accr => decide (acOrd x.img ≥ 2) || acAop x.img == 13 || acAop x.img == 15
  | _ => false
/-- What a release waits for: the channel's started commands, and every committed store of the core (R386). -/
def releaseHeld (s : State) (core : Nat) (x : ShCmd) : Bool :=
  let c := s.core core
  isRelease x && ((c.shq.any fun y => y.ch == x.ch && y.started.isSome) ||
    (c.accs.any fun a => match a.kind with | .wr => true | _ => false) ||
    pathBusy s core (fun y => y.mkind == 0 && isWrite y.kind))

/-- Is a command an acquire (R386, R388)? -/
def isAcquire (x : ShCmd) : Bool :=
  match x.kind with
  | .acc => acAop x.img == 12 || acAop x.img == 14
  | .accr => acOrd x.img % 2 == 1 || acAop x.img == 12 || acAop x.img == 14
  | _ => false
/-- Has a channel a started acquire whose value is not yet fixed, after which its later commands come (R226)? -/
def acquireHeld (s : State) (core : Nat) (x : ShCmd) : Bool :=
  (s.core core).shq.any fun y => y.ch == x.ch && y.id != x.id && y.started.isSome && isAcquire y && !y.acted && !y.killed && y.status == 0
/-- Are the accesses of the channel's commands that started before x performed? Completion is a release of all of them (R225, R239). A frozen
command's come after it. -/
def earlierMoved (s : State) (core : Nat) (x : ShCmd) (moved : ShCmd → Bool) : Bool :=
  (s.core core).shq.all fun y => y.ch != x.ch || y.id == x.id || y.frozen || y.killed ||
    (match y.started, x.started with | some a, some b => decide (b ≤ a) | _, _ => true) || (y.unacked == 0 && moved y)

/-- Order in which waiting commands start. -/
def cmdLe (x y : ShCmd) : Bool :=
  decide (x.teff < y.teff) || (x.teff == y.teff && (decide (x.ch < y.ch) || (x.ch == y.ch && (x.id == y.id || serialLt x.id y.id))))
/-- The command that starts now, if any: the least of those due whose channel is not frozen; a held release holds its channel only; at
most one starts in a cycle (R377). -/
def cmdToStart (s : State) (core : Nat) : Option ShCmd :=
  let c := s.core core
  let due := c.shq.filter fun x => x.started.isNone && !x.killed && decide (x.teff ≤ s.gtc) && (FMap.find c.shFault x.ch).isNone
  let first := due.filter fun x => due.all fun y => y.ch != x.ch || cmdLe x y
  -- a core to be pre-empted starts no more: what waits is saved (R176)
  if c.shStart = some s.gtc ∨ c.preempt then none
  else (first.filter fun x => !releaseHeld s core x && !acquireHeld s core x).foldl (fun b x => match b with
    | none => some x | some y => if cmdLe y x then b else some x) none

/-- A read through a PSUM map completes a copy with FAULT (R382); while RSH = 1, also one through an old PSUM map of a piece not yet done
(R215). -/
def copyPartial (s : State) (core : Nat) (x : ShCmd) : Bool :=
  match x.sslot with
  | some d => mHasPsum (if dRsh d then dNmap d else dMap d) || (dRsh d && mHasPsum (dMap d) && (List.range (cpTotal x.img)).any fun p =>
      partialRead s x.ctx d (granCoord x.img d false p) (s.dieBase + core / 64))
  | none => false

/-- Start an accumulate or a signal write: its one access joins the channel's path. -/
def startAmo (s : State) (core : Nat) (x : ShCmd) : State :=
  let g := x.img
  let send := fun (pl : Place) (n : Nat) (kind : XKind) (acc : AccT) (rel acq : Option Nat) (sc aop w : Nat) =>
    match placePhys s core x.ctx pl n acc mUser with
    | .error e => chanFault s core x true e
    | .ok (ph, s) =>
      if ph.loc = 3 ∧ acc = .amo ∧ ¬ hostAmo aop w then
        -- not performed: what an accr then returns the spec does not state, a free value (log 36)
        let s := setCmd s core { x with status := 3, acted := true }
        match x.kind with
        | .accr => sendData { s with free := s.free + 1 } core ⟨x.bob, 0, 8, (Config.freeValue s.free).toNat % 2 ^ w, s.gtc, 0⟩
        | _ => s
      -- an earlier command of the channel is still to access the location (R221): it is sent later
      else if orderHeld s core x ph n then s
      else
        let s := setCmd s core { x with unacked := 1 }
        addXact s { shXact s core x (match pl with | .va a => a | .sp a => a) n ph kind rel acq sc with sig := match x.kind with | .sigw _ _ => true | _ => false }
  let a := (recWord g 0).toNat
  match x.kind with
  | .sigw sc add =>
    if add then send (.va a) 8 (.amo 1 64 x.q 0 0 0 0 false) .amo (some sc) none sc 1 64
    else send (.va a) 8 (.wr x.q.toNat) .write (some sc) none 7 0 0
  | _ =>
    let aop := acAop g
    let w := if acW g then 64 else 32
    let sc := if isLockOp aop then 4 else acScope g
    let rel := if aop = 13 ∨ aop = 15 ∨ acOrd g ≥ 2 then some sc else none
    let acq := if aop = 12 ∨ aop = 14 ∨ acOrd g % 2 = 1 then some sc else none
    send (if acSpa g then .sp a else .va a) (w / 8) (.amo aop w x.q (recWord g 3) (acKey g) (acStrm g) x.id (acDmax g)) .amo rel acq sc aop w

/-- Start one command. -/
def startCmd (s : State) (core : Nat) (x : ShCmd) : State :=
  let x := { x with started := some s.gtc }
  let s := setCmd (s.setCore core { s.core core with shStart := some s.gtc }) core x
  match x.kind with
  | .copy =>
    let last := 32 * cpTotal x.img
    let cv := convOf s x
    if copyPartial s core x then setCmd s core { x with status := 5, pos := last }
    else match cv with
      | some (a, _) =>
        if convOk s x (regFmt a) (regFmt (bankReg s (cpBase x.img true).toNat)) then setCmd s core { x with conv := cv }
        else setCmd s core { x with status := 2, pos := last }
      | none => s
  | .fill => s
  | .cow => s
  | _ => startAmo s core x

/-- The Spindle's channel of a die starts its oldest copy. -/
def startCopy (s : State) (die : Nat) : State :=
  match s.qcopies.find? fun y => y.q / 8 == die && !y.started && !(s.queue y.q).frozen with
  | none => s
  | some y => { s with qcopies := s.qcopies.map fun (z : QCopy) => if z.q = y.q ∧ z.num = y.num then { z with started := true } else z }

/-- SHUTTLE_COMMAND_START: on a core, or on the Spindle's channel of a die (core number die × 64 + 48). -/
def execShuttleCommandStart (core : Nat) (s : State) : Host.Outcome State Fault Refusal :=
  if core % 64 = 48 then .next (startCopy s (core / 64))
  else match cmdToStart s core with
    | none => .next s
    | some x => finish (startCmd s core x)

/-! ### Moves -/

/-- The number under which ACCESS_PERFORMED_AT_HOME names the next location of a started command. -/
def moveId (core ch : Nat) (id : BitVec 32) : Nat := 2 ^ 64 + (core * 256 + ch) * 2 ^ 32 + id.toNat

/-- Mark a queue copy as the one that faulted. -/
def copyFailed (s : State) (y : QCopy) : State :=
  { s with qcopies := s.qcopies.map fun (z : QCopy) => if z.q = y.q ∧ z.num = y.num then { z with failed := true } else z }

/-- Does a Spindle copy wait for one of its channel that started earlier, whose accesses come before its own (R221, R225)? -/
def copyWaits (s : State) (y : QCopy) : Bool :=
  (s.qcopies.takeWhile fun z => !(z.q == y.q && z.num == y.num)).any fun z =>
    z.q / 8 == y.q / 8 && z.started && !z.failed && !(s.queue z.q).frozen && !(decide (z.pos ≥ z.len) && z.unacked == 0)
/-- The next n source bytes of a Spindle copy; none while those on another module's die are on their way. -/
def copySource (s : State) (y : QCopy) (n : Nat) (m : MasterT) : Except MFault (Option Nat × State) :=
  let q := y.q
  let ctx := (s.queue q).qctx.toNat
  let t := tlbSpindle (q / 8)
  (pieces8 (y.src + y.pos) n 3).foldlM (fun (acc : Option Nat × State) p =>
    let (v, s) := acc
    let off := y.pos + p.2.2
    let put := fun (w : Nat) => v.map fun v => v + w % 256 ^ p.2.1 * 256 ^ p.2.2
    match translate s t ctx p.1 .read m with
    | .fault c l e => .error ⟨c, l, e, p.1⟩
    | .ok ph l e =>
      let ret := Ret.source q y.num off
      if ¬ farHome s ph then do
        let (w, s) ← vaRead s t ctx p.1 p.2.1 m
        .ok (put w, s)
      else match y.got.find? fun g => g.1 == off with
        | some g => .ok (put g.2, s)
        | none =>
          if s.xacts.any fun x => x.ret == ret then .ok (none, s)
          else .ok (none, addXact (tlbFill s t ctx p.1 l e)
            { id := 0, mkind := 4, mid := q, die := s.dieBase + q / 8, path := 2, ctx := ctx, va := p.1, n := p.2.1, ph := ph, kind := .rd
              rel := none, acq := none, sc := 7, seq := 0, num := 0, dv := [], st := .fresh, t0 := s.gtc, val := 0, nack := false
              ret := ret, wh := pktWhere s q y.num })) (some 0, s)
/-- Where the next bytes of a Spindle copy go: a 128-byte unit of the weight store is checked once, when it translates (R190). -/
def copyDest (s : State) (y : QCopy) (a : Nat) (m : MasterT) : TRes × Option (Nat × Phys) :=
  match y.unit with
  | some (u, ph) => if u = a / 128 then (.ok { ph with pa := ph.pa + a % 128 } 0 0, y.unit) else copyNew
  | none => copyNew
where
  copyNew : TRes × Option (Nat × Phys) :=
    match translate s (tlbSpindle (y.q / 8)) (s.queue y.q).qctx.toNat a .write m with
    | .ok ph l e => (.ok ph l e, if ph.loc = 2 then some (a / 128, { ph with pa := ph.pa / 128 * 128 }) else none)
    | r => (r, none)
/-- Bytes a Spindle copy writes to its next destination location. -/
def qcopyStep (s : State) (y : QCopy) : State :=
  let q := y.q
  let ctx := (s.queue q).qctx.toNat
  let t := tlbSpindle (q / 8)
  let wh := pktWhere s q y.num
  let a := y.dst + y.pos
  let n := min (8 - a % 8) (y.len - y.pos)
  let m := mSpindle.by 4 q (s.dieBase + q / 8) wh
  if y.pos ≥ y.len ∨ copyWaits s y ∨ (¬ y.fill ∧ vaHeld s t ctx (y.src + y.pos) n m) ∨ (y.unit.isNone ∧ walkHeld s t ctx a) then s
  else
    let r : Except MFault (Option Nat × State) := if y.fill then .ok (some (y.pat.toNat % 256 ^ n), s) else copySource s y n m
    match r with
    | .error e => mfQueue (copyFailed s y) q false e wh
    | .ok (none, s) => s
    | .ok (some v, s) =>
      match copyDest s y a m with
      | (.fault c l e, _) => mfQueue (copyFailed s y) q true ⟨c, l, e, a % 2 ^ 56⟩ wh
      | (.ok ph l e, u) =>
        let s := if y.unit.isNone ∨ u.isNone then tlbFill s t ctx a l e else s
        let s := { s with qcopies := s.qcopies.map fun (z : QCopy) => if z.q = q ∧ z.num = y.num then
          { z with pos := z.pos + n, unacked := z.unacked + 1, unit := u, got := z.got.filter fun g => !(decide (y.pos ≤ g.1) && decide (g.1 < y.pos + n)) } else z }
        addXact s { id := 0, mkind := 4, mid := q, die := s.dieBase + q / 8, path := 2, ctx := ctx, va := a, n := n, ph := ph, kind := .wr v
                    rel := none, acq := none, sc := 7, seq := 0, num := 0, dv := [], st := .fresh, t0 := s.gtc, val := 0, nack := false
                    ret := .sh (q / 8 * 64 + 48) (q % 8) (BitVec.ofNat 32 y.num) 0, wh := wh }

/-- Move the next location of a started command. -/
def shuttleMove (s : State) (core ch : Nat) (id : BitVec 32) : State :=
  if core % 64 = 48 then
    match s.qcopies.find? fun y => y.q == core / 64 * 8 + ch && y.num % 2 ^ 32 == id.toNat && y.started with
    | some y => if (s.queue y.q).frozen then s else qcopyStep s y
    | none => s
  else match getCmd s core ch id with
    | none => s
    | some x =>
      if x.frozen ∨ x.killed ∨ x.started.isNone then s
      else match x.conv with
        | some (a, m) => convStep s core x (regFmt a) m
        | none => (match x.kind with
          | .copy => if x.status = 0 ∧ copyPartial s core x then setCmd s core { x with status := 5, pos := 32 * cpTotal x.img } else copyStep 64 s core x
          | .fill => copyStep 64 s core x
          | .cow => s
          | _ => if cmdSent s core x then s else startAmo s core x)

/-- ACCESS_PERFORMED_AT_HOME: an access that waits at its home is served, or a started command moves its next location. -/
def execAccessPerformedAtHome (id : Nat) (s : State) : Host.Outcome State Fault Refusal :=
  if id ≥ 2 ^ 64 then
    let k := id - 2 ^ 64
    finish (shuttleMove s (k / 2 ^ 40) (k / 2 ^ 32 % 256) (BitVec.ofNat 32 k))
  else match s.xacts.find? fun x => x.id == id with
    | none => .next s
    | some x => if mayPerform s x then finish (performX s x) else .next s

/-! ### Completion (R378, R380, R389) -/

/-- Completion record of a command: none for VA 0. -/
def cmdCrec (x : ShCmd) : Nat :=
  match x.kind with
  | .copy => (recWord x.img 3).toNat % 2 ^ 56 | .fill => (recWord x.img 3).toNat % 2 ^ 56
  | .acc => (recWord x.img 4).toNat % 2 ^ 56 | .accr => (recWord x.img 4).toNat % 2 ^ 56
  | _ => 0
def cmdNote (x : ShCmd) : Bool :=
  match x.kind with | .copy => cpNote x.img | .fill => cpNote x.img | .acc => acNote x.img | .accr => acNote x.img | _ => false
/-- Scope of the command's completion (R239, R378). -/
def cmdScope (x : ShCmd) : Nat :=
  match x.kind with | .copy => cpScope x.img | .fill => cpScope x.img | .acc => acScope x.img | .accr => acScope x.img | _ => 0
/-- Words of the record (Table 16.7). -/
def cmdRecord (s : State) (x : ShCmd) : Nat :=
  let st := if x.killed then 1 else x.status
  x.id.toNat + st * 2 ^ 32 + x.flags.toNat * 2 ^ 40 + (if x.late then 2 ^ 45 else 0) + (if x.zm then 2 ^ 46 else 0) + x.ch * 2 ^ 47 +
    2 ^ 64 * (x.started.getD s.gtc) + 2 ^ 128 * (x.last.getD s.gtc)

/-- May a command complete? -/
def cmdReady (s : State) (core : Nat) (x : ShCmd) : Bool :=
  !x.frozen && x.unacked == 0 && (x.killed || (x.started.isSome && cmdMoved s core x && earlierMoved s core x (cmdMoved s core)))

/-- The command leaves its channel, a release of the channel (R239, R378); NOTE sets the channel's bit of UICTL.PEND (R154), in the live and the kept state. A killed accr lands
all ones unless its access was performed (R380). -/
def retireCmd (s : State) (core : Nat) (x : ShCmd) : State :=
  let s := match x.kind with | .accr => if x.acted then s else sendData s core ⟨x.bob, 0, 8, 2 ^ 64 - 1, s.gtc, 0⟩ | _ => s
  let c := s.core core
  let note := fun (a : Arch) => if cmdNote x then { a with uiPend := a.uiPend ||| ((1 : BitVec 8) <<< x.ch) } else a
  bumpIval (s.setCore core { c with shq := c.shq.filter fun y => !(y.ch == x.ch && y.id == x.id), arch := note c.arch, keep := note c.keep }) 1
    (chanMid s core x.ch)

/-- Completion of a Spindle copy: the signal is decremented, then the packet completes (R96). -/
def completeCopy (s : State) (y : QCopy) : State :=
  let q := y.q
  let drop := fun (s : State) => { completePkt s q y.num none with qcopies := s.qcopies.filter fun (z : QCopy) => !(z.q == q && z.num == y.num) }
  if y.sig = 0 then drop s
  else match vaAmoOut s 4 q 2 (s.queue q).qctx.toNat y.sig (-1)
      (mSpindle.by 4 q (s.dieBase + q / 8) (pktWhere s q y.num)) with
    | .error e => mfQueue (copyFailed s y) q true e (pktWhere s q y.num)
    | .ok (_, s) => drop s

/-- Write a command's record, a release; nothing of it when some of it faults. Where it leaves the die, its answers come back to the command as
number 1, and it is complete with the last (R378, R389). -/
def recordPut (s : State) (core : Nat) (x : ShCmd) (m : MasterT) : State × Option MFault :=
  let va := cmdCrec x
  match (pieces8 va 32 6).findSome? fun p => match translate s core x.ctx p.1 .write m with | .fault c l e => some (MFault.mk c l e p.1) | _ => none with
  | some e => (s, some e)
  | none =>
    let n := s.xacts.length
    let (s, f) := vaPut true (.sh core x.ch x.id 1) s core x.ctx va 32 (cmdRecord s x) m
    let k := s.xacts.length - n
    (match getCmd s core x.ch x.id with | some y => setCmd s core { y with recOut := true, unacked := k } | none => s, f)

/-- SHUTTLE_COMMAND_COMPLETE. -/
def execShuttleCommandComplete (core ch : Nat) (id : BitVec 32) (s : State) : Host.Outcome State Fault Refusal :=
  if core % 64 = 48 then
    match s.qcopies.find? fun y => y.q == core / 64 * 8 + ch && y.num % 2 ^ 32 == id.toNat with
    | some y =>
      let k := relKeyCopy y.q y.num
      if ¬ (y.started ∧ y.pos ≥ y.len ∧ y.unacked = 0 ∧ ¬ (s.queue y.q).frozen) then .next s
      else if y.sig ≠ 0 ∧ ¬ relOpen s (core / 64) k then .next (relMark s (core / 64) k)
      else finish (completeCopy (relDone s (core / 64) k) y)
    | none => .next s
  else match getCmd s core ch id with
    | none => .next s
    | some x =>
      let k := relKeySh core ch id
      if ¬ cmdReady s core x then .next s
      else if cmdScope x ≠ 0 ∧ ¬ relOpen s (core / 64) k then .next (relMark s (core / 64) k)
      else
      let s := relDone s (core / 64) k
      let m := mUser.by 1 (chanMid s core x.ch) (s.dieBase + core / 64) (x.id.setWidth 64)
      if cmdCrec x = 0 ∨ x.recOut then .next (retireCmd s core x)
      else if walkHeld s core x.ctx (cmdCrec x) ∨ walkHeld s core x.ctx (cmdCrec x + 31) then .next s
      else match recordPut s core x m with
        | (s, none) => finish (match getCmd s core ch id with
            -- requests of the record to another die are on their way: the command completes when they are performed
            | some y => if y.recOut ∧ y.unacked ≠ 0 then s else retireCmd s core y
            | none => s)
        | (s, some e) =>
          if x.killed then
            finish (retireCmd (writeFault s x.ctx (portOf (core / 64)) (chanRec s core x true false e)) core x)
          else finish (chanFault s core x true e)

/-- Resume a frozen channel: the faulting command runs again from its first byte, unless only its record is left (R380, R389). -/
def chanResume (s : State) (core ch : Nat) : State :=
  let c := s.core core
  let again := fun (x : ShCmd) =>
    if x.ch = ch ∧ x.frozen then
      if cmdMoved s core x then { x with frozen := false }
      else match x.kind with
        | .copy => { x with frozen := false, pos := 0, got := [] } | .fill => { x with frozen := false, pos := 0 }
        | _ => { x with frozen := false, started := none }
    else x
  s.setCore core { c with shFault := FMap.erase c.shFault ch, shq := c.shq.map again }
/-- Kill a frozen channel: the faulting and the waiting commands are killed, and no further byte of them is written (R380). -/
def chanKill (s : State) (core ch : Nat) : State :=
  let c := s.core core
  let dead := fun (x : Xact) => match x.ret with
    | .sh k h id _ => k == core && h == ch && (c.shq.any fun y => y.ch == ch && y.id == id && y.frozen)
    | _ => false
  let s := { s with xacts := s.xacts.map fun (x : Xact) => if dead x ∧ x.st ≠ XStat.answered then (match x.kind with | .wr _ => { x with kind := .wrm 0 0 } | .wrm _ _ => { x with kind := .wrm 0 0 } | _ => x) else x }
  s.setCore core { c with shFault := FMap.erase c.shFault ch
                          shq := c.shq.map fun (x : ShCmd) => if x.ch = ch ∧ (x.frozen ∨ x.started.isNone) then { x with frozen := false, killed := true } else x }

end Sys2Proof.Machine
end

