-- ==== Sys2Proof/Machine/Fabric.lean ====
section
/-! DEFINITION. The fabric: routers, bridge and link ends, flits, link states, slot tables, packets, vector clocks, time
synchronisation (R23, R24, R32 to R51, R406). -/
namespace Sys2Proof.Machine

/-! ### Places (R10, R32) -/

/-- Units of a die: routers 0 to 47, external link ends 48 to 55, bridge ends 56 west, 57 east, 58 row. A unit number of 64 + r stands
for the local side of router r. -/
def isEnd (unit : Nat) : Bool := decide (48 ≤ unit) && decide (unit ≤ 58)
/-- Bridge end and lane behind ports 6 and 7 of a router. -/
def bridgeAt (d r p : Nat) : Option (Nat × Nat) :=
  let row := r / 8
  let col := r % 8
  if p ≠ 6 ∧ p ≠ 7 then none
  else if col = 0 ∧ unitExists d 56 then some (56, row * 2 + (p - 6))
  else if col = 7 ∧ unitExists d 57 then some (57, row * 2 + (p - 6))
  else if row = 5 ∧ 1 ≤ col ∧ col ≤ 6 then some (58, (col - 1) * 2 + (p - 6))
  else none
/-- Router and port behind a lane of a bridge end. -/
def laneRouter (unit lane : Nat) : Nat × Nat :=
  match unit with
  | 56 => (lane / 2 * 8, 6 + lane % 2)
  | 57 => (lane / 2 * 8 + 7, 6 + lane % 2)
  | _ => (41 + lane / 2, 6 + lane % 2)
/-- Does a port exist at a unit (Table 2.1)? DESIGN CHOICES (log 111): Table 2.1 numbers the ports of routers only; here a bridge or link
end has port 0 towards the die and port 1 towards the line, one byte of its slot table governs all 12 lanes of a bridge end, and
`bridgeAt` gives ports 6 and 7 of the routers their lanes. -/
def portExists (d unit p : Nat) : Bool :=
  if isEnd unit then unitExists d unit && decide (p ≤ 1)
  else if unit ≥ 48 then false
  else
    let row := unit / 8
    let col := unit % 8
    match p with
    | 0 => decide (row ≥ 1) | 1 => decide (col ≤ 6) | 2 => decide (row ≤ 4) | 3 => decide (col ≥ 1)
    | 4 => true | 5 => true
    | 6 => (bridgeAt d unit 6).isSome | 7 => (bridgeAt d unit 7).isSome
    | 8 => decide (row = 0) | 9 => decide (unit = 0) && (d == 0 || d == 4)
    | _ => false

/-- Where a flit that leaves an output arrives: die, unit, port, latency; none leaves the module on an external link. -/
def flitDest (d unit p lane : Nat) : Option (Nat × Nat × Nat × Nat × Nat) :=
  if isEnd unit then
    if p = 0 then
      let (r, q) := if unit ≤ 55 then (unit - 48, 8) else laneRouter unit lane
      some (d, r, q, lane, 1)
    else if unit ≤ 55 then none
    else let (pd, pu) := bridgePeer d unit; some (pd, pu, 1, lane, 6)
  else match p with
    | 0 => some (d, unit - 8, 2, lane, 1) | 1 => some (d, unit + 1, 3, lane, 1)
    | 2 => some (d, unit + 8, 0, lane, 1) | 3 => some (d, unit - 1, 1, lane, 1)
    | 8 => some (d, 48 + unit, 0, lane, 1)
    | 6 => (bridgeAt d unit 6).map fun b => (d, b.1, 0, b.2, 1)
    | 7 => (bridgeAt d unit 7).map fun b => (d, b.1, 0, b.2, 1)
    | _ => some (d, 64 + unit, p, lane, 1)

/-! ### Routes (R48) -/

/-- Packets that wait at a unit: the fewer, the more free credits it has given (log 42). -/
def waiting (s : State) (d unit : Nat) : Nat := let r := (s.die d).router unit; r.be.length + r.out.length
/-- The neighbour of a router behind ports 0 to 3. -/
def neighbour (r p : Nat) : Nat := match p with | 0 => r - 8 | 1 => r + 1 | 2 => r + 8 | _ => r - 1
/-- Output from router r towards another router of the same die: of the productive directions the one with the most free credits, ties
east or west; on the escape channel east or west first (R48). -/
def routeOn (s : State) (d r t : Nat) (esc : Bool) : Nat :=
  let ew := if r % 8 < t % 8 then 1 else 3
  let ns := if r / 8 < t / 8 then 2 else 0
  if r % 8 = t % 8 then ns
  else if r / 8 = t / 8 ∨ esc then ew
  else if waiting s d (neighbour r ns) < waiting s d (neighbour r ew) then ns else ew
/-- The least occupied of some units, the first of equals; on the escape channel the first. -/
def leastOf (s : State) (d : Nat) (esc : Bool) : List Nat → Option Nat
  | [] => none
  | u :: t => some (if esc then u else t.foldl (fun b x => if waiting s d x < waiting s d b then x else b) u)
/-- ACTIVE external link ends of a die that lead to a module. -/
def linksTo (s : State) (d m : Nat) : List Nat :=
  ((List.range 8).filter fun k => linkActive s d (48 + k) && (Config.linkModule d k).toNat == m).map fun k => 48 + k
/-- Bridges to cross from die d to die t of the module. -/
def dieHops (d t : Nat) : Nat := (max (d % 4) (t % 4) - min (d % 4) (t % 4)) + (if d / 4 = t / 4 then 0 else 1)
/-- Ends of die d on a minimal way to a link that leads to module m: its own, or bridges towards the nearest dies that have one. DESIGN CHOICE
(log 119): the hops are counted over the links now ACTIVE. -/
def waysTo (s : State) (d m : Nat) : List Nat :=
  let have_ := (List.range 8).filter fun t => linksTo s t m != [] && (t == d || bridgesTo s d t != [])
  let near := have_.filter fun t => have_.all fun x => decide (dieHops d t ≤ dieHops d x)
  (near.flatMap fun t => if t = d then linksTo s d m else bridgesTo s d t).eraseDups
/-- The ends of die d's route table for a destination die that are ACTIVE, at most four (R48): to a module that no link of this one leads
to, by way of a third module of the domain. -/
def exitUnits (s : State) (d dd : Nat) : List Nat :=
  (match localDie s dd with
  | some t => bridgesTo s d t
  | none =>
    if waysTo s d (dd / 8) ≠ [] then waysTo s d (dd / 8)
    else (List.range 4).flatMap fun m => if s.mod.present.getLsbD m ∧ m ≠ s.mod.modidx.toNat then waysTo s d m else []).take 4
/-- The unit of die d through which a packet to another die leaves it: the least occupied end; with none it waits. -/
def exitUnit (s : State) (d dd : Nat) (esc : Bool) : Option Nat := leastOf s d esc (exitUnits s d dd)
/-- Port 6 or 7 of a router, the one that is not sending a packet. -/
def lanePort (s : State) (d r : Nat) : Nat := if (FMap.find ((s.die d).router r).out 6).isSome then 7 else 6
/-- Output of a router for a packet. DESIGN CHOICE (log 111): at endpoints 0 to 47 the core takes the packets of odd PTYPE (answers,
completion flags, signal writes) at port 4, the L2 slice the others at port 5; R34 says only that the type selects. -/
def routeAt (s : State) (d r : Nat) (h : BitVec 256) (esc : Bool) : Option Nat :=
  if localDie s (pkDdie h) = some d then
    let t := epRouter (pkDep h)
    if t ≠ r then some (routeOn s d r t esc)
    else some (if pkDep h = 63 ∧ portExists d 0 9 then 9 else if pkDep h < 48 ∧ pkPtype h % 2 = 1 then 4 else 5)
  else (exitUnit s d (pkDdie h) esc).map fun u =>
    if u ≤ 55 then (if r = u - 48 then 8 else routeOn s d r (u - 48) esc)
    else if u = 56 then (if r % 8 = 0 then lanePort s d r else 3)
    else if u = 57 then (if r % 8 = 7 then lanePort s d r else 1)
    else
      let t := 40 + max 1 (min 6 (r % 8))
      if r = t then lanePort s d r else routeOn s d r t esc
/-- Output of any unit for a packet. -/
def routeOut (s : State) (d unit : Nat) (b : BePkt) : Option Nat :=
  if isEnd unit then
    -- a packet that has come to an end of the route table crosses there
    if localDie s (pkDdie b.p.hdr) ≠ some d ∧ unit ∈ exitUnits s d (pkDdie b.p.hdr) then some 1 else some 0
  else routeAt s d unit b.p.hdr b.esc

/-! ### Slot tables (R45, R46) -/

/-- Input connected to output o in slot n: none when V is 0. -/
def slotIn (t : FMap (BitVec 128)) (n o : Nat) : Option Nat :=
  let b := (FMap.get 0 t n).toNat / 256 ^ o % 256
  if b ≥ 128 then some (b % 16) else none
/-- May a table be loaded at a unit: every V names existing ports, none connects a port to itself? -/
def slotTableOk (d unit : Nat) (t : FMap (BitVec 128)) : Bool :=
  t.all fun e => (List.range 16).all fun o =>
    match slotIn t e.1 o with | none => true | some i => i != o && portExists d unit o && portExists d unit i

/-- The waiting load with the least activation time, the first of equals. -/
def nextTab (l : List (Nat × FMap (BitVec 128))) : Option (Nat × FMap (BitVec 128)) :=
  l.foldl (fun b x => match b with | some y => if x.1 < y.1 then some x else b | none => some x) none

/-- SLOT_TABLE_LOAD_ARRIVE: load k reaches its target and is accepted, refused with SLOT_BAD, or accepted LATE. DESIGN CHOICE (log 64): a
load that arrives in cycle T itself counts as one whose T has passed; R46 does not say. -/
def execSlotTableLoadArrive (k : Nat) (s : State) : Host.Outcome State Fault Refusal :=
  match s.slotLoads[k]? with
  | none => .next s
  | some x =>
    if x.ans.isSome then .next s
    else
      let set := fun (s : State) (a : Nat) => { s with slotLoads := s.slotLoads.set k { x with ans := some a } }
      match localDie s x.die with
      -- a target of another module refuses by the same rules; whether the load reaches it before T is not known here (log 63)
      | none =>
        if ¬ diePresent s x.die ∨ ¬ unitExists (x.die % 8) x.unit ∨ x.unit > 58 then .next (set s 3)
        else if x.t % 256 ≠ 0 ∨ ¬ slotTableOk (x.die % 8) x.unit x.img then .next (set s 1)
        else .next (set { s with free := s.free + 1 } (if (Config.freeValue s.free).getLsbD 0 then 2 else 0))
      | some d =>
        if ¬ unitExists d x.unit ∨ x.unit > 58 then .next (set s 3)
        else if x.t % 256 ≠ 0 ∨ ¬ slotTableOk d x.unit x.img then .next (set s 1)
        else
          let late : Bool := decide (x.t ≤ s.gtc)
          let t := if late then (s.gtc / 256 + 1) * 256 else x.t
          let y := s.die d
          let tab := y.slotTab x.unit
          .next (set (s.setDie d { y with slotTabs := FMap.put y.slotTabs x.unit { tab with next := tab.next ++ [(t, x.img)] } }) (if late then 2 else 0))

/-- SLOT_TABLE_ACTIVATE: the waiting table of a target whose time comes first comes into force. -/
def execSlotTableActivate (die target : Nat) (s : State) : Host.Outcome State Fault Refusal :=
  let y := s.die die
  let tab := y.slotTab target
  match nextTab tab.next with
  | none => .next s
  | some (t, img) =>
    if s.gtc < t then .next s else .next (s.setDie die { y with slotTabs := FMap.put y.slotTabs target { now := img, next := tab.next.erase (t, img) } })

/-- SLOT_TABLE_LOAD_ANSWER: the answer of load k reaches the core that holds for it, which writes its register and its lane's latch and
issues again (R138, R317), or the queue's packet (R98). -/
def execSlotTableLoadAnswer (k : Nat) (s : State) : Host.Outcome State Fault Refusal :=
  match s.slotLoads[k]? with
  | none => .next s
  | some x =>
    match x.ans with
    | none => .next s
    | some a =>
      let s := { s with slotLoads := s.slotLoads.eraseIdx k }
      match x.src with
      | .inl (q, num) => .next (completePkt s q num (some (BitVec.ofNat 64 a)))
      | .inr core =>
        let c := s.core core
        match c.waits.find? fun w => (match w with | .slotld _ _ => true | _ => false) with
        | some (.slotld dst n) =>
          .next (s.setCore core { c with waits := c.waits.erase (.slotld dst n), arch := (c.arch.setS dst (BitVec.ofNat 64 a)).setLatch 0 (BitVec.ofNat 512 a) })
        | _ => .next s

/-! ### Circuits (R42, R45, R151, R152) -/

/-- Outputs that a row of a slot table connects to an input. -/
def rowOuts (row : BitVec 128) (i : Nat) : List Nat :=
  (List.range 10).filter fun o => let b := row.toNat / 256 ^ o % 256; decide (b ≥ 128) && b % 16 == i
/-- The next slot from cycle t on that connects an input: how many cycles later, and its outputs. -/
def nextSlot (tab : FMap (BitVec 128)) (i t : Nat) : Option (Nat × List Nat) :=
  tab.foldl (fun b e =>
    let outs := rowOuts e.2 i
    let w := (e.1 + 256 - t % 256) % 256
    if outs = [] then b else match b with | some x => if w < x.1 then some (w, outs) else b | none => some (w, outs)) none
/-- The ways of a circuit flit that leaves on output o of a unit at cycle t, by the slot tables in force: the link ends it crosses, and where it
ends: nowhere 0, outside the module 1, at a core 10 + core, at the Vent engines of a die 2 000 + die. -/
def circWays (s : State) : Nat → Nat → Nat → Nat → Nat → Nat → List (List (Nat × Nat) × Nat)
  | 0, _, _, _, _, _ => [([], 0)]
  | n + 1, d, unit, o, lane, t =>
    let here := if isEnd unit ∧ o = 1 then [(d, linkOf unit)] else []
    match flitDest d unit o lane with
    | none => [(here, 1)]
    | some (d', u', p', lane', lat) =>
      if u' ≥ 64 then [(here, if p' = 4 then 10 + d' * 64 + (u' - 64) else 2000 + d')]
      else match nextSlot ((s.die d').slotTab u').now p' (t + lat) with
        | none => [(here, 0)]
        | some (w, outs) => outs.flatMap fun o' => (circWays s n d' u' o' lane' (t + lat + w)).map fun r => (here ++ r.1, r.2)
/-- Channel of a core that receives a circuit. -/
def rxChan (c : Core) (circ : Nat) : Option Nat :=
  (List.range 4).find? fun ch => match FMap.find c.arch.chans ch with | some b => b.ren && b.rcirc == circ | none => false
/-- Where the flits of a circuit enter the fabric: die, router and input of each core that sends on it, or of the Vent engines that use it. -/
def circSources (s : State) (circ : Nat) : List (Nat × Nat × Nat) :=
  (s.cores.filterMap fun c => if c.2.arch.chans.any fun b => b.2.sen && b.2.scirc == circ then some (c.1 / 64, c.1 % 64, 4) else none) ++
  s.dies.filterMap fun y => if y.2.vent.any fun e => vtV e.2 && vtCirc e.2 == circ then some (y.1, 19, 5) else none
/-- Link ends that a circuit crosses on its ways to the cores that receive it, or to an end outside the module; on every way where none of them
ends so. -/
def circLinks (s : State) (circ : Nat) : List (Nat × Nat) :=
  (circSources s circ).flatMap fun x =>
    let tab := ((s.die x.1).slotTab x.2.1).now
    let ways := tab.flatMap fun e => (rowOuts e.2 x.2.2).flatMap fun o => circWays s 64 x.1 x.2.1 o 0 e.1
    let good := ways.filter fun w => w.2 == 1 || (decide (10 ≤ w.2) && decide (w.2 < 2000) && (rxChan (s.core (w.2 - 10)) circ).isSome) ||
      (decide (w.2 ≥ 2000) && x.2.2 == 5)
    (if good = [] then ways else good).flatMap fun w => w.1
/-- Circuits that cross a link, by the ends given: those with a source in the module by the slot tables, others where the link has carried their
flits (R42; log 104). -/
def crossing (s : State) (ends : List (Nat × Nat)) : List Nat :=
  let mine := ((s.cores.flatMap fun c => c.2.arch.chans.filterMap fun b => if b.2.sen then some b.2.scirc else none) ++
    s.dies.flatMap fun y => y.2.vent.filterMap fun e => if vtV e.2 ∧ vtCirc e.2 ≠ 0 then some (vtCirc e.2) else none).eraseDups
  let seen := (ends.flatMap fun e => ((s.die e.1).link e.2).circs).filter fun c => !mine.contains c
  ((mine.filter fun c => (circLinks s c).any fun e => ends.contains e) ++ seen).eraseDups
/-- Is a circuit held at its source because a link it crosses is in LOWPOWER (R42)? -/
def circHeld (s : State) (circ : Nat) : Bool :=
  (s.dies.any fun y => y.2.links.any fun l => l.2.st == .lowpower) &&
    (circLinks s circ).any fun e => ((s.die e.1).link e.2).st == .lowpower
/-- The flit a channel of a core offers: up to 29 words of one circuit. -/
def chanFlit (c : Core) (ch : Nat) : Option CFlit :=
  match FMap.get [] c.tx ch with
  | [] => none
  | (circ, w) :: t =>
    let a := FMap.get (0, false) c.txAt ch
    some ⟨circ, (w :: (t.takeWhile fun x => x.1 == circ).map (·.2)).take 29, a.1, a.2, 0⟩
/-- The flit a core offers at input 4: that of the first channel, in order, that has one and is not held (log 43). -/
def coreFlit (s : State) (core : Nat) : Option (Nat × CFlit) :=
  (List.range 4).findSome? fun ch => match chanFlit (s.core core) ch with
    | some f => if circHeld s f.circ then none else some (ch, f)
    | none => none
/-- The circuit flit waiting at an input; at a bridge end, that of a lane. -/
def circAt (s : State) (d unit i lane : Nat) : Option CFlit :=
  if unit < 48 ∧ i = 4 then (coreFlit s (d * 64 + unit)).map (·.2)
  else match (FMap.get [] ((s.die d).router unit).circ i).find? fun f => decide (unit < 56) || f.lane == lane with
    | some f => if f.due ≤ s.gtc ∧ ¬ (i = 5 ∧ unit < 48 ∧ circHeld s f.circ) then some f else none
    | none => none
/-- Of the flits waiting to enter port 5 of router 19 the first four are in its buffer; one that moves up waits from now (R45). -/
def moveUp (g : Nat) (l : List CFlit) : List CFlit := l.zipIdx.map fun x => if x.2 = 3 then { x.1 with due := g } else x.1
/-- Take it. -/
def circTake (s : State) (d unit i : Nat) (f : CFlit) : State :=
  if unit < 48 ∧ i = 4 then
    let core := d * 64 + unit
    match coreFlit s core with
    | some (ch, f) =>
      let c := s.core core
      s.setCore core { c with tx := FMap.put c.tx ch ((FMap.get [] c.tx ch).drop f.ws.length), txAt := FMap.put c.txAt ch (s.gtc, false) }
    | none => s
  else
    let y := s.die d
    let r := y.router unit
    let l := (FMap.get [] r.circ i).erase f
    s.setDie d (y.setRouter unit { r with circ := FMap.put r.circ i (if i = 5 then moveUp s.gtc l else l) })

/-- Can the Vent engines of a die take a contribution of entry t, instance i (R392)? -/
def ventTakes (y : Die) (t i : Nat) : Bool :=
  let e := FMap.get 0 y.vent t
  let st := FMap.get VentSt.init y.ventSt t
  decide (i ≤ vtRinst e) || (i == vtRinst e + 1 && st.park.isNone)
/-- Room behind an output for a circuit flit. -/
def circRoom (s : State) (d unit p : Nat) (f : CFlit) : Bool :=
  match flitDest d unit p f.lane with
  | none => true
  | some (d', u', p', _, _) =>
    if u' ≥ 64 then
      let core := d' * 64 + (u' - 64)
      if p' = 4 then
        match rxChan (s.core core) f.circ with
        | some ch =>
          let way := (s.wires.filter fun w => w.die == d' && w.unit == u' && w.port == 4).map fun w => match w.f.body with | .circuit ws => ws.length | _ => 0
          decide ((FMap.get [] (s.core core).rx ch).length + way.sum + f.ws.length ≤ 256)
        | none => false
      else if p' = 5 ∧ u' - 64 = 19 then
        FMap.get [] (s.die d').ventPart f.circ != [] ||
          (match f.ws with | t :: i :: _ => ventTakes (s.die d') (t.toNat % 1024) (i.toNat % 2 ^ 32) | _ => false)
      else true
    else
      let n := ((FMap.get [] ((s.die d').router u').circ p').filter fun g => decide (u' < 56) || g.lane == f.lane).length
      let way := (s.wires.filter fun w => w.die == d' && w.unit == u' && w.port == p' && (decide (u' < 56) || w.lane == f.lane) &&
        (match w.f.body with | .circuit _ => true | _ => false)).length
      decide (n + way < 4)

/-! ### Sending (R33, R36, R37, R40, R47) -/

/-- The link-layer field of a flit. -/
def linkField (l : LaneSt) (gtc ftype circ : Nat) (fseq : Nat) : BitVec 48 :=
  BitVec.ofNat 48 (fseq % 1024 + l.got % 1024 * 2 ^ 10 + (if l.nak then 2 ^ 20 else 0) + ftype % 8 * 2 ^ 21 + gtc % 256 * 2 ^ 24 + circ % 4096 * 2 ^ 32)
def flSeq (f : BitVec 48) : Nat := (f.extractLsb' 0 10).toNat
def flAck (f : BitVec 48) : Nat := (f.extractLsb' 10 10).toNat
def flNak (f : BitVec 48) : Bool := f.getLsbD 20
def flType (f : BitVec 48) : Nat := (f.extractLsb' 21 3).toNat
def flCirc (f : BitVec 48) : Nat := (f.extractLsb' 32 12).toNat
def flRsvd (f : BitVec 48) : Nat := (f.extractLsb' 44 4).toNat
def bodyType : Payload → Nat
  | .idle => 0 | .circuit _ => 1 | .best _ _ _ => 2 | .frontier _ _ => 3 | .control => 4 | .tsync _ _ _ _ _ => 5
/-- May an external link begin a flit in this cycle (R40)? -/
def linkSlot (gtc : Nat) : Bool := (gtc % 256 + 1) * 203 / 256 == gtc % 256 * 203 / 256 + 1

/-- Flit slots of an output before a cycle: one a cycle at a bridge, those of R40 on an external link. -/
def slotsBefore (unit gtc : Nat) : Nat := if unit ≤ 55 then gtc / 256 * 203 + gtc % 256 * 203 / 256 else gtc
/-- May an output send a frontier flit: at most one per 32 of its slots (R47)? -/
def frontierFree (unit : Nat) (l : Link) (gtc : Nat) : Bool :=
  match l.lastFr with | none => true | some g => decide (slotsBefore unit g + 32 ≤ slotsBefore unit gtc)

/-- Put a flit on a wire, or out of the module. -/
def putWire (s : State) (d unit p lane : Nat) (f : Flit) : State :=
  match flitDest d unit p lane with
  | some (d', u', p', lane', lat) => { s with wires := s.wires ++ [⟨s.gtc + lat, d', u', p', lane', f⟩] }
  | none => { s with outbox := s.outbox ++ [(d, unit - 48, f)] }

/-- State of a lane of a line. -/
def Link.lane (l : Link) (n : Nat) : LaneSt := FMap.get LaneSt.init l.lanes n
def Link.setLane (l : Link) (n : Nat) (x : LaneSt) : Link := { l with lanes := FMap.put l.lanes n x }
/-- Lanes of an output: 12 at a bridge end (R33), else one. -/
def lanesOf (unit : Nat) : List Nat := if unit ≥ 56 ∧ unit ≤ 58 then List.range 12 else [0]
/-- Key of an output's lane. -/
def outKey (p lane : Nat) : Nat := p + 16 * lane
/-- Key of an output's lane as `used` and `out` have it: at routers and external links a flit's lane tag plays no part. -/
def outOf (unit p lane : Nat) : Nat := if unit ≥ 56 ∧ unit ≤ 58 then outKey p lane else p

/-- Send a body on an output: it is numbered (R36), and on a line kept until it is acknowledged. -/
def emitFlit (s : State) (d unit p lane circ : Nat) (b : Payload) : State :=
  let y := s.die d
  let idle := bodyType b = 0
  if isEnd unit ∧ p = 1 then
    let l := y.link (linkOf unit)
    let ln := if unit ≤ 55 then 0 else lane
    let x := l.lane ln
    let n := if idle then x.fseq else (x.fseq + 1) % 1024
    let f : Flit := ⟨linkField x s.gtc (bodyType b) circ n, b⟩
    let x := { x with fseq := n, unack := if idle then x.unack else x.unack ++ [f], nak := false, ackOwed := false }
    let l := { l.setLane ln x with circs := if bodyType b = 1 ∧ ¬ l.circs.contains circ then l.circs ++ [circ] else l.circs }
    putWire (s.setDie d (y.setLink (linkOf unit) l)) d unit p lane f
  else
    let r := y.router unit
    let k := outOf unit p lane
    let n := if idle then FMap.get 0 r.fseqs k else (FMap.get 0 r.fseqs k + 1) % 1024
    let x : LaneSt := { LaneSt.init with got := FMap.get 0 r.gots k }
    putWire (s.setDie d (y.setRouter unit { r with fseqs := FMap.put r.fseqs k n })) d unit p lane ⟨linkField x s.gtc (bodyType b) circ n, b⟩

/-- A PTYPE of the response network (R47). -/
def isResponse (h : BitVec 256) : Bool := pkPtype h == 1 || pkPtype h == 3 || pkPtype h == 5 || pkPtype h == 7
/-- The best-effort packet an output sends next: responses first. -/
def pickBe (s : State) (d unit p lane : Nat) : Option BePkt :=
  let l := ((s.die d).router unit).be.filter fun b =>
    decide (b.due ≤ s.gtc) && (decide (unit < 56) || b.lane == lane) && routeOut s d unit b == some p
  match l.find? fun b => isResponse b.p.hdr with | some b => some b | none => l.head?

/-- What an output would carry now. -/
inductive Pick where
  | none
  | idle
  | resend (f : Flit)
  | circ (i : Nat) (f : CFlit)
  | tsync (t : Nat × Word × Word × Word × Word)
  | frontier
  | best (b : BePkt) (k n : Nat)
deriving DecidableEq, Repr

/-- The flit that a lane of a port sends in this cycle (R41, R48, R50). DESIGN CHOICE (log 119): frontier flits use lane 0 of a link. -/
def pickOut (s : State) (d unit p lane : Nat) : Pick :=
  let y := s.die d
  let r := y.router unit
  let line : Bool := isEnd unit && p == 1
  let l := y.link (linkOf unit)
  let x := l.lane lane
  if ¬ portExists d unit p ∨ (r.used.1 = s.gtc ∧ r.used.2.contains (outOf unit p lane)) then .none
  else if line ∧ unit ≤ 55 ∧ ¬ linkSlot s.gtc then .none
  else if line ∧ l.st ≠ .active then
    (if l.st = .lowpower ∧ (x.ackOwed ∨ x.nak) then .idle else .none)
  else match (if line then x.resend.head? else .none) with
  | some f => .resend f
  | none =>
    let ci : Option (Nat × CFlit) := match slotIn (y.slotTab unit).now (s.gtc % 256) p with
      | some i => (circAt s d unit i lane).map fun f => (i, f)
      | none => .none
    match ci with
    | some (i, f) => if circRoom s d unit p f then .circ i f else .none
    | none =>
      match (if line then l.tpend.head? else .none) with
      | some t => .tsync t
      | none =>
        if line ∧ lane = 0 ∧ l.dirty ≠ [] ∧ frontierFree unit l s.gtc then .frontier
        else match FMap.find r.out (outOf unit p lane) with
          | some (b, k, n) => .best b k n
          | none => (match pickBe s d unit p lane with
              | some b => .best b 0 (packetFlits b.p)
              | none => if line && (x.ackOwed || x.nak) then .idle else .none)

/-- Mark outputs used in this cycle. -/
def markUsed (s : State) (d unit : Nat) (ps : List Nat) : State :=
  let y := s.die d
  let r := y.router unit
  s.setDie d (y.setRouter unit { r with used := (s.gtc, (if r.used.1 = s.gtc then r.used.2 else []) ++ ps) })

/-- The changed entries owed to a link, at most 29, with their newest values (R50). -/
def frontierEntries (s : State) (d : Nat) (l : Link) : List (Nat × Word) :=
  (l.dirty.take 29).map fun j => (j, BitVec.ofNat 64 (j + 2 ^ 32 * (dieClock (s.die d) j).toNat))
/-- Send the owed frontier flit of a link. -/
def sendFrontier (s : State) (d link : Nat) : State :=
  let y := s.die d
  let l := y.link link
  let es := frontierEntries s d l
  let s := s.setDie d (y.setLink link { l with dirty := l.dirty.drop 29, lastFr := some s.gtc })
  emitFlit s d (48 + link) 1 0 0 (.frontier (s.dieBase + d) es)

/-- FRONTIER_FLIT_SEND. -/
def execFrontierFlitSend (die link : Nat) (s : State) : Host.Outcome State Fault Refusal :=
  let l := (s.die die).link link
  if l.dirty = [] ∨ l.st ≠ .active ∨ ¬ frontierFree (48 + link) l s.gtc then .next s else .next (markUsed (sendFrontier s die link) die (48 + link) [1])

/-- One lane of an output chooses and sends one flit. A circuit flit leaves at once on every output its slot connects, none of which has
sent another flit in the cycle (R45). -/
def laneSend (d unit p : Nat) (s : State) (lane : Nat) : State :=
  let done := fun (s : State) => markUsed s d unit [outOf unit p lane]
  match pickOut s d unit p lane with
  | .none => s
  | .idle => done (emitFlit s d unit p lane 0 .idle)
  | .resend f =>
    let y := s.die d
    let l := y.link (linkOf unit)
    let x := l.lane lane
    let f' : Flit := { f with link := linkField x s.gtc (bodyType f.body) (flCirc f.link) (flSeq f.link) }
    done (putWire (s.setDie d (y.setLink (linkOf unit) (l.setLane lane { x with resend := x.resend.drop 1, nak := false, ackOwed := false }))) d unit p lane f')
  | .circ i f =>
    let outs := (List.range 10).filter fun o => slotIn ((s.die d).slotTab unit).now (s.gtc % 256) o == some i && portExists d unit o
    let r := (s.die d).router unit
    if outs.all fun o => circRoom s d unit o f && !(r.used.1 == s.gtc && r.used.2.contains (outOf unit o lane)) then
      markUsed (outs.foldl (fun s o => emitFlit s d unit o f.lane f.circ (.circuit f.ws)) (circTake s d unit i f)) d unit (outs.map fun o => outOf unit o lane)
    else s
  | .tsync t =>
    let y := s.die d
    let l := y.link (linkOf unit)
    let s := s.setDie d (y.setLink (linkOf unit) { l with tpend := l.tpend.drop 1 })
    let g := BitVec.ofNat 64 s.gtc
    done (emitFlit s d unit p lane 0 (.tsync t.1 (if t.1 = 0 then g else t.2.1) t.2.2.1 (if t.1 = 1 then g else t.2.2.2.1) t.2.2.2.2))
  | .frontier => done (sendFrontier s d (linkOf unit))
  | .best b k n =>
    let y := s.die d
    let r := y.router unit
    let o := outOf unit p lane
    let be := if k = 0 then r.be.erase b else r.be
    let out := if k + 1 < n then FMap.put r.out o (b, k + 1, n) else FMap.erase r.out o
    let s := s.setDie d (y.setRouter unit { r with be := be, out := out })
    done (emitFlit s d unit p b.lane 0 (.best b.p k n))
/-- FLIT_SEND: an output sends, each of its lanes one flit. -/
def flitSend (d unit p : Nat) (s : State) : State := (lanesOf unit).foldl (laneSend d unit p) s
def execFlitSend (die unit port : Nat) (s : State) : Host.Outcome State Fault Refusal := .next (flitSend die unit port s)

/-- Has a flit in a buffer waited 256 cycles without being noted? -/
def flitMisses (g : Nat) (f : CFlit) : Bool := !f.missed && decide (f.due + 256 ≤ g)
/-- Channels of a core whose offered flit has waited 256 cycles at input 4. -/
def missedChans (s : State) (core : Nat) : List Nat :=
  (List.range 4).filter fun ch => match chanFlit (s.core core) ch with | some f => flitMisses s.gtc f | none => false

/-- SLOTMISS: a circuit flit that has waited 256 cycles at an input is noted in FABERR and waits on (R45). -/
def execSlotmiss (die unit port : Nat) (s : State) : Host.Outcome State Fault Refusal :=
  let y := s.die die
  if unit < 48 ∧ port = 4 then
    let core := die * 64 + unit
    match missedChans s core with
    | [] => .next s
    | l =>
      let c := s.core core
      .next ((s.setDie die { y with slotmiss := true }).setCore core { c with
        txAt := l.foldl (fun m ch => FMap.put m ch ((FMap.get (0, false) m ch).1, true)) c.txAt })
  else
    let r := y.router unit
    let l := FMap.get [] r.circ port
    -- at port 5 of router 19 those behind the first four have not entered the buffer
    let n := if port = 5 then 4 else l.length
    if (l.take n).any (flitMisses s.gtc) then
      let l := (l.take n).map (fun f => if f.due + 256 ≤ s.gtc then { f with missed := true } else f) ++ l.drop n
      .next (s.setDie die { y.setRouter unit { r with circ := FMap.put r.circ port l } with slotmiss := true })
    else .next s

/-- ESCAPE_CHANNEL_MOVE: packet k of a router, blocked for 64 cycles, moves to the escape channel (R48). -/
def execEscapeChannelMove (die unit k : Nat) (s : State) : Host.Outcome State Fault Refusal :=
  let y := s.die die
  let r := y.router unit
  match r.be[k]? with
  | none => .next s
  | some b =>
    if b.esc ∨ b.due + 64 > s.gtc then .next s
    else .next (s.setDie die (y.setRouter unit { r with be := r.be.set k { b with esc := true } }))

/-! ### Receiving (R37) -/

def satInc (n : Nat) : Nat := min (n + 1) 65535
/-- Group drop (R49): is the packet of an unknown group, or older than its creation? What makes or removes a group has GROUP 0. -/
def groupDrops (y : Die) (h : BitVec 256) : Bool :=
  pkGroup h != 0 && (match FMap.find y.groups (pkGroup h) with | none => true | some c => decide (pkStamp h < c.toNat))

/-- Events that follow a step. -/
def pushEvs (s : State) (l : List Instr) : State := { s with agenda := l.map Todo.ev ++ s.agenda }

/-- Release what the partner has acknowledged; a NAK has everything after ACKSEQ resent. -/
def takeAck (l : LaneSt) (f : BitVec 48) : LaneSt :=
  let a := flAck f
  match l.unack.findIdx? fun x => flSeq x.link == a with
  | some i =>
    let u := l.unack.drop (i + 1)
    { l with unack := u, resend := if flNak f then u else l.resend.filter fun x => u.contains x }
  | none => if flNak f then { l with resend := l.unack } else l

/-- Packets of a lane that its partner has not taken whole: at a bridge what the other end has received is known. -/
def lostPackets (s : State) (d k lane : Nat) : List Packet :=
  let u := (((s.die d).link k).lane lane).unack
  let u := if k < 8 then u else
    let (pd, pu) := bridgePeer d (48 + k)
    let got := (((s.die pd).link (linkOf pu)).lane lane).got
    match u.findIdx? fun x => flSeq x.link == got with | some i => u.drop (i + 1) | none => u
  (u.filterMap fun f => match f.body with | .best p _ _ => some p | _ => none).eraseDups

/-- The ends of a link in the module: one of an external link, two of a bridge, which train and leave ACTIVE together (R41, R42). -/
def bothEnds (d k : Nat) : List (Nat × Nat) := if k < 8 then [(d, k)] else let (pd, pu) := bridgePeer d (48 + k); [(d, k), (pd, linkOf pu)]
/-- Packets of best effort that an end of a link still holds, by lane. -/
def endPackets (s : State) (d k : Nat) : List BePkt :=
  (lanesOf (48 + k)).flatMap fun n =>
    let lost := lostPackets s d k n
    (lost.map fun p => BePkt.mk p s.gtc false n) ++
      (match FMap.find ((s.die d).router (48 + k)).out (outOf (48 + k) 1 n) with | some (b, _, _) => if lost.contains b.p then [] else [b] | none => [])
/-- One end leaves ACTIVE: the packets of best effort that it held wait there for another route (R42). -/
def leaveEnd (s : State) (d k : Nat) (back : List BePkt) : State :=
  let y := s.die d
  let r := y.router (48 + k)
  let y := y.setRouter (48 + k) { r with be := r.be ++ back, out := r.out.filter fun o => o.1 % 16 != 1 }
  { s.setDie d (y.setLink k { y.link k with lanes := [] }) with
    wires := s.wires.filter fun w => !(w.die == d && w.unit == 48 + k && w.port == 1) }
/-- A link leaves ACTIVE: the circuits that cross it break, with their flits; what its ends still hold is sent by another route (R42). -/
def leaveActive (s : State) (d k : Nat) : State :=
  let s := (crossing s (bothEnds d k)).foldl breakCircuit s
  let back := (bothEnds d k).map fun e => (e, endPackets s e.1 e.2)
  back.foldl (fun s x => leaveEnd s x.1.1 x.1.2 x.2) s

/-- Vent engine, as an endpoint, that serves an entry (log 45). -/
def ventEp (t : Nat) : Nat := 54 + t % 8
/-- Deliver a flit's body at a unit's input. DESIGN CHOICE (log 119): a packet that moved to the escape channel is on the best-effort channel
again at the next router. -/
def takeBody (s : State) (d unit port lane : Nat) (circ : Nat) (b : Payload) : State :=
  let y := s.die d
  match b with
  | .circuit ws =>
    if unit ≥ 64 then
      let core := d * 64 + (unit - 64)
      if port = 4 then
        match rxChan (s.core core) circ with
        | some ch => pushEvs s (ws.map fun w => .channelWordArrive core ch w)
        | none => s
      else
        -- a contribution comes in one flit or several, the second word saying how many data words (log 44)
        let ws := FMap.get [] y.ventPart circ ++ ws
        let more : Bool := match ws with | _ :: i :: _ => decide (ws.length < 4 + i.toNat / 2 ^ 40) | _ => false
        let y := { y with ventPart := if more then FMap.put y.ventPart circ ws else FMap.erase y.ventPart circ }
        let s := s.setDie d y
        if more then s else match ws with
        | t :: i :: g :: st :: data =>
          let ep := ventEp (t.toNat % 1024)
          let hdr := mkHdr 6 0 (g.toNat / 4096 % 32) ep (s.dieBase + d) ep false (g.extractLsb' 32 32) 0 0 (g.toNat % 4096) 0 (g.toNat / 2 ^ 32 % 2048) st.toNat
          if groupDrops y hdr then
            let a := mkHdr 3 0 (s.dieBase + d) ep (pkSdie hdr) ep false 0 0 0 0 0 (2048 + pkTag hdr) s.gtc
            sendPacket (s.setDie d { y with gdrop := satInc y.gdrop }) d ep ⟨a, [], [], .plain⟩
          else { s.setDie d { y with ventIn := y.ventIn ++ [(t.toNat % 1024, i.toNat % 2 ^ 40, data, hdr)] } with
            agenda := .ev (.ventContributionReceive d y.ventIn.length) :: s.agenda }
        | _ => s
    else
      let r := y.router unit
      let q := FMap.get [] r.circ port
      s.setDie d (y.setRouter unit { r with circ := FMap.put r.circ port (q ++ [⟨circ, ws, s.gtc, false, lane⟩]) })
  | .best p k n =>
    if k + 1 < n then s
    else if unit ≥ 64 then pushEvs s [.packetReceive d p]
    else
      let r := y.router unit
      s.setDie d (y.setRouter unit { r with be := r.be ++ [⟨p, s.gtc, false, lane⟩] })
  | .frontier _ es => pushEvs s [.frontierFlitReceive d es]
  | .tsync st a b c e => pushEvs s [.timeSyncReceive ⟨linkOf unit, st⟩ a b c e]
  | _ => s

/-- The line side of an end receives a flit: FEC, CRC and FSEQ are checked; a bad flit and every later one are discarded until the
resend, which is asked for (R37) and counted (R41, R43). DESIGN CHOICE (log 119): each end counts the replays it asks for, all lanes
together. -/
def lineReceive (s : State) (d unit lane : Nat) (err : FlitErr) (f : Flit) : State :=
  let k := linkOf unit
  let y := s.die d
  let ln := if unit ≤ 55 then 0 else lane
  let l := y.link k
  let l := { l with corr := if err = .corrected then min (l.corr + 1) 65535 else l.corr }
  -- a replay is asked for once; until it begins, what is still on its way is discarded
  let nakNow := fun (l : Link) (n : Nat) =>
    { l.setLane ln { l.lane ln with nak := true, ahead := n } with
      replay := min (l.replay + 1) 65535, replays := s.gtc :: l.replays.filter fun g => decide (s.gtc < g + 2 ^ 20) }
  if err = .bad then s.setDie d (y.setLink k (if (l.lane ln).nak then l else nakNow l 1))
  else
    let x := takeAck (l.lane ln) f.link
    -- the partner's own request may stand for a flit that carried this end's
    let x := if flNak f.link ∧ x.ahead ≠ 0 then { x with nak := true } else x
    let idle : Bool := flType f.link == 0
    if ¬ idle ∧ flSeq f.link ≠ (x.got + 1) % 1024 then
      let n := (flSeq f.link + 1024 - x.got) % 1024
      -- a duplicate is dropped; a gap after a lost flit, also in the replay itself, asks for a replay
      s.setDie d (y.setLink k (
        if n ≥ 512 ∨ n = 0 then l.setLane ln { x with ackOwed := true }
        else if x.nak ∨ x.ahead = 0 ∨ n ≤ x.ahead then (if x.nak then l.setLane ln { x with ahead := n } else nakNow (l.setLane ln x) n)
        else l.setLane ln { x with ahead := n }))
    else
      let l := l.setLane ln (if idle then x else { x with got := flSeq f.link, ackOwed := true, nak := false, ahead := 0 })
      let circ := flCirc f.link
      let l := if flType f.link = 1 ∧ ¬ l.circs.contains circ then { l with circs := l.circs ++ [circ] } else l
      if flType f.link ≥ 6 ∨ flRsvd f.link ≠ 0 then
        s.setDie d { y.setLink k l with badflit := min (y.badflit + 1) 255 }
      else takeBody (s.setDie d (y.setLink k l)) d unit 1 lane circ f.body

/-- FLIT_RECEIVE: the first flit due on a port's wire, or one from outside the module on an external link. -/
def execFlitReceive (die unit port : Nat) (err : FlitErr) (ext : Option Flit) (s : State) : Host.Outcome State Fault Refusal :=
  match ext with
  | some f => if 48 ≤ unit ∧ unit ≤ 55 then .next (lineReceive s die unit 0 err f) else .next s
  | none =>
    match s.wires.find? fun w => decide (w.due ≤ s.gtc) && w.die == die && w.unit == unit && w.port == port with
    | none => .next s
    | some w =>
      let s := { s with wires := s.wires.erase w }
      -- a flit that no channel of its end core receives any more waits before it (R374, R45)
      if unit ≥ 64 ∧ port = 4 ∧ bodyType w.f.body = 1 ∧ (rxChan (s.core (die * 64 + (unit - 64))) (flCirc w.f.link)).isNone then
        .next { s with wires := s.wires ++ [{ w with due := s.gtc + 1 }] }
      else if isEnd unit ∧ port = 1 then .next (lineReceive s die unit w.lane err w.f)
      else
        let y := s.die die
        let r := y.router unit
        let s := s.setDie die (y.setRouter unit { r with gots := FMap.put r.gots (outOf unit port w.lane) (flSeq w.f.link) })
        .next (takeBody s die unit port w.lane (flCirc w.f.link) w.f.body)

/-! ### Link states (R41, R42) -/

/-- Raise a module notification on both host ports (R30). -/
def notifyModule (s : State) (vec : Nat) : State := { s with msix := s.msix ++ [(0, vec), (1, vec)] }

/-- Does a die have a link: 0 to 7 external, 8 west, 9 east, 10 row (R43)? -/
def linkExists (d k : Nat) : Bool := if k < 8 then true else if k = 8 then d % 4 != 0 else if k = 9 then d % 4 != 3 else k == 10
/-- Every external link and bridge end of the module. -/
def moduleLinks : List (Nat × Nat) := (List.range 8).flatMap fun d => ((List.range 11).filter fun k => linkExists d k).map fun k => (d, k)
def linkState (s : State) (x : Nat × Nat) : LinkState := ((s.die x.1).link x.2).st
/-- Is a link still in training? -/
def inTraining (l : LinkState) : Bool := match l with | .detect => true | .equalise => true | .align => true | _ => false
/-- Links that fit a test begin training, with a fresh count of three (R26, R41). -/
def trainLinks (s : State) (f : Nat × Nat → Bool) : State :=
  (moduleLinks.filter f).foldl (fun s x => s.setDie x.1 ((s.die x.1).setLink x.2 { (s.die x.1).link x.2 with st := .detect, fails := 0 })) s
/-- In stage 2 the external links begin training when the last bridge has trained (Table 1.6). -/
def trainExternal (s : State) (link : Nat) : State :=
  if link ≥ 8 ∧ s.mod.stage = 2 ∧ (moduleLinks.all fun x => decide (x.2 < 8) || !inTraining (linkState s x)) then
    trainLinks s fun x => decide (x.2 < 8) && linkState s x == .down
  else s
/-- State and count of failures of a link, at each of its ends. -/
def setEnds (s : State) (d k : Nat) (st : LinkState) (fails : Nat) : State :=
  (bothEnds d k).foldl (fun s e => let y := s.die e.1; s.setDie e.1 (y.setLink e.2 { y.link e.2 with st := st, fails := fails, lanes := [], replays := [] })) s

/-- LINK_TRAINING_COMPLETE: the link becomes ACTIVE with its measured latency; in MATRIX mode links 4 to 7 stay in LOWPOWER (R13). A link
passes through DETECT and EQUALISE to ALIGN before, a state a cycle, since R41 gives no durations (log 65). DESIGN CHOICES (log 66): LAT holds at most 255, the
largest its 8 bits take; FSEQ counts from 0, so that the first numbered flit carries 1. -/
def execLinkTrainingComplete (die link lat : Nat) (s : State) : Host.Outcome State Fault Refusal :=
  let y := s.die die
  let l := y.link link
  match l.st with
  | .down => .next s
  | .active => .next s
  | .lowpower => .next s
  | _ =>
    let low : Bool := s.mod.active == 0 && decide (link < 8) || (s.mod.active == 3 && decide (4 ≤ link) && decide (link < 8))
    let up := fun (s : State) (e : Nat × Nat) =>
      let y := s.die e.1
      s.setDie e.1 (y.setLink e.2 { y.link e.2 with
        st := if low then .lowpower else .active, fails := 0, lat := min lat 255, lanes := [], replays := []
        dirty := if leadsHome s e.1 e.2 then (List.range 32).filter fun j => dieClock y j != 0 else [] })
    .next (trainExternal ((bothEnds die link).foldl up s) link)

/-- Links in training go on to the next state (R41, log 65). -/
def trainOn (s : State) : State :=
  let next := fun (l : Link) => match l.st with | .detect => { l with st := .equalise } | .equalise => { l with st := .align } | _ => l
  if s.dies.any fun y => y.2.links.any fun l => l.2.st == .detect || l.2.st == .equalise then
    { s with dies := s.dies.map fun (y : Nat × Die) => (y.1, { y.2 with links := y.2.links.map fun (l : Nat × Link) => (l.1, next l.2) }) }
  else s

/-- LINK_TRAINING_FAILURE: the third in succession leaves the link DOWN; a bridge that goes DOWN in bring-up fails it (R28). -/
def execLinkTrainingFailure (die link : Nat) (s : State) : Host.Outcome State Fault Refusal :=
  let y := s.die die
  let l := y.link link
  match l.st with
  | .down => .next s
  | _ =>
    let n := l.fails + 1
    let s := if l.st = .active then leaveActive s die link else s
    let s := setEnds s die link (if n ≥ 3 then .down else .detect) (if n ≥ 3 then 0 else n)
    if n ≥ 3 ∧ link ≥ 8 ∧ ¬ s.mod.ready ∧ ¬ s.mod.fail then
      .next (notifyModule { s with mod := { s.mod with fail := true, failDie := die, failStage := s.mod.stage } } 0)
    else .next s

/-- LINK_RETRAIN: more than 64 replays in an interval of 2^20 cycles. -/
def execLinkRetrain (die link : Nat) (s : State) : Host.Outcome State Fault Refusal :=
  let l := (s.die die).link link
  if l.st ≠ .active ∨ l.replays.length ≤ 64 then .next s
  else
    .next (setEnds (leaveActive s die link) die link .detect 0)

/-- LINKSTAT_RETRY: a DOWN link trains again from DETECT. -/
def execLinkstatRetry (die link : Nat) (s : State) : Host.Outcome State Fault Refusal :=
  let s := if ((s.die die).link link).st = .active then leaveActive s die link else s
  .next (setEnds s die link .detect 0)

/-- LINK_WAKE: a link leaves LOWPOWER 2 µs (2 200 cycles) after the mode allowed it (Table 2.5). -/
def execLinkWake (die link : Nat) (s : State) : Host.Outcome State Fault Refusal :=
  let y := s.die die
  let l := y.link link
  match l.st, l.wakeAt with
  | .lowpower, some t => if s.gtc < t then .next s else .next (s.setDie die (y.setLink link { l with st := .active, wakeAt := none }))
  | _, _ => .next s

/-- Link power of a mode (Table 1.2): external links held in LOWPOWER, or woken. -/
def linkPower (s : State) (mode : Nat) : State :=
  (List.range 8).foldl (fun s d => (List.range 8).foldl (fun s k =>
    let y := s.die d
    let l := y.link k
    let low : Bool := mode == 0 || (mode == 3 && decide (4 ≤ k))
    match l.st with
    | .active => if low then s.setDie d (y.setLink k { l with st := .lowpower, wakeAt := none }) else s
    | .lowpower => s.setDie d (y.setLink k { l with wakeAt := if low then none else match l.wakeAt with | some t => some t | none => some (s.gtc + 2200) })
    | _ => s) s) s

/-! ### Clocks (R50, R235) -/

/-- FRONTIER_FLIT_RECEIVE: the larger of each received entry and the die's own. -/
def execFrontierFlitReceive (die : Nat) (entries : List (Nat × Word)) (s : State) : Host.Outcome State Fault Refusal :=
  .next (entries.foldl (fun s e => raiseClock s die (e.1 % 32) (e.2.extractLsb' 32 32)) s)

/-- An acknowledgement by die dd of a die's write SEQ v comes in; the write is answered when every die it went to has (R235). -/
def ackFrom (s : State) (d dd : Nat) (v : BitVec 32) (nack : Bool) : State :=
  match partAck (s.die d) dd v with
  | some y => s.setDie d y
  | none => { s with agenda := .ev (.writeAcknowledgement d v.toNat nack) :: s.agenda }
/-- WRITE_ACKNOWLEDGEMENT: a write of a die has been answered; writes to its line that waited for it are sent (R234). -/
def execWriteAcknowledgement (die seq : Nat) (_nack : Bool) (s : State) : Host.Outcome State Fault Refusal :=
  .next (sendAll (ackWrite s die (BitVec.ofNat 32 seq)))

/-! ### Packets at their destination (R39, R49, R236) -/

/-- A contribution to the die itself is applied or dropped. -/
def ownDone (y : Die) (me : Nat) (h : BitVec 256) : Die :=
  if pkSdie h ≠ me then y
  else match y.ventOwn.find? fun o => o.2 == pkStamp h && ventEp o.1 == pkSep h with
    | some o => { y with ventOwn := y.ventOwn.erase o }
    | none => y

/-- Is an endpoint absent on a die? -/
def epAbsent (d ep : Nat) : Bool := ep == 63 && d != 0 && d != 4
/-- A malformed packet. -/
def packetBad (d : Nat) (p : Packet) : Bool :=
  decide (pkPtype p.hdr ≥ 10) || decide (pkLen p.hdr > 16) || pkRsvd p.hdr != 0 || epAbsent d (pkDep p.hdr)
/-- Answer a discarded write with TAG bit 11 set. -/
def nackWrite (s : State) (d : Nat) (p : Packet) : State :=
  let h := p.hdr
  let a := mkHdr 3 0 (s.dieBase + d) (pkDep h) (pkSdie h) (pkSep h) false 0 0 (pkCtx h) 0 0 (2048 + pkTag h % 2048) s.gtc
  sendPacket s d (pkDep h) ⟨a, [], [], match p.msg with | .req id => .ans id | _ => .plain⟩
/-- The master of a request from another module, as its SDIE and SEP name it: a core or a channel of its Shuttle as the core, the Spindle as the first
queue of its die (log 111). -/
def foreignMaster (h : BitVec 256) : MasterT :=
  let ep := pkSep h
  let d := pkSdie h
  if ep < 48 then mUser.by 0 (d * 64 + ep) d 0
  else if ep = 48 then mSpindle.by 4 (d * 8) d 0
  else if ep = 63 then mQueue.by 5 (d / 4 % 2) d 0
  else mUser.by (if 54 ≤ ep ∧ ep ≤ 61 then 2 else 3) ep d 0
/-- The packet waits at the router before its endpoint and comes again in the next cycle. -/
def waitPacket (s : State) (d : Nat) (p : Packet) : State :=
  let y := s.die d
  let r := y.router (epRouter (pkDep p.hdr))
  s.setDie d (y.setRouter (epRouter (pkDep p.hdr)) { r with be := r.be ++ [⟨p, s.gtc + 1, false, 0⟩] })
/-- Write the bytes at a VA that a mask names. -/
def maskWrite (s : State) (t ctx va v en : Nat) (m : MasterT) : State × Option MFault :=
  (pieces8 va 64 10).foldl (fun acc p =>
    let e := en / 2 ^ p.2.2 % 2 ^ p.2.1
    if acc.2.isSome ∨ e = 0 then acc
    else match translate acc.1 t ctx p.1 .write m with
      | .fault c l x => (acc.1, some ⟨c, l, x, p.1⟩)
      | .ok ph l x =>
        let s := tlbFill acc.1 t ctx p.1 l x
        let old := homeRead s ctx p.1 p.2.1 ph
        let new := (List.range p.2.1).foldl (fun w i =>
          w + (if e.testBit i then v / 256 ^ (p.2.2 + i) % 256 else old / 256 ^ i % 256) * 256 ^ i) 0
        (sinterBy (homeWrite s ctx p.1 p.2.1 new ph) m ctx p.1 ph 7, none)) (s, none)
/-- A request from another module, performed at this home and answered: a read, an accumulate, or a write (a posted write, a Vent completion
flag, a signal write: Table 2.4). DESIGN CHOICE (log 111): the header has no size under 32 bytes; a read of LEN 0 reads 8 bytes, a write
of AOP 31 the bytes that its first data word names, and an accumulate takes its operands from two data words, 32 bits wide for the float operators of R245
or where the third data word says so, else 64. What its home holds back waits with its packet. -/
def foreignReq (s : State) (d : Nat) (p : Packet) : State :=
  let h := p.hdr
  let t := 2032 + d
  let va := pkVa h
  let ctx := pkCtx h
  let m := foreignMaster h
  let ans := fun (s : State) (pt : Nat) (nack : Bool) (data : List Word) =>
    sendPacket s d (pkDep h) ⟨mkHdr pt ((data.length + 3) / 4) (s.dieBase + d) (pkDep h) (pkSdie h) (pkSep h) (pkSys h) 0 0 ctx 0 0
      (pkTag h % 2048 + (if nack then 2048 else 0)) s.gtc, padData data, if pkSys h then (List.range 32).map (dieClock (s.die d)) else [], .plain⟩
  let val := fun (l : List Word) => l.zipIdx.foldl (fun a x => a + x.1.toNat * 2 ^ (64 * x.2)) 0
  match pkPtype h with
  | 0 =>
    let n := max 8 (pkLen h * 32)
    if vaHeld s t ctx va n m then waitPacket s d p
    else match vaRead s t ctx va n m with
    | .ok (v, s) => ans s 1 false ((List.range (n / 8)).map fun i => BitVec.ofNat 64 (v / 2 ^ (64 * i)))
    | .error _ => ans s 1 true []
  | 4 =>
    if wayHeld s t ctx va 8 .amo m then waitPacket s d p
    else (match vaAmo s t ctx va (pkAop h) (if aopSticky (pkAop h) ∨ p.data.getD 2 0 = 32 then 32 else 64) (p.data.getD 0 0) (p.data.getD 1 0) m with
    | .ok (old, s) => ans s 5 old.isNone [BitVec.ofNat 64 (old.getD 0)]
    | .error _ => ans s 5 true [])
  | _ =>
    if wayHeld s t ctx va 64 .write m then waitPacket s d p
    else
      match if pkAop h = partAop then maskWrite s t ctx va (val (p.data.drop 1)) (p.data.getD 0 0).toNat m
        else vaWrite s t ctx va (32 * pkLen h) (val (p.data.take (4 * pkLen h))) m with
      | (s, none) => ans s 3 false []
      | (s, some _) => ans s 3 true []

/-- The answer to access x reaches its origin die: the clock it carries is merged, and the value is the home's, which a home on another
module sends as data (R234 to R236). -/
def takeAnswer (s : State) (d : Nat) (p : Packet) (x : Xact) : State :=
  let h := p.hdr
  let s := if pkSys h then (p.dv.zipIdx).foldl (fun s e => raiseClock s d e.2 e.1) s else s
  let nack : Bool := decide (pkTag h ≥ 2048)
  let away : Bool := x.st == .sent
  let words := p.data.zipIdx.foldl (fun a w => a + w.1.toNat * 2 ^ (64 * w.2)) 0
  -- a store of the core performed in another module also changes the lines that its earlier loads there bring (R222)
  let s := match x.kind with
    | .wr v => if away ∧ ¬ nack ∧ x.mkind = 0 then { s with xacts := s.xacts.map fun y =>
        if y.mkind = 0 ∧ y.mid = x.mid ∧ y.st = .sent ∧ y.kind = .rd ∧ y.id < x.id ∧ sameLine y.ph x.ph then { y with own := y.own ++ [(x.ph.pa % 128, x.n, v)] } else y }
      else s
    | _ => s
  let line := x.own.foldl (fun d w => patchLine d w.1 w.2.1 w.2.2) (BitVec.ofNat 1024 words)
  let y := { x with nack := nack, t0 := if isWrite x.kind then pkStamp h else x.t0
                    val := if away then words / 256 ^ (if farLine s x then x.va % 128 else 0) % 256 ^ x.n else x.val
                    line := if away then line else x.line, srv := if away then s.served else x.srv }
  -- an access served in another module counts its order when its answer is in (R249)
  let s := if away ∧ ¬ nack ∧ ¬ lockLost x.kind y.val then countOrder { s with served := s.served + 1 } x else s
  let s := dropXact (deliver s y) x.id
  if isWrite x.kind then ackFrom s d x.ph.die x.num nack else s
/-- The access an answer from another module is for, by its TAG (R39). -/
def tagged (s : State) (d : Nat) (h : BitVec 256) : Option Xact :=
  s.xacts.find? fun x => (if isWrite x.kind then x.num.toNat else x.id) % 2048 == pkTag h % 2048 && x.st == .sent && xDie x == d && x.ph.die == pkSdie h &&
    (ansPtype x.kind == pkPtype h || (isWrite x.kind && pkPtype h == 3))

/-- Take in a packet that is not held. -/
def acceptPacket (s : State) (d : Nat) (p : Packet) : State :=
  let h := p.hdr
  match p.msg with
  | .req id =>
    match s.xacts.find? fun x => x.id == id with
    | some x => setXact s { x with st := .home }
    | none => s
  | .ans id =>
    match s.xacts.find? fun x => x.id == id with
    | none => s
    | some x => takeAnswer s d p x
  | .contrib t i data =>
    let y := s.die d
    pushEvs (s.setDie d { y with ventIn := y.ventIn ++ [(t, i, data, h)] }) [.ventContributionReceive d y.ventIn.length]
  | .size l die n => (match s.launch l with
    | some x =>
      -- a size of 0 since a refusal (R118)
      let rf := if n = 0 ∧ x.refused.contains (d, die) then x.refused ++ [(d, die + 32)] else x.refused
      s.setLaunch { x with sizes := FMap.put x.sizes (d * 32 + die) n, refused := rf }
    | none => s)
  | .ask l die => (match s.launch l with | some x => s.setLaunch { x with asks := x.asks ++ [(d, die)] } | none => s)
  | .grant l lo hi => pushEvs s [.stealGrantReceive l d lo hi]
  | .part => s
  | .childAsk g core => giveChild s g core
  | .childGive g core i => takeChild s g core (some i)
  | .childNone g core => takeChild s g core none
  | .refuse l die => (match s.launch l with | some x => s.setLaunch { x with refused := x.refused ++ [(d, die)], asking := x.asking.filter fun k => k != d } | none => s)
  | .plain =>
    match pkPtype h with
    | 0 => foreignReq s d p | 2 => foreignReq s d p | 4 => foreignReq s d p | 7 => foreignReq s d p
    -- a group made or removed by another module (R394, log 111): the group, 1 for removal, the creation time
    | 9 => if pkDep h = 49 then { s with grpUpd := s.grpUpd ++ [(s.dieBase + d, (p.data.getD 0 0).toNat % 4096, p.data.getD 1 0 == 1, p.data.getD 2 0)] }
      else foreignReq s d p
    | 1 => (match tagged s d h with | some x => takeAnswer s d p x | none => s)
    | 5 => (match tagged s d h with | some x => takeAnswer s d p x | none => s)
    | 3 => (match tagged s d h with
      | some x => takeAnswer s d p x
      | none => (match seqOf (s.die d) (pkSdie h) (pkTag h) with
        | some v => ackFrom s d (pkSdie h) v (decide (pkTag h ≥ 2048))
        | none => s))
    | 6 =>
      let y := s.die d
      (match p.data with
      | t :: i :: data => pushEvs (s.setDie d { y with ventIn := y.ventIn ++ [(t.toNat % 1024, i.toNat % 2 ^ 40, data, h)] }) [.ventContributionReceive d y.ventIn.length]
      | _ => s)
    | _ => s

/-- Is a packet a posted write, which a full causal-hold buffer keeps out (R50)? A completion flag travels in the response network (R47): it
is kept out only where it would itself have to be held. -/
def isPosted (h : BitVec 256) : Bool := pkPtype h == 2 || pkPtype h == 4 || pkPtype h == 6 || pkPtype h == 9
/-- Is a packet a SYS write that the die must hold (R236)? -/
def mustHold (s : State) (d : Nat) (p : Packet) : Bool :=
  pkSys p.hdr && (pkPtype p.hdr == 2 || pkPtype p.hdr == 4 || pkPtype p.hdr == 7 || pkPtype p.hdr == 9) && !clockCovers (s.die d) p.dv

/-- PACKET_RECEIVE: a packet arrives whole at its destination die. -/
def execPacketReceive (die : Nat) (p : Packet) (s : State) : Host.Outcome State Fault Refusal :=
  let y := s.die die
  let h := p.hdr
  if packetBad die p then
    let s := s.setDie die { y with badpkt := satInc y.badpkt }
    .next (if pkPtype h = 2 ∨ pkPtype h = 4 then nackWrite s die p else s)
  else
    let skew : Bool := decide (pkStamp h > s.gtc + 16)
    let s := if skew then s.setDie die { y with tskew := true } else s
    let y := s.die die
    if groupDrops y h then
      let s := s.setDie die { ownDone y (s.dieBase + die) h with gdrop := satInc y.gdrop }
      .next (if pkPtype h = 6 then nackWrite s die p else s)
    else if (isPosted h ∨ mustHold s die p) ∧ y.held.length ≥ 512 then
      -- the input waits: the packet stays at the router before it
      let s := waitPacket s die p
      .next (s.setDie die { s.die die with chold := true })
    -- a held contribution keeps other packets of PTYPE 6 out of the Vent input (R392)
    else if pkPtype h = 6 ∧ (y.ventIn.any fun v => pkLen v.2.2.2 != 0) then .next (waitPacket s die p)
    else if mustHold s die p then
      .next (s.setDie die { y with held := y.held ++ [p], chold := y.chold || y.held.length == 511 })
    else finish (acceptPacket s die p)

/-- HELD_WRITE_APPLY: held write k, now covered by the die's clock, is taken in. -/
def execHeldWriteApply (die k : Nat) (s : State) : Host.Outcome State Fault Refusal :=
  let y := s.die die
  match y.held[k]? with
  | none => .next s
  | some p =>
    if mustHold s die p then .next s
    else
      let s := s.setDie die { y with held := y.held.eraseIdx k }
      if groupDrops y p.hdr then .next (s.setDie die { s.die die with gdrop := satInc y.gdrop }) else finish (acceptPacket s die p)

/-- CHANNEL_WORD_ARRIVE: a word enters a channel's receive buffer (R151). -/
def execChannelWordArrive (core ch : Nat) (w : Word) (s : State) : Host.Outcome State Fault Refusal :=
  let c := s.core core
  .next (s.setCore core { c with rx := FMap.put c.rx ch (FMap.get [] c.rx ch ++ [w]) })

/-! ### Time (R24, R51) and the domain (R406) -/

/-- Is this module the domain master? -/
def isMaster (s : State) : Bool := ((List.range 4).find? fun m => s.mod.present.getLsbD m) == some s.mod.modidx.toNat

/-- TIME_SYNC_SEND: the domain master's die 0 sends T1 on its ACTIVE external links that lead to a module of the domain. DESIGN CHOICE (log
111): R51 does not say on which links the exchange runs; a flit that arrives on a link of another die is answered on the link of die 0
that has its number. -/
def execTimeSyncSend (s : State) : Host.Outcome State Fault Refusal :=
  if ¬ isMaster s then .next s
  else
    let y := s.die 0
    let links := (List.range 8).foldl (fun m k => match FMap.find m k with
      | some l => if l.st = .active ∧ leadsHome s 0 k then FMap.put m k { l with tpend := l.tpend ++ [(0, 0, 0, 0, 0)] } else m
      | none => m) y.links
    .next (s.setDie 0 { y with links := links })

/-- TIME_SYNC_RECEIVE by stage: 0 the slave records T2 and replies; 1 the master records T4 and returns all four; 2 the slave takes
one correction step or none, at most one in 65 536 cycles. The reply goes out on the link of die 0 that the flit came on (R51). -/
def execTimeSyncReceive (x : SyncFrom) (t1 t2 t3 t4 : Word) (s : State) : Host.Outcome State Fault Refusal :=
  let y := s.die 0
  let g := BitVec.ofNat 64 s.gtc
  let reply := fun (t : Nat × Word × Word × Word × Word) =>
    s.setDie 0 (y.setLink x.link { y.link x.link with tpend := (y.link x.link).tpend ++ [t] })
  match x.stage with
  | 0 => .next (reply (1, t1, g, 0, 0))
  | 1 => .next (reply (2, t1, t2, t3, g))
  | _ =>
    let off : Int := ((t2 - t1).toInt - (t4 - t3).toInt) / 2
    if isMaster s ∨ s.gtcStep ≠ 0 ∨ (s.gtcStepAt ≠ 0 ∧ s.gtc < s.gtcStepAt + 65536) then .next s
    else if off ≤ -2 then .next { s with gtcStep := 2, gtcStepAt := s.gtc }
    else if off ≥ 2 then .next { s with gtcStep := 1, gtcStepAt := s.gtc }
    else .next s

/-- DOMCFG_WRITE (Table 2.9). -/
def execDomcfgWrite (v : Word) (s : State) : Host.Outcome State Fault Refusal :=
  let m := v.extractLsb' 0 2
  let p := v.extractLsb' 4 4
  if (s.queues.any fun q => q.2.en) ∨ ¬ p.getLsbD m.toNat then .next s
  else .next { s with mod := { s.mod with modidx := m, present := p } }

end Sys2Proof.Machine
end

