-- ==== Sys2Proof/Machine/Vent.lean ====
section
/-! DEFINITION. The Vent engines: fires, contributions, groups (R49, R241, R390 to R395). -/
namespace Sys2Proof.Machine

/-- An engine freezes with its record (R67, R68, R216); `key` is what it holds: an entry of a Vent engine below 2^32, or a conversion. -/
def engineFault (s : State) (d mkind ep ctx key : Nat) (wr : Bool) (e : MFault) : State :=
  let y := s.die d
  let s := s.setDie d { y with engFrozen := FMap.put y.engFrozen ep (key, true) }
  writeFault s ctx (portOf d) (faultRec s.gtc e.code mkind ep wr true ctx (s.dieBase + d) e.va e.e e.lvl 0)
def engFrozen (s : State) (d ep : Nat) : Bool := (FMap.find (s.die d).engFrozen ep).isSome

/-! ### Fires (R391) -/

/-- Words of a scratchpad range. -/
def wordsOf (v n : Nat) : List Word := (List.range n).map fun i => BitVec.ofNat 64 (v / 2 ^ (64 * i))
/-- Is any granule of a scratchpad range closed? -/
def rangeClosed (s : State) (ph : Phys) (n : Nat) : Bool :=
  (List.range (n / 64 + 2)).any fun i => granuleClosed s { ph with pa := ph.pa + min (64 * i) (n - 1) }
/-- Contribution data of a fire: FXSUM converts each f32 element, with its flags. -/
def fireData (e : BitVec 1024) (v : Nat) : List Word × FlagBits :=
  if vtOper e = 4 then
    (List.range (vtLen e / 4)).foldl (fun (a : List Word × FlagBits) i => let r := fxFrom (elem 32 v i) (vtF e); (a.1 ++ [r.1], a.2 ||| r.2)) ([], 0)
  else (wordsOf v (vtLen e / 8), 0)
/-- Dies a fire sends to. -/
def fireTargets (e : BitVec 1024) (die : Nat) : List Nat :=
  if vtRing e then
    let l := vtRing8 e
    [l.getD ((l.idxOf die + 1) % l.length) die]
  else (List.range 32).filter fun j => (vtPeers e).getLsbD j
/-- Instance number with the side of a DRAW contribution in bit 32. -/
def sideInst (e : BitVec 1024) : Nat := vtSinst e + (if vtSide e then 2 ^ 32 else 0)

/-- A list in runs of n. -/
def runsOf {α : Type} (n : Nat) : Nat → List α → List (List α)
  | 0, _ => []
  | _ + 1, [] => []
  | k + 1, l => l.take n :: runsOf n k (l.drop n)

/-- The line of another die that a contribution to entry t counts as (R234). -/
def contribLine (t : Nat) : Nat := 2 ^ 60 + t
/-- Send one contribution to a die, or on a circuit to all the other dies it serves: on a circuit in flits of at most 29 words, which enter router 19 at port 5, else in packets of at most
512 bytes, with which the last the contribution is there. DESIGN CHOICE (log 44): the spec does not lay a contribution out; its entry, its
instance with the number of data words, its group with origin and SEQ, and its stamp go before its data. -/
def sendContrib (s : State) (d t : Nat) (e : BitVec 1024) (data : List Word) (js : List Nat) : State :=
  let me := s.dieBase + d
  let j := js.headD me
  -- a contribution to the die itself is not numbered (R234)
  let sq := if j = me then 0 else nextSeq s d
  let s := if j = me then s else numberAll s d js (contribLine t)
  if vtCirc e ≠ 0 ∧ j ≠ me then
    let y := s.die d
    let r := y.router 19
    let g := BitVec.ofNat 64 (vtGroup e + me * 4096 + sq.toNat * 2 ^ 32)
    let ws := BitVec.ofNat 64 t :: BitVec.ofNat 64 (sideInst e + data.length * 2 ^ 40) :: g :: BitVec.ofNat 64 s.gtc :: data
    let fs := (runsOf 29 (ws.length + 1) ws).map fun w => CFlit.mk (vtCirc e) w s.gtc false 0
    s.setDie d (y.setRouter 19 { r with circ := FMap.put r.circ 5 (FMap.get [] r.circ 5 ++ fs) })
  else
    let ps := runsOf 64 (data.length + 1) data
    ps.zipIdx.foldl (fun s p =>
      let h := mkHdr 6 ((p.1.length + 3) / 4) me (ventEp t) j (ventEp t) false sq 0 (vtCtx e) (vtGroup e) 0 (sq.toNat % 2048) s.gtc
      sendPacket s d (ventEp t) ⟨h, p.1, [], if p.2 + 1 = ps.length then .contrib t (sideInst e) data else .part⟩) s

/-- May a fire read its source: every CORE-path and MATRIX-path write the core issued before is performed? -/
def fireReady (s : State) (core : Nat) : Bool :=
  !(pathBusy s core fun x => x.mkind == 0 && isWrite x.kind) && !((s.core core).accs.any fun a => match a.kind with | .wr => true | _ => false)

/-- Account a fire's contributions to the launch of its core (R95). -/
def coverFire (s : State) (die : Nat) (f : Nat × Nat × Nat) (vs : List VCover) : State :=
  { s with launches := s.launches.map fun (l : Launch) =>
      if l.coverV.contains (.fire die f) then { l with coverV := (l.coverV.erase (.fire die f)) ++ vs }
      else if l.id = (s.core f.2.1).launch ∧ l.cores.contains f.2.1 then { l with coverV := (l.coverV.filter (vOpen s)) ++ vs } else l }
/-- VENT_FIRE: the oldest flagged fire of entry t. -/
def execVentFire (die t : Nat) (s : State) : Host.Outcome State Fault Refusal :=
  let y := s.die die
  match y.fires.find? fun f => f.1 == t with
  | none => .next s
  | some f =>
    let e := FMap.get 0 y.vent t
    let drop := fun (s : State) => s.setDie die { s.die die with fires := (s.die die).fires.erase f }
    if ¬ vtV e then
      let s := drop s
      .next (s.setDie die { s.die die with badpkt := satInc y.badpkt })
    else if ¬ fireReady s f.2.1 ∨ engFrozen s die (ventEp t) ∨
      ¬ ((fireTargets e (s.dieBase + die)).all fun j => j == s.dieBase + die || maySend s die j (contribLine t)) then .next s
    else match spadPhys s (vtCtx e) (vtSrc e) (vtLen e) with
      | none => finish (engineFault s die 2 (ventEp t) (vtCtx e) t false ⟨2, 7, 0, vtSrc e % 2 ^ 56⟩)
      | some ph =>
        if rangeClosed s ph (vtLen e) then .next s
        else
          let (data, fl) := fireData e (homeRead s (vtCtx e) (vtSrc e) (vtLen e) ph)
          let s := bankTurn (drop s) 3 ph
          let y := s.die die
          let s := s.setDie die { y with daflags := y.daflags ||| fl, vent := FMap.put y.vent t (vtSet e 448 32 (vtSinst e + 1)) }
          let targets := fireTargets e (s.dieBase + die)
          let far := targets.filter fun j => j ≠ s.dieBase + die
          -- one circuit flit serves every other die the circuit reaches
          let targets := if vtCirc e ≠ 0 ∧ far ≠ [] then ((targets.filter fun j => j = s.dieBase + die).map fun j => [j]) ++ [far] else targets.map fun j => [j]
          let own : Bool := (fireTargets e (s.dieBase + die)).contains (s.dieBase + die)
          let old := (s.die die).seq
          let s := targets.foldl (fun s js => sendContrib s die t e data js) s
          let y := s.die die
          let s := if own then s.setDie die { y with ventOwn := y.ventOwn ++ [(t, s.gtc)] } else s
          .next (coverFire s die f ((if own then [VCover.own die t s.gtc] else []) ++
            (List.range (y.seq - old).toNat).map fun i => VCover.sent die (old + 1 + BitVec.ofNat 32 i)))

/-! ### Contributions (R392, R393, R395) -/

/-- Acknowledge a contribution to its origin; TAG bit 11 when it was dropped. -/
def ackContrib (s : State) (d : Nat) (h : BitVec 256) (nack : Bool) : State :=
  let s := s.setDie d (ownDone (s.die d) (s.dieBase + d) h)
  let a := mkHdr 3 0 (s.dieBase + d) (pkDep h) (pkSdie h) (pkSep h) false 0 0 0 0 0 (pkTag h % 2048 + if nack then 2048 else 0) s.gtc
  sendPacket s d (pkDep h) ⟨a, [], [], .plain⟩

/-- May a contribution that has come to a die move into its entry? One that came on a circuit is judged by itself, one that came in packets (its LEN is
not 0) stands behind those before it (R392). -/
def contribMoves (s : State) (d k : Nat) : Bool :=
  match (s.die d).ventIn[k]? with
  | none => false
  | some (t, i, _, h) => (pkLen h == 0 || ((s.die d).ventIn.take k).all fun v => pkLen v.2.2.2 == 0) &&
      vtV (FMap.get 0 (s.die d).vent t) && ventTakes (s.die d) t (i % 2 ^ 32)

/-- VENT_CONTRIBUTION_RECEIVE: applied, parked, held or dropped by its instance. -/
def execVentContributionReceive (die k : Nat) (s : State) : Host.Outcome State Fault Refusal :=
  let y := s.die die
  match y.ventIn[k]? with
  | none => .next s
  | some (t, i, data, h) =>
    if ¬ contribMoves s die k then .next s
    else
      let e := FMap.get 0 y.vent t
      let st := FMap.get VentSt.init y.ventSt t
      let inst := i % 2 ^ 32
      let y := { y with ventIn := y.ventIn.eraseIdx k }
      if inst < vtRinst e then
        .next (ackContrib (s.setDie die { y with gdrop := satInc y.gdrop }) die h true)
      else if inst = vtRinst e then
        .next (s.setDie die { y with ventSt := FMap.put y.ventSt t { st with hold := st.hold ++ [(i / 2 ^ 32, data, h)] } })
      else .next (s.setDie die { y with ventSt := FMap.put y.ventSt t { st with park := some (i / 2 ^ 32, data, h) } })

/-- Accumulate operator and width an entry applies (bf16 is applied apart). -/
def ventAop (e : BitVec 1024) : Nat × Nat :=
  let f := vtEty e = 6
  match vtOper e with
  | 0 => (if f then 3 else 1, 32) | 1 => (if f then 6 else 4, 32) | 2 => (if f then 7 else 5, 32)
  | 4 => (2, 64) | _ => (10, 64)

/-- Where element n bytes of an entry lands: scratchpad of this die, or RVA in COLLMODE. DESIGN CHOICE (log 40): an RVA on a LOC 2 or LOC 3
page, for which Table 3.8 has no code, takes PERM_WRITE at LEVEL 7 with the entry in PTE. -/
def ventPhys (s : State) (d : Nat) (e : BitVec 1024) (off n : Nat) : Except MFault (Phys × State) :=
  if (s.die d).ventMode then
    match translate s (tlbVent d) (vtCtx e) (vtRva e + off) .amo mUser with
    | .fault c l x => .error ⟨c, l, x, vtRva e + off⟩
    | .ok ph l x => if ph.loc > 1 then .error ⟨3, 7, x, vtRva e + off⟩ else .ok (ph, tlbFill s (tlbVent d) (vtCtx e) (vtRva e + off) l x)
  else
    let a := vtRspad e / 2 ^ 33 * 2 ^ 33 + (s.dieBase + d) * 2 ^ 28 + vtRspad e % 2 ^ 28
    match if vtRspad e % 2 ^ 22 + off + n > 2 ^ 22 then none else spadPhys s (vtCtx e) (a + off) n with
    | some ph => .ok (ph, s)
    | none => .error ⟨2, 7, 0, (a + off) % 2 ^ 56⟩
/-- Does the whole of a contribution of n bytes lie in the scratchpad? One that runs past its end faults with nothing transferred (R180). -/
def ventWhole (s : State) (d : Nat) (e : BitVec 1024) (n : Nat) : Except MFault State :=
  if (s.die d).ventMode then .ok s else (ventPhys s d e 0 n).map fun r => r.2

/-- Apply one element: new value and flags from the old. -/
def ventElem (e : BitVec 1024) (x old : Nat) : Nat × FlagBits :=
  if vtOper e = 0 ∧ vtEty e = 8 then fadd bf16 old x
  else let a := ventAop e; let r := amoNew a.1 a.2 old (BitVec.ofNat 64 x) 0 0 0 0 false; (r.1, r.2.1)

/-- Read, change and write one element at its home, as an accumulate of the VENT path. -/
def ventPut (s : State) (d t : Nat) (e : BitVec 1024) (off n : Nat) (f : Nat → Nat × FlagBits) : Except MFault State :=
  match ventPhys s d e off n with
  | .error x => .error x
  | .ok (ph, s) =>
    let va := if (s.die d).ventMode then vtRva e + off else 0
    let r := f (homeRead s (vtCtx e) va n ph)
    let s := stickyFlags (homeWrite s (vtCtx e) va n r.1 ph) ph r.2
    .ok (sinter s 2 (ventEp t) (s.dieBase + d) (vtCtx e) va ph 4 0)

/-- Apply a whole contribution. -/
def ventApply (s : State) (d t : Nat) (e : BitVec 1024) (data : List Word) : Except MFault State :=
  let n := vtElem e
  let v := data.zipIdx.foldl (fun a x => a + x.1.toNat * 2 ^ (64 * x.2)) 0
  (ventWhole s d e (8 * data.length)).bind fun s => (List.range (8 * data.length / n)).foldlM (fun s i => ventPut s d t e (n * i) n (ventElem e (elem (8 * n) v i))) s

/-- DRAW: both sides have arrived; the ZM of the elements is gathered. -/
def ventDraw (s : State) (d t : Nat) (e : BitVec 1024) (a b : List Word) : Except MFault (Bool × State) :=
  (ventWhole s d e (8 * (a.zip b).length)).bind fun s => (a.zip b).zipIdx.foldlM (fun (acc : Bool × State) x =>
    let p := Pair.ofNat x.1.1.toNat
    let q := Pair.ofNat x.1.2.toNat
    let r := if vtDmax e then amerge p q else lmerge p q (vtKey e) (vtStrm e + x.2) (0x80000000 + vtNode e)
    let (r, z) := if vtFin e then finalPair r else (r, isZeroPair r)
    match ventPut acc.2 d t e (8 * x.2) 8 (fun _ => (r.toNat, 0)) with
    | .error f => .error f
    | .ok s => .ok (acc.1 || z, s)) (false, s)

/-- All contributions of the instance are performed: the flag is written, RINST advances, the parked one moves up. -/
def ventFinish (s : State) (d t : Nat) : State :=
  let y := s.die d
  let e := FMap.get 0 y.vent t
  let st := FMap.get VentSt.init y.ventSt t
  let v := vtRinst e + (if st.zm then 2 ^ 32 else 0)
  let (s, f) := if vtFlag e = 0 then (s, none) else vaRelease s (tlbVent d) (vtCtx e) (vtFlag e) 8 v (mUser.by 2 (ventEp t) (s.dieBase + d) 0)
  match f with
  | some x => engineFault s d 2 (ventEp t) (vtCtx e) t true x
  | none =>
    let s := bumpIval s 2 (ventEp t)
    let y := s.die d
    let st := { st with count := 0, zm := false, park := none, hold := st.hold ++ (match st.park with | some p => [p] | none => []) }
    s.setDie d { y with vent := FMap.put y.vent t (vtSet e 480 32 (vtRinst e + 1)), ventSt := FMap.put y.ventSt t st }

/-- The flag's release waits for the die's earlier writes to other dies (R236). -/
def ventRelease (s : State) (d t : Nat) : State :=
  if vtFlag (FMap.get 0 (s.die d).vent t) ≠ 0 ∧ ¬ relOpen s d (relKeyVent t) then relMark s d (relKeyVent t)
  else ventFinish (relDone s d (relKeyVent t)) d t

/-- Is there something to apply, or a flag to write, for entry t? -/
def ventReady (s : State) (d t : Nat) : Bool :=
  let y := s.die d
  let e := FMap.get 0 y.vent t
  let st := FMap.get VentSt.init y.ventSt t
  let n := (st.hold.map fun h => 8 * h.2.1.length).foldl max 0
  let closed := match ventPhys s d e 0 n with | .ok (ph, _) => ph.loc == 4 && n != 0 && rangeClosed s ph n | .error _ => false
  vtV e && !engFrozen s d (ventEp t) &&
  (decide (st.count ≥ vtNexp e) || (!closed && (if vtOper e = 3 then (st.hold.any fun h => h.1 == 0) && (st.hold.any fun h => h.1 == 1) else st.hold != [])))

/-- VENT_CONTRIBUTION_APPLY. -/
def execVentContributionApply (die t : Nat) (s : State) : Host.Outcome State Fault Refusal :=
  if ¬ ventReady s die t then .next s
  else
    let y := s.die die
    let e := FMap.get 0 y.vent t
    let st := FMap.get VentSt.init y.ventSt t
    let fault := fun (x : MFault) => finish (engineFault s die 2 (ventEp t) (vtCtx e) t true x)
    let done := fun (s : State) (st : VentSt) (hs : List (BitVec 256)) =>
      let y := s.die die
      let s := s.setDie die { y with ventSt := FMap.put y.ventSt t st }
      let s := hs.foldl (fun s h => ackContrib s die h false) s
      finish (if st.count ≥ vtNexp e then ventRelease s die t else s)
    if st.count ≥ vtNexp e then finish (ventRelease s die t)
    else if vtOper e = 3 then
      match st.hold.find? fun h => h.1 == 0, st.hold.find? fun h => h.1 == 1 with
      | some a, some b =>
        (match ventDraw s die t e a.2.1 b.2.1 with
        | .error x => fault x
        | .ok (z, s) => done s { st with hold := (st.hold.erase a).erase b, count := st.count + 2, zm := st.zm || z } [a.2.2, b.2.2])
      | _, _ => .next s
    else match st.hold with
      | [] => .next s
      | h :: rest =>
        match ventApply s die t e h.2.1 with
        | .error x => fault x
        | .ok s => done s { st with hold := rest, count := st.count + 1 } [h.2.2]

/-- VENT_GROUP_UPDATE: a creation or a removal reaches its die (R394). DESIGN CHOICE (log 111): the spec gives no packet for one that goes
to another module; it leaves at the commit as PTYPE 9 to Treadle, with the group, 1 for a removal, and the creation time as its data words
(`sendPosted`). -/
def execVentGroupUpdate (k : Nat) (s : State) : Host.Outcome State Fault Refusal :=
  match s.grpUpd[k]? with
  | none => .next s
  | some (j, g, destroy, c) =>
    let s := { s with grpUpd := s.grpUpd.eraseIdx k }
    match localDie s j with
    | some d =>
      let y := s.die d
      .next (s.setDie d { y with groups := if destroy then FMap.erase y.groups g else FMap.put y.groups g c })
    | none => .next s

/-- SINTER_TRAP_FREEZE: the report reaches its master, which freezes; its record is already written (R251). -/
def sinterFreeze (s : State) (mkind mid : Nat) (r : BitVec 512) : State :=
  match mkind with
  | 0 =>
    let core := mid % 512
    let c := s.core core
    (match c.mode with
    | .run => s.setCore core (takeTrap ⟨core, 15, 0, (r.extractLsb' 320 16).toNat, 0, false, false, s.gtc⟩ (raceTrap r) c)
    | _ => s)
  | 1 =>
    let core := mid / 8 % 512
    let c := s.core core
    s.setCore core { c with shFault := FMap.put c.shFault (mid % 8) r }
  | 4 => let q := mid % 64; s.setQueue q { s.queue q with frozen := true }
  | 2 => let d := (r.extractLsb' 102 5).toNat % 8; let y := s.die d; s.setDie d { y with engFrozen := FMap.put y.engFrozen mid (2 ^ 64, false) }
  | 3 => let d := (r.extractLsb' 102 5).toNat % 8; let y := s.die d; s.setDie d { y with engFrozen := FMap.put y.engFrozen mid (2 ^ 64, false) }
  | 5 => { s with hostFrozen := s.hostFrozen ++ [((r.extractLsb' 102 5).toNat % 8 / 4, mid, (r.extractLsb' 93 9).toNat)] }
  | _ => s
def execSinterTrapFreeze (k : Nat) (s : State) : Host.Outcome State Fault Refusal :=
  match s.races[k]? with
  | none => .next s
  | some (mk, mid, r) => .next (sinterFreeze { s with races := s.races.eraseIdx k } mk mid r)

end Sys2Proof.Machine
end

