-- ==== Sys2Proof/Machine/Carder.lean ====
section
/-! DEFINITION. Relayout by the Carder engines and reshard by the planner and the Vent engines (R208 to R216, R402). -/
namespace Sys2Proof.Machine

/-! ### Device updates of slots (R208, R211, R215) -/

/-- Apply an update to a slot image of the record at dva. -/
def updImg (dva : Nat) (f : BitVec 2048 → BitVec 2048) (d : BitVec 2048) : BitVec 2048 := if dWord d 15 = dva then f d else d
def updCmd (u : BitVec 2048 → BitVec 2048) (x : ShCmd) : ShCmd := { x with sslot := x.sslot.map u, dslot := x.dslot.map u }
def updStore (u : BitVec 2048 → BitVec 2048) (b : BufStore) : BufStore :=
  match b.kind with | .slot d w el => { b with kind := .slot (u d) w el } | _ => b
def updPend (u : BitVec 2048 → BitVec 2048) (p : Pend) : Pend :=
  match p.eff with | .slot n (some d) => { p with eff := .slot n (some (u d)) } | _ => p
/-- The image that a RESHARD posted at its landing, which the planner starts from (R212, R358). -/
def updPosted (u : BitVec 2048 → BitVec 2048) (p : Posted) : Posted := match p with | .reshard d m => .reshard (u d) m | p => p
def updArch (u : BitVec 2048 → BitVec 2048) (a : Arch) : Arch :=
  { a with slots := a.slots.map fun (p : Nat × BitVec 2048) => (p.1, u p.2), cmds := a.cmds.map (updCmd u), stores := a.stores.map (updStore u)
           pend := a.pend.map (updPend u), posted := a.posted.map (updPosted u) }
def updCore (u : BitVec 2048 → BitVec 2048) (c : Core) : Core :=
  { c with arch := updArch u c.arch, keep := updArch u c.keep, shq := c.shq.map (updCmd u)
           accs := c.accs.map fun a => { a with elem := a.elem.map fun (e : BitVec 2048 × List Nat) => (u e.1, e.2) } }
/-- DLDs of the record on their way, and those that would land again after a rollback, land it as it now stands: the old record followed by
the update (R208). -/
def freshDld (dva : Nat) (now : Option (BitVec 2048)) (c : Core) : Core :=
  match now with
  | none => c
  | some img =>
    let ids := (c.arch.pend ++ c.arch.uiHeld ++ c.keep.pend ++ c.keep.uiHeld).filterMap fun p => match p.eff with
      | .land b (.slot _ a) _ => if a.toNat = dva then some b else none
      | _ => none
    let now := fun (b : Bob) => if ids.contains b.id then { b with ovl := img.setWidth 4096, mask := BitVec.ofNat 512 (2 ^ 256 - 1) } else b
    { c with bobs := c.bobs.map now, landed := c.landed.map now }
/-- Update every slot of the module, in the context, whose DVA is that of the record: of saved cores, and of the conversions of the tensor
too, which write the record from their images (R211, R212). -/
def updSlots (s : State) (t ctx dva : Nat) (f : BitVec 2048 → BitVec 2048) : State :=
  let u := updImg dva f
  let now := match vaRead s t ctx dva 256 mUser with | .ok (v, _) => some (BitVec.ofNat 2048 v) | .error _ => none
  let core := fun (c : Core) => if c.ctx = ctx then freshDld dva now (updCore u c) else c
  { s with cores := s.cores.map fun (p : Nat × Core) => (p.1, core p.2)
           saves := s.saves.map fun (x : Nat × Nat × Core) => (x.1, x.2.1, core x.2.2)
           pool := s.pool.map fun (y : Nat × Nat × Memory) =>
             match s.saves.find? fun (x : Nat × Nat × Core) => x.1 == y.1 && x.2.1 == y.2.1 with
             | some x => (y.1, y.2.1, putPart y.2.2 0xC000 0x2000 (slotTensors (core x.2.2).arch.slots))
             | none => y
           convs := s.convs.map fun (x : Conv) => if x.ctx = ctx then { x with img := u x.img } else x }

/-! ### Records and bitmaps -/

/-- The Carder service and the planner as masters: of their record and bitmap accesses, which Sinter checks (R216, R249). -/
def mService (s : State) (c : Conv) : MasterT :=
  if c.reshard then mUser.by 6 62 (s.dieBase + c.die) 0 else mUser.by 3 50 (s.dieBase + c.die) 0
/-- Write words of the record at DVA, in the order given; DVA is zero in memory. -/
def writeRec (s : State) (t : Nat) (c : Conv) (d : BitVec 2048) (ws : List Nat) : State × Option MFault :=
  ws.foldl (fun acc w => match acc.2 with
    | some _ => acc
    | none => vaPut (w == 0) .none acc.1 t c.ctx (dWord d 15 + 8 * w) 8 (dWord d w) (mService s c)) (s, none)
/-- Bytes of the bitmap of one shard. -/
def bmapBytes (nt : Nat) : Nat := 8 * ((nt + 63) / 64)
/-- Zero the done-bitmap of every shard. -/
def zeroBmap (s : State) (t : Nat) (c : Conv) (va np nt : Nat) : State × Option MFault := vaWrite s t c.ctx va (np * bmapBytes nt) 0 (mService s c)
/-- Set bit t of shard p's bitmap. -/
def setBmap (s : State) (tl : Nat) (c : Conv) (va p nt t : Nat) : Except MFault State :=
  let a := va + p * bmapBytes nt + t / 8
  match vaGet .write s tl c.ctx a 1 (mService s c) with
  | .error e => .error e
  | .ok (v, s) => match vaWrite s tl c.ctx a 1 (v ||| 2 ^ (t % 8)) (mService s c) with | (s, none) => .ok s | (_, some e) => .error e

/-! ### Conversions and lock tables -/

def setConv (s : State) (c : Conv) : State := { s with convs := s.convs.map fun (x : Conv) => if x.id = c.id then c else x }
/-- Let the pieces of a conversion be given out. -/
def startConv (s : State) (id : Nat) : State :=
  { s with convs := s.convs.map fun (x : Conv) => if x.id = id then { x with started := true } else x }
/-- What an engine that works for a conversion holds, beside the entry numbers that Vent engines hold. -/
def convKey (c : Conv) : Nat := 2 ^ 32 + c.id
/-- The map whose shards a conversion writes. -/
def convMap (c : Conv) : BitVec 512 := if c.reshard then dNmap c.img else dMap c.img
def convTiles (c : Conv) : Nat := tileCount c.img (convMap c)
def convShards (c : Conv) : Nat := mPositions (convMap c)
/-- Change a shard's lock table. -/
def setLock (s : State) (c : Conv) (p : Nat) (f : LockTab → LockTab) : State :=
  let dva := dWord c.img 15
  let is := fun (l : LockTab) => l.ctx == c.ctx && l.dva == dva && l.reshard == c.reshard && l.shard == p
  if s.locks.any is then { s with locks := s.locks.map fun (l : LockTab) => if is l then f l else l }
  else { s with locks := s.locks ++ [f ⟨c.ctx, dva, c.reshard, p, mDie (convMap c) p, [], []⟩] }
def dropLocks (s : State) (ctx dva : Nat) (both : Bool) (reshard : Bool) : State :=
  { s with locks := s.locks.filter fun (l : LockTab) => !(l.ctx == ctx && l.dva == dva && (both || l.reshard == reshard)) }

/-- The next piece of a conversion for engine `eng` of `k` on a die: the die's shards in ascending position, their tiles in ascending
order, are given out round robin, and an engine goes on with its own whatever the others do (R209, R216). -/
def nextPiece (s : State) (c : Conv) (d eng k : Nat) : Option (Nat × Nat) :=
  let mine := (List.range (convShards c)).filter fun p => mDie (convMap c) p == s.dieBase + d
  let all := mine.flatMap fun p => (List.range (convTiles c)).map fun t => (p, t)
  (all.zipIdx.find? fun x => x.2 % k == eng && !c.gone.contains x.1).map fun x => x.1

/-- The stored coordinates of tile t. -/
def tileCoords (d : BitVec 2048) (m : BitVec 512) (t : Nat) : List (List Nat) :=
  let x := tileExts d
  let grid := List.zipWith (· / ·) (storedExts d m) x
  let g := (grid.foldr (fun n (st : List Nat × Nat) => (st.2 % max 1 n :: st.1, st.2 / max 1 n)) ([], t)).1
  (List.zip g x).foldl (fun acc p => acc.flatMap fun u => (List.range p.2).map fun o => u ++ [p.1 * p.2 + o]) [[]]

/-- Copy the shadow state of the source sector to the destination sector (R214). -/
def copyShadow (s : State) (a b : Phys) : State :=
  if a.loc = 0 ∧ b.loc = 0 ∧ a.pa < 2 ^ 34 ∧ b.pa < 2 ^ 34 then
    { s with sinter := FMap.set 0 s.sinter (b.die * 2 ^ 40 + b.pa / 32) (FMap.get 0 s.sinter (a.die * 2 ^ 40 + a.pa / 32)) }
  else s

/-- Read w bits at a bit address; a fault with WR = 0. -/
def readBits (s : State) (t ctx a w : Nat) : Except (MFault × Bool) (Nat × State) :=
  match vaRead s t ctx (a / 8) ((a % 8 + w + 7) / 8) mUser with
  | .ok (v, s) => .ok (v / 2 ^ (a % 8) % 2 ^ w, s)
  | .error e => .error (e, false)
/-- Write w bits at a bit address; a fault with WR = 1. -/
def writeBits (s : State) (t ctx a w v : Nat) : Except (MFault × Bool) State :=
  let n := (a % 8 + w + 7) / 8
  -- bits of a byte beside those written stay
  match if a % 8 = 0 ∧ w % 8 = 0 then .ok (0, s) else vaGet .write s t ctx (a / 8) n mUser with
  | .error e => .error (e, true)
  | .ok (old, s) =>
    let lo := old % 2 ^ (a % 8)
    let hi := old / 2 ^ (a % 8 + w)
    match vaWrite s t ctx (a / 8) n (lo + v % 2 ^ w * 2 ^ (a % 8) + hi * 2 ^ (a % 8 + w)) mUser with
    | (s, none) => .ok s
    | (_, some e) => .error (e, true)
/-- Shadow of the location behind a VA pair. -/
def shadowVa (s : State) (t ctx a b : Nat) : State :=
  match translate s t ctx a .read mUser, translate s t ctx b .write mUser with
  | .ok x _ _, .ok y _ _ => copyShadow s x y
  | _, _ => s

/-- Copy one element, with its scale: from (base, tag, index) to (base, tag, index). -/
def copyElem (s : State) (t ctx fmt sb sj db dj : Nat) : Except (MFault × Bool) State := do
  let w := fmtWidth fmt
  let sa := 8 * sb + posBits fmt sj
  let da := 8 * db + posBits fmt dj
  let (v, s) ← readBits s t ctx sa w
  let s ← writeBits s t ctx da w v
  let s := shadowVa s t ctx (sa / 8) (da / 8)
  match posScale fmt sj, posScale fmt dj with
  | some (so, n), some (dof, _) => do
    let (v, s) ← readBits s t ctx (8 * (sb + so)) (8 * n)
    writeBits s t ctx (8 * (db + dof)) (8 * n) v
  | _, _ => .ok s

/-- Accesses admitted to an element range and not yet performed hold its conversion (R209). -/
def tileInUse (s : State) (ctx : Nat) (addrs : List Nat) : Bool :=
  s.xacts.any fun x => x.ctx == ctx && (match x.st with | .answered => false | _ => true) && addrs.any fun a => decide (x.va / 8 ≤ a / 8) && decide (a / 8 ≤ (x.va + max 1 x.n - 1) / 8)

/-- Must a tile wait: for a way to its elements, for a refreshing weight-store bank that holds some of them (R42, R191), or for earlier writes to
the lines it writes (R234)? On every page it reads and on every line it writes. -/
def tileHeld (s : State) (t ctx : Nat) (reads writes : List Nat) : Bool :=
  ((reads.map (· / 65536)).eraseDups.any fun p => wsHolds s t ctx (p * 65536) 1 mUser || wayHeld s t ctx (p * 65536) 1 .read mUser) ||
  (writes.map (· / 128)).eraseDups.any fun l => wayHeld s t ctx (l * 128) 1 .write mUser || !linesOpen s t ctx (l * 128) 1 mUser

/-! ### Relayout -/

/-- The relayout's record fields: words 0 and 9. -/
def relayUpd (img d : BitVec 2048) : BitVec 2048 := dSetWord (dSetBits (dSetBits d 45 6 (dPtag img)) 51 1 1) 9 (dWord img 9)

/-- RELAYOUT_START: the Carder service writes the record, zeroes the bitmap and updates the slots; then tiles may be converted. A fault
freezes engine 50 of its die (R216). -/
def execRelayoutStart (k : Nat) (s : State) : Host.Outcome State Fault Refusal :=
  match s.convs[k]? with
  | none => .next s
  | some c =>
    if c.reshard ∨ c.started ∨ engFrozen s c.die 50 then .next s
    else
      let t := tlbCarder c.die
      let dva := dWord c.img 15
      let fault := fun (s : State) (e : MFault) => finish (engineFault s c.die 3 50 c.ctx (convKey c) true e)
      match writeRec s t c c.img [0, 9] with
      | (s, some e) => fault s e
      | (s, none) =>
        match zeroBmap s t c (dWord c.img 13) (convShards c) (convTiles c) with
        | (s, some e) => fault s e
        | (s, none) => finish (startConv (updSlots (dropLocks s c.ctx dva false false) t c.ctx dva (relayUpd c.img)) c.id)

/-- The conversion whose next tile an engine of a die takes: relayouts for the Carder, reshards for the Vent engines. -/
def pieceFor (s : State) (d eng : Nat) (reshard : Bool) : Option (Conv × Nat × Nat) :=
  s.convs.findSome? fun c =>
    if c.reshard == reshard && c.started then
      (nextPiece s c d eng (if reshard then 8 else 4)).map fun x => (c, x.1, x.2)
    else none

/-- A piece is done: its bit is set in the lock table, it is busy no more; what L1s of the context hold from before it goes, so that no read sent
to the done piece returns what was there before it was written (R402). -/
def pieceDone (s : State) (c : Conv) (p t : Nat) : State :=
  let s := { s with cores := s.cores.map fun (x : Nat × Core) => if x.2.ctx = c.ctx then (x.1, l1DropIf (fun y => !y.keep) x.2) else x }
  setConv (setLock s c p fun l => { l with busy := l.busy.filter fun x => x != t, done := l.done ++ [t] })
    { c with gone := c.gone ++ [(p, t)] }

/-- TILE_CONVERT: an engine takes its next tile; it is busy until the accesses admitted to it have completed, then it is copied whole
(R209). -/
def execTileConvert (die eng : Nat) (s : State) : Host.Outcome State Fault Refusal :=
  match pieceFor s die eng false with
  | none => .next s
  | some (c, p, t) =>
    if engFrozen s die (50 + eng) then .next s
    else
      let d := c.img
      let m := dMap d
      let fmt := slotFmt d
      let us := tileCoords d m t
      let sb := dWord d 8 + p * dWord d 10
      let db := dWord d 9 + p * dWord d 10
      let s := setLock s c p fun l => { l with busy := if l.busy.contains t then l.busy else l.busy ++ [t] }
      let addrs := us.map fun u => sb + posBits fmt (elemIdx d m (dTag d) u) / 8
      let tl := tlbCarder die
      let dests := us.map fun u => db + posBits fmt (elemIdx d m (dPtag d) u) / 8
      if tileInUse s c.ctx addrs ∨ tileHeld s tl c.ctx addrs dests then .next s
      else
        let r : Except (MFault × Bool) State := do
          let s ← us.foldlM (fun s u => copyElem s tl c.ctx fmt sb (elemIdx d m (dTag d) u) db (elemIdx d m (dPtag d) u)) s
          (setBmap s tl c (dWord d 13) p (convTiles c) t).mapError fun e => (e, true)
        match r with
        | .ok s => finish (pieceDone s c p t)
        | .error (e, wr) => finish (engineFault s die 3 (50 + eng) c.ctx (convKey c) wr e)

/-- Is every tile of every shard done? -/
def convDone (c : Conv) : Bool := c.started && c.gone.length == convShards c * convTiles c

/-- The record after a relayout (R211). -/
def relayEnd (d : BitVec 2048) : BitVec 2048 :=
  dSetWord (dSetWord (dSetBits (dSetBits (dSetBits d 39 6 (dPtag d)) 45 6 0) 51 1 0) 8 (dWord d 9)) 9 0

/-- Is the release that ends a conversion's record on its way to another die? -/
def recordOut (s : State) (c : Conv) : Bool :=
  s.xacts.any fun x => x.ctx == c.ctx && (x.mkind == 3 || x.mkind == 6) && x.st != .answered && decide (dWord c.img 15 ≤ x.va) && decide (x.va < dWord c.img 15 + 256)
/-- Mark the record of a conversion as written. -/
def recWritten (s : State) (id : Nat) : State :=
  { s with convs := s.convs.map fun (x : Conv) => if x.id = id then { x with written := true } else x }

/-- RELAYOUT_COMPLETE: the record is written, word 0 last as a release at .sys, and the slots are updated (R211). -/
def execRelayoutComplete (k : Nat) (s : State) : Host.Outcome State Fault Refusal :=
  match s.convs[k]? with
  | none => .next s
  | some c =>
    let key := relKeyConv c.id
    let dva := dWord c.img 15
    if c.reshard ∨ ¬ convDone c ∨ engFrozen s c.die 50 ∨ recordOut s c then .next s
    else if c.written then
      let s := updSlots s (tlbCarder c.die) c.ctx dva fun d => if dRly d then relayEnd d else d
      finish (dropLocks { s with convs := s.convs.eraseIdx k } c.ctx dva false false)
    else if ¬ relOpen s c.die key then .next (relMark s c.die key)
    else match writeRec (relDone s c.die key) (tlbCarder c.die) c (relayEnd c.img) [8, 9, 0] with
      | (s, some e) => finish (engineFault s c.die 3 50 c.ctx (convKey c) true e)
      | (s, none) => finish (recWritten s c.id)

/-! ### Reshard -/

/-- The reshard's record fields: RSH, NBASE, NSSTRIDE, NMAP. -/
def reshUpd (img d : BitVec 2048) : BitVec 2048 :=
  let d := dSetBits (dSetWord (dSetWord d 11 (dWord img 11)) 12 (dWord img 12)) 52 1 1
  (d &&& ~~~(BitVec.ofNat 2048 (2 ^ 512 - 1) <<< 1536)) ||| ((dNmap img).setWidth 2048 <<< 1536)

/-- RESHARD_PLAN: the planner reads the map, writes the record, zeroes the bitmap at RBMAP and updates the slots; a fault freezes it (R212, R216).
DEDUCED (log 114): the map it plans by is the one the RESHARD read at its landing. -/
def execReshardPlan (k : Nat) (s : State) : Host.Outcome State Fault Refusal :=
  match s.convs[k]? with
  | none => .next s
  | some c =>
    if ¬ c.reshard ∨ c.started ∨ engFrozen s c.die 62 ∨
      s.convs.any (fun x => x.written && x.ctx == c.ctx && dWord x.img 15 == dWord c.img 15) then .next s
    else
      let t := tlbCarder c.die
      let dva := dWord c.img 15
      let fault := fun (s : State) (e : MFault) => finish (engineFault s c.die 6 62 c.ctx (convKey c) true e)
      if vaHeld s t c.ctx c.mapva 64 (mService s c) then .next s
      else match vaRead s t c.ctx c.mapva 64 (mService s c) with
      | .error e => finish (engineFault s c.die 6 62 c.ctx (convKey c) false e)
      | .ok (_, s) =>
        match writeRec s t c c.img ([11, 12] ++ (List.range 8).map (24 + ·) ++ [0]) with
        | (s, some e) => fault s e
        | (s, none) =>
          match zeroBmap s t c (dWord c.img 14) (convShards c) (convTiles c) with
          | (s, some e) => fault s e
          | (s, none) => finish (startConv (updSlots (dropLocks s c.ctx dva false true) t c.ctx dva (reshUpd c.img)) c.id)

/-- Logical coordinate that dimension i of stored coordinate u of shard p holds: none for padding and for halo outside the extent (R402). -/
def coordOf (d : BitVec 2048) (m : BitVec 512) (p i u : Nat) : Option Nat :=
  let n := mShards m i
  let k := shardIdx m ((List.range 4).map (mDigit m p)) (mSplitAxes m i)
  let e := dExt d i
  let h := mHalo m i
  let len := splitLen e n (mBlk m i) (mRem m i) k
  if mRem m i = 2 ∧ mSplitAxes m i ≠ [] then
    let b := max 1 (mBlk m i)
    let o := u - h
    let x := (o / b * n + k) * b + o % b
    if u ≥ h ∧ o < len ∧ x < e then some x else none
  else
    let y := splitStart e n (mBlk m i) (mRem m i) k + u
    if u < len + 2 * h ∧ h ≤ y ∧ y - h < e then some (y - h) else none

/-- Sum of two elements in the tensor's format (R213); block formats have no stated sum: an open value (log 36). -/
def elemSum (fmt a b free : Nat) : Nat :=
  match fmt with
  | 0 => (fadd f32 a b).1 | 1 => (fadd f16 a b).1 | 2 => (fadd bf16 a b).1 | 3 => (fadd e4m3 a b).1 | 4 => (fadd e5m2 a b).1
  | 6 => (a + b) % 2 ^ 8 | 7 => (a + b) % 2 ^ 16 | 8 => (a + b) % 2 ^ 32
  | _ => (Config.freeValue free).toNat % 2 ^ fmtWidth fmt

/-- Positions of the old map whose partials a destination position sums: those that agree with the located owner outside the PSUM
axes the new map reduces (R213). -/
def partialsOf (d : BitVec 2048) (p w : Nat) : List Nat :=
  let m := dMap d
  let n := dNmap d
  if ¬ mHasPsum m then [p]
  else (List.range (mPositions m)).filter fun q => (List.range (mNax m)).all fun a =>
    if mRole m a = 2 then
      (if mRole n a = 2 then mDigit m q a == mDigit n w a else true)
    else mDigit m q a == mDigit m p a

/-- The partials along one axis summed in ascending position order, for each place of the other axes (R213). -/
def reduceAxis (fmt : Nat) (m : BitVec 512) (free a : Nat) (l : List (Nat × Nat)) : List (Nat × Nat) :=
  (l.filter fun x => mDigit m x.1 a == 0).map fun x =>
    let rest := l.filter fun y => mDigit m y.1 a != 0 && (List.range (mNax m)).all fun b => b == a || mDigit m y.1 b == mDigit m x.1 b
    (x.1, (rest.zipIdx.foldl (fun v y => elemSum fmt v y.1.2 (free + y.2)) x.2))
/-- A reduce-scatter along each reduced PSUM axis, in ascending axis order (R213). -/
def reduceAll (d : BitVec 2048) (free : Nat) (l : List (Nat × Nat)) : List (Nat × Nat) :=
  ((List.range (mNax (dMap d))).filter fun a => mRole (dMap d) a = 2 ∧ mRole (dNmap d) a ≠ 2).foldl (fun l a => reduceAxis (slotFmt d) (dMap d) (free + 64 * a) a l) l

/-- Where the old copy of an element lies: none while its relayout tile is busy; (base, tag, index). -/
def oldCopy (s : State) (ctx : Nat) (d : BitVec 2048) (p : Nat) (u : List Nat) : Option (Nat × Nat) :=
  let m := dMap d
  let t := tileOf d m u
  let dva := dWord d 15
  if dRly d ∧ tileBusy s ctx dva false p t then none
  else if dRly d ∧ tileDone s ctx dva false p t then some (dWord d 9 + p * dWord d 10, elemIdx d m (dPtag d) u)
  else some (dWord d 8 + p * dWord d 10, elemIdx d m (dTag d) u)

/-- The owner's copy of an element under the old map, that of the receiving die where it is one (R214, R402). -/
def ownerCopy (d : BitVec 2048) (x : List Nat) (w : Nat) : Option Loc :=
  let l := ownerCopies d (dMap d) (dWord d 8) (dWord d 10) x w
  match l.find? fun o => mDie (dMap d) o.p == w with | some o => some o | none => l.head?
/-- Byte addresses at which accesses admitted to a stored position of the destination are performed while its piece is not done (R214, R215). -/
def oldAddrs (s : State) (c : Conv) (p : Nat) (u : List Nat) : List Nat :=
  let d := c.img
  let x := (List.range (dRank d)).map fun i => coordOf d (dNmap d) p i (u.getD i 0)
  if x.any Option.isNone then []
  else match ownerCopy d (x.map fun o => o.getD 0) (mDie (dNmap d) p) with
    | none => []
    | some l => (partialsOf d l.p p).filterMap fun q => (oldCopy s c.ctx d q l.u).map fun r => r.1 + posBits (slotFmt d) r.2 / 8

/-- Write one stored position of the destination: the element, summed where partial, or FILL. None to wait for a relayout tile. -/
def putNew (s : State) (tl : Nat) (c : Conv) (p : Nat) (u : List Nat) : Option (Except (MFault × Bool) State) :=
  let d := c.img
  let n := dNmap d
  let fmt := slotFmt d
  let w := fmtWidth fmt
  let db := dWord d 11 + p * dWord d 12
  let dj := elemIdx d n (newTag d) u
  let da := 8 * db + posBits fmt dj
  let x := (List.range (dRank d)).map fun i => coordOf d n p i (u.getD i 0)
  if x.any Option.isNone then some (writeBits s tl c.ctx da w ((dFill d).toNat % 2 ^ w))
  else
    match ownerCopy d (x.map fun o => o.getD 0) (mDie n p) with
    | none => some (.ok s)
    | some l =>
      let qs := partialsOf d l.p p
      if qs.any fun q => (oldCopy s c.ctx d q l.u).isNone then none
      else match qs with
        | [q] =>
          let r := (oldCopy s c.ctx d q l.u).getD (0, 0)
          some (copyElem s tl c.ctx fmt r.1 r.2 db dj)
        | _ =>
          some (do
            let (vs, s) ← qs.foldlM (fun (acc : List (Nat × Nat) × State) q => do
              let r := (oldCopy s c.ctx d q l.u).getD (0, 0)
              let (y, s') ← readBits acc.2 tl c.ctx (8 * r.1 + posBits fmt r.2) w
              .ok (acc.1 ++ [(q, y)], s')) ([], s)
            let v := reduceAll d s.free vs
            let s := if fmtIsByte fmt then s else { s with free := s.free + 256 }
            let s ← writeBits s tl c.ctx da w (v.headD (0, 0)).2
            let r := (oldCopy s c.ctx d (qs.getLastD 0) l.u).getD (0, 0)
            .ok (shadowVa s tl c.ctx (r.1 + posBits fmt r.2 / 8) (da / 8)))

/-- Stored positions of other shards of the destination that hold an element of this one in their halo (R214). -/
def haloCopies (d : BitVec 2048) (p : Nat) (u : List Nat) : List (Nat × List Nat) :=
  let n := dNmap d
  let x := (List.range (dRank d)).map fun i => coordOf d n p i (u.getD i 0)
  if x.any Option.isNone ∨ (List.range (dRank d)).all (fun i => mHalo n i == 0) then []
  else
    let x := x.map fun o => o.getD 0
    let own := (ownerCopies d n (dWord d 11) (dWord d 12) x (mDie n p)).map fun l => l.p
    ((List.range (mPositions n)).filter fun q => q != p && !own.contains q).filterMap fun q =>
      let v := (List.range (dRank d)).map fun i =>
        let k := shardIdx n ((List.range 4).map (mDigit n q)) (mSplitAxes n i)
        let b := max 1 (mBlk n i)
        if mRem n i = 2 ∧ mSplitAxes n i ≠ [] then x.getD i 0 / b / mShards n i * b + x.getD i 0 % b + mHalo n i
        else x.getD i 0 + mHalo n i - splitStart (dExt d i) (mShards n i) (mBlk n i) (mRem n i) k
      if (List.range (dRank d)).all fun i => coordOf d n q i (v.getD i 0) == some (x.getD i 0) then some (q, v) else none
/-- Is piece (p, t) of a conversion given out and not done? -/
def pieceBusy (s : State) (c : Conv) (p t : Nat) : Bool :=
  s.locks.any fun l => l.ctx == c.ctx && l.dva == dWord c.img 15 && l.reshard == c.reshard && l.shard == p && l.busy.contains t

/-- RESHARD_PIECE: a Vent engine writes one tile of one destination shard: its elements, its halo, its padding, and
its elements' copies in the halo of other shards (R213, R214, R402). A frozen planner gives out no further piece, and a piece whose bit it could
not write waits for its resume (R216). -/
def execReshardPiece (die eng : Nat) (s : State) : Host.Outcome State Fault Refusal :=
  match pieceFor s die eng true with
  | none => .next s
  | some (c, p, t) =>
    if engFrozen s die (54 + eng) ∨ (engFrozen s c.die 62 ∧ ¬ pieceBusy s c p t) ∨ c.stop.contains (p, t) then .next s
    else
      let d := c.img
      let us := tileCoords d (dNmap d) t
      let tl := tlbVent die
      let s := setLock s c p fun l => { l with busy := if l.busy.contains t then l.busy else l.busy ++ [t] }
      let all := us.flatMap fun u => (p, u) :: haloCopies d p u
      let olds := us.flatMap (oldAddrs s c p)
      let dests := all.map fun x => dWord d 11 + x.1 * dWord d 12 + posBits (slotFmt d) (elemIdx d (dNmap d) (newTag d) x.2) / 8
      if tileInUse s c.ctx (dests ++ olds) ∨ tileHeld s tl c.ctx olds dests then .next s
      else
        let r := all.foldl (fun (acc : Option (Except (MFault × Bool) State)) x => match acc with
          | some (.ok s) => putNew s tl c x.1 x.2 | x => x) (some (.ok s))
        match r with
        | none => .next s
        | some (.error (e, wr)) => finish (engineFault s die 2 (54 + eng) c.ctx (convKey c) wr e)
        | some (.ok s) =>
          match setBmap s tl c (dWord d 14) p (convTiles c) t with
          | .ok s => finish (pieceDone s c p t)
          | .error e => finish (engineFault (setConv s { c with stop := c.stop ++ [(p, t)] }) c.die 6 62 c.ctx (convKey c) true e)

/-- The record after a reshard (R215). -/
def reshEnd (d : BitVec 2048) : BitVec 2048 :=
  let tag := newTag d
  let d' := dSetBits (dSetBits (dSetBits (dSetBits d 39 6 tag) 45 6 0) 51 1 0) 52 1 0
  let d' := dSetWord (dSetWord d' 8 (dWord d 11)) 10 (dWord d 12)
  let d' := dSetWord (dSetWord (dSetWord d' 9 0) 11 0) 12 0
  (d' &&& ~~~(BitVec.ofNat 2048 (2 ^ 1024 - 1) <<< 1024)) ||| ((dNmap d).setWidth 2048 <<< 1024)

/-- RESHARD_COMPLETE: the record is written, word 0 last; the slots are updated; a relayout still running stops (R215). -/
def execReshardComplete (k : Nat) (s : State) : Host.Outcome State Fault Refusal :=
  match s.convs[k]? with
  | none => .next s
  | some c =>
    let key := relKeyConv c.id
    let dva := dWord c.img 15
    if ¬ c.reshard ∨ ¬ convDone c ∨ engFrozen s c.die 62 ∨ recordOut s c then .next s
    else if c.written then
      let s := updSlots s (tlbCarder c.die) c.ctx dva fun d => if dRsh d then reshEnd d else d
      let s := { s with convs := s.convs.filter fun (x : Conv) => !(x.id == c.id) && !(x.ctx == c.ctx && dWord x.img 15 == dva && !x.reshard) }
      finish (dropLocks s c.ctx dva true true)
    else if ¬ relOpen s c.die key then .next (relMark s c.die key)
    else match writeRec (relDone s c.die key) (tlbCarder c.die) c (reshEnd c.img) ([8, 9, 10, 11, 12] ++ (List.range 16).map (16 + ·) ++ [0]) with
      | (s, some e) => finish (engineFault s c.die 6 62 c.ctx (convKey c) true e)
      | (s, none) => finish (recWritten s c.id)

/-- Resume a frozen engine or planner: it starts its tile, piece or access again (R216). -/
def engineResume (s : State) (ep : Nat) : State :=
  { s with dies := s.dies.map fun (p : Nat × Die) => (p.1, { p.2 with engFrozen := FMap.erase p.2.engFrozen ep })
           convs := if ep = 62 then s.convs.map fun (c : Conv) => { c with stop := [] } else s.convs }
/-- Kill it: its conversion ends with the busy marks cleared; a Vent engine drops the fire or contribution it holds. -/
def engineKill (s : State) (ep : Nat) : State :=
  let held := s.dies.filterMap fun p => (FMap.find p.2.engFrozen ep).map (·.1)
  let keys := held.filterMap fun k => if 2 ^ 32 ≤ k then some (k - 2 ^ 32) else none
  let s := { s with
    convs := s.convs.filter fun (c : Conv) => !keys.contains c.id
    locks := s.locks.map fun (l : LockTab) =>
      if s.convs.any fun c => keys.contains c.id && c.ctx == l.ctx && dWord c.img 15 == l.dva && c.reshard == l.reshard then { l with busy := [] } else l }
  let s := if 54 ≤ ep ∧ ep ≤ 61 then
      s.dies.foldl (fun s (p : Nat × Die) => match FMap.find p.2.engFrozen ep with
          | some (t, _) =>
            if t ≥ 2 ^ 32 then s else
            let st := FMap.get VentSt.init p.2.ventSt t
            let s := s.setDie p.1 { p.2 with fires := p.2.fires.filter fun f => f.1 != t, ventSt := FMap.put p.2.ventSt t { st with hold := st.hold.drop 1 } }
            -- the contribution it held is answered as discarded, so that its origin goes on
            (match st.hold.head? with | some h => ackContrib s p.1 h.2.2 true | none => s)
          | none => s) s
    else s
  engineResume s ep

end Sys2Proof.Machine
end

