-- ==== Sys2Proof/Machine/Launch.lean ====
section
/-! DEFINITION. Command faults and the launch record: its fields and its checks (R86, R105 to R107, R117, Tables 5.1 to 5.3). -/
namespace Sys2Proof.Machine

/-- A command fault (Table 4.4), or a translation fault of a queue's own access: code, level, the PTE field, VA, direction. -/
structure CFault where
  code : Nat
  lvl : Nat
  e : Word
  va : Nat
  wr : Bool
deriving DecidableEq, Repr
abbrev CM := Except CFault

/-- BAD_FIELD. -/
def CFault.bad : CFault := ⟨33, 7, 0, 0, false⟩
/-- MISALIGN at an address. -/
def CFault.misalign (va : Nat) (wr : Bool) : CFault := ⟨34, 7, 0, va, wr⟩
/-- LAUNCH_FAIL with a reason of Table 5.3. -/
def CFault.launch (reason : Nat) : CFault := ⟨36, 7, BitVec.ofNat 64 reason, 0, false⟩
def CFault.of (e : MFault) (wr : Bool) : CFault := ⟨e.code, e.lvl, e.e, e.va, wr⟩
def ofRead {α : Type} : Except MFault α → CM α
  | .ok x => .ok x
  | .error e => .error (CFault.of e false)

/-- n bytes of a record from byte a. -/
def fld (v a n : Nat) : Nat := v / 256 ^ a % 256 ^ n

def popCount (n w : Nat) : Nat := ((List.range w).filter fun i => n.testBit i).length
def bitList (n w : Nat) : List Nat := (List.range w).filter fun i => n.testBit i

/-- Byte 0 of ply entry k. -/
def plyAt (k : Nat) : Nat := 64 + 32 * k
def plyDom (v k : Nat) : Nat := fld v (plyAt k) 1
def plyScope (v k : Nat) : Nat := fld v (plyAt k + 1) 1
def plyLo (v k : Nat) : Nat := fld v (plyAt k + 8) 8
def plyHi (v k : Nat) : Nat := fld v (plyAt k + 16) 8

/-- The least domain that holds cores of these dies (R106). -/
def leastDomain (dies : List Nat) : Nat :=
  match dies with
  | [] => 0
  | [_] => 2
  | d :: t => if t.all fun x => x / 8 == d / 8 then 3 else 4

/-- Constraints of R106 on ply entry k. -/
def plyOk (v nply k need : Nat) : Bool :=
  decide (plyDom v k ≤ 5) && decide (plyScope v k ≤ 4) && fld v (plyAt k + 2) 6 == 0 && fld v (plyAt k + 24) 8 == 0 &&
  decide (min (plyDom v k) 4 ≤ plyScope v k) &&
  (decide (k = 0) || decide (plyDom v k ≤ plyDom v (k - 1))) &&
  (decide (k + 1 ≠ nply) || plyDom v k == 0) &&
  (if k = 0 then decide (plyLo v 0 ≤ plyHi v 0) && decide (need ≤ plyDom v 0) else plyLo v k == 0 && plyHi v k == 0)

/-- Reason of refusal of a record with its masks, the least of Table 5.3 that applies; 0 when there is none. -/
def refusal (s : State) (v : Nat) (masks : List (Nat × Nat)) : Nat :=
  let nply := fld v 6 1
  let flags := fld v 7 1
  let named := (masks.filter fun m => m.2 % 2 ^ 48 != 0).map fun m => m.1
  let live := masks.any fun m => (bitList m.2 48).any fun r => match localDie s m.1 with
    | some d => !s.mod.retired.contains (d * 64 + r) | none => true
  if fld v 0 4 ≠ 0x44574C31 ∨ fld v 4 2 ≠ 1 then 1
  else if nply < 1 ∨ nply > 8 ∨ flags / 8 ≠ 0 ∨ fld v 26 2 ≠ 0 ∨ fld v (plyAt nply) (32 * (8 - nply)) ≠ 0 then 2
  else if ¬ (List.range nply).all fun k => plyOk v nply k (leastDomain named) then 3
  else if masks = [] ∨ ¬ masks.all (fun m => s.mod.present.getLsbD (m.1 / 8)) then 4
  else if (masks.any fun m => m.2 / 2 ^ 48 != 0) ∨ ¬ live then 5
  else if fld v 24 2 < 1 ∨ fld v 24 2 > 8192 ∨ fld v 28 4 < 1 ∨ fld v 28 4 > 65536 ∨ fld v 16 8 % 64 ≠ 0 ∨ fld v 32 8 % 2 ≠ 0 then 6
  else if flags % 2 = 1 ∧ fld v 12 4 = 0 then 7
  else if fld v 56 8 % 128 ≠ 0 then 8
  else 0

/-- Static ply-0 shares (R117): each die of the list takes the range of its live named cores. -/
def sharesOf (tlo n total : Nat) : List (Nat × Nat) → Nat → List (Nat × Nat × Nat)
  | [], _ => []
  | (d, c) :: t, p => (d, tlo + n * p / total, tlo + n * (p + c) / total) :: sharesOf tlo n total t (p + c)

/-- Read and check the launch record at va (R107). DESIGN CHOICE (log 119): the live named cores of the shares (R117) are counted here. -/
def readLaunch (s : State) (q : Nat) (va : Word) (wh : Word) : CM (Launch × State) := do
  let qq := s.queue q
  let ctx := qq.qctx.toNat
  let t := tlbSpindle (q / 8)
  let m := mQ s q wh
  if va.toNat % 64 ≠ 0 then .error (CFault.misalign va.toNat false)
  else
    let (v, s) ← ofRead (vaRead s t ctx va.toNat 320 m)
    let dies := bitList (fld v 8 4) 32
    let (mv, s) ← ofRead (vaRead s t ctx (va.toNat + 320) (8 * dies.length) m)
    let masks := dies.zipIdx.map fun d => (d.1, fld mv (8 * d.2) 8)
    let why := refusal s v masks
    if why ≠ 0 then .error (CFault.launch why)
    else
      let nply := fld v 6 1
      let liveOn := fun (m : Nat × Nat) => (bitList m.2 48).filter fun r => match localDie s m.1 with
        | some d => !s.mod.retired.contains (d * 64 + r) | none => true
      let cores := masks.flatMap fun m => match localDie s m.1 with | some d => (liveOn m).map fun r => d * 64 + r | none => []
      let counts := masks.map fun m => (m.1, (liveOn m).length)
      let sh := sharesOf (plyLo v 0) (plyHi v 0 - plyLo v 0) ((counts.map fun c => c.2).sum) counts 0
      let shares := sh.filterMap fun x => (localDie s x.1).map fun d => (d, x.2.1, x.2.2)
      .ok ({ id := s.nextId, queue := q, num := 0, ctx := ctx, cls := qq.prio.toNat, eff := qq.prio.toNat, stamp := 0, phase := .checked
             frames := 0, nply := nply, flags := BitVec.ofNat 8 (fld v 7 1), grain := fld v 12 4, dictva := fld v 16 8, dictn := fld v 24 2
             codeva := fld v 32 8, coden := fld v 28 4, argva := BitVec.ofNat 64 (fld v 40 8), relgtc := fld v 48 8, recva := va
             statusva := fld v 56 8
             plies := (List.range nply).map fun k => (plyDom v k, plyScope v k, plyLo v k, plyHi v k)
             cores := cores, far := ((masks.filter fun m => (localDie s m.1).isNone).flatMap fun m => (liveOn m).map fun r => m.1 * 64 + r)
             dies := dies, resv := [], relT := 0, relFirst := 0, released := [], saved := [], restore := false
             shares := shares, sizes := [], asks := [], refused := [], asking := [], granted := [], nabn := 0, nret := 0, preempts := 0, cover := [], coverSh := [], first := none
             sig := 0, notify := none, status := 0, badDict := false }, { s with nextId := s.nextId + 1 })

/-- Is a launch held: the mode in effect is IDLE (R95), or the mode asked for is (R17)? -/
def idleHolds (s : State) : Bool := s.mod.active == 0 || s.mod.mode == 0
/-- A checked launch is pending, or waits while the module is IDLE (R17, R108). -/
def pendLaunch (s : State) (l : Launch) : Launch := if idleHolds s then l else { l with phase := .pending }

end Sys2Proof.Machine
end

