-- ==== Sys2Proof/Machine/Queue.lean ====
section
/-! DEFINITION. The queues of the Spindle: position, completion, the abort procedure, service, and the parts commands share
(R80 to R86, R91, R92, R94, R101, R102). -/
namespace Sys2Proof.Machine

/-! ### Registers and position (R80, R85) -/

/-- Units of the ring. -/
def Queue.units (q : Queue) : Nat := 2 ^ (q.size.toNat - 3)
/-- A command register; c0 reads as zero. -/
def Queue.reg (q : Queue) (i : Nat) : Word := if i = 0 then 0 else FMap.get 0 q.c i
/-- Write a command register; writes of c0 are discarded. -/
def Queue.setReg (q : Queue) (i : Nat) (v : Word) : Queue := if i = 0 then q else { q with c := FMap.set 0 q.c i v }
/-- Unconsumed units. -/
def Queue.avail (q : Queue) : Nat := (q.tail.toNat + q.units - q.head.toNat % q.units) % q.units
/-- Move HEAD by n units. -/
def Queue.skip (q : Queue) (n : Nat) : Queue := { q with head := BitVec.ofNat 22 ((q.head.toNat + n) % q.units) }
/-- Discard every unconsumed unit. -/
def Queue.drain (q : Queue) : Queue := { q with head := q.tail }
/-- WHERE of the packet at the position (R86). -/
def Queue.where (q : Queue) : Word :=
  match q.stack with
  | [] => whereOf q.head.toNat 0 0
  | f :: _ => whereOf q.callAt f.idx q.stack.length

/-- Leave the innermost buffer; the end of an abort handler discards the units left in the ring (R90, R94). -/
def Queue.pop (q : Queue) : Queue :=
  match q.stack with
  | [] => q
  | [_] => if q.inHandler then { q with stack := [], inHandler := false, head := q.tail } else { q with stack := [] }
  | _ :: t => { q with stack := t }
/-- Reaching LEN acts as ret, at once. -/
def Queue.unwind : Nat → Queue → Queue
  | 0, q => q
  | n + 1, q => match q.stack with
    | f :: _ => if f.idx ≥ f.len then Queue.unwind n q.pop else q
    | [] => q
/-- Move the position by o units, inside a buffer or along the ring. -/
def Queue.move (q : Queue) (o : Int) : Queue :=
  match q.stack with
  | [] => q.skip o.toNat
  | f :: t => Queue.unwind 9 { q with stack := { f with idx := (f.idx + o).toNat } :: t }
/-- May a branch move by o units (R85)? -/
def Queue.mayMove (q : Queue) (o : Int) : Bool :=
  match q.stack with
  | [] => decide (1 ≤ o) && decide (o < q.avail)
  | f :: _ => decide (0 ≤ f.idx + o) && decide (f.idx + o < f.len)

/-- The immediate, sign-extended. -/
def pktImm (f : Pkt) : Word := f.imm.signExtend 64
/-- Units of a packet. -/
def pktUnits (f : Pkt) : Nat := 1 + f.xu.toNat
/-- An address unit of Table 4.2. -/
def addrUnit (u : Word) : Bool := u.toNat % 8 == 0 && decide (u.toNat < 2 ^ 56)

/-! ### Executing a packet (R84, R86) -/

/-- The shape R84 asks of every packet: reserved bits, XU, and the end of the buffer. -/
def pktShape (qq : Queue) (f : Pkt) (xu : Nat) : Bool :=
  f.rsvd7 == 0 && f.rsvd23 == 0 && f.xu.toNat == xu && f.ext.length == xu &&
  (match qq.stack with | fr :: _ => decide (fr.idx + 1 + xu ≤ fr.len) | [] => true)

/-- Execute a packet at its queue's position: an invalid packet, or a fault of its meaning, freezes the queue and has no other
effect. -/
def cmdStep (s : State) (f : Pkt) (xu : Nat) (ok : Bool) (body : Nat → Queue → CM State) : Host.Outcome State Fault Refusal :=
  let q := s.curQ
  let qq := s.queue q
  match if pktShape qq f xu && ok then body q qq else .error CFault.bad with
  | .ok s => finish s
  | .error e => finish (queueFault s q e.code e.wr e.va e.e e.lvl qq.where)

/-- The packet is over: its register is written, the position moves past its units. -/
def pktEnd (s : State) (q : Nat) (qq : Queue) (f : Pkt) (rd : Nat) (v : Word) : State := s.setQueue q ((qq.move (pktUnits f)).setReg rd v)

/-- The packet has started and completes later: it holds its destination, and with B every later packet (R83). -/
def pktStart (s : State) (q : Nat) (qq : Queue) (f : Pkt) (b : Bool) (w : QWait) : State :=
  let p : QPkt := ⟨qq.nstart, b, f.rd.toNat, w, none, (match qq.stack with | [] => qq.head.toNat | _ => qq.callAt),
    (match qq.stack with | [] => 0 | fr :: _ => fr.idx), qq.stack.length⟩
  let qq := qq.move (pktUnits f)
  s.setQueue q { qq with out := qq.out ++ [p], nstart := qq.nstart + 1 }

/-- An access of a queue on the TREADLE path (R101): translated now, performed in start order. -/
def queueAcc (s : State) (q va : Nat) (kind : XKind) (acc : AccT) (rel : Option Nat) (num : Nat) (ret : Ret) (wh : Word) : CM State :=
  let ctx := (s.queue q).qctx.toNat
  let t := tlbSpindle (q / 8)
  match translate s t ctx va acc mQueue with
  | .fault c l e => .error ⟨c, l, e, va % 2 ^ 56, decide (acc ≠ .read)⟩
  | .ok ph l e =>
    .ok (addXact (tlbFill s t ctx va l e)
      { id := 0, mkind := 4, mid := q, die := s.dieBase + q / 8, path := 6, ctx := ctx, va := va, n := 8, ph := ph, kind := kind, rel := rel
        acq := none, sc := 4, seq := num, num := 0, dv := [], st := .fresh, t0 := s.gtc, val := 0, nack := false, ret := ret, wh := wh })

/-- Is an address one that goes to host memory, whose other operators the host does not take (R244)? -/
def toHost (s : State) (q va : Nat) : Bool :=
  match translate s (tlbSpindle (q / 8)) (s.queue q).qctx.toNat va .amo mQueue with | .ok ph _ _ => ph.loc == 3 | _ => false

/-! ### Waits (R92) -/

inductive WaitRes where | met | notMet | abort (v : Word)
deriving DecidableEq, Repr

/-- Does v stand to the comparand as COND says, signed? -/
def condHolds (cond : Nat) (v c : Word) : Bool :=
  match cond with
  | 0 => v == c | 1 => v != c | 2 => !v.slt c | 3 => c.slt v | 4 => !c.slt v | _ => v.slt c

/-- The outcome of check() on the values read: the first negative one aborts (R92). -/
def waitOutcome (qq : Queue) (any : Bool) (ops vs : List Word) : WaitRes :=
  match vs.find? fun v => v.msb with
  | some v => .abort v
  | none =>
    let t := (ops.zip vs).map fun p => condHolds (p.1.toNat % 8) p.2 (qq.reg (p.1.toNat / 2 ^ 56 % 16))
    if (if any then t.any id else t.all id) then .met else .notMet

/-- The reads of a check(), in list order, each an acquire at system scope: at a home on the queue's die they are made at once; from another
die the value is asked for, which brings that die's clock with it (R236), and the check goes on when it has come. -/
def waitReads (q num : Nat) (wh : Word) : List Word → List Word → State → CM (List Word × State)
  | [], got, s => .ok (got, s)
  | u :: ops, got, s =>
    let va := u.toNat % 2 ^ 56 / 8 * 8
    let ctx := (s.queue q).qctx.toNat
    let t := tlbSpindle (q / 8)
    match translate s t ctx va .read mQueue with
    | .fault c l e => .error ⟨c, l, e, va, false⟩
    | .ok ph l e =>
      if awayHome s (s.dieBase + q / 8) ph then
        if s.xacts.any fun x => x.ret == .queue q num then .ok (got, s)
        else .ok (got, addXact (tlbFill s t ctx va l e)
          { id := 0, mkind := 4, mid := q, die := s.dieBase + q / 8, path := 6, ctx := ctx, va := va, n := 8, ph := ph, kind := .rd, rel := none
            acq := some 4, sc := 7, seq := num, num := 0, dv := [], st := .fresh, t0 := s.gtc, val := 0, nack := false, ret := .queue q num
            wh := wh })
      else if vaHeld s t ctx va 8 (mQ s q wh) then .ok (got, s)
      else do
        let (v, s) ← ofRead (vaRead (bumpIval s 4 q) t ctx va 8 (mQ s q wh))
        waitReads q num wh ops (got ++ [BitVec.ofNat 64 v]) s

/-! ### The abort procedure (R94) -/

/-- The units of the packet at a queue's position, asked for in another module, are asked for anew: answers still on their way go nowhere (R90). -/
def dropUnits (s : State) (q : Nat) : State :=
  let x := fun (x : Xact) => match x.ret with | .unit k _ => if k = q then { x with ret := .none } else x | _ => x
  { s with xacts := s.xacts.map x }.setQueue q { s.queue q with far := [], seen := none }

/-- Steps 3 to 5: ABTSIG is set, once a way leads to its tables (R42), then the handler runs, or every unconsumed unit is discarded. DESIGN CHOICE (log 112): no call packet
enters the handler; WHERE of a fault in it names HEAD as it stood at its entry. -/
def abortRest (s : State) (q : Nat) (v : Word) (ring : Nat) : State :=
  let qq := s.queue q
  let wh := whereOf ring 0 0
  if qq.abtsig ≠ 0 ∧ walkHeld s (tlbSpindle (q / 8)) qq.qctx.toNat qq.abtsig then s.setQueue q { qq with abort := some (v, ring) } else
  let r := if qq.abtsig = 0 then .ok s else queueAcc s q qq.abtsig (.amo 10 64 v 0 0 0 0 false) .amo (some 4) qq.nstart .none wh
  match r with
  | .error e => queueFault (s.setQueue q { qq with abort := some (v, ring) }) q e.code true qq.abtsig e.e e.lvl wh
  | .ok s =>
    -- the write takes its place in start order (R100, R101)
    let qq : Queue := { s.queue q with abort := none, nstart := qq.nstart + 1 }
    s.setQueue q (if qq.hlen = 0 then qq.drain
      else { qq with stack := [⟨qq.hva, qq.hlen, 0⟩], inHandler := true, hlen := 0, callAt := qq.head.toNat })
/-- The abort procedure with value v, begun by the packet at a ring offset. DESIGN CHOICE (log 119): c15 is written also when the queue has been
disabled since the wait started (R80, R94). -/
def abortQueue (s : State) (q : Nat) (v : Word) (ring : Nat) : State :=
  let qq := s.queue q
  abortRest (dropUnits (s.setQueue q { qq.setReg 15 v with stack := [], inHandler := false }) q) q v ring

/-! ### Completion and service (R83, R102) -/

/-- Has the queue an access started before packet `num` that is not yet acknowledged? -/
def queueBusy (s : State) (q num : Nat) : Bool := s.xacts.any fun x => x.mkind == 4 && x.mid == q && x.path == 6 && decide (x.seq < num)

/-- Has the queue a read or a record to make for a packet started before `num`? -/
def asksBefore (qq : Queue) (num : Nat) : Bool :=
  qq.out.any fun p => decide (p.num < num) && (match p.w with | .ask _ _ _ => true | .note _ _ => true | _ => false)

/-- Has the queue a st, signal operation or notify started before packet `num` that is not yet acknowledged (R100)? -/
def writesBefore (s : State) (q num : Nat) : Bool :=
  (s.xacts.any fun x => x.mkind == 4 && x.mid == q && x.path == 6 && isWrite x.kind && decide (x.seq < num)) ||
  (s.queue q).out.any fun p => decide (p.num < num) && (match p.w with | .note _ _ => true | _ => false)

/-- Is a started packet complete? -/
def pktDone (s : State) (q : Nat) (p : QPkt) : Bool :=
  match p.w with | .done => true | .flush => !writesBefore s q p.num | _ => false
/-- Completions are recognised: registers are written, unless the queue is disabled (R80); marks and barriers go. -/
def recognise (s : State) (q : Nat) : State :=
  let qq := s.queue q
  let qd := qq.out.foldl (fun (qd : Queue) p => if pktDone s q p && qq.en then
    (match p.res with | some v => qd.setReg p.rd v | none => qd) else qd) qq
  s.setQueue q { qd with out := qq.out.filter fun p => !pktDone s q p }

/-- Remove a started packet. -/
def dropPkt (s : State) (q num : Nat) : State :=
  let qq := s.queue q
  s.setQueue q { qq with out := qq.out.filter fun p => p.num != num }
/-- Change what a started packet waits for. -/
def setWait (s : State) (q num : Nat) (w : QWait) : State :=
  let qq := s.queue q
  s.setQueue q { qq with out := qq.out.map fun p => if p.num = num then { p with w := w, res := none } else p }

/-- Must an event wait for a way to its descriptor, or for an earlier write to its line (R42, R234)? -/
def recordHeld (s : State) (q va : Nat) : Bool :=
  let ctx := (s.queue q).qctx.toNat
  let t := tlbSpindle (q / 8)
  wayHeld s t ctx va 40 .amo mQueue || !linesOpen s t ctx va 40 mQueue
/-- Go on with a check() or an event of a started packet, once the queue's earlier accesses are made (R92, R97, R101). -/
def settlePkt (s : State) (q : Nat) (p : QPkt) : CM State :=
  let wh := whereOf p.ring p.idx p.depth
  if queueBusy s q p.num || asksBefore (s.queue q) p.num then .ok s
  else match p.w with
    | .note va v => if recordHeld s q va then .ok s else (match notifyEvent s q va v with | .ok s => .ok (dropPkt s q p.num) | .error e => .error (CFault.of e true))
    | .ask any ops got =>
      let got := match p.res with | some v => got ++ [v] | none => got
      do
        let (vs, s) ← waitReads q p.num wh (ops.drop got.length) got s
        if vs.length < ops.length then pure (setWait s q p.num (.ask any ops vs))
        else
          let qq := s.queue q
          let put : Word → Queue := fun v => if qq.en then qq.setReg p.rd v else qq
          match waitOutcome qq any ops vs with
          | .met => pure (if p.b then dropPkt s q p.num else dropPkt (s.setQueue q (put 1)) q p.num)
          | .notMet => pure (if p.b then setWait s q p.num (.wait any ops) else dropPkt (s.setQueue q (put 0)) q p.num)
          | .abort v => pure (if p.b then abortQueue (dropPkt s q p.num) q v p.ring else dropPkt (s.setQueue q (put (-1))) q p.num)
    | _ => .ok s

/-- Go on with what the queue's started packets have to read or record, oldest first. -/
def settle (s : State) (q : Nat) : State :=
  (s.queue q).out.foldl (fun s x => match (s.queue q).out.find? fun p => p.num == x.num with
    | some p => if (s.queue q).frozen then s else (match settlePkt s q p with
        | .ok s => s
        | .error e =>
          -- resumed, a check starts again from its beginning (R86)
          queueFault (match p.w with | .ask any ops _ => setWait s q p.num (.ask any ops []) | _ => s) q e.code e.wr e.va e.e e.lvl
            (whereOf p.ring p.idx p.depth))
    | none => s) s

/-- QUEUE_ACCESS_RETURN: the data or old value that has come back completes its packet, or lets its check go on. -/
def execQueueAccessReturn (q : Nat) (s : State) : Host.Outcome State Fault Refusal :=
  let qq := s.queue q
  finish (settle (s.setQueue q { qq with out := qq.out.map fun p => match p.w, p.res with | .access, some _ => { p with w := .done } | _, _ => p }) q)

/-- The check of a blocking wait or gtcwait at the head. -/
def serviceWait (s : State) (q : Nat) : State :=
  match (s.queue q).out.find? fun p => (match p.w with | .wait _ _ => true | .gtc _ => true | _ => false) with
  | none => s
  | some p =>
    match p.w with
    | .gtc t => if t.toNat ≤ s.gtc then dropPkt s q p.num else s
    | .wait any ops => settle (setWait s q p.num (.ask any ops [])) q
    | _ => s

/-- QUEUE_SERVICE: the completions, then the check at the head. Packets then start one every 8 cycles of the window (`queuePoint`). -/
def execQueueService (q : Nat) (s : State) : Host.Outcome State Fault Refusal :=
  let s := recognise s q
  finish (if (s.queue q).frozen then s else serviceWait s q)

/-! ### The packet at the position (R54, R81, R83, R85) -/

/-- What stands at a queue's position. -/
inductive AtHead where
  | none
  | fault (e : CFault)
  | cmd (i : Instr)
deriving DecidableEq, Repr

/-- Registers a packet names: RD, RA, RB, and the comparands of a wait. -/
def pktRegs (h : Word) (ext : List Word) : List Nat :=
  let r := fun k => h.toNat / 2 ^ k % 16
  [r 8, r 12, r 16] ++ (if h.toNat % 64 = 0x11 then ext.map fun u => u.toNat / 2 ^ 56 % 16 else [])

/-- VA of unit k from the position. -/
def unitVa (qq : Queue) (k : Nat) : Nat :=
  match qq.stack with
  | [] => qq.qbase.toNat + 8 * ((qq.head.toNat + k) % qq.units)
  | f :: _ => f.va + 8 * (f.idx + k)

/-- May the packet with this header start beside those already started (R83)? -/
def pktFree (qq : Queue) (h : Word) (ext : List Word) : Bool :=
  qq.out.all fun p => !p.b && (p.rd == 0 || !(pktRegs h ext).contains p.rd)

end Sys2Proof.Machine
end

