-- ==== Sys2Proof/Machine/Commands.lean ====
section
/-! DEFINITION. The commands (R87 to R100), one meaning each. `State.curQ` is the queue at whose position the packet stands. -/
namespace Sys2Proof.Machine

/-! ### Registers (R87, R100) -/

/-- A packet that writes RD at its start. -/
def cmdReg (s : State) (f : Pkt) (ok : Bool) (v : Queue → Word) : Host.Outcome State Fault Refusal :=
  cmdStep s f 0 ok fun q qq => .ok (pktEnd s q qq f f.rd.toNat (v qq))
/-- OP 0x03: both sources are registers. -/
def cmdAlu (s : State) (f : Pkt) (op : Word → Word → Word) : Host.Outcome State Fault Refusal :=
  cmdReg s f (f.imm == 0) fun qq => op (qq.reg f.ra.toNat) (qq.reg f.rb.toNat)
/-- OP 0x04: the second source is the immediate. -/
def cmdAlui (s : State) (f : Pkt) (op : Word → Word → Word) : Host.Outcome State Fault Refusal :=
  cmdReg s f (f.rb == 0) fun qq => op (qq.reg f.ra.toNat) (pktImm f)

def cShl (x y : Word) : Word := x <<< (y.toNat % 64)
def cShr (x y : Word) : Word := x >>> (y.toNat % 64)
def cSra (x y : Word) : Word := x.sshiftRight (y.toNat % 64)
def cMin (x y : Word) : Word := if y.slt x then y else x
def cMax (x y : Word) : Word := if x.slt y then y else x

def execCmdNop (f : Pkt) (s : State) := cmdReg s f (f.rd == 0 && f.ra == 0 && f.rb == 0 && f.imm == 0) fun _ => 0
def execCmdLi (f : Pkt) (s : State) := cmdReg s f (f.ra == 0 && f.rb == 0) fun _ => pktImm f
def execCmdLih (f : Pkt) (s : State) :=
  cmdReg s f (f.ra == 0 && f.rb == 0) fun qq => f.imm ++ (qq.reg f.rd.toNat).setWidth 32
def execCmdAdd (f : Pkt) (s : State) := cmdAlu s f (· + ·)
def execCmdSub (f : Pkt) (s : State) := cmdAlu s f (· - ·)
def execCmdAnd (f : Pkt) (s : State) := cmdAlu s f (· &&& ·)
def execCmdOr (f : Pkt) (s : State) := cmdAlu s f (· ||| ·)
def execCmdXor (f : Pkt) (s : State) := cmdAlu s f (· ^^^ ·)
def execCmdShl (f : Pkt) (s : State) := cmdAlu s f cShl
def execCmdShr (f : Pkt) (s : State) := cmdAlu s f cShr
def execCmdSra (f : Pkt) (s : State) := cmdAlu s f cSra
def execCmdMin (f : Pkt) (s : State) := cmdAlu s f cMin
def execCmdMax (f : Pkt) (s : State) := cmdAlu s f cMax
def execCmdAddi (f : Pkt) (s : State) := cmdAlui s f (· + ·)
def execCmdSubi (f : Pkt) (s : State) := cmdAlui s f (· - ·)
def execCmdAndi (f : Pkt) (s : State) := cmdAlui s f (· &&& ·)
def execCmdOri (f : Pkt) (s : State) := cmdAlui s f (· ||| ·)
def execCmdXori (f : Pkt) (s : State) := cmdAlui s f (· ^^^ ·)
def execCmdShli (f : Pkt) (s : State) := cmdAlui s f cShl
def execCmdShri (f : Pkt) (s : State) := cmdAlui s f cShr
def execCmdSrai (f : Pkt) (s : State) := cmdAlui s f cSra
def execCmdMini (f : Pkt) (s : State) := cmdAlui s f cMin
def execCmdMaxi (f : Pkt) (s : State) := cmdAlui s f cMax
def execCmdRdgtc (f : Pkt) (s : State) :=
  cmdReg s f (f.ra == 0 && f.rb == 0 && f.imm == 0) fun _ => BitVec.ofNat 64 s.gtc

/-! ### Memory and signals (R88, R91) -/

/-- Address of ld, st, signals and notify. -/
def cmdVa (qq : Queue) (f : Pkt) : Nat := (qq.reg f.ra.toNat + pktImm f).toNat

def execCmdLd (f : Pkt) (s : State) : Host.Outcome State Fault Refusal :=
  cmdStep s f 0 (f.rb == 0) fun q qq =>
    let a := cmdVa qq f
    if a % 8 ≠ 0 then .error (CFault.misalign a false)
    else queueAcc (pktStart s q qq f (f.b == 1) .access) q a .rd .read none qq.nstart (.queue q qq.nstart) qq.where
def execCmdSt (f : Pkt) (s : State) : Host.Outcome State Fault Refusal :=
  cmdStep s f 0 (f.rd == 0) fun q qq =>
    let a := cmdVa qq f
    if a % 8 ≠ 0 then .error (CFault.misalign a true)
    else queueAcc (s.setQueue q { qq.move 1 with nstart := qq.nstart + 1 }) q a (.wr (qq.reg f.rb.toNat).toNat) .write none qq.nstart .none qq.where

/-- A signal operation: one accumulate, a release at system scope, whose old value comes back. An operator that host memory does not
take has no effect, and the value returned is not stated (R244, log 51). -/
def cmdSig (s : State) (f : Pkt) (aop : Nat) (opa : Word → Word) : Host.Outcome State Fault Refusal :=
  cmdStep s f 0 true fun q qq =>
    let a := cmdVa qq f
    if a % 8 ≠ 0 then .error (CFault.misalign a true)
    else if toHost s q a ∧ ¬ hostAmo aop 64 then
      .ok { pktEnd s q qq f f.rd.toNat (Config.freeValue s.free) with free := s.free + 1 }
    else queueAcc (pktStart s q qq f (f.b == 1) .access) q a (.amo aop 64 (opa (qq.reg f.rb.toNat)) 0 0 0 0 false) .amo (some 4) qq.nstart
      (.queue q qq.nstart) qq.where
def execCmdSigSet (f : Pkt) (s : State) := cmdSig s f 10 id
def execCmdSigAdd (f : Pkt) (s : State) := cmdSig s f 1 id
def execCmdSigSub (f : Pkt) (s : State) := cmdSig s f 1 fun v => -v
def execCmdSigMax (f : Pkt) (s : State) := cmdSig s f 4 id
def execCmdSigMin (f : Pkt) (s : State) := cmdSig s f 5 id

/-! ### Branches and buffers (R89, R90) -/

/-- A branch: its offset is checked, taken or not. -/
def cmdBranch (s : State) (f : Pkt) (ok : Bool) (taken : Queue → Bool) : Host.Outcome State Fault Refusal :=
  cmdStep s f 0 (ok && (s.queue s.curQ).mayMove f.imm.toInt) fun q qq =>
    .ok (s.setQueue q (qq.move (if taken qq then f.imm.toInt else 1)))
/-- A conditional branch on two registers. -/
def cmdBcc (s : State) (f : Pkt) (c : Word → Word → Bool) : Host.Outcome State Fault Refusal :=
  cmdBranch s f (f.rd == 0) fun qq => c (qq.reg f.ra.toNat) (qq.reg f.rb.toNat)
def execCmdBeq (f : Pkt) (s : State) := cmdBcc s f fun x y => x == y
def execCmdBne (f : Pkt) (s : State) := cmdBcc s f fun x y => x != y
def execCmdBlt (f : Pkt) (s : State) := cmdBcc s f fun x y => x.slt y
def execCmdBge (f : Pkt) (s : State) := cmdBcc s f fun x y => !x.slt y
def execCmdBltu (f : Pkt) (s : State) := cmdBcc s f fun x y => x.ult y
def execCmdBgeu (f : Pkt) (s : State) := cmdBcc s f fun x y => !x.ult y
def execCmdJmp (f : Pkt) (s : State) := cmdBranch s f (f.rd == 0 && f.ra == 0 && f.rb == 0) fun _ => true
/-- loop counts RD down; at ring level it is invalid. -/
def execCmdLoop (f : Pkt) (s : State) : Host.Outcome State Fault Refusal :=
  let q0 := s.queue s.curQ
  cmdStep s f 0 (f.ra == 0 && f.rb == 0 && !q0.stack.isEmpty && q0.mayMove f.imm.toInt) fun q qq =>
    let v := qq.reg f.rd.toNat - 1
    .ok (s.setQueue q ((qq.move (if v ≠ 0 then f.imm.toInt else 1)).setReg f.rd.toNat v))
def execCmdCall (f : Pkt) (s : State) : Host.Outcome State Fault Refusal :=
  cmdStep s f 0 (f.rd == 0 && f.rb == 0) fun q qq =>
    let a := (qq.reg f.ra.toNat).toNat
    if a % 8 ≠ 0 ∨ f.imm.toNat < 1 ∨ f.imm.toNat > 65536 then .error CFault.bad
    else if qq.stack.length ≥ 8 then .error ⟨35, 7, 0, 0, false⟩
    else
      let at_ := match qq.stack with | [] => qq.head.toNat | _ => qq.callAt
      -- the return position is past the call; a call at the end of a buffer returns to that end
      let past := match qq.stack with
        | [] => qq.skip 1
        | fr :: t => { qq with stack := { fr with idx := fr.idx + 1 } :: t }
      .ok (s.setQueue q { past with stack := ⟨a, f.imm.toNat, 0⟩ :: past.stack, callAt := at_ })
def execCmdRet (f : Pkt) (s : State) : Host.Outcome State Fault Refusal :=
  cmdStep s f 0 (f.rd == 0 && f.ra == 0 && f.rb == 0 && f.imm == 0 && !(s.queue s.curQ).stack.isEmpty) fun q qq =>
    .ok (s.setQueue q (Queue.unwind 9 qq.pop))

/-! ### Waits and aborts (R92 to R94) -/

/-- A wait operand is valid: a condition of Table 4.2, bits [63:60] zero. -/
def waitUnit (u : Word) : Bool := decide (u.toNat % 8 ≤ 5) && decide (u.toNat < 2 ^ 60)
/-- wait.all and wait.any: the check at the start, its reads after the queue's earlier accesses (R101); with B it completes, holds or
aborts, without B its outcome goes to RD. -/
def cmdWait (s : State) (f : Pkt) (any : Bool) : Host.Outcome State Fault Refusal :=
  cmdStep s f (f.fn.toNat % 4 + 1) (f.ra == 0 && f.rb == 0 && f.imm == 0 && (f.b == 0 || f.rd == 0) && f.ext.all waitUnit) fun q qq =>
    let s := pktStart s q qq f (f.b == 1) (.ask any f.ext [])
    match (s.queue q).out.find? fun p => p.num == qq.nstart with
    | some p => settlePkt s q p
    | none => .ok s
def execCmdWaitAll (f : Pkt) (s : State) := cmdWait s f false
def execCmdWaitAny (f : Pkt) (s : State) := cmdWait s f true
def execCmdGtcwait (f : Pkt) (s : State) : Host.Outcome State Fault Refusal :=
  cmdStep s f 0 (f.rb == 0 && f.imm == 0 && (f.b == 0 || f.rd == 0)) fun q qq =>
    let t := qq.reg f.ra.toNat
    let now : Bool := decide (t.toNat ≤ s.gtc)
    .ok (if f.b = 0 then pktEnd s q qq f f.rd.toNat (if now then 1 else 0)
      else if now then pktEnd s q qq f 0 0 else pktStart s q qq f true (.gtc t))
def execCmdOnabt (f : Pkt) (s : State) : Host.Outcome State Fault Refusal :=
  let sig := f.ext.getD 0 0
  let buf := f.ext.getD 1 0
  cmdStep s f 2 (f.rd == 0 && f.ra == 0 && f.rb == 0 && addrUnit sig && addrUnit buf && decide (f.imm.toNat ≤ 65536) &&
      !(buf == 0 && f.imm != 0)) fun q qq =>
    .ok (s.setQueue q { qq.move (pktUnits f) with abtsig := sig.toNat, hva := buf.toNat, hlen := f.imm.toNat })
def execCmdAbort (f : Pkt) (s : State) : Host.Outcome State Fault Refusal :=
  cmdStep s f 0 (f.rd == 0 && f.rb == 0 && f.imm == 0) fun q qq =>
    let x := qq.reg f.ra.toNat
    let ring := match qq.stack with | [] => qq.head.toNat | _ => qq.callAt
    .ok (abortQueue (pktEnd s q qq f 0 0) q (if x.msb then x else -1) ring)

/-! ### Launch, copy, fill, notify, slot loads, shoot-downs, flush (R95 to R100) -/

/-- A launch: the record is read and checked, then the descriptor of launch.n. -/
def cmdLaunchAs (s : State) (f : Pkt) (n : Bool) : Host.Outcome State Fault Refusal :=
  let sig := f.ext.getD 0 0
  cmdStep s f 1 (f.imm == 0 && addrUnit sig && (n || f.rb == 0)) fun q qq => do
    let (l, s) ← readLaunch s q (qq.reg f.ra.toNat) qq.where
    let desc := (qq.reg f.rb.toNat).toNat
    if n ∧ desc % 64 ≠ 0 then .error (CFault.misalign desc true)
    else
      let l := pendLaunch s { l with num := qq.nstart, sig := sig.toNat, notify := if n then some desc else none }
      let s := { s with launches := s.launches ++ [l] }
      pure (pktStart s q (s.queue q) f (f.b == 1) (.launch l.id))
def execCmdLaunch (f : Pkt) (s : State) := cmdLaunchAs s f false
def execCmdLaunchN (f : Pkt) (s : State) := cmdLaunchAs s f true

/-- A copy or fill joins the Spindle's own Shuttle channel of the die, in order of start. -/
def cmdCopyAs (s : State) (f : Pkt) (fill : Bool) : Host.Outcome State Fault Refusal :=
  let sig := f.ext.getD 0 0
  let n := f.imm.toNat
  cmdStep s f 1 (f.rd == 0 && addrUnit sig && decide (1 ≤ n) && decide (n < 2 ^ 31) && (!fill || n % 8 == 0)) fun q qq =>
    let a := (qq.reg f.ra.toNat)
    let b := (qq.reg f.rb.toNat)
    if fill ∧ a.toNat % 8 ≠ 0 then .error (CFault.misalign a.toNat true)
    else
      let c : QCopy := ⟨q, qq.nstart, fill, a.toNat, if fill then a.toNat else b.toNat, n, b, 0, sig.toNat, false, 0, false, [], none⟩
      .ok (pktStart { s with qcopies := s.qcopies ++ [c] } q qq f (f.b == 1) .copy)
def execCmdCopy (f : Pkt) (s : State) := cmdCopyAs s f false
def execCmdFill (f : Pkt) (s : State) := cmdCopyAs s f true

def execCmdNotify (f : Pkt) (s : State) : Host.Outcome State Fault Refusal :=
  cmdStep s f 0 (f.rd == 0) fun q qq =>
    let a := cmdVa qq f
    if a % 64 ≠ 0 then .error (CFault.misalign a true)
    else
      -- its place is checked now, the event is recorded after the queue's earlier accesses (R101)
      match translate s (tlbSpindle (q / 8)) qq.qctx.toNat a .amo mQueue with
      | .fault c l e => .error ⟨c, l, e, a, true⟩
      | .ok _ _ _ =>
        let v := qq.reg f.rb.toNat
        let s := pktStart s q qq f false (.note a v)
        match (s.queue q).out.find? fun p => p.num == qq.nstart with
        | some p => settlePkt s q p
        | none => .ok s

/-- DESIGN CHOICE (log 112): a die of a module that is not present counts as a target that is absent, with answer 3. -/
def execCmdSlotld (f : Pkt) (s : State) : Host.Outcome State Fault Refusal :=
  let u := (f.ext.getD 0 0).toNat
  let die := u % 32
  let unit := u / 32 % 64
  cmdStep s f 1 (f.imm == 0 && decide (u < 2 ^ 11) && decide (unit ≤ 58)) fun q qq => do
    let (img, s) ← ofRead (vaRead s (tlbSpindle (q / 8)) qq.qctx.toNat (qq.reg f.ra.toNat).toNat 4096 (mQ s q qq.where))
    let there : Bool := diePresent s die && unitExists (die % 8) unit
    let x : SlotLoad := ⟨die, unit, slotImage img, (qq.reg f.rb.toNat).toNat, .inl (q, qq.nstart), if there then none else some 3⟩
    pure (pktStart { s with slotLoads := s.slotLoads ++ [x] } q (s.queue q) f (f.b == 1) (.slotld 0))

/-- Is the VA of a shoot-down aligned to its span? DESIGN CHOICE (log 119): a span of the whole context, for which no size is given, takes any VA
(R99, Table 3.7). -/
def spanAligned (span va : Nat) : Bool :=
  match span with | 0 => va % 2 ^ 16 == 0 | 1 => va % 2 ^ 21 == 0 | 2 => va % 2 ^ 30 == 0 | _ => true
/-- The request in the layout of SHOOTDN (Table 3.7). -/
def shootOf (v : Word) (src : ShootSrc) : Shoot :=
  ⟨(v.extractLsb' 1 9).toNat, v.getLsbD 10, (v.extractLsb' 11 2).toNat, v.getLsbD 13, (v.extractLsb' 16 40).toNat * 65536, src, none, false⟩
def execCmdShootdn (f : Pkt) (s : State) : Host.Outcome State Fault Refusal :=
  cmdStep s f 0 (f.rb == 0 && f.imm == 0) fun q qq =>
    let v := qq.reg f.ra.toNat
    let x := shootOf v (.queue q qq.nstart)
    if v.getLsbD 0 ∨ v.getLsbD 14 ∨ x.ctx ≠ qq.qctx.toNat ∨ x.all ∨ ¬ spanAligned x.span x.va ∨ v.toNat ≥ 2 ^ 56 then .error CFault.bad
    else .ok (pktStart { s with shoots := s.shoots ++ [x] } q qq f (f.b == 1) (.shootdn 0))

def execCmdFlush (f : Pkt) (s : State) : Host.Outcome State Fault Refusal :=
  cmdStep s f 0 (f.rd == 0 && f.ra == 0 && f.rb == 0 && f.imm == 0) fun q qq =>
    (.ok (if writesBefore s q qq.nstart then pktStart s q qq f true .flush else pktEnd s q qq f 0 0))

end Sys2Proof.Machine
end

