-- ==== Sys2Proof/Machine/Treadle.lean ====
section
/-! DEFINITION. The Treadle executive and launches: interrupts, admission, reservation, pre-emption, stealing, loading, release
(R103, R108 to R118, R175, R177). -/
namespace Sys2Proof.Machine

/-! ### Interrupts (R97, R103) -/

/-- Send the interrupt of a descriptor if its condition holds, or if it must be sent at once: is it still tracked, and the state. It waits for a
way to the descriptor and for earlier writes to its line (R42, R234). DESIGN CHOICE (log 112): when the descriptor no longer translates nothing
is recorded or frozen; it stays tracked and is tried again at the next window. -/
def sendDesc (s : State) (x : Nat × Nat × Nat) (force : Bool) : Bool × State :=
  let (ctx, va, q) := x
  let t := tlbSpindle (q / 8)
  if wayHeld s t ctx va 40 .amo mQueue || !linesOpen s t ctx va 40 mQueue then (true, s)
  else match vaRead s t ctx va 40 mQueue with
  | .error _ => (true, s)
  | .ok (v, s) =>
    let w0 := fld v 0 8
    let en : Bool := w0 / 2 ^ 11 % 2 == 1
    let count := fld v 8 8
    let sent := fld v 16 8
    let n := (count + 2 ^ 64 - sent) % 2 ^ 64
    let due : Bool := force || decide (s.gtc ≥ fld v 32 8 + 256 * (w0 / 2 ^ 16 % 2 ^ 16)) || decide (n ≥ max 1 (w0 / 2 ^ 32 % 2 ^ 16))
    if n = 0 then (false, s)
    else if en && due then
      match vaWrite s t ctx (va + 16) 8 count mQueue with
      | (s, some _) => (true, s)
      | (s, none) => (false, sendMsix s (portOf (q / 8)) (w0 % 2 ^ 11))
    else (true, s)

/-- INTERRUPT_SEND: slot 1 goes through the descriptors of the die with unsent events. -/
def execInterruptSend (die : Nat) (s : State) : Host.Outcome State Fault Refusal :=
  let y := s.die die
  let go := fun (force : Bool) (l : List (Nat × Nat × Nat)) (s : State) =>
    l.foldl (fun (acc : List (Nat × Nat × Nat) × State) x =>
      let (keep, s) := sendDesc acc.2 x force
      (if keep then acc.1 ++ [x] else acc.1, s)) (([] : List (Nat × Nat × Nat)), s)
  let (tr, s) := go false y.tracked s
  let (ex, s) := go true y.extra s
  finish (s.setDie die { s.die die with tracked := tr, extra := ex })

/-! ### Pending launches (R108, R109) -/

/-- EFFECTIVE_CLASS_AGE: a frame spent pending or waiting for cores is over; the sixteenth lowers the effective class. -/
def execEffectiveClassAge (l : Nat) (s : State) : Host.Outcome State Fault Refusal :=
  match s.launch l with
  | none => .next s
  | some x =>
    match x.phase with
    | .pending => .next (s.setLaunch (age x))
    | .reserving => .next (s.setLaunch (age x))
    | _ => .next s
where
  age (x : Launch) : Launch := if x.frames + 1 ≥ 16 then { x with frames := 0, eff := x.eff - 1 } else { x with frames := x.frames + 1 }

def isPending (l : Launch) : Bool := match l.phase with | .pending => true | _ => false
def isReserving (l : Launch) : Bool := match l.phase with | .reserving => true | _ => false
def isRunning (l : Launch) : Bool := match l.phase with | .running => true | _ => false
def isLive (s : State) (i : Nat) : Bool := match (s.core i).mode with | .retired => false | _ => true
/-- Live named cores of a launch, of one local die. -/
def liveCores (s : State) (l : Launch) : List Nat := l.cores.filter (isLive s)
def liveOn (s : State) (l : Launch) (d : Nat) : List Nat := l.cores.filter fun i => decide (i / 64 = d) && isLive s i

/-- The launch at the head of queue n, if it is pending (R109). DESIGN CHOICE (log 119): the oldest pending launch of the queue, whatever its
earlier launches do. -/
def headPending (s : State) (n : Nat) : Option Launch := s.launches.find? fun l => l.queue == n && isPending l

/-- Deficit round robin over the queues of die d, from queue d × 8 + n on: the queue selected, and the deficits. In 25 rounds of 8 steps any
deficit passes 1536, the cores of a whole domain. -/
def drr (s : State) (d c : Nat) : Nat → Nat → FMap Nat → Option (Nat × FMap Nat)
  | 0, _, _ => none
  | k + 1, n, df =>
    match headPending s (8 * d + n) with
    | some l =>
      if l.eff = c then
        let cost := (liveCores s l).length + l.far.length
        let v := FMap.get 0 df n
        if v ≥ cost then some (n, FMap.set 0 df n (v - cost)) else drr s d c k ((n + 1) % 8) (FMap.set 0 df n (v + 64))
      else drr s d c k ((n + 1) % 8) df
    | none => drr s d c k ((n + 1) % 8) df

/-- Move at most one pending launch of the home die into reservation. -/
def selectPending (s : State) (d : Nat) : State :=
  let y := s.die d
  let df := y.deficit.filter fun p => (headPending s (8 * d + p.1)).isSome
  let y := { y with deficit := df }
  let cand := (List.range 8).filterMap fun n => headPending s (8 * d + n)
  match cand with
  | [] => s.setDie d y
  | x :: t =>
    let c := t.foldl (fun m l => min m l.eff) x.eff
    match drr s d c 256 ((y.lastQ + 1) % 8) df with
    | none => s.setDie d y
    | some (n, df) =>
      let s := s.setDie d { y with deficit := df, lastQ := n }
      match headPending s (8 * d + n) with
      | none => s
      | some l => trace (s.setLaunch { l with phase := .reserving, stamp := s.gtc }) l d 1 48 l.queue (BitVec.ofNat 64 s.gtc)

/-! ### Reservation (R110, R175) -/

/-- Order of two launches in reservation: effective class, stamp, home die, queue. -/
def keyLe (a b : Launch) : Bool :=
  decide (a.eff < b.eff) || (a.eff == b.eff && (decide (a.stamp < b.stamp) || (a.stamp == b.stamp && decide (a.queue ≤ b.queue))))
def insertKey (x : Launch) : List Launch → List Launch
  | [] => [x]
  | y :: t => if keyLe x y then x :: y :: t else y :: insertKey x t
/-- The launches in reservation, in key order. -/
def inReservation (s : State) : List Launch := (s.launches.filter isReserving).foldl (fun l x => insertKey x l) []

/-- The launch that holds a core. -/
def holder (s : State) (i : Nat) : Option Launch :=
  s.launches.find? fun l => l.phase != .ended && l.resv.contains (s.dieBase + i / 64) && l.cores.contains i
def coreFree (s : State) (i : Nat) : Bool := (match (s.core i).mode with | .free => true | _ => false) && (holder s i).isNone

/-- Die d goes through the launches that name its cores; `blocked` are cores an earlier launch waits for. -/
def reserveOn (d : Nat) : List Launch → List Nat → State → State
  | [], _, s => s
  | l :: t, blocked, s =>
    let j := s.dieBase + d
    if ¬ l.dies.contains j ∨ l.resv.contains j then reserveOn d t blocked s
    else
      let mine := liveOn s l d
      if mine.all fun i => coreFree s i && !blocked.contains i then
        reserveOn d t blocked (s.setLaunch { l with resv := l.resv ++ [j] })
      else reserveOn d t (blocked ++ mine) s

/-- Can the launch be given a save slot on every core it names? -/
def slotsFor (s : State) (l : Launch) : Bool :=
  (liveCores s l).all fun i => let u := FMap.get [] s.saveUse i; u.contains l.id || decide (u.length < 8)

/-- Admit a launch all of whose dies have reserved, once each of its cores can be given a save slot: loading begins (R175). -/
def admitOne (s : State) (l : Launch) : State :=
  if (l.dies.all fun j => l.resv.contains j) ∧ slotsFor s l then
    let live := liveCores s l
    let s := live.foldl (fun s i =>
      let u := FMap.get [] s.saveUse i
      let s := { s with saveUse := FMap.put s.saveUse i (if u.contains l.id then u else u ++ [l.id]) }
      s.setCore i { s.core i with mode := .loading }) s
    s.setLaunch { l with phase := .loading }
  else s

/-- Request pre-emption of every core of a launch. -/
def preemptLaunch (s : State) (l : Launch) : State :=
  (liveCores s l).foldl (fun s i => s.setCore i { s.core i with preempt := true }) (s.setLaunch { l with phase := .saving })

/-- May a launch be given cores: in IDLE mode, or while it is asked for, only one that is already active, so that it comes to an end (R17)? -/
def mayReserve (s : State) (l : Launch) : Bool := !idleHolds s || l.resv != [] || l.restore || l.relT != 0
/-- R111: the first launch in key order that lacks a die, here d, finds a core held by a running launch of a greater class. -/
def requestPreemption (s : State) (d : Nat) : State :=
  match (inReservation s).find? fun l => mayReserve s l && !l.dies.all fun j => l.resv.contains j with
  | none => s
  | some l =>
    let j := s.dieBase + d
    if ¬ l.dies.contains j ∨ l.resv.contains j ∨ ¬ slotsFor s l then s
    else (liveOn s l d).foldl (fun s i => match holder s i with
      | some r => if isRunning r ∧ ¬ r.flags.getLsbD 1 ∧ r.cls > l.eff then preemptLaunch s r else s
      | none => s) s

/-! ### Stealing (R118) -/

def shareLeft (l : Launch) (d : Nat) : Nat := match FMap.find l.shares d with | some (a, b) => b - a | none => 0
/-- A task-range message from Treadle to Treadle. -/
def rangeMsg (s : State) (l : Launch) (src dst : Nat) (data : List Word) (m : Msg) : State :=
  sendPacket s src 49 ⟨mkHdr 8 1 (s.dieBase + src) 49 (s.dieBase + dst) 49 false 0 0 l.ctx 0 0 0 s.gtc, data, [], m⟩

/-- The victim handles the requests it has, in ascending thief order. -/
def answerAsks (s : State) (id d : Nat) : State :=
  match s.launch id with
  | none => s
  | some l =>
    let thieves := (List.range 8).filter fun t => l.asks.contains (d, t)
    let s := s.setLaunch { l with asks := l.asks.filter fun x => x.1 != d }
    thieves.foldl (fun s t => match s.launch id with
      | none => s
      | some l => match FMap.find l.shares d with
        | some (a, b) =>
          if b - a < 2 * l.grain ∨ b ≤ a then rangeMsg s l d t [BitVec.ofNat 64 d] (.refuse id d)
          else
            let m := a + (b - a + 1) / 2
            let s := s.setLaunch { l with shares := FMap.put l.shares d (a, m), granted := l.granted ++ [(t, m, b)] }
            let s := trace s l d 7 49 (s.dieBase + t + 32 * min (b - m) (2 ^ 27 - 1)) (BitVec.ofNat 64 m)
            rangeMsg s l d t [BitVec.ofNat 64 m, BitVec.ofNat 64 b] (.grant id m b)
        | none => rangeMsg s l d t [BitVec.ofNat 64 d] (.refuse id d)) s

/-- The die tells the others the size of its share; an empty one with an idle core asks the die with the largest size it heard. -/
def sendSizes (s : State) (id d : Nat) : State :=
  match s.launch id with
  | none => s
  | some l =>
    let others := (List.range 8).filter fun t => t != d && l.dies.contains (s.dieBase + t)
    let s := others.foldl (fun s t => rangeMsg s l d t [BitVec.ofNat 64 (shareLeft l d)] (.size id d (shareLeft l d))) s
    let idle : Bool := (liveOn s l d).any fun i => match (s.core i).mode with | .idle => true | _ => false
    if shareLeft l d ≠ 0 ∨ ¬ idle ∨ l.asking.contains d then s
    else
      let size := fun t => FMap.get 0 l.sizes (d * 32 + t)
      let can := others.filter fun t => decide (size t ≠ 0) && !l.refused.contains (d, t + 32)
      match can.foldl (fun (b : Option Nat) t => match b with | some u => if size t > size u then some t else b | none => some t) none with
      | none => s
      | some t => rangeMsg (s.setLaunch { l with asking := l.asking ++ [d] }) l d t [BitVec.ofNat 64 d] (.ask id d)

/-- STEAL_GRANT_RECEIVE: a granted range becomes the thief's share. -/
def execStealGrantReceive (l die lo hi : Nat) (s : State) : Host.Outcome State Fault Refusal :=
  match s.launch l with
  | none => .next s
  | some x => .next (s.setLaunch { x with
      shares := FMap.put x.shares die (lo, hi)
      granted := x.granted.erase (die, lo, hi)
      asking := x.asking.filter fun k => k != die })

/-- ADMISSION_WINDOW of a die. -/
def execAdmissionWindow (die : Nat) (s : State) : Host.Outcome State Fault Refusal :=
  let steal := (s.launches.filter fun l => isRunning l && l.flags.getLsbD 0 && l.dies.contains (s.dieBase + die)).map fun l => l.id
  let s := steal.foldl (fun s l => answerAsks s l die) s
  -- IDLE holds launches that are not yet active (R17)
  let s := if idleHolds s then s else selectPending s die
  let may := fun (s : State) => (inReservation s).filter (mayReserve s)
  let s := reserveOn die (may s) [] s
  let s := requestPreemption ((may s).foldl admitOne s) die
  .next (steal.foldl (fun s l => sendSizes s l die) s)

/-! ### Loading (R112, R113) -/

/-- A core after loading: everything zero but the scratchpad format registers and what is still on its way out of the core: Shuttle
commands, channel words, committed stores. -/
def loadedCore (c : Core) (l : Launch) (dict : FMap (BitVec 384)) (code : FMap (BitVec 16)) : Core :=
  let a := { Arch.init with spfmt := c.arch.spfmt }
  { Core.init with
    mode := .ready, arch := a, keep := a, dict := dict, code := code, dictn := l.dictn, coden := l.coden, launch := l.id, ctx := l.ctx, nply := l.nply
    accs := c.accs.filter fun x => (match x.kind with | .wr => true | _ => false), nextAcc := c.nextAcc, l1 := c.l1, l1Epoch := c.l1Epoch, aflags := c.aflags
    shq := c.shq, shFault := c.shFault, tx := c.tx, txAt := c.txAt, unpins := c.unpins, maccs := c.maccs }

/-- Load one core: its dictionary and its code indices, with EXEC permission. -/
def loadCore (s : State) (l : Launch) (i : Nat) : Except MFault (Bool × State) := do
  let (dv, s) ← vaGet .exec s i l.ctx l.dictva (48 * l.dictn) mUser
  let (cv, s) ← vaGet .exec s i l.ctx l.codeva (2 * l.coden) mUser
  let dict := (List.range l.dictn).map fun n => (n, BitVec.ofNat 384 (fld dv (48 * n) 48))
  let code := (List.range l.coden).map fun n => (n, BitVec.ofNat 16 (fld cv (2 * n) 2))
  pure (dict.any fun b => (bundleFault b.2).isSome, s.setCore i (loadedCore (s.core i) l dict code))

/-- Free the cores a launch has reserved. -/
def freeCores (s : State) (l : Launch) : State :=
  l.cores.foldl (fun s i => let c := s.core i
    match c.mode with
    | .loading => s.setCore i { c with mode := .free }
    | .ready => if c.launch = l.id then s.setCore i { c with mode := .free, launch := 0 } else s
    | _ => s) s

/-- LAUNCH_LOAD_COMPLETE: every core has loaded; the home die chooses the release cycle. A fault freezes the queue at the launch packet;
a bundle with an unassigned opcode ends the launch. -/
def execLaunchLoadComplete (l : Nat) (s : State) : Host.Outcome State Fault Refusal :=
  match s.launch l with
  | none => .next s
  | some x =>
    match x.phase with
    | .loading =>
      let live := liveCores s x
      -- a refreshing weight-store bank holds what it holds of the code (R191)
      -- nor does it load without a way to its tables and to the code (R42)
      if live.any fun i => [(x.dictva, 48 * x.dictn), (x.codeva, 2 * x.coden)].any fun p =>
          decide (p.2 ≠ 0) && (wsHolds s i x.ctx p.1 p.2 mUser || wayHeld s i x.ctx p.1 p.2 .exec mUser) then .next s
      else
      let r := live.foldlM (fun (acc : Bool × State) i => do
        let (b, s) ← loadCore acc.2 x i
        pure (acc.1 || b, s)) (false, s)
      (match r with
      | .error e =>
        let s := freeCores s x
        let s := s.setLaunch { x with phase := .failed, resv := [] }
        finish (mfQueue s x.queue false e (pktWhere s x.queue x.num))
      | .ok (true, s) => finish (launchEnd (freeCores (s.setLaunch { x with badDict := true }) x) l)
      | .ok (false, s) =>
        let t := (max x.relgtc (s.gtc + 512) + 255) / 256 * 256
        let x := { x with phase := .waiting, relT := t, relFirst := if x.relFirst = 0 then t else x.relFirst }
        finish (trace (s.setLaunch x) x (x.queue / 8) 2 48 live.length (BitVec.ofNat 64 t)))
    | _ => .next s

/-! ### Release (R113, R177, R185) -/

/-- The bytes of the save slot that a launch has of a core. -/
def poolSlot (s : State) (l i : Nat) : Memory := ((s.pool.find? fun (x : Nat × Nat × Memory) => x.1 == l && x.2.1 == i).map fun x => x.2.2).getD []
/-- A restored core keeps, beside what its slot holds, what launches after its own have left with it: committed commands and frozen channels,
words to send, committed stores (R177, R380). -/
def keepLeft (c img : Core) : Core :=
  let left := c.accs.filter fun x => match x.kind with | .wr => true | _ => false
  { img with
    shq := c.shq ++ img.shq
    shFault := img.shFault.foldl (fun m p => if (FMap.find m p.1).isSome then m else FMap.put m p.1 p.2) c.shFault
    tx := img.tx.foldl (fun m p => FMap.put m p.1 (FMap.get [] m p.1 ++ p.2)) c.tx
    txAt := img.txAt.foldl (fun m p => if (FMap.find m p.1).isSome then m else FMap.put m p.1 p.2) c.txAt
    accs := left.map (fun x => { x with id := x.id + img.nextAcc }) ++ img.accs, nextAcc := img.nextAcc + c.nextAcc }
/-- Release one core: idle with an empty L1, or with what its save slot holds; a slot that fails its checks freezes it (R177). DESIGN CHOICE
(log 119): the record of that has position 0, since no bundle of the core faulted. -/
def releaseCore (s : State) (l : Launch) (i : Nat) : State :=
  let c := s.core i
  match if l.restore then s.saves.find? fun (x : Nat × Nat × Core) => x.1 == l.id && x.2.1 == i else none with
  | some (_, _, img) =>
    let img := { img with dict := c.dict, code := c.code, dictn := c.dictn, coden := c.coden, l1 := [], l1Epoch := c.l1Epoch + 1, preempt := false, maccs := c.maccs
                          thrott := false, unpins := c.unpins }
    let m := poolSlot s l.id i
    let img := if slotOk m (coreMid s i) then slotBack m img else { img with mode := .rolled (Trap.illegal 2 15) 0 }
    let img := keepLeft c { img with late := img.late || c.late }
    let s := { s.setCore i img with saves := s.saves.filter fun (x : Nat × Nat × Core) => !(x.1 == l.id && x.2.1 == i) }
    trace s l (i / 64) 9 (i % 64) (saveFlags img) (BitVec.ofNat 64 l.relT)
  | none => s.setCore i (l1DropIf (fun _ => true) { c with mode := .idle })

/-- CORE_RELEASE of a die: at T, or, when T has passed, at the next multiple of 256 with LATE set on every core of the launch. -/
def execCoreRelease (l die : Nat) (s : State) : Host.Outcome State Fault Refusal :=
  match s.launch l with
  | none => .next s
  | some x =>
    let j := s.dieBase + die
    let ready : Bool := match x.phase with | .waiting => true | .running => true | _ => false
    if ¬ ready ∨ ¬ x.dies.contains j ∨ x.released.contains j ∨ s.gtc < x.relT then .next s
    else
      let late : Bool := decide (x.relT + 1 < s.gtc)
      if late && decide (s.gtc % 256 > 1) then .next s
      else
        let s := if late then (liveCores s x).foldl (fun s i => s.setCore i { s.core i with late := true }) s else s
        let s := (liveOn s x die).foldl (fun s i => releaseCore s x i) s
        let s := s.setLaunch { x with phase := .running, released := x.released ++ [j] }
        let s := pushEvs s ((liveOn s x die).map fun i => .taskTake i)
        finish (checkEnd s l)

end Sys2Proof.Machine
end

