-- ==== Sys2Proof/Machine/Host.lean ====
section
/-! DEFINITION. The host: windows, AtomicOps, CXL.mem, shoot-downs, ATS, the release of frozen masters, the registers of BAR0
(R5, R18, R22, R29, R30, R43, R44, R52 to R58, R63 to R66, R68, R70, R174, R238, R244, R406). -/
namespace Sys2Proof.Machine

def answer (s : State) (a : HostAns) : State := { s with answers := s.answers ++ [a] }

/-! ### BAR2 (R52, R58, R68) -/

/-- Domain die of a host port. -/
def portDie (s : State) (port : Nat) : Nat := s.dieBase + 4 * (port % 2)
/-- Context of a BAR2 request: the one its PASID is mapped to, or WINCTX.CTX. -/
def hostCtx (s : State) (h : HostReq) : Option Nat :=
  match h.pasid with | some p => ctxOfPasid s p | none => some (s.mod.winctx.extractLsb' 0 9).toNat
/-- VA of a BAR2 offset: BASE ‖ o[38:0]. -/
def winVa (s : State) (off : Nat) : Nat := (s.mod.winctx.extractLsb' 39 17).toNat * 2 ^ 39 + off % 2 ^ 39
/-- A host requester as a master. -/
def mHost (s : State) (h : HostReq) : MasterT := mQueue.by 5 h.rid (portDie s h.port) 0
/-- Open window, valid context, requester not frozen. -/
def hostOpen (s : State) (h : HostReq) : Option Nat :=
  match hostCtx s h with
  | some c => if s.mod.winctx.getLsbD 9 && ctxOk s c && !s.hostFrozen.contains (h.port, h.rid, c) then some c else none
  | none => none
/-- Completer Abort. -/
def hostAbort (s : State) (h : HostReq) : State := answer s (.abort h.port h.n)
/-- A faulting request: its record, the requester frozen, Completer Abort. -/
def hostFault (s : State) (h : HostReq) (c : Nat) (wr : Bool) (e : MFault) : State :=
  let s := writeFault s c h.port (faultRec s.gtc e.code 5 h.rid wr true c (portDie s h.port) e.va e.e e.lvl 0)
  hostAbort { s with hostFrozen := s.hostFrozen ++ [(h.port, h.rid, c)] } h

/-- Has a port the write of an AtomicOp still to make to a location, under whatever VA? Other accesses of the port to it wait (R244). -/
def pairOpen (s : State) (h : HostReq) (c n : Nat) : Bool :=
  let open_ := s.xacts.filter fun x => x.mkind == 5 && x.die == portDie s h.port && x.sc == 5 && x.st != .answered
  open_ != [] && (pieces8 (winVa s h.off) n (n / 8 + 2)).any fun p => match translate s (1000 + h.port) c p.1 .read (mHost s h) with
    | .ok ph _ _ => open_.any fun x => sameLoc ph x.ph
    | _ => false
/-- Has a requester an access through the port still to be performed? Its later ones come after it (R238). -/
def hostOwn (s : State) (h : HostReq) : Bool :=
  s.xacts.any fun x => x.mkind == 5 && x.mid == h.rid && x.die == portDie s h.port && x.st != .answered
/-- Must a host request wait: for an earlier access of its requester, or an AtomicOp of the port to its location (R238, R244), for a way to it,
for a refreshing weight-store bank, or for earlier writes to its lines (R42, R191, R234)? -/
def hostHeld (s : State) (h : HostReq) (acc : AccT) : Bool :=
  match hostOpen s h with
  | none => false
  | some c =>
    let t := 1000 + h.port
    let va := winVa s h.off
    decide (h.n ≤ 4096) && (hostOwn s h || pairOpen s h c h.n || match acc with
      | .read => vaHeld s t c va h.n (mHost s h)
      | _ => wayHeld s t c va h.n acc (mHost s h) || !linesOpen s t c va h.n (mHost s h))
/-- The host request that an input is. -/
def hostReqOf : Instr → Option (HostReq × AccT)
  | .hostWindowRead h => some (h, .read) | .hostWindowWrite h => some (h, .write) | .hostAtomicop h _ _ => some (h, .amo)
  | _ => none
/-- A request that its port holds comes again in the next cycle, before those that came after it (R238). -/
def hostWait (s : State) (i : Instr) : State := { s with inputs := (s.gtc + 1, i) :: s.inputs }

/-- HOST_WINDOW_READ. -/
def execHostWindowRead (h : HostReq) (s : State) : Host.Outcome State Fault Refusal :=
  if h.n > 4096 then .next (answer s (.unsupported h.port))
  else match hostOpen s h with
    | none => .next (hostAbort s h)
    | some c =>
      if hostHeld s h .read then .next (hostWait s (.hostWindowRead h))
      else match vaRead s (1000 + h.port) c (winVa s h.off) h.n (mHost s h) with
      | .ok (v, s) => finish (answer s (.data h.port v))
      | .error e => finish (hostFault s h c false e)

/-- HOST_WINDOW_WRITE. -/
def execHostWindowWrite (h : HostReq) (s : State) : Host.Outcome State Fault Refusal :=
  if ¬ s.mod.ready ∨ h.n > 512 then .next (answer s (.unsupported h.port))
  else match hostOpen s h with
    | none => .next (hostAbort s h)
    | some c =>
      if hostHeld s h .write then .next (hostWait s (.hostWindowWrite h))
      else match vaWrite s (1000 + h.port) c (winVa s h.off) h.n h.val (mHost s h) with
      | (s, none) => finish (answer s (.done h.port))
      | (s, some e) => finish (hostFault s h c true e)

/-- Does a location hold FREECNT of a context, whose AtomicOps are serialised at its home (R174)? -/
def isFreecnt (s : State) (ph : Phys) : Bool :=
  let a := ptrAddr s.mod.ctxbase
  ph.loc == 0 && ph.die == ptrDie s.mod.ctxbase && decide (a ≤ ph.pa) && decide (ph.pa < a + 64 * 512) && (ph.pa - a) % 64 / 8 == 3
/-- HOST_ATOMICOP: op 0 FetchAdd, 1 Swap, 2 CAS with comparand `cmp`. With SYSATOM = 1, and to FREECNT (R174), the home performs it, on another
die as a request that it answers. With SYSATOM = 0 the port reads, answers, and writes after an interval that R244 leaves open, a free value
(log 52). -/
def execHostAtomicop (h : HostReq) (op cmp : Nat) (s : State) : Host.Outcome State Fault Refusal :=
  if ¬ s.mod.ready ∨ ¬ (h.n = 4 ∨ h.n = 8) ∨ op > 2 ∨ h.off % h.n ≠ 0 then .next (answer s (.unsupported h.port))
  else match hostOpen s h with
    | none => .next (hostAbort s h)
    | some c =>
      let va := winVa s h.off
      let t := 1000 + h.port
      if hostHeld s h .amo then .next (hostWait s (.hostAtomicop h op cmp))
      else match translate s t c va .amo (mHost s h) with
      | .fault k l e => finish (hostFault s h c true ⟨k, l, e, va⟩)
      | .ok ph l e =>
        let s := checkAbsent (tlbFill s t c va l e) ph.loc ph.die (ph.pa % 2 ^ 52) h.n
        let old := homeRead s c va h.n ph
        let aop := match op with | 0 => 1 | 1 => 10 | _ => 9
        let a := BitVec.ofNat 64 (if op = 2 then cmp else h.val)
        let r := amoNew aop (8 * h.n) old a (BitVec.ofNat 64 h.val) 0 0 0 false
        let here : Bool := ph.die == portDie s h.port || ph.loc == 3
        if ph.sysatom ∨ isFreecnt s ph then
          if here then finish (answer (sinterBy (homeWrite s c va h.n r.1 ph) (mHost s h) c va ph 4) (.data h.port old))
          else finish (postXact s (mHost s h) c va h.n (.amo aop (8 * h.n) a (BitVec.ofNat 64 h.val) 0 0 0 false) ph false (.host h.port))
        else
          -- the write keeps the cycle of its translation as its place (R65)
          let s := addXact { sinterBy (homeUse s c va ph) (mHost s h) c va ph 8 with free := s.free + 1 }
            { id := 0, mkind := 5, mid := h.rid, die := portDie s h.port, path := 5, ctx := c, va := va, n := h.n, ph := ph, kind := .wr r.1
              rel := none, acq := none, sc := 5, seq := s.gtc, num := 0, dv := [], st := .fresh
              t0 := s.gtc + if here then (Config.freeValue s.free).toNat else 0, val := 0, nack := false, ret := .none, wh := 0 }
          finish (answer s (.data h.port old))

/-! ### CXL.mem (R63) -/

/-- Size in GiB of the HDM range of a port's die. -/
def hdmSize (s : State) (port : Nat) : Nat := if port = 0 then s.mod.hdm0 else s.mod.hdm4
/-- HOST_HDM_ACCESS: n bytes of one 64-byte line at an offset of the range, untranslated and unencrypted. -/
def execHostHdmAccess (port hpa : Nat) (wr : Bool) (n v : Nat) (s : State) : Host.Outcome State Fault Refusal :=
  if (wr ∧ ¬ s.mod.ready) ∨ port > 1 ∨ hpa % 64 + n > 64 ∨ hpa + n > hdmSize s port * 2 ^ 30 then .next (answer s (.unsupported port))
  else
    let d := portDie s port
    let pa := 512000000000 - hdmSize s port * 2 ^ 30 + hpa
    if wr then
      let s := physWrite s 1 d pa n v ⟨0, 0, 0⟩
      .next (answer (touchL2 s (4 * port) d 1 pa true false none) (.done port))
    else
      let line := maddr 1 d pa / 128
      let s := if plainL2 s line then s else reseal s line ⟨0, 0, 0⟩
      .next (answer (touchL2 s (4 * port) d 1 pa false false none) (.data port (physRead s 1 d pa n ⟨0, 0, 0⟩)))

/-- Does a table of a level map, at or below it, a second-tier frame of die j that reaches past physical address `from_`? -/
def mapsPast (s : State) (j from_ : Nat) : Nat → Nat → Nat → Bool
  | lvl, die, addr =>
    (List.range (match lvl with | 0 => 32 | 4 => 256 | _ => 512)).any fun i =>
      let e := hbm8 s die (addr + 8 * i)
      if ¬ pteV e then false
      else match lvl with
        | 0 => leafPast e 0
        | n + 1 =>
          if n + 1 ≤ 2 ∧ pteLeaf e then leafPast e (n + 1)
          else if pteLeaf e ∨ pteLoc e ≠ 0 ∨ e.extractLsb' 2 18 ≠ 0 then false
          else mapsPast s j from_ n (pteDie e) (pteFrame e)
where
  leafPast (e : Word) (lvl : Nat) : Bool := pteLoc e == 1 && pteDie e == j && decide (pteFrame e + 2 ^ lvlShift lvl > from_)

/-- HDMCFG_WRITE. -/
def execHdmcfgWrite (port : Nat) (v : Word) (s : State) : Host.Outcome State Fault Refusal :=
  let n := (v.extractLsb' 30 10).toNat
  let mapped := (List.range 512).any fun c => ctxV s c &&
    mapsPast s (portDie s port) (512000000000 - n * 2 ^ 30) 4 (ptrDie (ctxWord s c 1)) (ptrAddr (ctxWord s c 1))
  if ¬ s.mod.ready ∨ n > 476 ∨ (n > 0 ∧ mapped) then .next s
  else .next { s with mod := if port = 0 then { s.mod with hdm0 := n } else { s.mod with hdm4 := n } }

/-! ### Shoot-downs and ATS (R65, R66, R99, R173) -/

/-- First VA and size of a span. -/
def spanSize (span : Nat) : Nat := match span with | 0 => 2 ^ 16 | 1 => 2 ^ 21 | 2 => 2 ^ 30 | _ => 2 ^ 56
def inSpan (x : Shoot) (ctx va : Nat) : Bool :=
  (x.all || x.ctx == ctx) && va / spanSize x.span == x.va / spanSize x.span
/-- A leaf entry of a TLB lies in the span, in part. -/
def leafInSpan (x : Shoot) (e : TlbEntry) : Bool :=
  let z := 2 ^ lvlShift e.lvl
  let m := max z (spanSize x.span)
  (x.all || x.ctx == e.ctx) && (e.vpn * z) / m == x.va / spanSize x.span * spanSize x.span / m

/-- SHOOTDOWN_START: a write of SHOOTDN with GO; ignored as a whole while a shoot-down is in progress. -/
def execShootdownStart (v : Word) (s : State) : Host.Outcome State Fault Refusal :=
  if ¬ s.mod.ready ∨ s.shoots ≠ [] then .next s
  else .next { s with mod := { s.mod with shootdn := v &&& 0x00FFFFFFFFFF3FFE#64 }, shoots := [shootOf v .reg] }

/-- Cycle in which an access was translated: the write of a host AtomicOp is made later (R244). -/
def xactAt (y : Xact) : Nat := if y.mkind = 5 ∧ y.sc = 5 then y.seq else y.t0
/-- Every TLB drops the span; ROC lines go; open stores translated with it walk again; a unit that a frozen queue's copy has checked is checked
again. -/
def shootDrop (s : State) (x : Shoot) : State :=
  { s with
    tlbs := s.tlbs.map fun (p : Nat × List TlbEntry) => (p.1, p.2.filter fun e => !leafInSpan x e)
    qcopies := s.qcopies.map fun (y : QCopy) => if (s.queue y.q).frozen then { y with unit := none } else y
    cores := s.cores.map fun (p : Nat × Core) =>
      let c := p.2
      let c := if x.all ∨ x.ctx = c.ctx then l1DropIf (fun y => y.keep) c else c
      (p.1, { c with accs := c.accs.map fun a => match a.kind with
        | .walk => if inSpan x c.ctx a.va then { a with phys := none } else a | _ => a }) }

/-- Have the accesses translated with a dropped entry, and the writes made to tables before, completed? -/
def shootDone (s : State) (x : Shoot) (g : Nat) : Bool :=
  let pageIn := fun (c : Core) (a : Acc) => inSpan x c.ctx a.va || a.pages.any fun p => inSpan x c.ctx (p.1 * 65536)
  (s.xacts.all fun y => y.st == .answered || decide (xactAt y > g) || (!inSpan x y.ctx y.va && !(isWrite y.kind && y.ph.loc == 0))) &&
  (s.qcopies.all fun y => match y.unit with | some (u, _) => !inSpan x (s.queue y.q).qctx.toNat (128 * u) | none => true) &&
  s.cores.all fun p => p.2.accs.all fun a => match a.kind, a.phys with
    | .wr, some ph => decide (a.t0 > g) || (!pageIn p.2 a && ph.loc != 0)
    | .wr, none => decide (a.t0 > g) || !(a.pages.any fun q => inSpan x p.2.ctx (q.1 * 65536))
    | _, _ => true

/-- A shoot-down of the whole domain has completed: pages of its span whose entries no longer say ROC become writable (R65). -/
def rocRelease (s : State) (x : Shoot) : State :=
  let stillRoc := fun (e : TlbEntry) => let w := walk s e.ctx (e.vpn * 2 ^ lvlShift e.lvl); w.code == 0 && pteRoc w.e
  if ¬ x.dom then s else { s with rocPages := s.rocPages.filter fun (e : TlbEntry) => !leafInSpan x e || stillRoc e }

/-- SHOOTDOWN_COMPLETE: the entries of the request in progress are dropped; when its conditions hold, entries filled since are dropped
too, and it completes. -/
def execShootdownComplete (s : State) : Host.Outcome State Fault Refusal :=
  match s.shoots with
  | [] => .next s
  | x :: t =>
    match x.since with
    | none => .next { shootDrop s x with shoots := { x with since := some s.gtc } :: t }
    | some g =>
      if ¬ shootDone s x g then .next s
      -- what filled a TLB before the tables' writes were performed is dropped too, and its accesses complete (R65)
      else if ¬ x.again then .next { shootDrop s x with shoots := { x with since := some s.gtc, again := true } :: t }
      else
        let s := rocRelease { shootDrop s x with shoots := t } x
        match x.src with
        | .reg => .next s
        | .queue q num => .next (completePkt s q num (some (BitVec.ofNat 64 s.gtc)))
        | .core c r => .next (handlerDone s c r)

/-- Is a physical location host memory of the PASID and range of an invalidation? -/
def AtsInv.covers (x : AtsInv) (ph : Phys) : Bool :=
  ph.loc == 3 && ph.pa / 2 ^ 52 == x.pasid && decide (x.lo ≤ ph.pa % 2 ^ 52) && decide (ph.pa % 2 ^ 52 < x.hi)
/-- ATS_INVALIDATE: the module drops its host translations of the range; stores of open segments in it walk again. -/
def execAtsInvalidate (port pasid lo hi : Nat) (s : State) : Host.Outcome State Fault Refusal :=
  let x : AtsInv := ⟨port, pasid, lo, hi, s.gtc⟩
  .next { s with
    ats := s.ats.filter fun (x : Nat × Nat) => !(x.1 == pasid && decide (lo < (x.2 + 1) * 4096) && decide (x.2 * 4096 < hi))
    cores := s.cores.map fun (p : Nat × Core) => (p.1, { p.2 with accs := p.2.accs.map fun a => match a.kind, a.phys with
                   | .walk, some ph => if x.covers ph then { a with phys := none } else a | _, _ => a })
    atsInv := s.atsInv ++ [x] }
/-- Have the accesses to host memory that used a dropped host translation completed (R65, R66)? -/
def atsDone (s : State) (x : AtsInv) : Bool :=
  (s.xacts.all fun y => y.st == .answered || decide (xactAt y > x.since) || !x.covers y.ph) &&
  s.cores.all fun p => p.2.accs.all fun a => match a.phys with
    | some ph => decide (a.t0 > x.since) || !x.covers ph
    | none => true
/-- ATS_INVALIDATE_COMPLETE. -/
def execAtsInvalidateComplete (k : Nat) (s : State) : Host.Outcome State Fault Refusal :=
  match s.atsInv[k]? with
  | none => .next s
  | some x => if ¬ atsDone s x then .next s else .next (answer { s with atsInv := s.atsInv.eraseIdx k } (.done x.port))

/-! ### FRZCTL (R70) -/

def frzKind (v : Word) : Nat := (v.extractLsb' 0 3).toNat
def frzMid (v : Word) : Nat := (v.extractLsb' 3 16).toNat
def frzCtx (v : Word) : Nat := (v.extractLsb' 20 9).toNat
/-- The oldest unacknowledged record of the context is acknowledged. -/
def ackFault (s : State) (ctx : Nat) : State := { s with unackFaults := FMap.set 0 s.unackFaults ctx (FMap.get 0 s.unackFaults ctx - 1) }
/-- Local core of a core identifier. -/
def frzCore (s : State) (mid : Nat) : Option Nat := (localDie s (mid / 64)).map fun d => d * 64 + mid % 64

/-- A launch that failed in loading starts again from its record (R112). DESIGN CHOICE (log 119): of a launch that was pre-empted before, PREEMPT
and RELEASE of its status stay, NABN, NRET and FIRST begin at zero. -/
def relaunch (s : State) (l : Launch) : State :=
  let wh := pktWhere s l.queue l.num
  match readLaunch s l.queue l.recva wh with
  | .error e => queueFault s l.queue e.code e.wr e.va e.e e.lvl wh
  | .ok (x, s) =>
    let s := { s with groups := s.groups.filter (fun (g : SGroup) => g.launch != l.id), saves := s.saves.filter (fun (y : Nat × Nat × Core) => y.1 != l.id)
                      pool := s.pool.filter fun (y : Nat × Nat × Memory) => y.1 != l.id }
    s.setLaunch (pendLaunch s { x with id := l.id, num := l.num, sig := l.sig, notify := l.notify, preempts := l.preempts, relFirst := l.relFirst })

/-- A resumed queue: what was left of an abort, of a delivery, of a launch or of a copy goes on (R86, R94, R112, R126). -/
def queueResume (s : State) (q : Nat) : State :=
  let qq := s.queue q
  let s := dropUnits (s.setQueue q { qq with frozen := false, owed := [] }) q
  let again := s.qcopies.filter fun y => y.q == q && y.failed
  let stale := fun (x : Xact) => match x.ret with | .source k n _ => k == q && again.any fun y => y.num == n | _ => false
  let s := { s with xacts := s.xacts.map fun (x : Xact) => if stale x then { x with ret := .none } else x
                    qcopies := s.qcopies.map fun (y : QCopy) => if y.q = q ∧ y.failed then { y with failed := false, pos := 0, got := [], unit := none } else y }
  let s := qq.owed.foldl (fun s id => match s.launch id with | some l => launchDeliver s l | none => s) s
  let s := (s.launches.filter fun l => l.queue == q && (match l.phase with | .failed => true | _ => false)).foldl relaunch s
  match qq.abort with
  | some (v, ring) => abortRest s q v ring
  | none => s

/-- A killed queue: its unconsumed units are discarded and EN cleared; started packets complete, but for one that faulted (log 53). -/
def queueKill (s : State) (q : Nat) : State :=
  let qq := s.queue q
  -- a check or an event whose access faulted ends with its packet (R86)
  let failed := fun (p : QPkt) => whereOf p.ring p.idx p.depth == qq.where_ && match p.w with | .ask _ _ _ => true | .note _ _ => true | _ => false
  let s := dropUnits (s.setQueue q { qq.drain with frozen := false, en := false, stack := [], inHandler := false, abort := none, owed := []
                                                   out := qq.out.filter fun p => !failed p }) q
  let s := qq.owed.foldl (fun s id => match s.launch id with
    | some l => let r := launchSignals s l; launchClose r.2.1 l
    | none => s) s
  let dead := s.launches.filter fun l => l.queue == q && (match l.phase with | .failed => true | _ => false)
  let s := dead.foldl (fun s l => { dropPkt s q l.num with launches := s.launches.filter fun (x : Launch) => x.id != l.id }) s
  let bad := s.qcopies.filter fun y => y.q == q && y.failed
  bad.foldl (fun s y => { dropPkt s q y.num with qcopies := s.qcopies.filter fun (z : QCopy) => !(z.q == q && z.num == y.num) }) s

/-- Release the named master, if it is frozen. -/
def frzRelease (s : State) (v : Word) (kill : Bool) : State :=
  let mid := frzMid v
  match frzKind v with
  | 0 => (match frzCore s mid with
    | none => s
    | some i =>
      let c := s.core i
      match c.mode with
      | .frozen t pos r =>
        if kill then endTask s i true (some r)
        else s.setCore i (replayCore (skipTrap (if t.code = 54 then some pos else none) c))
      | _ => s)
  | 1 => (match frzCore s (mid / 8) with
    | none => s
    | some i => if (FMap.find (s.core i).shFault (mid % 8)).isNone then s else if kill then chanKill s i (mid % 8) else chanResume s i (mid % 8))
  | 4 => if mid < 64 ∧ (s.queue mid).frozen then (if kill then queueKill s mid else queueResume s mid) else s
  | 5 => { s with hostFrozen := s.hostFrozen.filter fun (x : Nat × Nat × Nat) => !(x.2.1 == mid && x.2.2 == frzCtx v) }
  | k => if ¬ engineOf k mid then s else if kill then engineKill s mid else engineResume s mid
where
  /-- Is an endpoint one of the engines of a master kind: Vent, Carder, planner (Table 2.2)? -/
  engineOf (k ep : Nat) : Bool :=
    match k with | 2 => decide (54 ≤ ep ∧ ep ≤ 61) | 3 => decide (50 ≤ ep ∧ ep ≤ 53) | 6 => ep == 62 | _ => false

/-- FRZCTL_RESUME, FRZCTL_KILL: a record is acknowledged, whether or not the master is frozen. -/
def execFrzctlResume (v : Word) (s : State) : Host.Outcome State Fault Refusal :=
  if ¬ s.mod.ready then .next s else finish (frzRelease (ackFault s (frzCtx v)) v false)
def execFrzctlKill (v : Word) (s : State) : Host.Outcome State Fault Refusal :=
  if ¬ s.mod.ready then .next s else finish (frzRelease (ackFault s (frzCtx v)) v true)

/-! ### Queue registers (R54, R55, R80) -/

/-- QUEUE_ENABLE: a write of EN = 1. A valid configuration enables the queue, HEAD 0, its state zero; else BADCFG. -/
def execQueueEnable (q : Nat) (s : State) : Host.Outcome State Fault Refusal :=
  let qq := s.queue q
  if ¬ s.mod.ready ∨ qq.en ∨ q ≥ 64 then .next s
  else
    let n := qq.size.toNat
    if n < 12 ∨ n > 24 ∨ qq.qbase.toNat % 2 ^ n ≠ 0 ∨ ¬ ctxOk s qq.qctx.toNat ∨ qq.tail.toNat ≥ 2 ^ (n - 3) then
      .next (s.setQueue q { qq with badcfg := true })
    else
      let s := { s with ivals := FMap.erase s.ivals (ivalKey 4 q) }
      let s := dropUnits s q
      let qq := s.queue q
      .next (s.setQueue q { qq with en := true, head := 0, c := [], stack := [], abtsig := 0, hva := 0, hlen := 0, inHandler := false, abort := none
                                    out := qq.out.map fun p => { p with rd := 0 } })
/-- QUEUE_DISABLE: a write of EN = 0. -/
def execQueueDisable (q : Nat) (s : State) : Host.Outcome State Fault Refusal :=
  if ¬ s.mod.ready then .next s else .next (s.setQueue q { s.queue q with en := false })
/-- QUEUE_DOORBELL: a TAIL write, checked against SIZE while that is legal. -/
def execQueueDoorbell (q : Nat) (v : Word) (s : State) : Host.Outcome State Fault Refusal :=
  let qq := s.queue q
  let n := qq.size.toNat
  let t := v.extractLsb' 0 22
  if ¬ s.mod.ready then .next s
  else if 12 ≤ n ∧ n ≤ 24 ∧ t.toNat ≥ 2 ^ (n - 3) then .next (s.setQueue q { qq with badtail := true })
  else .next (s.setQueue q { qq with tail := t })

/-- The fields of KEYCMD that a write stores at any time (R5, R71). -/
def keyFields (m : Module) (v : Word) : Module := { m with keySlot := v.extractLsb' 4 10, keyOwner := v.extractLsb' 14 9 }

/-! ### BAR0 (R5, R53) -/

def bitW (b : Bool) (i : Nat) : Nat := if b then 2 ^ i else 0
def linkStNat (l : LinkState) : Nat :=
  match l with | .down => 0 | .detect => 1 | .equalise => 2 | .align => 3 | .active => 4 | .lowpower => 5
/-- LINKSTAT (Table 2.6). -/
def regLinkstat (s : State) (d k : Nat) : Nat :=
  if ¬ linkExists d k then 2 ^ 48
  else
    let l := (s.die d).link k
    linkStNat l.st + l.lat % 256 * 2 ^ 8 + l.corr % 65536 * 2 ^ 16 + l.replay % 65536 * 2 ^ 32
/-- FABERR (Table 2.7). -/
def regFaberr (y : Die) : Nat :=
  y.gdrop + y.badpkt * 2 ^ 16 + y.badflit % 256 * 2 ^ 32 + bitW y.slotmiss 40 + bitW y.tskew 41 + bitW y.chold 42
/-- A register of a queue's set (Table 3.2). -/
def regQueue (q : Queue) (o : Nat) : Nat :=
  match o with
  | 0x00 => q.qbase.toNat
  | 0x08 => bitW q.en 0 + q.qctx.toNat * 2 + q.prio.toNat * 2 ^ 10 + q.size.toNat * 2 ^ 12
  | 0x10 => q.tail.toNat
  | 0x18 => q.head.toNat
  | 0x20 => bitW q.frozen 0 + bitW q.badtail 1 + bitW q.badcfg 2
  | _ => 0
/-- The eight bytes a host reads at an aligned offset of BAR0 of a port (Table 3.1). -/
def barRead (s : State) (port a : Nat) : Nat :=
  let m := s.mod
  if a = 0x0000 then bitW m.ready 0 + bitW m.fail 1 + m.stage % 16 * 2 ^ 4 + m.failDie % 8 * 2 ^ 8 + m.failStage % 16 * 2 ^ 11 +
    m.retired.length % 512 * 2 ^ 16
  else if a = 0x0010 then s.gtc % 2 ^ 64
  else if a = 0x0040 then m.mode.toNat + bitW m.pend 3 + bitW m.badw 4 + m.active.toNat * 2 ^ 5 + m.capw.toNat * 2 ^ 16
  else if a = 0x0048 then m.tmax.toNat + bitW m.warn 8 + bitW m.limit 9 + bitW m.limseen 10 + bitW m.tripped 11
  else if 0x1000 ≤ a ∧ a < 0x1800 then
    (let k := a % 0x100 / 8; if k ≤ 10 then regLinkstat s ((a - 0x1000) / 0x100) k else 0)
  else if 0x1800 ≤ a ∧ a < 0x1840 then regFaberr (s.die ((a - 0x1800) / 8))
  else if 0x2000 ≤ a ∧ a < 0x3000 then regQueue (s.queue ((a - 0x2000) / 0x40)) (a % 0x40)
  else if a = 0x3000 then m.ctxbase.toNat
  else if a = 0x3008 then m.winctx.toNat
  else if a = 0x3010 then m.shootdn.toNat + bitW (s.shoots != []) 14
  else if a = 0x3020 then hdmSize s port * 2 ^ 30
  else if a = 0x3028 then m.modidx.toNat + m.present.toNat * 2 ^ 4
  else if a = 0x3100 then m.keySlot.toNat * 2 ^ 4 + m.keyOwner.toNat * 2 ^ 14 + bitW m.keyBusy 23 + m.keyStatus.toNat * 2 ^ 24
  else if a = 0x3108 then m.keystat.toNat
  else if a = 0x3200 then bitW m.fusing 1
  else 0
/-- A host read of n bytes of BAR0 within one 8-byte register (R25, R53). -/
def barBytes (s : State) (port off n : Nat) : Nat := barRead s port (off / 8 * 8) / 256 ^ (off % 8) % 256 ^ n

/-- RW1C on a saturating counter: each 1 clears the bit. -/
def clearBits (v w : Nat) : Nat := v &&& (v ^^^ w)

/-- KEYCMD: SLOT and OWNER are stored. OP acts when its byte is written, unless BUSY is 1; other codes give STATUS 2 (R71, R72). -/
def keyWrite (s : State) (v : Word) (op : Bool) : State :=
  if op ∧ ¬ s.mod.keyBusy then
    match (v.extractLsb' 0 4).toNat with
    | 1 => pushEvs s [.keyLoad v]
    | 2 => pushEvs s [.keyGen v]
    | 3 => pushEvs s [.keyPlain v]
    | 4 => pushEvs s [.keyDestroy v]
    | 5 => pushEvs s [.keyQuery v]
    | _ => { s with mod := { keyFields s.mod v with keyStatus := 2 } }
  else { s with mod := keyFields s.mod v }

/-- Store what a write of one 8-byte register stores; `v` holds the bytes written, `en` is the mask of bits written. Registers with rows of
their own hand the write on to their event. -/
def barWrite (s : State) (port a : Nat) (v en : Word) : State :=
  let old := BitVec.ofNat 64 (barRead s port a)
  -- bytes not written keep what they hold
  let x := (old &&& ~~~en) ||| (v &&& en)
  -- one bits written, for RW1C and WO fields
  let w := v &&& en
  let m := s.mod
  if a = 0x0040 then if en &&& 0xFFFF0007#64 = 0 then s else pushEvs s [.pwrmodeWrite ((x &&& ~~~(bit64 4)) ||| (w &&& bit64 4))]
  else if a = 0x0048 then
    { s with mod := { m with warn := m.warn && !w.getLsbD 8, limseen := m.limseen && !w.getLsbD 10, tripped := m.tripped && !w.getLsbD 11 } }
  else if 0x1000 ≤ a ∧ a < 0x1800 then
    let d := (a - 0x1000) / 0x100
    let k := a % 0x100 / 8
    if k > 10 ∨ ¬ linkExists d k then s
    else
      let y := s.die d
      let l := y.link k
      let s := s.setDie d (y.setLink k { l with corr := clearBits l.corr (w.extractLsb' 16 16).toNat, replay := clearBits l.replay (w.extractLsb' 32 16).toNat })
      if w.getLsbD 3 then pushEvs s [.linkstatRetry d k] else s
  else if 0x1800 ≤ a ∧ a < 0x1840 then
    let d := (a - 0x1800) / 8
    let y := s.die d
    s.setDie d { y with gdrop := clearBits y.gdrop (w.extractLsb' 0 16).toNat, badpkt := clearBits y.badpkt (w.extractLsb' 16 16).toNat
                        badflit := clearBits y.badflit (w.extractLsb' 32 8).toNat, slotmiss := y.slotmiss && !w.getLsbD 40
                        tskew := y.tskew && !w.getLsbD 41, chold := y.chold && !w.getLsbD 42 }
  else if 0x2000 ≤ a ∧ a < 0x3000 then
    let q := (a - 0x2000) / 0x40
    let qq := s.queue q
    match a % 0x40 with
    | 0x00 => if qq.en then s else s.setQueue q { qq with qbase := x.setWidth 56 }
    | 0x08 =>
      let s := if qq.en then s else s.setQueue q { qq with qctx := x.extractLsb' 1 9, prio := x.extractLsb' 10 2, size := x.extractLsb' 12 5 }
      if x.getLsbD 0 then (if qq.en then s else pushEvs s [.queueEnable q]) else if qq.en then pushEvs s [.queueDisable q] else s
    | 0x10 => if en &&& 0x3FFFFF#64 = 0 then s else pushEvs s [.queueDoorbell q x]
    | 0x20 => s.setQueue q { qq with badtail := qq.badtail && !w.getLsbD 1, badcfg := qq.badcfg && !w.getLsbD 2 }
    | _ => s
  else if a = 0x3000 then if s.queues.any fun q => q.2.en then s else { s with mod := { m with ctxbase := x &&& 0x000FFFFFFFFF001F#64 } }
  else if a = 0x3008 then { s with mod := { m with winctx := x &&& 0x00FFFF80000003FF#64 } }
  else if a = 0x3010 then
    if w.getLsbD 0 then pushEvs s [.shootdownStart x] else { s with mod := { m with shootdn := x &&& 0x00FFFFFFFFFF3FFE#64 } }
  else if a = 0x3018 then if en &&& 0x1FFFFFFF#64 = 0 then s else pushEvs s [if w.getLsbD 19 then .frzctlKill w else .frzctlResume w]
  else if a = 0x3020 then if en &&& 0xFFC0000000#64 = 0 then s else pushEvs s [.hdmcfgWrite port x]
  else if a = 0x3028 then if en &&& 0xF3#64 = 0 then s else pushEvs s [.domcfgWrite x]
  else if a = 0x3100 then keyWrite s ((x &&& ~~~(0xF#64)) ||| (w &&& 0xF#64)) (en.getLsbD 0)
  else if 0x3140 ≤ a ∧ a < 0x3180 then
    let o := 8 * (a - 0x3140)
    let k := m.keydata
    { s with mod := { m with keydata := (k &&& ~~~((en.setWidth 512) <<< o)) ||| ((w.setWidth 512) <<< o) } }
  else if a = 0x3200 then if w.getLsbD 0 then pushEvs s [.fwctlFuse] else s
  else s

/-- REGISTER_WRITE: n bytes at an offset of BAR0, register by register. Until MODREADY only PWRMODE takes a write (R29). -/
def execRegisterWrite (port off n : Nat) (v : Word) (s : State) : Host.Outcome State Fault Refusal :=
  if ¬ s.mod.rails then .next s
  else if ¬ s.mod.ready ∧ ¬ (0x40 ≤ off ∧ off + n ≤ 0x48) then .next (answer s (.unsupported port))
  else
    let o := off % 8
    let en : Word := BitVec.ofNat 64 (2 ^ (8 * min n 8) - 1)
    let s := answer (barWrite s port (off / 8 * 8) (v <<< (8 * o)) (en <<< (8 * o))) (.done port)
    .next (if o + n ≤ 8 then s else barWrite s port (off / 8 * 8 + 8) (v >>> (8 * (8 - o))) (en >>> (8 * (8 - o))))

end Sys2Proof.Machine
end

