-- ==== Sys2Proof/Machine/MlDsa.lean ====
section
/-! DEFINITION. ML-DSA-65 of FIPS 204 with an empty context string (R1, R75 to R78). PRESUMED (log 33): the standard's text is not in
the spec. -/
namespace Sys2Proof.Machine

/-! ### The ring: polynomials of 256 coefficients modulo q, as lists -/

abbrev Poly := List Nat

def dsaQ : Nat := 8380417
def polyAdd (a b : Poly) : Poly := List.zipWith (fun x y => (x + y) % dsaQ) a b
def polySub (a b : Poly) : Poly := List.zipWith (fun x y => (x + dsaQ - y) % dsaQ) a b
def polyMul (a b : Poly) : Poly := List.zipWith (fun x y => x * y % dsaQ) a b
def polyZero : Poly := List.replicate 256 0

/-- Eight bits in the other order. -/
def brv8 (i : Nat) : Nat := ofBits8 ((List.range 8).map fun b => i.testBit (7 - b))
  where ofBits8 (l : List Bool) : Nat := l.foldr (fun b a => (if b then 1 else 0) + 2 * a) 0
/-- The exponents e of the roots ζ^e, ζ = 1753, at which the transform evaluates a polynomial. -/
def rootExps : List Nat := (List.range 256).map fun i => 2 * brv8 i + 1
def dsaRoots : List Nat := rootExps.map fun e => 1753 ^ e % dsaQ
def dsaInvRoots : List Nat := rootExps.map fun e => 1753 ^ (512 - e) % dsaQ
/-- NTT: the values of a polynomial at the roots. -/
def ntt (w : Poly) : Poly := dsaRoots.map fun z => w.foldr (fun c a => (c + a * z) % dsaQ) 0
/-- Coefficients of a polynomial from its values: each the mean of the values times powers of the inverse roots. -/
def nttInvFrom : Nat → Poly → Poly
  | 0, _ => []
  | n + 1, a => a.foldl (fun x y => (x + y) % dsaQ) 0 * 8347681 % dsaQ :: nttInvFrom n (polyMul a dsaInvRoots)
def nttInv (w : Poly) : Poly := nttInvFrom 256 w
/-- A row of the matrix times a vector, both transformed. -/
def rowMul (row v : List Poly) : Poly := (row.zip v).foldl (fun a p => polyAdd a (polyMul p.1 p.2)) polyZero
def matMul (m : List (List Poly)) (v : List Poly) : List Poly := m.map fun row => rowMul row v
/-- Distance of a coefficient from 0. -/
def absQ (x : Nat) : Nat := min (x % dsaQ) (dsaQ - x % dsaQ)
/-- Is every coefficient nearer to 0 than b? -/
def below (b : Nat) (v : List Poly) : Bool := v.all fun p => p.all fun x => decide (absQ x < b)

/-! ### Bytes -/

/-- Coefficients of n bits each, least significant first. -/
def polyPack (n : Nat) (p : Poly) : List Byte := nBytes (p.foldr (fun c a => c + 2 ^ n * a) 0) (p.length * n / 8)
def polyUnpack (n : Nat) (b : List Byte) : Poly :=
  let v := ofBytes b
  (List.range (b.length * 8 / n)).map fun i => v / 2 ^ (n * i) % 2 ^ n
/-- m pieces of n bytes. -/
def dsaPieces (n : Nat) : Nat → List Byte → List (List Byte)
  | 0, _ => []
  | m + 1, b => b.take n :: dsaPieces n m (b.drop n)

/-! ### Sampling -/

/-- RejNTTPoly: 23-bit values below q. -/
def rejNtt : List Byte → Poly
  | a :: b :: c :: t =>
    let v := a.toNat + 2 ^ 8 * b.toNat + 2 ^ 16 * (c.toNat % 128)
    if v < dsaQ then v :: rejNtt t else rejNtt t
  | _ => []
/-- ExpandA. -/
def expandA (rho : List Byte) : List (List Poly) :=
  (List.range 6).map fun r => (List.range 5).map fun s =>
    (rejNtt (shakeOut 168 6 (rho ++ [BitVec.ofNat 8 s, BitVec.ofNat 8 r]))).take 256
/-- RejBoundedPoly: half bytes below 9, as 4 less the half byte. -/
def rejBounded (b : List Byte) : Poly :=
  ((b.flatMap fun x => [x.toNat % 16, x.toNat / 16]).filter fun h => decide (h < 9)).map fun h => (dsaQ + 4 - h) % dsaQ
/-- ExpandS: s1 (5 polynomials), then s2 (6). -/
def expandS (rho : List Byte) : List Poly :=
  (List.range 11).map fun r => (rejBounded (shakeOut 136 4 (rho ++ nBytes r 2))).take 256
/-- ExpandMask. -/
def expandMask (rho : List Byte) (k : Nat) : List Poly :=
  (List.range 5).map fun r => (polyUnpack 20 ((shakeOut 136 5 (rho ++ nBytes (k + r) 2)).take 640)).map fun v => (dsaQ + 2 ^ 19 - v) % dsaQ
/-- SampleInBall: 49 coefficients of 1 or −1, placed from position 207 upwards. -/
def ballFrom (signs : Nat) : Nat → List Byte → Poly → Poly
  | 0, _, c => c
  | n + 1, b, c =>
    let i := 256 - (n + 1)
    match b.dropWhile fun x => decide (x.toNat > i) with
    | [] => c
    | x :: t => ballFrom signs n t ((c.set i (c.getD x.toNat 0)).set x.toNat (if signs.testBit (i - 207) then dsaQ - 1 else 1))
def sampleInBall (seed : List Byte) : Poly :=
  let b := shakeOut 136 3 seed
  ballFrom (ofBytes (b.take 8)) 49 (b.drop 8) polyZero

/-! ### Rounding -/

/-- Twice γ₂ = (q − 1)/16. -/
def gamma22 : Nat := 523776
/-- Decompose: high part and signed low part. -/
def decompose (x : Nat) : Nat × Int :=
  let r := x % dsaQ
  let m := r % gamma22
  let r0 : Int := if m > gamma22 / 2 then (m : Int) - gamma22 else m
  if (r : Int) - r0 = dsaQ - 1 then (0, r0 - 1) else ((((r : Int) - r0) / gamma22).toNat, r0)
/-- Power2Round with d = 13: high part, low part modulo q. -/
def power2Round (x : Nat) : Nat × Nat :=
  let m := x % 2 ^ 13
  if m > 2 ^ 12 then (x / 2 ^ 13 + 1, (dsaQ + m - 2 ^ 13) % dsaQ) else (x / 2 ^ 13, m)
/-- UseHint. -/
def useHint (h : Bool) (x : Nat) : Nat :=
  let (r1, r0) := decompose x
  if h then (if r0 > 0 then (r1 + 1) % 16 else (r1 + 15) % 16) else r1

/-! ### Hints -/

/-- HintBitPack: positions of the ones of each polynomial, 55 bytes in all, then the running counts. -/
def hintPack (h : List (List Bool)) : List Byte :=
  let pos := h.map fun p => (List.range 256).filter fun j => p.getD j false
  let all := pos.flatMap id
  let ends := (List.range 6).map fun i => ((pos.take (i + 1)).map List.length).sum
  (all ++ List.replicate (55 - all.length) 0 ++ ends).map (BitVec.ofNat 8)
/-- Are the numbers strictly rising? -/
def rising : List Nat → Bool
  | a :: b :: t => decide (a < b) && rising (b :: t)
  | _ => true
/-- HintBitUnpack: the positions of each polynomial; none where the bytes are not the encoding of any hint. -/
def hintUnpack (y : List Byte) : Option (List (List Nat)) :=
  let v := y.map fun b => b.toNat
  let ends := 0 :: (v.drop 55).take 6
  let pos := (List.range 6).map fun i => (v.drop (ends.getD i 0)).take (ends.getD (i + 1) 0 - ends.getD i 0)
  let okEnds := (List.range 6).all fun i => decide (ends.getD i 0 ≤ ends.getD (i + 1) 0 ∧ ends.getD (i + 1) 0 ≤ 55)
  if okEnds && pos.all rising && (((v.take 55).drop (ends.getD 6 0)).all fun x => x == 0) then some pos else none

/-! ### Keys, signatures, verification -/

/-- What KeyGen makes of a seed: the public key, K, s1, s2, t0, and the matrix. -/
structure DsaKey where
  pk : List Byte
  k : List Byte
  s1 : List Poly
  s2 : List Poly
  t0 : List Poly
  mat : List (List Poly)
deriving DecidableEq, Repr

/-- SHAKE256 with n bytes of output. -/
def shakeN (m : List Byte) (n : Nat) : List Byte := (shakeOut 136 (n / 136 + 1) m).take n

/-- KeyGen of a 32-byte seed. -/
def dsaKeyGen (seed : BitVec 256) : DsaKey :=
  let x := shakeN (nBytes seed.toNat 32 ++ [6, 5]) 128
  let rho := x.take 32
  let a := expandA rho
  let s := expandS ((x.drop 32).take 64)
  let s1 := s.take 5
  let s2 := s.drop 5
  let t := List.zipWith polyAdd ((matMul a (s1.map ntt)).map nttInv) s2
  let pr := t.map fun p => p.map power2Round
  { pk := rho ++ (pr.flatMap fun p => polyPack 10 (p.map Prod.fst)), k := x.drop 96, s1 := s1, s2 := s2
    t0 := pr.map fun p => p.map Prod.snd, mat := a }
def mldsaPublic (seed : BitVec 256) : List Byte := (dsaKeyGen seed).pk
/-- The digest μ of a message under a public key, with an empty context string. -/
def dsaMu (pk m : List Byte) : List Byte := shakeN (shakeN pk 64 ++ [0, 0] ++ m) 64
/-- The challenge hash of the high parts. -/
def dsaChallenge (mu : List Byte) (w1 : List Poly) : List Byte := shakeN (mu ++ w1.flatMap (polyPack 4)) 48

/-- One try of Sign at κ: a signature, or none where it is rejected. -/
def dsaTry (key : DsaKey) (mu rpp : List Byte) (kappa : Nat) : Option (List Byte) :=
  let y := expandMask rpp kappa
  let w := (matMul key.mat (y.map ntt)).map nttInv
  let ct := dsaChallenge mu (w.map fun p => p.map fun x => (decompose x).1)
  let c := ntt (sampleInBall ct)
  let mulC := fun (v : List Poly) => v.map fun p => nttInv (polyMul c (ntt p))
  let z := List.zipWith polyAdd y (mulC key.s1)
  let r := List.zipWith polySub w (mulC key.s2)
  let c0 := mulC key.t0
  let h := List.zipWith (List.zipWith fun a b => (decompose (a + b)).1 != (decompose a).1) r c0
  if below (2 ^ 19 - 196) z && (r.all fun p => p.all fun x => decide ((decompose x).2.natAbs < 261888 - 196)) && below 261888 c0 &&
      decide ((h.map fun p => p.count true).sum ≤ 55)
  then some (ct ++ (z.flatMap fun p => polyPack 20 (p.map fun x => (dsaQ + 2 ^ 19 - x) % dsaQ)) ++ hintPack h) else none
/-- Tries until one is not rejected; FIPS 204 allows the count to be bounded by 814. -/
def dsaTries (key : DsaKey) (mu rpp : List Byte) : Nat → Nat → List Byte
  | 0, _ => []
  | n + 1, kappa => match dsaTry key mu rpp kappa with | some s => s | none => dsaTries key mu rpp n (kappa + 5)
/-- Sign with the key of a seed and 32 bytes of randomness. -/
def mldsaSign (seed rnd : BitVec 256) (m : List Byte) : List Byte :=
  let key := dsaKeyGen seed
  let mu := dsaMu key.pk m
  dsaTries key mu (shakeN (key.k ++ nBytes rnd.toNat 32 ++ mu) 64) 814 0

/-- Verify: public key, message, signature. -/
def mldsaVerify (pk m sig : List Byte) : Bool :=
  let ct := sig.take 48
  let z := (dsaPieces 640 5 (sig.drop 48)).map fun b => (polyUnpack 20 b).map fun v => (dsaQ + 2 ^ 19 - v) % dsaQ
  match hintUnpack (sig.drop 3248) with
  | none => false
  | some h =>
    let t1 := (dsaPieces 320 6 (pk.drop 32)).map (polyUnpack 10)
    let c := ntt (sampleInBall ct)
    let w := List.zipWith (fun a b => nttInv (polySub a (polyMul c (ntt (b.map fun x => x * 2 ^ 13))))) (matMul (expandA (pk.take 32)) (z.map ntt)) t1
    let w1 := List.zipWith (fun (p : Poly) (s : List Nat) => p.zipIdx.map fun x => useHint (s.contains x.2) x.1) w h
    decide (pk.length = 1952) && decide (sig.length = 3309) && below (2 ^ 19 - 196) z && dsaChallenge (dsaMu pk m) w1 == ct

end Sys2Proof.Machine
end

