-- ==== Sys2Proof/Machine/Keys.lean ====
section
/-! DEFINITION. Key slots, firmware fusing, the SPDM responder (R71, R72, R74, R77 to R79). -/
namespace Sys2Proof.Machine

/-! ### Key slots (R71, R72, R74) -/

def keyOf (s : State) (k : Nat) : KeySlot := FMap.get KeySlot.init s.mod.keys k
def cmdSlot (v : Word) : Nat := (v.extractLsb' 4 10).toNat
def cmdOwner (v : Word) : Nat := (v.extractLsb' 14 9).toNat

/-- Store a key command's fields and its STATUS; while BUSY the fields only (R5, R72). `act` gives the STATUS and the module it leaves. -/
def keyCmd (s : State) (v : Word) (act : Module → BitVec 4 × Module) : Host.Outcome State Fault Refusal :=
  if ¬ s.mod.ready then .next s
  else if s.mod.keyBusy then .next { s with mod := keyFields s.mod v }
  else
    let r := act (keyFields s.mod v)
    .next { s with mod := { r.2 with keyStatus := r.1 } }

/-- Why LOAD, GEN or PLAIN is refused: slot not EMPTY, then owner not a valid context (log 54). -/
def keyRefusal (s : State) (v : Word) : BitVec 4 :=
  if (keyOf s (cmdSlot v)).st ≠ .empty then 1 else if ¬ ctxOk s (cmdOwner v) then 3 else 0
/-- Fill a slot. -/
def fillSlot (m : Module) (v : Word) (st : KeyState) (internal : Bool) (key : BitVec 512) : Module :=
  { m with keys := FMap.put m.keys (cmdSlot v) ⟨st, cmdOwner v, internal, key⟩ }

/-- KEY_LOAD: data key ‖ tweak key from KEYDATA, which is zeroed; equal halves are refused. -/
def execKeyLoad (v : Word) (s : State) : Host.Outcome State Fault Refusal :=
  keyCmd s v fun m =>
    let k := m.keydata
    let m := { m with keydata := 0 }
    let why := keyRefusal s v
    if why ≠ 0 then (why, m)
    else if k.extractLsb' 0 256 = k.extractLsb' 256 256 then (4, m)
    else (0, fillSlot m v .keyed false k)
/-- KEY_GEN: both keys from the internal random bit generator. -/
def execKeyGen (v : Word) (s : State) : Host.Outcome State Fault Refusal :=
  let r := keyCmd s v fun m =>
    let why := keyRefusal s v
    if why ≠ 0 then (why, m) else (0, fillSlot m v .keyed true (Config.randomKey s.free))
  match r with
  | .next s => .next { s with free := s.free + 1 }
  | r => r
/-- KEY_PLAIN. -/
def execKeyPlain (v : Word) (s : State) : Host.Outcome State Fault Refusal :=
  keyCmd s v fun m =>
    let why := keyRefusal s v
    if why ≠ 0 then (why, m) else (0, fillSlot m v .plain false 0)
/-- KEY_DESTROY: a slot that is not EMPTY enters DESTROYING, and BUSY is set. -/
def execKeyDestroy (v : Word) (s : State) : Host.Outcome State Fault Refusal :=
  keyCmd s v fun m =>
    let k := keyOf s (cmdSlot v)
    if k.st = .empty then (0, m) else (0, { m with keys := FMap.put m.keys (cmdSlot v) { k with st := .destroying }, keyBusy := true })
/-- Is an access that has passed keycheck under a slot still in flight? -/
def slotInUse (s : State) (k : Nat) : Bool :=
  (s.xacts.any fun x => isSealed x.ph.loc && x.ph.key == k && x.st != .answered) ||
  s.cores.any fun p => p.2.accs.any fun a => match a.phys with | some ph => isSealed ph.loc && ph.key == k | none => false
/-- The L2s give up the second-tier lines whose data lie under a key, so that they read back through that key only (R74, R195, log 73), and no L1 keeps a line of an encrypted page. -/
def dropKeyLines (s : State) (key : BitVec 512) : State :=
  { s with cores := s.cores.map (fun (p : Nat × Core) => (p.1, l1DropIf (fun y => isSealed y.loc) p.2)), dies := s.dies.map fun (p : Nat × Die) => (p.1, { p.2 with l2 := p.2.l2.map fun (w : Nat × List L2Line) =>
      (w.1, w.2.filter fun x => !(x.loc == 1 && (match FMap.find s.seals (maddr 1 (s.dieBase + p.1) (x.line * 128) / 128) with
        | some e => e.key == key | none => false))) }) }
/-- KEY_DESTROY_DRAIN_END: the slot becomes EMPTY with its keys zeroised, and BUSY clears. -/
def execKeyDestroyDrainEnd (slot : Nat) (s : State) : Host.Outcome State Fault Refusal :=
  if (keyOf s slot).st ≠ .destroying ∨ slotInUse s slot then .next s
  else
    let s := if (keyOf s slot).key = 0 then s else dropKeyLines s (keyOf s slot).key
    .next { s with mod := { s.mod with keys := FMap.erase s.mod.keys slot, keyBusy := false } }
/-- KEYSTAT of a slot (Table 3.12). -/
def keyStatOf (k : KeySlot) : Word :=
  BitVec.ofNat 64 ((match k.st with | .empty => 0 | .plain => 1 | .keyed => 2 | .destroying => 3) + k.owner % 512 * 4 + bitW k.internal 11)
/-- KEY_QUERY. KEYSTAT keeps what the slot held at the QUERY (log 67). -/
def execKeyQuery (v : Word) (s : State) : Host.Outcome State Fault Refusal :=
  keyCmd s v fun m => (0, { m with keystat := keyStatOf (keyOf s (cmdSlot v)) })

/-! ### Fusing (R79) -/

/-- FWCTL_FUSE: once MODREADY is 1, unless the count is already at least the running SVN. -/
def execFwctlFuse (s : State) : Host.Outcome State Fault Refusal :=
  if ¬ s.mod.ready ∨ s.mod.fwSvn ≤ s.mod.svnFused then .next s else .next { s with mod := { s.mod with fusing := true } }
def execFwctlFuseDone (s : State) : Host.Outcome State Fault Refusal :=
  if ¬ s.mod.fusing then .next s else .next { s with mod := { s.mod with svnFused := s.mod.fwSvn, fusing := false } }

/-! ### SPDM (R77, R78) -/

/-- n bytes, little endian. -/
def bytesOf (v : Nat) : Nat → List Byte
  | 0 => []
  | n + 1 => BitVec.ofNat 8 v :: bytesOf (v / 256) n
def bytesNat : List Byte → Nat
  | [] => 0
  | b :: t => b.toNat + 256 * bytesNat t

def reply (s : State) (a : Spdm) : Host.Outcome State Fault Refusal := .next { s with spdm := s.spdm ++ [a] }
/-- An answer that carries a signature takes its random bytes. -/
def replySigned (s : State) (a : Spdm) : Host.Outcome State Fault Refusal := reply { s with free := s.free + 1 } a
/-- The chain of certificate slot 0, root to alias, as the flash and the boot ROM leave it, in SPDM 1.3's form: its length, two reserved
bytes, the digest of the root certificate, the certificates (logs 34, 87). -/
def certChain (m : Module) : List Byte :=
  let certs := m.rootCert ++ m.idCert ++ m.aliasCert
  bytesOf (68 + certs.length) 2 ++ bytesOf 0 2 ++ bytesOf (shake256 m.rootCert).toNat 64 ++ certs
/-- Numbers of slots in a state. -/
def census (m : Module) (p : KeySlot → Bool) : Nat := (m.keys.filter fun k => p k.2).length
/-- Measurement blocks (Table 3.14). -/
def measurements (m : Module) : List (Nat × List Byte) :=
  let plain := census m fun k => k.st == .plain
  let keyed := census m fun k => k.st == .keyed
  let dest := census m fun k => k.st == .destroying
  [(1, bytesOf m.bootRom.toNat 8), (2, bytesOf m.fwDigest.toNat 64), (3, bytesOf m.fwSvn.toNat 4 ++ bytesOf m.svnFused.toNat 4),
   (4, bytesOf m.fuseCfg.toNat 8),
   (5, ([1024 - plain - keyed - dest, plain, keyed, dest, census m fun k => k.internal].flatMap fun n => bytesOf n 2))]
/-- A signature by the alias key over a response's transcript. -/
def spdmSign (s : State) (kind port : Nat) (nonce : BitVec 256) (content : List Byte) : List Byte :=
  mldsaSign s.mod.aliasSeed (Config.signRandom s.free) (Config.transcript kind port nonce content)

def execGetVersion (port : Nat) (s : State) := reply s (.version port 1 3)
def execGetCapabilities (port : Nat) (s : State) := reply s (.capabilities port true true true)
def execNegotiateAlgorithms (port : Nat) (s : State) := reply s (.algorithms port .mlDsa65 .shake256)
def execGetDigests (port : Nat) (s : State) := reply s (.digests port (shake256 (certChain s.mod)))
def execGetCertificate (port slot off len : Nat) (s : State) :=
  if slot ≠ 0 then reply s (.unsupported port) else reply s (.certificate port (((certChain s.mod).drop off).take len))
def execChallenge (port slot : Nat) (nonce : BitVec 256) (s : State) :=
  if slot ≠ 0 then reply s (.unsupported port)
  else replySigned s (.challenge port (spdmSign s 1 port nonce (bytesOf (shake256 (certChain s.mod)).toNat 64)))
/-- Index 255 asks for every block, another for the one it names; 0 asks, in SPDM, only for their number, and an index that Table 3.14 has
not is answered with UnsupportedRequest (log 87). -/
def execGetMeasurements (port index : Nat) (nonce : BitVec 256) (s : State) :=
  let l := (measurements s.mod).filter fun b => index == 255 || b.1 == index
  if l = [] ∧ index ≠ 0 then reply s (.unsupported port)
  else replySigned s (.measurements port l (spdmSign s 2 port nonce (l.flatMap fun b => b.2)))
def execSpdmUnsupportedRequest (port : Nat) (s : State) := reply s (.unsupported port)

end Sys2Proof.Machine
end

