-- ==== Sys2Proof/Machine/Power.lean ====
section
/-! DEFINITION. Power, modes, thermal action, bring-up and firmware, weight-store refresh (R6, R12 to R31, R75 to R77, R170, R191). -/
namespace Sys2Proof.Machine

/-! ### Power (R6, R12, R21, R26) -/

/-- Memory of the host, which no reset of the module changes: byte addresses, or lines, of LOC 3. -/
def hostBytes (m : Memory) : Memory := m.filter fun p => decide (maddr 3 0 0 ≤ p.1) && decide (p.1 < maddr 4 0 0)
def hostLines (m : FMap Seal) : FMap Seal := m.filter fun p => decide (maddr 3 0 0 / 128 ≤ p.1) && decide (p.1 < maddr 4 0 0 / 128)

/-- What no loss of power takes: fuses and boot flash. -/
def keepFuses (m n : Module) : Module :=
  { n with flash := m.flash, rootHash := m.rootHash, svnFused := m.svnFused, secret := m.secret, bootRom := m.bootRom, fuseCfg := m.fuseCfg
           rootCert := m.rootCert, idCert := m.idCert }
/-- The machine with the module's state at reset: the host's memory, the records of what went out, and the model's counter stay. -/
def restart (s : State) (m : Module) : State :=
  { State.reset with mod := m, mem := hostBytes s.mem, seals := hostLines s.seals, outbox := s.outbox, msix := s.msix, answers := s.answers
                     spdm := s.spdm, free := s.free, inputs := s.inputs }

/-- POWER_ON_RESET: the rails ramp, GTC starts at 0, bring-up begins at stage 0; TRIPPED is kept while VAUX has stayed powered. -/
def execPowerOnReset (s : State) : Host.Outcome State Fault Refusal :=
  .next (restart s { keepFuses s.mod Module.init with tripped := s.mod.vaux && s.mod.tripped })
/-- POWER_REMOVED: every state is lost, VAUX included. -/
def execPowerRemoved (s : State) : Host.Outcome State Fault Refusal :=
  .next (restart s { keepFuses s.mod Module.init with vaux := false, rails := false })

/-! ### Modes (R14, R17 to R19, R31) -/

/-- PWRMODE_WRITE: the mode and cap wait for a window; codes 5 to 7 set BADW and change neither. -/
def execPwrmodeWrite (v : Word) (s : State) : Host.Outcome State Fault Refusal :=
  let m := s.mod
  let badw := m.badw && !v.getLsbD 4
  let mode := v.extractLsb' 0 3
  if mode.toNat ≥ 5 then .next { s with mod := { m with badw := true } }
  else .next { s with mod := { m with badw := badw, mode := mode, capw := v.extractLsb' 16 16, pend := true, pendAt := s.gtc } }

/-- Is a launch active on any die (R190)? -/
def anyActive (s : State) : Bool := (List.range 8).any fun d => launchActive s (s.dieBase + d)
/-- A pending mode or cap takes effect, if this window began after its write and MODREADY, and no launch holds a change into IDLE. -/
def modeChange (s : State) : State :=
  let m := s.mod
  if ¬ m.pend ∨ ¬ m.ready ∨ s.gtc ≤ m.pendAt ∨ (m.mode = 0 ∧ m.active ≠ 0 ∧ anyActive s) then s
  else
    let s := { s with mod := { m with pend := false, active := m.mode, actCap := m.capw } }
    let s := if m.mode = m.active then s else linkPower s m.mode.toNat
    { s with launches := s.launches.map fun (l : Launch) => match l.phase with | .checked => pendLaunch s l | _ => l }

/-- THROTTLE_WINDOW_START: a pending mode takes effect, MACC counts restart. -/
def execThrottleWindowStart (s : State) : Host.Outcome State Fault Refusal :=
  let s := modeChange s
  .next { s with cores := s.cores.map fun (p : Nat × Core) => (p.1, { p.2 with maccs := 0, thrott := false }) }

/-- THERMAL_SAMPLE: warn, limit or trip by the hottest temperature. A trip removes the main rails: what VAUX does not hold is lost. -/
def execThermalSample (t : Nat) (s : State) : Host.Outcome State Fault Refusal :=
  if ¬ s.mod.rails then .next { s with mod := { s.mod with tmax := BitVec.ofNat 8 t } }
  else
    let m := s.mod
    let limit : Bool := decide (t ≥ 105) || (m.limit && decide (t ≥ 100))
    let warn : Bool := m.warn || decide (t ≥ 95)
    let m1 := { m with tmax := BitVec.ofNat 8 t, warn := warn, limit := limit, limseen := m.limseen || limit }
    let s1 := { s with mod := m1 }
    let s1 := if warn && !m.warn then notifyModule s1 1 else s1
    if t < 115 then .next s1
    else
      let n := { keepFuses m1 Module.init with
        rails := false, tripped := true, tmax := m1.tmax, warn := m1.warn, limit := m1.limit, limseen := m1.limseen
        ready := m1.ready, fail := m1.fail, stage := m1.stage, failDie := m1.failDie, failStage := m1.failStage, retired := m1.retired }
      .next { restart s1 n with gtc := s.gtc, gtcStep := s.gtcStep, gtcStepAt := s.gtcStepAt }

/-! ### Firmware (R75 to R77) -/

/-- n bytes of an image from byte a. -/
def imgBytes (img : List Byte) (a n : Nat) : List Byte := (img.drop a).take n
def imgNat (img : List Byte) (a n : Nat) : Nat := bytesNat (imgBytes img a n)
/-- Does the boot ROM accept an image? -/
def imageOk (m : Module) (img : List Byte) : Bool :=
  imgNat img 0 4 == 0x44575731 && imgNat img 4 2 == 1 &&
  shake256 (imgBytes img 88 1952) == m.rootHash &&
  mldsaVerify (imgBytes img 88 1952) (imgBytes img 0 2040) (imgBytes img 2040 3309) &&
  (shake256 (imgBytes img 8192 (imgNat img 12 4))).toNat == imgNat img 24 64 &&
  decide (m.svnFused.toNat ≤ imgNat img 8 4)
/-- First 32 bytes of SHAKE256. -/
def seedOf (l : List Byte) : BitVec 256 := (shake256 l).setWidth 256
def ascii4 (a b c d : Nat) : List Byte := [BitVec.ofNat 8 a, BitVec.ofNat 8 b, BitVec.ofNat 8 c, BitVec.ofNat 8 d]
/-- The running firmware, the alias key and the alias certificate, signed by the identity key with the n-th random bytes. DWID and DWAL are the labels of R77. -/
def bootFrom (m : Module) (n : Nat) (img : List Byte) : Module :=
  let secret := bytesOf m.secret.toNat 32
  let idSeed := seedOf (ascii4 0x44 0x57 0x49 0x44 ++ secret)
  let alias_ := seedOf (ascii4 0x44 0x57 0x41 0x4C ++ secret ++ imgBytes img 24 64 ++ imgBytes img 8 4)
  let body := Config.certBody (mldsaPublic idSeed) (mldsaPublic alias_)
  { m with fwDigest := BitVec.ofNat 512 (imgNat img 24 64), fwSvn := BitVec.ofNat 32 (imgNat img 8 4), aliasSeed := alias_
           aliasCert := Config.certDer body (mldsaSign idSeed (Config.signRandom n) body) }

/-! ### Bring-up (R26 to R31) -/

/-- Bring-up ends in failure (R28). -/
def bringupFail (s : State) (die : Nat) : State :=
  notifyModule { s with mod := { s.mod with fail := true, failDie := die, failStage := s.mod.stage } } 0
/-- A core that fails its test is retired and counted (R27). -/
def retireAtTest (s : State) (i : Nat) : State :=
  if s.mod.retired.contains i then s
  else
    let s := s.setCore i { s.core i with mode := .retired }
    { s with mod := { s.mod with retired := s.mod.retired ++ [i] } }
/-- Memory initialisation: every store zero, key slots and TLBs clear; MODREADY (R31). -/
def initMemory (s : State) : State :=
  let cores := s.cores.map fun (p : Nat × Core) => (p.1, { p.2 with spad := [], tiles := [], psum := [] })
  let dies := s.dies.map fun (p : Nat × Die) => (p.1, { p.2 with l2 := [], blocks := [], badBlocks := [] })
  notifyModule { s with mem := hostBytes s.mem, seals := hostLines s.seals, sinter := [], tlbs := [], rocPages := [], cores := cores, dies := dies
                        mod := { s.mod with ready := true, stage := 8, keys := [], pendAt := s.gtc } } 0

/-- BRINGUP_STAGE_END: the stage in progress is over; `bad` are cores that failed the test of stage 6, `fail` the die on which the stage
failed. A failure counts in stages 1 to 5 and 7. Stage 2 begins with the bridges, is not over while a bridge or link still trains, and fails with a bridge DOWN.
FAILDIE is 0 when neither firmware image passes, for which the spec names no die (log 68). -/
def execBringupStageEnd (bad : List Nat) (fail : Option Nat) (s : State) : Host.Outcome State Fault Refusal :=
  let m := s.mod
  if m.ready ∨ m.fail ∨ ¬ m.rails then .next s
  else
    let next := fun (s : State) => { s with mod := { s.mod with stage := s.mod.stage + 1 } }
    match fail with
    | some d => if m.stage = 0 ∨ m.stage = 6 then go m s next else .next (bringupFail s d)
    | none => go m s next
where
  go (m : Module) (s : State) (next : State → State) : Host.Outcome State Fault Refusal :=
    match m.stage with
    | 1 => (match [m.flash.1, m.flash.2].find? (imageOk m) with
      | some img => .next (next (trainLinks { s with mod := bootFrom m s.free img, free := s.free + 1 } fun x => decide (x.2 ≥ 8)))
      | none => .next (bringupFail s 0))
    | 2 => if moduleLinks.any fun x => inTraining (linkState s x) then .next s
      else (match moduleLinks.find? fun x => decide (x.2 ≥ 8) && linkState s x == .down with
        | some x => .next (bringupFail s x.1)
        | none => .next (next s))
    | 6 => .next (next ((bad.filter fun i => decide (i < 512) && decide (i % 64 < 48)).foldl retireAtTest s))
    | 7 => .next (initMemory s)
    | _ => .next (next s)

/-! ### Weight-store refresh (R191) -/

/-- WEIGHT_STORE_REFRESH: in its window a bank holds its accesses; after it, it serves them. -/
def execWeightStoreRefresh (die bank : Nat) (s : State) : Host.Outcome State Fault Refusal :=
  let y := s.die die
  let p := s.gtc % 32768
  if 4096 * bank ≤ p ∧ p < 4096 * bank + 512 ∧ bank < 8 then .next (s.setDie die { y with wsRefresh := some bank })
  else if y.wsRefresh = some bank then .next (s.setDie die { y with wsRefresh := none })
  else .next s

end Sys2Proof.Machine
end

