-- ==== Sys2Proof/Machine/ScalarFloat.lean ====
section
/-! DEFINITION. Scalar floating point: arithmetic, conversions, fcmp, fclass (R300, R302 to R304). Latency 4; flags at position 0. -/
namespace Sys2Proof.Machine

/-- Deliver a scalar float result of latency 4 with its flags at VXF position 0. -/
def finishF (f : SR) (r : Nat × FlagBits) (cu : Cursor) (c : Core) : LM Core := do
  let c ← writeS cu f.dst f.ws 4 (BitVec.ofNat 64 r.1) c
  .ok (emitFlags cu 4 f.nf [(0, r.2)] c)

/-- The low w bits of an operand. -/
def lowBits (f : FFmt) (a : Word) : Nat := a.toNat % 2 ^ f.width

def scalarF2 (f : SR) (op : FFmt → Nat → Nat → Nat × FlagBits) (cu : Cursor) (c : Core) : LM Core := do
  need cu (decide (f.fn.toNat ≤ 2))
  let t := fmtOfCode f.fn.toNat
  let (a, c) ← resolveS cu f.sa c
  let (b, c) ← resolveS cu f.sb c
  finishF f (op t (lowBits t a) (lowBits t b)) cu c
def scalarF1 (f : SR) (op : FFmt → Nat → Nat × FlagBits) (cu : Cursor) (c : Core) : LM Core := do
  need cu (decide (f.fn.toNat ≤ 2) && f.sb = 0)
  let t := fmtOfCode f.fn.toNat
  let (a, c) ← resolveS cu f.sa c
  finishF f (op t (lowBits t a)) cu c

def execFadd (f : SR) (s : State) := laneStep s f.pr (scalarF2 f fadd)
def execFsub (f : SR) (s : State) := laneStep s f.pr (scalarF2 f fsub)
def execFmul (f : SR) (s : State) := laneStep s f.pr (scalarF2 f fmul)
def execFdiv (f : SR) (s : State) := laneStep s f.pr (scalarF2 f fdiv)
def execFmin (f : SR) (s : State) := laneStep s f.pr (scalarF2 f fmin)
def execFmax (f : SR) (s : State) := laneStep s f.pr (scalarF2 f fmax)
def execFsqrt (f : SR) (s : State) := laneStep s f.pr (scalarF1 f fsqrt)
def execFabs (f : SR) (s : State) := laneStep s f.pr (scalarF1 f fabs)
def execFneg (f : SR) (s : State) := laneStep s f.pr (scalarF1 f fneg)

/-- The second type and the rounding mode of a scalar conversion: SB[1:0], SB[4:2]; SB[6:5] zero, RM 0 to 3 (R303). -/
def cvtFields (cu : Cursor) (f : SR) (t2max : Nat) : LM (Nat × RMode) := do
  let t2 := f.sb.toNat % 4
  let rm := f.sb.toNat / 4 % 8
  need cu (decide (f.fn.toNat ≤ 2) && decide (t2 ≤ t2max) && decide (rm ≤ 3) && decide (f.sb.toNat < 32))
  .ok (t2, RMode.ofCode rm)

def scalarFcvt (f : SR) (cu : Cursor) (c : Core) : LM Core := do
  let (t2, rm) ← cvtFields cu f 2
  let (a, c) ← resolveS cu f.sa c
  let src := fmtOfCode t2
  let r := round (fmtOfCode f.fn.toNat) rm false (src.decode (lowBits src a))
  finishF f (r.1, r.2 ||| src.snanFlag (lowBits src a)) cu c
def execFcvt (f : SR) (s : State) := laneStep s f.pr (scalarFcvt f)

/-- Range of integer code 0 i64, 1 n64, 2 i32, 3 n32. -/
def intRange (t : Nat) : Int × Int :=
  match t with
  | 0 => (-2 ^ 63, 2 ^ 63 - 1) | 1 => (0, 2 ^ 64 - 1) | 2 => (-2 ^ 31, 2 ^ 31 - 1) | _ => (0, 2 ^ 32 - 1)

def scalarFcvti (f : SR) (cu : Cursor) (c : Core) : LM Core := do
  let (t2, rm) ← cvtFields cu f 3
  let (a, c) ← resolveS cu f.sa c
  let src := fmtOfCode f.fn.toNat
  let (lo, hi) := intRange t2
  let (v, fl) := toIntRange rm lo hi (src.decode (lowBits src a))
  finishF f (wrapN 64 v, fl) cu c
def execFcvti (f : SR) (s : State) := laneStep s f.pr (scalarFcvti f)

def scalarIcvtf (f : SR) (cu : Cursor) (c : Core) : LM Core := do
  let (t2, rm) ← cvtFields cu f 3
  let (a, c) ← resolveS cu f.sa c
  let x : Int := match t2 with
    | 0 => a.toInt | 1 => a.toNat | 2 => (a.setWidth 32).toInt | _ => (a.setWidth 32).toNat
  finishF f (round (fmtOfCode f.fn.toNat) rm false (.ofInt x)) cu c
def execIcvtf (f : SR) (s : State) := laneStep s f.pr (scalarIcvtf f)

/-- fclass raises no flag; NF must be 0 (R295, R304). -/
def scalarFclass (f : SR) (cu : Cursor) (c : Core) : LM Core := do
  need cu (decide (f.fn.toNat ≤ 2) && f.sb = 0 && f.nf = 0)
  let t := fmtOfCode f.fn.toNat
  let (a, c) ← resolveS cu f.sa c
  writeS cu f.dst f.ws 4 (BitVec.ofNat 64 (fclass t (lowBits t a))) c
def execFclass (f : SR) (s : State) := laneStep s f.pr (scalarFclass f)

/-- fcmp: type in DST[6:5], g register in DST[4:0] (R300). -/
def scalarFcmp (f : SR) (cu : Cursor) (c : Core) : LM Core := do
  let t := f.dst.toNat / 32
  need cu (decide (t ≤ 2))
  let (a, c) ← resolveS cu f.sa c
  let (b, c) ← resolveS cu f.sb c
  let ft := fmtOfCode t
  let (r, fl) := fcmpCond ft f.fn.toNat (lowBits ft a) (lowBits ft b)
  .ok (emitFlags cu 4 f.nf [(0, fl)] (writeG cu (f.dst.toNat % 32) f.ws 4 r c))
def execFcmp (f : SR) (s : State) := laneStep s f.pr (scalarFcmp f)

end Sys2Proof.Machine
end

