-- ==== Sys2Proof/Machine/VecPerm.lean ====
section
/-! DEFINITION. Permutations (R327). -/
namespace Sys2Proof.Machine

/-- A permutation of form VR whose result merges under EP: `g a b n i` is result element i. -/
def vecPerm (f : VR) (fnMax : Nat) (unary : Bool) (g : Nat → VWord → VWord → Nat → Nat) (cu : Cursor) (c : Core) : LM Core := do
  need cu (decide (f.ty.toNat ≤ 11) && f.nf = 0 && decide (f.fn.toNat ≤ fnMax) && (!unary || f.sb = 0))
  let w := tyWidth f.ty.toNat
  let (a, c) ← resolveV cu f.sa c
  let (b, c) ← if unary then .ok (0, c) else resolveV cu f.sb c
  writeV cu f.dst f.ws 2 w (buildV w (g w a b)) (spread w (epMask c f.ep)) c

/-- Element of the concatenation a ‖ b with E elements each. -/
def catElem (w : Nat) (a b : VWord) (i : Nat) : Nat :=
  if i < 4096 / w then elem w a.toNat i else elem w b.toNat (i - 4096 / w)

def execZip (f : VR) (s : State) := laneStep s f.pr (vecPerm f 1 false fun w a b i =>
  let h := f.fn.toNat * (4096 / w / 2)
  elem w (if i % 2 = 0 then a else b).toNat (h + i / 2))
def execUnzip (f : VR) (s : State) := laneStep s f.pr (vecPerm f 1 false fun w a b i => catElem w a b (2 * i + f.fn.toNat))
def execSlide (f : VR) (s : State) := laneStep s f.pr (vecPerm f 15 false fun w a b i => catElem w a b (i + f.fn.toNat))
def execVRot (f : VR) (s : State) := laneStep s f.pr (vecPerm f 0 false fun w a b i =>
  elem w a.toNat ((i + b.toNat % 2 ^ 32) % (4096 / w)))
def execSplat (f : VR) (s : State) := laneStep s f.pr (vecPerm f 0 false fun w a b _ =>
  elem w a.toNat (b.toNat % 2 ^ 32 % (4096 / w)))
def execRev (f : VR) (s : State) := laneStep s f.pr (vecPerm f 0 true fun w a _ i => elem w a.toNat (4096 / w - 1 - i))

/-- ins and ext write the whole register; EP must be 0 (R327). -/
def vecInsExt (f : VR) (g : Nat → VWord → VWord → Nat → Nat) (cu : Cursor) (c : Core) : LM Core := do
  need cu (decide (f.ty.toNat ≤ 11) && f.nf = 0 && f.fn = 0 && f.ep = 0)
  let w := tyWidth f.ty.toNat
  let (a, c) ← resolveV cu f.sa c
  let (b, c) ← resolveV cu f.sb c
  writeV cu f.dst f.ws 2 w (buildV w (g w a b)) (-1) c
def execVIns (f : VR) (s : State) := laneStep s f.pr (vecInsExt f fun w a b i =>
  if i = b.toNat / 2 ^ 32 % 2 ^ 32 % (4096 / w) then b.toNat % 2 ^ w else elem w a.toNat i)
def execVExt (f : VR) (s : State) := laneStep s f.pr (vecInsExt f fun w a b i =>
  if i = 0 then elem w a.toNat (b.toNat % 2 ^ 32 % (4096 / w)) else 0)

/-- compress and expand: EP selects (R327). -/
def vecPack (f : VR) (g : Nat → (Nat → Bool) → VWord → VWord) (cu : Cursor) (c : Core) : LM Core := do
  need cu (decide (f.ty.toNat ≤ 11) && f.nf = 0 && f.fn = 0 && f.sb = 0)
  let w := tyWidth f.ty.toNat
  let (a, c) ← resolveV cu f.sa c
  let p := epMask c f.ep
  writeV cu f.dst f.ws 2 w (g w (fun i => p.getLsbD i) a) (-1) c
def compressV (w : Nat) (sel : Nat → Bool) (a : VWord) : VWord :=
  let l := ((List.range (4096 / w)).filter sel).map fun i => elem w a.toNat i
  buildV w fun i => l.getD i 0
def expandV (w : Nat) (sel : Nat → Bool) (a : VWord) : VWord :=
  buildV w fun i => if sel i then elem w a.toNat ((List.range i).filter sel).length else 0
def execCompress (f : VR) (s : State) := laneStep s f.pr (vecPack f compressV)
def execExpand (f : VR) (s : State) := laneStep s f.pr (vecPack f expandV)

/-- perm: 16-bit granules of a ‖ b by the granules of c (R327). -/
def vecPermG (f : VT) (cu : Cursor) (c : Core) : LM Core := do
  need cu (f.nf = 0 && f.rsvd = 0)
  let (a, c) ← resolveV cu f.sa c
  let (b, c) ← resolveV cu f.sb c
  let (x, c) ← resolveV cu f.sc c
  let r := buildV 16 fun i =>
    let k := elem 16 x.toNat i
    if k ≥ 2 ^ 15 then 0 else catElem 16 a b (k % 512)
  writeV cu f.dst f.ws 2 16 r (spread 16 (epMask c f.ep)) c
def execPerm (f : VT) (s : State) := laneStep s f.pr (vecPermG f)

end Sys2Proof.Machine
end

