-- ==== Sys2Proof/Machine/Dispatch.lean ====
section
/-! DEFINITION. `exec`: one arm per instruction, each a direct call of its meaning. -/
namespace Sys2Proof.Machine

def exec (i : Instr) (s : State) : Host.Outcome State Fault Refusal :=
  match i with
  | .powerOnReset => Sys2Proof.Machine.execPowerOnReset s
  | .bringupStageEnd bad fail => Sys2Proof.Machine.execBringupStageEnd bad fail s
  | .pwrmodeWrite v => Sys2Proof.Machine.execPwrmodeWrite v s
  | .throttleWindowStart => Sys2Proof.Machine.execThrottleWindowStart s
  | .thermalSample t => Sys2Proof.Machine.execThermalSample t s
  | .registerWrite port off n v => Sys2Proof.Machine.execRegisterWrite port off n v s
  | .timeSyncSend => Sys2Proof.Machine.execTimeSyncSend s
  | .timeSyncReceive x t1 t2 t3 t4 => Sys2Proof.Machine.execTimeSyncReceive x t1 t2 t3 t4 s
  | .flitReceive die unit port err ext => Sys2Proof.Machine.execFlitReceive die unit port err ext s
  | .flitSend die unit port => Sys2Proof.Machine.execFlitSend die unit port s
  | .slotmiss die unit port => Sys2Proof.Machine.execSlotmiss die unit port s
  | .linkTrainingComplete die link lat => Sys2Proof.Machine.execLinkTrainingComplete die link lat s
  | .linkTrainingFailure die link => Sys2Proof.Machine.execLinkTrainingFailure die link s
  | .linkRetrain die link => Sys2Proof.Machine.execLinkRetrain die link s
  | .linkstatRetry die link => Sys2Proof.Machine.execLinkstatRetry die link s
  | .linkWake die link => Sys2Proof.Machine.execLinkWake die link s
  | .slotTableLoadArrive k => Sys2Proof.Machine.execSlotTableLoadArrive k s
  | .slotTableActivate die target => Sys2Proof.Machine.execSlotTableActivate die target s
  | .slotTableLoadAnswer k => Sys2Proof.Machine.execSlotTableLoadAnswer k s
  | .packetReceive die p => Sys2Proof.Machine.execPacketReceive die p s
  | .heldWriteApply die k => Sys2Proof.Machine.execHeldWriteApply die k s
  | .escapeChannelMove die unit k => Sys2Proof.Machine.execEscapeChannelMove die unit k s
  | .frontierFlitSend die link => Sys2Proof.Machine.execFrontierFlitSend die link s
  | .frontierFlitReceive die entries => Sys2Proof.Machine.execFrontierFlitReceive die entries s
  | .writeAcknowledgement die seq nack => Sys2Proof.Machine.execWriteAcknowledgement die seq nack s
  | .domcfgWrite v => Sys2Proof.Machine.execDomcfgWrite v s
  | .queueEnable q => Sys2Proof.Machine.execQueueEnable q s
  | .queueDisable q => Sys2Proof.Machine.execQueueDisable q s
  | .queueDoorbell q v => Sys2Proof.Machine.execQueueDoorbell q v s
  | .hostWindowRead h => Sys2Proof.Machine.execHostWindowRead h s
  | .hostWindowWrite h => Sys2Proof.Machine.execHostWindowWrite h s
  | .hostAtomicop h op cmp => Sys2Proof.Machine.execHostAtomicop h op cmp s
  | .hostHdmAccess port hpa wr n v => Sys2Proof.Machine.execHostHdmAccess port hpa wr n v s
  | .hdmcfgWrite port v => Sys2Proof.Machine.execHdmcfgWrite port v s
  | .shootdownStart v => Sys2Proof.Machine.execShootdownStart v s
  | .shootdownComplete => Sys2Proof.Machine.execShootdownComplete s
  | .atsInvalidate port pasid lo hi => Sys2Proof.Machine.execAtsInvalidate port pasid lo hi s
  | .atsInvalidateComplete k => Sys2Proof.Machine.execAtsInvalidateComplete k s
  | .translationWalkComplete core id => Sys2Proof.Machine.execTranslationWalkComplete core id s
  | .frzctlResume v => Sys2Proof.Machine.execFrzctlResume v s
  | .frzctlKill v => Sys2Proof.Machine.execFrzctlKill v s
  | .keyLoad v => Sys2Proof.Machine.execKeyLoad v s
  | .keyGen v => Sys2Proof.Machine.execKeyGen v s
  | .keyPlain v => Sys2Proof.Machine.execKeyPlain v s
  | .keyDestroy v => Sys2Proof.Machine.execKeyDestroy v s
  | .keyDestroyDrainEnd slot => Sys2Proof.Machine.execKeyDestroyDrainEnd slot s
  | .keyQuery v => Sys2Proof.Machine.execKeyQuery v s
  | .fwctlFuse => Sys2Proof.Machine.execFwctlFuse s
  | .fwctlFuseDone => Sys2Proof.Machine.execFwctlFuseDone s
  | .getVersion port => Sys2Proof.Machine.execGetVersion port s
  | .getCapabilities port => Sys2Proof.Machine.execGetCapabilities port s
  | .negotiateAlgorithms port => Sys2Proof.Machine.execNegotiateAlgorithms port s
  | .getDigests port => Sys2Proof.Machine.execGetDigests port s
  | .getCertificate port slot off len => Sys2Proof.Machine.execGetCertificate port slot off len s
  | .challenge port slot nonce => Sys2Proof.Machine.execChallenge port slot nonce s
  | .getMeasurements port index nonce => Sys2Proof.Machine.execGetMeasurements port index nonce s
  | .spdmUnsupportedRequest port => Sys2Proof.Machine.execSpdmUnsupportedRequest port s
  | .queueService q => Sys2Proof.Machine.execQueueService q s
  | .queueAccessReturn q => Sys2Proof.Machine.execQueueAccessReturn q s
  | .interruptSend die => Sys2Proof.Machine.execInterruptSend die s
  | .effectiveClassAge l => Sys2Proof.Machine.execEffectiveClassAge l s
  | .admissionWindow die => Sys2Proof.Machine.execAdmissionWindow die s
  | .stealGrantReceive l die lo hi => Sys2Proof.Machine.execStealGrantReceive l die lo hi s
  | .launchLoadComplete l => Sys2Proof.Machine.execLaunchLoadComplete l s
  | .coreRelease l die => Sys2Proof.Machine.execCoreRelease l die s
  | .taskTake core => Sys2Proof.Machine.execTaskTake core s
  | .joinComplete core => Sys2Proof.Machine.execJoinComplete core s
  | .traceRecordWrite die => Sys2Proof.Machine.execTraceRecordWrite die s
  | .bundleFetch core => Sys2Proof.Machine.execBundleFetch core s
  | .resultWriteback core => Sys2Proof.Machine.execResultWriteback core s
  | .loadLanding core => Sys2Proof.Machine.execLoadLanding core s
  | .dataArrival core => Sys2Proof.Machine.execDataArrival core s
  | .bobbinFull core => Sys2Proof.Machine.execBobbinFull core s
  | .loopBack core => Sys2Proof.Machine.execLoopBack core s
  | .streamPortFetch core port => Sys2Proof.Machine.execStreamPortFetch core port s
  | .streamPortDrain core port => Sys2Proof.Machine.execStreamPortDrain core port s
  | .channelWordArrive core ch w => Sys2Proof.Machine.execChannelWordArrive core ch w s
  | .segmentCommit core => Sys2Proof.Machine.execSegmentCommit core s
  | .fenceConditionMet core => Sys2Proof.Machine.execFenceConditionMet core s
  | .rollbackComplete core => Sys2Proof.Machine.execRollbackComplete core s
  | .cowLockAcquire core => Sys2Proof.Machine.execCowLockAcquire core s
  | .detectedError core loc => Sys2Proof.Machine.execDetectedError core loc s
  | .rerunPairCompare core => Sys2Proof.Machine.execRerunPairCompare core s
  | .preemptSave core => Sys2Proof.Machine.execPreemptSave core s
  | .tileFetch core port => Sys2Proof.Machine.execTileFetch core port s
  | .weightStoreRefresh die bank => Sys2Proof.Machine.execWeightStoreRefresh die bank s
  | .accessPerformedAtHome id => Sys2Proof.Machine.execAccessPerformedAtHome id s
  | .sinterTrapFreeze k => Sys2Proof.Machine.execSinterTrapFreeze k s
  | .relayoutStart k => Sys2Proof.Machine.execRelayoutStart k s
  | .tileConvert die eng => Sys2Proof.Machine.execTileConvert die eng s
  | .relayoutComplete k => Sys2Proof.Machine.execRelayoutComplete k s
  | .reshardPlan k => Sys2Proof.Machine.execReshardPlan k s
  | .reshardPiece die eng => Sys2Proof.Machine.execReshardPiece die eng s
  | .reshardComplete k => Sys2Proof.Machine.execReshardComplete k s
  | .shuttleCommandStart core => Sys2Proof.Machine.execShuttleCommandStart core s
  | .shuttleCommandComplete core ch id => Sys2Proof.Machine.execShuttleCommandComplete core ch id s
  | .ventFire die t => Sys2Proof.Machine.execVentFire die t s
  | .ventContributionReceive die k => Sys2Proof.Machine.execVentContributionReceive die k s
  | .ventContributionApply die t => Sys2Proof.Machine.execVentContributionApply die t s
  | .ventGroupUpdate k => Sys2Proof.Machine.execVentGroupUpdate k s
  | .cmdNop f => Sys2Proof.Machine.execCmdNop f s
  | .cmdLi f => Sys2Proof.Machine.execCmdLi f s
  | .cmdLih f => Sys2Proof.Machine.execCmdLih f s
  | .cmdAdd f => Sys2Proof.Machine.execCmdAdd f s
  | .cmdSub f => Sys2Proof.Machine.execCmdSub f s
  | .cmdAnd f => Sys2Proof.Machine.execCmdAnd f s
  | .cmdOr f => Sys2Proof.Machine.execCmdOr f s
  | .cmdXor f => Sys2Proof.Machine.execCmdXor f s
  | .cmdShl f => Sys2Proof.Machine.execCmdShl f s
  | .cmdShr f => Sys2Proof.Machine.execCmdShr f s
  | .cmdSra f => Sys2Proof.Machine.execCmdSra f s
  | .cmdMin f => Sys2Proof.Machine.execCmdMin f s
  | .cmdMax f => Sys2Proof.Machine.execCmdMax f s
  | .cmdAddi f => Sys2Proof.Machine.execCmdAddi f s
  | .cmdSubi f => Sys2Proof.Machine.execCmdSubi f s
  | .cmdAndi f => Sys2Proof.Machine.execCmdAndi f s
  | .cmdOri f => Sys2Proof.Machine.execCmdOri f s
  | .cmdXori f => Sys2Proof.Machine.execCmdXori f s
  | .cmdShli f => Sys2Proof.Machine.execCmdShli f s
  | .cmdShri f => Sys2Proof.Machine.execCmdShri f s
  | .cmdSrai f => Sys2Proof.Machine.execCmdSrai f s
  | .cmdMini f => Sys2Proof.Machine.execCmdMini f s
  | .cmdMaxi f => Sys2Proof.Machine.execCmdMaxi f s
  | .cmdLd f => Sys2Proof.Machine.execCmdLd f s
  | .cmdSt f => Sys2Proof.Machine.execCmdSt f s
  | .cmdBeq f => Sys2Proof.Machine.execCmdBeq f s
  | .cmdBne f => Sys2Proof.Machine.execCmdBne f s
  | .cmdBlt f => Sys2Proof.Machine.execCmdBlt f s
  | .cmdBge f => Sys2Proof.Machine.execCmdBge f s
  | .cmdBltu f => Sys2Proof.Machine.execCmdBltu f s
  | .cmdBgeu f => Sys2Proof.Machine.execCmdBgeu f s
  | .cmdJmp f => Sys2Proof.Machine.execCmdJmp f s
  | .cmdCall f => Sys2Proof.Machine.execCmdCall f s
  | .cmdRet f => Sys2Proof.Machine.execCmdRet f s
  | .cmdLoop f => Sys2Proof.Machine.execCmdLoop f s
  | .cmdSigSet f => Sys2Proof.Machine.execCmdSigSet f s
  | .cmdSigAdd f => Sys2Proof.Machine.execCmdSigAdd f s
  | .cmdSigSub f => Sys2Proof.Machine.execCmdSigSub f s
  | .cmdSigMax f => Sys2Proof.Machine.execCmdSigMax f s
  | .cmdSigMin f => Sys2Proof.Machine.execCmdSigMin f s
  | .cmdWaitAll f => Sys2Proof.Machine.execCmdWaitAll f s
  | .cmdWaitAny f => Sys2Proof.Machine.execCmdWaitAny f s
  | .cmdGtcwait f => Sys2Proof.Machine.execCmdGtcwait f s
  | .cmdOnabt f => Sys2Proof.Machine.execCmdOnabt f s
  | .cmdAbort f => Sys2Proof.Machine.execCmdAbort f s
  | .cmdLaunch f => Sys2Proof.Machine.execCmdLaunch f s
  | .cmdLaunchN f => Sys2Proof.Machine.execCmdLaunchN f s
  | .cmdCopy f => Sys2Proof.Machine.execCmdCopy f s
  | .cmdFill f => Sys2Proof.Machine.execCmdFill f s
  | .cmdShootdn f => Sys2Proof.Machine.execCmdShootdn f s
  | .cmdNotify f => Sys2Proof.Machine.execCmdNotify f s
  | .cmdSlotld f => Sys2Proof.Machine.execCmdSlotld f s
  | .cmdRdgtc f => Sys2Proof.Machine.execCmdRdgtc f s
  | .cmdFlush f => Sys2Proof.Machine.execCmdFlush f s
  | .add f => Sys2Proof.Machine.execAdd f s
  | .sub f => Sys2Proof.Machine.execSub f s
  | .and f => Sys2Proof.Machine.execAnd f s
  | .or f => Sys2Proof.Machine.execOr f s
  | .xor f => Sys2Proof.Machine.execXor f s
  | .andn f => Sys2Proof.Machine.execAndn f s
  | .shl f => Sys2Proof.Machine.execShl f s
  | .shr f => Sys2Proof.Machine.execShr f s
  | .sra f => Sys2Proof.Machine.execSra f s
  | .rotl f => Sys2Proof.Machine.execRotl f s
  | .min f => Sys2Proof.Machine.execMin f s
  | .max f => Sys2Proof.Machine.execMax f s
  | .minu f => Sys2Proof.Machine.execMinu f s
  | .maxu f => Sys2Proof.Machine.execMaxu f s
  | .mov f => Sys2Proof.Machine.execMov f s
  | .mul f => Sys2Proof.Machine.execMul f s
  | .mulh f => Sys2Proof.Machine.execMulh f s
  | .mulhu f => Sys2Proof.Machine.execMulhu f s
  | .div f => Sys2Proof.Machine.execDiv f s
  | .divu f => Sys2Proof.Machine.execDivu f s
  | .rem f => Sys2Proof.Machine.execRem f s
  | .remu f => Sys2Proof.Machine.execRemu f s
  | .clz f => Sys2Proof.Machine.execClz f s
  | .ctz f => Sys2Proof.Machine.execCtz f s
  | .popc f => Sys2Proof.Machine.execPopc f s
  | .sext f => Sys2Proof.Machine.execSext f s
  | .zext f => Sys2Proof.Machine.execZext f s
  | .sel f => Sys2Proof.Machine.execSel f s
  | .abs f => Sys2Proof.Machine.execAbs f s
  | .neg f => Sys2Proof.Machine.execNeg f s
  | .bswap f => Sys2Proof.Machine.execBswap f s
  | .addi f => Sys2Proof.Machine.execAddi f s
  | .subi f => Sys2Proof.Machine.execSubi f s
  | .andi f => Sys2Proof.Machine.execAndi f s
  | .ori f => Sys2Proof.Machine.execOri f s
  | .xori f => Sys2Proof.Machine.execXori f s
  | .andni f => Sys2Proof.Machine.execAndni f s
  | .shli f => Sys2Proof.Machine.execShli f s
  | .shri f => Sys2Proof.Machine.execShri f s
  | .srai f => Sys2Proof.Machine.execSrai f s
  | .rotli f => Sys2Proof.Machine.execRotli f s
  | .mini f => Sys2Proof.Machine.execMini f s
  | .maxi f => Sys2Proof.Machine.execMaxi f s
  | .minui f => Sys2Proof.Machine.execMinui f s
  | .maxui f => Sys2Proof.Machine.execMaxui f s
  | .li f => Sys2Proof.Machine.execLi f s
  | .lis f => Sys2Proof.Machine.execLis f s
  | .cmp f => Sys2Proof.Machine.execCmp f s
  | .cmpu f => Sys2Proof.Machine.execCmpu f s
  | .cmpi f => Sys2Proof.Machine.execCmpi f s
  | .fcmp f => Sys2Proof.Machine.execFcmp f s
  | .fadd f => Sys2Proof.Machine.execFadd f s
  | .fsub f => Sys2Proof.Machine.execFsub f s
  | .fmul f => Sys2Proof.Machine.execFmul f s
  | .fdiv f => Sys2Proof.Machine.execFdiv f s
  | .fmin f => Sys2Proof.Machine.execFmin f s
  | .fmax f => Sys2Proof.Machine.execFmax f s
  | .fsqrt f => Sys2Proof.Machine.execFsqrt f s
  | .fabs f => Sys2Proof.Machine.execFabs f s
  | .fneg f => Sys2Proof.Machine.execFneg f s
  | .fcvt f => Sys2Proof.Machine.execFcvt f s
  | .fcvti f => Sys2Proof.Machine.execFcvti f s
  | .icvtf f => Sys2Proof.Machine.execIcvtf f s
  | .fclass f => Sys2Proof.Machine.execFclass f s
  | .gand f => Sys2Proof.Machine.execGand f s
  | .gor f => Sys2Proof.Machine.execGor f s
  | .gxor f => Sys2Proof.Machine.execGxor f s
  | .gandn f => Sys2Proof.Machine.execGandn f s
  | .gset f => Sys2Proof.Machine.execGset f s
  | .csrr f => Sys2Proof.Machine.execCsrr f s
  | .csrw f => Sys2Proof.Machine.execCsrw f s
  | .csrs f => Sys2Proof.Machine.execCsrs f s
  | .csrc f => Sys2Proof.Machine.execCsrc f s
  | .br f => Sys2Proof.Machine.execBr f s
  | .call f => Sys2Proof.Machine.execCall f s
  | .ret f => Sys2Proof.Machine.execRet f s
  | .loop f => Sys2Proof.Machine.execLoop f s
  | .rloop f => Sys2Proof.Machine.execRloop f s
  | .lbreak f => Sys2Proof.Machine.execLbreak f s
  | .spawn f => Sys2Proof.Machine.execSpawn f s
  | .join f => Sys2Proof.Machine.execJoin f s
  | .exit f => Sys2Proof.Machine.execExit f s
  | .exitab f => Sys2Proof.Machine.execExitab f s
  | .trap f => Sys2Proof.Machine.execTrap f s
  | .uiret f => Sys2Proof.Machine.execUiret f s
  | .slotld f => Sys2Proof.Machine.execSlotld f s
  | .vAdd f => Sys2Proof.Machine.execVAdd f s
  | .vSub f => Sys2Proof.Machine.execVSub f s
  | .vAnd f => Sys2Proof.Machine.execVAnd f s
  | .vOr f => Sys2Proof.Machine.execVOr f s
  | .vXor f => Sys2Proof.Machine.execVXor f s
  | .vAndn f => Sys2Proof.Machine.execVAndn f s
  | .vShl f => Sys2Proof.Machine.execVShl f s
  | .vShr f => Sys2Proof.Machine.execVShr f s
  | .vSra f => Sys2Proof.Machine.execVSra f s
  | .vMin f => Sys2Proof.Machine.execVMin f s
  | .vMax f => Sys2Proof.Machine.execVMax f s
  | .vMinu f => Sys2Proof.Machine.execVMinu f s
  | .vMaxu f => Sys2Proof.Machine.execVMaxu f s
  | .vMul f => Sys2Proof.Machine.execVMul f s
  | .vMulh f => Sys2Proof.Machine.execVMulh f s
  | .vAdds f => Sys2Proof.Machine.execVAdds f s
  | .vSubs f => Sys2Proof.Machine.execVSubs f s
  | .vAddsu f => Sys2Proof.Machine.execVAddsu f s
  | .vSubsu f => Sys2Proof.Machine.execVSubsu f s
  | .vAbs f => Sys2Proof.Machine.execVAbs f s
  | .vNeg f => Sys2Proof.Machine.execVNeg f s
  | .vClz f => Sys2Proof.Machine.execVClz f s
  | .vPopc f => Sys2Proof.Machine.execVPopc f s
  | .vMov f => Sys2Proof.Machine.execVMov f s
  | .vBcast f => Sys2Proof.Machine.execVBcast f s
  | .vSel f => Sys2Proof.Machine.execVSel f s
  | .vAddi f => Sys2Proof.Machine.execVAddi f s
  | .vSubi f => Sys2Proof.Machine.execVSubi f s
  | .vAndi f => Sys2Proof.Machine.execVAndi f s
  | .vOri f => Sys2Proof.Machine.execVOri f s
  | .vXori f => Sys2Proof.Machine.execVXori f s
  | .vAndni f => Sys2Proof.Machine.execVAndni f s
  | .vShli f => Sys2Proof.Machine.execVShli f s
  | .vShri f => Sys2Proof.Machine.execVShri f s
  | .vSrai f => Sys2Proof.Machine.execVSrai f s
  | .vMini f => Sys2Proof.Machine.execVMini f s
  | .vMaxi f => Sys2Proof.Machine.execVMaxi f s
  | .vMulli f => Sys2Proof.Machine.execVMulli f s
  | .vAddF f => Sys2Proof.Machine.execVAddF f s
  | .vSubF f => Sys2Proof.Machine.execVSubF f s
  | .vMulF f => Sys2Proof.Machine.execVMulF f s
  | .vMinF f => Sys2Proof.Machine.execVMinF f s
  | .vMaxF f => Sys2Proof.Machine.execVMaxF f s
  | .vAbsF f => Sys2Proof.Machine.execVAbsF f s
  | .vNegF f => Sys2Proof.Machine.execVNegF f s
  | .vFmaF32 f => Sys2Proof.Machine.execVFmaF32 f s
  | .vFmaF16 f => Sys2Proof.Machine.execVFmaF16 f s
  | .vFmaBf16 f => Sys2Proof.Machine.execVFmaBf16 f s
  | .vFmsF32 f => Sys2Proof.Machine.execVFmsF32 f s
  | .vFmsF16 f => Sys2Proof.Machine.execVFmsF16 f s
  | .vFmsBf16 f => Sys2Proof.Machine.execVFmsBf16 f s
  | .vCmp f => Sys2Proof.Machine.execVCmp f s
  | .vCmpu f => Sys2Proof.Machine.execVCmpu f s
  | .vFcmp f => Sys2Proof.Machine.execVFcmp f s
  | .vCmpi f => Sys2Proof.Machine.execVCmpi f s
  | .pand f => Sys2Proof.Machine.execPand f s
  | .por f => Sys2Proof.Machine.execPor f s
  | .pxor f => Sys2Proof.Machine.execPxor f s
  | .pandn f => Sys2Proof.Machine.execPandn f s
  | .pset f => Sys2Proof.Machine.execPset f s
  | .pfirst f => Sys2Proof.Machine.execPfirst f s
  | .pcount f => Sys2Proof.Machine.execPcount f s
  | .cvt f => Sys2Proof.Machine.execCvt f s
  | .widen f => Sys2Proof.Machine.execWiden f s
  | .narrow f => Sys2Proof.Machine.execNarrow f s
  | .vq8 f => Sys2Proof.Machine.execVq8 f s
  | .vdq8 f => Sys2Proof.Machine.execVdq8 f s
  | .mxq f => Sys2Proof.Machine.execMxq f s
  | .wadd f => Sys2Proof.Machine.execWadd f s
  | .wmul f => Sys2Proof.Machine.execWmul f s
  | .perm f => Sys2Proof.Machine.execPerm f s
  | .zip f => Sys2Proof.Machine.execZip f s
  | .unzip f => Sys2Proof.Machine.execUnzip f s
  | .slide f => Sys2Proof.Machine.execSlide f s
  | .vRot f => Sys2Proof.Machine.execVRot f s
  | .splat f => Sys2Proof.Machine.execSplat f s
  | .vIns f => Sys2Proof.Machine.execVIns f s
  | .vExt f => Sys2Proof.Machine.execVExt f s
  | .compress f => Sys2Proof.Machine.execCompress f s
  | .expand f => Sys2Proof.Machine.execExpand f s
  | .rev f => Sys2Proof.Machine.execRev f s
  | .rsum f => Sys2Proof.Machine.execRsum f s
  | .rmax f => Sys2Proof.Machine.execRmax f s
  | .rmin f => Sys2Proof.Machine.execRmin f s
  | .rmaxu f => Sys2Proof.Machine.execRmaxu f s
  | .rminu f => Sys2Proof.Machine.execRminu f s
  | .rand f => Sys2Proof.Machine.execRand f s
  | .ror f => Sys2Proof.Machine.execRor f s
  | .rargmax f => Sys2Proof.Machine.execRargmax f s
  | .ard f => Sys2Proof.Machine.execArd f s
  | .awr f => Sys2Proof.Machine.execAwr f s
  | .aadd f => Sys2Proof.Machine.execAadd f s
  | .amax f => Sys2Proof.Machine.execAmax f s
  | .ascl f => Sys2Proof.Machine.execAscl f s
  | .vrsqs f => Sys2Proof.Machine.execVrsqs f s
  | .vrcps f => Sys2Proof.Machine.execVrcps f s
  | .vexp2 f => Sys2Proof.Machine.execVexp2 f s
  | .vlog2 f => Sys2Proof.Machine.execVlog2 f s
  | .vlse f => Sys2Proof.Machine.execVlse f s
  | .vtanh f => Sys2Proof.Machine.execVtanh f s
  | .vsigm f => Sys2Proof.Machine.execVsigm f s
  | .vsqrt f => Sys2Proof.Machine.execVsqrt f s
  | .vdrawF32 f => Sys2Proof.Machine.execVdrawF32 f s
  | .vdrawF16 f => Sys2Proof.Machine.execVdrawF16 f s
  | .vdrawBf16 f => Sys2Proof.Machine.execVdrawBf16 f s
  | .vdrawm f => Sys2Proof.Machine.execVdrawm f s
  | .mpush f => Sys2Proof.Machine.execMpush f s
  | .mscaleA f => Sys2Proof.Machine.execMscaleA f s
  | .mscaleB f => Sys2Proof.Machine.execMscaleB f s
  | .macc f => Sys2Proof.Machine.execMacc f s
  | .mshift f => Sys2Proof.Machine.execMshift f s
  | .mdrain f => Sys2Proof.Machine.execMdrain f s
  | .mzero f => Sys2Proof.Machine.execMzero f s
  | .mcfg f => Sys2Proof.Machine.execMcfg f s
  | .ldI8 f => Sys2Proof.Machine.execLdI8 f s
  | .ldI16 f => Sys2Proof.Machine.execLdI16 f s
  | .ldI32 f => Sys2Proof.Machine.execLdI32 f s
  | .ldI64 f => Sys2Proof.Machine.execLdI64 f s
  | .ldN8 f => Sys2Proof.Machine.execLdN8 f s
  | .ldN16 f => Sys2Proof.Machine.execLdN16 f s
  | .ldN32 f => Sys2Proof.Machine.execLdN32 f s
  | .stB8 f => Sys2Proof.Machine.execStB8 f s
  | .stB16 f => Sys2Proof.Machine.execStB16 f s
  | .stB32 f => Sys2Proof.Machine.execStB32 f s
  | .stB64 f => Sys2Proof.Machine.execStB64 f s
  | .vld f => Sys2Proof.Machine.execVld f s
  | .vst f => Sys2Proof.Machine.execVst f s
  | .vldb f => Sys2Proof.Machine.execVldb f s
  | .ldacq f => Sys2Proof.Machine.execLdacq f s
  | .vldx f => Sys2Proof.Machine.execVldx f s
  | .vstx f => Sys2Proof.Machine.execVstx f s
  | .gather f => Sys2Proof.Machine.execGather f s
  | .scatter f => Sys2Proof.Machine.execScatter f s
  | .tld f => Sys2Proof.Machine.execTld f s
  | .tst f => Sys2Proof.Machine.execTst f s
  | .dld f => Sys2Proof.Machine.execDld f s
  | .devict f => Sys2Proof.Machine.execDevict f s
  | .relay f => Sys2Proof.Machine.execRelay f s
  | .reshard f => Sys2Proof.Machine.execReshard f s
  | .dget f => Sys2Proof.Machine.execDget f s
  | .tfcfg f => Sys2Proof.Machine.execTfcfg f s
  | .strel f => Sys2Proof.Machine.execStrel f s
  | .sbind f => Sys2Proof.Machine.execSbind f s
  | .sunbind f => Sys2Proof.Machine.execSunbind f s
  | .spos f => Sys2Proof.Machine.execSpos f s
  | .cbind f => Sys2Proof.Machine.execCbind f s
  | .cunbind f => Sys2Proof.Machine.execCunbind f s
  | .sfill f => Sys2Proof.Machine.execSfill f s
  | .copy f => Sys2Proof.Machine.execCopy f s
  | .fill f => Sys2Proof.Machine.execFill f s
  | .acc f => Sys2Proof.Machine.execAcc f s
  | .accr f => Sys2Proof.Machine.execAccr f s
  | .sigw f => Sys2Proof.Machine.execSigw f s
  | .chdone f => Sys2Proof.Machine.execChdone f s
  | .ventset f => Sys2Proof.Machine.execVentset f s
  | .ventrdy f => Sys2Proof.Machine.execVentrdy f s
  | .ventgrp f => Sys2Proof.Machine.execVentgrp f s
  | .fence f => Sys2Proof.Machine.execFence f s
  | .fencex f => Sys2Proof.Machine.execFencex f s
  | .flush f => Sys2Proof.Machine.execFlush f s
  | .collmode f => Sys2Proof.Machine.execCollmode f s
  | .emptySlot => Sys2Proof.Machine.execEmptySlot s
  | .powerRemoved => Sys2Proof.Machine.execPowerRemoved s

end Sys2Proof.Machine
end

