-- ==== Sys2Proof/Machine/Sched.lean ====
section
/-! DEFINITION. What happens when: a core's tick, a queue's start points, the events the machine makes by itself, the GTC cycle
(R23, R24, R84, R102, R113, R134, R146, R147). Where the rules leave the order of events within a cycle open, it is the order of
`candidates` (log 60). -/
namespace Sys2Proof.Machine

/-! ### Queues (R54, R81, R83 to R86) -/

/-- Read unit k from a queue's position; none while a home in another module has been asked for it (R54, R90). -/
def unitRead (s : State) (q k : Nat) : Except MFault (Option Nat × State) :=
  let qq := s.queue q
  let t := tlbSpindle (q / 8)
  let ctx := qq.qctx.toNat
  let va := unitVa qq k
  let m := mQ s q qq.where
  match translate s t ctx va .read m with
  | .fault c l e => .error ⟨c, l, e, va⟩
  | .ok ph l e =>
    if ¬ farHome s ph then (vaRead s t ctx va 8 m).map fun r => (some r.1, r.2)
    else match qq.far.find? fun x => x.1 == va with
      | some x => .ok (some x.2.toNat, s)
      | none =>
        if s.xacts.any fun x => x.ret == .unit q va then .ok (none, s)
        else .ok (none, postXact (tlbFill s t ctx va l e) m ctx va 8 .rd ph false (.unit q va))

/-- Units after the header that the ring's TAIL covers, or that the buffer still has. -/
def unitRoom (qq : Queue) : Nat := match qq.stack with | [] => qq.avail - 1 | f :: _ => f.len - f.idx - 1
def inRing (qq : Queue) : Bool := match qq.stack with | [] => true | _ => false

/-- Read n units after the header; none while some of them are on their way. -/
def extUnits (s : State) (q n : Nat) : Except MFault (Option (List Word) × State) :=
  (List.range n).foldlM (fun (acc : Option (List Word) × State) k => (unitRead acc.2 q (k + 1)).map fun r =>
    (match acc.1, r.1 with | some us, some v => some (us ++ [BitVec.ofNat 64 v]) | _, _ => none, r.2)) (some [], s)

/-- The units of the packet at a queue's position: those it read before while R83 held the packet, else read now, once (R54, R90); none
while TAIL does not cover them. In a buffer those past the end are not there. -/
def packetUnits (s : State) (q : Nat) : Except MFault (Option (List Word) × State) :=
  let qq := s.queue q
  match qq.seen with
  | some (w, us) => if w = qq.where then .ok (some us, s) else fresh
  | none => fresh
where
  fresh : Except MFault (Option (List Word) × State) :=
    let qq := s.queue q
    -- a refreshing weight-store bank holds the read (R191)
    if vaHeld s (tlbSpindle (q / 8)) qq.qctx.toNat (unitVa qq 0) 40 (mQ s q qq.where) then .ok (none, s) else
    match unitRead s q 0 with
    | .error e => .error e
    | .ok (none, s) => .ok (none, s)
    | .ok (some h, s) =>
      let h : Word := BitVec.ofNat 64 h
      let xu := unitXu h
      if inRing qq ∧ xu > unitRoom qq then .ok (none, s)
      else (extUnits s q (min xu (unitRoom qq))).map fun r => (r.1.map fun us => h :: us, r.2)

/-- Must a command wait at the queue's position for a way to the tables or the memory that its start comes to, or for a refreshing weight-store
bank (R42, R191)? -/
def cmdHeld (s : State) (q : Nat) (i : Instr) : Bool :=
  let qq := s.queue q
  let t := tlbSpindle (q / 8)
  let ctx := qq.qctx.toNat
  let one := fun (f : Pkt) => walkHeld s t ctx (cmdVa qq f)
  let many := fun (f : Pkt) (n : Nat) => vaHeld s t ctx (qq.reg f.ra.toNat).toNat n (mQ s q qq.where)
  match i with
  | .cmdLd f => one f | .cmdSt f => one f | .cmdNotify f => one f
  | .cmdSigSet f => one f | .cmdSigAdd f => one f | .cmdSigSub f => one f | .cmdSigMax f => one f | .cmdSigMin f => one f
  | .cmdLaunch f => many f 576 | .cmdLaunchN f => many f 576
  | .cmdSlotld f => many f 4096
  | _ => false
/-- What stands at a queue's position and may start now. In the ring a packet waits until TAIL covers it; in a buffer one that runs past
the end is invalid. DESIGN CHOICE (log 112): the units of a packet that R83 holds are read at the first start point at which it stands
there, once; a fault of that read freezes the queue then. -/
def queueHead (s : State) (q : Nat) : AtHead × State :=
  let qq := s.queue q
  if inRing qq ∧ qq.avail = 0 then (.none, s)
  else match packetUnits s q with
    | .error e => (.fault (CFault.of e false), s)
    | .ok (none, s) => (.none, s)
    | .ok (some us, s) =>
      let h := us.headD 0
      let ext := us.drop 1
      let kept := s.setQueue q { s.queue q with seen := some (qq.where, us) }
      if ¬ pktFree qq h ext then (.none, kept)
      else
        let s := dropUnits s q
        match decodeCmd h ext with
        | .badOp => (.fault ⟨32, 7, 0, 0, false⟩, s)
        | .badField => (.fault CFault.bad, s)
        | .ok i => if cmdHeld s q i then (.none, kept) else (.cmd i, s)

/-- A start point: completions are recognised, then what an abort left goes on, or the packet at the position starts if it may. -/
def queuePoint (q : Nat) (s : State) : Host.Outcome State Fault Refusal :=
  let s := recognise s q
  let qq := s.queue q
  if ¬ qq.en ∨ qq.frozen then .next s
  else match qq.abort with
  | some (v, ring) => finish (abortRest s q v ring)
  | none => match queueHead s q with
    | (.none, s) => finish s
    | (.fault e, s) => finish (queueFault s q e.code e.wr e.va e.e e.lvl qq.where)
    | (.cmd i, s) => exec i { s with curQ := q }

/-! ### A core's tick (R134, R146, R147) -/

def isRun (c : Core) : Bool := match c.mode with | .run => true | _ => false

/-- Where lane l of a fetched bundle issues. -/
def laneCursor (s : State) (core l : Nat) (f : Fetched) : Cursor :=
  ⟨core, l, f.seq, f.pos, bundleLate f.bits, f.seq == (s.core core).arch.segK && (s.core core).arch.segCk, f.lit, s.gtc⟩

/-- A checkpoint bundle takes a trap of lane X when any tile has a block phase at its issue there (R268). -/
def phaseTrap (cu : Cursor) (c : Core) : Bool := cu.lane == 8 && cu.ckpt && c.arch.phase != []

/-- Issue the operation of a lane, unless the core has stopped in this tick. -/
noncomputable def runLane (cu : Cursor) (s : State) : Host.Outcome State Fault Refusal :=
  let c := s.core cu.core
  if ¬ isRun c then .next s
  else match c.arch.fetched cu.seq with
    | none => .next s
    | some f =>
      if phaseTrap cu c then .next (s.setCore cu.core (takeTrap cu (Trap.illegal 2 cu.lane) c))
      else match bundleLane f.bits cu.lane with
      | none => .next s
      | some i => exec i { s with cur := cu }

/-- Would an operation of these lanes stop its group? -/
noncomputable def trialLanes (s : State) : List Cursor → Option Stop
  | [] => none
  | cu :: t =>
    match runLane cu s with
    | .next s' => (match (s'.core cu.core).stalled with | some e => some e | none => trialLanes s' t)
    | _ => none

/-- What stops a group that may issue its part. -/
noncomputable def groupStop (s : State) (core : Nat) (g : Grp) : Option Stop :=
  let a := (s.core core).arch
  match a.fetched (a.next g) with
  | none => none
  | some f => if f.bad.isSome then none else trialLanes s ((grpLanes g).map fun l => laneCursor s core l f)

/-- What a tick does: the groups that issue, whether the Bobbin lacks entries, whether a port or channel holds a group. -/
structure TickPlan where
  grps : List Grp
  bob : Bool
  hold : Bool
  /-- an MPUSH waits at an empty tile-fetch port: no hold of R149 or R151 (R153) -/
  tile : Bool
deriving DecidableEq, Repr

/-- May a landing be made? One whose command the open segment still holds is refused where it lands (R384). -/
def landReady (c : Core) (g : Nat) (p : Pend) : Bool :=
  match p.eff with
  | .land id _ _ => arrivedBy c g id || c.arch.cmds.any fun x => x.bob == id && (match x.kind with | .accr => true | _ => false)
  | _ => true

/-- The core as S meets it: where its next bundle is the checkpoint bundle and an M lane of that still has a binding to make, with that binding,
which governs the segment of the bundle (R158, R374). -/
noncomputable def bindAhead (s : State) (core : Nat) : Core :=
  let c := s.core core
  match c.arch.fetched c.arch.nextS with
  | none => c
  | some f =>
    if f.bad.isSome ∨ f.seq ≠ c.arch.segK ∨ ¬ c.arch.segCk ∨ c.arch.nextM > f.seq then c
    else [6, 7].foldl (fun c l =>
      let cu := laneCursor s core l f
      let r := match bundleLane f.bits l with
        | some (.cbind x) => if stagePred c x.pr = some true then some (cbindBody x cu c) else none
        | some (.cunbind x) => if stagePred c x.pr = some true then some (cunbindBody x cu c) else none
        | _ => none
      match r with
      | some (.ok b) => { c with arch := { c.arch with chans := b.arch.chans, brk := b.arch.brk } }
      | _ => c) c
/-- The groups that may issue, each with what stops it. -/
noncomputable def tickStops (s : State) (core : Nat) : List (Grp × Option Stop) :=
  let s := s.setCore core (bindAhead s core)
  (allGrps.filter (groupMay (s.core core))).map fun g => (g, groupStop s core g)
/-- Does a MACC over the limit freeze the core (R14)? -/
noncomputable def tickThrottled (s : State) (core : Nat) : Bool := (tickStops s core).any fun p => p.2 == some .throttle

/-- The plan of a tick; none while a late landing or the MACC throttle freezes the core. -/
noncomputable def tickPlan (s : State) (core : Nat) : Option TickPlan :=
  let c := s.core core
  let a := c.arch
  let stops := tickStops s core
  let go := (stops.filter fun p => p.2.isNone).map fun p => p.1
  if (stops.any fun p => p.2 == some .throttle) ||
      (go.contains .m && a.pend.any fun p => isLand p && decide (p.due ≤ a.nextM) && !landReady c s.gtc p) then none
  else some ⟨go, stops.any fun p => p.2 == some .bobFull, stops.any fun p => p.2 == some .stall, stops.any fun p => p.2 == some .tile⟩

/-- Does a core tick at all: running, no fence held, no commit due, not at the checkpoint where a pre-emption saves it? -/
def mayTick (c : Core) : Bool := isRun c && !c.thrott && c.waits == [] && !atBoundary c && !(c.preempt && atSavePoint c)

/-- Have the landings that are due all their data? -/
def dueReady (c : Core) (g : Nat) : Bool := (dueItems c.arch).all (landReady c g)

/-- A tick begins: the plan is made on what the fetch of this tick brings. -/
noncomputable def coreTick (core : Nat) (s : State) : State :=
  if (s.core core).owes then
    if isRun (s.core core) && dueReady (s.core core) s.gtc then { s with agenda := .endTick core :: s.agenda } else s
  else if ¬ mayTick (s.core core) then s
  else if (s.core core).bobFull.isSome then { s with agenda := .ev (.bobbinFull core) :: s.agenda }
  else
    let s' := s.setCore core (fetchN 4 (s.core core))
    match tickPlan s' core with
    | none => if tickThrottled s' core then s.setCore core { s.core core with thrott := true } else s
    | some _ => { s with agenda := [.ev (.bundleFetch core), .issue core] ++ s.agenda }

/-- The trap of a bundle itself: a bad code index, a literal with an unassigned code or nonzero header bits, the 4 097th bundle. -/
def bundleTrap (c : Core) (f : Fetched) : Option Trap :=
  match f.bad with
  | some sub => some (Trap.core 49 sub 15)
  | none =>
    if f.seq ≥ c.arch.segK + 4096 then some (Trap.core 50 1 15)
    else if f.lit then (bundleFault f.bits).map fun l => Trap.illegal 1 l
    else none

/-- The groups of the plan issue: a bundle's own trap comes first (log 61), then their lanes in the order of Table 6.1. -/
noncomputable def coreIssue (core : Nat) (s : State) : State :=
  match tickPlan s core with
  | none => s
  | some pl =>
    let c := if pl.grps.contains .s then bindAhead s core else s.core core
    let a := c.arch
    let parts := pl.grps.filterMap fun g => (a.fetched (a.next g)).map fun f => (g, f)
    match parts.findSome? fun p => (bundleTrap c p.2).map fun t => (p.2, t) with
    | some (f, t) => s.setCore core (takeTrap (laneCursor s core t.lane f) t c)
    | none =>
      let lanes := parts.flatMap fun p => (grpLanes p.1).map fun l => Todo.lane (laneCursor s core l p.2)
      let c := { c with arch := pl.grps.foldl Arch.advance a, held := c.held || pl.hold || pl.tile, stuck := pl.hold, bobFull := if pl.bob then some a.tick else none }
      { s.setCore core c with agenda := lanes ++ [.count core, .endTick core] ++ s.agenda }

/-- The tick is counted (R16); what lies beyond a control operation is discarded. -/
def coreCount (core : Nat) (s : State) : State :=
  let c := s.core core
  if ¬ isRun c then s
  else
    let a := haltAfter c.arch
    s.setCore core { c with arch := { a with ctk := a.ctk + 1, tick := a.tick + 1 } }

/-- The tick's last moment: the control transfer; and, in the tick in which every group has come past the checkpoint bundle, whether the
handler is entered there (R154). Later ticks do not ask again; a uiret itself does not enter. -/
def tickDone (a : Arch) : Arch :=
  let b := takeCtl a
  let ret := match a.ctl with | some (_, .uiret) => true | _ => false
  if a.lo > a.segK then { b with uiGo := uiEnters b && !ret, segCk := false } else b

/-- The end of a tick: results and landings in order, completed bundles with their loop-backs, the control transfer. A landing the tick
itself issued holds the end of the tick until its data has arrived (R143, R146). -/
def coreEnd (core : Nat) (s : State) : State :=
  let c := s.core core
  if ¬ isRun c then s
  else if ¬ dueReady c s.gtc then s.setCore core { c with owes := true }
  else match dueItems c.arch with
    | p :: _ => { s with agenda := [.ev (if isLand p then .loadLanding core else .resultWriteback core), .endTick core] ++ s.agenda }
    | [] => match headDone c.arch with
      | some f =>
        if loopsHere c.arch f then { s with agenda := [.ev (.loopBack core), .endTick core] ++ s.agenda }
        else { s.setCore core { c with arch := popHead c.arch } with agenda := .endTick core :: s.agenda }
      | none => s.setCore core { c with owes := false, arch := tickDone c.arch }

/-! ### Events the machine makes by itself -/

/-- Does an event change anything now? -/
def effective (s : State) (i : Instr) : Bool := match exec i s with | .next t => decide (t ≠ s) | _ => true

/-- Events of one core. -/
def coreEvents (s : State) (i : Nat) : List Instr :=
  let c := s.core i
  let a := c.arch
  let ch := fun (f : Bool) (l : List Instr) => if f then l else []
  ch (c.transit.any fun t => decide (t.due ≤ s.gtc)) [.dataArrival i] ++
  (match c.mode with | .rolled _ _ => [.rollbackComplete i] | .handler _ _ false _ => [.cowLockAcquire i] | _ => []) ++
  (match walkReady s i with | some id => [.translationWalkComplete i id] | none => []) ++
  ch (c.waits != []) [.fenceConditionMet i] ++
  ch (isRun c) (a.ports.flatMap fun p => ch (p.2.out != []) [.streamPortDrain i p.1] ++ ch (portWants c p.1) [.streamPortFetch i p.1]) ++
  ch (isRun c) (a.tfports.flatMap fun p => ch (tileWants c p.1) [.tileFetch i p.1]) ++
  ch (isRun c && c.waits == [] && atBoundary c) [if c.rerun.isSome then .rerunPairCompare i else .segmentCommit i] ++
  ch (joinReady s i) [.joinComplete i] ++ ch (hasWork s i) [.taskTake i] ++ ch (saveRolls c || saveReady c) [.preemptSave i] ++
  ch (cmdToStart s i).isSome [.shuttleCommandStart i] ++
  c.shq.flatMap fun x => ch (cmdReady s i x) [.shuttleCommandComplete i x.ch x.id] ++
    ch (x.started.isSome && !x.frozen) [.accessPerformedAtHome (moveId i x.ch x.id)]

/-- Units of a die that may have something to send. -/
def sendUnits (s : State) (d : Nat) : List Nat :=
  let y := s.die d
  let a : List Nat := y.routers.map fun (r : Nat × Router) => r.1
  let b : List Nat := y.links.map fun (l : Nat × Link) => 48 + l.1
  let c : List Nat := (s.cores.filter fun (c : Nat × Core) => c.1 / 64 == d && c.2.tx != []).map fun c => c.1 % 64
  (a ++ b ++ c).eraseDups

/-- Events of one die. -/
def dieEvents (s : State) (d : Nat) : List Instr :=
  let y := s.die d
  let ch := fun (f : Bool) (l : List Instr) => if f then l else []
  (y.slotTabs.flatMap fun t => match nextTab t.2.next with | some (g, _) => ch (decide (g ≤ s.gtc)) [.slotTableActivate d t.1] | none => []) ++
  (y.links.flatMap fun l =>
    (match l.2.st, l.2.wakeAt with | .lowpower, some t => ch (decide (t ≤ s.gtc)) [.linkWake d l.1] | _, _ => []) ++
    ch (l.2.st == .active && decide (l.2.replays.length > 64)) [.linkRetrain d l.1]) ++
  ((List.range y.held.length).map fun k => .heldWriteApply d k) ++
  (y.routers.flatMap fun r =>
    (r.2.circ.map fun p => .slotmiss d r.1 p.1) ++
    ((List.range r.2.be.length).filter fun k => match r.2.be[k]? with | some b => !b.esc && decide (b.due + 64 ≤ s.gtc) | none => false).map fun k =>
      .escapeChannelMove d r.1 k) ++
  ((s.cores.filter fun c => c.1 / 64 == d && missedChans s c.1 != []).map fun c => .slotmiss d (c.1 % 64) 4) ++
  ((sendUnits s d).flatMap fun u => (List.range 10).flatMap fun p =>
    let ks := (lanesOf u).map fun n => pickOut s d u p n
    ch (ks.contains .frontier) [.frontierFlitSend d (linkOf u)] ++ ch (ks.any fun k => k != .none && k != .frontier) [.flitSend d u p]) ++
  ((List.range y.ventIn.length).map fun k => .ventContributionReceive d k) ++
  ((y.fires.map fun f => f.1).eraseDups.map fun t => .ventFire d t) ++ (y.ventSt.map fun t => .ventContributionApply d t.1) ++
  ((List.range 4).filter fun e => (pieceFor s d e false).isSome).map (fun e => .tileConvert d e) ++
  ((List.range 8).filter fun e => (pieceFor s d e true).isSome).map (fun e => .reshardPiece d e) ++
  (s.qcopies.filter fun x => x.q / 8 == d).flatMap (fun x =>
    [.shuttleCommandStart (d * 64 + 48), .accessPerformedAtHome (moveId (d * 64 + 48) (x.q % 8) (BitVec.ofNat 32 x.num)),
      .shuttleCommandComplete (d * 64 + 48) (x.q % 8) (BitVec.ofNat 32 x.num)]) ++
  ch (y.trace != []) [.traceRecordWrite d]

/-- Events of the module. -/
def moduleEvents (s : State) : List Instr :=
  let m := s.mod
  ((s.wires.filter fun w => decide (w.due ≤ s.gtc)).map fun w => .flitReceive w.die w.unit w.port .none none) ++
  ((s.xacts.filter (mayPerform s)).map fun x => .accessPerformedAtHome x.id) ++
  ((s.queues.filter fun q => q.2.out.any fun p => match p.w, p.res with | .access, some _ => true | .ask _ _ _, _ => true | .note _ _, _ => true | _, _ => false).map
    fun q => .queueAccessReturn q.1) ++
  ((List.range s.races.length).map fun k => .sinterTrapFreeze k) ++
  (if s.shoots = [] then [] else [.shootdownComplete]) ++ ((List.range s.atsInv.length).map fun k => .atsInvalidateComplete k) ++
  ((m.keys.filter fun k => k.2.st == .destroying).map fun k => .keyDestroyDrainEnd k.1) ++ (if m.fusing then [.fwctlFuseDone] else []) ++
  ((List.range s.slotLoads.length).flatMap fun k => [.slotTableLoadArrive k, .slotTableLoadAnswer k]) ++
  ((List.range s.grpUpd.length).filter fun k => match s.grpUpd[k]? with | some g => decide (g.2.2.2.toNat ≤ s.gtc) | none => false).map (fun k => .ventGroupUpdate k) ++
  ((List.range s.convs.length).flatMap fun k => [.relayoutStart k, .reshardPlan k, .relayoutComplete k, .reshardComplete k]) ++
  (s.launches.filter fun l => l.phase == .loading).map fun l => .launchLoadComplete l.id

/-- Events that may happen now, in the order in which they are taken. -/
def candidates (s : State) : List Instr :=
  moduleEvents s ++ (s.cores.flatMap fun c => coreEvents s c.1) ++ (List.range 8).flatMap (dieEvents s)

/-- The next event the machine makes by itself in this cycle, if there is one. Pins given up are released first. -/
def internal (s : State) : Option (Host.Outcome State Fault Refusal) :=
  match s.cores.find? fun c => c.2.unpins != [] with
  | some c => some (.next (releasePins s c.1))
  | none => ((candidates s).find? (effective s)).map fun i => exec i s

/-! ### The GTC cycle (R23, R24, R102, R113, R191) -/

/-- Weight-store refresh windows that begin or end on a die. -/
def refreshEvents (s : State) (d : Nat) : List Todo :=
  let p := s.gtc % 32768
  let now := (s.die d).wsRefresh
  let b := p / 4096
  if p % 4096 < 512 then (if now = some b then [] else [.ev (.weightStoreRefresh d b)])
  else match now with | some k => [.ev (.weightStoreRefresh d k)] | none => []

/-- What a cycle holds whose GTC is `s.gtc`, the one before having been `old`: windows, service, releases, ticks. -/
def cycleAgenda (old : Nat) (s : State) : List Todo :=
  let g := s.gtc
  let cross := fun k => g / k != old / k
  let ch := fun (f : Bool) (l : List Todo) => if f then l else []
  let d8 := List.range 8
  let w := g / 256 % 16
  ch (cross 4096) (.ev .throttleWindowStart :: (s.launches.filter fun l => isPending l || isReserving l).map fun l => .ev (.effectiveClassAge l.id)) ++
  d8.flatMap (refreshEvents s) ++
  ch (cross 65536) [.ev .timeSyncSend] ++
  ch (cross 256) (d8.map (fun d => .ev (.interruptSend d)) ++
    if w < 8 then d8.map (fun d => .ev (.queueService (8 * d + w))) else d8.map (fun d => .ev (.admissionWindow d))) ++
  ch (cross 8 && decide (w < 8)) (d8.map fun d => .point (8 * d + w)) ++
  (s.launches.filter fun l => decide (l.relT ≤ g) && (match l.phase with | .waiting => true | .running => true | _ => false)).flatMap (fun l =>
    (l.dies.filter fun j => !l.released.contains j).filterMap fun j => (localDie s j).map fun d => .ev (.coreRelease l.id d)) ++
  ((s.launches.filter (toDeliver s)).map fun l => .deliver l.id) ++
  s.cores.map fun c => .tick c.1

/-- The next GTC cycle begins; time synchronisation holds the count once or steps it by two. All dies of the module read one and the same
GTC, though R1 and R23 allow them to differ by one cycle (log 71). -/
def nextCycle (s : State) : State :=
  let n := match s.gtcStep with | 0 => 1 | 1 => 0 | _ => 2
  let t := trainOn { s with gtc := s.gtc + n, gtcStep := 0 }
  { t with agenda := if s.mod.rails then cycleAgenda s.gtc t else [] }

/-! ### Inputs -/

/-- Does the outside world make this event? A flit error on a wire of the module (R35, R37) is one too: the flit then arrives with it. -/
def isInput : Instr → Bool
  | .powerOnReset => true | .powerRemoved => true | .bringupStageEnd _ _ => true | .thermalSample _ => true | .registerWrite _ _ _ _ => true
  | .flitReceive _ _ _ _ (some _) => true | .flitReceive _ _ _ .bad none => true | .flitReceive _ _ _ .corrected none => true
  | .linkTrainingComplete _ _ _ => true | .linkTrainingFailure _ _ => true
  | .hostWindowRead _ => true | .hostWindowWrite _ => true | .hostAtomicop _ _ _ => true | .hostHdmAccess _ _ _ _ _ => true
  | .atsInvalidate _ _ _ _ => true | .detectedError _ _ => true
  | .getVersion _ => true | .getCapabilities _ => true | .negotiateAlgorithms _ => true | .getDigests _ => true
  | .getCertificate _ _ _ _ => true | .challenge _ _ _ => true | .getMeasurements _ _ _ => true | .spdmUnsupportedRequest _ => true
  | _ => false

/-- Does the machine take an input now? With the rails down only power and the temperature reach it (R12, R21). -/
def takesInput (s : State) (i : Instr) : Bool :=
  isInput i && (s.mod.rails || match i with | .powerOnReset => true | .powerRemoved => true | .thermalSample _ => true | _ => false)

/-- The first input that has come and need not wait, with the rest: a host request waits while the module holds it, or an earlier one of its
requester and port (R238). -/
def dueInput (s : State) : List (Nat × Instr) → List (Nat × Instr) → Option (Instr × State)
  | _, [] => none
  | before, (g, i) :: t =>
    let first : Bool := match hostReqOf i with
      | some (h, acc) => !hostHeld s h acc && before.all fun x => match hostReqOf x.2 with | some (y, _) => !(y.port == h.port && y.rid == h.rid) | none => true
      | none => true
    if g ≤ s.gtc ∧ first then some (i, { s with inputs := before ++ t }) else dueInput s (before ++ [(g, i)]) t

/-- Do one thing of the present cycle. -/
noncomputable def doTodo (x : Todo) (s : State) : Host.Outcome State Fault Refusal :=
  match x with
  | .ev i => exec i s
  | .tick c => .next (coreTick c s)
  | .issue c => .next (coreIssue c s)
  | .count c => .next (coreCount c s)
  | .endTick c => .next (coreEnd c s)
  | .lane cu => runLane cu s
  | .point q => queuePoint q s
  | .deliver l => match s.launch l with | some x => if toDeliver s x then finish (launchTry s x) else .next s | none => .next s

end Sys2Proof.Machine
end

