-- ==== Sys2Proof/Machine/Step.lean ====
section
/-! DEFINITION. One step of the machine, and the placing of an instruction where the next step runs it. -/
namespace Sys2Proof.Machine

/-- One step: the next thing of the present cycle; else an input that has come; else an event the machine makes by itself; else the
next cycle. With the rails down only time passes and inputs come. -/
noncomputable def step (s : State) : Host.Outcome State Fault Refusal :=
  match s.agenda with
  | x :: t => doTodo x { s with agenda := t }
  | [] =>
    match dueInput s [] s.inputs with
    | some (i, s) => if takesInput s i then exec i s else .next s
    | none => idleStep s
where
  idleStep (s : State) : Host.Outcome State Fault Refusal :=
    if s.mod.rails then (match internal s with | some r => r | none => .next (nextCycle s)) else .next (nextCycle s)

/-- Lane in which an instruction of so many bits is placed: 24 X, 32 F, 40 S0, 48 V2. -/
def wordLane (nbits : Nat) : Nat := if nbits ≤ 24 then 8 else if nbits ≤ 32 then 5 else if nbits ≤ 40 then 0 else 4

/-- The bundle that holds the bits in that lane; its checkpoint bit is set. -/
def wordBundle (nbits w : Nat) : BitVec 384 :=
  let (lo, n) := laneField (wordLane nbits)
  2#384 ||| (BitVec.ofNat 384 (w % 2 ^ n) <<< lo)

/-- s with the instruction in a fetched bundle of core 0, which runs, and whose lane is the next thing to do (log 62). A command is put at
the head of the cycle for queue 0. -/
noncomputable def State.withFetchWord (s : State) (nbits w : Nat) : State :=
  if nbits ≤ 48 then
    let c := s.core 0
    let a := { c.arch with fq := [⟨0, 0, false, 0, none, wordBundle nbits w, []⟩], fseq := 1, fpos := 1 }
    { s.setCore 0 { c with mode := .run, arch := a } with agenda := [.lane ⟨0, wordLane nbits, 0, 0, 0, true, false, s.gtc⟩] }
  else match decodeTableWord nbits w with
    | some i => { s with curQ := 0, agenda := [.ev i] }
    | none => s

end Sys2Proof.Machine
end

