-- ==== Sys2Proof/Laws/Lane.lean ====
section
/-! SUPPORT. What the gate of a lane operation can do (`laneStep`): one lemma per outcome, and the bind rules of a meaning's body. -/
namespace Sys2Proof.Machine

/-- The predicate holds and the body succeeds: the issuing core becomes what the body leaves. -/
theorem laneStep_acts {s : State} {pr : BitVec 6} {body : Cursor → Core → LM Core} {c' : Core}
    (hp : stagePred (s.core s.cur.core) pr = some true) (hb : body s.cur (s.core s.cur.core) = .ok c') :
    laneStep s pr body = .next (s.setCore s.cur.core c') := by
  simp only [laneStep, hp, hb]

/-- The predicate is 0: nothing changes (R140). -/
theorem laneStep_off {s : State} {pr : BitVec 6} {body : Cursor → Core → LM Core}
    (hp : stagePred (s.core s.cur.core) pr = some false) : laneStep s pr body = .next s := by
  simp only [laneStep, hp]

/-- An invalid PR field traps whatever the predicates hold (R287). -/
theorem laneStep_badPr {s : State} {pr : BitVec 6} {body : Cursor → Core → LM Core}
    (hp : stagePred (s.core s.cur.core) pr = none) :
    laneStep s pr body = .next (s.setCore s.cur.core (takeTrap s.cur (Trap.illegal 2 s.cur.lane) (s.core s.cur.core))) := by
  simp only [laneStep, hp]

/-- The body meets a trap: the core takes it. -/
theorem laneStep_trap {s : State} {pr : BitVec 6} {body : Cursor → Core → LM Core} {t : Trap}
    (hp : stagePred (s.core s.cur.core) pr = some true) (hb : body s.cur (s.core s.cur.core) = .error (.trap t)) :
    laneStep s pr body = .next (s.setCore s.cur.core (takeTrap s.cur t (s.core s.cur.core))) := by
  simp only [laneStep, hp, hb]

/-- Whatever happens, a lane operation answers a next state in which at most the issuing core has changed. -/
theorem laneStep_next (s : State) (pr : BitVec 6) (body : Cursor → Core → LM Core) :
    laneStep s pr body = .next s ∨ ∃ c, laneStep s pr body = .next (s.setCore s.cur.core c) := by
  unfold laneStep
  dsimp only
  split
  · exact .inr ⟨_, rfl⟩
  · exact .inl rfl
  · split
    · exact .inr ⟨_, rfl⟩
    · exact .inr ⟨_, rfl⟩
    · exact .inr ⟨_, rfl⟩

@[simp] theorem need_true (cu : Cursor) : need cu true = .ok () := rfl
theorem need_ok {cu : Cursor} {b : Bool} (h : b = true) : need cu b = .ok () := by subst h; rfl
@[simp] theorem LM_bind_ok {α β : Type} (a : α) (f : α → LM β) : ((.ok a : LM α) >>= f) = f a := rfl
@[simp] theorem LM_bind_error {α β : Type} (e : Stop) (f : α → LM β) : ((.error e : LM α) >>= f) = .error e := rfl

end Sys2Proof.Machine
end

