-- ==== Sys2Proof/Safety.lean ====
section
/-! DEFINITION. What counts as a safe state and a safe step of the machine, in the terms the statements use. -/
namespace Sys2Proof.Machine

/-- Every memory of the state has its canonical form: the stores and each scratchpad, of working cores and of saved ones. -/
def State.memWf (s : State) : Bool :=
  Memory.wf s.mem && (s.cores.all fun x => Memory.wf x.2.spad) && (s.saves.all fun x => Memory.wf x.2.2.spad) &&
    s.pool.all fun x => Memory.wf x.2.2

/-- PWRMODE.ACTIVE holds a mode of Table 1.7 (R17). -/
def State.modeLegal (s : State) : Bool := decide (s.mod.active.toNat ≤ 4)

/-- A step that ends in a next state: the machine goes on. -/
def goesOn (o : Host.Outcome State Fault Refusal) : Prop := ∃ s, o = .next s

/-- A state from which the next step does not stop. -/
noncomputable def safeStep (s : State) : Prop := goesOn (step s)

end Sys2Proof.Machine

/-! ### The words of the statements: what an operation reads, writes, queues or sends, in the model's own functions -/
namespace Sys2Proof.Claims
open Sys2Proof.Machine

/-- s with another module record; with one more answer to the host, or to the SPDM requester. -/
def withMod (s : State) (m : Module) : State := { s with mod := m }
/-- A die's context table maps what a port's HDM range of n GiB would take. -/
def hdmMapped (s : State) (port n : Nat) : Prop := ∃ c < 512, ctxV s c = true ∧
  mapsPast s (portDie s port) (512000000000 - n * 2 ^ 30) 4 (ptrDie (ctxWord s c 1)) (ptrAddr (ctxWord s c 1)) = true
/-- Operator code (Table 16.4) of a host AtomicOp: FetchAdd, Swap, CAS. -/
def hostAop (op : Nat) : Nat := match op with | 0 => 1 | 1 => 10 | _ => 9
/-- The AtomicOp, as its home performs it, that a host request asks for. -/
def hostOp (h : HostReq) (op cmp : Nat) : XKind := .amo (hostAop op) (8 * h.n)
  (BitVec.ofNat 64 (if op = 2 then cmp else h.val)) (BitVec.ofNat 64 h.val) 0 0 0 false
def answers (s : State) (a : HostAns) : State := { s with answers := s.answers ++ [a] }
def replies (s : State) (a : Spdm) : Host.Outcome State Fault Refusal := .next { s with spdm := s.spdm ++ [a] }
/-- Slot and owner of KEYCMD; the module with the command's fields and a status; a filled slot. -/
def kSlot (v : Word) : Nat := (v.extractLsb' 4 10).toNat
def kOwner (v : Word) : Nat := (v.extractLsb' 14 9).toNat
def keyDone (m : Module) (v : Word) (st : BitVec 4) : Module := { m with keySlot := v.extractLsb' 4 10, keyOwner := v.extractLsb' 14 9, keyStatus := st }
def filled (v : Word) (st : KeyState) (internal : Bool) (key : BitVec 512) (m : Module) : Module :=
  { m with keys := FMap.put m.keys (kSlot v) ⟨st, kOwner v, internal, key⟩ }
/-- The slot a key command names. -/
def keySlotOf (s : State) (v : Word) : KeySlot := FMap.get KeySlot.init s.mod.keys (kSlot v)
def linkAt (s : State) (d k : Nat) : Link := (s.die d).link k
def withLink (s : State) (d k : Nat) (l : Link) : State := s.setDie d ((s.die d).setLink k l)
/-- Only the fabric has moved. -/
def FabricOnly (s t : State) : Prop :=
  t.mem = s.mem ∧ t.queues = s.queues ∧ t.launches = s.launches ∧ t.mod = s.mod ∧ t.gtc = s.gtc ∧ t.xacts = s.xacts ∧ t.tlbs = s.tlbs
/-- A packet that a die neither finds malformed nor drops nor keeps waiting at its input. -/
def Passes (s : State) (d : Nat) (p : Packet) : Prop :=
  packetBad d p = false ∧ groupDrops (s.die d) p.hdr = false ∧ ((s.die d).held.length < 512 ∨ isPosted p.hdr = false ∧ mustHold s d p = false) ∧
    (pkPtype p.hdr = 6 → ∀ v ∈ (s.die d).ventIn, pkLen v.2.2.2 = 0)
/-- s in which a die has counted a malformed packet. -/
def badCounted (s : State) (d : Nat) : State := s.setDie d { s.die d with badpkt := min ((s.die d).badpkt + 1) 65535 }
/-- The answer to a malformed write or accumulate: PTYPE 3 from the endpoint it named to its origin, TAG bit 11 set. -/
def turnedAway (s : State) (d : Nat) (p : Packet) : Packet :=
  ⟨mkHdr 3 0 (s.dieBase + d) (pkDep p.hdr) (pkSdie p.hdr) (pkSep p.hdr) false 0 0 (pkCtx p.hdr) 0 0 (2048 + pkTag p.hdr % 2048) s.gtc, [], [],
    match p.msg with | .req id => .ans id | _ => .plain⟩
/-- A channel of a core is bound to a circuit. -/
def BoundTo (b : ChanBind) (circ : Nat) : Prop := b.sen = true ∧ b.scirc = circ ∨ b.ren = true ∧ b.rcirc = circ
/-- After the links of s at the ends given left ACTIVE, each circuit that crossed them is broken: BRK is set at its cores, none of its flits is left
on a wire. -/
def CircuitsBroken (s t : State) (ends : List (Nat × Nat)) : Prop :=
  ∀ circ ∈ crossing s ends, (∀ w ∈ t.wires, ∀ f, w.f.body = .circuit f → (w.f.link.extractLsb' 32 12).toNat ≠ circ) ∧
    ∀ i n b, n < 4 → (s.core i).arch.chans.Pairwise (fun x y => x.1 ≠ y.1) → FMap.find (s.core i).arch.chans n = some b → BoundTo b circ →
      (t.core i).arch.brk.getLsbD n = true
/-- s in which a die has noted a stamp more than 16 cycles ahead (R44). -/
def skewed (s : State) (d : Nat) (p : Packet) : State :=
  if s.gtc + 16 < pkStamp p.hdr then s.setDie d { s.die d with tskew := true } else s
/-- s with the strand of a core replaced. -/
def withArch (s : State) (i : Nat) (a : Arch) : State := s.setCore i { s.core i with arch := a }
/-- A commit may happen: the boundary is reached, every store is translated, the command buffer has room, no reshard's map is to land. -/
def MayCommit (c : Core) : Prop := atBoundary c = true ∧ storesWalked c = true ∧ shqFull c = false ∧ mapPending c = none
/-- The cursor of a core's fault outside an issue. -/
def faultAt (s : State) (i lane seq pos : Nat) : Cursor := ⟨i, lane, seq, pos, 0, false, false, s.gtc⟩
/-- The entry of a page that has been copied, but for its new frame: V and W set, COW clear. -/
def copyEntry (e : Word) : Word := pteSet (pteSet (pteSet e 0 1 1) 3 1 1) 5 1 0
/-- Tracing is off for the launch of a core. -/
def Untraced (s : State) (i : Nat) : Prop := ∀ l, s.launch (s.core i).launch = some l → traceOn s l = false
abbrev Result := Host.Outcome State Fault Refusal
/-- The core of the lane operation about to issue, and the machine in which that core has become `c`. -/
def here (s : State) : Core := s.core s.cur.core
def leaves (s : State) (c : Core) : Result := .next (s.setCore s.cur.core c)
/-- The operation acts: its stage predicate is valid and holds (R140). -/
def Acts (s : State) (pr : BitVec 6) : Prop := stagePred (here s) pr = some true
/-- A source of the s space (64 bits) and of the v space has a value: `c` is the core before, `c'` after it (R283). -/
def SrcS (s : State) (code : BitVec 7) (c : Core) (v : Word) (c' : Core) : Prop := resolveS s.cur code c = .ok (v, c')
def SrcV (s : State) (code : BitVec 7) (c : Core) (v : VWord) (c' : Core) : Prop := resolveV s.cur code c = .ok (v, c')
/-- A destination takes a result due after `lat` ticks (R135, R281, R282). -/
def DstS (s : State) (dst : BitVec 7) (ws : BitVec 1) (lat : Nat) (v : Word) (c c' : Core) : Prop := writeS s.cur dst ws lat v c = .ok c'
def DstV (s : State) (dst : BitVec 7) (ws : BitVec 1) (lat w : Nat) (v mask : VWord) (c c' : Core) : Prop :=
  writeV s.cur dst ws lat w v mask c = .ok c'
/-- Element i of width w of a register. -/
def el (w : Nat) (v : VWord) (i : Nat) : Nat := elem w v.toNat i
/-- The low w bits as a signed number. -/
def sgn (w n : Nat) : Int := if n < 2 ^ (w - 1) then n else (n : Int) - 2 ^ w
/-- Conditions 0 eq, 1 ne, 2 lt, 3 ge, 4 le, 5 gt (Table 13.1). -/
def icond (k : Nat) (a b : Int) : Bool :=
  if k = 0 then a == b else if k = 1 then a != b else if k = 2 then decide (a < b) else if k = 3 then decide (b ≤ a)
  else if k = 4 then decide (a ≤ b) else decide (b < a)
/-- The core after a compare or predicate-logic operation of latency `lat` has issued with result b: logical g of DST[4:0], unless WS,
and the lane's latch. -/
def gResult (s : State) (g : Nat) (ws : BitVec 1) (lat : Nat) (b : Bool) (c : Core) : Core :=
  emitLatch s.cur lat (if b then 1 else 0) (if ws = 0 then emit s.cur lat (.g (mapG c.arch.rot g) b) c else c)
/-- The value of a g operand: g0 to g31, or 127 for 0 (R301). -/
def gVal (c : Core) (code : BitVec 7) : Option Bool :=
  if code.toNat < 32 then some (readG c code.toNat) else if code.toNat = 127 then some false else none
/-- The core after flags of an operation have been queued for the same end as its result; NF suppresses them (R265, R282). Only flags
that were raised are listed. -/
def flagged (s : State) (lat : Nat) (nf : BitVec 1) (fl : List (Nat × FlagBits)) (c : Core) : Core :=
  let l := fl.filter fun x => x.2 ≠ 0
  if nf = 1 ∨ l = [] then c else emit s.cur lat (.flags l) c
/-- Scalar float results: value with its flags at VXF position 0, latency 4. -/
def floatDone (s : State) (f : SR) (r : Nat × FlagBits) (c : Core) (out : Result) : Prop :=
  ∀ c', DstS s f.dst f.ws 4 (BitVec.ofNat 64 r.1) c c' → out = leaves s (flagged s 4 f.nf [(0, r.2)] c')
/-- Range of integer code 0 i64, 1 n64, 2 i32, 3 n32 (R303). -/
def intBounds (t : Nat) : Int × Int :=
  if t = 0 then (-(2 ^ 63), 2 ^ 63 - 1) else if t = 1 then (0, 2 ^ 64 - 1) else if t = 2 then (-(2 ^ 31), 2 ^ 31 - 1) else (0, 2 ^ 32 - 1)
/-- An integer source as code t reads it. -/
def intRead (t : Nat) (a : Word) : Int :=
  if t = 0 then a.toInt else if t = 1 then (a.toNat : Int) else if t = 2 then (a.setWidth 32).toInt else ((a.setWidth 32).toNat : Int)
/-- Element-wise results under the mask of EP, with flags per unmasked element at position ⌊i·w/32⌋. -/
def vecDone (s : State) (dst : BitVec 7) (ws nf : BitVec 1) (ep : BitVec 4) (lat w : Nat) (r : Nat → Nat × FlagBits) (c : Core) (out : Result) : Prop :=
  ∀ c', DstV s dst ws lat w (buildV w fun i => (r i).1) (spread w (epMask c ep)) c c' →
    out = leaves s (flagged s lat nf (((List.range (4096 / w)).filter fun i => (epMask c' ep).getLsbD i).map fun i => (i * w / 32, (r i).2)) c')
/-- The 7-bit immediate, sign-extended to w bits. -/
def immOf (w : Nat) (b : BitVec 7) : Nat := wrapN w b.toInt
/-- The core after an element predicate has been queued. -/
def pResult (s : State) (p : Nat) (ws : BitVec 1) (lat : Nat) (v : PWord) (c : Core) : Core :=
  emitLatch s.cur lat (v.setWidth 512) (if ws = 0 then emit s.cur lat (.p p v) c else c)
/-- A predicate source: p0 to p15, or 127 for zero (R326). -/
def pVal (c : Core) (code : BitVec 7) : Option PWord :=
  if code.toNat ≤ 15 then some (c.arch.getP code.toNat) else if code.toNat = 127 then some 0 else none
/-- k registers taken or given together (R320). -/
def SrcVs (s : State) (code : BitVec 7) (k : Nat) (c : Core) (l : List VWord) : Prop := readVs s.cur code k c = .ok l
def DstVs (s : State) (dst : BitVec 7) (ws : BitVec 1) (lat : Nat) (l : List (VWord × VWord)) (c c' : Core) : Prop := writeVs s.cur dst ws lat l c = .ok c'
/-- k destination registers, source element t·k + j in element t of register j, flags at the source's place (R320, R328). -/
def widened (s : State) (f : VR) (wsrc wd k : Nat) (r : Nat → Nat × FlagBits) (c : Core) (out : Result) : Prop :=
  ∀ c', DstVs s f.dst f.ws 3 ((List.range k).map fun j => (buildV wd (fun t => (r (t * k + j)).1),
      buildV wd (fun t => if (epMask c f.ep).getLsbD (t * k + j) then 2 ^ wd - 1 else 0))) c c' →
    out = leaves s (flagged s 3 f.nf (((List.range (4096 / wsrc)).filter fun i => (epMask c' f.ep).getLsbD i).map fun i => (i * wsrc / 32, (r i).2)) c')
/-- Flags of a narrowing: at the place of the source element. -/
def narrowed (c : Core) (ep : BitVec 4) (ws wd : Nat) (r : Nat → Nat × FlagBits) : List (Nat × FlagBits) :=
  ((List.range (4096 / wd)).filter fun i => (epMask c ep).getLsbD i).map fun i => (i / (ws / wd) * ws / 32, (r i).2)
/-- The sum or product of two elements of wadd and wmul: an integer of twice the width, or f32 (R330). -/
def wideElem (ty : Nat) (mul : Bool) (x y : Nat) : Nat × FlagBits :=
  if ty ≤ 5 then (wrapN (2 * tyWidth ty) (if mul then tyInt ty x * tyInt ty y else tyInt ty x + tyInt ty y), 0)
  else
    let v := if mul then ((tyFmt ty).decode x).mul ((tyFmt ty).decode y) else ((tyFmt ty).decode x).add ((tyFmt ty).decode y)
    ((roundRne f32 v.1).1, (roundRne f32 v.1).2 ||| (if v.2 then flInvalid else 0) ||| (tyFmt ty).snanFlag x ||| (tyFmt ty).snanFlag y)
/-- Does the core's record of live-in and modified tiles still allow one more access to tile t (R160)? The record after it. -/
def Touched (s : State) (t : Nat) (mods : Bool) (c c' : Core) : Prop := touchTile s.cur c t mods = .ok c'
/-- The operand registers of mpush: a v register, or the next entry of tile-fetch port k (R344). -/
def PushSrc (s : State) (reg : BitVec 6) (port : Bool) (k : Nat) (c : Core) (v : VWord) (c' : Core) : Prop := pushOperand s.cur c reg port k = .ok (v, c')
/-- Legal fields of form VA; no block phase at the tile (R268, R349). -/
def VaLegal (s : State) (f : VA) : Prop :=
  f.fn = 0 ∧ f.rsvd = 0 ∧ f.vd.toNat ≤ 62 ∧ f.vd.toNat % 2 = 0 ∧ tilePhase (here s) f.tile.toNat = 0
/-- Positions a bundle takes: 25 for a literal (R277). -/
def after (cu : Cursor) : Nat := cu.pos + (if cu.lit then 25 else 1)
/-- The operation does not stand at E of the top loop entry (R305). -/
def FreeOfE (s : State) (c : Core) : Prop := notAtE s.cur c = .ok ()
/-- The core with a control operation waiting for every group to issue its bundle (R132). -/
def withCtl (s : State) (k : Ctl) (c : Core) : Core := { c with arch := { c.arch with ctl := some (s.cur.seq, k) } }
def taken (fn : Nat) (x : Word) : Bool :=
  if fn = 0 then true else if fn = 1 then x == 0 else if fn = 2 then x != 0 else if fn = 3 then decide (x.toInt < 0)
  else if fn = 4 then decide (0 ≤ x.toInt) else if fn = 5 then decide (0 < x.toInt) else decide (x.toInt ≤ 0)
/-- A task may end: no handler active, no open spawn group (R311). -/
def MayExit (c : Core) : Prop := c.arch.uiActive = false ∧ holdsGroup c = false
/-- Effective address of an access of n bytes aligned to `al` (R354). -/
def Addr (s : State) (a : Word) (n al : Nat) (wr : Bool) (ea : EA) : Prop := effAddr s.cur a n al wr = .ok ea
def eaDev (ea : EA) (n off : Nat) : List (Nat × Nat × Nat) := match ea with | .dev va => (locPieces va n).map fun p => (p.1, p.2.1, off + p.2.2) | .spad _ => []
def eaSpad (ea : EA) (n off : Nat) : List (Nat × Nat × Nat) := match ea with | .spad o => [(o, n, off)] | .dev _ => []
/-- The bundle gives a delay, and a Bobbin entry is free (R143, R147). -/
def CanLand (s : State) (c : Core) : Prop := s.cur.late ≠ 0 ∧ bobUsed c s.cur.seq + 1 ≤ 64
/-- A landing has been issued: one new Bobbin entry that waits for the device reads `dev` and the scratchpad reads `sp`, its landing due
at the bundle's delay, the reads begun; no register, tile, predicate or byte has changed. -/
def landIssued (s : State) (dest : LandDest) (ws : Bool) (dev sp : List (Nat × Nat × Nat)) (acq : Bool) (c c' : Core) : Prop :=
  (∃ b : Bob, c'.bobs = c.bobs ++ [b] ∧ b.id = c.nextAcc ∧ b.waiting = dev.length + sp.length ∧ b.data = 0) ∧
  c'.arch = { c.arch with pend := c.arch.pend ++
    [⟨.land c.nextAcc dest ws, laneGrp s.cur.lane, s.cur.seq + s.cur.late - 1, s.cur.seq, s.cur.lane, s.cur.pos⟩] } ∧
  c'.accs = c.accs ++ (dev.zipIdx.map fun p => { mkAcc s.cur (c.nextAcc + 1 + p.2) .rd p.1.1 p.1.2.1 0 c.nextAcc p.1.2.2 with acq := acq }) ∧
  c'.transit = c.transit ++ sp.map (fun r => ⟨c.nextAcc, r.2.2, r.2.1, Memory.readN (spadSeen s.cur c) r.1 r.2.1, s.cur.gtc + 4, 0⟩) ∧
  c'.spad = c.spad ∧ c'.tiles = c.tiles ∧ c'.mode = c.mode
/-- The load whose reads are those of one effective address. -/
def loads (s : State) (dest : LandDest) (ws : BitVec 1) (ea : EA) (n : Nat) (acq : Bool) (out : Result) : Prop :=
  ∃ c', out = leaves s c' ∧ landIssued s dest (ws = 1) (eaDev ea n 0) (eaSpad ea n 0) acq (here s) c'
/-- A store of the low n bytes of v at an effective address: a scratchpad store is due at the end of the tick, its granules in the undo
log, and a release holds its granule back for the earlier stores; a device store is buffered, and the walks of its pages begin (R159, R357). No device byte changes before the segment commits. -/
def stores (s : State) (ea : EA) (n v : Nat) (rel : Option Nat) (c : Core) (out : Result) : Prop :=
  match ea with
  | .spad o => ∀ c2, logSpad s.cur c o n = .ok c2 →
    let c3 := if rel.isSome then { c2 with arch := { c2.arch with relSpad := c2.arch.relSpad ++ [o / 64] } } else c2
    out = leaves s (emit s.cur 1 (.spad [(o, n, 2 ^ n - 1, v)]) c3)
  | .dev va =>
    let parts := (locPieces va n).map fun p => (p.1, p.2.1, v / 256 ^ p.2.2 % 256 ^ p.2.1)
    c.arch.stores.length + waitingStores c < 256 →
    ∃ c' ids, out = leaves s c' ∧ c'.arch = { c.arch with stores := c.arch.stores ++ [⟨s.cur.seq, s.cur.lane, .dev parts rel, ids, s.cur.pos⟩] } ∧
      c'.spad = c.spad ∧ c'.tiles = c.tiles ∧ c'.mode = c.mode ∧ ids.length = (walkPages parts).length ∧
      c'.accs.map (fun a => (a.kind, a.va, a.n)) = c.accs.map (fun a => (a.kind, a.va, a.n)) ++ (walkPages parts).map fun a => (.walk, a, 1)
/-- Address of forms MA and MX: base plus scaled offset, base plus index. -/
def maEa (s : State) (f : MA) (n : Nat) : Word := readS (here s) f.bs.toNat + BitVec.ofInt 64 (f.off.toInt * n)
def mxEa (s : State) (f : MX) : Word := readS (here s) f.bs.toNat + readS (here s) f.ix.toNat
/-- A slot that holds a descriptor. -/
def Slot (c : Core) (n : BitVec 6) (d : BitVec 2048) : Prop := n.toNat < 32 ∧ FMap.find c.arch.slots n.toNat = some d
/-- The core with one more command of the Shuttle on a channel: it takes the channel's NEXTID, which advances by one (R376, R377). -/
def withCmd (s : State) (c : Core) (ch : Nat) (kind : ShKind) (img : BitVec 2432) (t q : Word) (bob : Nat) (fl : FlagBits)
    (ss ds : Option (BitVec 2048)) : Core :=
  { c with arch := { c.arch with
      nextId := FMap.set 0 c.arch.nextId ch (FMap.get 0 c.arch.nextId ch + 1),
      cmds := c.arch.cmds ++ [⟨FMap.get 0 c.arch.nextId ch, ch, kind, img, ss, ds, t, 0, false, q, bob, s.cur.seq, none, false, false, c.ctx, 0, none,
        0, fl, false, false, 0, [], false, none⟩] } }
/-- The slot a side of a copy names, where it names one. -/
def sideSlot (c : Core) (g : BitVec 2432) (dst : Bool) : Option (BitVec 2048) :=
  if cpKind g dst = 2 then FMap.find c.arch.slots (cpBase g dst).toNat else none
/-- The record an accumulate reads: the low 512 bits of its vector register. -/
def accRec (s : State) (f : MX) : BitVec 2432 := ((readV (here s) f.ix.toNat).setWidth 512).setWidth 2432
/-- The core with one more request that reaches its unit when the segment commits. -/
def withPost (c : Core) (p : Posted) : Core := { c with arch := { c.arch with posted := c.arch.posted ++ [p] } }
/-- The core with one more thing it waits for. -/
def withWait (c : Core) (w : Wait) : Core := { c with waits := c.waits ++ [w] }
/-- The queue at whose position the packet stands. -/
def atQ (s : State) : Queue := s.queue s.curQ
/-- The packet has the shape R84 asks: reserved bits 0, XU extension units, all inside the buffer it stands in. -/
def WellShaped (s : State) (f : Pkt) (xu : Nat) : Prop :=
  f.rsvd7 = 0 ∧ f.rsvd23 = 0 ∧ f.xu.toNat = xu ∧ f.ext.length = xu ∧ ∀ fr t, (atQ s).stack = fr :: t → fr.idx + 1 + xu ≤ fr.len
/-- A command register, c0 reading 0, and the sign-extended immediate. -/
def creg (s : State) (i : BitVec 4) : Word := if i = 0 then 0 else FMap.get 0 (atQ s).c i.toNat
def simm (f : Pkt) : Word := f.imm.signExtend 64
/-- The machine in which the packet is over: register rd written (c0 not), the position past the packet's units; all else as before. -/
def ends (s : State) (f : Pkt) (rd : BitVec 4) (v : Word) : State :=
  let q := (atQ s).move (1 + f.xu.toNat : Nat)
  s.setQueue s.curQ (if rd = 0 then q else { q with c := FMap.set 0 q.c rd.toNat v })
/-- The machine s in which the packet of queue i has started and stays outstanding with what it waits for (R83). -/
def starts (s : State) (i : Nat) (qq : Queue) (f : Pkt) (b : Bool) (w : QWait) : State :=
  let p : QPkt := ⟨qq.nstart, b, f.rd.toNat, w, none, (match qq.stack with | [] => qq.head.toNat | _ => qq.callAt),
    (match qq.stack with | [] => 0 | fr :: _ => fr.idx), qq.stack.length⟩
  s.setQueue i { qq.move (1 + f.xu.toNat : Nat) with out := (qq.move (1 + f.xu.toNat : Nat)).out ++ [p], nstart := (qq.move (1 + f.xu.toNat : Nat)).nstart + 1 }
/-- Packets are numbered as they start; nothing started earlier has an access to make or to be acknowledged (R83, R101). -/
def Numbered (s : State) : Prop := ∀ p ∈ (atQ s).out, p.num < (atQ s).nstart
def Quiet (s : State) : Prop := queueBusy s s.curQ (atQ s).nstart = false ∧ asksBefore (atQ s) (atQ s).nstart = false
/-- The machine in which the position has moved by o units. -/
def goes (s : State) (o : Int) : State := s.setQueue s.curQ ((atQ s).move o)
/-- The position past a packet that is over, one more packet counted as started (R101). -/
def counted (s : State) : State := s.setQueue s.curQ { (atQ s).move 1 with nstart := (atQ s).nstart + 1 }
/-- The queue freezes with a fault (R86). -/
def freezes (s : State) (code lvl : Nat) (e : Word) (va : Nat) (wr : Bool) : Result := finish (queueFault s s.curQ code wr va e lvl (atQ s).where)
/-- Address of ld, st, a signal and notify. -/
def cmdAddr (s : State) (f : Pkt) : Nat := (creg s f.ra + simm f).toNat
/-- s0 with one more access of the queue whose home is on its own die or in host memory: translated, kept in the TLB, not yet
performed (R101). -/
def accessed (s s0 : State) (va : Nat) (kind : XKind) (rel : Option Nat) (ret : Ret) (ph : Phys) (l : Nat) (e : Word) : State :=
  let s1 := tlbFill s0 (tlbSpindle (s.curQ / 8)) (atQ s).qctx.toNat va l e
  { s1 with
    xacts := s1.xacts ++ [⟨s1.nextId, 4, s.curQ, s.dieBase + s.curQ / 8, 6, (atQ s).qctx.toNat, va, 8, ph, kind, rel, none, 4, (atQ s).nstart,
      if ph.die = s.dieBase + s.curQ / 8 ∧ rel.isSome then (s1.die ((s.dieBase + s.curQ / 8) % 8)).seq else 0, [], .fresh, s.gtc, 0, false, ret, (atQ s).where, 0, false, 0, 0, false, []⟩],
    nextId := s1.nextId + 1 }
/-- In t a request of the queue to another die has left: its access is sent, and its packet stands at router 19 of the queue's die. -/
def requested (s t : State) (va ptype : Nat) (kind : XKind) (rel : Option Nat) (ret : Ret) (ph : Phys) : Prop :=
  ∃ x ∈ t.xacts, x.mkind = 4 ∧ x.mid = s.curQ ∧ x.va = va ∧ x.n = 8 ∧ x.ph = ph ∧ x.kind = kind ∧ x.rel = rel ∧ x.ret = ret ∧ x.seq = (atQ s).nstart ∧
    x.st = .sent ∧ ∃ b ∈ ((t.die ((s.dieBase + s.curQ / 8) % 8)).router 19).be, b.p.msg = .req x.id ∧ pkPtype b.p.hdr = ptype ∧ pkDdie b.p.hdr = ph.die ∧
      pkSys b.p.hdr = rel.isSome
/-- No earlier write of the queue's die to the line of a location is unacknowledged (R234). -/
def LineFree (s : State) (ph : Phys) : Prop :=
  ∀ u ∈ (s.die ((s.dieBase + s.curQ / 8) % 8)).unacked, ¬ (u.2.1 = ph.die ∧ u.2.2 = ph.pa / 128)
/-- May a branch move the position by o units: within the ring's unconsumed units and forwards, or inside its buffer (R85)? -/
def MayMove (s : State) (o : Int) : Prop :=
  match (atQ s).stack with
  | [] => 1 ≤ o ∧ o < (atQ s).avail
  | fr :: _ => 0 ≤ fr.idx + o ∧ fr.idx + o < fr.len
/-- The codes from a to b. -/
def codes (a b : Nat) : List Nat := (List.range (b + 1 - a)).map (a + ·)
/-- Opcodes of Table 12.5, in the order of the operations above. -/
def opSR : List Nat := codes 0x01 0x0F ++ codes 0x10 0x1F ++ [0x38, 0x39, 0x3B] ++ codes 0x40 0x4C ++ codes 0x50 0x54
def opSI : List Nat := codes 0x21 0x2E ++ [0x3A] ++ codes 0x60 0x63
def opSC : List Nat := codes 0xC0 0xC5 ++ codes 0xC8 0xCE
def opVR : List Nat := codes 0x01 0x0F ++ codes 0x10 0x1A ++ codes 0x21 0x2C ++ codes 0x30 0x36 ++ codes 0x40 0x43 ++ codes 0x48 0x4E ++ codes 0x50 0x57 ++
  codes 0x61 0x6A ++ codes 0x70 0x77
def opMX : List Nat := codes 0x10 0x1C ++ codes 0x20 0x25 ++ codes 0x30 0x38 ++ codes 0x40 0x43

end Sys2Proof.Claims
end

