-- ==== Sys2Proof/WellFormed.lean ====
section
/-! DEFINITION. When an instruction is well formed: a PR code that Table 12.3 gives, reserved fields zero, the fixed part of FN of a
command, XU equal to its extension units, and device units that exist (R2, R84, R284, R287). An operand field that its opcode does not
take is no matter of form: the operation traps where it issues (R287). -/
namespace Sys2Proof

/-- A PR code: always, or a stage predicate (Table 12.3). -/
def prOk (pr : BitVec 6) : Bool := pr == 0 || pr.getLsbD 5
/-- Reserved bits zero, XU the number of extension units. -/
def pktOk (f : Pkt) : Bool := f.rsvd7 == 0 && f.rsvd23 == 0 && f.xu.toNat == f.ext.length
/-- A core of the module: local die × 64 + router. -/
def coreOk (core : Nat) : Bool := decide (core / 64 < 8) && decide (core % 64 < 48)
/-- A core, or the Spindle's channel of a die, as `die × 64 + 48`. -/
def unitOk (core : Nat) : Bool := decide (core / 64 < 8) && decide (core % 64 ≤ 48)

/-- Is an instruction well formed? -/
def Instr.wf (i : Instr) : Bool :=
  match i with
  | .powerOnReset => true
  | .bringupStageEnd _ _ => true
  | .pwrmodeWrite _ => true
  | .throttleWindowStart => true
  | .thermalSample t => decide (t < 256)
  | .registerWrite port _ _ _ => decide (port < 2)
  | .timeSyncSend => true
  | .timeSyncReceive x _ _ _ _ => decide (x.link < 8)
  | .flitReceive die unit _ _ _ => decide (die < 8) && decide (unit < 59)
  | .flitSend die unit _ => decide (die < 8) && decide (unit < 59)
  | .slotmiss die unit _ => decide (die < 8) && decide (unit < 59)
  | .linkTrainingComplete die link _ => decide (die < 8) && decide (link < 11)
  | .linkTrainingFailure die link => decide (die < 8) && decide (link < 11)
  | .linkRetrain die link => decide (die < 8) && decide (link < 11)
  | .linkstatRetry die link => decide (die < 8) && decide (link < 11)
  | .linkWake die link => decide (die < 8) && decide (link < 11)
  | .slotTableLoadArrive _ => true
  | .slotTableActivate die _ => decide (die < 8)
  | .slotTableLoadAnswer _ => true
  | .packetReceive die _ => decide (die < 8)
  | .heldWriteApply die _ => decide (die < 8)
  | .escapeChannelMove die unit _ => decide (die < 8) && decide (unit < 59)
  | .frontierFlitSend die link => decide (die < 8) && decide (link < 11)
  | .frontierFlitReceive die _ => decide (die < 8)
  | .writeAcknowledgement die _ _ => decide (die < 8)
  | .domcfgWrite _ => true
  | .queueEnable q => decide (q < 64)
  | .queueDisable q => decide (q < 64)
  | .queueDoorbell q _ => decide (q < 64)
  | .hostWindowRead h => decide (h.port < 2)
  | .hostWindowWrite h => decide (h.port < 2)
  | .hostAtomicop h op _ => decide (h.port < 2) && decide (op < 3)
  | .hostHdmAccess port _ _ _ _ => decide (port < 2)
  | .hdmcfgWrite port _ => decide (port < 2)
  | .shootdownStart _ => true
  | .shootdownComplete => true
  | .atsInvalidate port _ _ _ => decide (port < 2)
  | .atsInvalidateComplete _ => true
  | .translationWalkComplete core _ => coreOk core
  | .frzctlResume _ => true
  | .frzctlKill _ => true
  | .keyLoad _ => true
  | .keyGen _ => true
  | .keyPlain _ => true
  | .keyDestroy _ => true
  | .keyDestroyDrainEnd slot => decide (slot < 1024)
  | .keyQuery _ => true
  | .fwctlFuse => true
  | .fwctlFuseDone => true
  | .getVersion port => decide (port < 2)
  | .getCapabilities port => decide (port < 2)
  | .negotiateAlgorithms port => decide (port < 2)
  | .getDigests port => decide (port < 2)
  | .getCertificate port _ _ _ => decide (port < 2)
  | .challenge port _ _ => decide (port < 2)
  | .getMeasurements port _ _ => decide (port < 2)
  | .spdmUnsupportedRequest port => decide (port < 2)
  | .queueService q => decide (q < 64)
  | .queueAccessReturn q => decide (q < 64)
  | .interruptSend die => decide (die < 8)
  | .effectiveClassAge _ => true
  | .admissionWindow die => decide (die < 8)
  | .stealGrantReceive _ die _ _ => decide (die < 8)
  | .launchLoadComplete _ => true
  | .coreRelease _ die => decide (die < 8)
  | .taskTake core => coreOk core
  | .joinComplete core => coreOk core
  | .traceRecordWrite die => decide (die < 8)
  | .bundleFetch core => coreOk core
  | .resultWriteback core => coreOk core
  | .loadLanding core => coreOk core
  | .dataArrival core => coreOk core
  | .bobbinFull core => coreOk core
  | .loopBack core => coreOk core
  | .streamPortFetch core port => coreOk core && decide (port < 8)
  | .streamPortDrain core port => coreOk core && decide (port < 8)
  | .channelWordArrive core ch _ => coreOk core && decide (ch < 4)
  | .segmentCommit core => coreOk core
  | .fenceConditionMet core => coreOk core
  | .rollbackComplete core => coreOk core
  | .cowLockAcquire core => coreOk core
  | .detectedError core _ => coreOk core
  | .rerunPairCompare core => coreOk core
  | .preemptSave core => coreOk core
  | .tileFetch core port => coreOk core && decide (port < 2)
  | .weightStoreRefresh die bank => decide (die < 8) && decide (bank < 8)
  | .accessPerformedAtHome _ => true
  | .sinterTrapFreeze _ => true
  | .relayoutStart _ => true
  | .tileConvert die eng => decide (die < 8) && decide (eng < 4)
  | .relayoutComplete _ => true
  | .reshardPlan _ => true
  | .reshardPiece die eng => decide (die < 8) && decide (eng < 8)
  | .reshardComplete _ => true
  | .shuttleCommandStart core => unitOk core
  | .shuttleCommandComplete core ch _ => unitOk core && decide (ch < 9)
  | .ventFire die t => decide (die < 8) && decide (t < 1024)
  | .ventContributionReceive die _ => decide (die < 8)
  | .ventContributionApply die t => decide (die < 8) && decide (t < 1024)
  | .ventGroupUpdate _ => true
  | .cmdNop f => pktOk f && f.fn == 0
  | .cmdLi f => pktOk f && f.fn == 0
  | .cmdLih f => pktOk f && f.fn == 0
  | .cmdAdd f => pktOk f && f.fn == 0
  | .cmdSub f => pktOk f && f.fn == 1
  | .cmdAnd f => pktOk f && f.fn == 2
  | .cmdOr f => pktOk f && f.fn == 3
  | .cmdXor f => pktOk f && f.fn == 4
  | .cmdShl f => pktOk f && f.fn == 5
  | .cmdShr f => pktOk f && f.fn == 6
  | .cmdSra f => pktOk f && f.fn == 7
  | .cmdMin f => pktOk f && f.fn == 8
  | .cmdMax f => pktOk f && f.fn == 9
  | .cmdAddi f => pktOk f && f.fn == 0
  | .cmdSubi f => pktOk f && f.fn == 1
  | .cmdAndi f => pktOk f && f.fn == 2
  | .cmdOri f => pktOk f && f.fn == 3
  | .cmdXori f => pktOk f && f.fn == 4
  | .cmdShli f => pktOk f && f.fn == 5
  | .cmdShri f => pktOk f && f.fn == 6
  | .cmdSrai f => pktOk f && f.fn == 7
  | .cmdMini f => pktOk f && f.fn == 8
  | .cmdMaxi f => pktOk f && f.fn == 9
  | .cmdLd f => pktOk f && f.fn == 0
  | .cmdSt f => pktOk f && f.fn == 0
  | .cmdBeq f => pktOk f && f.fn == 0
  | .cmdBne f => pktOk f && f.fn == 1
  | .cmdBlt f => pktOk f && f.fn == 2
  | .cmdBge f => pktOk f && f.fn == 3
  | .cmdBltu f => pktOk f && f.fn == 4
  | .cmdBgeu f => pktOk f && f.fn == 5
  | .cmdJmp f => pktOk f && f.fn == 0
  | .cmdCall f => pktOk f && f.fn == 0
  | .cmdRet f => pktOk f && f.fn == 0
  | .cmdLoop f => pktOk f && f.fn == 0
  | .cmdSigSet f => pktOk f && f.fn == 0
  | .cmdSigAdd f => pktOk f && f.fn == 1
  | .cmdSigSub f => pktOk f && f.fn == 2
  | .cmdSigMax f => pktOk f && f.fn == 3
  | .cmdSigMin f => pktOk f && f.fn == 4
  | .cmdWaitAll f => pktOk f && decide (f.fn.toNat < 4)
  | .cmdWaitAny f => pktOk f && decide (4 ≤ f.fn.toNat) && decide (f.fn.toNat < 8)
  | .cmdGtcwait f => pktOk f && f.fn == 0
  | .cmdOnabt f => pktOk f && f.fn == 0
  | .cmdAbort f => pktOk f && f.fn == 0
  | .cmdLaunch f => pktOk f && f.fn == 0
  | .cmdLaunchN f => pktOk f && f.fn == 1
  | .cmdCopy f => pktOk f && f.fn == 0
  | .cmdFill f => pktOk f && f.fn == 0
  | .cmdShootdn f => pktOk f && f.fn == 0
  | .cmdNotify f => pktOk f && f.fn == 0
  | .cmdSlotld f => pktOk f && f.fn == 0
  | .cmdRdgtc f => pktOk f && f.fn == 0
  | .cmdFlush f => pktOk f && f.fn == 0
  | .add f => prOk f.pr
  | .sub f => prOk f.pr
  | .and f => prOk f.pr
  | .or f => prOk f.pr
  | .xor f => prOk f.pr
  | .andn f => prOk f.pr
  | .shl f => prOk f.pr
  | .shr f => prOk f.pr
  | .sra f => prOk f.pr
  | .rotl f => prOk f.pr
  | .min f => prOk f.pr
  | .max f => prOk f.pr
  | .minu f => prOk f.pr
  | .maxu f => prOk f.pr
  | .mov f => prOk f.pr
  | .mul f => prOk f.pr
  | .mulh f => prOk f.pr
  | .mulhu f => prOk f.pr
  | .div f => prOk f.pr
  | .divu f => prOk f.pr
  | .rem f => prOk f.pr
  | .remu f => prOk f.pr
  | .clz f => prOk f.pr
  | .ctz f => prOk f.pr
  | .popc f => prOk f.pr
  | .sext f => prOk f.pr
  | .zext f => prOk f.pr
  | .sel f => prOk f.pr
  | .abs f => prOk f.pr
  | .neg f => prOk f.pr
  | .bswap f => prOk f.pr
  | .addi f => prOk f.pr
  | .subi f => prOk f.pr
  | .andi f => prOk f.pr
  | .ori f => prOk f.pr
  | .xori f => prOk f.pr
  | .andni f => prOk f.pr
  | .shli f => prOk f.pr
  | .shri f => prOk f.pr
  | .srai f => prOk f.pr
  | .rotli f => prOk f.pr
  | .mini f => prOk f.pr
  | .maxi f => prOk f.pr
  | .minui f => prOk f.pr
  | .maxui f => prOk f.pr
  | .li f => prOk f.pr
  | .lis f => prOk f.pr
  | .cmp f => prOk f.pr
  | .cmpu f => prOk f.pr
  | .cmpi f => prOk f.pr
  | .fcmp f => prOk f.pr
  | .fadd f => prOk f.pr
  | .fsub f => prOk f.pr
  | .fmul f => prOk f.pr
  | .fdiv f => prOk f.pr
  | .fmin f => prOk f.pr
  | .fmax f => prOk f.pr
  | .fsqrt f => prOk f.pr
  | .fabs f => prOk f.pr
  | .fneg f => prOk f.pr
  | .fcvt f => prOk f.pr
  | .fcvti f => prOk f.pr
  | .icvtf f => prOk f.pr
  | .fclass f => prOk f.pr
  | .gand f => prOk f.pr
  | .gor f => prOk f.pr
  | .gxor f => prOk f.pr
  | .gandn f => prOk f.pr
  | .gset f => prOk f.pr
  | .csrr f => prOk f.pr
  | .csrw f => prOk f.pr
  | .csrs f => prOk f.pr
  | .csrc f => prOk f.pr
  | .br f => prOk f.pr
  | .call f => prOk f.pr
  | .ret f => prOk f.pr
  | .loop f => prOk f.pr
  | .rloop f => prOk f.pr
  | .lbreak f => prOk f.pr
  | .spawn f => prOk f.pr
  | .join f => prOk f.pr
  | .exit f => prOk f.pr
  | .exitab f => prOk f.pr
  | .trap f => prOk f.pr
  | .uiret f => prOk f.pr
  | .slotld f => prOk f.pr
  | .vAdd f => prOk f.pr
  | .vSub f => prOk f.pr
  | .vAnd f => prOk f.pr
  | .vOr f => prOk f.pr
  | .vXor f => prOk f.pr
  | .vAndn f => prOk f.pr
  | .vShl f => prOk f.pr
  | .vShr f => prOk f.pr
  | .vSra f => prOk f.pr
  | .vMin f => prOk f.pr
  | .vMax f => prOk f.pr
  | .vMinu f => prOk f.pr
  | .vMaxu f => prOk f.pr
  | .vMul f => prOk f.pr
  | .vMulh f => prOk f.pr
  | .vAdds f => prOk f.pr
  | .vSubs f => prOk f.pr
  | .vAddsu f => prOk f.pr
  | .vSubsu f => prOk f.pr
  | .vAbs f => prOk f.pr
  | .vNeg f => prOk f.pr
  | .vClz f => prOk f.pr
  | .vPopc f => prOk f.pr
  | .vMov f => prOk f.pr
  | .vBcast f => prOk f.pr
  | .vSel f => prOk f.pr
  | .vAddi f => prOk f.pr
  | .vSubi f => prOk f.pr
  | .vAndi f => prOk f.pr
  | .vOri f => prOk f.pr
  | .vXori f => prOk f.pr
  | .vAndni f => prOk f.pr
  | .vShli f => prOk f.pr
  | .vShri f => prOk f.pr
  | .vSrai f => prOk f.pr
  | .vMini f => prOk f.pr
  | .vMaxi f => prOk f.pr
  | .vMulli f => prOk f.pr
  | .vAddF f => prOk f.pr
  | .vSubF f => prOk f.pr
  | .vMulF f => prOk f.pr
  | .vMinF f => prOk f.pr
  | .vMaxF f => prOk f.pr
  | .vAbsF f => prOk f.pr
  | .vNegF f => prOk f.pr
  | .vFmaF32 f => prOk f.pr && f.rsvd == 0
  | .vFmaF16 f => prOk f.pr && f.rsvd == 0
  | .vFmaBf16 f => prOk f.pr && f.rsvd == 0
  | .vFmsF32 f => prOk f.pr && f.rsvd == 0
  | .vFmsF16 f => prOk f.pr && f.rsvd == 0
  | .vFmsBf16 f => prOk f.pr && f.rsvd == 0
  | .vCmp f => prOk f.pr
  | .vCmpu f => prOk f.pr
  | .vFcmp f => prOk f.pr
  | .vCmpi f => prOk f.pr
  | .pand f => prOk f.pr
  | .por f => prOk f.pr
  | .pxor f => prOk f.pr
  | .pandn f => prOk f.pr
  | .pset f => prOk f.pr
  | .pfirst f => prOk f.pr
  | .pcount f => prOk f.pr
  | .cvt f => prOk f.pr
  | .widen f => prOk f.pr
  | .narrow f => prOk f.pr
  | .vq8 f => prOk f.pr
  | .vdq8 f => prOk f.pr
  | .mxq f => prOk f.pr
  | .wadd f => prOk f.pr
  | .wmul f => prOk f.pr
  | .perm f => prOk f.pr && f.rsvd == 0
  | .zip f => prOk f.pr
  | .unzip f => prOk f.pr
  | .slide f => prOk f.pr
  | .vRot f => prOk f.pr
  | .splat f => prOk f.pr
  | .vIns f => prOk f.pr
  | .vExt f => prOk f.pr
  | .compress f => prOk f.pr
  | .expand f => prOk f.pr
  | .rev f => prOk f.pr
  | .rsum f => prOk f.pr
  | .rmax f => prOk f.pr
  | .rmin f => prOk f.pr
  | .rmaxu f => prOk f.pr
  | .rminu f => prOk f.pr
  | .rand f => prOk f.pr
  | .ror f => prOk f.pr
  | .rargmax f => prOk f.pr
  | .ard f => prOk f.pr && f.rsvd == 0
  | .awr f => prOk f.pr && f.rsvd == 0
  | .aadd f => prOk f.pr && f.rsvd == 0
  | .amax f => prOk f.pr && f.rsvd == 0
  | .ascl f => prOk f.pr && f.rsvd == 0
  | .vrsqs f => prOk f.pr
  | .vrcps f => prOk f.pr
  | .vexp2 f => prOk f.pr
  | .vlog2 f => prOk f.pr
  | .vlse f => prOk f.pr
  | .vtanh f => prOk f.pr
  | .vsigm f => prOk f.pr
  | .vsqrt f => prOk f.pr
  | .vdrawF32 f => prOk f.pr
  | .vdrawF16 f => prOk f.pr
  | .vdrawBf16 f => prOk f.pr
  | .vdrawm f => prOk f.pr
  | .mpush f => prOk f.pr
  | .mscaleA f => prOk f.pr && !f.arg.getLsbD 0
  | .mscaleB f => prOk f.pr && f.arg.getLsbD 0
  | .macc f => prOk f.pr
  | .mshift f => prOk f.pr
  | .mdrain f => prOk f.pr
  | .mzero f => prOk f.pr
  | .mcfg f => prOk f.pr
  | .ldI8 f => prOk f.pr
  | .ldI16 f => prOk f.pr
  | .ldI32 f => prOk f.pr
  | .ldI64 f => prOk f.pr
  | .ldN8 f => prOk f.pr
  | .ldN16 f => prOk f.pr
  | .ldN32 f => prOk f.pr
  | .stB8 f => prOk f.pr
  | .stB16 f => prOk f.pr
  | .stB32 f => prOk f.pr
  | .stB64 f => prOk f.pr
  | .vld f => prOk f.pr
  | .vst f => prOk f.pr
  | .vldb f => prOk f.pr
  | .ldacq f => prOk f.pr
  | .vldx f => prOk f.pr
  | .vstx f => prOk f.pr
  | .gather f => prOk f.pr
  | .scatter f => prOk f.pr
  | .tld f => prOk f.pr
  | .tst f => prOk f.pr
  | .dld f => prOk f.pr
  | .devict f => prOk f.pr
  | .relay f => prOk f.pr
  | .reshard f => prOk f.pr
  | .dget f => prOk f.pr
  | .tfcfg f => prOk f.pr
  | .strel f => prOk f.pr
  | .sbind f => prOk f.pr
  | .sunbind f => prOk f.pr
  | .spos f => prOk f.pr
  | .cbind f => prOk f.pr
  | .cunbind f => prOk f.pr
  | .sfill f => prOk f.pr
  | .copy f => prOk f.pr
  | .fill f => prOk f.pr
  | .acc f => prOk f.pr
  | .accr f => prOk f.pr
  | .sigw f => prOk f.pr
  | .chdone f => prOk f.pr
  | .ventset f => prOk f.pr
  | .ventrdy f => prOk f.pr
  | .ventgrp f => prOk f.pr
  | .fence f => prOk f.pr
  | .fencex f => prOk f.pr
  | .flush f => prOk f.pr
  | .collmode f => prOk f.pr
  | .emptySlot => true
  | .powerRemoved => true

end Sys2Proof
end

