-- ==== Sys2Proof/Certificates/Slice0/Obligations.lean ====
section
/-! DEFINITION. The statements about the model: results and completion of every instruction family, then frames, operands, exceptions,
memory, translation, decoding, reset and the step. The words they use (leaves: the answer that changes the issuing core alone; SrcS, DstS: a
source read, a result queued; …) stand in Sys2Proof.Safety. -/

open Sys2Proof Sys2Proof.Machine Sys2Proof.Claims

namespace Sys2Proof.Claims

/-- The machine answers a next state, and P holds of it. -/
def Completes (i : Instr) (s : State) (P : State → Prop) : Prop := ∃ t, exec i s = .next t ∧ P t

end Sys2Proof.Claims

/-- Reset and loss of power; bring-up stage by stage; PWRMODE, throttle window, thermal sample, refresh window (R12, R14, R17 to R22, R26 to R31, R41,
R75, R191). Model's choice (log 2): device memory reads 0 after a power-on reset, a trip or a loss of power. -/
def Obligations.ModuleEvents : Prop :=
  (∀ s : State,
    Completes .powerOnReset s (fun t => t.gtc = 0 ∧ t.cores = [] ∧ t.dies = [] ∧ t.queues = [] ∧ t.launches = [] ∧ t.mod.ready = false ∧ t.mod.stage = 0 ∧
      t.mod.rails = true ∧ t.mod.tripped = (s.mod.vaux && s.mod.tripped) ∧ t.mod.keys = [] ∧ t.mod.flash = s.mod.flash ∧ t.mod.svnFused = s.mod.svnFused ∧
      t.mem = hostBytes s.mem) ∧
    Completes .powerRemoved s (fun t => t.mod.rails = false ∧ t.mod.vaux = false ∧ t.mod.tripped = false ∧ t.mod.ready = false ∧ t.cores = [] ∧ t.queues = [] ∧
      t.mod.flash = s.mod.flash ∧ t.mod.svnFused = s.mod.svnFused ∧ t.mem = hostBytes s.mem)) ∧
  (∀ (s : State) (bad : List Nat), s.mod.ready = false → s.mod.fail = false → s.mod.rails = true →
    (∀ d, 1 ≤ s.mod.stage → s.mod.stage ≠ 6 → Completes (.bringupStageEnd bad (some d)) s fun t => t.mod.fail = true ∧ t.mod.failDie = d ∧
      t.mod.failStage = s.mod.stage ∧ t.mod.ready = false ∧ t.msix = s.msix ++ [(0, 0), (1, 0)] ∧ t.cores = s.cores ∧ t.mem = s.mem) ∧
    (s.mod.stage = 0 ∨ 3 ≤ s.mod.stage ∧ s.mod.stage ≤ 5 →
      exec (.bringupStageEnd bad none) s = .next (withMod s { s.mod with stage := s.mod.stage + 1 })) ∧
    (s.mod.stage = 1 → ∀ img, [s.mod.flash.1, s.mod.flash.2].find? (imageOk s.mod) = some img → Completes (.bringupStageEnd bad none) s fun t =>
      t.mod = { bootFrom s.mod s.free img with stage := 2 } ∧
      ∀ x ∈ moduleLinks, linkState t x = if 8 ≤ x.2 then .detect else linkState s x) ∧
    (s.mod.stage = 2 → (∀ x ∈ moduleLinks, linkState s x = .active ∨ linkState s x = .lowpower) →
      exec (.bringupStageEnd bad none) s = .next (withMod s { s.mod with stage := 3 })) ∧
    (s.mod.stage = 6 → Completes (.bringupStageEnd bad none) s fun t => t.mod.stage = 7 ∧ t.mem = s.mem ∧ t.mod.fail = false ∧
      ∀ i ∈ bad, i < 512 → i % 64 < 48 → i ∈ t.mod.retired) ∧
    (s.mod.stage = 7 → Completes (.bringupStageEnd bad none) s fun t => t.mod.ready = true ∧ t.mod.stage = 8 ∧ t.mod.keys = [] ∧ t.tlbs = [] ∧
      (∀ a, a < maddr 3 0 0 → Memory.read t.mem a = 0) ∧ t.msix = s.msix ++ [(0, 0), (1, 0)])) ∧
  (∀ (s : State) (v : Word),
    (5 ≤ (v.extractLsb' 0 3).toNat → exec (.pwrmodeWrite v) s = .next (withMod s { s.mod with badw := true })) ∧
    ((v.extractLsb' 0 3).toNat < 5 → exec (.pwrmodeWrite v) s = .next (withMod s { s.mod with
      badw := s.mod.badw && !v.getLsbD 4, mode := v.extractLsb' 0 3, capw := v.extractLsb' 16 16, pend := true, pendAt := s.gtc }))) ∧
  (∀ s : State, Completes .throttleWindowStart s fun t => (∀ i, (t.core i).maccs = 0) ∧ t.mem = s.mem ∧ t.queues = s.queues ∧
    (s.mod.pend = false ∨ s.mod.ready = false → t.mod = s.mod) ∧
    (s.mod.pend = true → s.mod.ready = true → s.mod.pendAt < s.gtc → s.mod.mode ≠ 0 → t.mod.active = s.mod.mode ∧ t.mod.actCap = s.mod.capw ∧ t.mod.pend = false)) ∧
  (∀ (s : State) (x : Nat), s.mod.rails = true → Completes (.thermalSample x) s fun t => t.mod.tmax = BitVec.ofNat 8 x ∧ t.gtc = s.gtc ∧
    t.mod.warn = (s.mod.warn || decide (95 ≤ x)) ∧ t.mod.limit = (decide (105 ≤ x) || (s.mod.limit && decide (100 ≤ x))) ∧
    t.mod.limseen = (s.mod.limseen || t.mod.limit) ∧
    (x < 115 → t.mod.rails = true ∧ t.mod.tripped = s.mod.tripped ∧ t.cores = s.cores ∧ t.mem = s.mem) ∧
    (115 ≤ x → t.mod.rails = false ∧ t.mod.tripped = true ∧ t.cores = [] ∧ t.queues = [] ∧ t.mod.keys = [] ∧ t.mem = hostBytes s.mem)) ∧
  (∀ (s : State) (d b : Nat), b < 8 →
    (4096 * b ≤ s.gtc % 32768 → s.gtc % 32768 < 4096 * b + 512 →
      exec (.weightStoreRefresh d b) s = .next (s.setDie d { s.die d with wsRefresh := some b })) ∧
    (s.gtc % 32768 < 4096 * b ∨ 4096 * b + 512 ≤ s.gtc % 32768 → (s.die d).wsRefresh = some b →
      exec (.weightStoreRefresh d b) s = .next (s.setDie d { s.die d with wsRefresh := none })))

/-- Host writes of the register window and of the queue registers; DOMCFG and HDMCFG; time synchronisation (R24, R29, R51, R53 to R55, R63, R80, R406).
Model's choice (log 111): the links of the time exchange, and the link of die 0 that answers. -/
def Obligations.RegisterEvents : Prop :=
  (∀ (s : State) (port off n : Nat) (v : Word), s.mod.rails = true →
    (s.mod.ready = false → (off < 0x40 ∨ 0x48 < off + n) → exec (.registerWrite port off n v) s = .next (answers s (.unsupported port))) ∧
    ((s.mod.ready = true ∨ 0x40 ≤ off ∧ off + n ≤ 0x48) → off % 8 + n ≤ 8 →
      exec (.registerWrite port off n v) s = .next (answers (barWrite s port (off / 8 * 8) (v <<< (8 * (off % 8)))
        (BitVec.ofNat 64 (2 ^ (8 * n) - 1) <<< (8 * (off % 8)))) (.done port))) ∧
    (s.mod.ready = true → n = 8 → off = 0x3008 → Completes (.registerWrite port off n v) s fun t => t.mod.winctx = v &&& 0x00FFFF80000003FF#64)) ∧
  (∀ (s : State) (q : Nat), s.mod.ready = true → q < 64 →
    let x := s.queue q
    let good := 12 ≤ x.size.toNat ∧ x.size.toNat ≤ 24 ∧ x.qbase.toNat % 2 ^ x.size.toNat = 0 ∧ ctxOk s x.qctx.toNat = true ∧ x.tail.toNat < 2 ^ (x.size.toNat - 3)
    (x.en = false → good → Completes (.queueEnable q) s fun t => (t.queue q).en = true ∧ (t.queue q).head = 0 ∧ (t.queue q).c = [] ∧
      (t.queue q).stack = [] ∧ (t.queue q).tail = x.tail ∧ t.mem = s.mem ∧ t.cores = s.cores) ∧
    (x.en = false → ¬ good → exec (.queueEnable q) s = .next (s.setQueue q { x with badcfg := true })) ∧
    exec (.queueDisable q) s = .next (s.setQueue q { x with en := false }) ∧
    (∀ v : Word, let out := 12 ≤ x.size.toNat ∧ x.size.toNat ≤ 24 ∧ 2 ^ (x.size.toNat - 3) ≤ (v.extractLsb' 0 22).toNat
      (out → exec (.queueDoorbell q v) s = .next (s.setQueue q { x with badtail := true })) ∧
      (¬ out → exec (.queueDoorbell q v) s = .next (s.setQueue q { x with tail := v.extractLsb' 0 22 })))) ∧
  (∀ (s : State) (v : Word), (∀ q ∈ s.queues, q.2.en = false) → (v.extractLsb' 4 4).getLsbD (v.extractLsb' 0 2).toNat = true →
    exec (.domcfgWrite v) s = .next (withMod s { s.mod with modidx := v.extractLsb' 0 2, present := v.extractLsb' 4 4 })) ∧
  (∀ (s : State) (w : Word), s.mod.ready = true → w.extractLsb' 30 10 = 0 →
    exec (.hdmcfgWrite 0 w) s = .next (withMod s { s.mod with hdm0 := 0 }) ∧ exec (.hdmcfgWrite 1 w) s = .next (withMod s { s.mod with hdm4 := 0 })) ∧
  (∀ (s : State) (w : Word), s.mod.ready = true → let n := (w.extractLsb' 30 10).toNat
    (n ≤ 476 → ¬ hdmMapped s 0 n → exec (.hdmcfgWrite 0 w) s = .next (withMod s { s.mod with hdm0 := n })) ∧
    (n ≤ 476 → ¬ hdmMapped s 1 n → exec (.hdmcfgWrite 1 w) s = .next (withMod s { s.mod with hdm4 := n })) ∧
    (∀ port, (476 < n ∨ 0 < n ∧ hdmMapped s port n) → exec (.hdmcfgWrite port w) s = .next s)) ∧
  (∀ s : State, isMaster s = true → Completes .timeSyncSend s fun t => ∀ k l, k < 8 → FMap.find (s.die 0).links k = some l →
    FMap.find (t.die 0).links k = some (if l.st = .active ∧ leadsHome s 0 k = true then { l with tpend := l.tpend ++ [(0, 0, 0, 0, 0)] } else l)) ∧
  (∀ (s : State) (k : Nat) (t1 t2 t3 t4 : Word),
    Completes (.timeSyncReceive ⟨k, 0⟩ t1 t2 t3 t4) s (fun t => ((t.die 0).link k).tpend = ((s.die 0).link k).tpend ++ [(1, t1, BitVec.ofNat 64 s.gtc, 0, 0)]) ∧
    Completes (.timeSyncReceive ⟨k, 1⟩ t1 t2 t3 t4) s (fun t => ((t.die 0).link k).tpend = ((s.die 0).link k).tpend ++ [(2, t1, t2, t3, BitVec.ofNat 64 s.gtc)]) ∧
    (isMaster s = false → s.gtcStep = 0 → (s.gtcStepAt = 0 ∨ s.gtcStepAt + 65536 ≤ s.gtc) →
      let off : Int := ((t2 - t1).toInt - (t4 - t3).toInt) / 2
      (off ≤ -2 → exec (.timeSyncReceive ⟨k, 2⟩ t1 t2 t3 t4) s = .next { s with gtcStep := 2, gtcStepAt := s.gtc }) ∧
      (2 ≤ off → exec (.timeSyncReceive ⟨k, 2⟩ t1 t2 t3 t4) s = .next { s with gtcStep := 1, gtcStepAt := s.gtc })))

/-- Host windows, AtomicOps and the HDM range; shoot-downs and ATS invalidations; FRZCTL (R58, R63, R65, R66, R68, R70, R244). Model's choice: an HDM
address counts from the start of its range (log 87), HDM bytes are as under PLAIN (log 101), an AtomicOp with SYSATOM = 0 answers before its write
(log 52). -/
def Obligations.HostEvents : Prop :=
  (∀ (s : State) (h : HostReq) (c v : Nat) (s1 : State), h.n ≤ 4096 → hostOpen s h = some c → hostHeld s h .read = false →
    vaRead s (1000 + h.port) c (winVa s h.off) h.n (mHost s h) = .ok (v, s1) → s1.absent = none →
    exec (.hostWindowRead h) s = .next (answers s1 (.data h.port v))) ∧
  (∀ (s : State) (h : HostReq), h.n ≤ 512 → hostOpen s h = none → s.mod.ready = true →
    exec (.hostWindowRead h) s = .next (answers s (.abort h.port h.n)) ∧ exec (.hostWindowWrite h) s = .next (answers s (.abort h.port h.n))) ∧
  (∀ (s : State) (h : HostReq) (c : Nat) (s1 : State), s.mod.ready = true → h.n ≤ 512 → hostOpen s h = some c → hostHeld s h .write = false →
    vaWrite s (1000 + h.port) c (winVa s h.off) h.n h.val (mHost s h) = (s1, none) → s1.absent = none →
    exec (.hostWindowWrite h) s = .next (answers s1 (.done h.port))) ∧
  (∀ (s : State) (h : HostReq) (op cmp c l : Nat) (ph : Phys) (e : Word), s.absent = none → s.mod.ready = true → (h.n = 4 ∨ h.n = 8) → op ≤ 2 → h.off % h.n = 0 →
    hostOpen s h = some c → hostHeld s h .amo = false → translate s (1000 + h.port) c (winVa s h.off) .amo (mHost s h) = .ok ph l e →
    (ph.loc = 4 ∨ ph.pa + h.n ≤ storeSize ph.loc) →
    let byHome := ph.sysatom = true ∨ isFreecnt s ph = true
    let away := ph.die ≠ portDie s h.port ∧ ph.loc ≠ 3
    let va := winVa s h.off
    let s1 := tlbFill s (1000 + h.port) c va l e
    let old := homeRead s1 c va h.n ph
    let new := (amoNew (hostAop op) (8 * h.n) old (BitVec.ofNat 64 (if op = 2 then cmp else h.val)) (BitVec.ofNat 64 h.val) 0 0 0 false).1
    let done := sinterBy (homeWrite s1 c va h.n new ph) (mHost s h) c va ph 4
    let got := sinterBy (homeUse s1 c va ph) (mHost s h) c va ph 8
    (byHome → ¬ away → done.absent = none → exec (.hostAtomicop h op cmp) s = .next (answers done (.data h.port old))) ∧
    (¬ byHome → got.absent = none → Completes (.hostAtomicop h op cmp) s fun t => t.answers = s.answers ++ [.data h.port old] ∧ t.mem = got.mem ∧
      ∃ x ∈ t.xacts, x.mkind = 5 ∧ x.mid = h.rid ∧ x.va = va ∧ x.ctx = c ∧ x.n = h.n ∧ x.ph = ph ∧ x.kind = .wr new) ∧
    (byHome → away → diePresent s ph.die = true → Completes (.hostAtomicop h op cmp) s fun t => t.answers = s.answers ∧
      ∃ x ∈ t.xacts, x.ret = .host h.port ∧ x.ph = ph ∧ x.va = va ∧ x.ctx = c ∧ x.n = h.n ∧ x.kind = hostOp h op cmp)) ∧
  (∀ (s : State) (port hpa n v : Nat), s.mod.ready = true → port ≤ 1 → hpa % 64 + n ≤ 64 → hpa + n ≤ hdmSize s port * 2 ^ 30 →
    let d := s.dieBase + 4 * (port % 2)
    let pa := 512000000000 - hdmSize s port * 2 ^ 30 + hpa
    let s1 := if plainL2 s (maddr 1 d pa / 128) then s else reseal s (maddr 1 d pa / 128) ⟨0, 0, 0⟩
    Completes (.hostHdmAccess port hpa false n v) s (fun t => t.answers = s.answers ++ [.data port (physRead s1 1 d pa n ⟨0, 0, 0⟩)] ∧ t.mem = s1.mem) ∧
    Completes (.hostHdmAccess port hpa true n v) s (fun t => t.mem = (physWrite s 1 d pa n v ⟨0, 0, 0⟩).mem)) ∧
  (∀ (s : State) (v : Word), s.mod.ready = true → s.shoots = [] → exec (.shootdownStart v) s =
    .next { withMod s { s.mod with shootdn := v &&& 0x00FFFFFFFFFF3FFE#64 } with shoots := [shootOf v .reg] }) ∧
  (∀ (s : State) (x : Shoot) (rest : List Shoot), s.shoots = x :: rest →
    (x.since = none → exec .shootdownComplete s = .next { shootDrop s x with shoots := { x with since := some s.gtc } :: rest }) ∧
    (∀ g, x.since = some g → shootDone s x g = true → x.again = false →
      exec .shootdownComplete s = .next { shootDrop s x with shoots := { x with since := some s.gtc, again := true } :: rest }) ∧
    (∀ g, x.since = some g → shootDone s x g = true → x.again = true → x.src = .reg → Completes .shootdownComplete s fun t => t.shoots = rest ∧ t.mem = s.mem ∧
      (∀ k, ∀ e ∈ FMap.get [] t.tlbs k, leafInSpan x e = false) ∧
      (∀ k, ∀ e ∈ FMap.get [] s.tlbs k, leafInSpan x e = false → e ∈ FMap.get [] t.tlbs k))) ∧
  (∀ (s : State) (port pasid lo hi : Nat), Completes (.atsInvalidate port pasid lo hi) s fun t => t.atsInv = s.atsInv ++ [⟨port, pasid, lo, hi, s.gtc⟩] ∧
    (∀ x, x ∈ t.ats ↔ x ∈ s.ats ∧ ¬ (x.1 = pasid ∧ lo < (x.2 + 1) * 4096 ∧ x.2 * 4096 < hi)) ∧ t.mem = s.mem ∧ t.tlbs = s.tlbs) ∧
  (∀ (s : State) (k : Nat) (x : AtsInv), s.atsInv[k]? = some x → atsDone s x = true →
    exec (.atsInvalidateComplete k) s = .next (answers { s with atsInv := s.atsInv.eraseIdx k } (.done x.port))) ∧
  (∀ (s : State) (v : Word), s.mod.ready = true → s.absent = none →
    let mid := (v.extractLsb' 3 16).toNat
    let ctx := (v.extractLsb' 20 9).toNat
    let s1 := { s with unackFaults := FMap.set 0 s.unackFaults ctx (FMap.get 0 s.unackFaults ctx - 1) }
    ((v.extractLsb' 0 3).toNat = 0 → ∀ d tr pos r, localDie s (mid / 64) = some d → (s.core (d * 64 + mid % 64)).mode = .frozen tr pos r →
      exec (.frzctlResume v) s = .next (s1.setCore (d * 64 + mid % 64)
        (replayCore (skipTrap (if tr.code = 54 then some pos else none) (s.core (d * 64 + mid % 64)))))) ∧
    ((v.extractLsb' 0 3).toNat = 5 → ∀ op ∈ [Instr.frzctlResume v, Instr.frzctlKill v],
      exec op s = .next { s1 with hostFrozen := s.hostFrozen.filter fun x => !(x.2.1 == mid && x.2.2 == ctx) }))

/-- Key commands, fusing, and the SPDM responder (R71, R72, R74, R77 to R79; the refusal order is log 54, KEYSTAT log 67). Model's choice: the byte form
of the certificate chain (log 34); measurement index 255 for all, an unknown index unsupported (log 87). -/
def Obligations.KeyEvents : Prop :=
  (∀ (s : State) (v : Word), s.mod.ready = true → s.mod.keyBusy = false →
    ((keySlotOf s v).st = .empty → ctxOk s (kOwner v) = true →
      (s.mod.keydata.extractLsb' 0 256 ≠ s.mod.keydata.extractLsb' 256 256 →
        exec (.keyLoad v) s = .next (withMod s (filled v .keyed false s.mod.keydata { keyDone s.mod v 0 with keydata := 0 }))) ∧
      (s.mod.keydata.extractLsb' 0 256 = s.mod.keydata.extractLsb' 256 256 →
        exec (.keyLoad v) s = .next (withMod s { keyDone s.mod v 4 with keydata := 0 })) ∧
      exec (.keyGen v) s = .next { withMod s (filled v .keyed true (Config.randomKey s.free) (keyDone s.mod v 0)) with free := s.free + 1 } ∧
      exec (.keyPlain v) s = .next (withMod s (filled v .plain false 0 (keyDone s.mod v 0)))) ∧
    ((keySlotOf s v).st ≠ .empty → exec (.keyPlain v) s = .next (withMod s (keyDone s.mod v 1)) ∧
      exec (.keyDestroy v) s = .next (withMod s { keyDone s.mod v 0 with
        keys := FMap.put s.mod.keys (kSlot v) { keySlotOf s v with st := .destroying }, keyBusy := true })) ∧
    exec (.keyQuery v) s = .next (withMod s { keyDone s.mod v 0 with keystat := keyStatOf (keySlotOf s v) })) ∧
  (∀ (s : State) (k : Nat), (FMap.get KeySlot.init s.mod.keys k).st = .destroying → slotInUse s k = false → Completes (.keyDestroyDrainEnd k) s fun t =>
    t.mod = { s.mod with keys := FMap.erase s.mod.keys k, keyBusy := false } ∧ t.mem = s.mem ∧ t.seals = s.seals) ∧
  (∀ s : State, (s.mod.ready = true → s.mod.svnFused < s.mod.fwSvn → exec .fwctlFuse s = .next (withMod s { s.mod with fusing := true })) ∧
    (s.mod.fusing = true → exec .fwctlFuseDone s = .next (withMod s { s.mod with svnFused := s.mod.fwSvn, fusing := false }))) ∧
  (∀ (s : State) (port off len : Nat) (nonce : BitVec 256), let certs := s.mod.rootCert ++ s.mod.idCert ++ s.mod.aliasCert
    let chain := bytesOf (68 + certs.length) 2 ++ bytesOf 0 2 ++ bytesOf (shake256 s.mod.rootCert).toNat 64 ++ certs
    exec (.getVersion port) s = replies s (.version port 1 3) ∧ exec (.getCapabilities port) s = replies s (.capabilities port true true true) ∧
    exec (.negotiateAlgorithms port) s = replies s (.algorithms port .mlDsa65 .shake256) ∧
    exec (.getDigests port) s = replies s (.digests port (shake256 chain)) ∧
    exec (.getCertificate port 0 off len) s = replies s (.certificate port ((chain.drop off).take len)) ∧
    (∃ content, exec (.challenge port 0 nonce) s = replies { s with free := s.free + 1 }
      (.challenge port (mldsaSign s.mod.aliasSeed (Config.signRandom s.free) (Config.transcript 1 port nonce content)))) ∧
    (∃ l sg, exec (.getMeasurements port 255 nonce) s = replies { s with free := s.free + 1 } (.measurements port l sg) ∧ l.map Prod.fst = [1, 2, 3, 4, 5]) ∧
    (∀ k ∈ [1, 2, 3, 4, 5], ∃ b sg, exec (.getMeasurements port k nonce) s = replies { s with free := s.free + 1 } (.measurements port [(k, b)] sg)) ∧
    (∀ k, 5 < k → k ≠ 255 → exec (.getMeasurements port k nonce) s = replies s (.unsupported port)) ∧
    exec (.spdmUnsupportedRequest port) s = replies s (.unsupported port))

/-- Slot-table loads: answered 3, 1, 2 or 0 at the target, in force at their time, the answer at the core or the queue that waits (R46, R98, R317). -/
def Obligations.SlotTableEvents : Prop :=
  (∀ (s : State) (k d : Nat) (x : SlotLoad), s.slotLoads[k]? = some x → x.ans = none → localDie s x.die = some d →
    let set := fun (s : State) (a : Nat) => { s with slotLoads := s.slotLoads.set k { x with ans := some a } }
    let load := fun t => s.setDie d { s.die d with slotTabs := FMap.put (s.die d).slotTabs x.unit { (s.die d).slotTab x.unit with
      next := ((s.die d).slotTab x.unit).next ++ [(t, x.img)] } }
    (unitExists d x.unit = false ∨ 58 < x.unit → exec (.slotTableLoadArrive k) s = .next (set s 3)) ∧
    (unitExists d x.unit = true → x.unit ≤ 58 →
      (x.t % 256 ≠ 0 ∨ slotTableOk d x.unit x.img = false → exec (.slotTableLoadArrive k) s = .next (set s 1)) ∧
      (x.t % 256 = 0 → slotTableOk d x.unit x.img = true →
        (x.t < s.gtc → exec (.slotTableLoadArrive k) s = .next (set (load ((s.gtc / 256 + 1) * 256)) 2)) ∧
        (s.gtc < x.t → exec (.slotTableLoadArrive k) s = .next (set (load x.t) 0))))) ∧
  (∀ (s : State) (d u t : Nat) (img : FMap (BitVec 128)), nextTab ((s.die d).slotTab u).next = some (t, img) → t ≤ s.gtc →
    let tab : SlotTab := { now := img, next := ((s.die d).slotTab u).next.erase (t, img) }
    exec (.slotTableActivate d u) s = .next (s.setDie d { s.die d with slotTabs := FMap.put (s.die d).slotTabs u tab })) ∧
  (∀ (s : State) (k a : Nat) (x : SlotLoad), s.slotLoads[k]? = some x → x.ans = some a →
    (∀ q num, x.src = .inl (q, num) → exec (.slotTableLoadAnswer k) s =
      .next (completePkt { s with slotLoads := s.slotLoads.eraseIdx k } q num (some (BitVec.ofNat 64 a)))) ∧
    (∀ i dst n, x.src = .inr i → (s.core i).waits = [.slotld dst n] → exec (.slotTableLoadAnswer k) s =
      .next (State.setCore { s with slotLoads := s.slotLoads.eraseIdx k } i
        { s.core i with waits := [], arch := ((s.core i).arch.setS dst (BitVec.ofNat 64 a)).setLatch 0 (BitVec.ofNat 512 a) })))

/-- Flits: what an output sends, what an end takes in, what waits too long (R33, R36, R37, R45, R47, R48). -/
def Obligations.FlitEvents : Prop :=
  (∀ (s : State) (d u p : Nat) (b : BePkt) (d' u' p' ln lat : Nat), u < 48 → pickOut s d u p 0 = .best b 0 1 → flitDest d u p b.lane = some (d', u', p', ln, lat) →
    Completes (.flitSend d u p) s fun t => (∃ f, t.wires = s.wires ++ [⟨s.gtc + lat, d', u', p', ln, f⟩] ∧ f.body = .best b.p 0 1 ∧
      flSeq f.link = (FMap.get 0 ((s.die d).router u).fseqs p + 1) % 1024) ∧ ((t.die d).router u).be = ((s.die d).router u).be.erase b ∧ FabricOnly s t) ∧
  (∀ (s : State) (d k : Nat) (b : BePkt), k < 8 → pickOut s d (48 + k) 1 0 = .best b 0 1 →
    Completes (.flitSend d (48 + k) 1) s fun t => ∃ f, t.outbox = s.outbox ++ [(d, k, f)] ∧ f.body = .best b.p 0 1 ∧
      flSeq f.link = (((linkAt s d k).lane 0).fseq + 1) % 1024 ∧ ((linkAt t d k).lane 0).unack = ((linkAt s d k).lane 0).unack ++ [f] ∧ FabricOnly s t) ∧
  (∀ (s : State) (d k : Nat), (linkAt s d k).dirty ≠ [] → (linkAt s d k).st = .active → frontierFree (48 + k) (linkAt s d k) s.gtc = true → k ≤ 10 →
    Completes (.frontierFlitSend d k) s fun t => FabricOnly s t ∧ (linkAt t d k).dirty = (linkAt s d k).dirty.drop 29 ∧ (linkAt t d k).lastFr = some s.gtc) ∧
  (∀ (s : State) (d k p : Nat) (f : Flit), k < 8 →
    let l := (linkAt s d k).lane 0
    Completes (.flitReceive d (48 + k) p .bad (some f)) s (fun t => FabricOnly s t ∧ t.agenda = s.agenda ∧ ((linkAt t d k).lane 0).nak = true ∧
      ((linkAt t d k).lane 0).got = l.got ∧ (linkAt t d k).replay = if l.nak then (linkAt s d k).replay else min ((linkAt s d k).replay + 1) 65535) ∧
    (∀ j es, flType f.link = 3 → flRsvd f.link = 0 → f.body = .frontier j es → flSeq f.link = (l.got + 1) % 1024 →
      Completes (.flitReceive d (48 + k) p .none (some f)) s fun t => FabricOnly s t ∧ t.agenda = .ev (.frontierFlitReceive d es) :: s.agenda ∧
        ((linkAt t d k).lane 0).got = flSeq f.link ∧ ((linkAt t d k).lane 0).ackOwed = true)) ∧
  (∀ (s : State) (d u p : Nat), (48 ≤ u ∨ p ≠ 4) → p ≠ 5 →
    let l := FMap.get [] ((s.die d).router u).circ p
    (∃ f ∈ l, f.missed = false ∧ f.due + 256 ≤ s.gtc) → Completes (.slotmiss d u p) s fun t => (t.die d).slotmiss = true ∧
      (FMap.get [] ((t.die d).router u).circ p).map (fun f => (f.circ, f.ws)) = l.map (fun f => (f.circ, f.ws)) ∧ FabricOnly s t ∧ t.cores = s.cores) ∧
  (∀ (s : State) (d u k : Nat) (b : BePkt), ((s.die d).router u).be[k]? = some b → b.esc = false → b.due + 64 ≤ s.gtc → exec (.escapeChannelMove d u k) s =
    .next (s.setDie d ((s.die d).setRouter u { (s.die d).router u with be := ((s.die d).router u).be.set k { b with esc := true } })))

/-- Link states, at both ends of a bridge; circuits of a link that leaves ACTIVE (R28, R41 to R43; log 65, log 66; a circuit without a source in the
module counts as crossing the links that carried its flits, log 104). Model's choice: durations and results of training (log 65), LAT and FSEQ (log
66), the links of a circuit without a source in the module (log 104). -/
def Obligations.LinkEvents : Prop :=
  ∀ (s : State) (d k : Nat), d < 8 → linkExists d k = true → let l := linkAt s d k
    let ends := fun (t : State) (P : Link → Link → Prop) => ∀ e ∈ bothEnds d k, P (linkAt s e.1 e.2) (linkAt t e.1 e.2)
    (∀ lat, l.st ∉ [.down, .active, .lowpower] → Completes (.linkTrainingComplete d k lat) s fun t => FabricOnly s t ∧ ends t fun _ m =>
      m.st = (if (s.mod.active = 0 ∧ k < 8) ∨ (s.mod.active = 3 ∧ 4 ≤ k ∧ k < 8) then .lowpower else .active) ∧ (lat ≤ 255 → m.lat = lat) ∧ m.fails = 0) ∧
    (l.st ∉ [.down, .active] →
      (l.fails < 2 → Completes (.linkTrainingFailure d k) s fun t => FabricOnly s t ∧
        ends t fun x m => m = { x with st := .detect, fails := l.fails + 1, lanes := [], replays := [] }) ∧
      (l.fails = 2 → k < 8 ∨ s.mod.ready = true → Completes (.linkTrainingFailure d k) s fun t => FabricOnly s t ∧
        ends t fun x m => m = { x with st := .down, fails := 0, lanes := [], replays := [] }) ∧
      (l.fails = 2 → 8 ≤ k → s.mod.ready = false → s.mod.fail = false → Completes (.linkTrainingFailure d k) s fun t => (ends t fun _ m => m.st = .down) ∧
        t.mod = { s.mod with fail := true, failDie := d, failStage := s.mod.stage } ∧ t.msix = s.msix ++ [(0, 0), (1, 0)])) ∧
    (l.st = .active → 64 < l.replays.length → Completes (.linkRetrain d k) s fun t => (ends t fun _ m => m.st = .detect ∧ m.replays = []) ∧
      CircuitsBroken s t (bothEnds d k)) ∧
    Completes (.linkstatRetry d k) s (fun t => (ends t fun _ m => m.st = .detect ∧ m.fails = 0) ∧
      (l.st = .active → CircuitsBroken s t (bothEnds d k))) ∧
    (∀ w, l.st = .lowpower → l.wakeAt = some w → w ≤ s.gtc → exec (.linkWake d k) s = .next (withLink s d k { l with st := .active, wakeAt := none }))

/-- Clocks rise; a packet is counted, dropped, held or taken in; a held write is applied; a channel word joins its buffer (R39, R49, R50, R151, R234 to
R236). -/
def Obligations.PacketEvents : Prop :=
  (∀ (s : State) (d j : Nat) (v : Word), j < 32 → Completes (.frontierFlitReceive d [(j, v)]) s fun t => FabricOnly s t ∧ t.cores = s.cores ∧
    dieClock (t.die d) j = (if serialGe (dieClock (s.die d) j) (v.extractLsb' 32 32) then dieClock (s.die d) j else v.extractLsb' 32 32) ∧
    ∀ i, i ≠ j → dieClock (t.die d) i = dieClock (s.die d) i) ∧
  (∀ (s : State) (d seq : Nat) (nack : Bool), s.xacts = [] → Completes (.writeAcknowledgement d seq nack) s fun t => t.mem = s.mem ∧
    (t.die d).unacked = (s.die d).unacked.filter fun x => x.1 ≠ BitVec.ofNat 32 seq) ∧
  (∀ (s : State) (d : Nat) (p : Packet),
    (packetBad d p = true → pkPtype p.hdr ≠ 2 → pkPtype p.hdr ≠ 4 → exec (.packetReceive d p) s = .next (badCounted s d)) ∧
    (packetBad d p = true → pkPtype p.hdr = 2 ∨ pkPtype p.hdr = 4 →
      exec (.packetReceive d p) s = .next (sendPacket (badCounted s d) d (pkDep p.hdr) (turnedAway s d p))) ∧
    (packetBad d p = false → groupDrops (s.die d) p.hdr = true → pkPtype p.hdr ≠ 6 → Completes (.packetReceive d p) s fun t =>
      (t.die d).gdrop = min ((s.die d).gdrop + 1) 65535 ∧ (t.die d).tskew = ((s.die d).tskew || decide (s.gtc + 16 < pkStamp p.hdr)) ∧ FabricOnly s t) ∧
    (Passes s d p → mustHold s d p = true → Completes (.packetReceive d p) s fun t => (t.die d).held = (s.die d).held ++ [p] ∧ FabricOnly s t) ∧
    (Passes s d p → mustHold s d p = false → (acceptPacket (skewed s d p) d p).absent = none →
      exec (.packetReceive d p) s = .next (acceptPacket (skewed s d p) d p)) ∧
    (∀ k, (s.die d).held[k]? = some p → mustHold s d p = false → groupDrops (s.die d) p.hdr = false →
      let s1 := s.setDie d { s.die d with held := (s.die d).held.eraseIdx k }
      (acceptPacket s1 d p).absent = none → exec (.heldWriteApply d k) s = .next (acceptPacket s1 d p))) ∧
  (∀ (s : State) (d id : Nat) (p : Packet) (x : Xact), s.absent = none → Passes s d p → mustHold s d p = false → p.msg = .req id →
    s.xacts.find? (fun y => y.id == id) = some x → Completes (.packetReceive d p) s fun t => t.xacts = (setXact s { x with st := .home }).xacts ∧ t.mem = s.mem) ∧
  (∀ (s : State) (i ch : Nat) (w : Word),
    exec (.channelWordArrive i ch w) s = .next (s.setCore i { s.core i with rx := FMap.put (s.core i).rx ch (FMap.get [] (s.core i).rx ch ++ [w]) }))

/-- Queue service and interrupts (R80, R83, R86, R97, R102, R103). -/
def Obligations.QueueEvents : Prop :=
  (∀ (s : State) (q : Nat) (p : QPkt) (v : Word), s.absent = none → (s.queue q).en = true → (s.queue q).out = [p] →
    (p.w = .done → p.res = some v → Completes (.queueService q) s fun t => (t.queue q).out = [] ∧ t.mem = s.mem ∧ t.cores = s.cores ∧
      (p.rd ≠ 0 → FMap.get 0 (t.queue q).c p.rd = v) ∧ ∀ k, k ≠ p.rd → FMap.get 0 (t.queue q).c k = FMap.get 0 (s.queue q).c k) ∧
    (p.w = .access → p.res = some v → Completes (.queueAccessReturn q) s fun t => (t.queue q).out = [{ p with w := .done }] ∧ (t.queue q).c = (s.queue q).c ∧
      t.mem = s.mem)) ∧
  (∀ (s s1 s2 : State) (d ctx va q v : Nat), (s.die d).tracked = [(ctx, va, q)] → (s.die d).extra = [] →
    wayHeld s (tlbSpindle (q / 8)) ctx va 40 .amo mQueue = false → linesOpen s (tlbSpindle (q / 8)) ctx va 40 mQueue = true →
    vaRead s (tlbSpindle (q / 8)) ctx va 40 mQueue = .ok (v, s1) →
    let w0 := fld v 0 8
    let n := (fld v 8 8 + 2 ^ 64 - fld v 16 8) % 2 ^ 64
    w0 / 2 ^ 11 % 2 = 1 → n ≠ 0 → (fld v 32 8 + 256 * (w0 / 2 ^ 16 % 2 ^ 16) ≤ s1.gtc ∨ max 1 (w0 / 2 ^ 32 % 2 ^ 16) ≤ n) →
    vaWrite s1 (tlbSpindle (q / 8)) ctx (va + 16) 8 (fld v 8 8) mQueue = (s2, none) → s2.absent = none →
    let s3 := sendMsix s2 (portOf (q / 8)) (w0 % 2 ^ 11)
    exec (.interruptSend d) s = .next (s3.setDie d { s3.die d with tracked := [], extra := [] }))

/-- Launches age, are admitted, load, are released, take stolen ranges (R108 to R113, R118, R175). -/
def Obligations.LaunchEvents : Prop :=
  (∀ (s : State) (l : Nat) (x : Launch), s.launch l = some x →
    (x.phase = .pending ∨ x.phase = .reserving →
      (x.frames < 15 → exec (.effectiveClassAge l) s = .next (s.setLaunch { x with frames := x.frames + 1 })) ∧
      (15 ≤ x.frames → exec (.effectiveClassAge l) s = .next (s.setLaunch { x with frames := 0, eff := x.eff - 1 }))) ∧
    (∀ d lo hi, exec (.stealGrantReceive l d lo hi) s = .next (s.setLaunch { x with
      shares := FMap.put x.shares d (lo, hi), granted := x.granted.erase (d, lo, hi), asking := x.asking.filter fun k => k != d }))) ∧
  (∀ (s : State) (d : Nat) (x : Launch), s.launches = [x] → x.phase = .reserving → x.dies = [s.dieBase + d] → x.resv = [] → idleHolds s = false →
    (∀ i ∈ x.cores, i / 64 = d ∧ (s.core i).mode = .free) → slotsFor s x = true → Completes (.admissionWindow d) s fun t =>
      t.launches = [{ x with resv := [s.dieBase + d], phase := .loading }] ∧ (∀ i ∈ x.cores, (t.core i).mode = .loading) ∧ t.mem = s.mem) ∧
  (∀ (s s1 : State) (l : Nat) (x : Launch), s.launch l = some x → x.phase = .loading →
    (∀ i ∈ liveCores s x, ∀ p ∈ [(x.dictva, 48 * x.dictn), (x.codeva, 2 * x.coden)], p.2 ≠ 0 →
      wsHolds s i x.ctx p.1 p.2 mUser = false ∧ wayHeld s i x.ctx p.1 p.2 .exec mUser = false) →
    (liveCores s x).foldlM (fun (acc : Bool × State) i => do
      let (b, s) ← loadCore acc.2 x i
      pure (acc.1 || b, s)) (false, s) = .ok (false, s1) → traceOn s1 x = false → s1.absent = none →
    let r := (max x.relgtc (s1.gtc + 512) + 255) / 256 * 256
    exec (.launchLoadComplete l) s = .next (s1.setLaunch { x with phase := .waiting, relT := r, relFirst := if x.relFirst = 0 then r else x.relFirst })) ∧
  (∀ (s : State) (l d : Nat) (x : Launch), s.launch l = some x → (x.phase = .waiting ∨ x.phase = .running) → s.dieBase + d ∈ x.dies →
    s.dieBase + d ∉ x.released → x.relT ≤ s.gtc → s.gtc ≤ x.relT + 1 →
    let s1 := (liveOn s x d).foldl (fun s i => releaseCore s x i) s
    let s2 := s1.setLaunch { x with phase := .running, released := x.released ++ [s.dieBase + d] }
    let s3 := checkEnd { s2 with agenda := ((liveOn s2 x d).map fun i => Todo.ev (.taskTake i)) ++ s2.agenda } l
    s3.absent = none → exec (.coreRelease l d) s = .next s3)

/-- Tasks are taken, joins complete, trace records are written (R114, R115, R116, R120, R121, R128, R129, R156, R310). Model's choice: a task start keeps
the bindings and command numbers of its core (log 98). -/
def Obligations.TaskEvents : Prop :=
  (∀ (s : State) (i : Nat) (l : Launch) (a b : Nat), hasWork s i = true → takeable s i = [] → shareOf s i = some (l, a, b) → traceOn s l = false →
    Completes (.taskTake i) s fun t => t.mem = s.mem ∧ t.queues = s.queues ∧
      let c := t.core i
      c.mode = .run ∧ c.task = some ⟨0, BitVec.ofNat 64 a, none⟩ ∧ c.keep = c.arch ∧ c.waits = [] ∧
      c.arch.getS 1 = l.argva ∧ c.arch.getS 2 = BitVec.ofNat 64 a ∧ c.arch.getS 3 = 0 ∧ c.arch.getS 4 = -1 ∧
      c.arch.getS 5 = BitVec.ofNat 64 (i + 64 * s.dieBase) ∧ c.arch.getS 6 = BitVec.ofNat 64 l.relT ∧ (∀ r, 7 ≤ r → r < 64 → c.arch.getS r = 0) ∧
      (∀ r, c.arch.getV r = 0) ∧ c.arch.fpos = 0 ∧ c.arch.chans = (s.core i).arch.chans ∧ c.arch.nextId = (s.core i).arch.nextId) ∧
  (∀ (s : State) (i : Nat) (p0 : Parked) (rest : List Parked) (g : SGroup), joinReady s i = true → (s.core i).parked = p0 :: rest →
    let p := parkedBack (poolOf s (s.core i).launch i) p0 rest.length
    s.groups.find? (fun g => g.id == p.group) = some g → (∀ l, s.launch (s.core i).launch = some l → traceOn s l = false) →
    Completes (.joinComplete i) s fun t => t.mem = s.mem ∧ (∀ x ∈ t.groups, x.id ≠ p.group) ∧
      let c := t.core i
      c.mode = .run ∧ c.task = some p.task ∧ c.parked = rest ∧ c.keep = c.arch ∧ c.arch.fpos = p.pos ∧ c.arch.rot = p.rot ∧ c.arch.loops = p.loops ∧
      c.arch.v = p.v ∧ c.arch.p = p.p ∧ c.arch.g = p.g ∧ c.arch.pend = [] ∧ c.arch.uiActive = false ∧ c.arch.shadow = p.shadow ∧
      (∀ r, r ≠ 0 → r < 64 → r ≠ p.dst → c.arch.getS r = FMap.get 0 p.s r) ∧
      (∀ j, j < 8 → FMap.get 0 c.arch.jrec j = (g.first.getD 0).extractLsb' (64 * j) 64) ∧
      (p.dst ≠ 0 → p.dst < 64 → c.arch.getS p.dst = BitVec.ofNat 64 (min g.nabn (2 ^ 32 - 1) + if g.requeued then 2 ^ 32 else 0))) ∧
  (∀ (s : State) (d : Nat) (r : TraceRec) (rest : List TraceRec) (n : Nat) (s2 s3 s4 : State), (s.die d).trace = r :: rest → traceHeld s d r = false →
    let m := mTrace s d
    let s1 := s.setDie d { s.die d with trace := rest }
    let va := (ctxWord s1 r.ctx 6).toNat % 2 ^ 56
    let lg := (ctxWord s1 r.ctx 7).toNat % 32
    let v := r.stamp.toNat + 2 ^ 64 * (r.kind + r.die % 32 * 2 ^ 8 + r.unit % 64 * 2 ^ 13 + r.a0.toNat * 2 ^ 32) + 2 ^ 128 * r.a1.toNat
    vaAmo s1 (tlbTrace d) r.ctx va 1 64 1 0 m = .ok (some n, s2) → vaWrite s2 (tlbTrace d) r.ctx (va + 64 + 32 * (n % 2 ^ lg)) 24 v m = (s3, none) →
    vaRelease s3 (tlbTrace d) r.ctx (va + 64 + 32 * (n % 2 ^ lg) + 24) 8 n m = (s4, none) → s4.absent = none →
    exec (.traceRecordWrite d) s = .next (bumpIval s4 4 (8 * 32 + s4.dieBase + d)))

/-- Bundles are fetched, results written, data arrive and land, BOBBIN_FULL rolls back, loops turn, ports form and drain their entries (R130 to R132,
R135, R142 to R150, R308, R356, R371). -/
def Obligations.StrandEvents : Prop :=
  (∀ (s : State) (i : Nat), let c := s.core i
    let a := c.arch
    let ix := (FMap.get 0 c.code a.fpos).toNat
    a.fhalt = false → a.fseq ≤ a.lo + 32 → a.flit = 0 → a.fpos < c.coden →
    (ix < c.dictn → Completes (.bundleFetch i) s fun t => ∃ rest, (t.core i).arch.fq = a.fq ++ ⟨a.fseq, a.fpos, false, a.frdy, none, FMap.get 0 c.dict ix, a.floops⟩ :: rest) ∧
    (c.dictn ≤ ix → ix < 0x2000 → Completes (.bundleFetch i) s fun t => (t.core i).arch.fhalt = true ∧
      (t.core i).arch.fq = a.fq ++ [⟨a.fseq, a.fpos, false, a.frdy, some 2, 0, a.floops⟩])) ∧
  (∀ (s : State) (i : Nat) (p : Pend), let a := (s.core i).arch
    a.pend = [p] → isDue a p = true →
    (∀ r v, p.eff = .s r v → Completes (.resultWriteback i) s fun t => (t.core i).arch = { a with pend := [] }.setS r v ∧ t.mem = s.mem) ∧
    (∀ r v m, p.eff = .v r v m → Completes (.resultWriteback i) s fun t =>
      (t.core i).arch = { a with pend := [] }.setV r ((a.getV r &&& ~~~m) ||| (v &&& m)) ∧ t.mem = s.mem) ∧
    (∀ parts, p.eff = .spad parts → Completes (.resultWriteback i) s fun t => (t.core i).arch = { a with pend := [] } ∧
      ∀ x, (∀ q ∈ parts, x < q.1 ∨ q.1 + q.2.1 ≤ x) → Memory.read (t.core i).spad x = Memory.read (s.core i).spad x) ∧
    (∀ b dest ws, p.eff = .land b.id dest ws → (s.core i).bobs = [b] →
      (∀ r, b.race = some r → Completes (.loadLanding i) s fun t => (t.core i).mode = .rolled (raceTrap r) p.pos ∧ t.mem = s.mem) ∧
      (b.race = none → b.poison ≠ 0 → exec (.loadLanding i) s =
        .next (s.setCore i (takeTrap (faultAt s i p.lane p.seq p.pos) (Trap.core 53 b.poison p.lane) (s.core i)))) ∧
      (b.race = none → b.poison = 0 → ∀ r n sx, dest = .s r n sx → Completes (.loadLanding i) s fun t => (t.core i).bobs = [] ∧ (t.core i).arch.pend = [] ∧
        (t.core i).spad = (s.core i).spad ∧ (ws = false → r ≠ 0 → (t.core i).arch.getS r =
          (if sx then BitVec.ofInt 64 (toSigned (8 * n) ((bobValue b).toNat % 256 ^ n)) else BitVec.ofNat 64 ((bobValue b).toNat % 256 ^ n))) ∧
        (ws = true → (t.core i).arch.s = a.s)) ∧
      (b.race = none → b.poison = 0 → ∀ r, dest = .v r → Completes (.loadLanding i) s fun t => (t.core i).bobs = [] ∧ (t.core i).arch.s = a.s ∧
        (ws = false → (t.core i).arch.getV r = bobValue b)))) ∧
  (∀ (s : State) (i : Nat) (b : Bob) (x : Transit), (s.core i).bobs = [b] → (s.core i).transit = [x] → x.bob = b.id → x.due ≤ s.gtc →
    Completes (.dataArrival i) s fun t => (t.core i).transit = [] ∧ (t.core i).arch = (s.core i).arch ∧ (t.core i).bobs =
      [{ b with data := b.data ||| (BitVec.ofNat 4096 (x.val % 256 ^ x.n) <<< (8 * x.off)), waiting := b.waiting - 1, arrived := max b.arrived s.gtc, poison := max b.poison x.poison }]) ∧
  (∀ (s : State) (i : Nat), let a := (s.core i).arch
    let pos := match a.fetched a.nextM with | some f => f.pos | none => a.fpos
    exec (.bobbinFull i) s = .next (s.setCore i (takeTrap (faultAt s i 15 a.nextM pos) (Trap.illegal 8 15) (s.core i)))) ∧
  (∀ (s : State) (i : Nat) (f : Fetched) (fq : List Fetched) (t : LoopEntry) (r : List LoopEntry), let a := (s.core i).arch
    a.fq = f :: fq → f.seq < a.lo → a.loops = t :: r → t.e = f.pos → a.ctl = none →
    (t.i + 1 < t.kn + t.dn → t.rt = false → exec (.loopBack i) s = .next (withArch s i { a with fq := fq, loops := { t with i := t.i + 1 } :: r })) ∧
    (t.i + 1 < t.kn + t.dn → t.rt = true → Completes (.loopBack i) s fun u => u.mem = s.mem ∧ (u.core i).arch =
      { a with fq := fq, loops := { t with i := t.i + 1 } :: r, rot := a.rot + 1 }.setG (mapG (a.rot + 1) 0) (decide (t.i + 1 < t.kn))) ∧
    (t.kn + t.dn ≤ t.i + 1 → exec (.loopBack i) s = .next (withArch s i { a with fq := fq, loops := r }))) ∧
  (∀ (s : State) (i n : Nat) (p : Port), FMap.find (s.core i).arch.ports n = some p →
    (portWants (s.core i) n = true → ∀ e s1, formRead s i p.img p.fill (p.moved + p.buf.length) = some (e, s1) → s1.absent = none →
      exec (.streamPortFetch i n) s = .next (s1.setCore i (putPort (s1.core i) n { p with buf := p.buf ++ [e] }))) ∧
    (∀ e rest, p.out = e :: rest → patSpad p.img = true → Completes (.streamPortDrain i n) s fun t => t.mem = s.mem ∧
      (t.core i).spad = Memory.writeN (s.core i).spad ((patAddr (patFmtOf (s.core i) p.img) p.img e.idx).toNat % 2 ^ 22)
        (patLive (patFmtOf (s.core i) p.img) p.img e.idx * fmtWidth (patFmtOf (s.core i) p.img) / 8) e.val.toNat))

/-- Segments commit; faults, reruns, saves and tile fetch of a core (R67, R157, R158, R164, R165, R166, R167, R168, R169, R170, R171, R172, R173, R176,
R187, R206, R229, R230, R231, R232, R355, R373). -/
def Obligations.SegmentEvents : Prop :=
  (∀ (s : State) (i : Nat), let c := s.core i
    MayCommit c → walksLeft s i = false →
    (endCtl c.arch = false → c.arch.uiGo = false → (commitSegment s i).absent = none → exec (.segmentCommit i) s = .next (commitSegment s i)) ∧
    (∀ k x pos, endCtl c.arch = true → c.arch.ctl = some (k, .exit (some x) pos) → (successor (commitSegment s i) i x).absent = none →
      exec (.segmentCommit i) s = .next (successor (commitSegment s i) i x)) ∧
    (c.arch.stores = [] → c.arch.cmds = [] → c.arch.posted = [] → c.arch.pushed = [] → c.arch.popped = [] → c.accs = [] →
      (∀ p ∈ c.arch.pend, isFolded p = false) → endCtl c.arch = false → c.arch.uiGo = false → s.absent = none → Completes (.segmentCommit i) s fun t =>
        (t.core i).arch = { c.arch with relSpad := [], latch := [], tLive := [], tMod := [], tZero := [], segK := c.arch.lo, segCk := true, uiGo := false, skip := none, acqs := 0 } ∧
        (t.core i).keep = (t.core i).arch ∧ (t.core i).tiles = c.tiles ∧ (t.core i).tilesK = c.tiles ∧ (t.core i).spadLog = [] ∧ (t.core i).spad = c.spad ∧
        t.mem = s.mem ∧ t.queues = s.queues)) ∧
  (∀ (s : State) (i : Nat) (a : Acc), firstAcc s i = some a →
    (∀ v, accAt s i a = .fill v → exec (.translationWalkComplete i a.id) s = .next (sendData (dropAcc s i a.id) i ⟨a.bob, a.off, a.n, v, s.gtc, 0⟩)) ∧
    (accAt s i a = .va [a.va] → pagePhys a a.va = none → ∀ code lvl e, translate s i (s.core i).ctx a.va (accKind a) mUser = .fault code lvl e →
      exec (.translationWalkComplete i a.id) s = .next (s.setCore i (takeTrap (faultAt s i a.lane a.seq a.pos)
        ⟨code, 0, a.lane, lvl, BitVec.ofNat 64 a.va, (match a.kind with | .rd => false | _ => true), e⟩ (s.core i)))) ∧
    (accAt s i a = .va [a.va] → pagePhys a a.va = none → a.kind = .walk → ∀ ph lvl e, translate s i (s.core i).ctx a.va (accKind a) mUser = .ok ph lvl e →
      let s1 := tlbFill s i (s.core i).ctx a.va lvl e
      let s2 := s1.setCore i { s1.core i with accs := (s1.core i).accs.map fun x => if x.id = a.id then { x with phys := some ph } else x }
      let s3 := checkEnd (handOn (s2.core i).accs.length s2 i) (s2.core i).launch
      s3.absent = none → exec (.translationWalkComplete i a.id) s = .next s3)) ∧
  (∀ (s : State) (i sc : Nat) (rest : List Wait), (s.core i).waits = .fence sc :: rest → waitMet s i (.fence sc) = true →
    exec (.fenceConditionMet i) s = .next (s.setCore i (dropPortBufs (if sc = 0 then { s.core i with waits := rest } else l1Drop { s.core i with waits := rest })))) ∧
  (∀ (s : State) (i pos : Nat) (tr : Trap), (s.core i).mode = .rolled tr pos → Untraced s i →
    (tr.code = 1 ∨ tr.code = 7 → Completes (.rollbackComplete i) s fun t => (t.core i).mode = .handler tr pos false 0 ∧ (t.core i).arch = (s.core i).arch ∧
      FMap.get [] t.cow (s.core i).ctx = FMap.get [] s.cow (s.core i).ctx ++ [i] ∧ t.mem = s.mem) ∧
    (tr.code = 60 → Completes (.rollbackComplete i) s fun t => (t.core i).mode = .frozen tr pos (coreRec s i tr pos true) ∧ t.mem = s.mem) ∧
    (tr.code ≠ 1 → tr.code ≠ 7 → tr.code ≠ 60 → (freezeCore (dropOrphans (s.setCore i (freshPair (s.core i))) i) i tr pos).absent = none →
      Completes (.rollbackComplete i) s fun t => (t.core i).mode = .frozen tr pos (coreRec s i tr pos true) ∧ (t.core i).arch = (s.core i).arch)) ∧
  (∀ (s : State) (i pos id : Nat) (tr : Trap), (s.core i).mode = .handler tr pos false id → (FMap.get [] s.cow (s.core i).ctx).head? = some i →
    cowHeld s i (s.core i).ctx tr.va.toNat = false →
    let w := walk s (s.core i).ctx tr.va.toNat
    (pteV w.e = true → w.code = 0 → pteCow w.e = false → exec (.cowLockAcquire i) s = .next (cowRelease (s.setCore i (replayCore (s.core i))) (s.core i).ctx)) ∧
    (w.code = 0 → pteV w.e = true → pteCow w.e = true → (ctxWord s (s.core i).ctx 3).toNat % 2 ^ 32 = 0 →
      let t := freezeCore (cowRelease s (s.core i).ctx) i tr pos
      t.absent = none → exec (.cowLockAcquire i) s = .next t) ∧
    (w.code = 0 → pteV w.e = true → pteCow w.e = true →
      let ctx := (s.core i).ctx
      let n := (ctxWord s ctx 3).toNat
      let f := hbm8 s (ptrDie (ctxWord s ctx 2)) (ptrAddr (ctxWord s ctx 2) + 8 * (n % 2 ^ 32 - 1))
      let size := 2 ^ lvlShift w.lvl
      n % 2 ^ 32 ≠ 0 → pteLoc f ≤ 1 → pteFrame f % size = 0 →
      let e := pteSet (pteSet (pteSet (copyEntry w.e) 20 3 (pteLoc f)) 23 5 (pteDie f)) 28 36 (pteFrame f / 65536)
      let page := tr.va.toNat / size * size
      let s1 := setCtxWord s ctx 3 (BitVec.ofNat 64 (n / 2 ^ 32 * 2 ^ 32 + (n % 2 ^ 32 - 1)))
      let s2 := setHbm (copyPage s1 ctx page size (some w.e) e) w.die w.ea 8 e.toNat
      s2.absent = none → exec (.cowLockAcquire i) s = .next { s2.setCore i { s2.core i with mode := .handler tr pos true s2.nextId } with
        shoots := s2.shoots ++ [⟨ctx, false, w.lvl, false, page, .core i s2.nextId, none, false⟩], nextId := s2.nextId + 1 })) ∧
  (∀ (s : State) (i : Nat), let c := s.core i
    (∀ line, exec (.detectedError i (.l1 line)) s = .next (s.setCore i { c with l1 := c.l1.filter fun x => x.line != line })) ∧
    (∀ b, exec (.detectedError i (.data b)) s = .next (s.setCore i { c with bobs := c.bobs.map fun x => if x.id = b then { x with poison := 3 } else x })) ∧
    (∀ g, c.mode = .run → errInSegment c (.granule g) = false → exec (.detectedError i (.granule g)) s =
      .next (s.setCore i (takeTrap (faultAt s i 15 0 (nextFetchPos c.arch)) (Trap.core 53 1 15) c))) ∧
    (∀ g, c.mode = .run → errInSegment c (.granule g) = true → c.rerun = none → Untraced s i → s.absent = none → Completes (.detectedError i (.granule g)) s fun t =>
      (t.core i).mode = .run ∧ (t.core i).rerun = some ⟨1, 0, 0, 0, false, []⟩ ∧ (t.core i).arch.s = c.keep.s ∧ (t.core i).spadLog = []) ∧
    (∀ r, c.rerun = some r → r.run = 1 → c.preempt = false → atBoundary c = true → storesWalked c = true → shqFull c = false → walksLeft s i = false →
      Completes (.rerunPairCompare i) s fun t => (t.core i).vols = r.volA ∧ t.mem = s.mem ∧
        (t.core i).rerun = some { r with run := 2, crcA := segmentCrc c, ctkA := c.arch.ctk, heldA := c.held }) ∧
    (∀ r, c.rerun = some r → r.run = 2 → c.preempt = false → MayCommit c → walksLeft s i = false → segmentCrc c = r.crcA → c.arch.ctk = r.ctkA → Untraced s i →
      endCtl c.arch = false → c.arch.uiGo = false →
      let t := commitSegment (s.setCore i { c with rerun := none }) i
      t.absent = none → exec (.rerunPairCompare i) s = .next t) ∧
    (saveRolls c = false → saveReady c = true → Completes (.preemptSave i) s fun t => ∃ img, (c.launch, i, img) ∈ t.saves ∧
      (c.launch, i, slotBytes (coreMid s i) s.gtc img) ∈ t.pool ∧ img.arch.s = c.keep.s ∧ img.arch.v = c.keep.v ∧ img.arch.p = c.keep.p ∧ img.keep = img.arch ∧ img.preempt = false) ∧
    (∀ n p e s1, let s0 := releasePins s i
      FMap.find (s0.core i).arch.tfports n = some p → tileWants (s0.core i) n = true → formTile s0 i p.img p.formed = some (e, s1) → s1.absent = none →
      exec (.tileFetch i n) s = .next (s1.setCore i { s1.core i with arch := { (s1.core i).arch with
        tfports := FMap.put (s1.core i).arch.tfports n { p with buf := p.buf ++ [e], formed := p.formed + 1 } } })))

/-- Accesses performed at their homes, races, relayouts and reshards tile by tile, Shuttle commands, Vent engines (R208 to R216, R218 to R220, R243, R251,
R376 to R380, R389 to R394). -/
def Obligations.EngineEvents : Prop :=
  (∀ (s : State) (x : Xact), x.id < 2 ^ 64 → s.xacts.find? (fun y => y.id == x.id) = some x → mayPerform s x = true → (performX s x).absent = none →
    exec (.accessPerformedAtHome x.id) s = .next (performX s x)) ∧
  (∀ (s : State) (k q : Nat) (r : BitVec 512), s.races[k]? = some (4, q, r) → q < 64 → exec (.sinterTrapFreeze k) s =
    .next (State.setQueue { s with races := s.races.eraseIdx k } q { s.queue q with frozen := true })) ∧
  (∀ (s s1 s2 : State) (k : Nat) (c : Conv), s.convs[k]? = some c →
    let dva := dWord c.img 15
    let t := tlbCarder c.die
    (c.reshard = false → c.started = false → engFrozen s c.die 50 = false → writeRec s t c c.img [0, 9] = (s1, none) →
      zeroBmap s1 t c (dWord c.img 13) (convShards c) (convTiles c) = (s2, none) →
      let r := startConv (updSlots (dropLocks s2 c.ctx dva false false) t c.ctx dva (relayUpd c.img)) c.id
      r.absent = none → exec (.relayoutStart k) s = .next r) ∧
    let rel := relOpen s c.die (relKeyConv c.id) = true
    let s0 := relDone s c.die (relKeyConv c.id)
    (c.reshard = false → convDone c = true → engFrozen s c.die 50 = false → recordOut s c = false → c.written = false → rel →
      writeRec s0 t c (relayEnd c.img) [8, 9, 0] = (s1, none) → (recWritten s1 c.id).absent = none →
      exec (.relayoutComplete k) s = .next (recWritten s1 c.id)) ∧
    (c.reshard = false → convDone c = true → engFrozen s c.die 50 = false → recordOut s c = false → c.written = true →
      let s3 := updSlots s t c.ctx dva fun d => if dRly d then relayEnd d else d
      let r := dropLocks { s3 with convs := s3.convs.eraseIdx k } c.ctx dva false false
      r.absent = none → exec (.relayoutComplete k) s = .next r) ∧
    (c.reshard = true → c.started = false → engFrozen s c.die 62 = false →
      (∀ x ∈ s.convs, x.written = true → ¬ (x.ctx = c.ctx ∧ dWord x.img 15 = dva)) →
      vaHeld s t c.ctx c.mapva 64 (mService s c) = false → ∀ m r0, vaRead s t c.ctx c.mapva 64 (mService s c) = .ok (m, r0) →
      writeRec r0 t c c.img ([11, 12] ++ (List.range 8).map (24 + ·) ++ [0]) = (s1, none) →
      zeroBmap s1 t c (dWord c.img 14) (convShards c) (convTiles c) = (s2, none) →
      let r := startConv (updSlots (dropLocks s2 c.ctx dva false true) t c.ctx dva (reshUpd c.img)) c.id
      r.absent = none → exec (.reshardPlan k) s = .next r) ∧
    (c.reshard = true → convDone c = true → engFrozen s c.die 62 = false → recordOut s c = false → c.written = false → rel →
      writeRec s0 t c (reshEnd c.img) ([8, 9, 10, 11, 12] ++ (List.range 16).map (16 + ·) ++ [0]) = (s1, none) → (recWritten s1 c.id).absent = none →
      exec (.reshardComplete k) s = .next (recWritten s1 c.id)) ∧
    (c.reshard = true → convDone c = true → engFrozen s c.die 62 = false → recordOut s c = false → c.written = true →
      let s3 := updSlots s t c.ctx dva fun d => if dRsh d then reshEnd d else d
      let r := dropLocks { s3 with convs := s3.convs.filter fun x => !(x.id == c.id) && !(x.ctx == c.ctx && dWord x.img 15 == dva && !x.reshard) } c.ctx dva true true
      r.absent = none → exec (.reshardComplete k) s = .next r)) ∧
  (∀ (s s2 s3 : State) (d e p t : Nat) (c : Conv),
    let s1 := setLock s c p fun l => { l with busy := if l.busy.contains t then l.busy else l.busy ++ [t] }
    let w := dWord c.img
    let posn := fun m tag u => posBits (slotFmt c.img) (elemIdx c.img m tag u) / 8
    (pieceFor s d e false = some (c, p, t) → engFrozen s d (50 + e) = false →
      let us := tileCoords c.img (dMap c.img) t
      let el := elemIdx c.img (dMap c.img)
      let src := us.map fun u => w 8 + p * w 10 + posn (dMap c.img) (dTag c.img) u
      tileInUse s1 c.ctx src = false → tileHeld s1 (tlbCarder d) c.ctx src (us.map fun u => w 9 + p * w 10 + posn (dMap c.img) (dPtag c.img) u) = false →
      us.foldlM (fun s u => copyElem s (tlbCarder d) c.ctx (slotFmt c.img) (w 8 + p * w 10) (el (dTag c.img) u) (w 9 + p * w 10) (el (dPtag c.img) u)) s1 = .ok s2 →
      setBmap s2 (tlbCarder d) c (w 13) p (convTiles c) t = .ok s3 → (pieceDone s3 c p t).absent = none →
      exec (.tileConvert d e) s = .next (pieceDone s3 c p t)) ∧
    (pieceFor s d e true = some (c, p, t) → engFrozen s d (54 + e) = false → (engFrozen s c.die 62 = false ∨ pieceBusy s c p t = true) →
      let us := tileCoords c.img (dNmap c.img) t
      let all := us.flatMap fun u => (p, u) :: haloCopies c.img p u
      let old := us.flatMap (oldAddrs s1 c p)
      let dests := all.map fun x => w 11 + x.1 * w 12 + posn (dNmap c.img) (newTag c.img) x.2
      tileInUse s1 c.ctx (dests ++ old) = false → tileHeld s1 (tlbVent d) c.ctx old dests = false → c.stop.contains (p, t) = false →
      all.foldl (fun (acc : Option (Except (MFault × Bool) State)) x => match acc with
        | some (.ok s) => putNew s (tlbVent d) c x.1 x.2 | x => x) (some (.ok s1)) = some (.ok s2) →
      setBmap s2 (tlbVent d) c (w 14) p (convTiles c) t = .ok s3 → (pieceDone s3 c p t).absent = none →
      exec (.reshardPiece d e) s = .next (pieceDone s3 c p t))) ∧
  (∀ (s : State) (i : Nat) (x : ShCmd), i % 64 ≠ 48 →
    (cmdToStart s i = some x → (startCmd s i x).absent = none → exec (.shuttleCommandStart i) s = .next (startCmd s i x)) ∧
    (∀ ch id, getCmd s i ch id = some x → cmdReady s i x = true →
      (cmdScope x = 0 ∨ relOpen s (i / 64) (relKeySh i ch id) = true) →
      let s0 := relDone s (i / 64) (relKeySh i ch id)
      (cmdCrec x = 0 ∨ x.recOut = true → exec (.shuttleCommandComplete i ch id) s = .next (retireCmd s0 i x)) ∧
      (cmdCrec x ≠ 0 → x.recOut = false → walkHeld s0 i x.ctx (cmdCrec x) = false → walkHeld s0 i x.ctx (cmdCrec x + 31) = false →
        ∀ s1 y, recordPut s0 i x (mUser.by 1 (chanMid s0 i x.ch) (s0.dieBase + i / 64) (x.id.setWidth 64)) = (s1, none) → getCmd s1 i ch id = some y →
        (y.recOut = true → y.unacked ≠ 0 → s1.absent = none → exec (.shuttleCommandComplete i ch id) s = .next s1) ∧
        (y.recOut = false ∨ y.unacked = 0 → (retireCmd s1 i y).absent = none → exec (.shuttleCommandComplete i ch id) s = .next (retireCmd s1 i y))))) ∧
  (∀ (s : State) (d t : Nat) (f : Nat × Nat × Nat), (s.die d).fires = [f] → f.1 = t →
    let e := FMap.get 0 (s.die d).vent t
    (vtV e = false → Completes (.ventFire d t) s fun u => (u.die d).fires = [] ∧ (u.die d).badpkt = satInc (s.die d).badpkt) ∧
    (∀ ph, vtV e = true → fireReady s f.2.1 = true → engFrozen s d (ventEp t) = false → spadPhys s (vtCtx e) (vtSrc e) (vtLen e) = some ph →
      rangeClosed s ph (vtLen e) = false → (∀ j ∈ fireTargets e (s.dieBase + d), j = s.dieBase + d ∨ maySend s d j (contribLine t) = true) →
      Completes (.ventFire d t) s fun u => (u.die d).fires = [] ∧
        FMap.get 0 (u.die d).vent t = vtSet e 448 32 (vtSinst e + 1))) ∧
  (∀ (s : State) (d k t i : Nat) (data : List Word) (h : BitVec 256), (s.die d).ventIn[k]? = some (t, i, data, h) → contribMoves s d k = true →
    let y := s.die d
    let e := FMap.get 0 y.vent t
    let st := FMap.get VentSt.init y.ventSt t
    (i % 2 ^ 32 = vtRinst e → exec (.ventContributionReceive d k) s = .next (s.setDie d { y with
      ventIn := y.ventIn.eraseIdx k, ventSt := FMap.put y.ventSt t { st with hold := st.hold ++ [(i / 2 ^ 32, data, h)] } })) ∧
    (vtRinst e < i % 2 ^ 32 → exec (.ventContributionReceive d k) s = .next (s.setDie d { y with
      ventIn := y.ventIn.eraseIdx k, ventSt := FMap.put y.ventSt t { st with park := some (i / 2 ^ 32, data, h) } }))) ∧
  (∀ (s : State) (d t : Nat), ventReady s d t = true →
    let st := FMap.get VentSt.init (s.die d).ventSt t
    let e := FMap.get 0 (s.die d).vent t
    (vtNexp e ≤ st.count → (vtFlag e = 0 ∨ relOpen s d (relKeyVent t) = true) →
      let r := ventFinish (relDone s d (relKeyVent t)) d t
      r.absent = none → exec (.ventContributionApply d t) s = .next r) ∧
    (∀ h rest s1, st.count + 1 < vtNexp e → vtOper e ≠ 3 → st.hold = h :: rest → ventApply s d t e h.2.1 = .ok s1 →
      let s2 := ackContrib (s1.setDie d { s1.die d with ventSt := FMap.put (s1.die d).ventSt t { st with hold := rest, count := st.count + 1 } }) d h.2.2 false
      s2.absent = none → exec (.ventContributionApply d t) s = .next s2)) ∧
  (∀ (s : State) (k j g d : Nat) (destroy : Bool) (w : Word), s.grpUpd[k]? = some (j, g, destroy, w) → localDie s j = some d →
    exec (.ventGroupUpdate k) s = .next (State.setDie { s with grpUpd := s.grpUpd.eraseIdx k } d { s.die d with
      groups := if destroy then FMap.erase (s.die d).groups g else FMap.put (s.die d).groups g w }))

namespace Sys2Proof.Claims

/-- Two-source operations: latency and result. -/
def scalarOps2 : List ((SR → Instr) × Nat × (Word → Word → Word)) :=
  [(.add, 1, fun a b => a + b), (.sub, 1, fun a b => a - b), (.and, 1, fun a b => a &&& b), (.or, 1, fun a b => a ||| b),
   (.xor, 1, fun a b => a ^^^ b), (.andn, 1, fun a b => a &&& ~~~b), (.shl, 1, fun a b => a <<< (b.toNat % 64)),
   (.shr, 1, fun a b => a >>> (b.toNat % 64)), (.sra, 1, fun a b => a.sshiftRight (b.toNat % 64)),
   (.rotl, 1, fun a b => a.rotateLeft (b.toNat % 64)),
   (.min, 1, fun a b => if a.toInt < b.toInt then a else b), (.max, 1, fun a b => if a.toInt < b.toInt then b else a),
   (.minu, 1, fun a b => if a.toNat < b.toNat then a else b), (.maxu, 1, fun a b => if a.toNat < b.toNat then b else a),
   (.mul, 3, fun a b => a * b), (.mulh, 3, fun a b => BitVec.ofInt 64 (a.toInt * b.toInt / 2 ^ 64)),
   (.mulhu, 3, fun a b => BitVec.ofNat 64 (a.toNat * b.toNat / 2 ^ 64)),
   (.div, 24, fun a b => if b = 0 then -1 else BitVec.ofInt 64 (a.toInt.tdiv b.toInt)),
   (.divu, 24, fun a b => if b = 0 then -1 else BitVec.ofNat 64 (a.toNat / b.toNat)),
   (.rem, 24, fun a b => if b = 0 then a else BitVec.ofInt 64 (a.toInt.tmod b.toInt)),
   (.remu, 24, fun a b => if b = 0 then a else BitVec.ofNat 64 (a.toNat % b.toNat))]
/-- One-source operations of latency 1; clz, ctz and popc count by the model's bit counters. -/
def scalarOps1 : List ((SR → Instr) × (Word → Word)) :=
  [(.mov, fun a => a), (.clz, fun a => BitVec.ofNat 64 (clzN 64 a.toNat)), (.ctz, fun a => BitVec.ofNat 64 (ctzN a.toNat 64)),
   (.popc, fun a => BitVec.ofNat 64 (popN a.toNat 64)), (.abs, fun a => if a.toInt < 0 then -a else a), (.neg, fun a => -a),
   (.bswap, bswap)]
/-- Immediate operations: whether the immediate is a shift count, and the result. -/
def scalarOpsI : List ((SI → Instr) × Bool × (Word → Word → Word)) :=
  [(.addi, false, fun a b => a + b), (.subi, false, fun a b => a - b), (.andi, false, fun a b => a &&& b), (.ori, false, fun a b => a ||| b),
   (.xori, false, fun a b => a ^^^ b), (.andni, false, fun a b => a &&& ~~~b), (.shli, true, fun a b => a <<< (b.toNat % 64)),
   (.shri, true, fun a b => a >>> (b.toNat % 64)), (.srai, true, fun a b => a.sshiftRight (b.toNat % 64)),
   (.rotli, true, fun a b => a.rotateLeft (b.toNat % 64)),
   (.mini, false, fun a b => if a.toInt < b.toInt then a else b), (.maxi, false, fun a b => if a.toInt < b.toInt then b else a),
   (.minui, false, fun a b => if a.toNat < b.toNat then a else b), (.maxui, false, fun a b => if a.toNat < b.toNat then b else a)]
/-- Logic on stage predicates. -/
def gOps : List ((SR → Instr) × (Bool → Bool → Bool)) :=
  [(.gand, fun a b => a && b), (.gor, fun a b => a || b), (.gxor, fun a b => a != b), (.gandn, fun a b => a && !b)]

end Sys2Proof.Claims

/-- Scalar integer operations complete with their results (R297, R298). -/
def Obligations.ScalarIntegerResults : Prop :=
  (∀ e ∈ scalarOps2, ∀ (f : SR) (s : State) (a b : Word) (c1 c2 c3 : Core), Acts s f.pr → f.nf = 0 → f.fn = 0 →
    SrcS s f.sa (here s) a c1 → SrcS s f.sb c1 b c2 → DstS s f.dst f.ws e.2.1 (e.2.2 a b) c2 c3 → exec (e.1 f) s = leaves s c3) ∧
  ((∀ e ∈ scalarOps1, ∀ (f : SR) (s : State) (a : Word) (c1 c2 : Core), Acts s f.pr → f.nf = 0 → f.fn = 0 → f.sb = 0 →
    SrcS s f.sa (here s) a c1 → DstS s f.dst f.ws 1 (e.2 a) c1 c2 → exec (e.1 f) s = leaves s c2) ∧
  (∀ (f : SR) (s : State) (a : Word) (c1 c2 : Core), Acts s f.pr → f.nf = 0 → f.sb = 0 → f.fn.toNat ≤ 2 →
    SrcS s f.sa (here s) a c1 →
    (DstS s f.dst f.ws 1 ((a.setWidth (8 * 2 ^ f.fn.toNat)).signExtend 64) c1 c2 → exec (.sext f) s = leaves s c2) ∧
    (DstS s f.dst f.ws 1 ((a.setWidth (8 * 2 ^ f.fn.toNat)).setWidth 64) c1 c2 → exec (.zext f) s = leaves s c2)) ∧
  (∀ (f : SR) (s : State) (a b : Word) (c1 c2 c3 : Core), Acts s f.pr → f.nf = 0 → SrcS s f.sa (here s) a c1 → SrcS s f.sb c1 b c2 →
    DstS s f.dst f.ws 1 (if readG c2 f.fn.toNat then a else b) c2 c3 → exec (.sel f) s = leaves s c3)) ∧
  ((∀ e ∈ scalarOpsI, ∀ (f : SI) (s : State) (a : Word) (c1 c2 : Core), Acts s f.pr → (e.2.1 = true → f.imm.toNat < 64) →
    SrcS s f.sa (here s) a c1 → DstS s f.dst f.ws 1 (e.2.2 a (f.imm.signExtend 64)) c1 c2 → exec (e.1 f) s = leaves s c2) ∧
  (∀ (f : SL) (s : State) (c1 : Core), Acts s f.pr →
    (DstS s f.dst f.ws 1 (f.imm.signExtend 64) (here s) c1 → exec (.li f) s = leaves s c1) ∧
    (f.dst.toNat ≤ 63 → DstS s f.dst f.ws 1 ((readS (here s) f.dst.toNat <<< 18) ||| f.imm.setWidth 64) (here s) c1 →
      exec (.lis f) s = leaves s c1)))

/-- Compares and stage-predicate logic write one logical g register (R299, R301). -/
def Obligations.ScalarPredicateResults : Prop :=
  (∀ (f : SR) (s : State) (a b : Word) (c1 c2 : Core), Acts s f.pr → f.nf = 0 → f.dst.toNat < 32 → f.fn.toNat ≤ 5 →
    SrcS s f.sa (here s) a c1 → SrcS s f.sb c1 b c2 →
    exec (.cmp f) s = leaves s (gResult s f.dst.toNat f.ws 1 (icond f.fn.toNat a.toInt b.toInt) c2) ∧
    exec (.cmpu f) s = leaves s (gResult s f.dst.toNat f.ws 1 (icond f.fn.toNat a.toNat b.toNat) c2)) ∧
  (∀ (f : SI) (s : State) (a : Word) (c1 : Core), Acts s f.pr → f.dst.toNat < 32 → (f.imm.extractLsb' 8 3).toNat ≤ 5 →
    SrcS s f.sa (here s) a c1 →
    exec (.cmpi f) s = leaves s (gResult s f.dst.toNat f.ws 1 (icond (f.imm.extractLsb' 8 3).toNat a.toInt (f.imm.setWidth 8).toInt) c1)) ∧
  (∀ e ∈ gOps, ∀ (f : SR) (s : State) (a b : Bool), Acts s f.pr → f.nf = 0 → f.fn = 0 → f.dst.toNat < 32 →
    gVal (here s) f.sa = some a → gVal (here s) f.sb = some b → exec (e.1 f) s = leaves s (gResult s f.dst.toNat f.ws 1 (e.2 a b) (here s))) ∧
  (∀ (f : SR) (s : State) (a : Word) (c1 : Core), Acts s f.pr → f.nf = 0 → f.fn = 0 → f.sb = 0 → f.dst.toNat < 32 →
    SrcS s f.sa (here s) a c1 → exec (.gset f) s = leaves s (gResult s f.dst.toNat f.ws 1 (a.getLsbD 0) c1))

namespace Sys2Proof.Claims

/-- Scalar and vector operations on two floats, by their exact-then-rounded function on encodings. -/
noncomputable def floatOps2 : List ((SR → Instr) × (FFmt → Nat → Nat → Nat × FlagBits)) :=
  [(.fadd, fadd), (.fsub, fsub), (.fmul, fmul), (.fdiv, fdiv), (.fmin, fmin), (.fmax, fmax)]
noncomputable def floatOps1 : List ((SR → Instr) × (FFmt → Nat → Nat × FlagBits)) := [(.fsqrt, fsqrt), (.fabs, fabs), (.fneg, fneg)]
noncomputable def vFloatOps2 : List ((VR → Instr) × (FFmt → Nat → Nat → Nat × FlagBits)) :=
  [(.vAddF, fadd), (.vSubF, fsub), (.vMulF, fmul), (.vMinF, fmin), (.vMaxF, fmax)]
noncomputable def vFloatOps1 : List ((VR → Instr) × (FFmt → Nat → Nat × FlagBits)) := [(.vAbsF, fabs), (.vNegF, fneg)]
noncomputable def fmaOps : List ((VT → Instr) × FFmt × Bool) :=
  [(.vFmaF32, f32, false), (.vFmaF16, f16, false), (.vFmaBf16, bf16, false), (.vFmsF32, f32, true), (.vFmsF16, f16, true), (.vFmsBf16, bf16, true)]
/-- Special functions: latency and function. -/
noncomputable def sfuOps : List ((FA → Instr) × Nat × (FFmt → Nat → Nat × FlagBits)) :=
  [(.vrsqs, 6, vrsqsE), (.vrcps, 6, vrcpsE), (.vexp2, 8, vexp2E), (.vlog2, 8, vlog2E), (.vtanh, 8, vtanhE), (.vsigm, 8, vsigmE), (.vsqrt, 8, fsqrt)]
/-- Integer element operations: latency, and the result for a type code, width and two elements. -/
noncomputable def vecOps2 : List ((VR → Instr) × Nat × (Nat → Nat → Nat → Nat → Nat)) :=
  [(.vAdd, 2, fun _ w a b => (a + b) % 2 ^ w), (.vSub, 2, fun _ w a b => (a + 2 ^ w - b) % 2 ^ w), (.vAnd, 2, fun _ _ a b => a &&& b),
   (.vOr, 2, fun _ _ a b => a ||| b), (.vXor, 2, fun _ _ a b => a ^^^ b), (.vAndn, 2, fun _ w a b => a &&& (2 ^ w - 1 - b)),
   (.vShl, 2, fun _ w a b => (a <<< (b % w)) % 2 ^ w), (.vShr, 2, fun _ w a b => a >>> (b % w)),
   (.vSra, 2, fun _ w a b => wrapN w (sgn w a / 2 ^ (b % w))), (.vMin, 2, fun _ w a b => if sgn w a < sgn w b then a else b),
   (.vMax, 2, fun _ w a b => if sgn w a < sgn w b then b else a), (.vMinu, 2, fun _ _ a b => if a < b then a else b),
   (.vMaxu, 2, fun _ _ a b => if a < b then b else a), (.vMul, 4, fun _ w a b => a * b % 2 ^ w),
   (.vMulh, 4, fun ty w a b => if ty % 2 = 0 then wrapN w (sgn w a * sgn w b / 2 ^ w) else a * b / 2 ^ w),
   (.vAdds, 2, fun _ w a b => satS w (sgn w a + sgn w b)), (.vSubs, 2, fun _ w a b => satS w (sgn w a - sgn w b)),
   (.vAddsu, 2, fun _ w a b => satU w ((a : Int) + b)), (.vSubsu, 2, fun _ w a b => satU w ((a : Int) - b))]
noncomputable def vecOps1 : List ((VR → Instr) × (Nat → Nat → Nat)) :=
  [(.vAbs, fun w a => if sgn w a < 0 then (2 ^ w - a) % 2 ^ w else a), (.vNeg, fun w a => (2 ^ w - a) % 2 ^ w), (.vClz, clzN),
   (.vPopc, fun w a => popN a w)]
noncomputable def vecOpsI : List ((VR → Instr) × Nat × Bool × (Nat → Nat → Nat → Nat)) :=
  [(.vAddi, 2, false, fun w a b => (a + b) % 2 ^ w), (.vSubi, 2, false, fun w a b => (a + 2 ^ w - b) % 2 ^ w), (.vAndi, 2, false, fun _ a b => a &&& b),
   (.vOri, 2, false, fun _ a b => a ||| b), (.vXori, 2, false, fun _ a b => a ^^^ b), (.vAndni, 2, false, fun w a b => a &&& (2 ^ w - 1 - b)),
   (.vShli, 2, true, fun w a b => (a <<< (b % w)) % 2 ^ w), (.vShri, 2, true, fun w a b => a >>> (b % w)),
   (.vSrai, 2, true, fun w a b => wrapN w (sgn w a / 2 ^ (b % w))), (.vMini, 2, false, fun w a b => if sgn w a < sgn w b then a else b),
   (.vMaxi, 2, false, fun w a b => if sgn w a < sgn w b then b else a), (.vMulli, 4, false, fun w a b => a * b % 2 ^ w)]
noncomputable def pOps : List ((VR → Instr) × (PWord → PWord → PWord)) :=
  [(.pand, fun a b => a &&& b), (.por, fun a b => a ||| b), (.pxor, fun a b => a ^^^ b), (.pandn, fun a b => a &&& ~~~b)]
/-- Permutations of two registers: greatest FN, and result element i. -/
noncomputable def permOps : List ((VR → Instr) × Nat × (VR → Nat → VWord → VWord → Nat → Nat)) :=
  [(.zip, 1, fun f w a b i => el w (if i % 2 = 0 then a else b) (f.fn.toNat * (4096 / w / 2) + i / 2)),
   (.unzip, 1, fun f w a b i => catElem w a b (2 * i + f.fn.toNat)), (.slide, 15, fun f w a b i => catElem w a b (i + f.fn.toNat)),
   (.vRot, 0, fun _ w a b i => el w a ((i + b.toNat % 2 ^ 32) % (4096 / w))), (.splat, 0, fun _ w a b _ => el w a (b.toNat % 2 ^ 32 % (4096 / w)))]
/-- ins and ext, which write the whole register. -/
noncomputable def insOps : List ((VR → Instr) × (Nat → VWord → VWord → Nat → Nat)) :=
  [(.vIns, fun w a b i => if i = b.toNat / 2 ^ 32 % 2 ^ 32 % (4096 / w) then b.toNat % 2 ^ w else el w a i),
   (.vExt, fun w a b i => if i = 0 then el w a (b.toNat % 2 ^ 32 % (4096 / w)) else 0)]
/-- Reductions: greatest type code, and value with flags over the unmasked elements. -/
noncomputable def redOps : List ((VR → Instr) × Nat × (Nat → List (Option Nat) → Nat × FlagBits)) :=
  [(.rsum, 8, rsumValue), (.rmax, 8, rminmaxValue true), (.rmin, 8, rminmaxValue false),
   (.rmaxu, 5, fun _ l => (foldInt (fun a b => if a < b then b else a) 0 l, 0)),
   (.rminu, 5, fun ty l => (foldInt (fun a b => if a < b then a else b) (2 ^ tyWidth ty - 1) l, 0)),
   (.rand, 5, fun ty l => (foldInt (fun a b => a &&& b) (2 ^ tyWidth ty - 1) l, 0)), (.ror, 5, fun _ l => (foldInt (fun a b => a ||| b) 0 l, 0)),
   (.rargmax, 8, rargmaxValue)]

end Sys2Proof.Claims

/-- Scalar float arithmetic, compares and conversions complete with result and flags (R300, R302, R303). The flags of fcvti are those of log 12 (model's
choice). -/
def Obligations.ScalarFloatAndConversionResults : Prop :=
  ((∀ e ∈ floatOps2, ∀ (f : SR) (s : State) (a b : Word) (c1 c2 : Core), Acts s f.pr → f.fn.toNat ≤ 2 → SrcS s f.sa (here s) a c1 → SrcS s f.sb c1 b c2 →
    floatDone s f (e.2 (fmtOfCode f.fn.toNat) (a.toNat % 2 ^ (fmtOfCode f.fn.toNat).width) (b.toNat % 2 ^ (fmtOfCode f.fn.toNat).width)) c2 (exec (e.1 f) s)) ∧
  (∀ e ∈ floatOps1, ∀ (f : SR) (s : State) (a : Word) (c1 : Core), Acts s f.pr → f.fn.toNat ≤ 2 → f.sb = 0 → SrcS s f.sa (here s) a c1 →
    floatDone s f (e.2 (fmtOfCode f.fn.toNat) (a.toNat % 2 ^ (fmtOfCode f.fn.toNat).width)) c1 (exec (e.1 f) s)) ∧
  (∀ (f : SR) (s : State) (a b : Word) (c1 c2 : Core), Acts s f.pr → f.dst.toNat / 32 ≤ 2 → SrcS s f.sa (here s) a c1 → SrcS s f.sb c1 b c2 →
    let t := fmtOfCode (f.dst.toNat / 32)
    let r := fcmpCond t f.fn.toNat (a.toNat % 2 ^ t.width) (b.toNat % 2 ^ t.width)
    exec (.fcmp f) s = leaves s (flagged s 4 f.nf [(0, r.2)] (gResult s (f.dst.toNat % 32) f.ws 4 r.1 c2)))) ∧
  (∀ (f : SR) (s : State) (a : Word) (c1 : Core), Acts s f.pr → f.fn.toNat ≤ 2 → f.sb.toNat < 32 → f.sb.toNat / 4 ≤ 3 → SrcS s f.sa (here s) a c1 →
    let t := fmtOfCode f.fn.toNat
    let t2 := f.sb.toNat % 4
    let rm := RMode.ofCode (f.sb.toNat / 4)
    (t2 ≤ 2 →
      let u := fmtOfCode t2
      let r := round t rm false (u.decode (a.toNat % 2 ^ u.width))
      floatDone s f (r.1, r.2 ||| u.snanFlag (a.toNat % 2 ^ u.width)) c1 (exec (.fcvt f) s)) ∧
    (let r := toIntRange rm (intBounds t2).1 (intBounds t2).2 (t.decode (a.toNat % 2 ^ t.width))
     floatDone s f (wrapN 64 r.1, r.2) c1 (exec (.fcvti f) s)) ∧
    floatDone s f (round t rm false (.ofInt (intRead t2 a))) c1 (exec (.icvtf f) s))

namespace Sys2Proof.Claims

/-- Class of a value with eb exponent and mb fraction bits, as Table R304 numbers the classes. -/
def classOf (eb mb x : Nat) : Nat :=
  let neg := x / 2 ^ (eb + mb) % 2 = 1
  let e := x / 2 ^ mb % 2 ^ eb
  let m := x % 2 ^ mb
  if e = 2 ^ eb - 1 then (if m = 0 then (if neg then 0 else 7) else if m < 2 ^ (mb - 1) then 8 else 9)
  else if e = 0 then (if m = 0 then (if neg then 3 else 4) else if neg then 2 else 5)
  else if neg then 1 else 6
/-- Exponent and fraction bits of the types that fclass takes: F32, F16, BF16. -/
def classTypes : List (BitVec 3 × Nat × Nat) := [(0, 8, 23), (1, 5, 10), (2, 8, 7)]

end Sys2Proof.Claims

/-- fclass writes a mask with exactly one bit set, the class of the value in its type; it raises no flag; its latency is 4 (R304). -/
def Obligations.ClassMask : Prop :=
  (∀ eb mb x, classOf eb mb x ≤ 9) ∧
  (∀ ty ∈ classTypes, ∀ (f : SR) (s : State) (a : Word) (c1 c2 : Core), Acts s f.pr → f.fn = ty.1 → f.sb = 0 → f.nf = 0 → SrcS s f.sa (here s) a c1 →
    DstS s f.dst f.ws 4 (BitVec.ofNat 64 (2 ^ classOf ty.2.1 ty.2.2 (a.toNat % 2 ^ (1 + ty.2.1 + ty.2.2)))) c1 c2 → exec (.fclass f) s = leaves s c2)

/-- Vector integer operations and moves complete element by element (R319, R321, R322, R323). -/
def Obligations.VectorIntegerAndMoveResults : Prop :=
  ((∀ e ∈ vecOps2, ∀ (f : VR) (s : State) (a b : VWord) (c1 c2 c3 : Core), Acts s f.pr → f.ty.toNat ≤ 5 → f.nf = 0 → f.fn = 0 →
    SrcV s f.sa (here s) a c1 → SrcV s f.sb c1 b c2 →
    let w := tyWidth f.ty.toNat
    DstV s f.dst f.ws e.2.1 w (buildV w fun i => e.2.2 f.ty.toNat w (el w a i) (el w b i)) (spread w (epMask c2 f.ep)) c2 c3 →
    exec (e.1 f) s = leaves s c3) ∧
  (∀ e ∈ vecOps1, ∀ (f : VR) (s : State) (a : VWord) (c1 c2 : Core), Acts s f.pr → f.ty.toNat ≤ 5 → f.nf = 0 → f.fn = 0 → f.sb = 0 →
    SrcV s f.sa (here s) a c1 →
    let w := tyWidth f.ty.toNat
    DstV s f.dst f.ws 2 w (buildV w fun i => e.2 w (el w a i)) (spread w (epMask c1 f.ep)) c1 c2 → exec (e.1 f) s = leaves s c2) ∧
  (∀ e ∈ vecOpsI, ∀ (f : VR) (s : State) (a : VWord) (c1 c2 : Core), Acts s f.pr → f.ty.toNat ≤ 5 → f.nf = 0 → f.fn = 0 →
    let w := tyWidth f.ty.toNat
    (e.2.2.1 = true → f.sb.toNat < w) → SrcV s f.sa (here s) a c1 →
    DstV s f.dst f.ws e.2.1 w (buildV w fun i => e.2.2.2 w (el w a i) (immOf w f.sb)) (spread w (epMask c1 f.ep)) c1 c2 →
    exec (e.1 f) s = leaves s c2)) ∧
  ((∀ (f : VR) (s : State) (a : VWord) (c1 c2 : Core), Acts s f.pr → f.ty.toNat ≤ 11 → f.nf = 0 → f.fn = 0 → f.sb = 0 → SrcV s f.sa (here s) a c1 →
    let w := tyWidth f.ty.toNat
    (DstV s f.dst f.ws 2 w a (spread w (epMask c1 f.ep)) c1 c2 → exec (.vMov f) s = leaves s c2) ∧
    (DstV s f.dst f.ws 2 w (buildV w fun _ => el w a 0) (spread w (epMask c1 f.ep)) c1 c2 → exec (.vBcast f) s = leaves s c2)) ∧
  (∀ (f : VR) (s : State) (a b : VWord) (c1 c2 c3 : Core), Acts s f.pr → f.ty.toNat ≤ 11 → f.nf = 0 → SrcV s f.sa (here s) a c1 → SrcV s f.sb c1 b c2 →
    let w := tyWidth f.ty.toNat
    let m := spread w (c2.arch.getP f.fn.toNat)
    DstV s f.dst f.ws 2 w ((a &&& m) ||| (b &&& ~~~m)) (spread w (epMask c2 f.ep)) c2 c3 → exec (.vSel f) s = leaves s c3))

/-- Vector compares, predicate logic and permutations complete (R325, R326, R327). -/
def Obligations.VectorPredicateAndPermutationResults : Prop :=
  ((∀ (f : VR) (s : State) (a b : VWord) (c1 c2 : Core), Acts s f.pr → f.ty.toNat ≤ 5 → f.nf = 0 → f.fn.toNat ≤ 5 → f.dst.toNat ≤ 15 →
    SrcV s f.sa (here s) a c1 →
    let w := tyWidth f.ty.toNat
    (SrcV s f.sb c1 b c2 →
      exec (.vCmp f) s = leaves s (pResult s f.dst.toNat f.ws 2
        (buildP c2 f.ep (4096 / w) fun i => icond f.fn.toNat (sgn w (el w a i)) (sgn w (el w b i))) c2) ∧
      exec (.vCmpu f) s = leaves s (pResult s f.dst.toNat f.ws 2
        (buildP c2 f.ep (4096 / w) fun i => icond f.fn.toNat (el w a i) (el w b i)) c2)) ∧
    exec (.vCmpi f) s = leaves s (pResult s f.dst.toNat f.ws 2
      (buildP c1 f.ep (4096 / w) fun i => icond f.fn.toNat (sgn w (el w a i)) (sgn w (el w (buildV w fun _ => immOf w f.sb) i))) c1)) ∧
  (∀ (f : VR) (s : State) (a b : VWord) (c1 c2 : Core), Acts s f.pr → 6 ≤ f.ty.toNat → f.ty.toNat ≤ 8 → f.fn.toNat ≤ 7 → f.dst.toNat ≤ 15 →
    SrcV s f.sa (here s) a c1 → SrcV s f.sb c1 b c2 →
    let t := fmtOfCode (f.ty.toNat - 6)
    let r := fun i => fcmpCond t f.fn.toNat (el t.width a i) (el t.width b i)
    let c3 := pResult s f.dst.toNat f.ws 2 (buildP c2 f.ep (4096 / t.width) fun i => (r i).1) c2
    exec (.vFcmp f) s = leaves s (flagged s 2 f.nf (((List.range (4096 / t.width)).filter fun i => (epMask c2 f.ep).getLsbD i).map fun i =>
      (i * t.width / 32, (r i).2)) c3)) ∧
  (∀ e ∈ pOps, ∀ (f : VR) (s : State) (a b : PWord), Acts s f.pr → f.ty = 0 → f.ep = 0 → f.nf = 0 → f.fn = 0 → f.dst.toNat ≤ 15 →
    pVal (here s) f.sa = some a → pVal (here s) f.sb = some b → exec (e.1 f) s = leaves s (pResult s f.dst.toNat f.ws 1 (e.2 a b) (here s))) ∧
  (∀ (f : VR) (s : State), Acts s f.pr → f.ty = 0 → f.ep = 0 → f.nf = 0 → f.fn = 0 → f.sb = 0 →
    (∀ (a : VWord) (c1 : Core), f.dst.toNat ≤ 15 → SrcV s f.sa (here s) a c1 →
      exec (.pset f) s = leaves s (pResult s f.dst.toNat f.ws 1 (BitVec.ofNat 1024 (2 ^ min (a.toNat % 2 ^ 32) 1024 - 1)) c1)) ∧
    (∀ (p : PWord), f.dst.toNat ≤ 15 → pVal (here s) f.sa = some p →
      exec (.pfirst f) s = leaves s (pResult s f.dst.toNat f.ws 1 (p &&& -p) (here s))) ∧
    (∀ (p : PWord) (c1 : Core), pVal (here s) f.sa = some p →
      DstV s f.dst f.ws 1 32 (BitVec.ofNat 4096 (popN p.toNat 1024)) (-1) (here s) c1 → exec (.pcount f) s = leaves s c1))) ∧
  ((∀ e ∈ permOps, ∀ (f : VR) (s : State) (a b : VWord) (c1 c2 c3 : Core), Acts s f.pr → f.ty.toNat ≤ 11 → f.nf = 0 → f.fn.toNat ≤ e.2.1 →
    SrcV s f.sa (here s) a c1 → SrcV s f.sb c1 b c2 →
    let w := tyWidth f.ty.toNat
    DstV s f.dst f.ws 2 w (buildV w (e.2.2 f w a b)) (spread w (epMask c2 f.ep)) c2 c3 → exec (e.1 f) s = leaves s c3) ∧
  (∀ (f : VR) (s : State) (a : VWord) (c1 c2 : Core), Acts s f.pr → f.ty.toNat ≤ 11 → f.nf = 0 → f.fn = 0 → f.sb = 0 → SrcV s f.sa (here s) a c1 →
    let w := tyWidth f.ty.toNat
    let p := epMask c1 f.ep
    (DstV s f.dst f.ws 2 w (buildV w fun i => el w a (4096 / w - 1 - i)) (spread w p) c1 c2 → exec (.rev f) s = leaves s c2) ∧
    (DstV s f.dst f.ws 2 w (compressV w (fun i => p.getLsbD i) a) (-1) c1 c2 → exec (.compress f) s = leaves s c2) ∧
    (DstV s f.dst f.ws 2 w (expandV w (fun i => p.getLsbD i) a) (-1) c1 c2 → exec (.expand f) s = leaves s c2)) ∧
  (∀ e ∈ insOps, ∀ (f : VR) (s : State) (a b : VWord) (c1 c2 c3 : Core), Acts s f.pr → f.ty.toNat ≤ 11 → f.nf = 0 → f.fn = 0 → f.ep = 0 →
    SrcV s f.sa (here s) a c1 → SrcV s f.sb c1 b c2 →
    let w := tyWidth f.ty.toNat
    DstV s f.dst f.ws 2 w (buildV w (e.2 w a b)) (-1) c2 c3 → exec (e.1 f) s = leaves s c3) ∧
  (∀ (f : VT) (s : State) (a b x : VWord) (c1 c2 c3 c4 : Core), Acts s f.pr → f.nf = 0 → f.rsvd = 0 →
    SrcV s f.sa (here s) a c1 → SrcV s f.sb c1 b c2 → SrcV s f.sc c2 x c3 →
    DstV s f.dst f.ws 2 16 (buildV 16 fun i => if el 16 x i ≥ 2 ^ 15 then 0 else catElem 16 a b (el 16 x i % 512)) (spread 16 (epMask c3 f.ep)) c3 c4 →
    exec (.perm f) s = leaves s c4))

/-- Float arithmetic by elements: add, sub, mul, min, max, abs, neg and the fused multiply-adds, each rounded once (R324). -/
def Obligations.VectorFloatArithmetic : Prop :=
  (∀ e ∈ vFloatOps2, ∀ (f : VR) (s : State) (a b : VWord) (c1 c2 : Core), Acts s f.pr → 6 ≤ f.ty.toNat → f.ty.toNat ≤ 8 → f.fn = 0 →
    SrcV s f.sa (here s) a c1 → SrcV s f.sb c1 b c2 →
    let t := fmtOfCode (f.ty.toNat - 6)
    vecDone s f.dst f.ws f.nf f.ep 4 t.width (fun i => e.2 t (el t.width a i) (el t.width b i)) c2 (exec (e.1 f) s)) ∧
  (∀ e ∈ vFloatOps1, ∀ (f : VR) (s : State) (a : VWord) (c1 : Core), Acts s f.pr → 6 ≤ f.ty.toNat → f.ty.toNat ≤ 8 → f.fn = 0 → f.sb = 0 →
    SrcV s f.sa (here s) a c1 →
    let t := fmtOfCode (f.ty.toNat - 6)
    vecDone s f.dst f.ws f.nf f.ep 4 t.width (fun i => e.2 t (el t.width a i)) c1 (exec (e.1 f) s)) ∧
  (∀ e ∈ fmaOps, ∀ (f : VT) (s : State) (a b x : VWord) (c1 c2 c3 : Core), Acts s f.pr → f.rsvd = 0 →
    SrcV s f.sa (here s) a c1 → SrcV s f.sb c1 b c2 → SrcV s f.sc c2 x c3 →
    let w := e.2.1.width
    vecDone s f.dst f.ws f.nf f.ep 4 w (fun i => ffma e.2.1 e.2.2 (el w a i) (el w b i) (el w x i)) c3 (exec (e.1 f) s))

/-- Reductions write the whole register, flags at position 0; the special functions of lane F act by elements, and vlse reduces (R333, R334 to R337). -/
def Obligations.ReductionAndSpecialFunctionResults : Prop :=
  (∀ e ∈ redOps, ∀ (f : VR) (s : State) (a : VWord) (c1 c2 : Core), Acts s f.pr → f.ty.toNat ≤ e.2.1 → f.sb = 0 → f.fn = 0 →
    (f.ty.toNat < 6 → f.nf = 0) → SrcV s f.sa (here s) a c1 →
    let r := e.2.2 f.ty.toNat (liveElems c1 f.ep (tyWidth f.ty.toNat) a)
    DstV s f.dst f.ws 6 32 (BitVec.ofNat 4096 r.1) (-1) c1 c2 → exec (e.1 f) s = leaves s (flagged s 6 f.nf [(0, r.2)] c2)) ∧
  (∀ e ∈ sfuOps, ∀ (f : FA) (s : State) (a : VWord) (c1 : Core), Acts s f.pr → f.ty.toNat ≤ 2 → SrcV s f.sa (here s) a c1 →
    let t := fmtOfCode f.ty.toNat
    vecDone s (f.dst.setWidth 7) f.ws f.nf f.ep e.2.1 t.width (fun i => e.2.2 t (el t.width a i)) c1 (exec (e.1 f) s)) ∧
  (∀ (f : FA) (s : State) (a : VWord) (c1 c2 : Core), Acts s f.pr → f.ty.toNat ≤ 2 → SrcV s f.sa (here s) a c1 →
    let t := fmtOfCode f.ty.toNat
    let l := liveElems c1 f.ep t.width a
    let r := heapReduce lseNode 8 (l.map fun x => match x with | some e => some (toF32 t e) | none => some (f32.signed true f32.infCode)) 0
    DstV s (f.dst.setWidth 7) f.ws 12 32 (BitVec.ofNat 4096 (r.1.getD 0)) (-1) c1 c2 →
    exec (.vlse f) s = leaves s (flagged s 12 f.nf [(0, r.2 ||| snanAny t l)] c2))

namespace Sys2Proof.Claims

noncomputable def rowOps : List ((VA → Instr) × RowOp) := [(.awr, .wr), (.aadd, .add), (.amax, .max), (.ascl, .scl)]

end Sys2Proof.Claims

/-- Operations of lane X change the staging, a tile or an epilogue configuration at the stated latency; macc counts against the beats of the throttle
window (R13, R14, R160, R344, R345, R347, R351). -/
def Obligations.MatrixResults : Prop :=
  (∀ (f : XP) (s : State) (a b : VWord) (c1 c2 : Core), Acts s f.pr → PushSrc s f.va (f.pa = 1) 0 (here s) a c1 → PushSrc s f.vb (f.pb = 1) 1 c1 b c2 →
    exec (.mpush f) s = leaves s (emit s.cur 1 (.stage (.push a b)) c2)) ∧
  (∀ (f : XS) (s : State), Acts s f.pr → f.arg.toNat < 8 →
    (f.arg.toNat % 2 = 0 → exec (.mscaleA f) s = leaves s (emit s.cur 1 (.stage (.scale false (f.arg.toNat / 2) (readV (here s) f.src.toNat))) (here s))) ∧
    (f.arg.toNat % 2 = 1 → exec (.mscaleB f) s = leaves s (emit s.cur 1 (.stage (.scale true (f.arg.toNat / 2) (readV (here s) f.src.toNat))) (here s)))) ∧
  (∀ (f : XS) (s : State), Acts s f.pr → f.arg.toNat < 4 → ecValid ((readV (here s) f.src.toNat).setWidth 2048) = true →
    exec (.mcfg f) s = leaves s (emit s.cur 1 (.ecfg f.arg.toNat ((readV (here s) f.src.toNat).setWidth 2048)) (here s))) ∧
  (∀ (f : XT) (s : State) (c1 : Core), Acts s f.pr →
    let fm := f.arg.toNat / 16 % 16
    let sub := f.arg.toNat / 256 % 4
    let t := f.tile.toNat
    let ph := tilePhase (here s) t
    f.arg.toNat < 1024 → fm ≠ 15 → (7 ≤ fm → sub ≤ 4 / fmK fm - 1) → (fm < 7 → sub = 0) → (fm ≠ 6 → ph = 0) →
    (here s).maccs < maccLimit s.mod → Touched s t true (here s) c1 →
    let a := FMap.get StageLevel.zero c1.arch.stage (f.arg.toNat % 4)
    let b := FMap.get StageLevel.zero c1.arch.stage (f.arg.toNat / 4 % 4)
    ∃ arch, (fm ≠ 6 → arch = c1.arch) ∧
      (fm = 6 → arch = { c1.arch with phase := FMap.set 0 c1.arch.phase t (if tilePhase c1 t = 7 then 0 else tilePhase c1 t + 1) }) ∧
      exec (.macc f) s = leaves s (emit s.cur 8 (.beat t fm sub a.a b.b a.sa b.sb (tilePhase c1 t = 7)) { c1 with maccs := c1.maccs + 1, arch := arch }))

/-- mshift rotates the staging, moving each level's four parts together; mzero leaves every element of its tile +0 and its phase 0 when its result is
written, one tick after its issue (R346, R348). Model's choice (log 95): mzero counts as a modification of its tile, of which one live one may be
modified. -/
def Obligations.StagingAndZero : Prop :=
  (∀ (f : XT) (s : State), Acts s f.pr →
    (f.tile = 0 → f.arg = 0 → exec (.mshift f) s = leaves s (emit s.cur 1 (.stage .shift) (here s))) ∧
    (f.arg = 0 →
      let md := if (here s).arch.tMod.contains f.tile.toNat then (here s).arch.tMod else f.tile.toNat :: (here s).arch.tMod
      let z := if (here s).arch.tZero.contains f.tile.toNat then (here s).arch.tZero else f.tile.toNat :: (here s).arch.tZero
      ((here s).arch.tLive.filter fun x => md.contains x).length ≤ 1 →
      exec (.mzero f) s = leaves s (emit s.cur 1 (.mzero f.tile.toNat) { here s with arch := { (here s).arch with tMod := md, tZero := z } }))) ∧
  (∀ (c : Core) (p : Pend), p.eff = .stage .shift →
    let l := fun (x : Core) i => FMap.get StageLevel.zero x.arch.stage i
    let x := applyEff p c
    l x 1 = l c 0 ∧ l x 2 = l c 1 ∧ l x 3 = l c 2 ∧ l x 0 = l c 3 ∧ x.tiles = c.tiles ∧ x.arch.s = c.arch.s ∧ x.arch.v = c.arch.v) ∧
  (∀ (c : Core) (p : Pend) (t : Nat), p.eff = .mzero t →
    let x := applyEff p c
    (∀ r, FMap.get 0 (FMap.get [] x.tiles t) r = 0) ∧ tilePhase x t = 0 ∧ (∀ k, k ≠ t → FMap.get [] x.tiles k = FMap.get [] c.tiles k ∧ tilePhase x k = tilePhase c k) ∧
      x.arch.stage = c.arch.stage ∧ x.arch.s = c.arch.s ∧ x.arch.v = c.arch.v ∧ x.spad = c.spad)

/-- ard gives a row's even and odd columns to two registers; awr, aadd, amax and ascl change the row named by rs[7:0] (R349, R352). -/
def Obligations.AccumulatorRows : Prop :=
  (∀ (f : VA) (s : State) (c1 c2 : Core), Acts s f.pr → VaLegal s f → f.nf = 0 → Touched s f.tile.toNat false (here s) c1 →
    let x := tileRow c1 f.tile.toNat ((readS c1 f.rs.toNat).toNat % 256)
    let part := fun h => (buildV 32 fun p => rowElem x (2 * p + h), buildV 32 fun p => if (epMask c1 f.ep).getLsbD (2 * p + h) then 2 ^ 32 - 1 else 0)
    DstVs s f.vd f.ws 6 [part 0, part 1] c1 c2 → exec (.ard f) s = leaves s c2) ∧
  (∀ e ∈ rowOps, ∀ (f : VA) (s : State) (c1 : Core), Acts s f.pr → VaLegal s f → f.ws = 0 → (e.2 = .wr → f.nf = 0) →
    Touched s f.tile.toNat true (here s) c1 →
    let val := buildRow fun j => el 32 (readV c1 (f.vd.toNat + j % 2)) (j / 2)
    let mask := buildRow fun j => if (epMask c1 f.ep).getLsbD j then 2 ^ 32 - 1 else 0
    exec (e.1 f) s = leaves s (emit s.cur 3 (.row f.tile.toNat ((readS c1 f.rs.toNat).toNat % 256) e.2 val mask (f.nf = 1)) c1))

/-- A taken branch, a call, a return and the loop operations leave their transfer waiting for every group to issue the bundle; call writes the next
position to s31 (R132, R305 to R308). -/
def Obligations.ControlResults : Prop :=
  (∀ (f : SC) (s : State), Acts s f.pr →
    (f.fn = 0 → f.sa = 0 → FreeOfE s (here s) → exec (.br f) s = leaves s (withCtl s (.jump f.tgt.toNat) (here s))) ∧
    (1 ≤ f.fn.toNat → f.fn.toNat ≤ 6 → ∀ x c1, SrcS s f.sa (here s) x c1 →
      (taken f.fn.toNat x = false → exec (.br f) s = leaves s c1) ∧
      (taken f.fn.toNat x = true → FreeOfE s c1 → exec (.br f) s = leaves s (withCtl s (.jump f.tgt.toNat) c1)))) ∧
  (∀ (f : SC) (s : State), Acts s f.pr →
    let link := fun c => emitLatch s.cur 1 (BitVec.ofNat 512 (after s.cur)) (emit s.cur 1 (.s 31 (BitVec.ofNat 64 (after s.cur))) c)
    (f.fn = 0 → f.sa = 0 → FreeOfE s (here s) → exec (.call f) s = leaves s (withCtl s (.jump f.tgt.toNat) (link (here s)))) ∧
    (f.fn = 1 → f.tgt = 0 → ∀ x c1, SrcS s f.sa (here s) x c1 → FreeOfE s c1 →
      exec (.call f) s = leaves s (withCtl s (.jump (x.toNat % 65536)) (link c1)))) ∧
  (∀ (f : SC) (s : State) (x : Word) (c1 : Core), Acts s f.pr → f.fn = 0 → f.tgt = 0 → SrcS s f.sa (here s) x c1 → FreeOfE s c1 →
    exec (.ret f) s = leaves s (withCtl s (.jump (x.toNat % 65536)) c1)) ∧
  (∀ (f : SC) (s : State), Acts s f.pr → f.fn = 0 → f.sa = 0 → loopsAt s.cur (here s) ≠ [] →
    exec (.lbreak f) s = leaves s (withCtl s (.pop f.tgt.toNat) (here s))) ∧
  (∀ (f : SC) (s : State) (x : Word) (c1 : Core), Acts s f.pr → f.fn = 0 → SrcS s f.sa (here s) x c1 → FreeOfE s c1 →
    let e := f.tgt.toNat
    let n := x.toNat % 2 ^ 32
    (loopsAt s.cur c1).length < 6 → after s.cur ≤ e → e < c1.coden → beyondTop (loopsAt s.cur c1) e = false →
    (n = 0 → exec (.loop f) s = leaves s (withCtl s (.jump (e + if FMap.get 0 c1.code e = 0xFFFF then 25 else 1)) c1) ∧
      exec (.rloop f) s = leaves s (withCtl s (.jump (e + if FMap.get 0 c1.code e = 0xFFFF then 25 else 1)) c1)) ∧
    (n ≠ 0 → exec (.loop f) s = leaves s (withCtl s (.push (after s.cur) ⟨after s.cur, e, n, 0, 0, false⟩) c1) ∧
      exec (.rloop f) s = leaves s (withCtl s (.push (after s.cur) ⟨after s.cur, e, n, x.toNat / 2 ^ 32 % 256, 0, true⟩) c1)))

/-- Task control and CSR operations complete (R309, R310, R311, R312, R313, R314, R315, R316). -/
def Obligations.TaskControlAndCsrResults : Prop :=
  ((∀ (f : SC) (s : State) (lo hi : Word) (c1 c2 : Core), Acts s f.pr → f.fn = 0 → f.tgt.toNat < 128 →
    SrcS s f.sa (here s) lo c1 → SrcS s (f.tgt.setWidth 7) c1 hi c2 →
    (match c2.task with | some t => t.ply | none => 0) + 1 < c2.nply → holdsGroup c2 = false → lo.toNat ≤ hi.toNat →
    exec (.spawn f) s = leaves s { c2 with arch := { c2.arch with posted := c2.arch.posted ++ [.spawn lo hi] } }) ∧
  (∀ (f : SC) (s : State), Acts s f.pr → f.fn = 0 → f.sa = 0 →
    (f.tgt.toNat < 64 → (here s).arch.uiActive = false →
      exec (.join f) s = leaves s (withCtl s (.join (mapReg (here s).arch.rot f.tgt.toNat) (after s.cur)) (here s))) ∧
    (f.tgt = 0 → MayExit (here s) → exec (.exit f) s = leaves s (withCtl s (.exit none (after s.cur)) (here s))) ∧
    (f.tgt.toNat < 256 →
      ((here s).arch.skip = some s.cur.pos → exec (.trap f) s = leaves s { here s with arch := { (here s).arch with skip := none } }) ∧
      ((here s).arch.skip ≠ some s.cur.pos → exec (.trap f) s = leaves s (takeTrap s.cur (Trap.core 54 f.tgt.toNat s.cur.lane) (here s)))) ∧
    (f.tgt = 0 → (here s).arch.uiActive = true → (loopsAt s.cur (here s)).length = (here s).arch.uiDepth →
      exec (.uiret f) s = leaves s (withCtl s .uiret (here s)))) ∧
  (∀ (f : SC) (s : State) (x : Word) (c1 : Core), Acts s f.pr → f.tgt = 0 → SrcS s f.sa (here s) x c1 → MayExit c1 →
    (f.fn = 1 → exec (.exit f) s = leaves s (withCtl s (.exit (some x) (after s.cur)) c1)) ∧
    (f.fn = 0 → exec (.exitab f) s = leaves s (withCtl s (.exitab (x.toNat % 256) s.cur.pos) c1)))) ∧
  (∀ (f : SI) (s : State) (v : Word), Acts s f.pr → f.imm.toNat < 1024 → csrValue s s.cur (here s) f.imm.toNat = some v →
    let n := f.imm.toNat
    let r := if csrVolatile n then volatile (here s) v else (v, here s)
    (f.sa = 0 → ∀ c2, DstS s f.dst f.ws 1 r.1 r.2 c2 → exec (.csrr f) s = leaves s c2) ∧
    (∀ x c2, SrcS s f.sa r.2 x c2 →
      (csrFmtOk n x = true → ∀ c3, DstS s f.dst f.ws 1 r.1 (csrWrite s.cur n x c2) c3 → exec (.csrw f) s = leaves s c3) ∧
      (csrRw n = true → csrFmtOk n (r.1 ||| x) = true → ∀ c3, DstS s f.dst f.ws 1 r.1 (csrWrite s.cur n (r.1 ||| x) c2) c3 →
        exec (.csrs f) s = leaves s c3) ∧
      (csrRw n = true → csrFmtOk n (r.1 &&& ~~~x) = true → ∀ c3, DstS s f.dst f.ws 1 r.1 (csrWrite s.cur n (r.1 &&& ~~~x) c2) c3 →
        exec (.csrc f) s = leaves s c3)))

namespace Sys2Proof.Claims

/-- Loads of form MA: bytes, alignment, destination. -/
noncomputable def loadOps : List ((MA → Instr) × Nat × Nat × (Nat → LandDest)) :=
  [(.ldI8, 1, 1, fun r => .s r 1 true), (.ldI16, 2, 2, fun r => .s r 2 true), (.ldI32, 4, 4, fun r => .s r 4 true), (.ldI64, 8, 8, fun r => .s r 8 true),
   (.ldN8, 1, 1, fun r => .s r 1 false), (.ldN16, 2, 2, fun r => .s r 2 false), (.ldN32, 4, 4, fun r => .s r 4 false),
   (.vld, 512, 64, fun r => .v r), (.vldb, 8, 8, fun r => .bcast r)]
noncomputable def storeOps : List ((MA → Instr) × Nat) := [(.stB8, 1), (.stB16, 2), (.stB32, 4), (.stB64, 8)]

end Sys2Proof.Claims

/-- Loads of form MA, ldacq and vldx issue one landing at their effective address (R359 to R362). Model's choice (log 96): scratchpad data arrive 4 cycles
after the issue. -/
def Obligations.LoadsIssue : Prop :=
  (∀ e ∈ loadOps, ∀ (f : MA) (s : State) (ea : EA), Acts s f.pr → f.dt.toNat ≤ 63 → CanLand s (here s) → Addr s (maEa s f e.2.1) e.2.1 e.2.2.1 false ea →
    loads s (e.2.2.2 (mapReg (here s).arch.rot f.dt.toNat)) f.ws ea e.2.1 false (exec (e.1 f) s)) ∧
  (∀ (f : MA) (s : State) (ea : EA), Acts s f.pr → f.dt.toNat ≤ 63 → (f.off.extractLsb' 10 3).toNat ≤ 4 → CanLand s (here s) →
    Addr s (readS (here s) f.bs.toNat + BitVec.ofInt 64 ((f.off.setWidth 10).toInt * 8)) 8 8 false ea →
    loads s (.acq (mapReg (here s).arch.rot f.dt.toNat) (f.off.extractLsb' 10 3).toNat) f.ws ea 8 true (exec (.ldacq f) s)) ∧
  (∀ (f : MX) (s : State) (ea : EA), Acts s f.pr → f.fn = 0 → f.dt.toNat ≤ 63 → CanLand s (here s) → Addr s (mxEa s f) 512 64 false ea →
    loads s (.v (mapReg (here s).arch.rot f.dt.toNat)) f.ws ea 512 false (exec (.vldx f) s))

/-- Stores, gathers and scatters go to the addresses they compute (R159, R357, R359, R360, R361, R362, R363). Model's choice (log 96): scratchpad data of
a gather arrive 4 cycles after the issue. -/
def Obligations.StoresIssue : Prop :=
  ((∀ e ∈ storeOps, ∀ (f : MA) (s : State) (ea : EA) (v : Word) (c1 : Core), Acts s f.pr → f.ws = 0 → Addr s (maEa s f e.2) e.2 e.2 true ea →
    SrcS s f.dt (here s) v c1 → stores s ea e.2 (v.toNat % 256 ^ e.2) none c1 (exec (e.1 f) s)) ∧
  (∀ (f : MA) (s : State) (ea : EA) (v : VWord) (c1 : Core), Acts s f.pr → f.ws = 0 → Addr s (maEa s f 512) 512 64 true ea →
    SrcV s f.dt (here s) v c1 → stores s ea 512 v.toNat none c1 (exec (.vst f) s)) ∧
  (∀ (f : MX) (s : State) (ea : EA), Acts s f.pr → f.ws = 0 →
    (f.fn.toNat ≤ 4 → Addr s (mxEa s f) 8 8 true ea → ∀ v c1, SrcS s f.dt (here s) v c1 → stores s ea 8 v.toNat (some f.fn.toNat) c1 (exec (.strel f) s)) ∧
    (f.fn = 0 → Addr s (mxEa s f) 512 64 true ea → ∀ v c1, SrcV s f.dt (here s) v c1 → stores s ea 512 v.toNat none c1 (exec (.vstx f) s)))) ∧
  (∀ (f : MX) (s : State) (l : List (Nat × EA)), Acts s f.pr → f.fn.toNat < 32 →
    let n := if f.fn.getLsbD 0 then 8 else 4
    (f.dt.toNat ≤ 63 → CanLand s (here s) → gatherAddrs f false s.cur (here s) = .ok l →
      ∃ c', exec (.gather f) s = leaves s c' ∧ landIssued s
        (.gather (mapReg (here s).arch.rot f.dt.toNat) (spread (8 * n) (epMask (here s) (f.fn.extractLsb' 1 4)))) (f.ws = 1)
        (l.flatMap fun p => eaDev p.2 n (p.1 * n)) (l.flatMap fun p => eaSpad p.2 n (p.1 * n)) false (here s) c') ∧
    (f.ws = 0 → gatherAddrs f true s.cur (here s) = .ok l → ∀ v c1, SrcV s f.dt (here s) v c1 →
      let sp := l.filterMap fun p => match p.2 with | .spad o => some (o, n, 2 ^ n - 1, el (8 * n) v p.1) | .dev _ => none
      let dv := l.filterMap fun p => match p.2 with | .dev a => some (a, n, el (8 * n) v p.1) | .spad _ => none
      ∀ c2, sp.foldlM (fun c p => logSpad s.cur c p.1 p.2.1) c1 = .ok c2 →
      let c3 := if sp = [] then c2 else emit s.cur 1 (.spad sp) c2
      (dv = [] → exec (.scatter f) s = leaves s c3) ∧
      (dv ≠ [] → c3.arch.stores.length + waitingStores c3 < 256 → ∃ c' ids, exec (.scatter f) s = leaves s c' ∧
        c'.arch = { c3.arch with stores := c3.arch.stores ++ [⟨s.cur.seq, s.cur.lane, .dev dv none, ids, s.cur.pos⟩] } ∧ c'.spad = c3.spad)))

/-- Descriptor slots, stream ports, tile-fetch ports and channels complete (R364, R365, R366, R367, R371, R372, R373, R374). Model's choice (log 95):
cbind and cunbind change the binding at their issue. -/
def Obligations.SlotsAndStreams : Prop :=
  (∀ (f : MX) (s : State), Acts s f.pr →
    (f.dt.toNat < 32 → f.ix = 0 → f.fn = 0 → f.ws = 0 → (readS (here s) f.bs.toNat).toNat % 8 = 0 → (readS (here s) f.bs.toNat).toNat < 2 ^ 56 →
      CanLand s (here s) →
      loads s (.slot f.dt.toNat (readS (here s) f.bs.toNat)) 0 (.dev (readS (here s) f.bs.toNat).toNat) 256 false (exec (.dld f) s)) ∧
    (∀ d, Slot (here s) f.bs d →
      (f.dt = 0 → f.ix = 0 → f.fn = 0 → f.ws = 0 → exec (.devict f) s = leaves s (emit s.cur 1 (.slot f.bs.toNat none) (here s))) ∧
      (f.fn.toNat < 32 → f.ix = 0 → f.dt.toNat ≤ 63 → ∀ c2, DstS s f.dt f.ws 1 (BitVec.ofNat 64 (dWord d f.fn.toNat)) (here s) c2 →
        exec (.dget f) s = leaves s c2) ∧
      (f.fn.toNat < 64 → f.dt = 0 → f.ws = 0 → dRly d = false → dRsh d = false → tagOk d f.fn.toNat = true →
        (readS (here s) f.ix.toNat).toNat < 2 ^ 56 →
        let d' := dSetWord (dSetBits (dSetBits d 45 6 f.fn.toNat) 51 1 1) 9 (readS (here s) f.ix.toNat).toNat
        let c1 := emit s.cur 1 (.slot f.bs.toNat (some d')) (here s)
        exec (.relay f) s = leaves s { c1 with arch := { c1.arch with posted := c1.arch.posted ++ [.relay d'] } }) ∧
      (f.fn = 0 → f.ws = 0 → f.ix.toNat % 2 = 0 → ∀ nb c1, SrcS s f.dt (here s) nb c1 → CanLand s c1 →
        let va := (readS (here s) f.ix.toNat).toNat
        va % 64 = 0 → va < 2 ^ 56 →
        ∃ c', exec (.reshard f) s = leaves s c' ∧ landIssued s (.map f.bs.toNat nb (readS (here s) (f.ix.toNat + 1)) (readS (here s) f.ix.toNat)) false
          (eaDev (.dev va) 64 0) [] false c1 c'))) ∧
  (∀ (f : MX) (s : State), Acts s f.pr → f.bs = 0 → f.ix = 0 →
    (f.ws = 0 → f.fn.toNat < 8 → ∀ v c1, SrcV s f.dt (here s) v c1 → patOk c1 false (v.setWidth 768) = true → patPartial c1 (v.setWidth 768) = false →
      exec (.sbind f) s = leaves s (emit s.cur 1 (.port f.fn.toNat (.bind (v.setWidth 768))) c1)) ∧
    (f.ws = 0 → f.fn.toNat < 8 → f.dt = 0 → exec (.sunbind f) s = leaves s (emit s.cur 1 (.port f.fn.toNat .unbind) (here s))) ∧
    (f.fn.toNat < 8 → f.dt.toNat ≤ 63 → ∀ p, FMap.find (here s).arch.ports f.fn.toNat = some p → ∀ c2,
      DstS s f.dt f.ws 1 (BitVec.ofNat 64 (movedAt s.cur p % 2 ^ 32 + min (patTotal (patFmtOf (here s) p.img) p.img) (2 ^ 32 - 1) * 2 ^ 32)) (here s) c2 →
      exec (.spos f) s = leaves s c2) ∧
    (f.ws = 0 → f.fn.toNat < 8 → ∀ v c1, SrcS s f.dt (here s) v c1 → (FMap.find c1.arch.ports f.fn.toNat).isSome →
      exec (.sfill f) s = leaves s (emit s.cur 1 (.port f.fn.toNat (.fill (v.setWidth 32))) c1)) ∧
    (f.ws = 0 → f.fn.toNat < 2 → ∀ v c1, SrcV s f.dt (here s) v c1 → patOk c1 true (v.setWidth 768) = true → patPartial c1 (v.setWidth 768) = false →
      exec (.tfcfg f) s = leaves s (emit s.cur 1 (.tfcfg f.fn.toNat (some (v.setWidth 768))) c1)) ∧
    (f.ws = 0 → 2 ≤ f.fn.toNat → f.fn.toNat < 4 → f.dt = 0 → exec (.tfcfg f) s = leaves s (emit s.cur 1 (.tfcfg (f.fn.toNat - 2) none) (here s))) ∧
    (f.ws = 0 → f.fn.toNat < 4 → s.cur.ckpt = true → ∀ v c1, SrcS s f.dt (here s) v c1 → v.toNat < 2 ^ 26 →
      let b : ChanBind := ⟨v.toNat % 4096, v.getLsbD 12, v.toNat / 2 ^ 13 % 4096, v.getLsbD 25, false, false⟩
      exec (.cbind f) s = leaves s { c1 with arch := { c1.arch with chans := FMap.put c1.arch.chans f.fn.toNat b,
                                                                    brk := c1.arch.brk &&& ~~~((1 : BitVec 4) <<< f.fn.toNat) } }) ∧
    (f.ws = 0 → f.fn.toNat < 4 → s.cur.ckpt = true → f.dt = 0 →
      exec (.cunbind f) s = leaves s { here s with arch := { (here s).arch with chans := FMap.erase (here s).arch.chans f.fn.toNat } }))

/-- Shuttle commands and Vent requests are posted at issue (R163, R376, R377, R381, R384, R385, R386, R387, R316, R378, R379, R390, R391, R394, R395). -/
def Obligations.ShuttleAndVentPosts : Prop :=
  (∀ (f : MX) (s : State) (fill : Bool), Acts s f.pr → f.fn.toNat < 8 → f.dt.toNat ≤ 63 →
    let g := (readV (here s) f.ix.toNat).setWidth 2432
    let op := if fill then Instr.fill f else Instr.copy f
    cpOk (here s) fill g = true →
    ((here s).arch.cmds.length < 64 → ∀ c2,
      DstS s f.dt f.ws 1 ((FMap.get 0 (here s).arch.nextId f.fn.toNat).setWidth 64)
        (withCmd s (here s) f.fn.toNat (if fill then .fill else .copy) g (readS (here s) f.bs.toNat) 0 0 0
          (sideSlot (here s) g false) (sideSlot (here s) g true)) c2 →
      exec op s = leaves s c2) ∧
    (64 ≤ (here s).arch.cmds.length → exec op s = leaves s (takeTrap s.cur (Trap.core 50 6 s.cur.lane) (here s)))) ∧
  (∀ (f : MX) (s : State), Acts s f.pr → (here s).arch.cmds.length < 64 →
    let x := if acAop (accRec s f) = 2 then fxFrom ((recWord (accRec s f) 2).toNat % 2 ^ 32) (acF (accRec s f)) else (recWord (accRec s f) 2, 0)
    (f.fn.toNat < 8 → f.dt = 0 → f.ws = 0 → acOk false (accRec s f) = true →
      exec (.acc f) s = leaves s (withCmd s (here s) f.fn.toNat .acc (accRec s f) (readS (here s) f.bs.toNat) x.1 0 x.2 none none)) ∧
    (f.fn.toNat < 8 → f.bs = 0 → f.dt.toNat ≤ 63 → acOk true (accRec s f) = true → CanLand s (here s) →
      ∃ c1 b, exec (.accr f) s = leaves s (withCmd s c1 f.fn.toNat .accr (accRec s f) 0 x.1 (here s).nextAcc x.2 none none) ∧
        c1.bobs = (here s).bobs ++ [b] ∧ b.id = (here s).nextAcc ∧ b.waiting = 1 ∧ c1.ctx = (here s).ctx ∧ c1.spad = (here s).spad ∧
        c1.arch = { (here s).arch with pend := (here s).arch.pend ++ [⟨.land (here s).nextAcc
          (.accr (mapReg (here s).arch.rot f.dt.toNat) (accrAcq (accRec s f))) (f.ws = 1), laneGrp s.cur.lane, s.cur.seq + s.cur.late - 1, s.cur.seq, s.cur.lane, s.cur.pos⟩] }) ∧
    (f.fn.toNat / 8 % 8 ≤ 4 → f.dt.toNat ≤ 63 → f.ws = 0 → (readS (here s) f.ix.toNat).toNat % 8 = 0 →
      exec (.sigw f) s = leaves s (withCmd s (here s) (f.fn.toNat % 8) (.sigw (f.fn.toNat / 8 % 8) (f.fn.getLsbD 6))
        (BitVec.ofNat 2432 ((readS (here s) f.ix.toNat).toNat + (readS (here s) f.dt.toNat).toNat * 2 ^ 128))
        (readS (here s) f.bs.toNat) (readS (here s) f.dt.toNat) 0 0 none none))) ∧
  (∀ (f : MX) (s : State), Acts s f.pr → f.fn.toNat < 16 → f.bs = 0 → f.ix = 0 → f.dt.toNat ≤ 63 →
    let ch := f.fn.toNat % 8
    let r := volatile (here s) ((if f.fn.getLsbD 3 then FMap.get 0 (here s).arch.nextId ch else chdoneOf (here s) ch).setWidth 64)
    ∀ c2, DstS s f.dt f.ws 1 r.1 r.2 c2 → exec (.chdone f) s = leaves s c2) ∧
  (∀ (f : MX) (s : State), Acts s f.pr → f.fn = 0 → f.ws = 0 →
    let i := (readS (here s) f.bs.toNat).toNat
    let g : BitVec 1024 := (readV (here s) f.ix.toNat).setWidth 1024
    (f.dt = 0 → i < 1024 → vtOk (s.dieBase + s.cur.core / 64) (diePresent s) g = true →
      exec (.ventset f) s = leaves s (withPost (here s) (.vset i g))) ∧
    (f.dt = 0 → f.ix = 0 → i < 1024 → exec (.ventrdy f) s = leaves s (withPost (here s) (.vready i))) ∧
    (f.dt = 0 → f.ix = 0 → i < 2 → exec (.collmode f) s = leaves s (withPost (here s) (.collmode (i = 1)))) ∧
    (f.ix = 0 → f.dt.toNat ≤ 63 →
      let grp := (readS (here s) f.dt.toNat).toNat
      grp < 2 ^ 13 → grp % 4096 ≠ 0 →
      exec (.ventgrp f) s = leaves s (withPost (here s) (.vgroup (grp % 4096) (grp / 4096 = 1) ((readS (here s) f.bs.toNat).setWidth 32)))))

/-- Fences and slotld hold the core; an empty slot does nothing (R229, R230, R231, R232, R396, R46, R317, R279). -/
def Obligations.FencesAndSlotTableLoads : Prop :=
  (∀ (f : MX) (s : State), Acts s f.pr → f.dt = 0 → f.bs = 0 → f.ws = 0 →
    (s.cur.ckpt = true →
      (f.ix = 0 → f.fn.toNat ≤ 4 → exec (.fence f) s = leaves s (withWait (here s) (.fence f.fn.toNat))) ∧
      (f.ix = 0 → f.fn = 0 → exec (.flush f) s = leaves s (withWait (here s) .flush)) ∧
      (f.fn.toNat < 64 → f.fn.toNat % 8 ≤ 4 → f.fn.toNat / 8 ≠ 0 → 0 < f.ix.toNat → f.ix.toNat < 8 →
        exec (.fencex f) s = leaves s (withWait (here s) (.fencex (f.fn.toNat % 8) (f.fn.toNat / 8) f.ix.toNat))))) ∧
  (∀ (f : SC) (s : State) (v t : Word) (c1 c2 : Core) (img : Nat) (s1 : State), Acts s f.pr → s.cur.ckpt = true → f.fn = 0 → f.tgt.toNat / 128 < 64 →
    f.tgt.toNat < 2 ^ 14 → SrcS s f.sa (here s) v c1 → SrcS s (f.tgt.setWidth 7) c1 t c2 → v.getLsbD 11 = false → v.toNat / 32 % 64 ≤ 58 →
    v.toNat < 2 ^ 56 →
    let m := mUser.by 0 (s.cur.core + 64 * s.dieBase) (s.dieBase + s.cur.core / 64) (BitVec.ofNat 64 s.cur.pos)
    vaHeld s s.cur.core c2.ctx (v.toNat / 4096 * 4096) 4096 m = false → vaRead s s.cur.core c2.ctx (v.toNat / 4096 * 4096) 4096 m = .ok (img, s1) →
    ∃ x : SlotLoad, exec (.slotld f) s = .next { s1.setCore s.cur.core (withWait c2 (.slotld (mapReg c2.arch.rot (f.tgt.toNat / 128)) 0)) with
        slotLoads := s1.slotLoads ++ [x] } ∧
      x.die = v.toNat % 32 ∧ x.unit = v.toNat / 32 % 64 ∧ x.img = slotImage img ∧ x.t = t.toNat ∧ x.src = .inr s.cur.core ∧
      (x.ans = none ↔ inLaunch s1 s.cur.core x.die = true ∧ ∀ d, localDie s1 x.die = some d → unitExists d x.unit = true) ∧
      (x.ans ≠ none → x.ans = some 3)) ∧
  (∀ s : State, exec .emptySlot s = .next s)

namespace Sys2Proof.Claims

/-- Two-source register commands and their results (OP 0x03, 0x04). -/
noncomputable def commandAlu : List ((Pkt → Instr) × (Pkt → Instr) × (Word → Word → Word)) :=
  [(.cmdAdd, .cmdAddi, fun x y => x + y), (.cmdSub, .cmdSubi, fun x y => x - y), (.cmdAnd, .cmdAndi, fun x y => x &&& y),
   (.cmdOr, .cmdOri, fun x y => x ||| y), (.cmdXor, .cmdXori, fun x y => x ^^^ y), (.cmdShl, .cmdShli, fun x y => x <<< (y.toNat % 64)),
   (.cmdShr, .cmdShri, fun x y => x >>> (y.toNat % 64)), (.cmdSra, .cmdSrai, fun x y => x.sshiftRight (y.toNat % 64)),
   (.cmdMin, .cmdMini, fun x y => if y.toInt < x.toInt then y else x), (.cmdMax, .cmdMaxi, fun x y => if x.toInt < y.toInt then y else x)]
/-- Conditional branches. -/
noncomputable def commandBranches : List ((Pkt → Instr) × (Word → Word → Prop)) :=
  [(.cmdBeq, fun x y => x = y), (.cmdBne, fun x y => x ≠ y), (.cmdBlt, fun x y => x.toInt < y.toInt), (.cmdBge, fun x y => y.toInt ≤ x.toInt),
   (.cmdBltu, fun x y => x.toNat < y.toNat), (.cmdBgeu, fun x y => y.toNat ≤ x.toNat)]
/-- Signal operations: accumulate operator and operand. -/
noncomputable def commandSignals : List ((Pkt → Instr) × Nat × (Word → Word)) :=
  [(.cmdSigSet, 10, fun v => v), (.cmdSigAdd, 1, fun v => v), (.cmdSigSub, 1, fun v => -v), (.cmdSigMax, 4, fun v => v), (.cmdSigMin, 5, fun v => v)]

end Sys2Proof.Claims

/-- Register commands write RD with the result of Table 4.2's operation and move the position past their units (R87, R100). -/
def Obligations.CommandRegisterResults : Prop :=
  ∀ (f : Pkt) (s : State), s.absent = none → WellShaped s f 0 →
    (∀ e ∈ commandAlu, (f.imm = 0 → exec (e.1 f) s = .next (ends s f f.rd (e.2.2 (creg s f.ra) (creg s f.rb)))) ∧
      (f.rb = 0 → exec (e.2.1 f) s = .next (ends s f f.rd (e.2.2 (creg s f.ra) (simm f))))) ∧
    (f.ra = 0 → f.rb = 0 → exec (.cmdLi f) s = .next (ends s f f.rd (simm f)) ∧
      exec (.cmdLih f) s = .next (ends s f f.rd (f.imm ++ (creg s f.rd).setWidth 32))) ∧
    (f.ra = 0 → f.rb = 0 → f.imm = 0 → exec (.cmdRdgtc f) s = .next (ends s f f.rd (BitVec.ofNat 64 s.gtc))) ∧
    (f.rd = 0 → f.ra = 0 → f.rb = 0 → f.imm = 0 → exec (.cmdNop f) s = .next (goes s 1))

/-- Branches move the position by their offset or past themselves; loop counts RD down; call and ret push and pop a buffer (R84, R85, R89, R90). -/
def Obligations.CommandControlFlow : Prop :=
  ∀ (f : Pkt) (s : State), s.absent = none → WellShaped s f 0 →
    (∀ e ∈ commandBranches, f.rd = 0 → MayMove s f.imm.toInt →
      (e.2 (creg s f.ra) (creg s f.rb) → exec (e.1 f) s = .next (goes s f.imm.toInt)) ∧
      (¬ e.2 (creg s f.ra) (creg s f.rb) → exec (e.1 f) s = .next (goes s 1))) ∧
    (f.rd = 0 → f.ra = 0 → f.rb = 0 → MayMove s f.imm.toInt → exec (.cmdJmp f) s = .next (goes s f.imm.toInt)) ∧
    (f.ra = 0 → f.rb = 0 →
      (atQ s).stack ≠ [] → MayMove s f.imm.toInt →
        let v := creg s f.rd - 1
        exec (.cmdLoop f) s = .next (s.setQueue s.curQ (((atQ s).move (if v ≠ 0 then f.imm.toInt else 1)).setReg f.rd.toNat v))) ∧
    (f.rd = 0 → f.rb = 0 → (creg s f.ra).toNat % 8 = 0 → 1 ≤ f.imm.toNat → f.imm.toNat ≤ 65536 →
      ((atQ s).stack.length < 8 → ∃ qq, exec (.cmdCall f) s = .next (s.setQueue s.curQ qq) ∧
        (qq.stack.head? = some ⟨(creg s f.ra).toNat, f.imm.toNat, 0⟩) ∧
        qq.stack.tail = (atQ s).stack.modifyHead (fun fr => { fr with idx := fr.idx + 1 }) ∧
        ((atQ s).stack = [] → qq.head = ((atQ s).skip 1).head ∧ qq.callAt = (atQ s).head.toNat) ∧
        ((atQ s).stack ≠ [] → qq.head = (atQ s).head ∧ qq.callAt = (atQ s).callAt) ∧ qq.c = (atQ s).c)) ∧
    (f.rd = 0 → f.ra = 0 → f.rb = 0 → f.imm = 0 → (atQ s).stack ≠ [] → exec (.cmdRet f) s = .next (s.setQueue s.curQ (Queue.unwind 9 (atQ s).pop)))

/-- ld, st and the signal commands send one access each (R86, R88, R91, R101, R244, R234). Model's choice (log 51, log 36): a signal max or min to host
memory has no effect and gives a free value. -/
def Obligations.CommandMemoryAccess : Prop :=
  ∀ (f : Pkt) (s : State), s.absent = none → WellShaped s f 0 →
    let va := cmdAddr s f
    let tr := fun s0 acc => translate s0 (tlbSpindle (s.curQ / 8)) (atQ s).qctx.toNat va acc mQueue
    let own := fun (ph : Phys) => ph.die = s.dieBase + s.curQ / 8 ∨ ph.loc = 3
    let away := fun (ph : Phys) => ph.die ≠ s.dieBase + s.curQ / 8 ∧ ph.loc ≠ 3 ∧ (localDie s ph.die).isSome = true ∧ diePresent s ph.die = true
    let st1 := starts s s.curQ (atQ s) f (f.b = 1) .access
    (f.rb = 0 → va % 8 = 0 → ∀ ph l e, tr st1 .read = .ok ph l e → away ph → Completes (.cmdLd f) s fun t => t.queues = st1.queues ∧
      requested s t va 0 .rd none (.queue s.curQ (atQ s).nstart) ph) ∧
    (f.rd = 0 → va % 8 = 0 → ∀ ph l e, tr (counted s) .write = .ok ph l e → away ph → LineFree s ph → Completes (.cmdSt f) s fun t =>
      t.queues = (counted s).queues ∧ requested s t va 2 (.wr (creg s f.rb).toNat) none .none ph) ∧
    (∀ g ∈ commandSignals, va % 8 = 0 → ∀ ph l e, tr s .amo = .ok ph l e → tr st1 .amo = .ok ph l e → away ph → LineFree s ph →
      Completes (g.1 f) s fun t => t.queues = st1.queues ∧
        requested s t va 4 (.amo g.2.1 64 (g.2.2 (creg s f.rb)) 0 0 0 0 false) (some 4) (.queue s.curQ (atQ s).nstart) ph) ∧
    (f.rb = 0 → va % 8 = 0 → ∀ ph l e, tr st1 .read = .ok ph l e → own ph →
      exec (.cmdLd f) s = .next (accessed s st1 va .rd none (.queue s.curQ (atQ s).nstart) ph l e)) ∧
    (f.rd = 0 → va % 8 = 0 → ∀ ph l e, tr (counted s) .write = .ok ph l e → own ph →
      exec (.cmdSt f) s = .next (accessed s (counted s) va (.wr (creg s f.rb).toNat) none .none ph l e)) ∧
    (∀ g ∈ commandSignals,
      (va % 8 = 0 → ∀ ph l e, tr s .amo = .ok ph l e →
        (ph.loc = 3 → g.2.1 = 4 ∨ g.2.1 = 5 → exec (g.1 f) s = .next { ends s f f.rd (Config.freeValue s.free) with free := s.free + 1 }) ∧
        (ph.loc ≠ 3 ∨ g.2.1 ≠ 4 ∧ g.2.1 ≠ 5 → ∀ ph' l' e', tr st1 .amo = .ok ph' l' e' → own ph' → exec (g.1 f) s =
          .next (accessed s st1 va (.amo g.2.1 64 (g.2.2 (creg s f.rb)) 0 0 0 0 false) (some 4) (.queue s.curQ (atQ s).nstart) ph' l' e'))))

/-- gtcwait with B = 0 writes whether GTC has reached c[RA]; with B = 1 it completes at the first service of the queue at which GTC has reached it, and RD
must be zero (R93). -/
def Obligations.GtcWait : Prop :=
  (∀ (f : Pkt) (s : State), s.absent = none → WellShaped s f 0 → f.rb = 0 → f.imm = 0 →
    let t := creg s f.ra
    (f.b = 0 → exec (.cmdGtcwait f) s = .next (ends s f f.rd (if t.toNat ≤ s.gtc then 1 else 0))) ∧
    (f.b = 1 → f.rd ≠ 0 → exec (.cmdGtcwait f) s = freezes s 33 7 0 0 false) ∧
    (f.b = 1 → f.rd = 0 → t.toNat ≤ s.gtc → exec (.cmdGtcwait f) s = .next (goes s 1)) ∧
    (f.b = 1 → f.rd = 0 → s.gtc < t.toNat → exec (.cmdGtcwait f) s = .next (starts s s.curQ (atQ s) f true (.gtc t)))) ∧
  (∀ (s : State) (q : Nat) (t : Word) (p : QPkt), s.absent = none → (s.queue q).frozen = false → (s.queue q).out = [p] → p.w = .gtc t →
    (t.toNat ≤ s.gtc → ∃ x, exec (.queueService q) s = .next x ∧ (x.queue q).out = [] ∧ (x.queue q).c = (s.queue q).c) ∧
    (s.gtc < t.toNat → ∃ x, exec (.queueService q) s = .next x ∧ (x.queue q).out = [p] ∧ (x.queue q).c = (s.queue q).c))

/-- Waiting commands, flush, onabt and abort (R92, R94, R100, R101). Model's choice (log 50): a check waits while earlier accesses of the queue are
outstanding, with B = 0 too. -/
def Obligations.CommandWaiting : Prop :=
  ∀ (f : Pkt) (s : State), s.absent = none →
    (∀ any : Bool, WellShaped s f (f.fn.toNat % 4 + 1) → f.ra = 0 → f.rb = 0 → f.imm = 0 → (f.b = 1 → f.rd = 0) →
      (∀ u ∈ f.ext, u.toNat % 8 ≤ 5 ∧ u.toNat < 2 ^ 60) → Numbered s →
      let op := if any then Instr.cmdWaitAny f else Instr.cmdWaitAll f
      let st := starts s s.curQ (atQ s) f (f.b = 1) (.ask any f.ext [])
      let num := (atQ s).nstart
      (queueBusy s s.curQ num = true → exec op s = .next st) ∧
      (Quiet s → ∀ vs s1, waitReads s.curQ num (atQ s).where f.ext [] st = .ok (vs, s1) → vs.length = f.ext.length → s1.absent = none →
        let r := waitOutcome (s1.queue s.curQ) any f.ext vs
        (f.b = 0 → (s1.queue s.curQ).en = true → exec op s = .next (dropPkt (s1.setQueue s.curQ ((s1.queue s.curQ).setReg f.rd.toNat
          (match r with | .met => 1 | .notMet => 0 | .abort _ => -1))) s.curQ num)) ∧
        (f.b = 1 → r = .met → exec op s = .next (dropPkt s1 s.curQ num)) ∧
        (f.b = 1 → r = .notMet → exec op s = .next (setWait s1 s.curQ num (.wait any f.ext))) ∧
        (f.b = 1 → ∀ v, r = .abort v → exec op s = finish (abortQueue (dropPkt s1 s.curQ num) s.curQ v
          (match (atQ s).stack with | [] => (atQ s).head.toNat | _ => (atQ s).callAt))))) ∧
    (∀ sig buf : Word, f.ext = [sig, buf] → WellShaped s f 2 → f.rd = 0 → f.ra = 0 → f.rb = 0 → sig.toNat % 8 = 0 → sig.toNat < 2 ^ 56 →
      buf.toNat % 8 = 0 → buf.toNat < 2 ^ 56 → f.imm.toNat ≤ 65536 → (buf = 0 → f.imm = 0) →
      exec (.cmdOnabt f) s = .next (s.setQueue s.curQ { (atQ s).move 3 with abtsig := sig.toNat, hva := buf.toNat, hlen := f.imm.toNat })) ∧
    (WellShaped s f 0 → f.rd = 0 → f.rb = 0 → f.imm = 0 →
      let x := creg s f.ra
      let t := abortQueue (goes s 1) s.curQ (if x.toInt < 0 then x else -1) (match (atQ s).stack with | [] => (atQ s).head.toNat | _ => (atQ s).callAt)
      t.absent = none → exec (.cmdAbort f) s = .next t) ∧
    (WellShaped s f 0 → f.rd = 0 → f.ra = 0 → f.rb = 0 → f.imm = 0 →
      (writesBefore s s.curQ (atQ s).nstart = false → exec (.cmdFlush f) s = .next (goes s 1)) ∧
      (writesBefore s s.curQ (atQ s).nstart = true → exec (.cmdFlush f) s = .next (starts s s.curQ (atQ s) f true .flush)))

/-- launch and launch.n read and check the record, add the launch with its signal and descriptor, and stay outstanding; copy, fill, slotld and shootdn
hand their work on and stay outstanding; notify records its event and is over (R95 to R99). Model's choice: notify waits while earlier accesses of the
queue are outstanding (log 50); shootdn takes a request with bit 15 set (log 82). -/
def Obligations.CommandsHandWorkOn : Prop :=
  ∀ (f : Pkt) (s : State), s.absent = none →
    (∀ sig : Word, f.ext = [sig] → WellShaped s f 1 → f.imm = 0 → sig.toNat % 8 = 0 → sig.toNat < 2 ^ 56 →
      ∀ l s1, readLaunch s s.curQ (creg s f.ra) (atQ s).where = .ok (l, s1) → s1.absent = none →
      let add := fun d => pendLaunch s1 { l with num := (atQ s).nstart, sig := sig.toNat, notify := d }
      let after := fun x : Launch => starts { s1 with launches := s1.launches ++ [x] } s.curQ (s1.queue s.curQ) f (f.b = 1) (.launch x.id)
      (f.rb = 0 → exec (.cmdLaunch f) s = .next (after (add none))) ∧
      ((creg s f.rb).toNat % 64 = 0 → exec (.cmdLaunchN f) s = .next (after (add (some (creg s f.rb).toNat))))) ∧
    (∀ sig : Word, f.ext = [sig] → WellShaped s f 1 → f.rd = 0 → sig.toNat % 8 = 0 → sig.toNat < 2 ^ 56 → 1 ≤ f.imm.toNat → f.imm.toNat < 2 ^ 31 →
      let a := (creg s f.ra).toNat
      let b := creg s f.rb
      let after := fun c => starts { s with qcopies := s.qcopies ++ [c] } s.curQ (atQ s) f (f.b = 1) .copy
      exec (.cmdCopy f) s = .next (after ⟨s.curQ, (atQ s).nstart, false, a, b.toNat, f.imm.toNat, b, 0, sig.toNat, false, 0, false, [], none⟩) ∧
      (f.imm.toNat % 8 = 0 → a % 8 = 0 →
        exec (.cmdFill f) s = .next (after ⟨s.curQ, (atQ s).nstart, true, a, a, f.imm.toNat, b, 0, sig.toNat, false, 0, false, [], none⟩))) ∧
    (WellShaped s f 0 → f.rd = 0 → cmdAddr s f % 64 = 0 → Numbered s → ∀ ph l e,
      translate s (tlbSpindle (s.curQ / 8)) (atQ s).qctx.toNat (cmdAddr s f) .amo mQueue = .ok ph l e →
      let st := starts s s.curQ (atQ s) f false (.note (cmdAddr s f) (creg s f.rb))
      (queueBusy s s.curQ (atQ s).nstart = true → exec (.cmdNotify f) s = .next st) ∧
      (Quiet s → recordHeld st s.curQ (cmdAddr s f) = false → ∀ s1, notifyEvent st s.curQ (cmdAddr s f) (creg s f.rb) = .ok s1 → s1.absent = none →
        exec (.cmdNotify f) s = .next (dropPkt s1 s.curQ (atQ s).nstart))) ∧
    (∀ u : Word, f.ext = [u] → WellShaped s f 1 → f.imm = 0 → u.toNat < 2 ^ 11 → u.toNat / 32 % 64 ≤ 58 → ∀ img s1,
      vaRead s (tlbSpindle (s.curQ / 8)) (atQ s).qctx.toNat (creg s f.ra).toNat 4096 (mQ s s.curQ (atQ s).where) = .ok (img, s1) → s1.absent = none →
      ∃ x : SlotLoad, x.die = u.toNat % 32 ∧ x.unit = u.toNat / 32 % 64 ∧ x.img = slotImage img ∧ x.t = (creg s f.rb).toNat ∧
        exec (.cmdSlotld f) s = .next (starts { s1 with slotLoads := s1.slotLoads ++ [x] } s.curQ (s1.queue s.curQ) f (f.b = 1) (.slotld 0))) ∧
    (WellShaped s f 0 → f.rb = 0 → f.imm = 0 →
      let v := creg s f.ra
      v.getLsbD 0 = false → v.getLsbD 14 = false → (v.extractLsb' 1 9).toNat = (atQ s).qctx.toNat → v.getLsbD 10 = false →
      spanAligned (v.extractLsb' 11 2).toNat ((v.extractLsb' 16 40).toNat * 65536) = true → v.toNat < 2 ^ 56 →
      exec (.cmdShootdn f) s = .next (starts { s with shoots := s.shoots ++ [⟨(atQ s).qctx.toNat, false, (v.extractLsb' 11 2).toNat, v.getLsbD 13,
        (v.extractLsb' 16 40).toNat * 65536, .queue s.curQ (atQ s).nstart, none, false⟩] } s.curQ (atQ s) f (f.b = 1) (.shootdn 0)))

/-- tld issues one read per element of its row that lies in the tensor, the others holding FILL; tst buffers one store of its elements, those outside the
tensor dropped (R206, R207, R368). Model's choice (log 95): the store of a tst keeps the slot image of its issue. -/
def Obligations.TensorAccesses : Prop :=
  ∀ (f : MX) (s : State) (d : BitVec 2048), Acts s f.pr → f.fn.toNat ≤ 1 → Slot (here s) f.bs d → fmtIsByte (slotFmt d) = true →
    (f.fn = 1 → 2 ≤ dRank d) →
    let w := fmtWidth (slotFmt d)
    let step := dRank d - 1 - f.fn.toNat
    (f.dt.toNat ≤ 63 → CanLand s (here s) →
      let xs := (List.range (4096 / w)).map fun e => (e, tensorCoords d (readV (here s) f.ix.toNat) step e)
      (xs.any fun p => partialRead s (here s).ctx d p.2 (s.dieBase + s.cur.core / 64)) = false →
      let ins := xs.filter fun p => !isOut d p.2
      ∃ c' b, exec (.tld f) s = leaves s c' ∧ c'.bobs = (here s).bobs ++ [b] ∧ b.id = (here s).nextAcc ∧ b.waiting = ins.length ∧
        c'.accs.map (fun a => (a.kind, a.bob, a.n, a.off, a.elem)) = (here s).accs.map (fun a => (a.kind, a.bob, a.n, a.off, a.elem)) ++
          ins.map (fun p => (.rd, (here s).nextAcc, w / 8, p.1 * w / 8, some (d, p.2))) ∧
        c'.arch = { (here s).arch with pend := (here s).arch.pend ++ [⟨.land (here s).nextAcc (.v (mapReg (here s).arch.rot f.dt.toNat)) (f.ws = 1),
          laneGrp s.cur.lane, s.cur.seq + s.cur.late - 1, s.cur.seq, s.cur.lane, s.cur.pos⟩] } ∧ c'.spad = (here s).spad) ∧
    (f.ws = 0 → ∀ v c1, SrcV s f.dt (here s) v c1 → c1.arch.stores.length + waitingStores c1 < 256 →
      let elems := ((List.range (4096 / w)).map fun e => (tensorCoords d (readV c1 f.ix.toNat) step e, el w v e)).filter fun p => !isOut d p.1
      ∃ c' ids, exec (.tst f) s = leaves s c' ∧ c'.arch = { c1.arch with stores := c1.arch.stores ++ [⟨s.cur.seq, s.cur.lane, .slot d w elems, ids, s.cur.pos⟩] } ∧
        c'.spad = c1.spad)

/-- mdrain to registers writes the even and odd columns of the row after the epilogue, at latency 12; to the scratchpad, the row in the bank's format, at
latency 20 (R350, R351). -/
def Obligations.MatrixDrain : Prop :=
  ∀ (f : XT) (s : State) (c1 : Core), Acts s f.pr → f.arg.toNat < 1024 → tilePhase (here s) f.tile.toNat = 0 →
    Touched s f.tile.toNat false (here s) c1 →
    let g := FMap.get 0 (here s).arch.ecfg (f.arg.toNat / 256 % 4)
    let row := f.arg.toNat % 256
    let ys := (List.range 256).map fun j => drainElem c1 g (rowElem (tileRow c1 f.tile.toNat row) j) j
    let y := fun j => ys.getD j (0, 0)
    (ecDk g = false →
      let part := fun h => buildV 32 fun p => (y (2 * p + h)).1
      exec (.mdrain f) s = leaves s (flagged s 12 0 ((List.range 256).map fun j => (j / 2, (y j).2))
        (emit s.cur 12 (.v (mapReg c1.arch.rot (ecVd g + 1)) (part 1) (-1)) (emit s.cur 12 (.v (mapReg c1.arch.rot (ecVd g)) (part 0) (-1)) c1)))) ∧
    (ecDk g = true →
      let off := ecOff g 2 + row * ecOff g 3
      let bank := off / 2 ^ 18
      let fmt := bankFmt c1 bank
      let bytes := 256 * bankWidth fmt / 8
      off + bytes ≤ 0x400000 → (off + bytes - 1) / 2 ^ 18 = bank → fmt ≠ 6 → ∀ c2, logSpad s.cur c1 off bytes = .ok c2 →
      let enc := ys.map fun p => bankEncode fmt (bankMode c2 bank) (bankSat c2 bank) (f32.decode p.1)
      exec (.mdrain f) s = leaves s (flagged s 20 0 ((List.range 256).map fun j => (j / 2, (y j).2 ||| (enc.getD j (0, 0)).2))
        (emit s.cur 20 (.spad [(off, bytes, 2 ^ bytes - 1, packElems (bankWidth fmt) (fun j => (enc.getD j (0, 0)).1) 256)]) c2)))

namespace Sys2Proof.Claims

noncomputable def drawOps : List ((FD → Instr) × FFmt) := [(.vdrawF32, f32), (.vdrawF16, f16), (.vdrawBf16, bf16)]

end Sys2Proof.Claims

/-- vdraw merges the perturbed unmasked elements of its register by the tree of R341 and writes one pair, its predicate and its flags at latency 14;
vdrawm merges 2^LV pairs at latency 16 (R338 to R341). -/
def Obligations.Draws : Prop :=
  (∀ e ∈ drawOps, ∀ (f : FD) (s : State), Acts s f.pr →
    let x := drawParams (here s)
    let n := 4096 / e.2.width
    dpQl x ≤ 30 → dpJ x < 2 ^ dpQl x → dpJ x * n + n - 1 ≤ 0x7FFFFFFF →
    let lv := (List.range n).map fun i => if badScale (dpS x) ∨ ¬ (epMask (here s) f.ep).getLsbD i then (zeroPair, (0 : FlagBits))
      else drawLeaf e.2 (dpJ x * n + i) (el e.2.width (readV (here s) f.sa.toNat) i) (dpS x)
    let root := mergeTree (scaleInf (dpS x)) (drawKey x) (dpStrm x) 0 1 (if n = 128 then 7 else 8) (lv.map Prod.fst)
    exec (e.1 f) s = leaves s (drawOut f root ((2 ^ dpQl x + dpJ x) % 64) (dpFin x) 14
      (if badScale (dpS x) then [(0, flInvalid)] else lv.zipIdx.map fun p => (p.2 * e.2.width / 32, p.1.2)) s.cur (here s))) ∧
  (∀ (f : FD) (s : State), Acts s f.pr →
    let x := drawParams (here s)
    1 ≤ dpLv x → dpLv x ≤ 6 → dpH x % 2 ^ dpLv x = 0 → 2 ^ dpLv x ≤ dpH x →
    let lv := (List.range (2 ^ dpLv x)).map fun t => if badScale (dpS x) ∨ ¬ (epMask (here s) f.ep).getLsbD (dpH x % 64 + t) then zeroPair
      else Pair.ofNat (el 64 (readV (here s) f.sa.toNat) (dpH x % 64 + t))
    let root := mergeTree (scaleInf (dpS x)) (drawKey x) (dpStrm x) 0x80000000 (dpH x / 2 ^ dpLv x) (dpLv x) lv
    exec (.vdrawm f) s = leaves s (drawOut f root (dpH x / 2 ^ dpLv x % 64) (dpFin x) 16 (if badScale (dpS x) then [(0, flInvalid)] else []) s.cur (here s)))

/-- Conversions and quantisation complete (R320, R328, R329, R257, R258, R259, R330, R331, R332). -/
def Obligations.ConversionsAndQuantisation : Prop :=
  (∀ (f : VR) (s : State), Acts s f.pr →
    let d := f.ty.toNat
    let t := f.sb.toNat % 16
    let rm := f.sb.toNat / 16
    let sat : Bool := decide (f.fn = 1)
    (∀ a c1, SrcV s f.sa (here s) a c1 →
      (cvtPair t d = true → f.fn.toNat ≤ 1 → convFieldsOk t d rm sat false f.nf = true →
        vecDone s f.dst f.ws f.nf f.ep 3 (tyWidth d) (fun i => convElem t d (RMode.ofCode rm) sat false (el (tyWidth d) a i)) c1 (exec (.cvt f) s)) ∧
      (widenPair t d = true → f.sb.toNat < 16 → f.fn = 0 → (t ≤ 5 → d ≤ 5 → f.nf = 0) →
        widened s f (tyWidth t) (tyWidth d) (tyWidth d / tyWidth t) (fun i => convElem t d .rne false false (el (tyWidth t) a i)) c1 (exec (.widen f) s))) ∧
    (narrowPair t d = true → f.fn.toNat ≤ 1 → convFieldsOk t d rm sat true f.nf = true →
      ∀ l, SrcVs s f.sa (tyWidth t / tyWidth d) (here s) l →
      let k := tyWidth t / tyWidth d
      let x := drawParams (here s)
      let r := fun i =>
        let e := el (tyWidth t) (l.getD (i % k) 0) (i / k)
        if rm = 4 then srBf16 e ((dgen (drawKey x) (drawBase x + BitVec.ofNat 64 i)).toNat % 65536) else convElem t d (RMode.ofCode rm) sat true e
      ∀ c2, DstV s f.dst f.ws 3 (tyWidth d) (buildV (tyWidth d) fun i => (r i).1) (spread (tyWidth d) (epMask (here s) f.ep)) (here s) c2 →
      exec (.narrow f) s = leaves s (flagged s 3 f.nf (narrowed c2 f.ep (tyWidth t) (tyWidth d) r) c2))) ∧
  (∀ (f : VR) (s : State), Acts s f.pr →
    (f.ty = 15 → f.fn.toNat ≤ 1 → ∀ l b c1, SrcVs s f.sa 4 (here s) l → SrcV s f.sb (here s) b c1 →
      let r := fun i => q8Encode (el 32 (l.getD (i % 4) 0) (i / 4)) (codeTable c1 f.fn.toNat) (b.toNat % 2 ^ 32)
      ∀ c2, DstV s f.dst f.ws 3 8 (buildV 8 fun i => (r i).1) (spread 8 (epMask c1 f.ep)) c1 c2 →
      exec (.vq8 f) s = leaves s (flagged s 3 f.nf (narrowed c2 f.ep 32 8 r) c2)) ∧
    (f.ty = 6 → f.fn.toNat ≤ 1 → ∀ a b c1 c2, SrcV s f.sa (here s) a c1 → SrcV s f.sb c1 b c2 →
      widened s f 8 32 4 (fun i => q8Decode (el 8 a i) (codeTable c2 f.fn.toNat) (b.toNat % 2 ^ 32)) c2 (exec (.vdq8 f) s)) ∧
    (f.ty = 12 → 6 ≤ f.sb.toNat % 16 → f.sb.toNat % 16 ≤ 8 → f.sb.toNat / 16 ≤ 3 → f.fn = 0 → f.ep = 0 →
      let t := tyFmt (f.sb.toNat % 16)
      ∀ l, SrcVs s f.sa (t.width / 4) (here s) l →
      let x := fun i => el t.width (l.getD (i % (t.width / 4)) 0) (i / (t.width / 4))
      let blocks := (List.range 32).map fun b => mxEncode (RMode.ofCode (f.sb.toNat / 16)) ((List.range 32).map fun j => t.decode (x (32 * b + j)))
      let e := fun i => ((blocks.getD (i / 32) (0, [])).2).getD (i % 32) (0, 0)
      ∀ c2, DstVs s f.dst f.ws 3 [(buildV 4 fun i => (e i).1, -1), (buildV 8 fun b => if b < 32 then (blocks.getD b (0, [])).1 else 0, -1)] (here s) c2 →
      exec (.mxq f) s = leaves s (flagged s 3 f.nf ((List.range 1024).map fun i => (i / (t.width / 4) * t.width / 32, (e i).2)) c2)) ∧
    ((f.fn.toNat, f.ty.toNat) ∈ [(0, 2), (1, 3), (2, 4), (3, 5), (7, 6), (8, 6)] → (f.fn.toNat < 6 → f.nf = 0) →
      ∀ a b c1 c2, SrcV s f.sa (here s) a c1 → SrcV s f.sb c1 b c2 →
      let w := tyWidth f.fn.toNat
      widened s f w (2 * w) 2 (fun i => wideElem f.fn.toNat false (el w a i) (el w b i)) c2 (exec (.wadd f) s) ∧
      widened s f w (2 * w) 2 (fun i => wideElem f.fn.toNat true (el w a i) (el w b i)) c2 (exec (.wmul f) s)))

namespace Sys2Proof.Claims

/-- Every lane operation that has a stage predicate, form by form. -/
noncomputable def allSR : List (SR → Instr) :=
  [.add, .sub, .and, .or, .xor, .andn, .shl, .shr, .sra, .rotl, .min, .max, .minu, .maxu, .mov, .mul, .mulh, .mulhu, .div, .divu,
   .rem, .remu, .clz, .ctz, .popc, .sext, .zext, .sel, .abs, .neg, .bswap, .cmp, .cmpu, .fcmp, .fadd, .fsub, .fmul, .fdiv, .fmin,
   .fmax, .fsqrt, .fabs, .fneg, .fcvt, .fcvti, .icvtf, .fclass, .gand, .gor, .gxor, .gandn, .gset]
noncomputable def allSI : List (SI → Instr) :=
  [.addi, .subi, .andi, .ori, .xori, .andni, .shli, .shri, .srai, .rotli, .mini, .maxi, .minui, .maxui, .cmpi, .csrr, .csrw, .csrs,
   .csrc]
noncomputable def allSL : List (SL → Instr) :=
  [.li, .lis]
noncomputable def allSC : List (SC → Instr) :=
  [.br, .call, .ret, .loop, .rloop, .lbreak, .spawn, .join, .exit, .exitab, .trap, .uiret, .slotld]
noncomputable def allVR : List (VR → Instr) :=
  [.vAdd, .vSub, .vAnd, .vOr, .vXor, .vAndn, .vShl, .vShr, .vSra, .vMin, .vMax, .vMinu, .vMaxu, .vMul, .vMulh, .vAdds, .vSubs,
   .vAddsu, .vSubsu, .vAbs, .vNeg, .vClz, .vPopc, .vMov, .vBcast, .vSel, .vAddi, .vSubi, .vAndi, .vOri, .vXori, .vAndni, .vShli,
   .vShri, .vSrai, .vMini, .vMaxi, .vMulli, .vAddF, .vSubF, .vMulF, .vMinF, .vMaxF, .vAbsF, .vNegF, .vCmp, .vCmpu, .vFcmp, .vCmpi,
   .pand, .por, .pxor, .pandn, .pset, .pfirst, .pcount, .cvt, .widen, .narrow, .vq8, .vdq8, .mxq, .wadd, .wmul, .zip, .unzip,
   .slide, .vRot, .splat, .vIns, .vExt, .compress, .expand, .rev, .rsum, .rmax, .rmin, .rmaxu, .rminu, .rand, .ror, .rargmax]
noncomputable def allVT : List (VT → Instr) :=
  [.vFmaF32, .vFmaF16, .vFmaBf16, .vFmsF32, .vFmsF16, .vFmsBf16, .perm]
noncomputable def allVA : List (VA → Instr) :=
  [.ard, .awr, .aadd, .amax, .ascl]
noncomputable def allFA : List (FA → Instr) :=
  [.vrsqs, .vrcps, .vexp2, .vlog2, .vlse, .vtanh, .vsigm, .vsqrt]
noncomputable def allFD : List (FD → Instr) :=
  [.vdrawF32, .vdrawF16, .vdrawBf16, .vdrawm]
noncomputable def allMA : List (MA → Instr) :=
  [.ldI8, .ldI16, .ldI32, .ldI64, .ldN8, .ldN16, .ldN32, .stB8, .stB16, .stB32, .stB64, .vld, .vst, .vldb, .ldacq]
noncomputable def allMX : List (MX → Instr) :=
  [.vldx, .vstx, .gather, .scatter, .tld, .tst, .dld, .devict, .relay, .reshard, .dget, .tfcfg, .strel, .sbind, .sunbind, .spos,
   .cbind, .cunbind, .sfill, .copy, .fill, .acc, .accr, .sigw, .chdone, .ventset, .ventrdy, .ventgrp, .fence, .fencex, .flush,
   .collmode]
noncomputable def allXP : List (XP → Instr) :=
  [.mpush]
noncomputable def allXT : List (XT → Instr) :=
  [.macc, .mshift, .mdrain, .mzero]
noncomputable def allXS : List (XS → Instr) :=
  [.mscaleA, .mscaleB, .mcfg]
/-- A property of every lane operation, of its words and its PR field. -/
def EveryLaneOp (P : Instr → BitVec 6 → Prop) : Prop :=
  (∀ op ∈ allSR, ∀ f : SR, P (op f) f.pr) ∧ (∀ op ∈ allSI, ∀ f : SI, P (op f) f.pr) ∧ (∀ op ∈ allSL, ∀ f : SL, P (op f) f.pr) ∧
  (∀ op ∈ allSC, ∀ f : SC, P (op f) f.pr) ∧ (∀ op ∈ allVR, ∀ f : VR, P (op f) f.pr) ∧ (∀ op ∈ allVT, ∀ f : VT, P (op f) f.pr) ∧
  (∀ op ∈ allVA, ∀ f : VA, P (op f) f.pr) ∧ (∀ op ∈ allFA, ∀ f : FA, P (op f) f.pr) ∧ (∀ op ∈ allFD, ∀ f : FD, P (op f) f.pr) ∧
  (∀ op ∈ allMA, ∀ f : MA, P (op f) f.pr) ∧ (∀ op ∈ allMX, ∀ f : MX, P (op f) f.pr) ∧ (∀ op ∈ allXP, ∀ f : XP, P (op f) f.pr) ∧
  (∀ op ∈ allXT, ∀ f : XT, P (op f) f.pr) ∧ (∀ op ∈ allXS, ∀ f : XS, P (op f) f.pr)
/-- A lane field's lowest bits are its opcode: 8 of them on the S lanes, 7 on V and M, 5 on F, 4 on X (R280, Table 12.1). -/
def OpOf (i : Instr) (op : Nat) : Prop :=
  match encode i with
  | .s w => (w.extractLsb' 0 8).toNat = op | .v w => (w.extractLsb' 0 7).toNat = op | .f w => (w.extractLsb' 0 5).toNat = op
  | .m w => (w.extractLsb' 0 7).toNat = op | .x w => (w.extractLsb' 0 4).toNat = op | _ => False
/-- Every lane operation has its opcode, whatever its operands. -/
def EveryOpcode : Prop :=
  (∀ x ∈ allSR.zip opSR, ∀ f : SR, OpOf (x.1 f) x.2) ∧ (∀ x ∈ allSI.zip opSI, ∀ f : SI, OpOf (x.1 f) x.2) ∧
  (∀ x ∈ allSL.zip (codes 0x30 0x31), ∀ f : SL, OpOf (x.1 f) x.2) ∧ (∀ x ∈ allSC.zip opSC, ∀ f : SC, OpOf (x.1 f) x.2) ∧
  (∀ x ∈ allVR.zip opVR, ∀ f : VR, OpOf (x.1 f) x.2) ∧ (∀ x ∈ allVT.zip (codes 0x38 0x3D ++ [0x60]), ∀ f : VT, OpOf (x.1 f) x.2) ∧
  (∀ x ∈ allVA.zip (codes 0x78 0x7C), ∀ f : VA, OpOf (x.1 f) x.2) ∧ (∀ x ∈ allFA.zip (codes 0x01 0x08), ∀ f : FA, OpOf (x.1 f) x.2) ∧
  (∀ x ∈ allFD.zip (codes 0x10 0x13), ∀ f : FD, OpOf (x.1 f) x.2) ∧ (∀ x ∈ allMA.zip (codes 0x01 0x0F), ∀ f : MA, OpOf (x.1 f) x.2) ∧
  (∀ x ∈ allMX.zip opMX, ∀ f : MX, OpOf (x.1 f) x.2) ∧ (∀ x ∈ allXP.zip [1], ∀ f : XP, OpOf (x.1 f) x.2) ∧
  (∀ x ∈ allXT.zip [3, 4, 5, 6], ∀ f : XT, OpOf (x.1 f) x.2) ∧ (∀ x ∈ allXS.zip [2, 2, 7], ∀ f : XS, OpOf (x.1 f) x.2) ∧
  [opSR.length, opSI.length, opSC.length, opVR.length, opMX.length] = [allSR.length, allSI.length, allSC.length, allVR.length, allMX.length]
/-- A lane field's bits above its opcode: PR (R280). -/
def PrOf (i : Instr) (pr : BitVec 6) : Prop :=
  match encode i with
  | .s w => w.extractLsb' 8 6 = pr | .v w => w.extractLsb' 7 6 = pr | .f w => w.extractLsb' 5 6 = pr
  | .m w => w.extractLsb' 7 6 = pr | .x w => w.extractLsb' 4 6 = pr | _ => False
/-- What a rollback brings back: the kept strand, its record without flags (R265), its ports with what they fetched up to a fault (R371), its tile-fetch
operands with the pins they still hold (R188). -/
def broughtBack (k now : Arch) : Arch :=
  { k with pend := (k.pend.filter fun p => !isFlags p).map bareRow, uiHeld := (k.uiHeld.filter fun p => !isFlags p).map bareRow
           ports := k.ports.map fun p => (p.1, { p.2 with buf := p.2.buf.takeWhile fun e => e.fault.isNone })
           tfports := k.tfports.map fun p => (p.1, tfRetry (tfBack p.2 (FMap.find now.tfports p.1))) }
/-- A trap of the operation at the cursor. -/
def traps (s : State) (t : Trap) : Result := leaves s (takeTrap s.cur t (here s))
/-- Every core but the issuing one is the same in both states. -/
def othersSame (s t : State) : Prop := ∀ i, i ≠ s.cur.core → t.core i = s.core i
/-- Architectural registers, scratchpad and tiles of two cores agree. -/
def sameStore (c c' : Core) : Prop :=
  c'.arch.s = c.arch.s ∧ c'.arch.shadow = c.arch.shadow ∧ c'.arch.v = c.arch.v ∧ c'.arch.p = c.arch.p ∧ c'.arch.g = c.arch.g ∧
  c'.arch.latch = c.arch.latch ∧ c'.arch.vxf = c.arch.vxf ∧ c'.arch.rot = c.arch.rot ∧ c'.arch.ctk = c.arch.ctk ∧ c'.arch.slots = c.arch.slots ∧
  c'.arch.stage = c.arch.stage ∧ c'.arch.ecfg = c.arch.ecfg ∧ c'.spad = c.spad ∧ c'.tiles = c.tiles ∧ c'.psum = c.psum

end Sys2Proof.Claims

/-- Decoding the words of a well-formed instruction gives the instruction, with every operand at every value (Tables 4.1, 4.3, 12.1 to 12.5); a device
event has no words. -/
def Obligations.DecodeOfEncode : Prop := ∀ i : Instr, i.wf = true → encode i ≠ .event → decodeEnc (encode i) = some i

/-- Every step keeps the canonical form of every memory. -/
def Obligations.StepKeepsMemoryForm : Prop := ∀ s t : State, s.memWf = true → step s = .next t → t.memWf = true

/-- The machine right after reset (R16, R17, R23, R26, R53, R71). Model's choice: every command register of a queue is 0 at reset (log 1); unlisted bytes
read 0 (log 2). -/
def Obligations.ResetState : Prop :=
  let r := State.reset
  (r.gtc = 0 ∧ r.mod.ready = false ∧ r.mod.fail = false ∧ r.mod.stage = 0 ∧ r.mod.active = 0 ∧ r.mod.mode = 0 ∧ r.mod.capw = 0) ∧
  (∀ q, (r.queue q).en = false ∧ (r.queue q).size = 12 ∧ (r.queue q).head = 0 ∧ (r.queue q).tail = 0 ∧ (r.queue q).frozen = false ∧ (r.queue q).c = []) ∧
  (∀ k, (FMap.get KeySlot.init r.mod.keys k).st = .empty) ∧ (∀ i, (r.core i).mode = .free) ∧ (∀ d k, ((r.die d).link k).st = .down) ∧
  r.memWf = true ∧ r.modeLegal = true ∧ (∀ a, Memory.read r.mem a = 0)

/-- A step performs the head of the cycle's agenda: the operation a lane of a fetched bundle holds, an event, the command at a queue's position; and an
instruction placed by withFetchWord is the next step's (log 62). -/
def Obligations.StepRunsDecoded : Prop :=
  (∀ (s : State) (cu : Cursor) (rest : List Todo) (f : Fetched) (i : Instr), s.agenda = .lane cu :: rest → isRun (s.core cu.core) = true →
    (s.core cu.core).arch.fetched cu.seq = some f → phaseTrap cu (s.core cu.core) = false → bundleLane f.bits cu.lane = some i →
    step s = exec i { s with agenda := rest, cur := cu }) ∧
  (∀ (s : State) (rest : List Todo) (i : Instr), s.agenda = .ev i :: rest → step s = exec i { s with agenda := rest }) ∧
  (∀ (s s' : State) (q : Nat) (rest : List Todo) (i : Instr), s.agenda = .point q :: rest →
    let s1 := recognise { s with agenda := rest } q
    (s1.queue q).en = true → (s1.queue q).frozen = false → queueHead s1 q = (.cmd i, s') → step s = exec i { s' with curQ := q }) ∧
  (∀ (s : State) (nbits w : Nat) (i : Instr), nbits ≤ 48 → (s.core 0).arch.phase = [] → decodeTableWord nbits w = some i →
    ∃ c, c.mode = .run ∧ step (s.withFetchWord nbits w) = exec i { s.setCore 0 c with agenda := [], cur := ⟨0, wordLane nbits, 0, 0, 0, true, false, s.gtc⟩ }) ∧
  (∀ (s : State) (nbits w : Nat) (i : Instr), 48 < nbits → decodeTableWord nbits w = some i →
    step (s.withFetchWord nbits w) = exec i { s with agenda := [], curQ := 0 })

/-- Words written out from the encoding tables decode to their instructions: one of each lane and of the command units. -/
def Obligations.DecodedWords : Prop :=
  decodeS0 0x0001424030 = some (.li ⟨0, 9, 0, 5⟩) ∧ decodeS0 0x0121C1C001 = some (.add ⟨0, 7, 0, 7, 9, 0, 0⟩) ∧
  decodeV01 0x00348080B132 = some (.vMulF ⟨34, 5, 0, 4, 72, 6, 0, 0, 0⟩) ∧ decodeF 0x10434010 = some (.vdrawF32 ⟨0, 40, 33, 0, 2, 0⟩) ∧
  decodeM 0x000900A00C = some (.vld ⟨0, 5, 0, 8, 1⟩) ∧ decodeX 0x051001 = some (.mpush ⟨0, 4, 5, 0, 0⟩) ∧ decodeX 0x000006 = some (.mzero ⟨0, 0, 0⟩) ∧
  decodeCmd 0x0000000100000301 [] = .ok (.cmdLi ⟨0, 0, 3, 0, 0, 0, 0, 0, 1, []⟩) ∧ decodeCmd 0x3F [] = .badOp ∧ decodeS0 0xFF = none

/-- Every lane field begins with its opcode of Table 12.5 and then PR; PR 0 means always, PR with bit 5 names g(PR[4:0]), any other value is invalid
(R280). -/
def Obligations.StagePredicateField : Prop :=
  EveryOpcode ∧ EveryLaneOp PrOf ∧
  ∀ (c : Core) (pr : BitVec 6), (pr = 0 → stagePred c pr = some true) ∧
    (pr.getLsbD 5 = true → stagePred c pr = some (c.arch.g.getLsbD (((pr.setWidth 5).toNat + 32 - c.arch.rot.toNat) % 32))) ∧
    (pr ≠ 0 → pr.getLsbD 5 = false → stagePred c pr = none)

/-- With a stage predicate of 0 a lane operation has no effect of any kind; an invalid PR traps with ILLEGAL_OP SUB 2; and every lane operation answers a
next state (R140, R287). -/
def Obligations.StagePredicateGate : Prop :=
  ∀ s : State, EveryLaneOp fun i pr =>
    (stagePred (here s) pr = some false → exec i s = .next s) ∧
    (stagePred (here s) pr = none → exec i s = traps s (Trap.illegal 2 s.cur.lane)) ∧ (∃ t, exec i s = .next t)

/-- What no lane operation changes at its issue (R135, R136, R158, R159, R317). -/
def Obligations.IssueFrame : Prop :=
  ∀ s : State, EveryLaneOp fun i _ => ∀ t, exec i s = .next t →
    ((∀ f, i ≠ .slotld f) → t.mem = s.mem ∧ t.seals = s.seals) ∧
    (t.queues = s.queues ∧ t.launches = s.launches ∧ t.gtc = s.gtc ∧ t.mod = s.mod ∧ t.xacts = s.xacts ∧ othersSame s t) ∧
    (isRun (here s) = true → isRun (here t) = true → sameStore (here s) (here t))

/-- Every operand form, and the register files (R139, R281, R282, R283, R318, R137, R154). -/
def Obligations.OperandsAndRegisters : Prop :=
  (∀ (s : State) (c : Core) (code : BitVec 7),
    let n := code.toNat
    (n ≤ 63 → ∃ r, SrcS s code c (c.arch.getS r) c ∧ SrcV s code c (c.arch.getV r) c ∧
      r = if n < 32 then n else 32 + (n - 32 + (32 - c.arch.rot.toNat)) % 32) ∧
    (64 ≤ n → n ≤ 71 → SrcS s code c ((c.arch.getLatch (n - 64)).setWidth 64) c ∧ SrcV s code c ((c.arch.getLatch (n - 64)).setWidth 4096) c) ∧
    (72 ≤ n → n ≤ 79 → (∀ v c1, popPort s.cur c (n - 72) = .ok (v, c1) → SrcV s code c v c1 ∧ SrcS s code c (v.setWidth 64) c1)) ∧
    (80 ≤ n → n ≤ 83 → resolveS s.cur code c = popChan s.cur c (n - 80) ∧ resolveV s.cur code c = illegal s.cur 3) ∧
    (n = 127 → SrcS s code c 0 c ∧ SrcV s code c 0 c) ∧
    (84 ≤ n → n ≤ 126 → resolveS s.cur code c = illegal s.cur 2 ∧ resolveV s.cur code c = illegal s.cur 2) ∧
    (∀ (lat : Nat) (v : Word), n ≤ 63 → ∃ r, (r = if n < 32 then n else 32 + (n - 32 + (32 - c.arch.rot.toNat)) % 32) ∧
      DstS s code 0 lat v c (emitLatch s.cur lat (v.setWidth 512) (emit s.cur lat (.s r v) c)) ∧
      DstS s code 1 lat v c (emitLatch s.cur lat (v.setWidth 512) c)) ∧
    (∀ (lat w : Nat) (v m : VWord), n ≤ 63 → ∃ r, (r = if n < 32 then n else 32 + (n - 32 + (32 - c.arch.rot.toNat)) % 32) ∧
      DstV s code 0 lat w v m c (emitLatch s.cur lat ((v &&& m).setWidth 512) (emit s.cur lat (.v r v m) c)) ∧
      DstV s code 1 lat w v m c (emitLatch s.cur lat ((v &&& m).setWidth 512) c)) ∧
    (∀ (lat : Nat) (v : Word), 72 ≤ n → n ≤ 79 → ∀ c1, pushPort s.cur c (n - 72) 64 (v.setWidth 4096) (lowMask 64 64) = .ok c1 →
      DstS s code 0 lat v c (emitLatch s.cur lat (v.setWidth 512) c1)) ∧
    (∀ (ws : BitVec 1) (lat : Nat) (v : Word), (64 ≤ n ∧ n ≤ 71 ∨ 84 ≤ n) → writeS s.cur code ws lat v c = illegal s.cur 2) ∧
    (∀ (lat w : Nat) (v m : VWord), (64 ≤ n ∧ n ≤ 71 ∨ 84 ≤ n → ∀ ws, writeV s.cur code ws lat w v m c = illegal s.cur 2) ∧
      (72 ≤ n → n ≤ 83 → writeV s.cur code 1 lat w v m c = illegal s.cur 2) ∧ (80 ≤ n → n ≤ 83 → writeV s.cur code 0 lat w v m c = illegal s.cur 3) ∧
      (72 ≤ n → n ≤ 79 → ∀ c1, pushPort s.cur c (n - 72) w v m = .ok c1 → DstV s code 0 lat w v m c (emitLatch s.cur lat ((v &&& m).setWidth 512) c1))) ∧
    (∀ (lat : Nat) (v : Word), (72 ≤ n → n ≤ 83 → writeS s.cur code 1 lat v c = illegal s.cur 2) ∧
      (80 ≤ n → n ≤ 83 → ∀ c1, pushChan s.cur c (n - 80) v = .ok c1 → DstS s code 0 lat v c (emitLatch s.cur lat (v.setWidth 512) c1)))) ∧
  (∀ (a : Arch) (r : Nat) (v : Word),
    (a.setS 0 v = a ∧ a.getS 0 = 0) ∧ (r ≠ 0 → (a.setS r v).getS r = v) ∧ (∀ k, k ≠ r → (a.setS r v).getS k = a.getS k) ∧
    (a.uiActive = true → 8 ≤ r → r < 16 → (a.setS r v).s = a.s) ∧
    (∀ x : VWord, (a.setV r x).getV r = x ∧ (∀ k, k ≠ r → (a.setV r x).getV k = a.getV k) ∧ (a.setV r x).s = a.s) ∧
    (∀ x : PWord, (a.setP r x).getP r = x ∧ ∀ k, k ≠ r → (a.setP r x).getP k = a.getP k) ∧
    (∀ b : Bool, r < 32 → (a.setG r b).getG r = b ∧ ∀ k, k ≠ r → (a.setG r b).getG k = a.getG k))

/-- Taking a core exception restores the kept state (R167, R162, R164). Model's choice (log 97): tiles with row writes of earlier bundles that landed in
the segment are put back. -/
def Obligations.CoreException : Prop :=
  ∀ (s : State) (c : Core) (t : Trap),
    let x := takeTrap s.cur t c
    let rows := rowIds (c.keep.pend ++ c.keep.uiHeld)
    (x.mode = .rolled t s.cur.pos ∧ x.arch = broughtBack c.keep c.arch ∧ x.keep = c.keep ∧ x.spadLog = [] ∧ x.waits = [] ∧ x.task = c.task ∧ x.launch = c.launch) ∧
    (x.arch.s = c.keep.s ∧ x.arch.v = c.keep.v ∧ x.arch.ctk = c.keep.ctk ∧ x.arch.stores = c.keep.stores ∧ x.arch.pushed = c.keep.pushed ∧
      x.arch.popped = c.keep.popped) ∧
    (∀ a, (∀ p ∈ c.spadLog, p.1 * 64 + 64 ≤ a ∨ a < p.1 * 64) → Memory.read x.spad a = Memory.read c.spad a) ∧
    (∀ g v, c.spadLog = [(g, v)] → ∀ i, i < 64 → Memory.read x.spad (64 * g + i) = v.extractLsb' (8 * i) 8) ∧
    (∀ k, c.arch.tMod = [k] → c.arch.tLive = [] → FMap.find x.tiles k = none ∧
      ∀ j, j ≠ k → j ∉ rows → FMap.find x.tiles j = FMap.find c.tiles j) ∧
    (∀ k ∈ rows, k ∉ c.arch.tMod → FMap.find x.tiles k = FMap.find c.tilesK k) ∧
    (∀ k im, c.arch.tMod = [k] → c.arch.tLive = [k] → FMap.find c.tilesK k = some im → FMap.find x.tiles k = some im) ∧
    ((replayCore x).mode = .run ∧ (replayCore x).arch = x.arch ∧ (replayCore x).spad = x.spad)

/-- Memory is little-endian; a write reads back and leaves the rest alone (R4). -/
def Obligations.MemoryLaws : Prop :=
  ∀ m : Memory, Memory.wf m = true →
    (∀ a b, Memory.wf (Memory.write m a b) = true ∧ Memory.read (Memory.write m a b) a = b ∧ ∀ x, x ≠ a → Memory.read (Memory.write m a b) x = Memory.read m x) ∧
    (∀ a n v, Memory.wf (Memory.writeN m a n v) = true ∧ Memory.readN (Memory.writeN m a n v) a n = v % 256 ^ n ∧
      (∀ i, i < n → (Memory.read (Memory.writeN m a n v) (a + i)).toNat = v / 256 ^ i % 256) ∧
      ∀ x, x < a ∨ a + n ≤ x → Memory.read (Memory.writeN m a n v) x = Memory.read m x) ∧
    (∀ a n en v, Memory.wf (Memory.writeEn m a n en v) = true ∧
      (∀ i, i < n → en.testBit i = true → (Memory.read (Memory.writeEn m a n en v) (a + i)).toNat = v / 256 ^ i % 256) ∧
      (∀ i, i < n → en.testBit i = false → Memory.read (Memory.writeEn m a n en v) (a + i) = Memory.read m (a + i)) ∧
      ∀ x, x < a ∨ a + n ≤ x → Memory.read (Memory.writeEn m a n en v) x = Memory.read m x) ∧
    (∀ m' : Memory, Memory.wf m' = true → (∀ a, Memory.read m a = Memory.read m' a) → m = m') ∧
    (∀ (w i : Nat) (v : VWord), elem w v.toNat i = (v.extractLsb' (i * w) w).toNat)

/-- A store changes its bytes alone, under its seal (R63, R73, R194). -/
def Obligations.PhysicalStores : Prop :=
  ∀ (s : State) (loc die pa n v : Nat) (sl : Seal),
    let t := physWrite s loc die pa n v sl
    (isSealed loc = false → physRead t loc die pa n sl = v % 256 ^ n ∧ t.seals = s.seals ∧
      ∀ a, a < maddr loc die pa ∨ maddr loc die pa + n ≤ a → Memory.read t.mem a = Memory.read s.mem a) ∧
    (isSealed loc = true → pa % 128 + n ≤ 128 → physRead t loc die pa n sl = v % 256 ^ n ∧
      (∀ a, a / 128 ≠ maddr loc die pa / 128 → Memory.read t.mem a = Memory.read s.mem a) ∧
      (FMap.find s.seals (maddr loc die pa / 128) = some sl → ∀ a, a < maddr loc die pa ∨ maddr loc die pa + n ≤ a →
        Memory.read t.mem a = Memory.read s.mem a)) ∧
    (t.cores = s.cores ∧ t.queues = s.queues ∧ t.mod = s.mod ∧ t.gtc = s.gtc)

/-- Effective addresses, and what a successful translation implies (R354, R60, R61, R73). -/
def Obligations.AddressesAndTranslation : Prop :=
  (∀ (s : State) (a : Word) (n al : Nat) (wr : Bool),
    let e := effAddr s.cur a n al wr
    (a.toNat % al ≠ 0 → e = illegal s.cur 2) ∧
    (a.toNat % al = 0 → a.getLsbD 63 = true → a.extractLsb' 22 41 = 0 → (a.setWidth 22).toNat + n ≤ 2 ^ 22 → e = .ok (.spad (a.setWidth 22).toNat)) ∧
    (a.toNat % al = 0 → a.getLsbD 63 = true → (a.extractLsb' 22 41 ≠ 0 ∨ 2 ^ 22 < (a.setWidth 22).toNat + n) → e = addrRange s.cur a wr) ∧
    (a.toNat % al = 0 → a.getLsbD 63 = false → a.toNat + n ≤ 2 ^ 56 → 0 < n → e = .ok (.dev a.toNat)) ∧
    (a.toNat % al = 0 → a.getLsbD 63 = false → 2 ^ 56 < a.toNat + n → e = addrRange s.cur a wr)) ∧
  (∀ (s : State) (t ctx va : Nat) (acc : AccT) (m : MasterT),
    (2 ^ 56 ≤ va → translate s t ctx va acc m = .fault 12 7 0) ∧
    (va < 2 ^ 56 → ctxOk s ctx = false → translate s t ctx va acc m = .fault 13 7 0) ∧
    (∀ ph l e, translate s t ctx va acc m = .ok ph l e →
      va < 2 ^ 56 ∧ ctxOk s ctx = true ∧ ph.loc = pteLoc e ∧ ph.loc ≤ 3 ∧ ph.die = pteDie e ∧ ph.key = pteKey e ∧ pteFrame e % 2 ^ lvlShift l = 0 ∧
      (ph.loc ≠ 3 → ph.pa = pteFrame e + va % 2 ^ lvlShift l) ∧ (pteSup e = true → m.user = false) ∧
      (acc = .read ∨ acc = .amo → pteR e = true) ∧ (acc = .exec → pteX e = true) ∧
      (acc = .write ∨ acc = .amo → pteW e = true ∧ pteRoc e = false ∧ pteCow e = false ∧ (ph.loc = 2 → m.supCopy = true ∧ launchActive s ph.die = false)) ∧
      (isSealed ph.loc = true → let k := FMap.get KeySlot.init s.mod.keys ph.key
        (k.st = .keyed ∨ k.st = .plain) ∧ k.owner = ctx)) ∧
    (tlbFind s t ctx va = none → va < 2 ^ 56 → ctxOk s ctx = true → (walk s ctx va).code ≠ 0 →
      translate s t ctx va acc m = .fault (walk s ctx va).code (walk s ctx va).lvl (walk s ctx va).e) ∧
    (∀ c l e, translate s t ctx va acc m = .fault c l e → 1 ≤ c ∧ c ≤ 13))

/-- What freezes a queue, and the abort procedure (R85, R86, R88, R89, R90, R91, R94, R95, R96). -/
def Obligations.CommandRefusals : Prop :=
  (∀ (f : Pkt) (s : State), s.absent = none → WellShaped s f 0 →
    let va := cmdAddr s f
    (∀ e ∈ commandBranches, ¬ MayMove s f.imm.toInt → exec (e.1 f) s = freezes s 33 7 0 0 false) ∧
    (f.ra = 0 → f.rb = 0 → (atQ s).stack = [] → exec (.cmdLoop f) s = freezes s 33 7 0 0 false) ∧
    (f.rd = 0 → f.rb = 0 → (creg s f.ra).toNat % 8 = 0 → 1 ≤ f.imm.toNat → f.imm.toNat ≤ 65536 → 8 ≤ (atQ s).stack.length →
      exec (.cmdCall f) s = freezes s 35 7 0 0 false) ∧
    (f.rd = 0 → f.ra = 0 → f.rb = 0 → f.imm = 0 → (atQ s).stack = [] → exec (.cmdRet f) s = freezes s 33 7 0 0 false) ∧
    (f.rb = 0 → va % 8 ≠ 0 → exec (.cmdLd f) s = freezes s 34 7 0 va false) ∧
    (f.rd = 0 → va % 8 ≠ 0 → exec (.cmdSt f) s = freezes s 34 7 0 va true) ∧
    (∀ g ∈ commandSignals, va % 8 ≠ 0 → exec (g.1 f) s = freezes s 34 7 0 va true) ∧
    (f.rb = 0 → va % 8 = 0 → ∀ c l e,
      translate (starts s s.curQ (atQ s) f (f.b = 1) .access) (tlbSpindle (s.curQ / 8)) (atQ s).qctx.toNat va .read mQueue = .fault c l e →
      exec (.cmdLd f) s = freezes s c l e (va % 2 ^ 56) false)) ∧
  (∀ (f : Pkt) (s : State) (sig : Word), s.absent = none → f.ext = [sig] → WellShaped s f 1 → sig.toNat % 8 = 0 → sig.toNat < 2 ^ 56 →
    (f.imm = 0 → (creg s f.rb).toNat % 64 ≠ 0 → ∀ l s1, readLaunch s s.curQ (creg s f.ra) (atQ s).where = .ok (l, s1) → s1.absent = none →
      exec (.cmdLaunchN f) s = freezes s 34 7 0 (creg s f.rb).toNat true) ∧
    (f.rd = 0 → 1 ≤ f.imm.toNat → f.imm.toNat < 2 ^ 31 → f.imm.toNat % 8 = 0 → (creg s f.ra).toNat % 8 ≠ 0 →
      exec (.cmdFill f) s = freezes s 34 7 0 (creg s f.ra).toNat true)) ∧
  (∀ (s : State) (q : Nat) (v : Word) (ring : Nat), (s.queue q).abtsig = 0 →
      let qq := (abortQueue s q v ring).queue q
      qq.reg 15 = v ∧ qq.abort = none ∧
      ((s.queue q).hlen = 0 → qq.stack = [] ∧ qq.head = (s.queue q).tail ∧ qq.avail = 0) ∧
      ((s.queue q).hlen ≠ 0 → qq.stack = [⟨(s.queue q).hva, (s.queue q).hlen, 0⟩] ∧ qq.inHandler = true ∧ qq.hlen = 0 ∧ qq.head = (s.queue q).head))

/-- A fence, a slotld and a channel binding stand in a checkpoint bundle; elsewhere they trap with ILLEGAL_OP SUB 2 (R229 to R232, R317, R374). -/
def Obligations.CheckpointOnly : Prop :=
  ∀ s : State, s.cur.ckpt = false →
    (∀ f : MX, Acts s f.pr → ∀ op ∈ [Instr.fence f, .fencex f, .flush f, .cbind f, .cunbind f], exec op s = traps s (Trap.illegal 2 s.cur.lane)) ∧
    (∀ f : SC, Acts s f.pr → exec (.slotld f) s = traps s (Trap.illegal 2 s.cur.lane))
end

