-- ==== Sys2Proof/Laws/FMap.lean ====
section
/-! SUPPORT. What a sparse map reads after each of its operations. -/
namespace Sys2Proof.Machine

theorem FMap.get_put {α : Type} (d : α) (m : FMap α) (i k : Nat) (v : α) :
    FMap.get d (FMap.put m i v) k = if k = i then v else FMap.get d m k := by
  induction m with
  | nil => simp only [FMap.put, FMap.get, eq_comm]
  | cons x t ih =>
    obtain ⟨a, b⟩ := x
    unfold FMap.put
    split
    · simp only [FMap.get, eq_comm]
    · split
      · subst_vars
        by_cases h : k = a
        · subst h; simp [FMap.get]
        · simp only [FMap.get, if_neg h, if_neg (Ne.symm h)]
      · simp only [FMap.get, ih]
        by_cases h : a = k
        · rw [if_pos h, if_neg (by omega), if_pos h]
        · rw [if_neg h, if_neg h]

theorem FMap.find_put {α : Type} (m : FMap α) (i k : Nat) (v : α) :
    FMap.find (FMap.put m i v) k = if k = i then some v else FMap.find m k := by
  induction m with
  | nil => simp only [FMap.put, FMap.find, eq_comm]
  | cons x t ih =>
    obtain ⟨a, b⟩ := x
    unfold FMap.put
    split
    · simp only [FMap.find, eq_comm]
    · split
      · subst_vars
        by_cases h : k = a
        · subst h; simp [FMap.find]
        · simp only [FMap.find, if_neg h, if_neg (Ne.symm h)]
      · simp only [FMap.find, ih]
        by_cases h : a = k
        · rw [if_pos h, if_neg (by omega), if_pos h]
        · rw [if_neg h, if_neg h]

theorem FMap.get_erase {α : Type} (d : α) (m : FMap α) (i k : Nat) :
    FMap.get d (FMap.erase m i) k = if k = i then d else FMap.get d m k := by
  induction m with
  | nil => simp [FMap.erase, FMap.get]
  | cons x t ih =>
    obtain ⟨a, b⟩ := x
    unfold FMap.erase
    by_cases h : a = i
    · rw [if_pos h, ih]
      by_cases hk : k = i
      · rw [if_pos hk, if_pos hk]
      · rw [if_neg hk, if_neg hk]; simp only [FMap.get]; rw [if_neg (by omega)]
    · rw [if_neg h]; simp only [FMap.get, ih]
      by_cases hk : a = k
      · rw [if_pos hk, if_neg (by omega), if_pos hk]
      · rw [if_neg hk, if_neg hk]

theorem FMap.find_erase {α : Type} (m : FMap α) (i k : Nat) :
    FMap.find (FMap.erase m i) k = if k = i then none else FMap.find m k := by
  induction m with
  | nil => simp [FMap.erase, FMap.find]
  | cons x t ih =>
    obtain ⟨a, b⟩ := x
    unfold FMap.erase
    by_cases h : a = i
    · rw [if_pos h, ih]
      by_cases hk : k = i
      · rw [if_pos hk, if_pos hk]
      · rw [if_neg hk, if_neg hk]; simp only [FMap.find]; rw [if_neg (by omega)]
    · rw [if_neg h]; simp only [FMap.find, ih]
      by_cases hk : a = k
      · rw [if_pos hk, if_neg (by omega), if_pos hk]
      · rw [if_neg hk, if_neg hk]

theorem FMap.get_set {α : Type} [DecidableEq α] (d : α) (m : FMap α) (i k : Nat) (v : α) :
    FMap.get d (FMap.set d m i v) k = if k = i then v else FMap.get d m k := by
  unfold FMap.set
  split
  · rename_i h; rw [FMap.get_erase, h]
  · exact FMap.get_put d m i k v

/-- A map over the values reads the image, where the function fixes the default. -/
theorem FMap.get_map {α : Type} (d : α) (f : α → α) (hd : f d = d) (m : FMap α) (k : Nat) :
    FMap.get d (m.map fun p => (p.1, f p.2)) k = f (FMap.get d m k) := by
  induction m with
  | nil => exact hd.symm
  | cons x t ih =>
    simp only [List.map_cons, FMap.get, ih]
    split <;> rfl

/-- An entry of a map after a put is the new one or an old one. -/
theorem FMap.mem_put {α : Type} {m : FMap α} {i : Nat} {v : α} {x : Nat × α} (h : x ∈ FMap.put m i v) : x = (i, v) ∨ x ∈ m := by
  induction m with
  | nil => exact .inl (by simpa [FMap.put] using h)
  | cons y t ih =>
    obtain ⟨a, b⟩ := y
    unfold FMap.put at h
    split at h
    · simpa using h
    · split at h
      · rcases List.mem_cons.mp h with h | h
        · exact .inl h
        · exact .inr (List.mem_cons_of_mem _ h)
      · rcases List.mem_cons.mp h with h | h
        · exact .inr (by simp [h])
        · rcases ih h with h | h
          · exact .inl h
          · exact .inr (List.mem_cons_of_mem _ h)

/-- What `get` answers is the default or stands in the map. -/
theorem FMap.get_mem {α : Type} (d : α) (m : FMap α) (i : Nat) : FMap.get d m i = d ∨ (i, FMap.get d m i) ∈ m := by
  induction m with
  | nil => exact .inl rfl
  | cons x t ih =>
    obtain ⟨a, b⟩ := x
    simp only [FMap.get]
    split
    · rename_i h; subst h; exact .inr (by simp)
    · rcases ih with h | h
      · exact .inl h
      · exact .inr (List.mem_cons_of_mem _ h)

end Sys2Proof.Machine
end

