-- ==== Sys2Proof/Laws/State.lean ====
section
/-! SUPPORT. What each update of the state leaves of each field, and what the parts read after it. -/
namespace Sys2Proof.Machine

@[simp] theorem State.setCore_mod (s : State) (i : Nat) (c : Core) : (s.setCore i c).mod = s.mod := rfl
@[simp] theorem State.setCore_gtc (s : State) (i : Nat) (c : Core) : (s.setCore i c).gtc = s.gtc := rfl
@[simp] theorem State.setCore_gtcStep (s : State) (i : Nat) (c : Core) : (s.setCore i c).gtcStep = s.gtcStep := rfl
@[simp] theorem State.setCore_gtcStepAt (s : State) (i : Nat) (c : Core) : (s.setCore i c).gtcStepAt = s.gtcStepAt := rfl
@[simp] theorem State.setCore_dies (s : State) (i : Nat) (c : Core) : (s.setCore i c).dies = s.dies := rfl
@[simp] theorem State.setCore_queues (s : State) (i : Nat) (c : Core) : (s.setCore i c).queues = s.queues := rfl
@[simp] theorem State.setCore_launches (s : State) (i : Nat) (c : Core) : (s.setCore i c).launches = s.launches := rfl
@[simp] theorem State.setCore_groups (s : State) (i : Nat) (c : Core) : (s.setCore i c).groups = s.groups := rfl
@[simp] theorem State.setCore_qcopies (s : State) (i : Nat) (c : Core) : (s.setCore i c).qcopies = s.qcopies := rfl
@[simp] theorem State.setCore_nextId (s : State) (i : Nat) (c : Core) : (s.setCore i c).nextId = s.nextId := rfl
@[simp] theorem State.setCore_mem (s : State) (i : Nat) (c : Core) : (s.setCore i c).mem = s.mem := rfl
@[simp] theorem State.setCore_seals (s : State) (i : Nat) (c : Core) : (s.setCore i c).seals = s.seals := rfl
@[simp] theorem State.setCore_sinter (s : State) (i : Nat) (c : Core) : (s.setCore i c).sinter = s.sinter := rfl
@[simp] theorem State.setCore_ivals (s : State) (i : Nat) (c : Core) : (s.setCore i c).ivals = s.ivals := rfl
@[simp] theorem State.setCore_races (s : State) (i : Nat) (c : Core) : (s.setCore i c).races = s.races := rfl
@[simp] theorem State.setCore_xacts (s : State) (i : Nat) (c : Core) : (s.setCore i c).xacts = s.xacts := rfl
@[simp] theorem State.setCore_tlbs (s : State) (i : Nat) (c : Core) : (s.setCore i c).tlbs = s.tlbs := rfl
@[simp] theorem State.setCore_unackFaults (s : State) (i : Nat) (c : Core) : (s.setCore i c).unackFaults = s.unackFaults := rfl
@[simp] theorem State.setCore_hostFrozen (s : State) (i : Nat) (c : Core) : (s.setCore i c).hostFrozen = s.hostFrozen := rfl
@[simp] theorem State.setCore_shoots (s : State) (i : Nat) (c : Core) : (s.setCore i c).shoots = s.shoots := rfl
@[simp] theorem State.setCore_cow (s : State) (i : Nat) (c : Core) : (s.setCore i c).cow = s.cow := rfl
@[simp] theorem State.setCore_slotLoads (s : State) (i : Nat) (c : Core) : (s.setCore i c).slotLoads = s.slotLoads := rfl
@[simp] theorem State.setCore_convs (s : State) (i : Nat) (c : Core) : (s.setCore i c).convs = s.convs := rfl
@[simp] theorem State.setCore_locks (s : State) (i : Nat) (c : Core) : (s.setCore i c).locks = s.locks := rfl
@[simp] theorem State.setCore_grpUpd (s : State) (i : Nat) (c : Core) : (s.setCore i c).grpUpd = s.grpUpd := rfl
@[simp] theorem State.setCore_saveUse (s : State) (i : Nat) (c : Core) : (s.setCore i c).saveUse = s.saveUse := rfl
@[simp] theorem State.setCore_saves (s : State) (i : Nat) (c : Core) : (s.setCore i c).saves = s.saves := rfl
@[simp] theorem State.setCore_pool (s : State) (i : Nat) (c : Core) : (s.setCore i c).pool = s.pool := rfl
@[simp] theorem State.setCore_wires (s : State) (i : Nat) (c : Core) : (s.setCore i c).wires = s.wires := rfl
@[simp] theorem State.setCore_outbox (s : State) (i : Nat) (c : Core) : (s.setCore i c).outbox = s.outbox := rfl
@[simp] theorem State.setCore_msix (s : State) (i : Nat) (c : Core) : (s.setCore i c).msix = s.msix := rfl
@[simp] theorem State.setCore_answers (s : State) (i : Nat) (c : Core) : (s.setCore i c).answers = s.answers := rfl
@[simp] theorem State.setCore_spdm (s : State) (i : Nat) (c : Core) : (s.setCore i c).spdm = s.spdm := rfl
@[simp] theorem State.setCore_ats (s : State) (i : Nat) (c : Core) : (s.setCore i c).ats = s.ats := rfl
@[simp] theorem State.setCore_atsInv (s : State) (i : Nat) (c : Core) : (s.setCore i c).atsInv = s.atsInv := rfl
@[simp] theorem State.setCore_absent (s : State) (i : Nat) (c : Core) : (s.setCore i c).absent = s.absent := rfl
@[simp] theorem State.setCore_free (s : State) (i : Nat) (c : Core) : (s.setCore i c).free = s.free := rfl
@[simp] theorem State.setCore_cur (s : State) (i : Nat) (c : Core) : (s.setCore i c).cur = s.cur := rfl
@[simp] theorem State.setCore_curQ (s : State) (i : Nat) (c : Core) : (s.setCore i c).curQ = s.curQ := rfl
@[simp] theorem State.setCore_agenda (s : State) (i : Nat) (c : Core) : (s.setCore i c).agenda = s.agenda := rfl
@[simp] theorem State.setCore_inputs (s : State) (i : Nat) (c : Core) : (s.setCore i c).inputs = s.inputs := rfl
@[simp] theorem State.setCore_rocPages (s : State) (i : Nat) (c : Core) : (s.setCore i c).rocPages = s.rocPages := rfl
@[simp] theorem State.setCore_served (s : State) (i : Nat) (c : Core) : (s.setCore i c).served = s.served := rfl
@[simp] theorem State.setCore_bankPtr (s : State) (i : Nat) (c : Core) : (s.setCore i c).bankPtr = s.bankPtr := rfl
@[simp] theorem State.die_setCore (s : State) (i : Nat) (c : Core) (k : Nat) : (s.setCore i c).die k = s.die k := rfl
@[simp] theorem State.queue_setCore (s : State) (i : Nat) (c : Core) (k : Nat) : (s.setCore i c).queue k = s.queue k := rfl
@[simp] theorem State.launch_setCore (s : State) (i : Nat) (c : Core) (k : Nat) : (s.setCore i c).launch k = s.launch k := rfl
@[simp] theorem State.setDie_mod (s : State) (i : Nat) (c : Die) : (s.setDie i c).mod = s.mod := rfl
@[simp] theorem State.setDie_gtc (s : State) (i : Nat) (c : Die) : (s.setDie i c).gtc = s.gtc := rfl
@[simp] theorem State.setDie_gtcStep (s : State) (i : Nat) (c : Die) : (s.setDie i c).gtcStep = s.gtcStep := rfl
@[simp] theorem State.setDie_gtcStepAt (s : State) (i : Nat) (c : Die) : (s.setDie i c).gtcStepAt = s.gtcStepAt := rfl
@[simp] theorem State.setDie_cores (s : State) (i : Nat) (c : Die) : (s.setDie i c).cores = s.cores := rfl
@[simp] theorem State.setDie_queues (s : State) (i : Nat) (c : Die) : (s.setDie i c).queues = s.queues := rfl
@[simp] theorem State.setDie_launches (s : State) (i : Nat) (c : Die) : (s.setDie i c).launches = s.launches := rfl
@[simp] theorem State.setDie_groups (s : State) (i : Nat) (c : Die) : (s.setDie i c).groups = s.groups := rfl
@[simp] theorem State.setDie_qcopies (s : State) (i : Nat) (c : Die) : (s.setDie i c).qcopies = s.qcopies := rfl
@[simp] theorem State.setDie_nextId (s : State) (i : Nat) (c : Die) : (s.setDie i c).nextId = s.nextId := rfl
@[simp] theorem State.setDie_mem (s : State) (i : Nat) (c : Die) : (s.setDie i c).mem = s.mem := rfl
@[simp] theorem State.setDie_seals (s : State) (i : Nat) (c : Die) : (s.setDie i c).seals = s.seals := rfl
@[simp] theorem State.setDie_sinter (s : State) (i : Nat) (c : Die) : (s.setDie i c).sinter = s.sinter := rfl
@[simp] theorem State.setDie_ivals (s : State) (i : Nat) (c : Die) : (s.setDie i c).ivals = s.ivals := rfl
@[simp] theorem State.setDie_races (s : State) (i : Nat) (c : Die) : (s.setDie i c).races = s.races := rfl
@[simp] theorem State.setDie_xacts (s : State) (i : Nat) (c : Die) : (s.setDie i c).xacts = s.xacts := rfl
@[simp] theorem State.setDie_tlbs (s : State) (i : Nat) (c : Die) : (s.setDie i c).tlbs = s.tlbs := rfl
@[simp] theorem State.setDie_unackFaults (s : State) (i : Nat) (c : Die) : (s.setDie i c).unackFaults = s.unackFaults := rfl
@[simp] theorem State.setDie_hostFrozen (s : State) (i : Nat) (c : Die) : (s.setDie i c).hostFrozen = s.hostFrozen := rfl
@[simp] theorem State.setDie_shoots (s : State) (i : Nat) (c : Die) : (s.setDie i c).shoots = s.shoots := rfl
@[simp] theorem State.setDie_cow (s : State) (i : Nat) (c : Die) : (s.setDie i c).cow = s.cow := rfl
@[simp] theorem State.setDie_slotLoads (s : State) (i : Nat) (c : Die) : (s.setDie i c).slotLoads = s.slotLoads := rfl
@[simp] theorem State.setDie_convs (s : State) (i : Nat) (c : Die) : (s.setDie i c).convs = s.convs := rfl
@[simp] theorem State.setDie_locks (s : State) (i : Nat) (c : Die) : (s.setDie i c).locks = s.locks := rfl
@[simp] theorem State.setDie_grpUpd (s : State) (i : Nat) (c : Die) : (s.setDie i c).grpUpd = s.grpUpd := rfl
@[simp] theorem State.setDie_saveUse (s : State) (i : Nat) (c : Die) : (s.setDie i c).saveUse = s.saveUse := rfl
@[simp] theorem State.setDie_saves (s : State) (i : Nat) (c : Die) : (s.setDie i c).saves = s.saves := rfl
@[simp] theorem State.setDie_pool (s : State) (i : Nat) (c : Die) : (s.setDie i c).pool = s.pool := rfl
@[simp] theorem State.setDie_wires (s : State) (i : Nat) (c : Die) : (s.setDie i c).wires = s.wires := rfl
@[simp] theorem State.setDie_outbox (s : State) (i : Nat) (c : Die) : (s.setDie i c).outbox = s.outbox := rfl
@[simp] theorem State.setDie_msix (s : State) (i : Nat) (c : Die) : (s.setDie i c).msix = s.msix := rfl
@[simp] theorem State.setDie_answers (s : State) (i : Nat) (c : Die) : (s.setDie i c).answers = s.answers := rfl
@[simp] theorem State.setDie_spdm (s : State) (i : Nat) (c : Die) : (s.setDie i c).spdm = s.spdm := rfl
@[simp] theorem State.setDie_ats (s : State) (i : Nat) (c : Die) : (s.setDie i c).ats = s.ats := rfl
@[simp] theorem State.setDie_atsInv (s : State) (i : Nat) (c : Die) : (s.setDie i c).atsInv = s.atsInv := rfl
@[simp] theorem State.setDie_absent (s : State) (i : Nat) (c : Die) : (s.setDie i c).absent = s.absent := rfl
@[simp] theorem State.setDie_free (s : State) (i : Nat) (c : Die) : (s.setDie i c).free = s.free := rfl
@[simp] theorem State.setDie_cur (s : State) (i : Nat) (c : Die) : (s.setDie i c).cur = s.cur := rfl
@[simp] theorem State.setDie_curQ (s : State) (i : Nat) (c : Die) : (s.setDie i c).curQ = s.curQ := rfl
@[simp] theorem State.setDie_agenda (s : State) (i : Nat) (c : Die) : (s.setDie i c).agenda = s.agenda := rfl
@[simp] theorem State.setDie_inputs (s : State) (i : Nat) (c : Die) : (s.setDie i c).inputs = s.inputs := rfl
@[simp] theorem State.setDie_rocPages (s : State) (i : Nat) (c : Die) : (s.setDie i c).rocPages = s.rocPages := rfl
@[simp] theorem State.setDie_served (s : State) (i : Nat) (c : Die) : (s.setDie i c).served = s.served := rfl
@[simp] theorem State.setDie_bankPtr (s : State) (i : Nat) (c : Die) : (s.setDie i c).bankPtr = s.bankPtr := rfl
@[simp] theorem State.core_setDie (s : State) (i : Nat) (c : Die) (k : Nat) : (s.setDie i c).core k = s.core k := rfl
@[simp] theorem State.queue_setDie (s : State) (i : Nat) (c : Die) (k : Nat) : (s.setDie i c).queue k = s.queue k := rfl
@[simp] theorem State.launch_setDie (s : State) (i : Nat) (c : Die) (k : Nat) : (s.setDie i c).launch k = s.launch k := rfl
@[simp] theorem State.setQueue_mod (s : State) (i : Nat) (c : Queue) : (s.setQueue i c).mod = s.mod := rfl
@[simp] theorem State.setQueue_gtc (s : State) (i : Nat) (c : Queue) : (s.setQueue i c).gtc = s.gtc := rfl
@[simp] theorem State.setQueue_gtcStep (s : State) (i : Nat) (c : Queue) : (s.setQueue i c).gtcStep = s.gtcStep := rfl
@[simp] theorem State.setQueue_gtcStepAt (s : State) (i : Nat) (c : Queue) : (s.setQueue i c).gtcStepAt = s.gtcStepAt := rfl
@[simp] theorem State.setQueue_dies (s : State) (i : Nat) (c : Queue) : (s.setQueue i c).dies = s.dies := rfl
@[simp] theorem State.setQueue_cores (s : State) (i : Nat) (c : Queue) : (s.setQueue i c).cores = s.cores := rfl
@[simp] theorem State.setQueue_launches (s : State) (i : Nat) (c : Queue) : (s.setQueue i c).launches = s.launches := rfl
@[simp] theorem State.setQueue_groups (s : State) (i : Nat) (c : Queue) : (s.setQueue i c).groups = s.groups := rfl
@[simp] theorem State.setQueue_qcopies (s : State) (i : Nat) (c : Queue) : (s.setQueue i c).qcopies = s.qcopies := rfl
@[simp] theorem State.setQueue_nextId (s : State) (i : Nat) (c : Queue) : (s.setQueue i c).nextId = s.nextId := rfl
@[simp] theorem State.setQueue_mem (s : State) (i : Nat) (c : Queue) : (s.setQueue i c).mem = s.mem := rfl
@[simp] theorem State.setQueue_seals (s : State) (i : Nat) (c : Queue) : (s.setQueue i c).seals = s.seals := rfl
@[simp] theorem State.setQueue_sinter (s : State) (i : Nat) (c : Queue) : (s.setQueue i c).sinter = s.sinter := rfl
@[simp] theorem State.setQueue_ivals (s : State) (i : Nat) (c : Queue) : (s.setQueue i c).ivals = s.ivals := rfl
@[simp] theorem State.setQueue_races (s : State) (i : Nat) (c : Queue) : (s.setQueue i c).races = s.races := rfl
@[simp] theorem State.setQueue_xacts (s : State) (i : Nat) (c : Queue) : (s.setQueue i c).xacts = s.xacts := rfl
@[simp] theorem State.setQueue_tlbs (s : State) (i : Nat) (c : Queue) : (s.setQueue i c).tlbs = s.tlbs := rfl
@[simp] theorem State.setQueue_unackFaults (s : State) (i : Nat) (c : Queue) : (s.setQueue i c).unackFaults = s.unackFaults := rfl
@[simp] theorem State.setQueue_hostFrozen (s : State) (i : Nat) (c : Queue) : (s.setQueue i c).hostFrozen = s.hostFrozen := rfl
@[simp] theorem State.setQueue_shoots (s : State) (i : Nat) (c : Queue) : (s.setQueue i c).shoots = s.shoots := rfl
@[simp] theorem State.setQueue_cow (s : State) (i : Nat) (c : Queue) : (s.setQueue i c).cow = s.cow := rfl
@[simp] theorem State.setQueue_slotLoads (s : State) (i : Nat) (c : Queue) : (s.setQueue i c).slotLoads = s.slotLoads := rfl
@[simp] theorem State.setQueue_convs (s : State) (i : Nat) (c : Queue) : (s.setQueue i c).convs = s.convs := rfl
@[simp] theorem State.setQueue_locks (s : State) (i : Nat) (c : Queue) : (s.setQueue i c).locks = s.locks := rfl
@[simp] theorem State.setQueue_grpUpd (s : State) (i : Nat) (c : Queue) : (s.setQueue i c).grpUpd = s.grpUpd := rfl
@[simp] theorem State.setQueue_saveUse (s : State) (i : Nat) (c : Queue) : (s.setQueue i c).saveUse = s.saveUse := rfl
@[simp] theorem State.setQueue_saves (s : State) (i : Nat) (c : Queue) : (s.setQueue i c).saves = s.saves := rfl
@[simp] theorem State.setQueue_pool (s : State) (i : Nat) (c : Queue) : (s.setQueue i c).pool = s.pool := rfl
@[simp] theorem State.setQueue_wires (s : State) (i : Nat) (c : Queue) : (s.setQueue i c).wires = s.wires := rfl
@[simp] theorem State.setQueue_outbox (s : State) (i : Nat) (c : Queue) : (s.setQueue i c).outbox = s.outbox := rfl
@[simp] theorem State.setQueue_msix (s : State) (i : Nat) (c : Queue) : (s.setQueue i c).msix = s.msix := rfl
@[simp] theorem State.setQueue_answers (s : State) (i : Nat) (c : Queue) : (s.setQueue i c).answers = s.answers := rfl
@[simp] theorem State.setQueue_spdm (s : State) (i : Nat) (c : Queue) : (s.setQueue i c).spdm = s.spdm := rfl
@[simp] theorem State.setQueue_ats (s : State) (i : Nat) (c : Queue) : (s.setQueue i c).ats = s.ats := rfl
@[simp] theorem State.setQueue_atsInv (s : State) (i : Nat) (c : Queue) : (s.setQueue i c).atsInv = s.atsInv := rfl
@[simp] theorem State.setQueue_absent (s : State) (i : Nat) (c : Queue) : (s.setQueue i c).absent = s.absent := rfl
@[simp] theorem State.setQueue_free (s : State) (i : Nat) (c : Queue) : (s.setQueue i c).free = s.free := rfl
@[simp] theorem State.setQueue_cur (s : State) (i : Nat) (c : Queue) : (s.setQueue i c).cur = s.cur := rfl
@[simp] theorem State.setQueue_curQ (s : State) (i : Nat) (c : Queue) : (s.setQueue i c).curQ = s.curQ := rfl
@[simp] theorem State.setQueue_agenda (s : State) (i : Nat) (c : Queue) : (s.setQueue i c).agenda = s.agenda := rfl
@[simp] theorem State.setQueue_inputs (s : State) (i : Nat) (c : Queue) : (s.setQueue i c).inputs = s.inputs := rfl
@[simp] theorem State.setQueue_rocPages (s : State) (i : Nat) (c : Queue) : (s.setQueue i c).rocPages = s.rocPages := rfl
@[simp] theorem State.setQueue_served (s : State) (i : Nat) (c : Queue) : (s.setQueue i c).served = s.served := rfl
@[simp] theorem State.setQueue_bankPtr (s : State) (i : Nat) (c : Queue) : (s.setQueue i c).bankPtr = s.bankPtr := rfl
@[simp] theorem State.core_setQueue (s : State) (i : Nat) (c : Queue) (k : Nat) : (s.setQueue i c).core k = s.core k := rfl
@[simp] theorem State.die_setQueue (s : State) (i : Nat) (c : Queue) (k : Nat) : (s.setQueue i c).die k = s.die k := rfl
@[simp] theorem State.launch_setQueue (s : State) (i : Nat) (c : Queue) (k : Nat) : (s.setQueue i c).launch k = s.launch k := rfl
@[simp] theorem State.setLaunch_mod (s : State) (c : Launch) : (s.setLaunch c).mod = s.mod := rfl
@[simp] theorem State.setLaunch_gtc (s : State) (c : Launch) : (s.setLaunch c).gtc = s.gtc := rfl
@[simp] theorem State.setLaunch_gtcStep (s : State) (c : Launch) : (s.setLaunch c).gtcStep = s.gtcStep := rfl
@[simp] theorem State.setLaunch_gtcStepAt (s : State) (c : Launch) : (s.setLaunch c).gtcStepAt = s.gtcStepAt := rfl
@[simp] theorem State.setLaunch_dies (s : State) (c : Launch) : (s.setLaunch c).dies = s.dies := rfl
@[simp] theorem State.setLaunch_cores (s : State) (c : Launch) : (s.setLaunch c).cores = s.cores := rfl
@[simp] theorem State.setLaunch_queues (s : State) (c : Launch) : (s.setLaunch c).queues = s.queues := rfl
@[simp] theorem State.setLaunch_groups (s : State) (c : Launch) : (s.setLaunch c).groups = s.groups := rfl
@[simp] theorem State.setLaunch_qcopies (s : State) (c : Launch) : (s.setLaunch c).qcopies = s.qcopies := rfl
@[simp] theorem State.setLaunch_nextId (s : State) (c : Launch) : (s.setLaunch c).nextId = s.nextId := rfl
@[simp] theorem State.setLaunch_mem (s : State) (c : Launch) : (s.setLaunch c).mem = s.mem := rfl
@[simp] theorem State.setLaunch_seals (s : State) (c : Launch) : (s.setLaunch c).seals = s.seals := rfl
@[simp] theorem State.setLaunch_sinter (s : State) (c : Launch) : (s.setLaunch c).sinter = s.sinter := rfl
@[simp] theorem State.setLaunch_ivals (s : State) (c : Launch) : (s.setLaunch c).ivals = s.ivals := rfl
@[simp] theorem State.setLaunch_races (s : State) (c : Launch) : (s.setLaunch c).races = s.races := rfl
@[simp] theorem State.setLaunch_xacts (s : State) (c : Launch) : (s.setLaunch c).xacts = s.xacts := rfl
@[simp] theorem State.setLaunch_tlbs (s : State) (c : Launch) : (s.setLaunch c).tlbs = s.tlbs := rfl
@[simp] theorem State.setLaunch_unackFaults (s : State) (c : Launch) : (s.setLaunch c).unackFaults = s.unackFaults := rfl
@[simp] theorem State.setLaunch_hostFrozen (s : State) (c : Launch) : (s.setLaunch c).hostFrozen = s.hostFrozen := rfl
@[simp] theorem State.setLaunch_shoots (s : State) (c : Launch) : (s.setLaunch c).shoots = s.shoots := rfl
@[simp] theorem State.setLaunch_cow (s : State) (c : Launch) : (s.setLaunch c).cow = s.cow := rfl
@[simp] theorem State.setLaunch_slotLoads (s : State) (c : Launch) : (s.setLaunch c).slotLoads = s.slotLoads := rfl
@[simp] theorem State.setLaunch_convs (s : State) (c : Launch) : (s.setLaunch c).convs = s.convs := rfl
@[simp] theorem State.setLaunch_locks (s : State) (c : Launch) : (s.setLaunch c).locks = s.locks := rfl
@[simp] theorem State.setLaunch_grpUpd (s : State) (c : Launch) : (s.setLaunch c).grpUpd = s.grpUpd := rfl
@[simp] theorem State.setLaunch_saveUse (s : State) (c : Launch) : (s.setLaunch c).saveUse = s.saveUse := rfl
@[simp] theorem State.setLaunch_saves (s : State) (c : Launch) : (s.setLaunch c).saves = s.saves := rfl
@[simp] theorem State.setLaunch_pool (s : State) (c : Launch) : (s.setLaunch c).pool = s.pool := rfl
@[simp] theorem State.setLaunch_wires (s : State) (c : Launch) : (s.setLaunch c).wires = s.wires := rfl
@[simp] theorem State.setLaunch_outbox (s : State) (c : Launch) : (s.setLaunch c).outbox = s.outbox := rfl
@[simp] theorem State.setLaunch_msix (s : State) (c : Launch) : (s.setLaunch c).msix = s.msix := rfl
@[simp] theorem State.setLaunch_answers (s : State) (c : Launch) : (s.setLaunch c).answers = s.answers := rfl
@[simp] theorem State.setLaunch_spdm (s : State) (c : Launch) : (s.setLaunch c).spdm = s.spdm := rfl
@[simp] theorem State.setLaunch_ats (s : State) (c : Launch) : (s.setLaunch c).ats = s.ats := rfl
@[simp] theorem State.setLaunch_atsInv (s : State) (c : Launch) : (s.setLaunch c).atsInv = s.atsInv := rfl
@[simp] theorem State.setLaunch_absent (s : State) (c : Launch) : (s.setLaunch c).absent = s.absent := rfl
@[simp] theorem State.setLaunch_free (s : State) (c : Launch) : (s.setLaunch c).free = s.free := rfl
@[simp] theorem State.setLaunch_cur (s : State) (c : Launch) : (s.setLaunch c).cur = s.cur := rfl
@[simp] theorem State.setLaunch_curQ (s : State) (c : Launch) : (s.setLaunch c).curQ = s.curQ := rfl
@[simp] theorem State.setLaunch_agenda (s : State) (c : Launch) : (s.setLaunch c).agenda = s.agenda := rfl
@[simp] theorem State.setLaunch_inputs (s : State) (c : Launch) : (s.setLaunch c).inputs = s.inputs := rfl
@[simp] theorem State.setLaunch_rocPages (s : State) (c : Launch) : (s.setLaunch c).rocPages = s.rocPages := rfl
@[simp] theorem State.setLaunch_served (s : State) (c : Launch) : (s.setLaunch c).served = s.served := rfl
@[simp] theorem State.setLaunch_bankPtr (s : State) (c : Launch) : (s.setLaunch c).bankPtr = s.bankPtr := rfl
@[simp] theorem State.core_setLaunch (s : State) (c : Launch) (k : Nat) : (s.setLaunch c).core k = s.core k := rfl
@[simp] theorem State.die_setLaunch (s : State) (c : Launch) (k : Nat) : (s.setLaunch c).die k = s.die k := rfl
@[simp] theorem State.queue_setLaunch (s : State) (c : Launch) (k : Nat) : (s.setLaunch c).queue k = s.queue k := rfl
/-- A part reads back what was put into it; every other stays. -/
theorem State.core_setCore (s : State) (i k : Nat) (c : Core) : (s.setCore i c).core k = if k = i then c else s.core k := FMap.get_put _ _ _ _ _
@[simp] theorem State.core_setCore_same (s : State) (i : Nat) (c : Core) : (s.setCore i c).core i = c := by rw [State.core_setCore, if_pos rfl]
theorem State.core_setCore_ne (s : State) (i k : Nat) (c : Core) (h : k ≠ i) : (s.setCore i c).core k = s.core k := by rw [State.core_setCore, if_neg h]
/-- A part reads back what was put into it; every other stays. -/
theorem State.die_setDie (s : State) (i k : Nat) (c : Die) : (s.setDie i c).die k = if k = i then c else s.die k := FMap.get_put _ _ _ _ _
@[simp] theorem State.die_setDie_same (s : State) (i : Nat) (c : Die) : (s.setDie i c).die i = c := by rw [State.die_setDie, if_pos rfl]
theorem State.die_setDie_ne (s : State) (i k : Nat) (c : Die) (h : k ≠ i) : (s.setDie i c).die k = s.die k := by rw [State.die_setDie, if_neg h]
/-- A part reads back what was put into it; every other stays. -/
theorem State.queue_setQueue (s : State) (i k : Nat) (c : Queue) : (s.setQueue i c).queue k = if k = i then c else s.queue k := FMap.get_put _ _ _ _ _
@[simp] theorem State.queue_setQueue_same (s : State) (i : Nat) (c : Queue) : (s.setQueue i c).queue i = c := by rw [State.queue_setQueue, if_pos rfl]
theorem State.queue_setQueue_ne (s : State) (i k : Nat) (c : Queue) (h : k ≠ i) : (s.setQueue i c).queue k = s.queue k := by rw [State.queue_setQueue, if_neg h]

end Sys2Proof.Machine
end

