-- ==== Sys2Proof/Laws/Commands.lean ====
section
/-! SUPPORT. What the execution of a packet can do (`cmdStep`): one lemma per outcome. -/
namespace Sys2Proof.Machine

/-- The packet is valid and its meaning succeeds. -/
theorem cmdStep_acts {s t : State} {f : Pkt} {xu : Nat} {ok : Bool} {body : Nat → Queue → CM State}
    (hs : pktShape (s.queue s.curQ) f xu = true) (ho : ok = true) (hb : body s.curQ (s.queue s.curQ) = .ok t) (ha : t.absent = none) :
    cmdStep s f xu ok body = .next t := by
  unfold cmdStep
  simp [hs, ho, hb, finish, ha]

/-- An invalid packet freezes its queue with BAD_FIELD and has no other effect (R84, R86). -/
theorem cmdStep_bad {s : State} {f : Pkt} {xu : Nat} {ok : Bool} {body : Nat → Queue → CM State}
    (h : (pktShape (s.queue s.curQ) f xu && ok) = false) :
    cmdStep s f xu ok body = finish (queueFault s s.curQ CFault.bad.code CFault.bad.wr CFault.bad.va CFault.bad.e CFault.bad.lvl (s.queue s.curQ).where) := by
  unfold cmdStep
  simp [h]

/-- A fault of its meaning freezes its queue with that fault. -/
theorem cmdStep_fault {s : State} {f : Pkt} {xu : Nat} {ok : Bool} {body : Nat → Queue → CM State} {e : CFault}
    (hs : pktShape (s.queue s.curQ) f xu = true) (ho : ok = true) (hb : body s.curQ (s.queue s.curQ) = .error e) :
    cmdStep s f xu ok body = finish (queueFault s s.curQ e.code e.wr e.va e.e e.lvl (s.queue s.curQ).where) := by
  unfold cmdStep
  simp [hs, ho, hb]

/-- `finish` goes on unless the step touched memory the module does not have. -/
theorem finish_next {s : State} (h : s.absent = none) : finish s = .next s := by simp [finish, h]

end Sys2Proof.Machine
end

