-- ==== Sys2Proof/Laws/Decode.lean ====
section
/-! SUPPORT. Each form of Table 12.4 reads back from its bits: the opcode, and the fields; likewise a command header. -/
namespace Sys2Proof

theorem append_toNat {n m : Nat} (x : BitVec n) (y : BitVec m) : (x ++ y).toNat = x.toNat * 2 ^ m + y.toNat := by
  rw [BitVec.toNat_append, Nat.shiftLeft_eq, mul_comm, ← Nat.two_pow_add_eq_or_of_lt y.isLt, mul_comm]
theorem SR.bits_op (op : BitVec 8) (f : SR) : (SR.bits op f).extractLsb' 0 8 = op := by
  apply BitVec.eq_of_toNat_eq
  simp only [SR.bits, BitVec.extractLsb'_toNat, append_toNat, Nat.shiftRight_eq_div_pow]
  omega
theorem SR.ofBits_bits (op : BitVec 8) (f : SR) : SR.ofBits (SR.bits op f) = f := by
  simp only [SR.ofBits, SR.bits]
  obtain ⟨_⟩ := f
  simp only [SR.mk.injEq]
  refine ⟨?_, ?_, ?_, ?_, ?_, ?_, ?_⟩ <;>
  · apply BitVec.eq_of_toNat_eq
    simp only [BitVec.extractLsb'_toNat, append_toNat, Nat.shiftRight_eq_div_pow]
    omega
theorem SI.bits_op (op : BitVec 8) (f : SI) : (SI.bits op f).extractLsb' 0 8 = op := by
  apply BitVec.eq_of_toNat_eq
  simp only [SI.bits, BitVec.extractLsb'_toNat, append_toNat, Nat.shiftRight_eq_div_pow]
  omega
theorem SI.ofBits_bits (op : BitVec 8) (f : SI) : SI.ofBits (SI.bits op f) = f := by
  simp only [SI.ofBits, SI.bits]
  obtain ⟨_⟩ := f
  simp only [SI.mk.injEq]
  refine ⟨?_, ?_, ?_, ?_, ?_⟩ <;>
  · apply BitVec.eq_of_toNat_eq
    simp only [BitVec.extractLsb'_toNat, append_toNat, Nat.shiftRight_eq_div_pow]
    omega
theorem SL.bits_op (op : BitVec 8) (f : SL) : (SL.bits op f).extractLsb' 0 8 = op := by
  apply BitVec.eq_of_toNat_eq
  simp only [SL.bits, BitVec.extractLsb'_toNat, append_toNat, Nat.shiftRight_eq_div_pow]
  omega
theorem SL.ofBits_bits (op : BitVec 8) (f : SL) : SL.ofBits (SL.bits op f) = f := by
  simp only [SL.ofBits, SL.bits]
  obtain ⟨_⟩ := f
  simp only [SL.mk.injEq]
  refine ⟨?_, ?_, ?_, ?_⟩ <;>
  · apply BitVec.eq_of_toNat_eq
    simp only [BitVec.extractLsb'_toNat, append_toNat, Nat.shiftRight_eq_div_pow]
    omega
theorem SC.bits_op (op : BitVec 8) (f : SC) : (SC.bits op f).extractLsb' 0 8 = op := by
  apply BitVec.eq_of_toNat_eq
  simp only [SC.bits, BitVec.extractLsb'_toNat, append_toNat, Nat.shiftRight_eq_div_pow]
  omega
theorem SC.ofBits_bits (op : BitVec 8) (f : SC) : SC.ofBits (SC.bits op f) = f := by
  simp only [SC.ofBits, SC.bits]
  obtain ⟨_⟩ := f
  simp only [SC.mk.injEq]
  refine ⟨?_, ?_, ?_, ?_⟩ <;>
  · apply BitVec.eq_of_toNat_eq
    simp only [BitVec.extractLsb'_toNat, append_toNat, Nat.shiftRight_eq_div_pow]
    omega
theorem VR.bits_op (op : BitVec 7) (f : VR) : (VR.bits op f).extractLsb' 0 7 = op := by
  apply BitVec.eq_of_toNat_eq
  simp only [VR.bits, BitVec.extractLsb'_toNat, append_toNat, Nat.shiftRight_eq_div_pow]
  omega
theorem VR.ofBits_bits (op : BitVec 7) (f : VR) : VR.ofBits (VR.bits op f) = f := by
  simp only [VR.ofBits, VR.bits]
  obtain ⟨_⟩ := f
  simp only [VR.mk.injEq]
  refine ⟨?_, ?_, ?_, ?_, ?_, ?_, ?_, ?_, ?_⟩ <;>
  · apply BitVec.eq_of_toNat_eq
    simp only [BitVec.extractLsb'_toNat, append_toNat, Nat.shiftRight_eq_div_pow]
    omega
theorem VT.bits_op (op : BitVec 7) (f : VT) : (VT.bits op f).extractLsb' 0 7 = op := by
  apply BitVec.eq_of_toNat_eq
  simp only [VT.bits, BitVec.extractLsb'_toNat, append_toNat, Nat.shiftRight_eq_div_pow]
  omega
theorem VT.ofBits_bits (op : BitVec 7) (f : VT) : VT.ofBits (VT.bits op f) = f := by
  simp only [VT.ofBits, VT.bits]
  obtain ⟨_⟩ := f
  simp only [VT.mk.injEq]
  refine ⟨?_, ?_, ?_, ?_, ?_, ?_, ?_, ?_, ?_⟩ <;>
  · apply BitVec.eq_of_toNat_eq
    simp only [BitVec.extractLsb'_toNat, append_toNat, Nat.shiftRight_eq_div_pow]
    omega
theorem VA.bits_op (op : BitVec 7) (f : VA) : (VA.bits op f).extractLsb' 0 7 = op := by
  apply BitVec.eq_of_toNat_eq
  simp only [VA.bits, BitVec.extractLsb'_toNat, append_toNat, Nat.shiftRight_eq_div_pow]
  omega
theorem VA.ofBits_bits (op : BitVec 7) (f : VA) : VA.ofBits (VA.bits op f) = f := by
  simp only [VA.ofBits, VA.bits]
  obtain ⟨_⟩ := f
  simp only [VA.mk.injEq]
  refine ⟨?_, ?_, ?_, ?_, ?_, ?_, ?_, ?_, ?_⟩ <;>
  · apply BitVec.eq_of_toNat_eq
    simp only [BitVec.extractLsb'_toNat, append_toNat, Nat.shiftRight_eq_div_pow]
    omega
theorem FA.bits_op (op : BitVec 5) (f : FA) : (FA.bits op f).extractLsb' 0 5 = op := by
  apply BitVec.eq_of_toNat_eq
  simp only [FA.bits, BitVec.extractLsb'_toNat, append_toNat, Nat.shiftRight_eq_div_pow]
  omega
theorem FA.ofBits_bits (op : BitVec 5) (f : FA) : FA.ofBits (FA.bits op f) = f := by
  simp only [FA.ofBits, FA.bits]
  obtain ⟨_⟩ := f
  simp only [FA.mk.injEq]
  refine ⟨?_, ?_, ?_, ?_, ?_, ?_, ?_⟩ <;>
  · apply BitVec.eq_of_toNat_eq
    simp only [BitVec.extractLsb'_toNat, append_toNat, Nat.shiftRight_eq_div_pow]
    omega
theorem FD.bits_op (op : BitVec 5) (f : FD) : (FD.bits op f).extractLsb' 0 5 = op := by
  apply BitVec.eq_of_toNat_eq
  simp only [FD.bits, BitVec.extractLsb'_toNat, append_toNat, Nat.shiftRight_eq_div_pow]
  omega
theorem FD.ofBits_bits (op : BitVec 5) (f : FD) : FD.ofBits (FD.bits op f) = f := by
  simp only [FD.ofBits, FD.bits]
  obtain ⟨_⟩ := f
  simp only [FD.mk.injEq]
  refine ⟨?_, ?_, ?_, ?_, ?_, ?_⟩ <;>
  · apply BitVec.eq_of_toNat_eq
    simp only [BitVec.extractLsb'_toNat, append_toNat, Nat.shiftRight_eq_div_pow]
    omega
theorem MA.bits_op (op : BitVec 7) (f : MA) : (MA.bits op f).extractLsb' 0 7 = op := by
  apply BitVec.eq_of_toNat_eq
  simp only [MA.bits, BitVec.extractLsb'_toNat, append_toNat, Nat.shiftRight_eq_div_pow]
  omega
theorem MA.ofBits_bits (op : BitVec 7) (f : MA) : MA.ofBits (MA.bits op f) = f := by
  simp only [MA.ofBits, MA.bits]
  obtain ⟨_⟩ := f
  simp only [MA.mk.injEq]
  refine ⟨?_, ?_, ?_, ?_, ?_⟩ <;>
  · apply BitVec.eq_of_toNat_eq
    simp only [BitVec.extractLsb'_toNat, append_toNat, Nat.shiftRight_eq_div_pow]
    omega
theorem MX.bits_op (op : BitVec 7) (f : MX) : (MX.bits op f).extractLsb' 0 7 = op := by
  apply BitVec.eq_of_toNat_eq
  simp only [MX.bits, BitVec.extractLsb'_toNat, append_toNat, Nat.shiftRight_eq_div_pow]
  omega
theorem MX.ofBits_bits (op : BitVec 7) (f : MX) : MX.ofBits (MX.bits op f) = f := by
  simp only [MX.ofBits, MX.bits]
  obtain ⟨_⟩ := f
  simp only [MX.mk.injEq]
  refine ⟨?_, ?_, ?_, ?_, ?_, ?_⟩ <;>
  · apply BitVec.eq_of_toNat_eq
    simp only [BitVec.extractLsb'_toNat, append_toNat, Nat.shiftRight_eq_div_pow]
    omega
theorem XP.bits_op (op : BitVec 4) (f : XP) : (XP.bits op f).extractLsb' 0 4 = op := by
  apply BitVec.eq_of_toNat_eq
  simp only [XP.bits, BitVec.extractLsb'_toNat, append_toNat, Nat.shiftRight_eq_div_pow]
  omega
theorem XP.ofBits_bits (op : BitVec 4) (f : XP) : XP.ofBits (XP.bits op f) = f := by
  simp only [XP.ofBits, XP.bits]
  obtain ⟨_⟩ := f
  simp only [XP.mk.injEq]
  refine ⟨?_, ?_, ?_, ?_, ?_⟩ <;>
  · apply BitVec.eq_of_toNat_eq
    simp only [BitVec.extractLsb'_toNat, append_toNat, Nat.shiftRight_eq_div_pow]
    omega
theorem XT.bits_op (op : BitVec 4) (f : XT) : (XT.bits op f).extractLsb' 0 4 = op := by
  apply BitVec.eq_of_toNat_eq
  simp only [XT.bits, BitVec.extractLsb'_toNat, append_toNat, Nat.shiftRight_eq_div_pow]
  omega
theorem XT.ofBits_bits (op : BitVec 4) (f : XT) : XT.ofBits (XT.bits op f) = f := by
  simp only [XT.ofBits, XT.bits]
  obtain ⟨_⟩ := f
  simp only [XT.mk.injEq]
  refine ⟨?_, ?_, ?_⟩ <;>
  · apply BitVec.eq_of_toNat_eq
    simp only [BitVec.extractLsb'_toNat, append_toNat, Nat.shiftRight_eq_div_pow]
    omega
theorem XS.bits_op (op : BitVec 4) (f : XS) : (XS.bits op f).extractLsb' 0 4 = op := by
  apply BitVec.eq_of_toNat_eq
  simp only [XS.bits, BitVec.extractLsb'_toNat, append_toNat, Nat.shiftRight_eq_div_pow]
  omega
theorem XS.ofBits_bits (op : BitVec 4) (f : XS) : XS.ofBits (XS.bits op f) = f := by
  simp only [XS.ofBits, XS.bits]
  obtain ⟨_⟩ := f
  simp only [XS.mk.injEq]
  refine ⟨?_, ?_, ?_⟩ <;>
  · apply BitVec.eq_of_toNat_eq
    simp only [BitVec.extractLsb'_toNat, append_toNat, Nat.shiftRight_eq_div_pow]
    omega
theorem Pkt.header_op (op : BitVec 6) (f : Pkt) : (Pkt.header op f).extractLsb' 0 6 = op := by
  apply BitVec.eq_of_toNat_eq
  simp only [Pkt.header, BitVec.extractLsb'_toNat, append_toNat, Nat.shiftRight_eq_div_pow]
  omega
theorem Pkt.header_fn (op : BitVec 6) (f : Pkt) : (Pkt.header op f).extractLsb' 24 8 = f.fn := by
  apply BitVec.eq_of_toNat_eq
  simp only [Pkt.header, BitVec.extractLsb'_toNat, append_toNat, Nat.shiftRight_eq_div_pow]
  omega
theorem Pkt.ofUnits_header (op : BitVec 6) (f : Pkt) : Pkt.ofUnits (Pkt.header op f) f.ext = f := by
  simp only [Pkt.ofUnits, Pkt.header]
  obtain ⟨_⟩ := f
  simp only [Pkt.mk.injEq]
  refine ⟨?_, ?_, ?_, ?_, ?_, ?_, ?_, ?_, ?_, ?_⟩ <;>
  first
  | exact trivial
  | apply BitVec.eq_of_toNat_eq
    simp only [BitVec.extractLsb'_toNat, append_toNat, Nat.shiftRight_eq_div_pow]
    omega

end Sys2Proof
end

