-- ==== Sys2Proof/Laws/Memory.lean ====
section
/-! SUPPORT. Byte memory: every operation keeps the canonical form, and what each leaves to be read. -/
namespace Sys2Proof.Machine

/-- Above a lower bound the canonical form holds above any bound below it. -/
theorem Memory.wfFrom_mono {m : Memory} {lo lo' : Nat} (h : Memory.wfFrom lo m = true) (hl : lo' ≤ lo) : Memory.wfFrom lo' m = true := by
  cases m with
  | nil => rfl
  | cons x t =>
    simp only [Memory.wfFrom, Bool.and_eq_true, decide_eq_true_eq] at *
    exact ⟨⟨by omega, h.1.2⟩, h.2⟩

theorem Memory.wfFrom_put {m : Memory} {lo a : Nat} {b : Byte} (h : Memory.wfFrom lo m = true) (hl : lo ≤ a) (hb : b ≠ 0) :
    Memory.wfFrom lo (FMap.put m a b) = true := by
  induction m generalizing lo with
  | nil =>
    simp only [FMap.put, Memory.wfFrom, Bool.and_eq_true, decide_eq_true_eq]
    exact ⟨⟨hl, hb⟩, trivial⟩
  | cons x t ih =>
    obtain ⟨k, v⟩ := x
    simp only [Memory.wfFrom, Bool.and_eq_true, decide_eq_true_eq] at h
    unfold FMap.put
    split
    · simp only [Memory.wfFrom, Bool.and_eq_true, decide_eq_true_eq]
      exact ⟨⟨hl, hb⟩, ⟨by omega, h.1.2⟩, h.2⟩
    · split
      · subst_vars
        simp only [Memory.wfFrom, Bool.and_eq_true, decide_eq_true_eq]
        exact ⟨⟨hl, hb⟩, h.2⟩
      · simp only [Memory.wfFrom, Bool.and_eq_true, decide_eq_true_eq]
        exact ⟨h.1, ih h.2 (by omega)⟩

theorem Memory.wfFrom_erase {m : Memory} {lo a : Nat} (h : Memory.wfFrom lo m = true) : Memory.wfFrom lo (FMap.erase m a) = true := by
  induction m generalizing lo with
  | nil => rfl
  | cons x t ih =>
    obtain ⟨k, v⟩ := x
    simp only [Memory.wfFrom, Bool.and_eq_true, decide_eq_true_eq] at h
    unfold FMap.erase
    split
    · exact Memory.wfFrom_mono (ih h.2) (by omega)
    · simp only [Memory.wfFrom, Bool.and_eq_true, decide_eq_true_eq]
      exact ⟨h.1, ih h.2⟩

/-- Dropping cells keeps the canonical form. -/
theorem Memory.wfFrom_filter {m : Memory} {lo : Nat} (p : Host.Cell → Bool) (h : Memory.wfFrom lo m = true) :
    Memory.wfFrom lo (m.filter p) = true := by
  induction m generalizing lo with
  | nil => rfl
  | cons x t ih =>
    obtain ⟨k, v⟩ := x
    simp only [Memory.wfFrom, Bool.and_eq_true, decide_eq_true_eq] at h
    rw [List.filter_cons]
    split
    · simp only [Memory.wfFrom, Bool.and_eq_true, decide_eq_true_eq]
      exact ⟨h.1, ih h.2⟩
    · exact Memory.wfFrom_mono (ih h.2) (by omega)

theorem Memory.wf_nil : Memory.wf [] = true := rfl

theorem Memory.wf_filter {m : Memory} (p : Host.Cell → Bool) (h : Memory.wf m = true) : Memory.wf (m.filter p) = true :=
  Memory.wfFrom_filter p h

theorem Memory.wf_write {m : Memory} (a : Nat) (b : Byte) (h : Memory.wf m = true) : Memory.wf (Memory.write m a b) = true := by
  unfold Memory.write FMap.set
  split
  · exact Memory.wfFrom_erase h
  · rename_i hb; exact Memory.wfFrom_put h (Nat.zero_le _) hb

theorem Memory.wf_writeN {m : Memory} (a n v : Nat) (h : Memory.wf m = true) : Memory.wf (Memory.writeN m a n v) = true := by
  induction n generalizing m a v with
  | zero => exact h
  | succ n ih => exact ih _ _ (Memory.wf_write _ _ h)

theorem Memory.wf_writeEn {m : Memory} (a n en v : Nat) (h : Memory.wf m = true) : Memory.wf (Memory.writeEn m a n en v) = true := by
  induction n generalizing m a en v with
  | zero => exact h
  | succ n ih =>
    refine ih _ _ _ ?_
    split
    · exact Memory.wf_write _ _ h
    · exact h

theorem Memory.read_write (m : Memory) (a x : Nat) (b : Byte) :
    Memory.read (Memory.write m a b) x = if x = a then b else Memory.read m x := FMap.get_set 0 m a x b

/-- Bytes outside a write of n bytes keep their value. -/
theorem Memory.read_writeN_out (m : Memory) (a n v x : Nat) (h : x < a ∨ a + n ≤ x) :
    Memory.read (Memory.writeN m a n v) x = Memory.read m x := by
  induction n generalizing m a v with
  | zero => rfl
  | succ n ih =>
    rw [Memory.writeN, ih _ _ _ (by omega), Memory.read_write, if_neg (by omega)]

/-- Bytes outside a write of n enabled bytes keep their value. -/
theorem Memory.read_writeEn_out (m : Memory) (a n en v x : Nat) (h : x < a ∨ a + n ≤ x) :
    Memory.read (Memory.writeEn m a n en v) x = Memory.read m x := by
  induction n generalizing m a en v with
  | zero => rfl
  | succ n ih =>
    rw [Memory.writeEn, ih _ _ _ _ (by omega)]
    split
    · rw [Memory.read_write, if_neg (by omega)]
    · rfl

end Sys2Proof.Machine
end

