-- ==== Sys2Proof/Laws/MemForm.lean ====
section
/-! SUPPORT. The operations that write memory keep the canonical form of every memory of the state; which fields they change. -/
namespace Sys2Proof.Machine

/-- The canonical form, part by part. -/
theorem State.memWf_iff (s : State) : s.memWf = true ↔
    Memory.wf s.mem = true ∧ (∀ x ∈ s.cores, Memory.wf x.2.spad = true) ∧ (∀ x ∈ s.saves, Memory.wf x.2.2.spad = true) ∧
      ∀ x ∈ s.pool, Memory.wf x.2.2 = true := by
  simp only [State.memWf, Bool.and_eq_true, List.all_eq_true, and_assoc]

/-- Every core's scratchpad has it, listed or not. -/
theorem State.memWf_core {s : State} (h : s.memWf = true) (i : Nat) : Memory.wf (s.core i).spad = true := by
  rcases FMap.get_mem Core.init s.cores i with e | e
  · show Memory.wf (FMap.get Core.init s.cores i).spad = true
    rw [e]; rfl
  · exact ((State.memWf_iff s).mp h).2.1 _ e

/-- Putting a core whose scratchpad has it. -/
theorem State.memWf_setCore {s : State} (h : s.memWf = true) (i : Nat) (c : Core) (hc : Memory.wf c.spad = true) : (s.setCore i c).memWf = true := by
  rw [State.memWf_iff] at *
  refine ⟨h.1, ?_, h.2.2⟩
  intro x hx
  rcases FMap.mem_put hx with e | e
  · subst e; exact hc
  · exact h.2.1 x e

/-- Only `mem`, `cores`, `saves` and `pool` matter to it. -/
theorem State.memWf_congr {s t : State} (h : s.memWf = true) (hm : t.mem = s.mem) (hc : t.cores = s.cores) (hs : t.saves = s.saves)
    (hp : t.pool = s.pool) : t.memWf = true := by
  simp only [State.memWf, hm, hc, hs, hp]; exact h

/-- Bytes put together have the form, whatever they are; so have a save slot, its parts put in place, and a restored scratchpad. -/
theorem Memory.wf_holding (l : List (Nat × Byte)) : Memory.wf (Memory.holding l) = true := by
  induction l with
  | nil => rfl
  | cons x t ih => exact Memory.wf_write _ _ ih
theorem putPart_wf (m : Memory) (a n : Nat) (l : Memory) : Memory.wf (putPart m a n l) = true := Memory.wf_holding _
theorem slotBytes_wf (mid gtc : Nat) (c : Core) : Memory.wf (slotBytes mid gtc c) = true := Memory.wf_holding _
theorem slotBack_spad_wf (m : Memory) (c : Core) : Memory.wf (slotBack m c).spad = true := Memory.wf_holding _
theorem State.memWf_setPool {s : State} (h : s.memWf = true) (l core : Nat) {m : Memory} (hm : Memory.wf m = true) : (setPool s l core m).memWf = true := by
  rw [State.memWf_iff] at *
  refine ⟨h.1, h.2.1, h.2.2.1, ?_⟩
  intro x hx
  rcases List.mem_append.mp hx with e | e
  · exact h.2.2.2 x (List.mem_of_mem_filter e)
  · rw [List.mem_singleton.mp e]; exact hm

theorem State.memWf_setDie {s : State} (h : s.memWf = true) (d : Nat) (x : Die) : (s.setDie d x).memWf = true := h
theorem State.memWf_setQueue {s : State} (h : s.memWf = true) (q : Nat) (x : Queue) : (s.setQueue q x).memWf = true := h
theorem State.memWf_setLaunch {s : State} (h : s.memWf = true) (x : Launch) : (s.setLaunch x).memWf = true := h

theorem State.memWf_mem {s : State} (h : s.memWf = true) (m : Memory) (hm : Memory.wf m = true) : State.memWf { s with mem := m } = true := by
  rw [State.memWf_iff] at *
  exact ⟨hm, h.2⟩

theorem undoSpad_wf {m : Memory} (h : Memory.wf m = true) (l : FMap (BitVec 512)) : Memory.wf (undoSpad m l) = true := by
  induction l generalizing m with
  | nil => exact h
  | cons x t ih => exact ih (Memory.wf_writeN _ _ _ h)

/-- Taking a core exception keeps the form of the scratchpad. -/
theorem takeTrap_spad_wf (cu : Cursor) (t : Trap) {c : Core} (h : Memory.wf c.spad = true) : Memory.wf (takeTrap cu t c).spad = true := undoSpad_wf h _

/-- A lane operation keeps the form when its body keeps the form of the core's scratchpad. -/
theorem laneStep_memWf {s t : State} {pr : BitVec 6} {body : Cursor → Core → LM Core} (h : s.memWf = true)
    (hb : ∀ c', body s.cur (s.core s.cur.core) = .ok c' → Memory.wf c'.spad = true) (ht : laneStep s pr body = .next t) : t.memWf = true := by
  have hc := State.memWf_core h s.cur.core
  unfold laneStep at ht
  dsimp only at ht
  split at ht
  · cases ht; exact State.memWf_setCore h _ _ (takeTrap_spad_wf _ _ hc)
  · cases ht; exact h
  · split at ht
    · rename_i c' e; cases ht; exact State.memWf_setCore h _ _ (hb _ e)
    · cases ht; exact State.memWf_setCore h _ _ (takeTrap_spad_wf _ _ hc)
    · cases ht; exact State.memWf_setCore h _ _ hc

theorem checkAbsent_fields (s : State) (loc die pa n : Nat) :
    ∃ a, checkAbsent s loc die pa n = { s with absent := a } := by
  unfold checkAbsent
  split
  · exact ⟨_, rfl⟩
  · exact ⟨s.absent, rfl⟩

theorem checkAbsent_memWf {s : State} (h : s.memWf = true) (loc die pa n : Nat) : (checkAbsent s loc die pa n).memWf = true := by
  obtain ⟨a, e⟩ := checkAbsent_fields s loc die pa n
  rw [e]; exact h

/-- Changing the seal of a line keeps the form. -/
theorem reseal_memWf {s : State} (h : s.memWf = true) (line : Nat) (sl : Seal) : (reseal s line sl).memWf = true := by
  unfold reseal
  split
  · split
    · exact h
    · exact State.memWf_congr (State.memWf_mem h _ (Memory.wf_writeN _ _ _ ((State.memWf_iff s).mp h).1)) rfl rfl rfl rfl
  · exact h

/-- A store at a home changes `mem` and the seals alone, and keeps the form. -/
theorem physWrite_memWf {s : State} (h : s.memWf = true) (loc die pa n v : Nat) (sl : Seal) : (physWrite s loc die pa n v sl).memWf = true := by
  have hm := ((State.memWf_iff s).mp h).1
  unfold physWrite
  dsimp only
  split
  · have key : ∀ x : State, x.memWf = true → ∀ f, State.memWf { x with mem := Memory.writeN x.mem (maddr loc die pa) n v, seals := f } = true := by
      intro x hx f
      rw [State.memWf_iff] at *
      exact ⟨Memory.wf_writeN _ _ _ hx.1, hx.2⟩
    exact key _ (reseal_memWf h _ _) _
  · exact State.memWf_mem h _ (Memory.wf_writeN _ _ _ hm)

theorem writeBack_memWf {s : State} (h : s.memWf = true) (d dom : Nat) (x : L2Line) : (writeBack s d dom x).memWf = true := by
  unfold writeBack
  split
  · exact h
  · exact State.memWf_congr h rfl rfl rfl rfl

theorem touchL2_memWf {s : State} (h : s.memWf = true) (d dom loc pa : Nat) (wr nocomp : Bool) (page : Option (Nat × Nat)) :
    (touchL2 s d dom loc pa wr nocomp page).memWf = true := by
  unfold touchL2
  split
  · exact h
  · dsimp only
    split
    · exact State.memWf_congr h rfl rfl rfl rfl
    · split
      · exact writeBack_memWf (State.memWf_setDie h _ _) _ _ _
      · exact State.memWf_congr h rfl rfl rfl rfl

/-- Good data at locations, and the pages that stay read-only, touch no memory. -/
theorem mendLocs_memWf {s : State} (h : s.memWf = true) (d loc pa n : Nat) : (mendLocs s d loc pa n).memWf = true := by
  unfold mendLocs
  dsimp only
  split
  · exact h
  · exact State.memWf_setDie h _ _
theorem rocNote_memWf {s : State} (h : s.memWf = true) (die a n v : Nat) : (rocNote s die a n v).memWf = true := by
  unfold rocNote
  dsimp only
  split
  · exact h
  · split
    · exact h
    · exact State.memWf_congr h rfl rfl rfl rfl

theorem setHbm_memWf {s : State} (h : s.memWf = true) (die a n v : Nat) : (setHbm s die a n v).memWf = true := by
  unfold setHbm
  split
  · rename_i d _
    have hm : (mendLocs (if n ≤ 8 then rocNote s die a n v else s) d 0 a n).memWf = true := by
      split
      · exact mendLocs_memWf (rocNote_memWf h _ _ _ _) _ _ _ _
      · exact mendLocs_memWf h _ _ _ _
    exact touchL2_memWf (State.memWf_mem (checkAbsent_memWf hm 0 die a n) _ (Memory.wf_writeN _ _ _ ((State.memWf_iff _).mp hm).1)) _ _ _ _ _ _ _
  · exact h

theorem homeWrite_memWf {s : State} (h : s.memWf = true) (ctx va n v : Nat) (ph : Phys) : (homeWrite s ctx va n v ph).memWf = true := by
  unfold homeWrite
  split
  · exact h
  · split
    · exact State.memWf_setCore h _ _ (Memory.wf_writeN _ _ _ (State.memWf_core h _))
    · have ha := checkAbsent_memWf h ph.loc ph.die ph.pa n
      have hn : ∀ d : Nat, (mendLocs (if ph.loc = 0 then rocNote (checkAbsent s ph.loc ph.die ph.pa n) ph.die ph.pa n v
          else checkAbsent s ph.loc ph.die ph.pa n) d ph.loc ph.pa n).memWf = true := fun d => by
        split
        · exact mendLocs_memWf (rocNote_memWf ha _ _ _ _) _ _ _ _
        · exact mendLocs_memWf ha _ _ _ _
      dsimp only
      split
      · refine touchL2_memWf (physWrite_memWf ?_ _ _ _ _ _ _) _ _ _ _ _ _ _
        split
        · exact hn _
        · exact ha
      · refine physWrite_memWf ?_ _ _ _ _ _ _
        split
        · exact hn _
        · exact ha

/-- A waiting or made release changes its die's `rels` and nothing else (R236). -/
theorem relDone_eq (s : State) (d key : Nat) : relDone s d key = s.setDie d { s.die d with rels := FMap.erase (s.die d).rels key } := rfl
theorem relMark_eq (s : State) (d key : Nat) :
    relMark s d key = s ∨ relMark s d key = s.setDie d { s.die d with rels := FMap.put (s.die d).rels key (s.die d).seq } := by
  unfold relMark; dsimp only; split
  · exact .inl rfl
  · exact .inr rfl
theorem relDone_memWf {s : State} (h : s.memWf = true) (d key : Nat) : (relDone s d key).memWf = true := State.memWf_setDie h _ _
theorem relMark_memWf {s : State} (h : s.memWf = true) (d key : Nat) : (relMark s d key).memWf = true := by
  rcases relMark_eq s d key with e | e <;> rw [e]
  · exact h
  · exact State.memWf_setDie h _ _

/-- Reset lists no byte. -/
theorem reset_memWf : State.reset.memWf = true := rfl

end Sys2Proof.Machine
end

