-- ==== Sys2Proof/Laws/Operands.lean ====
section
/-! SUPPORT. What queueing results does to a core: pending results are added and nothing else changes. -/
namespace Sys2Proof.Machine

/-- `c'` is `c` with pending results added. -/
def Queued (c c' : Core) : Prop := ∃ l, c' = { c with arch := { c.arch with pend := c.arch.pend ++ l } }

theorem Queued.refl (c : Core) : Queued c c := ⟨[], by simp⟩
theorem Queued.trans {a b c : Core} (h : Queued a b) (k : Queued b c) : Queued a c := by
  obtain ⟨x, rfl⟩ := h
  obtain ⟨y, rfl⟩ := k
  exact ⟨x ++ y, by simp⟩

theorem emit_queued (cu : Cursor) (lat : Nat) (e : Eff) (c : Core) : Queued c (emit cu lat e c) := ⟨_, rfl⟩
theorem ifEmit_queued (p : Prop) [Decidable p] (cu : Cursor) (lat : Nat) (e : Eff) (c : Core) : Queued c (if p then emit cu lat e c else c) := by
  split
  · exact emit_queued _ _ _ _
  · exact Queued.refl c
theorem emitLatch_queued (cu : Cursor) (lat : Nat) (v : LWord) (c : Core) : Queued c (emitLatch cu lat v c) := by
  unfold emitLatch
  split
  · exact emit_queued _ _ _ _
  · exact Queued.refl c
theorem emitFlags_queued (cu : Cursor) (lat : Nat) (nf : BitVec 1) (fl : List (Nat × FlagBits)) (c : Core) : Queued c (emitFlags cu lat nf fl c) := by
  unfold emitFlags
  dsimp only
  split
  · exact Queued.refl c
  · exact emit_queued _ _ _ _
theorem writeG_queued (cu : Cursor) (g : Nat) (ws : BitVec 1) (lat : Nat) (b : Bool) (c : Core) : Queued c (writeG cu g ws lat b c) := by
  unfold writeG
  exact (ifEmit_queued _ _ _ _ _).trans (emitLatch_queued _ _ _ _)
theorem writeP_queued (cu : Cursor) (i : Nat) (ws : BitVec 1) (lat : Nat) (v : PWord) (c : Core) : Queued c (writeP cu i ws lat v c) := by
  unfold writeP
  exact (ifEmit_queued _ _ _ _ _).trans (emitLatch_queued _ _ _ _)

/-- A scalar result to a register: the register's result unless WS, and the latch's. -/
theorem writeS_register {cu : Cursor} {dst : BitVec 7} {ws : BitVec 1} {lat : Nat} {v : Word} {c : Core} (h : dst.toNat ≤ 63) :
    writeS cu dst ws lat v c = .ok (emitLatch cu lat (v.setWidth 512) (if ws = 0 then emit cu lat (.s (mapReg c.arch.rot dst.toNat) v) c else c)) := by
  unfold writeS
  rw [if_pos h]
/-- A vector result to a register. -/
theorem writeV_register {cu : Cursor} {dst : BitVec 7} {ws : BitVec 1} {lat w : Nat} {v m : VWord} {c : Core} (h : dst.toNat ≤ 63) :
    writeV cu dst ws lat w v m c =
      .ok (emitLatch cu lat ((v &&& m).setWidth 512) (if ws = 0 then emit cu lat (.v (mapReg c.arch.rot dst.toNat) v m) c else c)) := by
  unfold writeV
  rw [if_pos h]
/-- A result to a register only queues. -/
theorem writeS_queued {cu : Cursor} {dst : BitVec 7} {ws : BitVec 1} {lat : Nat} {v : Word} {c c' : Core} (h : dst.toNat ≤ 63)
    (hw : writeS cu dst ws lat v c = .ok c') : Queued c c' := by
  rw [writeS_register h] at hw
  cases hw
  exact (ifEmit_queued _ _ _ _ _).trans (emitLatch_queued _ _ _ _)

/-- A register as a source. -/
theorem resolveS_register {cu : Cursor} {code : BitVec 7} {c : Core} (h : code.toNat ≤ 63) : resolveS cu code c = .ok (readS c code.toNat, c) := if_pos h
theorem resolveV_register {cu : Cursor} {code : BitVec 7} {c : Core} (h : code.toNat ≤ 63) : resolveV cu code c = .ok (readV c code.toNat, c) := if_pos h

end Sys2Proof.Machine
end

