-- ==== Sys2Proof/Tests/Slice0.lean ====
section
/-! SUPPORT. Tests: words written out from the encoding tables, ill-formed terms, results taken from the spec's tables and by hand, and a witness for
the hypotheses of each statement. -/
set_option Elab.async false
namespace Sys2Proof.Tests
open Sys2Proof.Machine Sys2Proof.Claims

/-! ### Decoding: words laid out by hand from Tables 12.4, 12.5, 4.1 and 4.3 -/

/-- PR 33, DST 7, WS 1, SA 9, SB 10, NF 1, FN 5 under an opcode. -/
def srWord (op : Nat) : BitVec 40 := BitVec.ofNat 40 (0xb14261e100 + op)
def srF : SR := ⟨33, 7, 1, 9, 10, 1, 5⟩
/-- PR 33, DST 7, WS 1, SA 9, IMM −3. -/
def siWord (op : Nat) : BitVec 40 := BitVec.ofNat 40 (0xffa261e100 + op)
def siF : SI := ⟨33, 7, 1, 9, 0x7FD⟩
/-- PR 33, TGT 0x8421, SA 9, FN 5. -/
def scWord (op : Nat) : BitVec 40 := BitVec.ofNat 40 (0xa261086100 + op)
def scF : SC := ⟨33, 0x8421, 9, 5⟩
/-- PR 33, DST 7, WS 1, SA 9, SB 10, TY 6, EP 3, NF 1, FN 12. -/
def vrWord (op : Nat) : BitVec 48 := BitVec.ofNat 48 (0xc9b0a130f080 + op)
def vrF : VR := ⟨33, 7, 1, 9, 10, 6, 3, 1, 12⟩
/-- PR 33, DST 7, WS 1, SA 9, SB 10, SC 11, EP 3, NF 1. -/
def vtWord (op : Nat) : BitVec 48 := BitVec.ofNat 48 (0x4c58a130f080 + op)
def vtF : VT := ⟨33, 7, 1, 9, 10, 11, 3, 1, 0⟩
/-- PR 33, DT 7, WS 1, BS 9, OFF −3; and PR 33, DT 7, WS 1, BS 9, IX 10, FN 0x45. -/
def maWord (op : Nat) : BitVec 40 := BitVec.ofNat 40 (0xffe930f080 + op)
def maF : MA := ⟨33, 7, 1, 9, 0x1FFD⟩
def mxWord (op : Nat) : BitVec 40 := BitVec.ofNat 40 (0x8a5130f080 + op)
def mxF : MX := ⟨33, 7, 1, 9, 10, 0x45⟩
/-- The instructions of consecutive codes. -/
def codes (a n : Nat) (dec : Nat → Option Instr) : List (Option Instr) := (List.range n).map fun k => dec (a + k)

theorem test_decode_scalar_arithmetic : codes 0x01 31 (fun op => decodeS1 (srWord op)) = ([Instr.add, .sub, .and, .or, .xor, .andn, .shl, .shr, .sra, .rotl,
    .min, .max, .minu, .maxu, .mov, .mul, .mulh, .mulhu, .div, .divu, .rem, .remu, .clz, .ctz, .popc, .sext, .zext, .sel, .abs, .neg, .bswap].map fun c => some (c srF)) := rfl
theorem test_decode_scalar_immediate : codes 0x21 14 (fun op => decodeS0 (siWord op)) = ([Instr.addi, .subi, .andi, .ori, .xori, .andni, .shli, .shri, .srai,
    .rotli, .mini, .maxi, .minui, .maxui].map fun c => some (c siF)) := rfl
theorem test_decode_scalar_compare_csr : [decodeS0 (srWord 0x38), decodeS0 (srWord 0x39), decodeS0 (siWord 0x3A), decodeS0 (srWord 0x3B)] =
      [some (.cmp srF), some (.cmpu srF), some (.cmpi siF), some (.fcmp srF)] ∧
    codes 0x60 4 (fun op => decodeS1 (siWord op)) = [some (.csrr siF), some (.csrw siF), some (.csrs siF), some (.csrc siF)] := ⟨rfl, rfl⟩
theorem test_decode_scalar_float : codes 0x40 13 (fun op => decodeS1 (srWord op)) = ([Instr.fadd, .fsub, .fmul, .fdiv, .fmin, .fmax, .fsqrt, .fabs, .fneg, .fcvt,
    .fcvti, .icvtf, .fclass].map fun c => some (c srF)) ∧
    codes 0x50 5 (fun op => decodeS1 (srWord op)) = ([Instr.gand, .gor, .gxor, .gandn, .gset].map fun c => some (c srF)) := ⟨rfl, rfl⟩
theorem test_decode_long_immediate : decodeS0 0x800161e130 = some (.li ⟨33, 7, 1, 0x20005⟩) ∧ decodeS1 0x800161e131 = some (.lis ⟨33, 7, 1, 0x20005⟩) := ⟨rfl, rfl⟩
theorem test_decode_control : codes 0xC0 6 (fun op => decodeS0 (scWord op)) = ([Instr.br, .call, .ret, .loop, .rloop, .lbreak].map fun c => some (c scF)) ∧
    codes 0xC8 7 (fun op => decodeS0 (scWord op)) = ([Instr.spawn, .join, .exit, .exitab, .trap, .uiret, .slotld].map fun c => some (c scF)) ∧
    decodeS0 (scWord 0xC6) = none ∧ decodeS0 (scWord 0xC7) = none ∧ decodeS1 (scWord 0xC0) = none := ⟨rfl, rfl, rfl, rfl, rfl⟩
theorem test_decode_vector_integer : codes 0x01 26 (fun op => decodeV01 (vrWord op)) = ([Instr.vAdd, .vSub, .vAnd, .vOr, .vXor, .vAndn, .vShl, .vShr, .vSra, .vMin,
    .vMax, .vMinu, .vMaxu, .vMul, .vMulh, .vAdds, .vSubs, .vAddsu, .vSubsu, .vAbs, .vNeg, .vClz, .vPopc, .vMov, .vBcast, .vSel].map fun c => some (c vrF)) ∧
    codes 0x21 12 (fun op => decodeV2 (vrWord op)) = ([Instr.vAddi, .vSubi, .vAndi, .vOri, .vXori, .vAndni, .vShli, .vShri, .vSrai, .vMini, .vMaxi,
      .vMulli].map fun c => some (c vrF)) := ⟨rfl, rfl⟩
theorem test_decode_vector_float : codes 0x30 7 (fun op => decodeV01 (vrWord op)) = ([Instr.vAddF, .vSubF, .vMulF, .vMinF, .vMaxF, .vAbsF,
      .vNegF].map fun c => some (c vrF)) ∧
    codes 0x38 6 (fun op => decodeV01 (vtWord op)) = ([Instr.vFmaF32, .vFmaF16, .vFmaBf16, .vFmsF32, .vFmsF16, .vFmsBf16].map fun c => some (c vtF)) := ⟨rfl, rfl⟩
theorem test_decode_vector_predicate : codes 0x40 4 (fun op => decodeV01 (vrWord op)) = ([Instr.vCmp, .vCmpu, .vFcmp, .vCmpi].map fun c => some (c vrF)) ∧
    codes 0x48 7 (fun op => decodeV01 (vrWord op)) = ([Instr.pand, .por, .pxor, .pandn, .pset, .pfirst, .pcount].map fun c => some (c vrF)) := ⟨rfl, rfl⟩
theorem test_decode_vector_convert_permute : codes 0x50 8 (fun op => decodeV01 (vrWord op)) = ([Instr.cvt, .widen, .narrow, .vq8, .vdq8, .mxq, .wadd,
      .wmul].map fun c => some (c vrF)) ∧ decodeV01 (vtWord 0x60) = some (.perm vtF) ∧
    codes 0x61 10 (fun op => decodeV01 (vrWord op)) = ([Instr.zip, .unzip, .slide, .vRot, .splat, .vIns, .vExt, .compress, .expand, .rev].map fun c => some (c vrF)) ∧
    codes 0x70 8 (fun op => decodeV01 (vrWord op)) = ([Instr.rsum, .rmax, .rmin, .rmaxu, .rminu, .rand, .ror, .rargmax].map fun c => some (c vrF)) :=
  ⟨rfl, rfl, rfl, rfl⟩
/-- PR 33, VD 8, WS 1, TILE 2, RS 12, EP 3, NF 1, FN 5: on V2 only. -/
theorem test_decode_rows : codes 0x78 5 (fun op => decodeV2 (BitVec.ofNat 48 (0x598006511080 + op))) =
    ([Instr.ard, .awr, .aadd, .amax, .ascl].map fun c => some (c ⟨33, 8, 1, 2, 12, 0, 3, 1, 5⟩)) ∧ decodeV01 0x5980065110F8 = none := ⟨rfl, rfl⟩
/-- FA: PR 33, DST 7, WS 1, SA 9, EP 3, NF 1, TY 2. FD: PR 33, DST 7, SA 9, EP 3, ZP 12, NF 1. -/
theorem test_decode_special_draw : codes 0x01 8 (fun op => decodeF (BitVec.ofNat 32 (0xa6263c20 + op))) =
    ([Instr.vrsqs, .vrcps, .vexp2, .vlog2, .vlse, .vtanh, .vsigm, .vsqrt].map fun c => some (c ⟨33, 7, 1, 9, 3, 1, 2⟩)) ∧
    codes 0x10 4 (fun op => decodeF (BitVec.ofNat 32 (0xe1923c20 + op))) = ([Instr.vdrawF32, .vdrawF16, .vdrawBf16, .vdrawm].map fun c => some (c ⟨33, 7, 9, 3, 12, 1⟩)) ∧
    decodeF 0x09 = none := ⟨rfl, rfl, rfl⟩
theorem test_decode_memory : codes 0x01 15 (fun op => decodeM (maWord op)) = ([Instr.ldI8, .ldI16, .ldI32, .ldI64, .ldN8, .ldN16, .ldN32, .stB8, .stB16, .stB32,
      .stB64, .vld, .vst, .vldb, .ldacq].map fun c => some (c maF)) ∧
    codes 0x10 13 (fun op => decodeM (mxWord op)) = ([Instr.vldx, .vstx, .gather, .scatter, .tld, .tst, .dld, .devict, .relay, .reshard, .dget, .tfcfg,
      .strel].map fun c => some (c mxF)) := ⟨rfl, rfl⟩
theorem test_decode_streams_shuttle : codes 0x20 6 (fun op => decodeM (mxWord op)) = ([Instr.sbind, .sunbind, .spos, .cbind, .cunbind, .sfill].map fun c => some (c mxF)) ∧
    codes 0x30 9 (fun op => decodeM (mxWord op)) = ([Instr.copy, .fill, .acc, .accr, .sigw, .chdone, .ventset, .ventrdy, .ventgrp].map fun c => some (c mxF)) ∧
    codes 0x40 4 (fun op => decodeM (mxWord op)) = ([Instr.fence, .fencex, .flush, .collmode].map fun c => some (c mxF)) ∧ decodeM 0x44 = none :=
  ⟨rfl, rfl, rfl, rfl⟩
/-- XP: PR 33, VA 7, VB 9, PA 1. XT: PR 33, TILE 2, ARG 0x9A5. XS: PR 33, SRC 7, ARG 0xA5 (B) and 0xA4 (A). -/
theorem test_decode_matrix : decodeX 0x491e11 = some (.mpush ⟨33, 7, 9, 1, 0⟩) ∧
    codes 0x3 4 (fun op => decodeX (BitVec.ofNat 24 (0x9a5a10 + op))) = ([Instr.macc, .mshift, .mdrain, .mzero].map fun c => some (c ⟨33, 2, 0x9A5⟩)) ∧
    decodeX 0xa51e12 = some (.mscaleB ⟨33, 7, 0xA5⟩) ∧ decodeX 0xa41e12 = some (.mscaleA ⟨33, 7, 0xA4⟩) ∧ decodeX 0xa51e17 = some (.mcfg ⟨33, 7, 0xA5⟩) ∧
    decodeX 0x8 = none := ⟨rfl, rfl, rfl, rfl, rfl, rfl⟩
theorem test_decode_empty_slot : decodeS0 0 = some .emptySlot ∧ decodeV2 0 = some .emptySlot ∧ decodeF 0 = some .emptySlot ∧ decodeM 0 = some .emptySlot ∧
    decodeX 0 = some .emptySlot := ⟨rfl, rfl, rfl, rfl, rfl⟩

/-- A header unit: B 1, RD 2, RA 3, RB 4, XU 0, IMM −3, with OP and FN. -/
def cmdWord (op fn : Nat) : Word := BitVec.ofNat 64 (0xFFFFFFFD00043240 + op + fn * 0x1000000)
def pktF (fn : BitVec 8) : Pkt := ⟨1, 0, 2, 3, 4, 0, 0, fn, 0xFFFFFFFD, []⟩
/-- The commands of the FN values 0 to n − 1 of an opcode. -/
def fns (op n : Nat) : List CmdDecode := (List.range n).map fun k => decodeCmd (cmdWord op k) []
/-- What they decode to. -/
def fnsOk (l : List (Pkt → Instr)) : List CmdDecode := l.zipIdx.map fun c => .ok (c.1 (pktF (BitVec.ofNat 8 c.2)))
theorem test_decode_command_registers : fns 0x00 2 = fnsOk [.cmdNop] ++ [.badField] ∧ fns 0x01 1 = fnsOk [.cmdLi] ∧ fns 0x02 1 = fnsOk [.cmdLih] ∧
    fns 0x03 11 = fnsOk [.cmdAdd, .cmdSub, .cmdAnd, .cmdOr, .cmdXor, .cmdShl, .cmdShr, .cmdSra, .cmdMin, .cmdMax] ++ [.badField] ∧
    fns 0x04 11 = fnsOk [.cmdAddi, .cmdSubi, .cmdAndi, .cmdOri, .cmdXori, .cmdShli, .cmdShri, .cmdSrai, .cmdMini, .cmdMaxi] ++ [.badField] ∧
    fns 0x1E 1 = fnsOk [.cmdRdgtc] ∧ fns 0x1F 1 = fnsOk [.cmdFlush] := ⟨rfl, rfl, rfl, rfl, rfl, rfl, rfl⟩
theorem test_decode_command_memory_flow : fns 0x05 1 = fnsOk [.cmdLd] ∧ fns 0x06 1 = fnsOk [.cmdSt] ∧ fns 0x07 1 = [.badOp] ∧
    fns 0x08 7 = fnsOk [.cmdBeq, .cmdBne, .cmdBlt, .cmdBge, .cmdBltu, .cmdBgeu] ++ [.badField] ∧
    fns 0x09 1 ++ fns 0x0A 1 ++ fns 0x0B 1 ++ fns 0x0C 1 = fnsOk [.cmdJmp] ++ fnsOk [.cmdCall] ++ fnsOk [.cmdRet] ++ fnsOk [.cmdLoop] ∧
    fns 0x10 6 = fnsOk [.cmdSigSet, .cmdSigAdd, .cmdSigSub, .cmdSigMax, .cmdSigMin] ++ [.badField] := ⟨rfl, rfl, rfl, rfl, rfl, rfl⟩
theorem test_decode_command_waits_work : fns 0x11 9 = (fnsOk [.cmdWaitAll, .cmdWaitAll, .cmdWaitAll, .cmdWaitAll, .cmdWaitAny, .cmdWaitAny, .cmdWaitAny,
      .cmdWaitAny]) ++ [.badField] ∧ fns 0x12 1 ++ fns 0x13 1 ++ fns 0x14 1 = fnsOk [.cmdGtcwait] ++ fnsOk [.cmdOnabt] ++ fnsOk [.cmdAbort] ∧
    fns 0x18 3 = fnsOk [.cmdLaunch, .cmdLaunchN] ++ [.badField] ∧ fns 0x19 1 ++ fns 0x1A 1 ++ fns 0x1B 1 = fnsOk [.cmdCopy] ++ fnsOk [.cmdFill] ++ fnsOk [.cmdShootdn] ∧
    fns 0x1C 1 ++ fns 0x1D 1 = fnsOk [.cmdNotify] ++ fnsOk [.cmdSlotld] := ⟨rfl, rfl, rfl, rfl, rfl⟩

/-! ### Well-formedness: one ill-formed term for each check -/

theorem test_ill_formed_lane : (Instr.add ⟨1, 0, 0, 0, 0, 0, 0⟩).wf = false ∧ (Instr.vFmaF32 ⟨0, 0, 0, 0, 0, 0, 0, 0, 1⟩).wf = false ∧
    (Instr.ard ⟨0, 0, 0, 0, 0, 1, 0, 0, 0⟩).wf = false ∧ (Instr.mscaleA ⟨0, 0, 1⟩).wf = false ∧ (Instr.mscaleB ⟨0, 0, 0⟩).wf = false ∧
    (Instr.add srF).wf = true := by decide
theorem test_ill_formed_command : (Instr.cmdLi ⟨0, 1, 0, 0, 0, 0, 0, 0, 0, []⟩).wf = false ∧ (Instr.cmdLi ⟨0, 0, 0, 0, 0, 0, 1, 0, 0, []⟩).wf = false ∧
    (Instr.cmdLi ⟨0, 0, 0, 0, 0, 1, 0, 0, 0, []⟩).wf = false ∧ (Instr.cmdSub ⟨0, 0, 0, 0, 0, 0, 0, 0, 0, []⟩).wf = false ∧
    (Instr.cmdWaitAll ⟨0, 0, 0, 0, 0, 1, 0, 4, 0, [0]⟩).wf = false ∧ (Instr.cmdWaitAny ⟨0, 0, 0, 0, 0, 1, 0, 3, 0, [0]⟩).wf = false ∧
    (Instr.cmdWaitAny ⟨0, 0, 0, 0, 0, 1, 0, 8, 0, [0]⟩).wf = false := by decide
theorem test_ill_formed_event : (Instr.thermalSample 256).wf = false ∧ (Instr.registerWrite 2 0 8 0).wf = false ∧ (Instr.timeSyncReceive ⟨8, 0⟩ 0 0 0 0).wf = false ∧
    (Instr.flitSend 8 0 1).wf = false ∧ (Instr.flitSend 0 59 1).wf = false ∧ (Instr.linkWake 0 11).wf = false ∧ (Instr.queueEnable 64).wf = false ∧
    (Instr.hostAtomicop ⟨0, 0, none, 0, 8, 0⟩ 3 0).wf = false ∧ (Instr.keyDestroyDrainEnd 1024).wf = false ∧ (Instr.taskTake 512).wf = false ∧
    (Instr.taskTake 48).wf = false ∧ (Instr.shuttleCommandStart 49).wf = false ∧ (Instr.streamPortFetch 0 8).wf = false ∧ (Instr.channelWordArrive 0 4 0).wf = false ∧
    (Instr.tileFetch 0 2).wf = false ∧ (Instr.weightStoreRefresh 0 8).wf = false ∧ (Instr.tileConvert 0 4).wf = false ∧ (Instr.reshardPiece 0 8).wf = false ∧
    (Instr.shuttleCommandComplete 0 9 0).wf = false ∧ (Instr.ventFire 0 1024).wf = false ∧ (Instr.atsInvalidate 2 0 0 0).wf = false := by decide

/-! ### Small states -/

/-- Core 0 runs, about to issue the operation of a lane of a checkpoint bundle with landing delay 5; s1 = 5, s2 = −3, s3 = 2^40. -/
def strand : Arch := { Arch.init with s := [(1, 5), (2, 0xFFFFFFFFFFFFFFFD), (3, 0x10000000000)], v := [(1, 0x300000002), (2, 0x4000000050)] }
def onCore (lane : Nat) (a : Arch) : State :=
  { State.reset with cores := [(0, { Core.init with mode := .run, arch := a, keep := a })], cur := { Cursor.init with lane := lane, late := 5, ckpt := true } }
def st (lane : Nat) : State := onCore lane strand
/-- What the operation has queued on core 0; how core 0 stands after it. -/
def queued (o : Host.Outcome State Fault Refusal) : List (Eff × Nat) := match o with | .next t => (t.core 0).arch.pend.map fun p => (p.eff, p.due) | _ => []
def coreMode (o : Host.Outcome State Fault Refusal) : CoreMode := match o with | .next t => (t.core 0).mode | _ => .free
/-- A register of queue 0, and its position. -/
def regOf (o : Host.Outcome State Fault Refusal) (r : Nat) : Word := match o with | .next t => FMap.get 0 (t.queue 0).c r | _ => 0
def headOf (o : Host.Outcome State Fault Refusal) : Nat := match o with | .next t => (t.queue 0).head.toNat | _ => 0

/-! ### Results by hand (Tables 13.1, 13.2, 14.1, 4.2) -/

theorem test_add : queued (exec (.add ⟨0, 7, 0, 1, 2, 0, 0⟩) (st 0)) = [(.s 7 2, 0), (.latch 0 2, 0)] := by decide +kernel
theorem test_sub_wraps : queued (exec (.sub ⟨0, 7, 0, 2, 1, 0, 0⟩) (st 0)) = [(.s 7 0xFFFFFFFFFFFFFFF8, 0), (.latch 0 0xFFFFFFFFFFFFFFF8, 0)] := by decide +kernel
theorem test_write_suppressed : queued (exec (.add ⟨0, 7, 1, 1, 2, 0, 0⟩) (st 0)) = [(.latch 0 2, 0)] := by decide +kernel
theorem test_mul_latency : queued (exec (.mul ⟨0, 7, 0, 1, 2, 0, 0⟩) (st 0)) = [(.s 7 0xFFFFFFFFFFFFFFF1, 2), (.latch 0 0xFFFFFFFFFFFFFFF1, 2)] := by decide +kernel
theorem test_mulh_signed : queued (exec (.mulh ⟨0, 7, 0, 1, 2, 0, 0⟩) (st 0)) = [(.s 7 0xFFFFFFFFFFFFFFFF, 2), (.latch 0 0xFFFFFFFFFFFFFFFF, 2)] := by decide +kernel
theorem test_mulhu : queued (exec (.mulhu ⟨0, 7, 0, 1, 2, 0, 0⟩) (st 0)) = [(.s 7 4, 2), (.latch 0 4, 2)] := by decide +kernel
theorem test_div_truncates : queued (exec (.div ⟨0, 7, 0, 2, 1, 0, 0⟩) (st 0)) = [(.s 7 0, 23), (.latch 0 0, 23)] := by decide +kernel
theorem test_rem_sign_of_dividend : queued (exec (.rem ⟨0, 7, 0, 2, 1, 0, 0⟩) (st 0)) = [(.s 7 0xFFFFFFFFFFFFFFFD, 23), (.latch 0 0xFFFFFFFFFFFFFFFD, 23)] := by decide +kernel
theorem test_div_by_zero : queued (exec (.div ⟨0, 7, 0, 1, 127, 0, 0⟩) (st 0)) = [(.s 7 0xFFFFFFFFFFFFFFFF, 23), (.latch 0 0xFFFFFFFFFFFFFFFF, 23)] := by decide +kernel
theorem test_sra : queued (exec (.sra ⟨0, 7, 0, 2, 1, 0, 0⟩) (st 0)) = [(.s 7 0xFFFFFFFFFFFFFFFF, 0), (.latch 0 0xFFFFFFFFFFFFFFFF, 0)] := by decide +kernel
theorem test_clz : queued (exec (.clz ⟨0, 7, 0, 3, 0, 0, 0⟩) (st 0)) = [(.s 7 23, 0), (.latch 0 23, 0)] := by decide +kernel
theorem test_bswap : queued (exec (.bswap ⟨0, 7, 0, 1, 0, 0, 0⟩) (st 1)) = [(.s 7 0x0500000000000000, 0), (.latch 1 0x0500000000000000, 0)] := by decide +kernel
theorem test_addi_negative : queued (exec (.addi ⟨0, 7, 0, 1, 0x7FF⟩) (st 0)) = [(.s 7 4, 0), (.latch 0 4, 0)] := by decide +kernel
theorem test_shift_immediate_too_far : coreMode (exec (.shli ⟨0, 7, 0, 1, 64⟩) (st 0)) = .rolled (Trap.illegal 2 0) 0 := by decide +kernel
theorem test_lis : queued (exec (.lis ⟨0, 1, 0, 3⟩) (st 0)) = [(.s 1 0x140003, 0), (.latch 0 0x140003, 0)] := by decide +kernel
theorem test_zero_register_discards : queued (exec (.li ⟨0, 0, 0, 3⟩) (st 0)) = [(.s 0 3, 0), (.latch 0 3, 0)] ∧ (strand.setS 0 3).getS 0 = 0 := by decide +kernel
theorem test_cmp_signed : queued (exec (.cmp ⟨0, 6, 0, 2, 1, 0, 2⟩) (st 0)) = [(.g 6 true, 0), (.latch 0 1, 0)] := by decide +kernel
theorem test_cmpu : queued (exec (.cmpu ⟨0, 6, 0, 2, 1, 0, 2⟩) (st 0)) = [(.g 6 false, 0), (.latch 0 0, 0)] := by decide +kernel
theorem test_false_predicate : exec (.add ⟨0x25, 7, 0, 1, 2, 0, 0⟩) (st 0) = .next (st 0) := rfl
theorem test_bad_predicate : coreMode (exec (.add ⟨1, 7, 0, 1, 2, 0, 0⟩) (st 0)) = .rolled (Trap.illegal 2 0) 0 := by decide +kernel
/-- 1.0 + 1.0 = 2.0 in f32. -/
theorem test_fadd : queued (exec (.fadd ⟨0, 7, 0, 9, 9, 0, 0⟩) (onCore 0 { strand with s := [(9, 0x3F800000)] })) =
    [(.s 7 0x40000000, 3), (.latch 0 0x40000000, 3)] := by decide +kernel
/-- An infinity is in class bit 7; a signalling NaN in bit 8. -/
theorem test_fclass : queued (exec (.fclass ⟨0, 7, 0, 9, 0, 0, 0⟩) (onCore 0 { strand with s := [(9, 0x7F800000)] })) = [(.s 7 0x80, 3), (.latch 0 0x80, 3)] ∧
    queued (exec (.fclass ⟨0, 7, 0, 9, 0, 0, 0⟩) (onCore 0 { strand with s := [(9, 0x7F800001)] })) = [(.s 7 0x100, 3), (.latch 0 0x100, 3)] := by decide +kernel
/-- 32-bit elements 2 and 3 plus 0x50 and 0x40. -/
theorem test_vector_add : (queued (exec (.vAdd ⟨0, 7, 1, 1, 2, 4, 0, 0, 0⟩) (st 2))).map Prod.snd = [1] ∧
    queued (exec (.vAdd ⟨0, 7, 1, 1, 2, 4, 0, 0, 0⟩) (st 2)) = [(.latch 2 0x4300000052, 1)] := by decide +kernel
theorem test_pset : queued (exec (.pset ⟨0, 3, 0, 1, 0, 0, 0, 0, 0⟩) (st 2)) = [(.p 3 3, 0), (.latch 2 3, 0)] := by decide +kernel
theorem test_csr_read_only : coreMode (exec (.csrs ⟨0, 7, 0, 1, 0⟩) (st 0)) = .rolled (Trap.illegal 2 0) 0 := by decide +kernel
theorem test_trap_sub : coreMode (exec (.trap ⟨0, 200, 0, 0⟩) (st 0)) = .rolled (Trap.core 54 200 0) 0 := by decide +kernel
theorem test_fence_needs_checkpoint : coreMode (exec (.fence ⟨0, 0, 0, 0, 0, 4⟩) { st 6 with cur := { (st 6).cur with ckpt := false } }) =
    .rolled (Trap.illegal 2 6) 0 := by decide +kernel
theorem test_misaligned_load : coreMode (exec (.ldI32 ⟨0, 7, 0, 1, 0⟩) (st 6)) = .rolled (Trap.illegal 2 6) 0 := by decide +kernel

/-- Queue 0 of die 0 in service: c1 = 5, c2 = −3, position 4 of a ring of 512 units with 10 unconsumed. -/
def qst : State := { State.reset with queues := [(0, { Queue.init with en := true, head := 4, tail := 14, c := [(1, 5), (2, 0xFFFFFFFFFFFFFFFD)] })] }
theorem test_command_min : regOf (exec (.cmdMin ⟨0, 0, 3, 1, 2, 0, 0, 8, 0, []⟩) qst) 3 = 0xFFFFFFFFFFFFFFFD ∧
    headOf (exec (.cmdMin ⟨0, 0, 3, 1, 2, 0, 0, 8, 0, []⟩) qst) = 5 := by decide +kernel
theorem test_command_lih : regOf (exec (.cmdLih ⟨0, 0, 1, 0, 0, 0, 0, 0, 7, []⟩) qst) 1 = 0x700000005 := by decide +kernel
theorem test_command_register_zero : regOf (exec (.cmdLi ⟨0, 0, 0, 0, 0, 0, 0, 0, 7, []⟩) qst) 0 = 0 := by decide +kernel
theorem test_command_branch : headOf (exec (.cmdBlt ⟨0, 0, 0, 2, 1, 0, 0, 2, 9, []⟩) qst) = 13 ∧
    headOf (exec (.cmdBltu ⟨0, 0, 0, 2, 1, 0, 0, 4, 9, []⟩) qst) = 5 := by decide +kernel
/-- An offset of 10 leaves the 10 unconsumed units: BAD_FIELD freezes the queue (R85). -/
theorem test_command_branch_too_far : (match exec (.cmdBlt ⟨0, 0, 0, 1, 2, 0, 0, 2, 10, []⟩) qst with | .next t => (t.queue 0).frozen | _ => false) = true := by decide +kernel

/-! ### Events -/

theorem test_bad_mode : (match exec (.pwrmodeWrite 5) State.reset with | .next t => (t.mod.badw, t.mod.pend) | _ => (false, true)) = (true, false) := by decide +kernel
/-- 105 °C sets LIMIT, LIMSEEN and WARN; 115 °C trips. -/
theorem test_thermal : (match exec (.thermalSample 105) State.reset with | .next t => (t.mod.warn, t.mod.limit, t.mod.rails) | _ => (false, false, false)) = (true, true, true) ∧
    (match exec (.thermalSample 115) State.reset with | .next t => (t.mod.rails, t.mod.tripped) | _ => (true, false)) = (false, true) := by decide +kernel
theorem test_host_window_before_ready : (match exec (.registerWrite 0 0x3008 8 1) State.reset with | .next t => t.answers | _ => []) = [.unsupported 0] := by decide +kernel
theorem test_enable_invalid_context : (match exec (.queueEnable 0) { State.reset with mod := { Module.init with ready := true } } with
    | .next t => ((t.queue 0).en, (t.queue 0).badcfg) | _ => (true, false)) = (false, true) := by decide +kernel

/-! ### Witnesses: a state and operands that meet the hypotheses of each statement -/

def isOk {ε α : Type} (x : Except ε α) : Bool := match x with | .ok _ => true | .error _ => false
theorem exists_ok {ε α : Type} {x : Except ε α} (h : isOk x = true) : ∃ v, x = .ok v := by
  cases x with
  | ok v => exact ⟨v, rfl⟩
  | error e => cases h
theorem exists_ok2 {ε α β : Type} {x : Except ε (α × β)} (h : isOk x = true) : ∃ v w, x = .ok (v, w) := by
  obtain ⟨⟨v, w⟩, e⟩ := exists_ok h; exact ⟨v, w, e⟩

/-- Sources of both spaces: registers 1 and 63, a latch, the zero source; destinations: register 63, register 0, a latch alone. -/
theorem witness_operands : Acts (st 0) 0 ∧ (∀ n ∈ [(1 : BitVec 7), 63, 64, 71, 127], (∃ v c', SrcS (st 0) n (here (st 0)) v c') ∧
      ∃ v c', SrcV (st 2) n (here (st 2)) v c') ∧
    (∀ n ∈ [(0 : BitVec 7), 1, 63], ∀ ws ∈ [(0 : BitVec 1), 1], (∃ c', DstS (st 0) n ws 1 5 (here (st 0)) c') ∧
      ∃ c', DstV (st 2) n ws 2 32 5 (-1) (here (st 2)) c') := by
  refine ⟨rfl, fun n hn => ⟨exists_ok2 ?_, exists_ok2 ?_⟩, fun n hn ws hw => ⟨exists_ok ?_, exists_ok ?_⟩⟩
  · revert n; decide +kernel
  · revert n; decide +kernel
  · revert ws; revert n; decide +kernel
  · revert ws; revert n; decide +kernel

abbrev cS : Core := here (st 0)
abbrev cV : Core := here (st 2)
/-- s1 = 5, s2 = −3, and the zero source, read on lane S0; v1, v2 on V0; the core is unchanged. -/
theorem src_s1 : SrcS (st 0) 1 cS 5 cS := rfl
theorem src_s2 : SrcS (st 0) 2 cS 0xFFFFFFFFFFFFFFFD cS := rfl
theorem src_v1 : SrcV (st 2) 1 cV 0x300000002 cV := rfl
theorem src_v2 : SrcV (st 2) 2 cV 0x4000000050 cV := rfl
/-- A scalar result is taken by s63, a vector result by v63. -/
theorem dst_s (lat : Nat) (v : Word) : ∃ c', DstS (st 0) 63 0 lat v cS c' := ⟨_, rfl⟩
theorem dst_v (lat w : Nat) (v m : VWord) : ∃ c', DstV (st 2) 63 0 lat w v m cV c' := ⟨_, rfl⟩

theorem witness_ScalarIntegerResults : let f : SR := ⟨0, 63, 0, 1, 2, 0, 0⟩
    (Acts (st 0) f.pr ∧ f.nf = 0 ∧ f.fn = 0 ∧ SrcS (st 0) f.sa cS 5 cS ∧ SrcS (st 0) f.sb cS 0xFFFFFFFFFFFFFFFD cS ∧ ∃ c', DstS (st 0) f.dst f.ws 24 2 cS c') ∧
    (let g : SR := ⟨0, 63, 0, 1, 0, 0, 2⟩; g.sb = 0 ∧ g.nf = 0 ∧ g.fn.toNat ≤ 2 ∧ SrcS (st 0) g.sa cS 5 cS ∧ ∃ c', DstS (st 0) g.dst g.ws 1 5 cS c') ∧
    (let g : SI := ⟨0, 63, 0, 1, 63⟩; g.imm.toNat < 64 ∧ SrcS (st 0) g.sa cS 5 cS ∧ ∃ c', DstS (st 0) g.dst g.ws 1 5 cS c') ∧
    (let g : SL := ⟨0, 63, 0, 5⟩; g.dst.toNat ≤ 63 ∧ ∃ c', DstS (st 0) g.dst g.ws 1 5 cS c') :=
  ⟨⟨rfl, rfl, rfl, src_s1, src_s2, dst_s 24 2⟩, ⟨rfl, rfl, by decide, src_s1, dst_s 1 5⟩, ⟨by decide, src_s1, dst_s 1 5⟩, ⟨by decide, dst_s 1 5⟩⟩
theorem witness_ScalarPredicateResults : let f : SR := ⟨0, 31, 0, 1, 2, 0, 5⟩
    (Acts (st 0) f.pr ∧ f.nf = 0 ∧ f.dst.toNat < 32 ∧ f.fn.toNat ≤ 5 ∧ SrcS (st 0) f.sa cS 5 cS ∧ SrcS (st 0) f.sb cS 0xFFFFFFFFFFFFFFFD cS) ∧
    (let g : SI := ⟨0, 31, 0, 1, 0x5FF⟩; g.dst.toNat < 32 ∧ (g.imm.extractLsb' 8 3).toNat ≤ 5) ∧ gVal cS 31 = some false ∧ gVal cS 127 = some false :=
  ⟨⟨rfl, rfl, by decide, by decide, src_s1, src_s2⟩, ⟨by decide, by decide⟩, rfl, rfl⟩
theorem witness_ScalarFloatAndConversionResults : let f : SR := ⟨0, 63, 0, 1, 2, 0, 2⟩
    (Acts (st 0) f.pr ∧ f.fn.toNat ≤ 2 ∧ SrcS (st 0) f.sa cS 5 cS ∧ SrcS (st 0) f.sb cS 0xFFFFFFFFFFFFFFFD cS ∧ ∃ c', DstS (st 0) f.dst f.ws 4 5 cS c') ∧
    (let g : SR := ⟨0, 95, 0, 1, 2, 0, 7⟩; g.dst.toNat / 32 ≤ 2) ∧
    (let g : SR := ⟨0, 63, 0, 1, 14, 0, 2⟩; g.fn.toNat ≤ 2 ∧ g.sb.toNat < 32 ∧ g.sb.toNat / 4 ≤ 3 ∧ g.sb.toNat % 4 ≤ 2) :=
  ⟨⟨rfl, by decide, src_s1, src_s2, dst_s 4 5⟩, by decide, by decide, by decide, by decide, by decide⟩
theorem witness_ClassMask : ((2 : BitVec 3), 8, 7) ∈ classTypes ∧ let f : SR := ⟨0, 63, 0, 1, 0, 0, 2⟩
    Acts (st 0) f.pr ∧ f.fn = 2 ∧ f.sb = 0 ∧ f.nf = 0 ∧ SrcS (st 0) f.sa cS 5 cS ∧ ∃ c', DstS (st 0) f.dst f.ws 4 32 cS c' :=
  ⟨by decide, rfl, rfl, rfl, rfl, src_s1, dst_s 4 32⟩
theorem witness_VectorIntegerAndMoveResults : let f : VR := ⟨0, 63, 0, 1, 2, 5, 0, 0, 0⟩
    (Acts (st 2) f.pr ∧ f.ty.toNat ≤ 5 ∧ f.nf = 0 ∧ f.fn = 0 ∧ SrcV (st 2) f.sa cV 0x300000002 cV ∧ SrcV (st 2) f.sb cV 0x4000000050 cV ∧
      ∃ c', DstV (st 2) f.dst f.ws 2 32 5 (-1) cV c') ∧
    (let g : VR := ⟨0, 63, 0, 1, 31, 5, 0, 0, 0⟩; g.sb.toNat < tyWidth g.ty.toNat) ∧ (let g : VR := ⟨0, 63, 0, 1, 0, 11, 0, 0, 0⟩; g.ty.toNat ≤ 11 ∧ g.sb = 0) :=
  ⟨⟨rfl, by decide, rfl, rfl, src_v1, src_v2, dst_v 2 32 5 (-1)⟩, by decide, by decide, rfl⟩
theorem witness_VectorPredicateAndPermutationResults : let f : VR := ⟨0, 15, 0, 1, 2, 5, 0, 0, 5⟩
    (Acts (st 2) f.pr ∧ f.ty.toNat ≤ 5 ∧ f.nf = 0 ∧ f.fn.toNat ≤ 5 ∧ f.dst.toNat ≤ 15 ∧ SrcV (st 2) f.sa cV 0x300000002 cV ∧ SrcV (st 2) f.sb cV 0x4000000050 cV) ∧
    (let g : VR := ⟨0, 15, 0, 1, 2, 8, 0, 1, 7⟩; 6 ≤ g.ty.toNat ∧ g.ty.toNat ≤ 8 ∧ g.fn.toNat ≤ 7) ∧ pVal cV 15 = some 0 ∧ pVal cV 127 = some 0 ∧
    (let g : VT := ⟨0, 63, 0, 1, 2, 1, 0, 0, 0⟩; g.nf = 0 ∧ g.rsvd = 0 ∧ SrcV (st 2) g.sc cV 0x300000002 cV ∧ ∃ c', DstV (st 2) g.dst g.ws 2 16 5 (-1) cV c') :=
  ⟨⟨rfl, by decide, rfl, by decide, by decide, src_v1, src_v2⟩, ⟨by decide, by decide, by decide⟩, rfl, rfl, rfl, rfl, src_v1, dst_v 2 16 5 (-1)⟩
theorem witness_VectorFloatArithmetic : let f : VR := ⟨0, 63, 0, 1, 2, 8, 0, 1, 0⟩
    Acts (st 2) f.pr ∧ 6 ≤ f.ty.toNat ∧ f.ty.toNat ≤ 8 ∧ f.fn = 0 ∧ SrcV (st 2) f.sa cV 0x300000002 cV ∧ SrcV (st 2) f.sb cV 0x4000000050 cV ∧
    ∃ c', DstV (st 2) f.dst f.ws 4 16 5 (-1) cV c' := ⟨rfl, by decide, by decide, rfl, src_v1, src_v2, dst_v 4 16 5 (-1)⟩
theorem witness_ReductionAndSpecialFunctionResults : (let f : VR := ⟨0, 63, 0, 1, 0, 5, 0, 0, 0⟩
    Acts (st 2) f.pr ∧ f.ty.toNat ≤ 5 ∧ f.sb = 0 ∧ f.fn = 0 ∧ f.nf = 0 ∧ SrcV (st 2) f.sa cV 0x300000002 cV ∧ ∃ c', DstV (st 2) f.dst f.ws 6 32 5 (-1) cV c') ∧
    (let f : FA := ⟨0, 63, 0, 1, 0, 1, 2⟩; f.ty.toNat ≤ 2 ∧ (∃ c', SrcV (st 5) f.sa (here (st 5)) 0x300000002 c') ∧
      ∃ c', DstV (st 5) (f.dst.setWidth 7) f.ws 12 32 5 (-1) (here (st 5)) c') :=
  ⟨⟨rfl, by decide, rfl, rfl, rfl, src_v1, dst_v 6 32 5 (-1)⟩, by decide, ⟨_, rfl⟩, exists_ok (by decide +kernel)⟩
/-- macc and mdrain on tile 3 of an idle X lane; an epilogue record of zeros is valid; so are fields at their greatest values. -/
theorem witness_MatrixResults : (let f : XP := ⟨0, 7, 9, 0, 0⟩; Acts (st 8) f.pr ∧ ∃ v c', PushSrc (st 8) f.va (f.pa = 1) 0 (here (st 8)) v c') ∧
    ((⟨0, 7, 6⟩ : XS).arg.toNat < 8 ∧ (⟨0, 7, 7⟩ : XS).arg.toNat < 8) ∧ ecValid ((readV (here (st 8)) 7).setWidth 2048) = true ∧
    (let f : XT := ⟨0, 3, 0x1E0⟩; f.arg.toNat < 1024 ∧ f.arg.toNat / 16 % 16 = 14 ∧ f.arg.toNat / 256 % 4 ≤ 4 / fmK 14 - 1 ∧ tilePhase (here (st 8)) f.tile.toNat = 0 ∧
      (here (st 8)).maccs < maccLimit { (st 8).mod with active := 1 } ∧ ∃ c', Touched (st 8) f.tile.toNat true (here (st 8)) c') := by
  refine ⟨⟨rfl, exists_ok2 (by decide +kernel)⟩, by decide, by decide +kernel, by decide, by decide, by decide +kernel, by decide +kernel, by decide +kernel, exists_ok (by decide +kernel)⟩
theorem witness_StagingAndZero : (let f : XT := ⟨0, 0, 0⟩; Acts (st 8) f.pr ∧ f.tile = 0 ∧ f.arg = 0) ∧ (let f : XT := ⟨0, 3, 0⟩; f.arg = 0 ∧
      ((here (st 8)).arch.tLive.filter fun x => [f.tile.toNat].contains x).length ≤ 1) ∧ (∃ p : Pend, p.eff = .stage .shift) ∧ ∃ p : Pend, p.eff = .mzero 3 :=
  ⟨⟨rfl, rfl, rfl⟩, ⟨rfl, by decide⟩, ⟨⟨_, .x, 0, 0, 0, 0⟩, rfl⟩, ⟨_, .x, 0, 0, 0, 0⟩, rfl⟩
theorem witness_AccumulatorRows : let f : VA := ⟨0, 62, 0, 3, 1, 0, 0, 0, 0⟩
    Acts (st 4) f.pr ∧ VaLegal (st 4) f ∧ f.nf = 0 ∧ f.ws = 0 ∧ (∃ c', Touched (st 4) f.tile.toNat false (here (st 4)) c') ∧
    (∃ c', Touched (st 4) f.tile.toNat true (here (st 4)) c') ∧ ∃ c', DstVs (st 4) f.vd f.ws 6 [(5, -1), (6, -1)] (here (st 4)) c' :=
  ⟨rfl, ⟨rfl, rfl, by decide, by decide, rfl⟩, rfl, rfl, exists_ok (by decide +kernel), exists_ok (by decide +kernel), exists_ok (by decide +kernel)⟩
/-- Inside a loop of one entry; in a handler; as a child of a launch of two plies. -/
def inLoop : State := onCore 0 { strand with loops := [⟨0, 9, 2, 0, 0, false⟩] }
theorem witness_ControlResults : Acts (st 0) 0 ∧ FreeOfE (st 0) cS ∧ SrcS (st 0) 1 cS 5 cS ∧ taken 6 5 = false ∧ taken 1 0 = true ∧ taken 6 0 = true ∧
    loopsAt inLoop.cur (here inLoop) ≠ [] ∧ Acts inLoop 0 ∧
    (let c := { cS with coden := 10 }; let s := { st 0 with cores := [(0, c)] }; (loopsAt s.cur (here s)).length < 6 ∧ after s.cur ≤ 9 ∧ 9 < (here s).coden ∧
      beyondTop (loopsAt s.cur (here s)) 9 = false ∧ FreeOfE s (here s)) := by
  refine ⟨rfl, rfl, src_s1, ?_, ?_, ?_, ?_, rfl, ?_, ?_, ?_, ?_, rfl⟩ <;> decide +kernel
theorem witness_TaskControlAndCsrResults : (let c := { cS with nply := 2 }; let s := { st 0 with cores := [(0, c)] }
      SrcS s 0 (here s) 0 (here s) ∧ SrcS s 1 (here s) 5 (here s) ∧ (match (here s).task with | some t => t.ply | none => 0) + 1 < (here s).nply ∧
      holdsGroup (here s) = false) ∧ MayExit cS ∧ cS.arch.uiActive = false ∧ cS.arch.skip ≠ some 0 ∧
    (let s := onCore 0 { strand with skip := some 0 }; (here s).arch.skip = some s.cur.pos) ∧
    (let s := onCore 0 { strand with uiActive := true }; (here s).arch.uiActive = true ∧ (loopsAt s.cur (here s)).length = (here s).arch.uiDepth) ∧
    (∃ v, csrValue (st 0) (st 0).cur cS 0 = some v) ∧ (∃ n, n < 1024 ∧ csrRw n = true ∧ csrFmtOk n 0 = true ∧ (csrValue (st 0) (st 0).cur cS n).isSome) := by
  refine ⟨⟨rfl, rfl, ?_, rfl⟩, ⟨rfl, rfl⟩, rfl, ?_, rfl, ⟨rfl, rfl⟩, ⟨_, rfl⟩, 0x11, ?_, ?_, ?_, ?_⟩ <;> decide +kernel
/-- An aligned offset at the end of the scratchpad, and a device address. -/
theorem witness_LoadsIssue : CanLand (st 6) (here (st 6)) ∧ Acts (st 6) 0 ∧ (63 : BitVec 7).toNat ≤ 63 ∧ Addr (st 6) 0x80000000003FFFF8 8 8 false (.spad 0x3FFFF8) ∧
    Addr (st 6) 0x40 512 64 false (.dev 0x40) ∧ (let f : MA := ⟨0, 63, 0, 0, 0x1000⟩; (f.off.extractLsb' 10 3).toNat ≤ 4) := by
  refine ⟨?_, rfl, ?_, rfl, rfl, ?_⟩
  · constructor <;> decide +kernel
  · decide
  · decide
theorem witness_StoresIssue : Acts (st 6) 0 ∧ Addr (st 6) 0x80000000003FFE00 512 64 true (.spad 0x3FFE00) ∧ Addr (st 6) 8 8 8 true (.dev 8) ∧
    SrcS (st 6) 1 (here (st 6)) 5 (here (st 6)) ∧ SrcV (st 6) 1 (here (st 6)) 0x300000002 (here (st 6)) ∧
    (∃ c', logSpad (st 6).cur (here (st 6)) 0x3FFE00 512 = .ok c') ∧ (here (st 6)).arch.stores.length + waitingStores (here (st 6)) < 256 ∧
    (let f : MX := ⟨0, 63, 0, 0, 3, 31⟩; f.fn.toNat < 32 ∧ ∃ l, gatherAddrs f false (st 6).cur (here (st 6)) = .ok l) ∧
    (let f : MX := ⟨0, 1, 0, 0, 3, 0⟩; f.ws = 0 ∧ ∃ l, gatherAddrs f true (st 6).cur (here (st 6)) = .ok l) := by
  refine ⟨rfl, rfl, rfl, rfl, rfl, exists_ok ?_, ?_, ⟨?_, exists_ok ?_⟩, rfl, exists_ok ?_⟩ <;> decide +kernel
/-- A rank-2 descriptor of 16 × 128 elements in FMT 0 in slot d31; a pattern of one row of 64 elements at address 0. -/
def desc : BitVec 2048 := BitVec.ofNat 2048 (2 ^ 36 + 16 * 2 ^ 128 + 128 * 2 ^ 160 + 4 * 2 ^ 384 + 7 * 2 ^ 392 + 8192 * 2 ^ 640)
def pattern : VWord := BitVec.ofNat 4096 (64 * 2 ^ 192 + 2 ^ 256 + 2 ^ 320 + 2 ^ 384)
def inSlot : State := onCore 6 { strand with slots := [(31, desc)], v := [(1, pattern)], ports := [(7, ⟨pattern.setWidth 768, 0, 0, (0, 0), 0, [], []⟩)] }
theorem witness_SlotsAndStreams : Slot (here inSlot) 31 desc ∧ Acts inSlot 0 ∧ CanLand inSlot (here inSlot) ∧ (readS (here inSlot) 3).toNat % 64 = 0 ∧
    (readS (here inSlot) 3).toNat < 2 ^ 56 ∧ recordOk desc = true ∧ dRly desc = false ∧ dRsh desc = false ∧ tagOk desc 7 = true ∧ SrcS inSlot 1 (here inSlot) 5 (here inSlot) ∧
    patOk (here inSlot) false (pattern.setWidth 768) = true ∧ patPartial (here inSlot) (pattern.setWidth 768) = false ∧ patOk (here inSlot) true (pattern.setWidth 768) = true ∧
    (FMap.find (here inSlot).arch.ports 7).isSome = true ∧ inSlot.cur.ckpt = true ∧ (∃ c', DstS inSlot 63 0 1 5 (here inSlot) c') := by
  refine ⟨⟨?_, rfl⟩, rfl, ⟨?_, ?_⟩, ?_, ?_, ?_, ?_, ?_, ?_, rfl, ?_, ?_, ?_, ?_, ?_, exists_ok ?_⟩ <;> decide +kernel
theorem witness_TensorAccesses : Slot (here inSlot) 31 desc ∧ fmtIsByte (slotFmt desc) = true ∧ 2 ≤ dRank desc ∧ CanLand inSlot (here inSlot) ∧
    (((List.range 128).map fun e => (e, tensorCoords desc (readV (here inSlot) 0) 1 e)).any fun p =>
      partialRead inSlot (here inSlot).ctx desc p.2 0) = false ∧ SrcV inSlot 1 (here inSlot) pattern (here inSlot) := by
  refine ⟨⟨?_, rfl⟩, ?_, ?_, ⟨?_, ?_⟩, ?_, rfl⟩ <;> decide +kernel
/-- A copy of one byte from VA 0 to VA 0; an accumulate of operator 1 on a 32-bit unit at VA 0. -/
def copyRec : VWord := BitVec.ofNat 4096 ((List.range 8).foldl (fun n j => n + 2 ^ (1024 + 32 * j)) 0)
def onShuttle : State := onCore 6 { strand with v := [(1, copyRec), (2, BitVec.ofNat 4096 (2 ^ 64))] }
theorem witness_ShuttleAndVentPosts : Acts onShuttle 0 ∧ cpOk (here onShuttle) false (copyRec.setWidth 2432) = true ∧ cpOk (here onShuttle) true (copyRec.setWidth 2432) = true ∧
    (here onShuttle).arch.cmds.length < 64 ∧ (∃ c', DstS onShuttle 63 0 1 0 (here onShuttle) c') ∧
    (let f : MX := ⟨0, 0, 0, 0, 2, 7⟩; acOk false (accRec onShuttle f) = true ∧ acOk true (accRec onShuttle f) = true) ∧ CanLand onShuttle (here onShuttle) ∧
    (let f : MX := ⟨0, 63, 0, 1, 3, 0x67⟩; f.fn.toNat / 8 % 8 ≤ 4 ∧ (readS (here onShuttle) f.ix.toNat).toNat % 8 = 0) ∧
    (readS (here onShuttle) 1).toNat < 1024 ∧ vtOk 0 (diePresent onShuttle) 0 = true ∧ (readS (here onShuttle) 0).toNat < 2 ∧
    ((readS (here onShuttle) 1).toNat < 2 ^ 13 ∧ (readS (here onShuttle) 1).toNat % 4096 ≠ 0) := by
  refine ⟨rfl, ?_, ?_, ?_, exists_ok ?_, ⟨?_, ?_⟩, ⟨?_, ?_⟩, ⟨?_, ?_⟩, ?_, ?_, ?_, ?_, ?_⟩ <;> decide +kernel
theorem witness_copy_limit : (let c := here onShuttle; let x : ShCmd := ⟨0, 0, .fill, 0, none, none, 0, 0, false, 0, 0, 0, none, false, false, 0, 0, none, 0, 0, false, false, 0, [], false, none⟩
    let s := { onShuttle with cores := [(0, { c with arch := { c.arch with cmds := List.replicate 64 x } })] }
    cpOk (here s) true (copyRec.setWidth 2432) = true ∧ 64 ≤ (here s).arch.cmds.length) := by decide +kernel
/-- Context 0 is valid; its first GiB is mapped to HBM of die 0, readable and writable under a PLAIN key slot, through TLB t; a launch record stands at 4096. -/
def mapped (t : Nat) (s : State) : State :=
  { s with mod := { s.mod with ready := true, stage := 8, mode := 1, active := 1, keys := [(0, ⟨.plain, 0, false, 0⟩)] }, tlbs := [(t, [⟨0, 2, 0, 0xF⟩])]
           mem := [(0, 1), (4096, 0x31), (4097, 0x4C), (4098, 0x57), (4099, 0x44), (4100, 1), (4102, 2), (4104, 1), (4120, 1), (4124, 1), (4160, 2), (4161, 2), (4416, 1)] }
/-! #### A long read that changes nothing -/

/-- A piece of a read is granted out of the TLB on the HBM of another module: nothing of the state changes. -/
def stillPiece (s : State) (t ctx : Nat) (m : MasterT) (p : Nat × Nat × Nat) : Bool :=
  match translate s t ctx p.1 .read m with
  | .ok ph _ e => ph.loc == 0 && (localDie s ph.die).isNone && !pteRoc e && pteLoc e != 3 && decide (ph.pa % 2 ^ 52 + p.2.1 ≤ 256000000000) &&
      (FMap.get [] s.tlbs t).any fun x => x.ctx == ctx && x.vpn == p.1 / 2 ^ lvlShift x.lvl
  | .fault _ _ _ => false
theorem vaRead_still {s : State} {t ctx va n : Nat} {m : MasterT} (h0 : ctxSinter s ctx = 0)
    (h : ∀ p ∈ pieces8 va n (n / 8 + 2), stillPiece s t ctx m p = true) : ∃ v s1, vaRead s t ctx va n m = .ok (v, s1) := by
  unfold vaRead vaGet
  generalize pieces8 va n (n / 8 + 2) = l at h
  generalize (0 : Nat) = a
  induction l generalizing a with
  | nil => exact ⟨_, _, rfl⟩
  | cons p l ih =>
    have hp := h p (.head _)
    rw [List.foldlM_cons]
    unfold stillPiece at hp
    cases ht : translate s t ctx p.1 .read m with
    | fault c lv e => rw [ht] at hp; cases hp
    | ok ph lv e =>
      rw [ht] at hp
      simp only [Bool.and_eq_true, beq_iff_eq, bne_iff_ne, ne_eq, Bool.not_eq_true', decide_eq_true_eq, Option.isNone_iff_eq_none] at hp
      obtain ⟨⟨⟨⟨⟨h1, h2⟩, h3⟩, h4⟩, h5⟩, h6⟩ := hp
      have h7 : (tlbFind s t ctx p.1).isSome = true := by simpa only [tlbFind, List.find?_isSome, List.any_eq_true] using h6
      have e1 : tlbFill s t ctx p.1 lv e = s := by simp only [tlbFill, h4, h3, h7, h6, if_false, Bool.false_and, if_true, Bool.false_eq_true]
      have e2 : checkAbsent s ph.loc ph.die (ph.pa % 2 ^ 52) p.2.1 = s := by
        rw [checkAbsent, if_neg]; rw [h1]; show ¬ _ > 256000000000; omega
      have e3 : homeUse s ctx p.1 ph = s := by simp only [homeUse, h2]
      have e4 : wsUnit s (2 ^ 20 + t) ph = s := by simp [wsUnit, h1]
      have e6 : homeTake s ctx p.1 p.2.1 ph = (homeRead s ctx p.1 p.2.1 ph, s) := by simp [homeTake, lineBad, l2Bad, h2]
      have e5 : sinterBy s m ctx p.1 ph 8 = s := by
        unfold sinterBy; split
        · simp [sinter, h0]
        · rfl
      simp only [e1, e2, e6, e3, e4, e5]
      exact ih (fun q hq => h q (.tail _ hq)) _
/-- The same, mapped to the HBM of die 0 of another module. -/
def mappedFar (t : Nat) (s : State) : State := { mapped t s with tlbs := [(t, [⟨0, 2, 0, 0x400000F⟩])] }
theorem witness_MatrixDrain : let f : XT := ⟨0, 3, 0x3FF⟩
    Acts (st 8) f.pr ∧ f.arg.toNat < 1024 ∧ tilePhase (here (st 8)) f.tile.toNat = 0 ∧ (∃ c', Touched (st 8) f.tile.toNat false (here (st 8)) c') ∧
    ecDk (FMap.get 0 (here (st 8)).arch.ecfg 3) = false := by
  refine ⟨rfl, ?_, ?_, exists_ok ?_, ?_⟩ <;> decide +kernel
/-- A drain of row 255 to the scratchpad, 1024 bytes apart, as raw f32. -/
theorem witness_MatrixDrain_scratchpad : let g : BitVec 2048 := BitVec.ofNat 2048 (1 + 2 ^ 202); let c := { here (st 8) with arch := { strand with ecfg := [(3, g)] } }
    ecDk g = true ∧ ecOff g 2 + 255 * ecOff g 3 + 1024 ≤ 0x400000 ∧ (ecOff g 2 + 255 * ecOff g 3 + 1023) / 2 ^ 18 = (ecOff g 2 + 255 * ecOff g 3) / 2 ^ 18 ∧
    bankFmt c 0 ≠ 6 ∧ ∃ c', logSpad (st 8).cur c (ecOff g 2 + 255 * ecOff g 3) 1024 = .ok c' := by
  refine ⟨?_, ?_, ?_, ?_, exists_ok ?_⟩ <;> decide +kernel
theorem witness_Draws : (let x := drawParams (here (st 5)); dpQl x ≤ 30 ∧ dpJ x < 2 ^ dpQl x ∧ dpJ x * 256 + 256 - 1 ≤ 0x7FFFFFFF) ∧ Acts (st 5) 0 := by
  refine ⟨⟨?_, ?_, ?_⟩, rfl⟩ <;> decide +kernel
/-- f32 to bf16 by a draw, i32 to f32, i16 to f32, i8 to i16. -/
theorem witness_ConversionsAndQuantisation : Acts (st 2) 0 ∧ cvtPair 4 6 = true ∧ convFieldsOk 4 6 3 false false 1 = true ∧ widenPair 2 6 = true ∧ widenPair 0 2 = true ∧
    narrowPair 6 8 = true ∧ convFieldsOk 6 8 4 false true 1 = true ∧ (∃ l, SrcVs (st 2) 60 4 (here (st 2)) l) ∧ (∃ c', DstVs (st 2) 60 0 3 [(5, -1), (6, -1), (7, -1), (8, -1)] (here (st 2)) c') := by
  refine ⟨rfl, ?_, ?_, ?_, ?_, ?_, ?_, exists_ok ?_, exists_ok ?_⟩ <;> decide +kernel
theorem witness_FencesAndSlotTableLoads : Acts (st 6) 0 ∧ (st 6).cur.ckpt = true ∧ (let f : MX := ⟨0, 0, 0, 0, 7, 0x3C⟩
      f.fn.toNat < 64 ∧ f.fn.toNat % 8 ≤ 4 ∧ f.fn.toNat / 8 ≠ 0 ∧ 0 < f.ix.toNat ∧ f.ix.toNat < 8) ∧
    (let s := mappedFar 0 (onCore 0 { strand with s := [(1, 8192 + 58 * 32)] }); let f : SC := ⟨0, 0x1F80 + 127, 1, 0⟩
      Acts s 0 ∧ f.tgt.toNat / 128 < 64 ∧ f.tgt.toNat < 2 ^ 14 ∧ SrcS s f.sa (here s) 10048 (here s) ∧ SrcS s (f.tgt.setWidth 7) (here s) 0 (here s) ∧
      vaHeld s s.cur.core (here s).ctx 8192 4096 (mUser.by 0 0 0 0) = false ∧
      ∃ img s1, vaRead s s.cur.core (here s).ctx 8192 4096 (mUser.by 0 0 0 0) = .ok (img, s1)) := by
  refine ⟨rfl, rfl, ⟨?_, ?_, ?_, ?_, ?_⟩, rfl, ?_, ?_, rfl, rfl, ?_, vaRead_still ?_ ?_⟩ <;> decide +kernel
/-- Queue 0 with memory mapped; in a buffer of 8 units at unit 3. -/
def qmem : State := mapped (tlbSpindle 0) qst
def qbuf : State := { qst with queues := [(0, { qst.queue 0 with stack := [⟨0, 8, 3⟩] })] }
def pk (ext : List Word) (imm : BitVec 32) : Pkt := ⟨0, 0, 0, 0, 0, BitVec.ofNat 3 ext.length, 0, 0, imm, ext⟩
def okT (t : TRes) : Bool := match t with | .ok _ _ _ => true | .fault _ _ _ => false
theorem exists_tr {t : TRes} (h : okT t = true) : ∃ ph l e, t = .ok ph l e := by
  cases t with
  | ok ph l e => exact ⟨ph, l, e, rfl⟩
  | fault c l e => cases h
theorem witness_CommandRegisterResults : qst.absent = none ∧ WellShaped qst (pk [] 0) 0 ∧ WellShaped qbuf (pk [] 0) 0 := by
  refine ⟨rfl, ⟨rfl, rfl, rfl, rfl, ?_⟩, ⟨rfl, rfl, rfl, rfl, ?_⟩⟩
  · intro fr t h; cases h
  · intro fr t h; cases h; decide
/-- At ring level offsets 1 and 9 of 10 unconsumed units; in the buffer −3 and 4. -/
theorem witness_CommandControlFlow : (MayMove qst 1 ∧ MayMove qst 9) ∧ (MayMove qbuf (-3) ∧ MayMove qbuf 4) ∧ (atQ qbuf).stack ≠ [] ∧ (atQ qst).stack = [] ∧
    (atQ qst).stack.length < 8 := by
  refine ⟨⟨?_, ?_⟩, ⟨?_, ?_⟩, ?_, rfl, ?_⟩
  · show 1 ≤ (1 : Int) ∧ (1 : Int) < _; decide +kernel
  · show 1 ≤ (9 : Int) ∧ (9 : Int) < _; decide +kernel
  · show 0 ≤ (3 : Int) + -3 ∧ _; decide +kernel
  · show 0 ≤ (3 : Int) + 4 ∧ _; decide +kernel
  · decide +kernel
  · decide +kernel
theorem witness_CommandMemoryAccess : qmem.absent = none ∧ WellShaped qmem (pk [] 8192) 0 ∧ cmdAddr qmem (pk [] 8192) % 8 = 0 ∧
    (∃ ph l e, translate (starts qmem 0 (atQ qmem) (pk [] 8192) false .access) (tlbSpindle 0) 0 8192 .read mQueue = .ok ph l e) ∧
    (∃ ph l e, translate (counted qmem) (tlbSpindle 0) 0 8192 .write mQueue = .ok ph l e) ∧
    (∃ ph l e, translate qmem (tlbSpindle 0) 0 8192 .amo mQueue = .ok ph l e) ∧
    (match translate qmem (tlbSpindle 0) 0 8192 .amo mQueue with | .ok ph _ _ => ph.die = qmem.dieBase + qmem.curQ / 8 ∧ ph.loc ≠ 3 | _ => False) ∧
    (let s := { qmem with tlbs := [(tlbSpindle 0, [⟨0, 2, 0, 0x80000F⟩])] }; (s.die ((s.dieBase + s.curQ / 8) % 8)).unacked = [] ∧
      ∀ x ∈ [translate (starts s 0 (atQ s) (pk [] 8192) false .access) (tlbSpindle 0) 0 8192 .read mQueue, translate (counted s) (tlbSpindle 0) 0 8192 .write mQueue,
        translate s (tlbSpindle 0) 0 8192 .amo mQueue], (match x with
          | .ok ph _ _ => ph.die ≠ s.dieBase + s.curQ / 8 ∧ ph.loc ≠ 3 ∧ (localDie s ph.die).isSome = true ∧ diePresent s ph.die = true | _ => False)) := by
  refine ⟨rfl, ⟨rfl, rfl, rfl, rfl, ?_⟩, ?_, exists_tr ?_, exists_tr ?_, exists_tr ?_, ?_, ?_, ?_⟩
  · intro fr t h; cases h
  · decide +kernel
  · decide +kernel
  · decide +kernel
  · decide +kernel
  · show _ ∧ _; constructor <;> decide +kernel
  · decide +kernel
  · intro x hx
    simp only [List.mem_cons, List.not_mem_nil, or_false] at hx
    rcases hx with rfl | rfl | rfl <;> (show _ ∧ _ ∧ _ ∧ _) <;> decide +kernel
theorem witness_GtcWait : WellShaped qst (pk [] 0) 0 ∧ (creg qst 0).toNat ≤ qst.gtc ∧ qst.gtc < (creg qst 1).toNat ∧
    (let p : QPkt := ⟨0, true, 0, .gtc 5, none, 4, 0, 0⟩; let s := { qst with queues := [(0, { qst.queue 0 with out := [p] })] }
      (s.queue 0).out = [p] ∧ (s.queue 0).frozen = false) := by
  refine ⟨⟨rfl, rfl, rfl, rfl, ?_⟩, ?_, ?_, rfl, rfl⟩
  · intro fr t h; cases h
  · decide +kernel
  · decide +kernel
/-- A read of 8 bytes at 8192. -/
def xact9 : Xact := ⟨9, 0, 0, 0, 0, 0, 8192, 8, ⟨0, 0, 8192, false, false, false, 0⟩, .rd, none, none, 0, 0, 0, [], .sent, 0, 0, false, .none, 0, 0, false, 0, 0, false, []⟩
/-- A wait on one signal at 8192 with condition 0; onabt; abort; flush. -/
theorem witness_CommandWaiting : WellShaped qmem (pk [8192] 0) 1 ∧ Numbered qmem ∧ Quiet qmem ∧ (∃ vs s1,
      waitReads 0 0 (atQ qmem).where [8192] [] (starts qmem 0 (atQ qmem) (pk [8192] 0) false (.ask false [8192] [])) = .ok (vs, s1)) ∧
    WellShaped qst (pk [8, 16] 65536) 2 ∧ (65536 : BitVec 32).toNat ≤ 65536 ∧ (abortQueue (goes qst 1) 0 (-1) 4).absent = none ∧
    (let x : Xact := { xact9 with mkind := 4, path := 6, kind := .wr 5 }; let s : State := { qst with xacts := [x] }; queueBusy s 0 1 = true ∧ writesBefore s 0 1 = true ∧
      writesBefore qst 0 1 = false) := by
  refine ⟨⟨rfl, rfl, rfl, rfl, ?_⟩, ?_, ⟨?_, ?_⟩, exists_ok2 ?_, ⟨rfl, rfl, rfl, rfl, ?_⟩, ?_, ?_, ?_⟩
  · intro fr t h; cases h
  · intro p h; cases h
  · decide +kernel
  · decide +kernel
  · decide +kernel
  · intro fr t h; cases h
  · decide
  · decide +kernel
  · decide +kernel
theorem witness_CommandsHandWorkOn : WellShaped qmem (pk [8] 0) 1 ∧ (∃ l s1, readLaunch qmem 0 4096 (atQ qmem).where = .ok (l, s1)) ∧
    (let f := pk [8] 8; 1 ≤ f.imm.toNat ∧ f.imm.toNat < 2 ^ 31 ∧ f.imm.toNat % 8 = 0 ∧ (creg qmem f.ra).toNat % 8 = 0) ∧
    (cmdAddr qmem (pk [] 64) % 64 = 0 ∧ (∃ ph l e, translate qmem (tlbSpindle 0) 0 64 .amo mQueue = .ok ph l e) ∧
      recordHeld (starts qmem 0 (atQ qmem) (pk [] 64) false (.note 64 0)) 0 64 = false ∧ ∃ s1, notifyEvent (starts qmem 0 (atQ qmem) (pk [] 64) false (.note 64 0)) 0 64 0 = .ok s1) ∧
    (((58 : Word) * 32 + 31).toNat < 2 ^ 11 ∧ ∃ img s1, vaRead (mappedFar (tlbSpindle 0) qst) (tlbSpindle 0) 0 8192 4096 (mQ qmem 0 (atQ qmem).where) = .ok (img, s1)) ∧
    (let v : Word := 0; v.getLsbD 0 = false ∧ v.getLsbD 14 = false ∧ (v.extractLsb' 1 9).toNat = (atQ qmem).qctx.toNat ∧ v.getLsbD 10 = false ∧
      spanAligned (v.extractLsb' 11 2).toNat ((v.extractLsb' 16 40).toNat * 65536) = true) := by
  refine ⟨⟨rfl, rfl, rfl, rfl, ?_⟩, exists_ok2 ?_, ⟨?_, ?_, ?_, ?_⟩, ⟨?_, exists_tr ?_, ?_, exists_ok ?_⟩, ⟨?_, vaRead_still ?_ ?_⟩, ?_, ?_, ?_, ?_, ?_⟩
  · intro fr t h; cases h
  all_goals decide +kernel
/-- Bring-up stages 0 to 7 on a machine without rails lost; stage 2 with every link trained; temperatures either side of the trip; refresh edges. -/
def atStage (n : Nat) : State := { State.reset with mod := { State.reset.mod with stage := n } }
def trained (l : LinkState) : State :=
  { atStage 2 with dies := (List.range 8).map fun d => (d, { Die.init with links := (List.range 11).map fun k => (k, { Link.init with st := l }) }) }
theorem witness_ModuleEvents : (∀ n < 8, (atStage n).mod.ready = false ∧ (atStage n).mod.fail = false ∧ (atStage n).mod.rails = true ∧ (atStage n).mod.stage = n) ∧
    ((∀ x ∈ moduleLinks, linkState (trained .active) x = .active) ∧ ∀ x ∈ moduleLinks, linkState (trained .lowpower) x = .lowpower) ∧
    (5 ≤ ((5 : Word).extractLsb' 0 3).toNat ∧ ((4 : Word).extractLsb' 0 3).toNat < 5) ∧
    (let s : State := { State.reset with gtc := 8, mod := { State.reset.mod with ready := true, pend := true, pendAt := 7, mode := 1 } };
      s.mod.pend = true ∧ s.mod.ready = true ∧ s.mod.pendAt < s.gtc ∧ s.mod.mode ≠ 0) ∧
    (let s : State := { State.reset with gtc := 4607, dies := [(0, { Die.init with wsRefresh := some 1 })] };
      4096 * 1 ≤ s.gtc % 32768 ∧ s.gtc % 32768 < 4096 * 1 + 512 ∧ (let t : State := { s with gtc := 4608 }; 4096 * 1 + 512 ≤ t.gtc % 32768 ∧ (t.die 0).wsRefresh = some 1)) := by
  decide +kernel
/-- A well-set queue; a queue whose ring is misaligned; the highest tail in the ring and the first out of it; a domain master with a link. -/
def setQ (x : Queue) : State := { mapped 0 State.reset with queues := [(63, x)] }
theorem witness_RegisterEvents : (State.reset.mod.rails = true ∧ State.reset.mod.ready = false ∧ 0x39 % 8 + 7 ≤ 8 ∧ (mapped 0 State.reset).mod.ready = true) ∧
    (let x : Queue := { Queue.init with qbase := 4096, tail := 511 }; let y : Queue := { x with qbase := 64 };
      (((setQ x).queue 63).en = false ∧ 12 ≤ x.size.toNat ∧ x.size.toNat ≤ 24 ∧ x.qbase.toNat % 2 ^ x.size.toNat = 0 ∧ ctxOk (setQ x) x.qctx.toNat = true ∧
        x.tail.toNat < 2 ^ (x.size.toNat - 3)) ∧ y.qbase.toNat % 2 ^ y.size.toNat ≠ 0 ∧
      (2 ^ (x.size.toNat - 3) ≤ ((512 : Word).extractLsb' 0 22).toNat ∧ ¬ 2 ^ (x.size.toNat - 3) ≤ ((511 : Word).extractLsb' 0 22).toNat)) ∧
    ((∀ q ∈ State.reset.queues, q.2.en = false) ∧ ((0xF3 : Word).extractLsb' 4 4).getLsbD ((0xF3 : Word).extractLsb' 0 2).toNat = true) ∧
    ((5 : Word).extractLsb' 30 10 = 0 ∧ isMaster { State.reset with mod := { State.reset.mod with present := 2, modidx := 1 } } = true ∧
      isMaster { State.reset with mod := { State.reset.mod with present := 3, modidx := 1 } } = false) ∧
    (((1 - 5 : Word).toInt - (9 - 5 : Word).toInt) / 2 ≤ -2 ∧ 2 ≤ ((9 - 5 : Word).toInt - (1 - 5 : Word).toInt) / 2 ∧ State.reset.gtcStep = 0 ∧ State.reset.gtcStepAt = 0) := by
  decide +kernel
/-- The largest HDM range where no context maps anything, and one past it. -/
theorem witness_RegisterEvents_hdm : let s := { State.reset with mod := { State.reset.mod with ready := true } }
    s.mod.ready = true ∧ ((0x7700000000 : Word).extractLsb' 30 10).toNat = 476 ∧ ¬ hdmMapped s 0 476 ∧ 476 < ((0x7740000000 : Word).extractLsb' 30 10).toNat := by
  have h : ∀ c < 512, ctxV { State.reset with mod := { State.reset.mod with ready := true } } c = false := by decide +kernel
  refine ⟨rfl, by decide +kernel, ?_, by decide +kernel⟩
  rintro ⟨c, hc, hv, _⟩
  rw [h c hc] at hv; cases hv
/-- A host window on context 0 through port 0; a leaf in the span of a shoot-down and one outside it. -/
def hreq : HostReq := ⟨0, 5, none, 8192, 8, 77⟩
def hst : State := let s := mapped 1000 State.reset; { s with mod := { s.mod with winctx := 0x200 } }
def spanShoot : Shoot := ⟨0, false, 2, false, 0, .reg, some 0, true⟩
theorem witness_HostEvents : (hreq.n ≤ 512 ∧ hostOpen hst hreq = some 0 ∧ isOk (vaRead hst 1000 0 (winVa hst 8192) 8 (mHost hst hreq)) = true ∧ hostHeld hst hreq .read = false) ∧
    (hostOpen { hst with mod := { hst.mod with winctx := 0 } } hreq = none ∧ hst.mod.ready = true) ∧
    hostHeld hst hreq .write = false ∧ (let r := vaWrite hst 1000 0 (winVa hst 8192) 8 77 (mHost hst hreq); r.2 = none ∧ r.1.absent = none) ∧
    (hreq.off % 8 = 0 ∧ okT (translate hst 1000 0 (winVa hst 8192) .amo (mHost hst hreq)) = true ∧ hostHeld hst hreq .amo = false) ∧
    (let s := { trained .active with mod := hst.mod, mem := hst.mem, tlbs := [(1000, [⟨0, 2, 0, 0x80004F⟩])] }; hostOpen s hreq = some 0 ∧ hostHeld s hreq .amo = false ∧
      (match translate s 1000 0 (winVa s 8192) .amo (mHost s hreq) with
        | .ok ph _ _ => ph.die = 1 ∧ portDie s hreq.port = 0 ∧ ph.loc = 0 ∧ (ph.sysatom || isFreecnt s ph) && diePresent s ph.die | _ => false) = true) ∧
    (let s := { hst with mod := { hst.mod with hdm0 := 1 } }; 64 % 64 + 64 ≤ 64 ∧ 64 + 64 ≤ hdmSize s 0 * 2 ^ 30) ∧
    (hst.shoots = [] ∧ shootDone hst spanShoot 0 = true ∧ leafInSpan spanShoot ⟨0, 2, 0, 0xF⟩ = true ∧ leafInSpan spanShoot ⟨0, 2, 1, 0xF⟩ = false) ∧
    atsDone hst ⟨0, 0, 0, 4096, 0⟩ = true ∧
    (let s : State := { hst with cores := [(70, { Core.init with mode := .frozen (Trap.illegal 2 0) 3 0 })] }; (let v : Word := 70 * 8; (v.extractLsb' 0 3).toNat = 0 ∧ localDie s ((v.extractLsb' 3 16).toNat / 64) = some 1 ∧ (s.core 70).mode = .frozen (Trap.illegal 2 0) 3 0)) ∧
    ((37 : Word).extractLsb' 0 3).toNat = 5 := by decide +kernel
/-- An empty slot and a filled one; equal and unequal halves of KEYDATA; a slot being destroyed with no access under it. -/
theorem witness_KeyEvents : (hst.mod.ready = true ∧ hst.mod.keyBusy = false ∧ (keySlotOf hst 5).st = .plain ∧ ctxOk hst (kOwner 5) = true) ∧
    (∃ v : Word, (keySlotOf hst v).st = .empty ∧ ctxOk hst (kOwner v) = true) ∧ ((0 : BitVec 512).extractLsb' 0 256 = (0 : BitVec 512).extractLsb' 256 256 ∧
      (1 : BitVec 512).extractLsb' 0 256 ≠ (1 : BitVec 512).extractLsb' 256 256) ∧
    (let s := { hst with mod := { hst.mod with keys := [(3, { KeySlot.init with st := .destroying })] } };
      (FMap.get KeySlot.init s.mod.keys 3).st = .destroying ∧ slotInUse s 3 = false) ∧
    (let s := { hst with mod := { hst.mod with fwSvn := 1, svnFused := 0 } }; s.mod.ready = true ∧ s.mod.svnFused < s.mod.fwSvn) := by
  refine ⟨?_, ⟨0x100, ?_⟩, ?_, ?_, ?_⟩ <;> decide +kernel
/-- An answer that has property P. -/
def okAnd {ε α : Type} (x : Except ε α) (P : α → Bool) : Bool := match x with | .ok a => P a | .error _ => false
def oneDie (y : Die) : State := { State.reset with dies := [(0, y)] }
theorem witness_SlotTableEvents : (let s : State := { State.reset with slotLoads := [⟨0, 58, [], 256, .inl (0, 1), none⟩, ⟨0, 59, [], 256, .inr 0, some 3⟩, ⟨0, 0, [(0, 0x80)], 0, .inr 0, none⟩], gtc := 1 };
      s.slotLoads[0]? = some ⟨0, 58, [], 256, .inl (0, 1), none⟩ ∧ localDie s 0 = some 0 ∧ unitExists 0 59 = false ∧ unitExists 0 58 = true ∧ 256 % 256 = 0 ∧
      slotTableOk 0 58 [] = true ∧ s.gtc < 256 ∧ 0 < s.gtc ∧ slotTableOk 0 0 [(0, 0x80)] = false ∧ s.slotLoads[1]? = some ⟨0, 59, [], 256, .inr 0, some 3⟩) ∧
    (let s := { oneDie { Die.init with slotTabs := [(0, ⟨[], [(256, [(0, 1)])]⟩)] } with gtc := 256 };
      nextTab ((s.die 0).slotTab 0).next = some (256, [(0, 1)]) ∧ 256 ≤ s.gtc) ∧
    (let s : State := { State.reset with cores := [(3, { Core.init with waits := [.slotld 7 1] })] }; (s.core 3).waits = [.slotld 7 1]) := by decide +kernel
/-- A best-effort packet of one flit waits: at router 0 for port 1; at the end of external link 0 for the line. -/
def packet (ddie dep : Nat) : Packet := ⟨mkHdr 1 0 0 0 ddie dep false 0 0 0 0 0 0 0, [], [], .plain⟩
def waiting (u ddie dep : Nat) (l : Link) : State := { oneDie { Die.init with routers := [(u, { Router.init with be := [⟨packet ddie dep, 0, false, 0⟩] })], links := [(0, l)] } with gtc := 5 }
def activeLink : Link := { Link.init with st := .active }
theorem witness_FlitEvents : (pickOut (waiting 0 0 5 Link.init) 0 0 1 0 = .best ⟨packet 0 5, 0, false, 0⟩ 0 1 ∧ flitDest 0 0 1 0 = some (0, 1, 3, 0, 1)) ∧
    (let b : BePkt := ⟨packet 8 0, 0, false, 0⟩; let s := { oneDie { Die.init with routers := [(48, { Router.init with out := [(outOf 48 1 0, (b, 0, 1))] })], links := [(0, activeLink)] } with gtc := 5 };
      pickOut s 0 48 1 0 = .best b 0 1) ∧
    (let s := waiting 48 8 0 { activeLink with dirty := [3] }; (linkAt s 0 0).dirty ≠ [] ∧ (linkAt s 0 0).st = .active ∧ frontierFree 48 (linkAt s 0 0) s.gtc = true) ∧
    (let f : Flit := ⟨linkField LaneSt.init 0 3 0 1, .frontier 1 [(1, 5)]⟩; flType f.link = 3 ∧ flRsvd f.link = 0 ∧ flSeq f.link = (((linkAt State.reset 0 0).lane 0).got + 1) % 1024) ∧
    (let s := { oneDie { Die.init with routers := [(0, { Router.init with circ := [(3, [⟨0, [1], 0, false, 0⟩])] })] } with gtc := 256 };
      ∃ f ∈ FMap.get [] ((s.die 0).router 0).circ 3, f.missed = false ∧ f.due + 256 ≤ s.gtc) ∧
    (let s := { waiting 0 0 5 Link.init with gtc := 64 }; ((s.die 0).router 0).be[0]? = some ⟨packet 0 5, 0, false, 0⟩ ∧ 0 + 64 ≤ s.gtc) := by decide +kernel
theorem witness_LinkEvents : (LinkState.detect ∉ [LinkState.down, .active, .lowpower] ∧ LinkState.lowpower ∉ [LinkState.down, .active]) ∧
    (let l := { Link.init with st := .detect, fails := 2 }; (linkAt (waiting 0 0 5 l) 0 0).fails = 2 ∧ (waiting 0 0 5 l).mod.ready = false ∧ (waiting 0 0 5 l).mod.fail = false) ∧
    (let l := { activeLink with replays := List.replicate 65 5 }; (linkAt (waiting 0 0 5 l) 0 0).st = .active ∧ 64 < (linkAt (waiting 0 0 5 l) 0 0).replays.length) ∧
    (let b : ChanBind := ⟨0, false, 7, true, false, false⟩; let s := { waiting 0 0 5 { activeLink with circs := [7] } with cores := [(0, { Core.init with arch := { Arch.init with chans := [(1, b)] } })] };
      7 ∈ crossing s (bothEnds 0 0) ∧ FMap.find (s.core 0).arch.chans 1 = some b ∧ b.ren = true ∧ b.rcirc = 7) ∧
    (let l := { Link.init with st := .lowpower, wakeAt := some 5 }; let s := waiting 0 0 5 l; (linkAt s 0 0).st = .lowpower ∧ (linkAt s 0 0).wakeAt = some 5 ∧ 5 ≤ s.gtc) := by
  decide +kernel
/-- Both ends of the bridge between dies 1 and 0: trained, failing for the third time before READY. -/
theorem witness_LinkEvents_bridge : linkExists 1 8 = true ∧ bothEnds 1 8 = [(1, 8), (0, 9)] ∧ (linkAt (trained .detect) 1 8).st ∉ [LinkState.down, .active, .lowpower] ∧
    (let l := { Link.init with st := .detect, fails := 2 }; let s : State := { atStage 2 with dies := [(1, { Die.init with links := [(8, l)] })] };
      (linkAt s 1 8).fails = 2 ∧ s.mod.ready = false ∧ s.mod.fail = false) ∧ linkExists 0 0 = true := by decide +kernel
/-- A request packet for access 9; a type-10 packet; a write of a destroyed group; a SYS write whose vector is ahead. -/
def reqP : Packet := { packet 0 0 with msg := .req 9 }
def ahead : Packet := ⟨mkHdr 2 0 0 0 0 0 true 0 0 0 0 0 0 0, [], List.replicate 32 5, .plain⟩
theorem witness_PacketEvents : (State.reset.xacts = [] ∧ packetBad 0 { packet 0 0 with hdr := mkHdr 10 0 0 0 0 0 false 0 0 0 0 0 0 0 } = true) ∧
    (∀ t ∈ [2, 4], packetBad 0 { packet 0 0 with hdr := mkHdr t 17 0 0 0 0 false 0 0 0 0 0 0 0 } = true ∧ pkPtype (mkHdr t 17 0 0 0 0 false 0 0 0 0 0 0 0) = t) ∧
    (let p := { packet 0 0 with hdr := mkHdr 2 0 0 0 0 0 false 0 0 0 7 0 0 0 }; packetBad 0 p = false ∧ groupDrops (State.reset.die 0) p.hdr = true) ∧
    ((packetBad 0 ahead = false ∧ groupDrops (State.reset.die 0) ahead.hdr = false ∧ (State.reset.die 0).held.length < 512) ∧ mustHold State.reset 0 ahead = true) ∧
    ((packetBad 0 (packet 0 0) = false ∧ groupDrops (State.reset.die 0) (packet 0 0).hdr = false ∧ isPosted (packet 0 0).hdr = false ∧ pkPtype (packet 0 0).hdr ≠ 6) ∧
      mustHold State.reset 0 (packet 0 0) = false ∧ (acceptPacket (skewed State.reset 0 (packet 0 0)) 0 (packet 0 0)).absent = none) ∧
    (let s := oneDie { Die.init with held := [packet 0 0] }; (s.die 0).held[0]? = some (packet 0 0)) ∧
    (let s := { State.reset with xacts := [xact9] }; mustHold s 0 reqP = false ∧ packetBad 0 reqP = false ∧ groupDrops (s.die 0) reqP.hdr = false ∧ isPosted reqP.hdr = false ∧ pkPtype reqP.hdr ≠ 6 ∧
      s.xacts.find? (fun y => y.id == 9) = some xact9) := by decide +kernel
/-- A finished packet and one whose access has returned; a descriptor at 64 with one event not yet sent, its time past. -/
def descMem (s : State) : State := { s with mem := Memory.writeN s.mem 64 40 (2 ^ 11 + 2 ^ 32 + 2 ^ 64) }
theorem witness_QueueEvents : (let p : QPkt := ⟨0, true, 3, .done, some 5, 4, 0, 0⟩; let s := { qst with queues := [(0, { qst.queue 0 with out := [p] })] };
      s.absent = none ∧ (s.queue 0).en = true ∧ (s.queue 0).out = [p]) ∧
    (let s := descMem { mapped (tlbSpindle 0) State.reset with dies := [(0, { Die.init with tracked := [(0, 64, 0)] })] };
      wayHeld s (tlbSpindle 0) 0 64 40 .amo mQueue = false ∧ linesOpen s (tlbSpindle 0) 0 64 40 mQueue = true ∧ okAnd (vaRead s (tlbSpindle 0) 0 64 40 mQueue) (fun r => let v := r.1;
        decide (fld v 0 8 / 2 ^ 11 % 2 = 1 ∧ (fld v 8 8 + 2 ^ 64 - fld v 16 8) % 2 ^ 64 ≠ 0 ∧ fld v 32 8 + 256 * (fld v 0 8 / 2 ^ 16 % 2 ^ 16) ≤ r.2.gtc ∧
          (vaWrite r.2 (tlbSpindle 0) 0 (64 + 16) 8 (fld v 8 8) mQueue).2 = none ∧ (vaWrite r.2 (tlbSpindle 0) 0 (64 + 16) 8 (fld v 8 8) mQueue).1.absent = none)) = true) := by
  decide +kernel
/-- A launch over core 0: pending at the last frame of a class; reserving; loading; waiting; running with indices 0 to 3 of ply 0 left. -/
def lrec (ph : LPhase) (fr : Nat) : Launch := ⟨7, 0, 1, 0, 0, 2, 0, ph, fr, 1, 0, 1, 8192, 1, 12288, 1, 99, 0, 0, 0, [(0, 0, 0, 4)], [0], [], [0], [], 0, 0, [], [], false,
  [(0, (0, 4))], [], [], [], [], [], 0, 0, 0, none, 0, none, 0, false, [], [], []⟩
def withL (l : Launch) (m : CoreMode) : State := { mapped 0 State.reset with tlbs := [(0, [⟨0, 2, 0, 0x1F⟩])], launches := [l], cores := [(0, { Core.init with mode := m, launch := 7 })] }
theorem witness_LaunchEvents : ((withL (lrec .pending 15) .free).launch 7 = some (lrec .pending 15) ∧ (lrec .pending 15).frames = 15 ∧ (lrec .reserving 14).frames < 15) ∧
    (let x := lrec .reserving 0; let s := withL x .free; x.dies = [s.dieBase + 0] ∧ x.resv = [] ∧ idleHolds s = false ∧
      (∀ i ∈ x.cores, i / 64 = 0 ∧ (s.core i).mode = .free) ∧ slotsFor s x = true) ∧
    (let x := lrec .loading 0; let s := withL x .loading;
      (∀ i ∈ liveCores s x, ∀ p ∈ [(x.dictva, 48 * x.dictn), (x.codeva, 2 * x.coden)], wsHolds s i x.ctx p.1 p.2 mUser = false ∧ wayHeld s i x.ctx p.1 p.2 .exec mUser = false) ∧
      okAnd ((liveCores s x).foldlM (fun (acc : Bool × State) i => do
        let (b, s) ← loadCore acc.2 x i
        pure (acc.1 || b, s)) (false, s)) (fun r => !r.1 && !traceOn r.2 x && r.2.absent.isNone) = true) ∧
    (let x := lrec .waiting 0; let s := withL x .ready; s.launch 7 = some x ∧ s.dieBase + 0 ∈ x.dies ∧ s.dieBase + 0 ∉ x.released ∧ x.relT ≤ s.gtc ∧ s.gtc ≤ x.relT + 1 ∧
      let s1 := (liveOn s x 0).foldl (fun s i => releaseCore s x i) s;
      let s2 := s1.setLaunch { x with phase := .running, released := x.released ++ [s.dieBase + 0] };
      (checkEnd { s2 with agenda := ((liveOn s2 x 0).map fun i => Todo.ev (.taskTake i)) ++ s2.agenda } 7).absent = none) := by
  decide +kernel
def core0 (c : Core) : State := { State.reset with cores := [(0, c)] }
def runWith (a : Arch) : Core := { Core.init with mode := .run, arch := a, keep := a }
theorem witness_TaskEvents : (let s := withL (lrec .running 0) .idle; hasWork s 0 = true ∧ takeable s 0 = [] ∧ (shareOf s 0).isSome = true ∧ traceOn s (lrec .running 0) = false) ∧
    (let g : SGroup := ⟨3, 7, 0, 0, 1, 0, 4, 4, 0, 0, false, none, none, [], 0, []⟩; let p : Parked := ⟨⟨0, 2, none⟩, 9, 0, [], 0, [], 0, [], [], 5, 3, false, 0, 0, 0, 0, 0, []⟩;
      let s : State := { withL (lrec .running 0) .idle with groups := [g], cores := [(0, { Core.init with mode := .idle, launch := 7, parked := [p] })] };
      joinReady s 0 = true ∧ (s.core 0).parked = [p] ∧ s.groups.find? (fun g => g.id == (parkedBack (poolOf s (s.core 0).launch 0) p 0).group) = some g ∧ traceOn s (lrec .running 0) = false) ∧
    (let r : TraceRec := ⟨0, 5, 1, 0, 0, 0, 0⟩; let m := mapped (tlbTrace 0) State.reset; let s := { m with mem := Memory.write m.mem 49 0x20, dies := [(0, { Die.init with trace := [r] })] };
      let s1 := s.setDie 0 { s.die 0 with trace := [] }; traceHeld s 0 r = false ∧ okAnd (vaAmo s1 (tlbTrace 0) 0 ((ctxWord s1 0 6).toNat % 2 ^ 56) 1 64 1 0 (mTrace s 0)) (fun r =>
        r.1.isSome && (vaWrite r.2 (tlbTrace 0) 0 8256 24 5 (mTrace s 0)).2.isNone && (vaRelease r.2 (tlbTrace 0) 0 8280 8 5 (mTrace s 0)).2.isNone) = true) := by
  decide +kernel
/-- Bundle 0 of a dictionary of one; an index past it; a result due; a landing due; data on their way; the end of a loop body; a port that wants an entry
and one that drains to the scratchpad. -/
theorem witness_StrandEvents : (let c : Core := { runWith Arch.init with coden := 2, dictn := 1, code := [(1, 1)] }; let s := core0 c;
      c.arch.fhalt = false ∧ c.arch.fseq ≤ c.arch.lo + 32 ∧ c.arch.flit = 0 ∧ c.arch.fpos < c.coden ∧ (FMap.get 0 (s.core 0).code 0).toNat < c.dictn ∧
        (c.dictn ≤ (FMap.get 0 c.code 1).toNat ∧ (FMap.get 0 c.code 1).toNat < 0x2000)) ∧
    (∀ e ∈ [Eff.s 63 5, .v 0 5 3, .spad [(0, 8, 5, 255)], .land 4 (.s 7 8 true) false, .land 4 (.v 7) true],
      let p : Pend := ⟨e, .m, 0, 0, 6, 0⟩; let a : Arch := { Arch.init with nextM := 1, pend := [p] }; let s := core0 (runWith a);
      (s.core 0).arch.pend = [p] ∧ isDue a p = true) ∧
    (let b : Bob := ⟨4, 1, 0, 0, 0, 0, 0, false, none⟩; let x : Transit := ⟨4, 0, 8, 77, 0, 0⟩; let s := core0 { runWith Arch.init with bobs := [b], transit := [x] };
      (s.core 0).bobs = [b] ∧ (s.core 0).transit = [x] ∧ x.bob = b.id ∧ x.due ≤ s.gtc ∧
        (let r := core0 { runWith Arch.init with bobs := [{ b with race := some 5 }] }; (r.core 0).bobs = [{ b with race := some 5 }])) ∧
    (∀ r ∈ [true, false], ∀ i ∈ [0, 1, 2], let f : Fetched := ⟨0, 5, false, 0, none, 0, []⟩; let t : LoopEntry := ⟨2, 5, 3, 0, i, r⟩;
      let a : Arch := { Arch.init with fq := [f], loops := [t], nextS := 1, nextV := 1, nextM := 1, nextX := 1 }; f.seq < a.lo ∧ t.e = f.pos ∧ a.ctl = none) ∧
    (let g : BitVec 768 := BitVec.ofNat 768 (2 ^ 16 + 5 * 2 ^ 192 + 2 ^ 256 + 2 ^ 320 + 2 ^ 384); let p : Port := ⟨g, 0, 0, (0, 0), 0, [], []⟩;
      let s := core0 (runWith { Arch.init with ports := [(0, p)] }); portWants (s.core 0) 0 = true ∧ (formRead s 0 p.img p.fill (p.moved + p.buf.length)).isSome = true ∧ patSpad g = true) := by
  decide +kernel
/-- A core at a boundary with nothing in its segment; an access that waits to be translated, mapped and unmapped; a fence whose condition holds; a core rolled
back; the first in line for the copy-on-write lock; granules logged and not; rerun pairs; a core ready to be saved; a tile-fetch port. -/
def accRd : Acc := ⟨3, .walk, 8192, 8, 0, 0, 6, 0, 0, 0, none, false, none, false, none, [], false, 0⟩
theorem witness_SegmentEvents : (let a : Arch := { Arch.init with ctl := some (0, .exit (some 5) 0), nextS := 1, nextV := 1, nextM := 1, nextX := 1 }; let c := runWith a;
      atBoundary c = true ∧ storesWalked c = true ∧ shqFull c = false ∧ mapPending c = none ∧ walksLeft (core0 c) 0 = false) ∧
    (let a : Arch := { Arch.init with nextS := 1, nextV := 1, nextM := 1, nextX := 1, fhalt := true }; let c := { runWith { a with uiGo := true } with aflags := 0 };
      atBoundary c = true ∧ endCtl c.arch = false) ∧
    (let s := withL (lrec .running 0) .run; let t := s.setCore 0 { s.core 0 with accs := [accRd] };
      firstAcc t 0 = some accRd ∧ accAt t 0 accRd = .va [accRd.va] ∧ pagePhys accRd accRd.va = none ∧ okT (translate t 0 (t.core 0).ctx accRd.va (accKind accRd) mUser) = true ∧
      okT (translate { t with tlbs := [] } 0 (t.core 0).ctx accRd.va (accKind accRd) mUser) = false) ∧
    (let s := core0 { runWith Arch.init with waits := [.fence 4] }; waitMet s 0 (.fence 4) = true) ∧
    (∀ code ∈ [1, 7, 2, 60], let s := core0 { runWith Arch.init with mode := .rolled (Trap.core code 0 0) 5 }; (s.core 0).mode = .rolled (Trap.core code 0 0) 5 ∧
      (freezeCore (dropOrphans (s.setCore 0 (freshPair (s.core 0))) 0) 0 (Trap.core code 0 0) 5).absent = none ∧ s.launch (s.core 0).launch = none) ∧
    (let s := core0 { runWith Arch.init with mode := .handler (Trap.core 1 0 0) 5 false 0 }; let t := { s with cow := [(0, [0])] };
      (FMap.get [] t.cow (t.core 0).ctx).head? = some 0 ∧ cowHeld t 0 0 0 = false) ∧
    (let c := { runWith Arch.init with spadLog := [(3, 0)] }; errInSegment c (.granule 3) = true ∧ errInSegment c (.granule 4) = false ∧ c.mode = .run ∧ c.rerun = none) ∧
    (let c := { runWith { Arch.init with uiGo := true, nextS := 1, nextV := 1, nextM := 1, nextX := 1 } with rerun := some ⟨1, 0, 0, 0, false, []⟩ };
      c.preempt = false ∧ atBoundary c = true ∧ storesWalked c = true ∧ shqFull c = false ∧
      let d := { c with rerun := some ⟨2, 0, segmentCrc c, c.arch.ctk, false, []⟩ }; segmentCrc d = segmentCrc c) ∧
    (let c := { runWith Arch.init with mode := .idle, preempt := true }; saveRolls c = false ∧ saveReady c = true) ∧
    (let g : BitVec 768 := BitVec.ofNat 768 (8192 * 2 ^ 128 + 5 * 2 ^ 192 + 2 ^ 256 + 2 ^ 320 + 2 ^ 384); let p : TfPort := ⟨g, 0, 0, []⟩;
      let s := withL (lrec .running 0) .run; let t := releasePins (s.setCore 0 { s.core 0 with arch := { Arch.init with tfports := [(0, p)] } }) 0;
      FMap.find (t.core 0).arch.tfports 0 = some p ∧ tileWants (t.core 0) 0 = true ∧ (formTile t 0 p.img p.formed).isSome = true) := by decide +kernel
/-- A tensor of one element at 8192, to be laid out at 16384 or resharded to 24576, bitmaps at 20480 and 20488, its record at 28672. -/
def oneElem : BitVec 2048 := BitVec.ofNat 2048 (2 ^ 128 + 8192 * 2 ^ 512 + 16384 * 2 ^ 576 + 24576 * 2 ^ 704 + 20480 * 2 ^ 832 + 20488 * 2 ^ 896 + 28672 * 2 ^ 960)
theorem witness_EngineEvents : (let s := { State.reset with xacts := [{ xact9 with st := .home }] }; s.xacts.find? (fun y => y.id == 9) = some { xact9 with st := .home } ∧
      mayPerform s { xact9 with st := .home } = true ∧ (performX s { xact9 with st := .home }).absent = none) ∧
    ([(4, 63, (0 : BitVec 512))][0]? = some (4, 63, 0)) ∧
    (∀ r ∈ [true, false], let c : Conv := ⟨1, r, 0, 0, oneElem, false, [], false, false, 8192, []⟩; let d := { c with started := true, gone := [(0, 0)] };
      let s := { mapped (tlbCarder 0) State.reset with convs := [c] };
      relOpen s 0 (relKeyConv 1) = true ∧ convDone d = true ∧ { d with written := true }.written = true ∧ engFrozen s 0 50 = false ∧ engFrozen s 0 62 = false ∧ (writeRec s (tlbCarder 0) c c.img [0, 9]).2 = none ∧
        recordOut s d = false ∧ c.written = false ∧ (∀ x ∈ s.convs, x.written = true → ¬ (x.ctx = c.ctx ∧ dWord x.img 15 = dWord c.img 15)) ∧
        (writeRec (relDone s 0 (relKeyConv 1)) (tlbCarder 0) c c.img ([8, 9, 10, 11, 12] ++ (List.range 16).map (16 + ·) ++ [0])).2 = none ∧
        (zeroBmap s (tlbCarder 0) c 8192 (convShards c) (convTiles c)).2 = none ∧ vaHeld s (tlbCarder 0) c.ctx c.mapva 64 (mService s c) = false ∧
        okAnd (vaRead s (tlbCarder 0) c.ctx c.mapva 64 (mService s c)) (fun m => let r := writeRec m.2 (tlbCarder 0) c c.img ([11, 12] ++ (List.range 8).map (24 + ·) ++ [0])
          r.2.isNone && (zeroBmap r.1 (tlbCarder 0) c (dWord c.img 14) (convShards c) (convTiles c)).2.isNone) = true) := by decide +kernel
theorem witness_EngineEvents_pieces : (∀ r ∈ [true, false], let c : Conv := ⟨1, r, 0, 0, oneElem, true, [], false, false, 8192, []⟩; let s := { mapped (tlbCarder 0) State.reset with convs := [c] };
      pieceFor s 0 0 r = some (c, 0, 0) ∧ engFrozen s 0 54 = false ∧ tileInUse s 0 [] = false ∧ tileCoords oneElem (dMap oneElem) 0 = [[0]] ∧
      tileHeld s (tlbCarder 0) 0 [8192] [16384] = false ∧ tileHeld { s with tlbs := [(tlbVent 0, [⟨0, 2, 0, 0xF⟩])] } (tlbVent 0) 0 [8192] [24576] = false ∧ haloCopies oneElem 0 [0] = [] ∧ oldAddrs s c 0 [0] = [8192] ∧ tileInUse s 0 [8192] = false ∧
      okAnd (copyElem s (tlbCarder 0) 0 0 8192 0 16384 0) (fun s2 => isOk (setBmap s2 (tlbCarder 0) c 20480 0 1 0)) = true ∧ (pieceDone s c 0 0).absent = none ∧
      (putNew { s with tlbs := [(tlbVent 0, [⟨0, 2, 0, 0xF⟩])] } (tlbVent 0) c 0 [0]).any isOk = true) ∧
    localDie State.reset 7 = some 7 := by decide +kernel
theorem witness_EngineEvents_shuttle_and_vent : (let x : ShCmd := ⟨1, 0, .fill, 0, none, none, 0, 0, false, 0, 0, 0, none, false, false, 0, 0, none, 0, 0, false, false, 0, [], false, none⟩; let s := core0 { Core.init with shq := [x] };
      cmdToStart s 0 = some x ∧ (startCmd s 0 x).absent = none ∧
      let y := { x with started := some 0, pos := 1 }; let t := core0 { Core.init with shq := [y] }; getCmd t 0 0 1 = some y ∧ cmdCrec y = 0 ∧ cmdScope y = 0 ∧ relOpen t 0 (relKeySh 0 0 1) = true ∧ cmdReady t 0 { y with killed := true } = true) ∧
    (let x : ShCmd := ⟨1, 0, .fill, BitVec.ofNat 2432 (8192 * 2 ^ 192), none, none, 0, 0, false, 0, 0, 0, some 0, false, true, 0, 1, none, 0, 0, false, false, 0, [], false, none⟩;
      let s := { mapped 0 State.reset with cores := [(0, { Core.init with shq := [x] })] }; cmdCrec x ≠ 0 ∧ cmdReady s 0 x = true ∧ cmdScope x = 0 ∧ walkHeld s 0 0 (cmdCrec x) = false ∧
      (recordPut s 0 x (mUser.by 1 (chanMid s 0 0) 0 1)).2 = none ∧ (getCmd (recordPut s 0 x (mUser.by 1 (chanMid s 0 0) 0 1)).1 0 0 1).any (fun y => y.recOut && y.unacked == 0) = true) ∧
    (let e : BitVec 1024 := BitVec.ofNat 1024 (1 + 2 ^ 64 + 2 ^ 192 * 8); let s := { oneDie { Die.init with fires := [(3, 0, 0)], vent := [(3, e)] } with launches := [{ lrec .running 0 with resv := [0] }] };
      (s.die 0).fires = [(3, 0, 0)] ∧ vtV (FMap.get 0 (s.die 0).vent 3) = true ∧ vtV (FMap.get 0 (s.die 0).vent 4) = false ∧ fireReady s 0 = true ∧ engFrozen s 0 (ventEp 3) = false ∧
        (spadPhys s (vtCtx e) (vtSrc e) (vtLen e)).any (fun ph => !rangeClosed s ph (vtLen e)) = true ∧
        ∀ j ∈ fireTargets e (s.dieBase + 0), j = s.dieBase + 0 ∨ maySend s 0 j (contribLine 3) = true) ∧
    (let s := oneDie { Die.init with vent := [(3, BitVec.ofNat 1024 (1 + 2 ^ 27))], ventIn := [(3, 0, [5], 0)] }; (s.die 0).ventIn[0]? = some (3, 0, [5], 0) ∧ contribMoves s 0 0 = true ∧
      let t := oneDie { Die.init with vent := [(3, BitVec.ofNat 1024 (1 + 2 ^ 27))], ventIn := [(3, 1, [5], 0)] }; contribMoves t 0 0 = true) ∧
    (let s := oneDie { Die.init with vent := [(3, BitVec.ofNat 1024 (1 + 2 ^ 27))], ventSt := [(3, ⟨1, [], none, false⟩)] }; ventReady s 0 3 = true ∧ relOpen s 0 (relKeyVent 3) = true ∧
      (ventFinish (relDone s 0 (relKeyVent 3)) 0 3).absent = none) := by decide +kernel

/-- R236: a release of an engine waits for the writes its die sent before its first try, and for no later one. -/
theorem test_release_waits : (let s := oneDie { Die.init with seq := 2 }; let t := relMark s 0 (relKeyVent 3);
    relOpen s 0 (relKeyVent 3) = false ∧ relOpen (t.setDie 0 { t.die 0 with seq := 5, clock := [(0, 2)] }) 0 (relKeyVent 3) = true ∧
    relOpen (t.setDie 0 { t.die 0 with seq := 5, clock := [(0, 1)] }) 0 (relKeyVent 3) = false) := by decide +kernel
/-- All groups at bundle 1, a checkpoint bundle; bundle 0 is done. -/
def atCkpt : Core := { runWith { Arch.init with nextS := 1, nextV := 1, nextM := 1, nextX := 1, fpos := 1, fseq := 1, skip := some 3, acqs := 2 } with
  code := [(0, 0), (1, 0)], coden := 2, dictn := 1, dict := [(0, 2)] }
theorem witness_SegmentEvents_commit : MayCommit atCkpt ∧ walksLeft (core0 atCkpt) 0 = false ∧ endCtl atCkpt.arch = false ∧ atCkpt.arch.uiGo = false ∧
    (commitSegment (core0 atCkpt) 0).absent = none ∧ atCkpt.arch.stores = [] ∧ atCkpt.arch.cmds = [] ∧ atCkpt.arch.pend = [] ∧ atCkpt.accs = [] ∧
    Untraced (core0 atCkpt) 0 := by
  refine ⟨⟨?_, ?_, ?_, ?_⟩, ?_, ?_, rfl, ?_, rfl, rfl, rfl, rfl, fun l h => ?_⟩ <;> first | decide +kernel | cases h
/-! #### Save slots (Tables 7.4, 7.9), by hand from the tables -/

/-- S 3, E 4, KN 5, DN 6, RT 1, I 2^32. -/
theorem test_slot_loop_entry : loopBits ⟨3, 4, 5, 6, 2 ^ 32, true⟩ = 0x80000000000001060000000500040003 ∧
    loopOf 0x80000000000001060000000500040003 = ⟨3, 4, 5, 6, 2 ^ 32, true⟩ := by decide +kernel
/-- A scalar item of group S for s9 in lane 1, from bundle 2 for bundle 5, at checkpoint 4: D 2, BACK 2, 8 bytes of 7. -/
theorem test_slot_item : (itemOf Core.init ⟨.s 9 7, .s, 5, 2, 1, 0⟩).map (itemBits 4 ⟨.s 9 7, .s, 5, 2, 1, 0⟩) =
    some (32, 7 * 2 ^ 128 + 8 * 2 ^ 64 + 0x21002000901) := by decide +kernel
/-- A slot of zero bytes has no MAGIC. -/
theorem test_slot_magic : slotOk [] 0 = false ∧ slotOk [(0, 0x56), (1, 0x53), (2, 0x57), (3, 0x44), (4, 1), (8, 5)] 5 = true := by decide +kernel

/-- FIPS 202: SHAKE256 of no bytes begins 46 B9 DD 2B 0B A8 8D 13. -/
theorem test_shake256 : (shake256 []).extractLsb' 0 64 = 0x138DA80B2BDDB946 := by decide +kernel
/-- FIPS 197, example C.3: AES-256. -/
theorem test_aes256 : aesEnc (aesKeys (BitVec.ofNat 256 (ofBytes ((List.range 32).map (BitVec.ofNat 8))))) ((List.range 16).map fun i => BitVec.ofNat 8 (17 * i)) =
    [0x8E, 0xA2, 0xB7, 0xCA, 0x51, 0x67, 0x45, 0xBF, 0xEA, 0xFC, 0x49, 0x90, 0x4B, 0x49, 0x60, 0x89] := by decide +kernel
/-- FIPS 204, Decompose at its corner q − 1, and below it; UseHint there. -/
theorem test_decompose : decompose 8380416 = (0, -1) ∧ decompose 261888 = (0, 261888) ∧ decompose 261889 = (1, -261887) ∧ useHint true 0 = 15 := by decide +kernel
/-- R48: a packet for a die in the other row and another column crosses at either bridge end it has come to, whatever waits there. -/
theorem test_bridge_crossing : (let b : BePkt := ⟨packet 7 0, 0, false, 0⟩;
    let s := { State.reset with dies := [(1, { Die.init with links := [(9, activeLink), (10, activeLink)], routers := [(57, { Router.init with be := [b, b] })] })] };
    routeOut s 1 57 b = some 1 ∧ routeOut s 1 58 b = some 1 ∧ routeOut s 1 56 b = some 0 ∧ exitUnit s 1 7 false = some 58) := by decide +kernel
/-- A bundle whose lane 0 holds 'li s9, 5' waits to issue; a queue at a stored nop; the first bytes of an instruction placed by withFetchWord. -/
theorem witness_StepRunsDecoded : (let f : Fetched := ⟨0, 0, false, 0, none, 0x0001424030 <<< 8, []⟩; let c := runWith { Arch.init with fq := [f] };
      let cu : Cursor := { Cursor.init with core := 0, lane := 0 }; let s : State := { core0 c with agenda := [.lane cu] };
      s.agenda = .lane cu :: [] ∧ isRun (s.core 0) = true ∧ (s.core 0).arch.fetched cu.seq = some f ∧ phaseTrap cu (s.core 0) = false) ∧
    (let s := recognise { qmem with agenda := [] } 0; (s.queue 0).en = true ∧ (s.queue 0).frozen = false ∧ (match (queueHead s 0).1 with | .cmd _ => true | _ => false) = true) ∧
    (State.reset.core 0).arch.phase = [] := by decide +kernel
theorem witness_StagePredicateGate : stagePred (here (st 0)) 0x25 = some false ∧ stagePred (here (st 0)) 1 = none ∧ stagePred (here (st 0)) 0 = some true := by decide +kernel
theorem witness_DecodeOfEncode : (Instr.add ⟨0, 7, 0, 1, 2, 0, 0⟩).wf = true ∧ encode (.add ⟨0, 7, 0, 1, 2, 0, 0⟩) ≠ .event := by decide +kernel
theorem witness_StepKeepsMemoryForm : State.reset.memWf = true ∧ qmem.memWf = true := by decide +kernel
theorem witness_IssueFrame : isRun (here (st 0)) = true ∧ exec (.add ⟨0x25, 7, 0, 1, 2, 0, 0⟩) (st 0) = .next (st 0) := ⟨by decide +kernel, rfl⟩
/-- Codes at both ends of each operand range; a channel and a port that answer. -/
theorem witness_OperandsAndRegisters : (∀ p ∈ [(0, 63), (64, 71), (72, 79), (80, 83), (84, 126), (127, 127)], ∀ n ∈ [p.1, p.2], (BitVec.ofNat 7 n).toNat = n) ∧
    (let b : Cursor := { Cursor.init with core := 0 }; let g : BitVec 768 := BitVec.ofNat 768 (2 ^ 16 + 5 * 2 ^ 192 + 2 ^ 256 + 2 ^ 320 + 2 ^ 384);
      (match popPort b (runWith { Arch.init with ports := [(0, ⟨g, 0, 0, (0, 0), 1, [⟨7, none⟩], []⟩)] }) 0 with | .ok (v, _) => v == 7 | .error _ => false) = true ∧
      isOk (pushPort b (runWith { Arch.init with ports := [(0, ⟨g + 2 ^ 10, 0, 0, (0, 0), 0, [], []⟩)] }) 0 32 5 (-1)) = true ∧
      isOk (pushPort b (runWith { Arch.init with ports := [(0, ⟨g + 2 ^ 10, 0, 0, (0, 0), 0, [], []⟩)] }) 0 64 5 (lowMask 64 64)) = true ∧
      isOk (pushChan b (runWith { Arch.init with chans := [(0, ⟨1, true, 2, true, false, false⟩)] }) 0 5) = true) ∧
    { Arch.init with uiActive := true }.uiActive = true := by decide +kernel
theorem witness_CoreException : ([(3, (0 : BitVec 512))] : FMap (BitVec 512)) ≠ [] ∧ ({ Arch.init with tMod := [3], tLive := [3] }).tMod = [3] ∧
    FMap.find ({ Core.init with tilesK := [(3, [])] }).tilesK 3 = some [] ∧
    (let c := runWith { Arch.init with pend := [⟨.row 5 0 .wr 0 0 false, .m, 9, 0, 6, 0⟩], tMod := [3] }; 5 ∈ rowIds (c.keep.pend ++ c.keep.uiHeld) ∧ 5 ∉ c.arch.tMod ∧
      4 ∉ rowIds (c.keep.pend ++ c.keep.uiHeld)) := by decide +kernel
theorem witness_MemoryLaws : Memory.wf [] = true ∧ Memory.wf [(3, 5), (7, 1)] = true ∧ Nat.testBit 5 0 = true ∧ Nat.testBit 5 1 = false := by decide +kernel
theorem witness_PhysicalStores : isSealed 0 = false ∧ isSealed 1 = true ∧ 120 % 128 + 8 ≤ 128 ∧
    FMap.find ({ State.reset with seals := [(maddr 1 0 120 / 128, ⟨5, 0, 0⟩)] }).seals (maddr 1 0 120 / 128) = some ⟨5, 0, 0⟩ := by decide +kernel
/-- The last aligned word of the scratchpad and of memory; one past each; a translation that is granted, a walk that fails. -/
theorem witness_AddressesAndTranslation : ((0x80000000003FFFF8 : Word).toNat % 8 = 0 ∧ (0x80000000003FFFF8 : Word).getLsbD 63 = true ∧ (0x80000000003FFFF8 : Word).extractLsb' 22 41 = 0 ∧
      ((0x80000000003FFFF8 : Word).setWidth 22).toNat + 8 ≤ 2 ^ 22 ∧ (0x8000000000400000 : Word).extractLsb' 22 41 ≠ 0 ∧ (0x00FFFFFFFFFFFFF8 : Word).toNat + 8 ≤ 2 ^ 56 ∧
      2 ^ 56 < (0x0100000000000000 : Word).toNat + 8 ∧ (0x0100000000000000 : Word).getLsbD 63 = false ∧ (5 : Word).toNat % 8 ≠ 0) ∧
    (okT (translate qmem (tlbSpindle 0) 0 8192 .amo mQueue) = true ∧ ctxOk qmem 0 = true ∧ ctxOk qmem 1 = false) ∧
    (let s := { qmem with tlbs := [] }; tlbFind s 0 0 (2 ^ 50) = none ∧ (walk s 0 (2 ^ 50)).code ≠ 0) := by decide +kernel
theorem witness_CommandRefusals : qst.absent = none ∧ WellShaped qst (pk [] 0) 0 ∧ ¬ MayMove qst 10 ∧ (atQ qst).stack = [] ∧
    cmdAddr qst ⟨0, 0, 0, 0, 0, 0, 0, 0, 5, []⟩ % 8 ≠ 0 ∧ (8 : Word).toNat % 8 = 0 ∧ (8 : Word).toNat < 2 ^ 56 ∧ okT (translate qst (tlbSpindle 0) 0 8192 .read mQueue) = false ∧
    (qst.queue 0).abtsig = 0 ∧ (qst.queue 0).hlen = 0 ∧ (creg qst 1).toNat % 64 ≠ 0 ∧ (creg qst 1).toNat % 8 ≠ 0 := by
  refine ⟨rfl, ⟨rfl, rfl, rfl, rfl, ?_⟩, ?_, rfl, ?_⟩
  · intro fr t h; cases h
  · show ¬ (1 ≤ (10 : Int) ∧ (10 : Int) < _); decide +kernel
  · decide +kernel
/-- A copy-on-write page of 1 GiB on another module, and a page pool of one page there. -/
def cowCore : Core := { runWith Arch.init with mode := .handler (Trap.core 7 0 0) 5 false 0 }
def cowState : State := { core0 cowCore with
  mod := (mapped 0 State.reset).mod, cow := [(0, [0])],
  mem := [(0, 1), (10, 1), (18, 4), (24, 1), (65536, 1), (65539, 0x20), (131072, 1), (131075, 0x30), (196608, 0x2F), (196611, 4), (262147, 4), (262149, 4)] }
theorem copyPage_far {s : State} {ctx page size : Nat} {e n : Word} (hn : pteLoc n ≠ 3) (h1 : localDie s (pteDie e) = none)
    (h2 : localDie s (pteDie n) = none) : copyPage s ctx page size (some e) n = s := by
  unfold copyPage
  generalize List.range (size / 128) = l
  induction l with
  | nil => rfl
  | cons i t ih =>
    rw [List.foldl_cons]
    have e1 : homeUse s ctx (page + 128 * i) (entryPhys e (128 * i)) = s := by simp only [homeUse, entryPhys, h1]
    simp only [e1]
    have e2 : ∀ v, homeWrite s ctx (page + 128 * i) 128 v (entryPhys n (128 * i)) = s := fun v => by
      simp [homeWrite, farHome, entryPhys, h2, hn]
    rw [e2]; exact ih
theorem witness_SegmentEvents_copy : (cowState.core 0).mode = .handler (Trap.core 7 0 0) 5 false 0 ∧ (FMap.get [] cowState.cow 0).head? = some 0 ∧ cowHeld cowState 0 0 0 = false ∧
    (let w := walk cowState 0 0; w.code = 0 ∧ pteV w.e = true ∧ pteCow w.e = true ∧ w.lvl = 2) ∧ (ctxWord cowState 0 3).toNat % 2 ^ 32 ≠ 0 ∧
    (let f := hbm8 cowState (ptrDie (ctxWord cowState 0 2)) (ptrAddr (ctxWord cowState 0 2) + 8 * ((ctxWord cowState 0 3).toNat % 2 ^ 32 - 1));
      pteLoc f ≤ 1 ∧ pteFrame f % 2 ^ lvlShift 2 = 0 ∧
      let w := walk cowState 0 0;
      let e := pteSet (pteSet (pteSet (copyEntry w.e) 20 3 (pteLoc f)) 23 5 (pteDie f)) 28 36 (pteFrame f / 65536);
      let s1 := setCtxWord cowState 0 3 0;
      (setHbm (copyPage s1 0 0 (2 ^ lvlShift w.lvl) (some w.e) e) w.die w.ea 8 e.toNat).absent = none) := by
  refine ⟨rfl, ?_, ?_, ?_, ?_, ?_, ?_, ?_⟩
  iterate 6 decide +kernel
  dsimp only
  rw [copyPage_far] <;> decide +kernel
/-- R175: bytes put in any order make a memory in canonical form. -/
theorem test_holding : Memory.holding [(5, 1), (3, 2), (4, 0)] = [(3, 2), (5, 1)] := by decide +kernel
theorem witness_CheckpointOnly : Acts { st 6 with cur := { (st 6).cur with ckpt := false } } 0 ∧ ({ st 6 with cur := { (st 6).cur with ckpt := false } }).cur.ckpt = false := ⟨rfl, rfl⟩
end Sys2Proof.Tests
end

