-- ==== Sys2Proof/Proofs/MemoryLaws.lean ====
section
/-! SUPPORT. What a write leaves to be read inside its range, and why canonical memories with equal contents are equal (R4). -/
namespace Sys2Proof.Machine

/-- Each byte inside a write of n bytes is the byte of the value at its place. -/
theorem Memory.read_writeN_in (m : Memory) (a n v i : Nat) (hi : i < n) :
    Memory.read (Memory.writeN m a n v) (a + i) = BitVec.ofNat 8 (v / 256 ^ i) := by
  induction n generalizing m a v i with
  | zero => omega
  | succ n ih =>
    rw [Memory.writeN]
    cases i with
    | zero => rw [Memory.read_writeN_out _ _ _ _ _ (by omega), Nat.add_zero, Memory.read_write, if_pos rfl, Nat.pow_zero, Nat.div_one]
    | succ i =>
      rw [show a + (i + 1) = a + 1 + i by omega, ih _ _ _ i (by omega), Nat.div_div_eq_div_mul, Nat.pow_succ']

theorem Memory.readN_writeN (m : Memory) (a n v : Nat) : Memory.readN (Memory.writeN m a n v) a n = v % 256 ^ n := by
  induction n generalizing m a v with
  | zero => simp [Memory.readN, Nat.mod_one]
  | succ n ih =>
    have low : Memory.read (Memory.writeN m a (n + 1) v) a = BitVec.ofNat 8 v := by
      simpa using Memory.read_writeN_in m a (n + 1) v 0 (by omega)
    rw [Memory.readN, low, Memory.writeN, ih, Nat.pow_succ', Nat.mod_mul, BitVec.toNat_ofNat]

/-- Each byte inside a write of enabled bytes is the value's where its bit is set, and the old one elsewhere. -/
theorem Memory.read_writeEn_in (m : Memory) (a n en v i : Nat) (hi : i < n) :
    Memory.read (Memory.writeEn m a n en v) (a + i) =
      if en.testBit i then BitVec.ofNat 8 (v / 256 ^ i) else Memory.read m (a + i) := by
  induction n generalizing m a en v i with
  | zero => omega
  | succ n ih =>
    rw [Memory.writeEn]
    cases i with
    | zero =>
      rw [Memory.read_writeEn_out _ _ _ _ _ _ (by omega)]
      by_cases hb : en % 2 = 1 <;> simp [hb, Memory.read_write]
    | succ i =>
      rw [show a + (i + 1) = a + 1 + i by omega, ih _ _ _ _ i (by omega), Nat.testBit_succ, Nat.div_div_eq_div_mul, Nat.pow_succ']
      split
      · rfl
      · split
        · rw [Memory.read_write, if_neg (by omega)]
        · rfl

/-- Where a canonical memory does not read zero, its lower bound holds. -/
theorem Memory.le_of_read_ne_zero {m : Memory} {lo x : Nat} (h : Memory.wfFrom lo m = true) (hx : Memory.read m x ≠ 0) : lo ≤ x := by
  induction m generalizing lo with
  | nil => exact absurd rfl hx
  | cons y t ih =>
    obtain ⟨k, v⟩ := y
    simp only [Memory.wfFrom, Bool.and_eq_true, decide_eq_true_eq] at h
    obtain ⟨⟨hlo, -⟩, ht⟩ := h
    rw [Memory.read, FMap.get] at hx
    split at hx
    · omega
    · have := ih ht hx; omega

theorem Memory.read_eq_zero_of_lt {m : Memory} {lo x : Nat} (h : Memory.wfFrom lo m = true) (hx : x < lo) : Memory.read m x = 0 := by
  by_contra hne
  have := Memory.le_of_read_ne_zero h hne
  omega

theorem Memory.read_cons_same (k : Nat) (v : Byte) (t : Memory) : Memory.read ((k, v) :: t) k = v := if_pos rfl

theorem Memory.read_cons_ne {k x : Nat} (v : Byte) (t : Memory) (h : k ≠ x) : Memory.read ((k, v) :: t) x = Memory.read t x := if_neg h

/-- Canonical memories with equal contents begin with the same cell, since its address is the least that does not read zero. -/
theorem Memory.eq_of_read_eq {m m' : Memory} {lo lo' : Nat} (h : Memory.wfFrom lo m = true) (h' : Memory.wfFrom lo' m' = true)
    (e : ∀ a, Memory.read m a = Memory.read m' a) : m = m' := by
  induction m generalizing m' lo lo' with
  | nil =>
    cases m' with
    | nil => rfl
    | cons y u =>
      obtain ⟨k, v⟩ := y
      simp only [Memory.wfFrom, Bool.and_eq_true, decide_eq_true_eq] at h'
      exact absurd ((Memory.read_cons_same k v u).symm.trans (e k).symm) h'.1.2
  | cons x t ih =>
    obtain ⟨k, v⟩ := x
    simp only [Memory.wfFrom, Bool.and_eq_true, decide_eq_true_eq] at h
    obtain ⟨⟨-, hv⟩, ht⟩ := h
    have ek := e k
    rw [Memory.read_cons_same] at ek
    cases m' with
    | nil => exact absurd ek hv
    | cons y u =>
      obtain ⟨k', v'⟩ := y
      simp only [Memory.wfFrom, Bool.and_eq_true, decide_eq_true_eq] at h'
      obtain ⟨⟨-, hv'⟩, hu⟩ := h'
      have ek' := e k'
      rw [Memory.read_cons_same] at ek'
      have hk : k = k' := by
        by_contra hne
        rw [Memory.read_cons_ne _ _ (Ne.symm hne)] at ek
        rw [Memory.read_cons_ne _ _ hne] at ek'
        have below := Memory.le_of_read_ne_zero hu (ek ▸ hv)
        have above := Memory.le_of_read_ne_zero ht (ek' ▸ hv')
        omega
      subst hk
      rw [Memory.read_cons_same] at ek
      have tails : ∀ a, Memory.read t a = Memory.read u a := by
        intro a
        by_cases ha : k = a
        · rw [Memory.read_eq_zero_of_lt ht (by omega), Memory.read_eq_zero_of_lt hu (by omega)]
        · rw [← Memory.read_cons_ne v t ha, ← Memory.read_cons_ne v' u ha, e]
      rw [ek, ih ht hu tails]

theorem elem_eq_extractLsb' (w i : Nat) (v : VWord) : elem w v.toNat i = (v.extractLsb' (i * w) w).toNat := by
  rw [elem, BitVec.extractLsb'_toNat, Nat.shiftRight_eq_div_pow]

/-- Settles O53: little-endian writes read back, frame the rest, and keep the canonical form, which contents determine. -/
theorem memoryLaws : Obligations.MemoryLaws := by
  intro m h
  refine ⟨fun a b => ⟨Memory.wf_write a b h, ?_, fun x hx => ?_⟩,
    fun a n v => ⟨Memory.wf_writeN a n v h, Memory.readN_writeN m a n v, fun i hi => ?_, Memory.read_writeN_out m a n v⟩,
    fun a n en v => ⟨Memory.wf_writeEn a n en v h, fun i hi he => ?_, fun i hi he => ?_, Memory.read_writeEn_out m a n en v⟩,
    fun m' h' e => Memory.eq_of_read_eq h h' e, elem_eq_extractLsb'⟩
  · rw [Memory.read_write, if_pos rfl]
  · rw [Memory.read_write, if_neg hx]
  · rw [Memory.read_writeN_in _ _ _ _ _ hi, BitVec.toNat_ofNat]
  · rw [Memory.read_writeEn_in _ _ _ _ _ _ hi, if_pos he, BitVec.toNat_ofNat]
  · rw [Memory.read_writeEn_in _ _ _ _ _ _ hi, he, if_neg Bool.false_ne_true]

end Sys2Proof.Machine
end

