-- ==== Sys2Proof/Proofs/MemForm.lean ====
section
/-! SUPPORT. How the canonical form of the memories passes through the shapes a step is written in: a branch, a fold, a computation
that may fail or wait, an update of a field that holds no memory. Below, `f_memWf` says that `f` keeps the form of every memory of a state,
`f_spadWf` that it keeps the form of a core's scratchpad, `f_endsWf` that the event or instruction `f` ends in such a state. -/
namespace Sys2Proof.Machine

/-- An answer whose next state, if it is one, has every memory in canonical form. -/
def EndsWf (o : Host.Outcome State Fault Refusal) : Prop := ∀ t, o = .next t → t.memWf = true

theorem endsWf_next {t : State} (h : t.memWf = true) : EndsWf (.next t) := by
  intro u e; cases e; exact h

theorem endsWf_fault (r : Fault) : EndsWf (.fault r) := by
  intro t e; cases e

theorem endsWf_ite {p : Prop} [Decidable p] {a b : Host.Outcome State Fault Refusal} (ha : EndsWf a) (hb : EndsWf b) :
    EndsWf (if p then a else b) := by
  split
  · exact ha
  · exact hb

theorem finish_endsWf {s : State} (h : s.memWf = true) : EndsWf (finish s) := by
  unfold finish
  split
  · exact endsWf_fault _
  · exact endsWf_next h

/-- Only the four memories matter: whatever the other fields become, the form stays. -/
theorem memWf_update {s : State} (h : s.memWf = true)
    {mod gtc gtcStep gtcStepAt dies queues launches groups qcopies nextId seals sinter ivals races xacts served bankPtr tlbs rocPages unackFaults
    hostFrozen shoots cow slotLoads convs locks grpUpd saveUse wires outbox msix answers spdm ats atsInv absent free cur curQ agenda inputs} :
    State.memWf ⟨mod, gtc, gtcStep, gtcStepAt, dies, s.cores, queues, launches, groups, qcopies, nextId, s.mem, seals, sinter, ivals, races, xacts,
      served, bankPtr, tlbs, rocPages, unackFaults, hostFrozen, shoots, cow, slotLoads, convs, locks, grpUpd, saveUse, s.saves, s.pool, wires, outbox,
      msix, answers, spdm, ats, atsInv, absent, free, cur, curQ, agenda, inputs⟩ = true := h

/-- Whatever the other fields of a core become, its scratchpad keeps the form. -/
theorem spadWf_update {c : Core} (h : Memory.wf c.spad = true)
    {mode arch keep dict code dictn coden launch ctx nply openGroup task parked late spadLog relSpad tiles tilesK psum psumK accs bobs landed
    transit nextAcc l1 l1Epoch aflags shq shStart chdone idCommit shFault rx tx txAt waits maccs bobFull rerun vols held thrott stuck owes rowLog
    rcrc preempt stalled unpins} :
    Memory.wf (Core.mk mode arch keep dict code dictn coden launch ctx nply openGroup task parked late c.spad spadLog relSpad tiles tilesK psum psumK
      accs bobs landed transit nextAcc l1 l1Epoch aflags shq shStart chdone idCommit shFault rx tx txAt waits maccs bobFull rerun vols held thrott stuck owes
      rowLog rcrc preempt stalled unpins).spad = true := h

theorem memWf_of_eq {β : Type} {p : β → State} {r r' : β} (e : r = r') (h : (p r).memWf = true) : (p r').memWf = true := e ▸ h

theorem ite_memWf {p : Prop} [Decidable p] {a b : State} (ha : a.memWf = true) (hb : b.memWf = true) :
    (if p then a else b).memWf = true := by
  split
  · exact ha
  · exact hb

theorem foldl_memWf {α : Type} {f : State → α → State} (hf : ∀ t a, t.memWf = true → (f t a).memWf = true) {s : State}
    (h : s.memWf = true) (l : List α) : (l.foldl f s).memWf = true :=
  List.foldlRecOn l f h fun t ht a _ => hf t a ht

/-- Whatever a computation gives, if it gives anything, satisfies `P`. -/
def Gives {ε β : Type} (P : β → Prop) (r : Except ε β) : Prop := ∀ b, r = .ok b → P b

theorem gives_ok {ε β : Type} {P : β → Prop} {b : β} (h : P b) : Gives P (.ok b : Except ε β) := by
  intro u e; cases e; exact h

theorem gives_pure {ε β : Type} {P : β → Prop} {b : β} (h : P b) : Gives P (pure b : Except ε β) := gives_ok h

theorem gives_error {ε β : Type} {P : β → Prop} (e : ε) : Gives P (.error e : Except ε β) := by
  intro b h; cases h

theorem gives_ite {ε β : Type} {P : β → Prop} {c : Prop} [Decidable c] {x y : Except ε β} (hx : Gives P x) (hy : Gives P y) :
    Gives P (if c then x else y) := by
  split
  · exact hx
  · exact hy

/-- A computation followed by another, of which the second uses what the first gives. -/
theorem Gives.bind {ε α β : Type} {Q : α → Prop} {P : β → Prop} {x : Except ε α} {f : α → Except ε β} (hx : Gives Q x)
    (hf : ∀ a, Q a → Gives P (f a)) : Gives P (x >>= f) := by
  cases x with
  | error e => exact gives_error e
  | ok a => exact hf a (hx a rfl)

theorem gives_seq {ε α β : Type} {P : β → Prop} {x : Except ε α} {f : α → Except ε β} (hf : ∀ a, Gives P (f a)) : Gives P (x >>= f) :=
  Gives.bind (Q := fun _ => True) (fun _ _ => trivial) fun a _ => hf a

theorem gives_map {ε α β : Type} {P : β → Prop} {x : Except ε α} {f : α → β} (h : Gives (fun a => P (f a)) x) : Gives P (x.map f) := by
  cases x with
  | error e => exact gives_error e
  | ok a => exact gives_ok (h a rfl)

theorem gives_mapError {ε ε' β : Type} {P : β → Prop} {x : Except ε β} (f : ε → ε') (h : Gives P x) : Gives P (x.mapError f) := by
  cases x with
  | error e => exact gives_error _
  | ok a => exact gives_ok (h a rfl)

theorem gives_let {ε α β : Type} {P : β → Prop} {a : α} {f : α → Except ε β} (h : Gives P (f a)) : Gives P (Except.ok a >>= f) := h

theorem gives_foldlM {ε α β : Type} {P : β → Prop} {f : β → α → Except ε β} (hf : ∀ b a, P b → Gives P (f b a)) {b : β} (h : P b) (l : List α) :
    Gives P (l.foldlM f b) := by
  induction l generalizing b with
  | nil => exact gives_ok h
  | cons x t ih => rw [List.foldlM_cons]; exact (hf b x h).bind fun _ => ih

/-- What is given carries at `p` a state with every memory in canonical form, or a core whose scratchpad has it. -/
abbrev GivesWf {ε β : Type} (p : β → State) (r : Except ε β) : Prop := Gives (fun b => (p b).memWf = true) r

abbrev GivesSpad {ε β : Type} (p : β → Core) (r : Except ε β) : Prop := Gives (fun b => Memory.wf (p b).spad = true) r

theorem takeTrap_spadWf {c : Core} (h : Memory.wf c.spad = true) (cu : Cursor) (t : Trap) : Memory.wf (takeTrap cu t c).spad = true :=
  takeTrap_spad_wf cu t h

theorem setPool_memWf {s : State} (h : s.memWf = true) {m : Memory} (hm : Memory.wf m = true) (l core : Nat) :
    (setPool s l core m).memWf = true := State.memWf_setPool h l core hm

theorem ite_spadWf {p : Prop} [Decidable p] {a b : Core} (ha : Memory.wf a.spad = true) (hb : Memory.wf b.spad = true) :
    Memory.wf (if p then a else b).spad = true := by
  split
  · exact ha
  · exact hb

theorem foldl_spadWf {α : Type} {f : Core → α → Core} (hf : ∀ c a, Memory.wf c.spad = true → Memory.wf (f c a).spad = true) {c : Core}
    (h : Memory.wf c.spad = true) (l : List α) : Memory.wf (l.foldl f c).spad = true :=
  List.foldlRecOn l f h fun t ht a _ => hf t a ht

/-- The same for a fold whose accumulator carries a state at `p`. -/
theorem foldlAt_memWf {α β : Type} (p : β → State) {f : β → α → β} (hf : ∀ b a, (p b).memWf = true → (p (f b a)).memWf = true) {b : β}
    (h : (p b).memWf = true) (l : List α) : (p (l.foldl f b)).memWf = true :=
  List.foldlRecOn (motive := fun b => (p b).memWf = true) l f h fun t ht a _ => hf t a ht

theorem iteAt_memWf {β : Type} (p : β → State) {c : Prop} [Decidable c] {a b : β} (ha : (p a).memWf = true) (hb : (p b).memWf = true) :
    (p (if c then a else b)).memWf = true := by
  split
  · exact ha
  · exact hb

/-- Every core changed, each keeping the form of its scratchpad. -/
theorem mapCores_memWf {s : State} (h : s.memWf = true) {f : Nat × Core → Nat × Core}
    (hf : ∀ p, Memory.wf p.2.spad = true → Memory.wf (f p).2.spad = true) : State.memWf { s with cores := s.cores.map f } = true := by
  obtain ⟨hm, hc, hs, hp⟩ := (State.memWf_iff s).mp h
  refine (State.memWf_iff _).mpr ⟨hm, fun x hx => ?_, hs, hp⟩
  obtain ⟨y, hy, rfl⟩ := List.mem_map.mp hx
  exact hf y (hc y hy)

/-- Save slots and their bytes dropped. -/
theorem subSaves_memWf {s : State} (h : s.memWf = true) {l : List (Nat × Nat × Core)} {m : List (Nat × Nat × Memory)} (hl : l ⊆ s.saves)
    (hm : m ⊆ s.pool) : State.memWf { s with saves := l, pool := m } = true := by
  obtain ⟨hmem, hc, hs, hp⟩ := (State.memWf_iff s).mp h
  exact (State.memWf_iff _).mpr ⟨hmem, hc, fun x hx => hs x (hl hx), fun x hx => hp x (hm hx)⟩

theorem addSave_memWf {s : State} (h : s.memWf = true) (p : Nat × Nat × Core → Bool) (l core : Nat) {c : Core} (hc : Memory.wf c.spad = true) :
    State.memWf { s with saves := s.saves.filter p ++ [(l, core, c)] } = true := by
  obtain ⟨hm, hcs, hs, hp⟩ := (State.memWf_iff s).mp h
  refine (State.memWf_iff _).mpr ⟨hm, hcs, fun x hx => ?_, hp⟩
  rcases List.mem_append.mp hx with e | e
  · exact hs x (List.mem_of_mem_filter e)
  · rw [List.mem_singleton.mp e]; exact hc

theorem repeat_memWf {f : State → State} (hf : ∀ t, t.memWf = true → (f t).memWf = true) {s : State} (h : s.memWf = true) (n : Nat) :
    (n.repeat f s).memWf = true := by
  induction n with
  | zero => exact h
  | succ n ih => exact hf _ ih

/-- An answer that may be missing: where there is one, it carries at `p` a state with every memory in canonical form. -/
def SomeWf {β : Type} (p : β → State) (r : Option β) : Prop := ∀ b, r = some b → (p b).memWf = true

theorem someWf_some {β : Type} {p : β → State} {b : β} (h : (p b).memWf = true) : SomeWf p (some b) := by
  intro u e; cases e; exact h

theorem someWf_none {β : Type} {p : β → State} : SomeWf p none := by
  intro u e; cases e

theorem someWf_ite {β : Type} {p : β → State} {c : Prop} [Decidable c] {x y : Option β} (hx : SomeWf p x) (hy : SomeWf p y) :
    SomeWf p (if c then x else y) := by
  split
  · exact hx
  · exact hy

theorem someWf_foldlM {α β : Type} {p : β → State} {f : β → α → Option β} (hf : ∀ b a, (p b).memWf = true → SomeWf p (f b a)) {b : β}
    (h : (p b).memWf = true) (l : List α) : SomeWf p (l.foldlM f b) := by
  induction l generalizing b with
  | nil => exact someWf_some h
  | cons x t ih =>
    intro r e
    rw [List.foldlM_cons] at e
    cases hx : f b x with
    | none => rw [hx] at e; cases e
    | some b' => rw [hx] at e; exact ih (hf b x h b' hx) r e

/-- A computation that may have to wait: once it answers, what it gives satisfies `P`. -/
def SomeGives {ε β : Type} (P : β → Prop) (o : Option (Except ε β)) : Prop := ∀ r, o = some r → Gives P r

theorem someGives_none {ε β : Type} {P : β → Prop} : SomeGives P (none : Option (Except ε β)) := by
  intro r e; cases e

theorem someGives_some {ε β : Type} {P : β → Prop} {r : Except ε β} (h : Gives P r) : SomeGives P (some r) := by
  intro u e; cases e; exact h

theorem someGives_ite {ε β : Type} {P : β → Prop} {c : Prop} [Decidable c] {x y : Option (Except ε β)} (hx : SomeGives P x)
    (hy : SomeGives P y) : SomeGives P (if c then x else y) := by
  split
  · exact hx
  · exact hy

end Sys2Proof.Machine
end

