-- ==== Sys2Proof/Proofs/LaneForm.lean ====
section
/-! SUPPORT. The bodies of the lane operations keep the form of the scratchpad of their core. -/
namespace Sys2Proof.Machine

theorem logGranules_spadWf {c : Core} (hc : Memory.wf c.spad = true) (a n : Nat) : Memory.wf (logGranules c a n).spad = true := by
  induction n with
  | zero => exact hc
  | succ n ih =>
    rw [logGranules]
    split
    · exact ih
    · exact spadWf_update ih

theorem logSpad_spadWf {c : Core} (hc : Memory.wf c.spad = true) (cu : Cursor) (a n : Nat) : GivesSpad id (logSpad cu c a n) :=
  gives_ite (gives_error _) (gives_ok (logGranules_spadWf hc _ _))

theorem popPort_spadWf {c : Core} (hc : Memory.wf c.spad = true) (cu : Cursor) (n : Nat) : GivesSpad (·.2) (popPort cu c n) := by
  unfold popPort
  refine gives_seq fun _ => ?_
  refine gives_ite (gives_error _) ?_
  refine gives_ite (gives_ok (spadWf_update hc)) ?_
  split
  · exact gives_error _
  · split
    · exact gives_error _
    · exact gives_ok (spadWf_update hc)

theorem pushPort_spadWf {c : Core} (hc : Memory.wf c.spad = true) (cu : Cursor) (n w : Nat) (val mask : VWord) :
    GivesSpad id (pushPort cu c n w val mask) :=
  gives_seq fun _ =>
  gives_ite (gives_error _)
    (gives_ite (gives_ok (spadWf_update hc))
       (gives_ite (gives_error _)
          (gives_ite (Gives.bind (logSpad_spadWf hc _ _ _) fun _ h1 => gives_ok (spadWf_update h1))
             (gives_seq fun _ => gives_let (gives_ok (spadWf_update hc))))))

theorem popChan_spadWf {c : Core} (hc : Memory.wf c.spad = true) (cu : Cursor) (n : Nat) : GivesSpad (·.2) (popChan cu c n) := by
  unfold popChan
  refine gives_seq fun _ => ?_
  refine gives_ite (gives_error _) ?_
  split
  · exact gives_error _
  · exact gives_ok (spadWf_update hc)

theorem pushChan_spadWf {c : Core} (hc : Memory.wf c.spad = true) (cu : Cursor) (n : Nat) (w : Word) : GivesSpad id (pushChan cu c n w) :=
  gives_seq fun _ => gives_ite (gives_error _) (gives_ite (gives_error _) (gives_ok (spadWf_update hc)))

theorem resolveS_spadWf {c : Core} (hc : Memory.wf c.spad = true) (cu : Cursor) (code : BitVec 7) : GivesSpad (·.2) (resolveS cu code c) :=
  gives_ite (gives_ok hc)
    (gives_ite (gives_ok hc)
       (gives_ite (Gives.bind (popPort_spadWf hc _ _) fun ⟨_, _⟩ h1 => gives_ok h1)
          (gives_ite (popChan_spadWf hc _ _) (gives_ite (gives_ok hc) (gives_error _)))))

theorem resolveV_spadWf {c : Core} (hc : Memory.wf c.spad = true) (cu : Cursor) (code : BitVec 7) : GivesSpad (·.2) (resolveV cu code c) :=
  gives_ite (gives_ok hc)
    (gives_ite (gives_ok hc)
       (gives_ite (popPort_spadWf hc _ _) (gives_ite (gives_error _) (gives_ite (gives_ok hc) (gives_error _)))))

theorem emitLatch_spadWf {c : Core} (hc : Memory.wf c.spad = true) (cu : Cursor) (lat : Nat) (v : LWord) :
    Memory.wf (emitLatch cu lat v c).spad = true :=
  ite_spadWf (spadWf_update hc) hc

theorem writeS_spadWf {c : Core} (hc : Memory.wf c.spad = true) (cu : Cursor) (dst : BitVec 7) (ws : BitVec 1) (lat : Nat) (v : Word) :
    GivesSpad id (writeS cu dst ws lat v c) :=
  gives_ite (gives_ok (emitLatch_spadWf (ite_spadWf (spadWf_update hc) hc) _ _ _))
    (gives_ite
       (gives_ite (gives_error _)
          (gives_ite (Gives.bind (pushPort_spadWf hc _ _ _ _ _) fun _ h1 => gives_ok (emitLatch_spadWf h1 _ _ _))
             (Gives.bind (pushChan_spadWf hc _ _ _) fun _ h2 => gives_ok (emitLatch_spadWf h2 _ _ _))))
       (gives_error _))

theorem writeV_spadWf {c : Core} (hc : Memory.wf c.spad = true) (cu : Cursor) (dst : BitVec 7) (ws : BitVec 1) (lat w : Nat) (val mask : VWord) :
    GivesSpad id (writeV cu dst ws lat w val mask c) :=
  gives_ite (gives_ok (emitLatch_spadWf (ite_spadWf (spadWf_update hc) hc) _ _ _))
    (gives_ite
       (gives_ite (gives_error _)
          (gives_ite (gives_error _)
             (Gives.bind (pushPort_spadWf hc _ _ _ _ _) fun _ h1 => gives_ok (emitLatch_spadWf h1 _ _ _))))
       (gives_error _))

theorem writeVs_spadWf {c : Core} (hc : Memory.wf c.spad = true) (cu : Cursor) (dst : BitVec 7) (ws : BitVec 1) (lat : Nat)
    (parts : List (VWord × VWord)) : GivesSpad id (writeVs cu dst ws lat parts c) := by
  unfold writeVs
  refine gives_ite ?_ (gives_ite (gives_error _) (gives_error _))
  extract_lets c1
  have h1 : Memory.wf c1.spad = true := ite_spadWf (foldl_spadWf (fun _ _ h => spadWf_update h) hc _) hc
  split
  · exact gives_ok h1
  · exact gives_ok (emitLatch_spadWf h1 _ _ _)

theorem writeG_spadWf {c : Core} (hc : Memory.wf c.spad = true) (cu : Cursor) (g : Nat) (ws : BitVec 1) (lat : Nat) (b : Bool) :
    Memory.wf (writeG cu g ws lat b c).spad = true :=
  emitLatch_spadWf (ite_spadWf (spadWf_update hc) hc) _ _ _

theorem writeP_spadWf {c : Core} (hc : Memory.wf c.spad = true) (cu : Cursor) (i : Nat) (ws : BitVec 1) (lat : Nat) (v : PWord) :
    Memory.wf (writeP cu i ws lat v c).spad = true :=
  emitLatch_spadWf (ite_spadWf (spadWf_update hc) hc) _ _ _

theorem takeBob_spadWf {c : Core} (hc : Memory.wf c.spad = true) (cu : Cursor) (dest : LandDest) (ws : BitVec 1) (waiting : Nat) (ovl : VWord)
    (mask : BitVec 512) : GivesSpad (·.2) (takeBob cu c dest ws waiting ovl mask) :=
  gives_ite (gives_error _) (gives_ite (gives_error _) (gives_ok (spadWf_update hc)))

theorem brBody_spadWf {c : Core} (hc : Memory.wf c.spad = true) (f : SC) (cu : Cursor) : GivesSpad id (brBody f cu c) :=
  gives_seq fun _ =>
  gives_ite (gives_let (gives_ite (gives_seq fun _ => gives_ok (spadWf_update hc)) (gives_ok hc)))
    (Gives.bind (resolveS_spadWf hc _ _) fun ⟨_, _⟩ h1 =>
     gives_ite (gives_seq fun _ => gives_ok (spadWf_update h1)) (gives_ok h1))

theorem callBody_spadWf {c : Core} (hc : Memory.wf c.spad = true) (f : SC) (cu : Cursor) : GivesSpad id (callBody f cu c) :=
  gives_seq fun _ =>
  gives_ite (gives_let (gives_seq fun _ => gives_ok (spadWf_update (emitLatch_spadWf (spadWf_update hc) _ _ _))))
    (Gives.bind (resolveS_spadWf hc _ _) fun ⟨_, _⟩ h1 =>
     gives_seq fun _ => gives_ok (spadWf_update (emitLatch_spadWf (spadWf_update h1) _ _ _)))

theorem retBody_spadWf {c : Core} (hc : Memory.wf c.spad = true) (f : SC) (cu : Cursor) : GivesSpad id (retBody f cu c) :=
  gives_seq fun _ => Gives.bind (resolveS_spadWf hc _ _) fun ⟨_, _⟩ h1 => gives_seq fun _ => gives_ok (spadWf_update h1)

theorem lbreakBody_spadWf {c : Core} (hc : Memory.wf c.spad = true) (f : SC) (cu : Cursor) : GivesSpad id (lbreakBody f cu c) :=
  gives_seq fun _ => gives_ite (gives_error _) (gives_ok (spadWf_update hc))

theorem loopBody_spadWf {c : Core} (hc : Memory.wf c.spad = true) (f : SC) (rot : Bool) (cu : Cursor) : GivesSpad id (loopBody f rot cu c) :=
  gives_seq fun _ =>
  Gives.bind (resolveS_spadWf hc _ _) fun ⟨_, _⟩ h1 =>
  gives_seq fun _ => gives_ite (gives_error _) (gives_ite (gives_ok (spadWf_update h1)) (gives_ok (spadWf_update h1)))

theorem spawnBody_spadWf {c : Core} (hc : Memory.wf c.spad = true) (f : SC) (cu : Cursor) : GivesSpad id (spawnBody f cu c) :=
  gives_seq fun _ =>
  Gives.bind (resolveS_spadWf hc _ _) fun ⟨_, _⟩ h1 =>
  Gives.bind (resolveS_spadWf h1 _ _) fun ⟨_, _⟩ h2 => gives_ite (gives_error _) (gives_ok (spadWf_update h2))

theorem joinBody_spadWf {c : Core} (hc : Memory.wf c.spad = true) (f : SC) (cu : Cursor) : GivesSpad id (joinBody f cu c) :=
  gives_seq fun _ => gives_ite (gives_error _) (gives_ok (spadWf_update hc))

theorem exitBody_spadWf {c : Core} (hc : Memory.wf c.spad = true) (f : SC) (cu : Cursor) : GivesSpad id (exitBody f cu c) :=
  gives_seq fun _ =>
  gives_ite (gives_let (gives_seq fun _ => gives_ok (spadWf_update hc)))
    (Gives.bind (resolveS_spadWf hc _ _) fun ⟨_, _⟩ h1 =>
     gives_seq fun _ => gives_ok (spadWf_update h1))

theorem exitabBody_spadWf {c : Core} (hc : Memory.wf c.spad = true) (f : SC) (cu : Cursor) : GivesSpad id (exitabBody f cu c) :=
  gives_seq fun _ => Gives.bind (resolveS_spadWf hc _ _) fun ⟨_, _⟩ h1 => gives_seq fun _ => gives_ok (spadWf_update h1)

theorem trapBody_spadWf {c : Core} (hc : Memory.wf c.spad = true) (f : SC) (cu : Cursor) : GivesSpad id (trapBody f cu c) :=
  gives_seq fun _ => gives_ite (gives_ok (spadWf_update hc)) (gives_error _)

theorem uiretBody_spadWf {c : Core} (hc : Memory.wf c.spad = true) (f : SC) (cu : Cursor) : GivesSpad id (uiretBody f cu c) :=
  gives_seq fun _ => gives_ite (gives_error _) (gives_ok (spadWf_update hc))

theorem emitFlags_spadWf {c : Core} (hc : Memory.wf c.spad = true) (cu : Cursor) (lat : Nat) (nf : BitVec 1) (fl : List (Nat × FlagBits)) :
    Memory.wf (emitFlags cu lat nf fl c).spad = true :=
  ite_spadWf hc (spadWf_update hc)

theorem scalar2_spadWf {c : Core} (hc : Memory.wf c.spad = true) (f : SR) (lat : Nat) (op : Word → Word → Word) (cu : Cursor) :
    GivesSpad id (scalar2 f lat op cu c) :=
  gives_seq fun _ =>
  Gives.bind (resolveS_spadWf hc _ _) fun ⟨_, _⟩ h1 =>
  Gives.bind (resolveS_spadWf h1 _ _) fun ⟨_, _⟩ h2 => writeS_spadWf h2 _ _ _ _ _

theorem scalar1_spadWf {c : Core} (hc : Memory.wf c.spad = true) (f : SR) (lat : Nat) (op : Word → Word) (cu : Cursor) :
    GivesSpad id (scalar1 f lat op cu c) :=
  gives_seq fun _ => Gives.bind (resolveS_spadWf hc _ _) fun ⟨_, _⟩ h1 => writeS_spadWf h1 _ _ _ _ _

theorem scalarExt_spadWf {c : Core} (hc : Memory.wf c.spad = true) (f : SR) (op : Nat → Word → Word) (cu : Cursor) :
    GivesSpad id (scalarExt f op cu c) :=
  gives_seq fun _ => Gives.bind (resolveS_spadWf hc _ _) fun ⟨_, _⟩ h1 => writeS_spadWf h1 _ _ _ _ _

theorem scalarI_spadWf {c : Core} (hc : Memory.wf c.spad = true) (f : SI) (ok : BitVec 11 → Bool) (op : Word → Word → Word) (cu : Cursor) :
    GivesSpad id (scalarI f ok op cu c) :=
  gives_seq fun _ => Gives.bind (resolveS_spadWf hc _ _) fun ⟨_, _⟩ h1 => writeS_spadWf h1 _ _ _ _ _

theorem scalarSel_spadWf {c : Core} (hc : Memory.wf c.spad = true) (f : SR) (cu : Cursor) : GivesSpad id (scalarSel f cu c) :=
  gives_seq fun _ =>
  Gives.bind (resolveS_spadWf hc _ _) fun ⟨_, _⟩ h1 =>
  Gives.bind (resolveS_spadWf h1 _ _) fun ⟨_, _⟩ h2 => writeS_spadWf h2 _ _ _ _ _

theorem scalarLi_spadWf {c : Core} (hc : Memory.wf c.spad = true) (f : SL) (cu : Cursor) : GivesSpad id (scalarLi f cu c) :=
  writeS_spadWf hc _ _ _ _ _

theorem scalarLis_spadWf {c : Core} (hc : Memory.wf c.spad = true) (f : SL) (cu : Cursor) : GivesSpad id (scalarLis f cu c) :=
  gives_seq fun _ => writeS_spadWf hc _ _ _ _ _

theorem scalarCmp_spadWf {c : Core} (hc : Memory.wf c.spad = true) (f : SR) (signed : Bool) (cu : Cursor) :
    GivesSpad id (scalarCmp f signed cu c) :=
  gives_seq fun _ =>
  Gives.bind (resolveS_spadWf hc _ _) fun ⟨_, _⟩ h1 =>
  Gives.bind (resolveS_spadWf h1 _ _) fun ⟨_, _⟩ h2 => gives_ok (writeG_spadWf h2 _ _ _ _ _)

theorem scalarCmpi_spadWf {c : Core} (hc : Memory.wf c.spad = true) (f : SI) (cu : Cursor) : GivesSpad id (scalarCmpi f cu c) :=
  gives_seq fun _ => Gives.bind (resolveS_spadWf hc _ _) fun ⟨_, _⟩ h1 => gives_ok (writeG_spadWf h1 _ _ _ _ _)

theorem gLogic_spadWf {c : Core} (hc : Memory.wf c.spad = true) (f : SR) (op : Bool → Bool → Bool) (cu : Cursor) :
    GivesSpad id (gLogic f op cu c) :=
  gives_seq fun _ => gives_seq fun _ => gives_seq fun _ => gives_ok (writeG_spadWf hc _ _ _ _ _)

theorem gSet_spadWf {c : Core} (hc : Memory.wf c.spad = true) (f : SR) (cu : Cursor) : GivesSpad id (gSet f cu c) :=
  gives_seq fun _ => Gives.bind (resolveS_spadWf hc _ _) fun ⟨_, _⟩ h1 => gives_ok (writeG_spadWf h1 _ _ _ _ _)

theorem vecInt2_spadWf {c : Core} (hc : Memory.wf c.spad = true) (f : VR) (lat : Nat) (op : Nat → Nat → Nat → Nat → Nat) (cu : Cursor) :
    GivesSpad id (vecInt2 f lat op cu c) :=
  gives_seq fun _ =>
  Gives.bind (resolveV_spadWf hc _ _) fun ⟨_, _⟩ h1 =>
  Gives.bind (resolveV_spadWf h1 _ _) fun ⟨_, _⟩ h2 => writeV_spadWf h2 _ _ _ _ _ _ _

theorem vecInt1_spadWf {c : Core} (hc : Memory.wf c.spad = true) (f : VR) (op : Nat → Nat → Nat) (cu : Cursor) : GivesSpad id (vecInt1 f op cu c) :=
  gives_seq fun _ => Gives.bind (resolveV_spadWf hc _ _) fun ⟨_, _⟩ h1 => writeV_spadWf h1 _ _ _ _ _ _ _

theorem vecIntI_spadWf {c : Core} (hc : Memory.wf c.spad = true) (f : VR) (lat : Nat) (shift : Bool) (op : Nat → Nat → Nat → Nat → Nat)
    (cu : Cursor) : GivesSpad id (vecIntI f lat shift op cu c) :=
  gives_seq fun _ => Gives.bind (resolveV_spadWf hc _ _) fun ⟨_, _⟩ h1 => writeV_spadWf h1 _ _ _ _ _ _ _

theorem vecMove_spadWf {c : Core} (hc : Memory.wf c.spad = true) (f : VR) (bcast : Bool) (cu : Cursor) : GivesSpad id (vecMove f bcast cu c) :=
  gives_seq fun _ => Gives.bind (resolveV_spadWf hc _ _) fun ⟨_, _⟩ h1 => writeV_spadWf h1 _ _ _ _ _ _ _

theorem vecSel_spadWf {c : Core} (hc : Memory.wf c.spad = true) (f : VR) (cu : Cursor) : GivesSpad id (vecSel f cu c) :=
  gives_seq fun _ =>
  Gives.bind (resolveV_spadWf hc _ _) fun ⟨_, _⟩ h1 =>
  Gives.bind (resolveV_spadWf h1 _ _) fun ⟨_, _⟩ h2 => writeV_spadWf h2 _ _ _ _ _ _ _

theorem vecCmp_spadWf {c : Core} (hc : Memory.wf c.spad = true) (f : VR) (signed imm : Bool) (cu : Cursor) :
    GivesSpad id (vecCmp f signed imm cu c) :=
  gives_seq fun _ =>
  Gives.bind (resolveV_spadWf hc _ _) fun ⟨_, _⟩ h1 =>
  gives_ite (gives_let (gives_ok (writeP_spadWf h1 _ _ _ _ _)))
    (Gives.bind (resolveV_spadWf h1 _ _) fun ⟨_, _⟩ h2 => gives_ok (writeP_spadWf h2 _ _ _ _ _))

theorem vecFcmp_spadWf {c : Core} (hc : Memory.wf c.spad = true) (f : VR) (cu : Cursor) : GivesSpad id (vecFcmp f cu c) :=
  gives_seq fun _ =>
  Gives.bind (resolveV_spadWf hc _ _) fun ⟨_, _⟩ h1 =>
  Gives.bind (resolveV_spadWf h1 _ _) fun ⟨_, _⟩ h2 => gives_ok (emitFlags_spadWf (writeP_spadWf h2 _ _ _ _ _) _ _ _ _)

theorem pLogic_spadWf {c : Core} (hc : Memory.wf c.spad = true) (f : VR) (op : PWord → PWord → PWord) (cu : Cursor) :
    GivesSpad id (pLogic f op cu c) :=
  gives_seq fun _ => gives_seq fun _ => gives_seq fun _ => gives_ok (writeP_spadWf hc _ _ _ _ _)

theorem pSet_spadWf {c : Core} (hc : Memory.wf c.spad = true) (f : VR) (cu : Cursor) : GivesSpad id (pSet f cu c) :=
  gives_seq fun _ => Gives.bind (resolveV_spadWf hc _ _) fun ⟨_, _⟩ h1 => gives_ok (writeP_spadWf h1 _ _ _ _ _)

theorem pFirst_spadWf {c : Core} (hc : Memory.wf c.spad = true) (f : VR) (cu : Cursor) : GivesSpad id (pFirst f cu c) :=
  gives_seq fun _ => gives_seq fun _ => gives_ok (writeP_spadWf hc _ _ _ _ _)

theorem pCount_spadWf {c : Core} (hc : Memory.wf c.spad = true) (f : VR) (cu : Cursor) : GivesSpad id (pCount f cu c) :=
  gives_seq fun _ => gives_seq fun _ => writeV_spadWf hc _ _ _ _ _ _ _

theorem finishVF_spadWf {c : Core} (hc : Memory.wf c.spad = true) (dst : BitVec 7) (ws nf : BitVec 1) (ep : BitVec 4) (lat w : Nat)
    (r : Nat → Nat × FlagBits) (cu : Cursor) : GivesSpad id (finishVF dst ws nf ep lat w r cu c) :=
  Gives.bind (writeV_spadWf hc _ _ _ _ _ _ _) fun _ h1 => gives_ok (emitFlags_spadWf h1 _ _ _ _)

theorem vecF2_spadWf {c : Core} (hc : Memory.wf c.spad = true) (f : VR) (op : FFmt → Nat → Nat → Nat × FlagBits) (cu : Cursor) :
    GivesSpad id (vecF2 f op cu c) :=
  gives_seq fun _ =>
  Gives.bind (resolveV_spadWf hc _ _) fun ⟨_, _⟩ h1 =>
  Gives.bind (resolveV_spadWf h1 _ _) fun ⟨_, _⟩ h2 => finishVF_spadWf h2 _ _ _ _ _ _ _ _

theorem vecF1_spadWf {c : Core} (hc : Memory.wf c.spad = true) (f : VR) (op : FFmt → Nat → Nat × FlagBits) (cu : Cursor) :
    GivesSpad id (vecF1 f op cu c) :=
  gives_seq fun _ => Gives.bind (resolveV_spadWf hc _ _) fun ⟨_, _⟩ h1 => finishVF_spadWf h1 _ _ _ _ _ _ _ _

theorem vecFma_spadWf {c : Core} (hc : Memory.wf c.spad = true) (f : VT) (t : FFmt) (sub : Bool) (cu : Cursor) :
    GivesSpad id (vecFma f t sub cu c) :=
  gives_seq fun _ =>
  Gives.bind (resolveV_spadWf hc _ _) fun ⟨_, _⟩ h1 =>
  Gives.bind (resolveV_spadWf h1 _ _) fun ⟨_, _⟩ h2 =>
  Gives.bind (resolveV_spadWf h2 _ _) fun ⟨_, _⟩ h3 => finishVF_spadWf h3 _ _ _ _ _ _ _ _

theorem finishRed_spadWf {c : Core} (hc : Memory.wf c.spad = true) (f : VR) (r : Nat × FlagBits) (cu : Cursor) :
    GivesSpad id (finishRed f r cu c) :=
  Gives.bind (writeV_spadWf hc _ _ _ _ _ _ _) fun _ h1 => gives_ok (emitFlags_spadWf h1 _ _ _ _)

theorem vecRed_spadWf {c : Core} (hc : Memory.wf c.spad = true) (f : VR) (tyMax : Nat) (value : Nat → List (Option Nat) → Nat × FlagBits)
    (cu : Cursor) : GivesSpad id (vecRed f tyMax value cu c) :=
  gives_seq fun _ => Gives.bind (resolveV_spadWf hc _ _) fun ⟨_, _⟩ h1 => finishRed_spadWf h1 _ _ _

theorem sfu1_spadWf {c : Core} (hc : Memory.wf c.spad = true) (f : FA) (lat : Nat) (op : FFmt → Nat → Nat × FlagBits) (cu : Cursor) :
    GivesSpad id (sfu1 f lat op cu c) :=
  gives_seq fun _ => Gives.bind (resolveV_spadWf hc _ _) fun ⟨_, _⟩ h1 => finishVF_spadWf h1 _ _ _ _ _ _ _ _

theorem vlseBody_spadWf {c : Core} (hc : Memory.wf c.spad = true) (f : FA) (cu : Cursor) : GivesSpad id (vlseBody f cu c) :=
  gives_seq fun _ =>
  Gives.bind (resolveV_spadWf hc _ _) fun ⟨_, _⟩ h1 =>
  Gives.bind (writeV_spadWf h1 _ _ _ _ _ _ _) fun _ h2 => gives_ok (emitFlags_spadWf h2 _ _ _ _)

theorem vecCvt_spadWf {c : Core} (hc : Memory.wf c.spad = true) (f : VR) (cu : Cursor) : GivesSpad id (vecCvt f cu c) :=
  gives_seq fun _ => Gives.bind (resolveV_spadWf hc _ _) fun ⟨_, _⟩ h1 => finishVF_spadWf h1 _ _ _ _ _ _ _ _

theorem finishWiden_spadWf {c : Core} (hc : Memory.wf c.spad = true) (dst : BitVec 7) (ws nf : BitVec 1) (ep : BitVec 4) (wsrc wd k : Nat)
    (flags : Bool) (r : Nat → Nat × FlagBits) (cu : Cursor) : GivesSpad id (finishWiden dst ws nf ep wsrc wd k flags r cu c) :=
  Gives.bind (writeVs_spadWf hc _ _ _ _ _) fun _ h1 => gives_ok (ite_spadWf (emitFlags_spadWf h1 _ _ _ _) h1)

theorem vecWiden_spadWf {c : Core} (hc : Memory.wf c.spad = true) (f : VR) (cu : Cursor) : GivesSpad id (vecWiden f cu c) :=
  gives_seq fun _ => Gives.bind (resolveV_spadWf hc _ _) fun ⟨_, _⟩ h1 => finishWiden_spadWf h1 _ _ _ _ _ _ _ _ _ _

theorem vecNarrow_spadWf {c : Core} (hc : Memory.wf c.spad = true) (f : VR) (cu : Cursor) : GivesSpad id (vecNarrow f cu c) :=
  gives_seq fun _ => gives_seq fun _ => Gives.bind (writeV_spadWf hc _ _ _ _ _ _ _) fun _ h1 => gives_ok (emitFlags_spadWf h1 _ _ _ _)

theorem vecVq8_spadWf {c : Core} (hc : Memory.wf c.spad = true) (f : VR) (cu : Cursor) : GivesSpad id (vecVq8 f cu c) :=
  gives_seq fun _ =>
  gives_seq fun _ =>
  Gives.bind (resolveV_spadWf hc _ _) fun ⟨_, _⟩ h1 =>
  Gives.bind (writeV_spadWf h1 _ _ _ _ _ _ _) fun _ h2 => gives_ok (emitFlags_spadWf h2 _ _ _ _)

theorem vecVdq8_spadWf {c : Core} (hc : Memory.wf c.spad = true) (f : VR) (cu : Cursor) : GivesSpad id (vecVdq8 f cu c) :=
  gives_seq fun _ =>
  Gives.bind (resolveV_spadWf hc _ _) fun ⟨_, _⟩ h1 =>
  Gives.bind (resolveV_spadWf h1 _ _) fun ⟨_, _⟩ h2 => finishWiden_spadWf h2 _ _ _ _ _ _ _ _ _ _

theorem vecMxq_spadWf {c : Core} (hc : Memory.wf c.spad = true) (f : VR) (cu : Cursor) : GivesSpad id (vecMxq f cu c) :=
  gives_seq fun _ => gives_seq fun _ => Gives.bind (writeVs_spadWf hc _ _ _ _ _) fun _ h1 => gives_ok (emitFlags_spadWf h1 _ _ _ _)

theorem vecWide_spadWf {c : Core} (hc : Memory.wf c.spad = true) (f : VR) (mul : Bool) (cu : Cursor) : GivesSpad id (vecWide f mul cu c) :=
  gives_seq fun _ =>
  Gives.bind (resolveV_spadWf hc _ _) fun ⟨_, _⟩ h1 =>
  Gives.bind (resolveV_spadWf h1 _ _) fun ⟨_, _⟩ h2 => finishWiden_spadWf h2 _ _ _ _ _ _ _ _ _ _

theorem drawOut_spadWf {c : Core} (hc : Memory.wf c.spad = true) (f : FD) (r : Pair) (pos : Nat) (fin : Bool) (lat : Nat)
    (fl : List (Nat × FlagBits)) (cu : Cursor) : Memory.wf (drawOut f r pos fin lat fl cu c).spad = true := by
  unfold drawOut
  split
  exact emitFlags_spadWf (emitLatch_spadWf (spadWf_update (spadWf_update hc)) _ _ _) _ _ _ _

theorem vdrawBody_spadWf {c : Core} (hc : Memory.wf c.spad = true) (f : FD) (t : FFmt) (cu : Cursor) : GivesSpad id (vdrawBody f t cu c) :=
  gives_seq fun _ => gives_ok (drawOut_spadWf hc _ _ _ _ _ _ _)

theorem vdrawmBody_spadWf {c : Core} (hc : Memory.wf c.spad = true) (f : FD) (cu : Cursor) : GivesSpad id (vdrawmBody f cu c) :=
  gives_seq fun _ => gives_ok (drawOut_spadWf hc _ _ _ _ _ _ _)

theorem touchTile_spadWf {c : Core} (hc : Memory.wf c.spad = true) (cu : Cursor) (t : Nat) (mods : Bool) : GivesSpad id (touchTile cu c t mods) :=
  gives_ite (gives_error _) (gives_ok (spadWf_update hc))

theorem pushOperand_spadWf {c : Core} (hc : Memory.wf c.spad = true) (cu : Cursor) (reg : BitVec 6) (fromPort : Bool) (k : Nat) :
    GivesSpad (·.2) (pushOperand cu c reg fromPort k) := by
  unfold pushOperand
  refine gives_ite (gives_ok hc) ?_
  refine gives_ite (gives_error _) ?_
  split
  · exact gives_error _
  · refine gives_ite (gives_error _) ?_
    split
    · exact gives_error _
    · split
      · exact gives_error _
      · exact gives_ok (spadWf_update hc)

theorem mpushBody_spadWf {c : Core} (hc : Memory.wf c.spad = true) (f : XP) (cu : Cursor) : GivesSpad id (mpushBody f cu c) :=
  Gives.bind (pushOperand_spadWf hc _ _ _ _) fun ⟨_, _⟩ h1 =>
  Gives.bind (pushOperand_spadWf h1 _ _ _ _) fun ⟨_, _⟩ h2 => gives_ok (spadWf_update h2)

theorem mscaleBody_spadWf {c : Core} (hc : Memory.wf c.spad = true) (f : XS) (sideB : Bool) (cu : Cursor) :
    GivesSpad id (mscaleBody f sideB cu c) :=
  gives_seq fun _ => gives_ok (spadWf_update hc)

theorem mshiftBody_spadWf {c : Core} (hc : Memory.wf c.spad = true) (f : XT) (cu : Cursor) : GivesSpad id (mshiftBody f cu c) :=
  gives_seq fun _ => gives_ok (spadWf_update hc)

theorem maccBody_spadWf {c : Core} (hc : Memory.wf c.spad = true) (f : XT) (limit : Nat) (cu : Cursor) : GivesSpad id (maccBody f limit cu c) :=
  gives_seq fun _ => gives_ite (gives_error _) (Gives.bind (touchTile_spadWf hc _ _ _) fun _ h1 => gives_ok (spadWf_update h1))

theorem mzeroBody_spadWf {c : Core} (hc : Memory.wf c.spad = true) (f : XT) (cu : Cursor) : GivesSpad id (mzeroBody f cu c) :=
  gives_seq fun _ => gives_ite (gives_error _) (gives_ok (spadWf_update hc))

theorem mcfgBody_spadWf {c : Core} (hc : Memory.wf c.spad = true) (f : XS) (cu : Cursor) : GivesSpad id (mcfgBody f cu c) :=
  gives_seq fun _ => gives_ok (spadWf_update hc)

theorem mdrainBody_spadWf {c : Core} (hc : Memory.wf c.spad = true) (f : XT) (cu : Cursor) : GivesSpad id (mdrainBody f cu c) :=
  gives_seq fun _ =>
  Gives.bind (touchTile_spadWf hc _ _ _) fun _ h1 =>
  gives_ite
    (gives_seq fun _ =>
     Gives.bind (logSpad_spadWf h1 _ _ _) fun _ h2 => gives_ok (emitFlags_spadWf (spadWf_update h2) _ _ _ _))
    (gives_ok (emitFlags_spadWf (spadWf_update (spadWf_update h1)) _ _ _ _))

theorem ardBody_spadWf {c : Core} (hc : Memory.wf c.spad = true) (f : VA) (cu : Cursor) : GivesSpad id (ardBody f cu c) :=
  gives_seq fun _ => Gives.bind (touchTile_spadWf hc _ _ _) fun _ h1 => writeVs_spadWf h1 _ _ _ _ _

theorem rowWrite_spadWf {c : Core} (hc : Memory.wf c.spad = true) (f : VA) (op : RowOp) (cu : Cursor) : GivesSpad id (rowWrite f op cu c) :=
  gives_seq fun _ => Gives.bind (touchTile_spadWf hc _ _ _) fun _ h1 => gives_ok (spadWf_update h1)

theorem issueReads_spadWf {c : Core} (hc : Memory.wf c.spad = true) (s : State) (cu : Cursor) (dest : LandDest) (ws : BitVec 1)
    (reads : List (EA × Nat × Nat)) (acq : Bool) (known : VWord × BitVec 512) : GivesSpad id (issueReads s cu c dest ws reads acq known) :=
  Gives.bind (takeBob_spadWf hc _ _ _ _ _ _) fun ⟨_, _⟩ h1 => gives_ok (spadWf_update h1)

theorem bufferStore_spadWf {c : Core} (hc : Memory.wf c.spad = true) (cu : Cursor) (kind : StoreKind) (parts : List (Nat × Nat × Nat)) :
    GivesSpad id (bufferStore cu c kind parts) :=
  gives_seq fun _ => gives_ok (spadWf_update (spadWf_update hc))

theorem loadMA_spadWf {c : Core} (hc : Memory.wf c.spad = true) (f : MA) (bytes al : Nat) (dest : Nat → LandDest) (s : State) (cu : Cursor) :
    GivesSpad id (loadMA f bytes al dest s cu c) :=
  gives_seq fun _ => gives_seq fun _ => issueReads_spadWf hc _ _ _ _ _ _ _

theorem storeAt_spadWf {c : Core} (hc : Memory.wf c.spad = true) (ea : EA) (bytes val : Nat) (rel : Option Nat) (cu : Cursor) :
    GivesSpad id (storeAt ea bytes val rel cu c) := by
  unfold storeAt
  split
  · exact Gives.bind (logSpad_spadWf hc _ _ _) fun c1 h1 => gives_ok (spadWf_update (ite_spadWf (spadWf_update h1) h1))
  · exact bufferStore_spadWf hc _ _ _

theorem storeMA_spadWf {c : Core} (hc : Memory.wf c.spad = true) (f : MA) (bytes al : Nat) (vec : Bool) (cu : Cursor) :
    GivesSpad id (storeMA f bytes al vec cu c) :=
  gives_seq fun _ =>
  gives_seq fun _ =>
  gives_ite (Gives.bind (resolveV_spadWf hc _ _) fun ⟨_, _⟩ h1 => gives_let (storeAt_spadWf h1 _ _ _ _ _))
    (Gives.bind (resolveS_spadWf hc _ _) fun ⟨_, _⟩ h2 => gives_let (storeAt_spadWf h2 _ _ _ _ _))

theorem ldacqBody_spadWf {c : Core} (hc : Memory.wf c.spad = true) (f : MA) (s : State) (cu : Cursor) : GivesSpad id (ldacqBody f s cu c) :=
  gives_seq fun _ => gives_seq fun _ => gives_seq fun _ => issueReads_spadWf hc _ _ _ _ _ _ _

theorem strelBody_spadWf {c : Core} (hc : Memory.wf c.spad = true) (f : MX) (cu : Cursor) : GivesSpad id (strelBody f cu c) :=
  gives_seq fun _ => gives_seq fun _ => Gives.bind (resolveS_spadWf hc _ _) fun ⟨_, _⟩ h1 => storeAt_spadWf h1 _ _ _ _ _

theorem vldxBody_spadWf {c : Core} (hc : Memory.wf c.spad = true) (f : MX) (s : State) (cu : Cursor) : GivesSpad id (vldxBody f s cu c) :=
  gives_seq fun _ => gives_seq fun _ => gives_seq fun _ => issueReads_spadWf hc _ _ _ _ _ _ _

theorem vstxBody_spadWf {c : Core} (hc : Memory.wf c.spad = true) (f : MX) (cu : Cursor) : GivesSpad id (vstxBody f cu c) :=
  gives_seq fun _ => gives_seq fun _ => Gives.bind (resolveV_spadWf hc _ _) fun ⟨_, _⟩ h1 => storeAt_spadWf h1 _ _ _ _ _

theorem gatherBody_spadWf {c : Core} (hc : Memory.wf c.spad = true) (f : MX) (s : State) (cu : Cursor) : GivesSpad id (gatherBody f s cu c) :=
  gives_seq fun _ => gives_seq fun _ => gives_seq fun _ => issueReads_spadWf hc _ _ _ _ _ _ _

theorem scatterBody_spadWf {c : Core} (hc : Memory.wf c.spad = true) (f : MX) (cu : Cursor) : GivesSpad id (scatterBody f cu c) := by
  unfold scatterBody
  refine gives_seq fun _ => gives_seq fun _ => Gives.bind (resolveV_spadWf hc _ _) fun ⟨_, c1⟩ h1 => ?_
  refine Gives.bind (gives_foldlM (fun _ _ h => logSpad_spadWf h _ _ _) h1 _) fun c2 h2 => ?_
  have h3 : ∀ sp, Memory.wf (if sp = [] then c2 else emit cu 1 (.spad sp) c2).spad = true := fun _ => ite_spadWf h2 (spadWf_update h2)
  exact gives_ite (gives_ok (h3 _)) (bufferStore_spadWf (h3 _) _ _ _)

theorem dldBody_spadWf {c : Core} (hc : Memory.wf c.spad = true) (f : MX) (s : State) (cu : Cursor) : GivesSpad id (dldBody f s cu c) :=
  gives_seq fun _ => gives_seq fun _ => gives_ite (gives_error _) (issueReads_spadWf hc _ _ _ _ _ _ _)

theorem devictBody_spadWf {c : Core} (hc : Memory.wf c.spad = true) (f : MX) (cu : Cursor) : GivesSpad id (devictBody f cu c) :=
  gives_seq fun _ => gives_seq fun _ => gives_ok (spadWf_update hc)

theorem dgetBody_spadWf {c : Core} (hc : Memory.wf c.spad = true) (f : MX) (cu : Cursor) : GivesSpad id (dgetBody f cu c) :=
  gives_seq fun _ => gives_seq fun _ => gives_seq fun _ => writeS_spadWf hc _ _ _ _ _

theorem relayBody_spadWf {c : Core} (hc : Memory.wf c.spad = true) (f : MX) (cu : Cursor) : GivesSpad id (relayBody f cu c) :=
  gives_seq fun _ => gives_seq fun _ => gives_seq fun _ => gives_ok (spadWf_update (spadWf_update hc))

theorem reshardBody_spadWf {c : Core} (hc : Memory.wf c.spad = true) (f : MX) (s : State) (cu : Cursor) : GivesSpad id (reshardBody f s cu c) :=
  gives_seq fun _ =>
  gives_seq fun _ =>
  Gives.bind (resolveS_spadWf hc _ _) fun ⟨_, _⟩ h1 =>
  gives_seq fun _ => gives_ite (gives_error _) (issueReads_spadWf h1 _ _ _ _ _ _ _)

theorem tldBody_spadWf {c : Core} (hc : Memory.wf c.spad = true) (f : MX) (s : State) (cu : Cursor) : GivesSpad id (tldBody f s cu c) :=
  gives_seq fun _ =>
  gives_seq fun _ =>
  gives_seq fun _ =>
  gives_seq fun _ =>
  gives_ite (gives_error _) (Gives.bind (takeBob_spadWf hc _ _ _ _ _ _) fun ⟨_, _⟩ h1 => gives_ok (spadWf_update h1))

theorem tstBody_spadWf {c : Core} (hc : Memory.wf c.spad = true) (f : MX) (s : State) (cu : Cursor) : GivesSpad id (tstBody f s cu c) :=
  gives_seq fun _ => gives_seq fun _ => gives_seq fun _ => Gives.bind (resolveV_spadWf hc _ _) fun ⟨_, _⟩ h1 => bufferStore_spadWf h1 _ _ _

theorem sbindBody_spadWf {c : Core} (hc : Memory.wf c.spad = true) (f : MX) (cu : Cursor) : GivesSpad id (sbindBody f cu c) :=
  gives_seq fun _ => Gives.bind (resolveV_spadWf hc _ _) fun ⟨_, _⟩ h1 => gives_seq fun _ => gives_ite (gives_error _) (gives_ok (spadWf_update h1))

theorem sunbindBody_spadWf {c : Core} (hc : Memory.wf c.spad = true) (f : MX) (cu : Cursor) : GivesSpad id (sunbindBody f cu c) :=
  gives_seq fun _ => gives_ok (spadWf_update hc)

theorem sposBody_spadWf {c : Core} (hc : Memory.wf c.spad = true) (f : MX) (cu : Cursor) : GivesSpad id (sposBody f cu c) := by
  unfold sposBody
  refine gives_seq fun _ => ?_
  refine gives_seq fun _ => ?_
  split
  · exact gives_error _
  · exact writeS_spadWf hc _ _ _ _ _

theorem sfillBody_spadWf {c : Core} (hc : Memory.wf c.spad = true) (f : MX) (cu : Cursor) : GivesSpad id (sfillBody f cu c) := by
  unfold sfillBody
  refine gives_seq fun _ => ?_
  refine Gives.bind (resolveS_spadWf hc _ _) fun ⟨_, c1⟩ h1 => ?_
  dsimp only
  split
  · exact gives_error _
  · exact gives_ok (spadWf_update h1)

theorem tfcfgBody_spadWf {c : Core} (hc : Memory.wf c.spad = true) (f : MX) (cu : Cursor) : GivesSpad id (tfcfgBody f cu c) :=
  gives_seq fun _ =>
  gives_ite (gives_seq fun _ => gives_ok (spadWf_update hc))
    (Gives.bind (resolveV_spadWf hc _ _) fun ⟨_, _⟩ h1 =>
     gives_seq fun _ => gives_ite (gives_error _) (gives_ok (spadWf_update h1)))

theorem cbindBody_spadWf {c : Core} (hc : Memory.wf c.spad = true) (f : MX) (cu : Cursor) : GivesSpad id (cbindBody f cu c) :=
  gives_seq fun _ => Gives.bind (resolveS_spadWf hc _ _) fun ⟨_, _⟩ h1 => gives_seq fun _ => gives_ok (spadWf_update h1)

theorem cunbindBody_spadWf {c : Core} (hc : Memory.wf c.spad = true) (f : MX) (cu : Cursor) : GivesSpad id (cunbindBody f cu c) :=
  gives_seq fun _ => gives_ok (spadWf_update hc)

theorem postCmd_spadWf {c : Core} (hc : Memory.wf c.spad = true) (cu : Cursor) (ch : Nat) (kind : ShKind) (img : BitVec 2432) (t q : Word)
    (bob : Nat) (fl : FlagBits) : GivesSpad (·.2) (postCmd cu c ch kind img t q bob fl) :=
  gives_ite (gives_error _) (gives_ok (spadWf_update hc))

theorem copyBody_spadWf {c : Core} (hc : Memory.wf c.spad = true) (f : MX) (fill : Bool) (cu : Cursor) : GivesSpad id (copyBody f fill cu c) :=
  gives_seq fun _ =>
  gives_seq fun _ =>
  gives_seq fun _ =>
  Gives.bind (postCmd_spadWf hc _ _ _ _ _ _ _ _) fun ⟨_, _⟩ h1 => writeS_spadWf h1 _ _ _ _ _

theorem accBody_spadWf {c : Core} (hc : Memory.wf c.spad = true) (f : MX) (cu : Cursor) : GivesSpad id (accBody f cu c) := by
  unfold accBody
  refine gives_seq fun _ => ?_
  refine gives_seq fun _ => ?_
  split
  exact Gives.bind (postCmd_spadWf hc _ _ _ _ _ _ _ _) fun ⟨_, c1⟩ h1 => gives_ok h1

theorem accrBody_spadWf {c : Core} (hc : Memory.wf c.spad = true) (f : MX) (cu : Cursor) : GivesSpad id (accrBody f cu c) := by
  unfold accrBody
  refine gives_seq fun _ => ?_
  refine gives_seq fun _ => ?_
  refine gives_seq fun _ => ?_
  split
  exact Gives.bind (takeBob_spadWf hc _ _ _ _ _ _) fun ⟨_, c1⟩ h1 => Gives.bind (postCmd_spadWf h1 _ _ _ _ _ _ _ _) fun ⟨_, c2⟩ h2 => gives_ok h2

theorem sigwBody_spadWf {c : Core} (hc : Memory.wf c.spad = true) (f : MX) (cu : Cursor) : GivesSpad id (sigwBody f cu c) :=
  gives_seq fun _ => gives_seq fun _ => gives_seq fun _ => Gives.bind (postCmd_spadWf hc _ _ _ _ _ _ _ _) fun ⟨_, _⟩ h1 => gives_ok h1

theorem volatile_spadWf {c : Core} (hc : Memory.wf c.spad = true) (v : Word) : Memory.wf (volatile c v).2.spad = true := by
  unfold volatile
  split
  · split
    · split
      · exact spadWf_update hc
      · exact hc
    · exact spadWf_update hc
  · exact hc

theorem chdoneBody_spadWf {c : Core} (hc : Memory.wf c.spad = true) (f : MX) (cu : Cursor) : GivesSpad id (chdoneBody f cu c) :=
  gives_seq fun _ => gives_seq fun _ => writeS_spadWf (volatile_spadWf hc _) _ _ _ _ _

theorem ventsetBody_spadWf {c : Core} (hc : Memory.wf c.spad = true) (f : MX) (s : State) (cu : Cursor) : GivesSpad id (ventsetBody f s cu c) :=
  gives_seq fun _ => gives_seq fun _ => gives_ok (spadWf_update hc)

theorem ventrdyBody_spadWf {c : Core} (hc : Memory.wf c.spad = true) (f : MX) (cu : Cursor) : GivesSpad id (ventrdyBody f cu c) :=
  gives_seq fun _ => gives_seq fun _ => gives_ok (spadWf_update hc)

theorem ventgrpBody_spadWf {c : Core} (hc : Memory.wf c.spad = true) (f : MX) (cu : Cursor) : GivesSpad id (ventgrpBody f cu c) :=
  gives_seq fun _ => gives_seq fun _ => gives_seq fun _ => gives_ok (spadWf_update hc)

theorem collmodeBody_spadWf {c : Core} (hc : Memory.wf c.spad = true) (f : MX) (cu : Cursor) : GivesSpad id (collmodeBody f cu c) :=
  gives_seq fun _ => gives_seq fun _ => gives_ok (spadWf_update hc)

theorem fenceBody_spadWf {c : Core} (hc : Memory.wf c.spad = true) (f : MX) (cu : Cursor) : GivesSpad id (fenceBody f cu c) :=
  gives_seq fun _ => gives_ok (spadWf_update hc)

theorem fencexBody_spadWf {c : Core} (hc : Memory.wf c.spad = true) (f : MX) (cu : Cursor) : GivesSpad id (fencexBody f cu c) :=
  gives_seq fun _ => gives_ok (spadWf_update hc)

theorem flushBody_spadWf {c : Core} (hc : Memory.wf c.spad = true) (f : MX) (cu : Cursor) : GivesSpad id (flushBody f cu c) :=
  gives_seq fun _ => gives_ok (spadWf_update hc)

theorem csrWrite_spadWf {c : Core} (hc : Memory.wf c.spad = true) (cu : Cursor) (n : Nat) (x : Word) : Memory.wf (csrWrite cu n x c).spad = true :=
  ite_spadWf (spadWf_update hc) (ite_spadWf (spadWf_update hc) (ite_spadWf (spadWf_update hc) (spadWf_update hc)))

theorem csrOld_spadWf {c : Core} (hc : Memory.wf c.spad = true) (f : SI) (s : State) (cu : Cursor) :
    GivesSpad (·.2.2) (csrOld f s cu c) := by
  unfold csrOld
  refine gives_ite (gives_error _) ?_
  split
  · exact gives_error _
  · exact gives_ite (gives_ok (volatile_spadWf hc _)) (gives_ok hc)

theorem csrrBody_spadWf {c : Core} (hc : Memory.wf c.spad = true) (f : SI) (s : State) (cu : Cursor) : GivesSpad id (csrrBody f s cu c) :=
  gives_seq fun _ => Gives.bind (csrOld_spadWf hc _ _ _) fun ⟨_, _, _⟩ h1 => writeS_spadWf h1 _ _ _ _ _

theorem csrUpdate_spadWf {c : Core} (hc : Memory.wf c.spad = true) (f : SI) (s : State) (rwOnly : Bool) (new : Word → Word → Word) (cu : Cursor) :
    GivesSpad id (csrUpdate f s rwOnly new cu c) :=
  Gives.bind (csrOld_spadWf hc _ _ _) fun ⟨_, _, _⟩ h1 =>
  gives_seq fun _ =>
  Gives.bind (resolveS_spadWf h1 _ _) fun ⟨_, _⟩ h2 =>
  gives_seq fun _ => writeS_spadWf (csrWrite_spadWf h2 _ _ _) _ _ _ _ _

theorem finishF_spadWf {c : Core} (hc : Memory.wf c.spad = true) (f : SR) (r : Nat × FlagBits) (cu : Cursor) : GivesSpad id (finishF f r cu c) :=
  Gives.bind (writeS_spadWf hc _ _ _ _ _) fun _ h1 => gives_ok (emitFlags_spadWf h1 _ _ _ _)

theorem scalarF2_spadWf {c : Core} (hc : Memory.wf c.spad = true) (f : SR) (op : FFmt → Nat → Nat → Nat × FlagBits) (cu : Cursor) :
    GivesSpad id (scalarF2 f op cu c) :=
  gives_seq fun _ =>
  Gives.bind (resolveS_spadWf hc _ _) fun ⟨_, _⟩ h1 =>
  Gives.bind (resolveS_spadWf h1 _ _) fun ⟨_, _⟩ h2 => finishF_spadWf h2 _ _ _

theorem scalarF1_spadWf {c : Core} (hc : Memory.wf c.spad = true) (f : SR) (op : FFmt → Nat → Nat × FlagBits) (cu : Cursor) :
    GivesSpad id (scalarF1 f op cu c) :=
  gives_seq fun _ => Gives.bind (resolveS_spadWf hc _ _) fun ⟨_, _⟩ h1 => finishF_spadWf h1 _ _ _

theorem scalarFcvt_spadWf {c : Core} (hc : Memory.wf c.spad = true) (f : SR) (cu : Cursor) : GivesSpad id (scalarFcvt f cu c) := by
  unfold scalarFcvt
  refine gives_seq fun _ => ?_
  split
  exact Gives.bind (resolveS_spadWf hc _ _) fun ⟨_, c1⟩ h1 => finishF_spadWf h1 _ _ _

theorem scalarFcvti_spadWf {c : Core} (hc : Memory.wf c.spad = true) (f : SR) (cu : Cursor) : GivesSpad id (scalarFcvti f cu c) :=
  gives_seq fun _ => Gives.bind (resolveS_spadWf hc _ _) fun ⟨_, _⟩ h1 => finishF_spadWf h1 _ _ _

theorem scalarIcvtf_spadWf {c : Core} (hc : Memory.wf c.spad = true) (f : SR) (cu : Cursor) : GivesSpad id (scalarIcvtf f cu c) := by
  unfold scalarIcvtf
  refine gives_seq fun _ => ?_
  split
  exact Gives.bind (resolveS_spadWf hc _ _) fun ⟨_, c1⟩ h1 => finishF_spadWf h1 _ _ _

theorem scalarFclass_spadWf {c : Core} (hc : Memory.wf c.spad = true) (f : SR) (cu : Cursor) : GivesSpad id (scalarFclass f cu c) :=
  gives_seq fun _ => Gives.bind (resolveS_spadWf hc _ _) fun ⟨_, _⟩ h1 => writeS_spadWf h1 _ _ _ _ _

theorem scalarFcmp_spadWf {c : Core} (hc : Memory.wf c.spad = true) (f : SR) (cu : Cursor) : GivesSpad id (scalarFcmp f cu c) :=
  gives_seq fun _ =>
  Gives.bind (resolveS_spadWf hc _ _) fun ⟨_, _⟩ h1 =>
  Gives.bind (resolveS_spadWf h1 _ _) fun ⟨_, _⟩ h2 => gives_ok (emitFlags_spadWf (writeG_spadWf h2 _ _ _ _ _) _ _ _ _)

theorem vecPerm_spadWf {c : Core} (hc : Memory.wf c.spad = true) (f : VR) (fnMax : Nat) (unary : Bool) (g : Nat → VWord → VWord → Nat → Nat)
    (cu : Cursor) : GivesSpad id (vecPerm f fnMax unary g cu c) :=
  gives_seq fun _ =>
  Gives.bind (resolveV_spadWf hc _ _) fun ⟨_, _⟩ h1 =>
  gives_ite (gives_let (writeV_spadWf h1 _ _ _ _ _ _ _))
    (Gives.bind (resolveV_spadWf h1 _ _) fun ⟨_, _⟩ h2 => writeV_spadWf h2 _ _ _ _ _ _ _)

theorem vecInsExt_spadWf {c : Core} (hc : Memory.wf c.spad = true) (f : VR) (g : Nat → VWord → VWord → Nat → Nat) (cu : Cursor) :
    GivesSpad id (vecInsExt f g cu c) :=
  gives_seq fun _ =>
  Gives.bind (resolveV_spadWf hc _ _) fun ⟨_, _⟩ h1 =>
  Gives.bind (resolveV_spadWf h1 _ _) fun ⟨_, _⟩ h2 => writeV_spadWf h2 _ _ _ _ _ _ _

theorem vecPack_spadWf {c : Core} (hc : Memory.wf c.spad = true) (f : VR) (g : Nat → (Nat → Bool) → VWord → VWord) (cu : Cursor) :
    GivesSpad id (vecPack f g cu c) :=
  gives_seq fun _ => Gives.bind (resolveV_spadWf hc _ _) fun ⟨_, _⟩ h1 => writeV_spadWf h1 _ _ _ _ _ _ _

theorem vecPermG_spadWf {c : Core} (hc : Memory.wf c.spad = true) (f : VT) (cu : Cursor) : GivesSpad id (vecPermG f cu c) :=
  gives_seq fun _ =>
  Gives.bind (resolveV_spadWf hc _ _) fun ⟨_, _⟩ h1 =>
  Gives.bind (resolveV_spadWf h1 _ _) fun ⟨_, _⟩ h2 =>
  Gives.bind (resolveV_spadWf h2 _ _) fun ⟨_, _⟩ h3 => writeV_spadWf h3 _ _ _ _ _ _ _

end Sys2Proof.Machine
end

