-- ==== Sys2Proof/Proofs/HomeForm.lean ====
section
/-! SUPPORT. Translation, accesses at their home, and a core's fetch, write-backs and landings keep the form of every memory. -/
namespace Sys2Proof.Machine

theorem rollbackCore_spadWf {c : Core} (hc : Memory.wf c.spad = true) : Memory.wf (rollbackCore c).spad = true :=
  undoSpad_wf hc c.spadLog

theorem execEmptySlot_endsWf {s : State} (h : s.memWf = true) : EndsWf (execEmptySlot s) :=
  endsWf_next h

theorem walkUse_memWf {s : State} (h : s.memWf = true) (ctx va : Nat) : (walkUse s ctx va).memWf = true := by
  unfold walkUse
  refine foldl_memWf (fun _ _ h1 => ?_) h _
  split
  · exact touchL2_memWf h1 _ _ _ _ _ _ _
  · exact h1

theorem tlbFill_memWf {s : State} (h : s.memWf = true) (t ctx va lvl : Nat) (e : Word) : (tlbFill s t ctx va lvl e).memWf = true := by
  unfold tlbFill
  extract_lets _ s1 s2 _ s3 _
  have h1 : s1.memWf = true := ite_memWf (ite_memWf h (memWf_update h)) h
  have h2 : s2.memWf = true := ite_memWf h1 (walkUse_memWf h1 _ _)
  have h3 : s3.memWf = true := ite_memWf (memWf_update h2) h2
  exact ite_memWf h3 (memWf_update h3)

theorem setCtxWord_memWf {s : State} (h : s.memWf = true) (ctx w : Nat) (v : Word) : (setCtxWord s ctx w v).memWf = true :=
  setHbm_memWf h _ _ _ _

theorem homeUse_memWf {s : State} (h : s.memWf = true) (ctx va : Nat) (ph : Phys) : (homeUse s ctx va ph).memWf = true := by
  unfold homeUse
  split
  · exact touchL2_memWf (ite_memWf (reseal_memWf h _ _) h) _ _ _ _ _ _ _
  · exact h

theorem bankTurn_memWf {s : State} (h : s.memWf = true) (path : Nat) (ph : Phys) : (bankTurn s path ph).memWf = true :=
  ite_memWf (memWf_update h) h

theorem sendMsix_memWf {s : State} (h : s.memWf = true) (port vec : Nat) : (sendMsix s port vec).memWf = true :=
  ite_memWf h (memWf_update h)

theorem putRecord_memWf {s : State} (h : s.memWf = true) (d a : Nat) (r : BitVec 512) (n i : Nat) : (putRecord s d a r n i).memWf = true := by
  induction n generalizing s i with
  | zero => exact setHbm_memWf h _ _ _ _
  | succ n ih =>
    rw [putRecord]
    exact ite_memWf (ih (setHbm_memWf h _ _ _ _) _) (setHbm_memWf h _ _ _ _)

theorem writeFault_memWf {s : State} (h : s.memWf = true) (ctx port : Nat) (r : BitVec 512) : (writeFault s ctx port r).memWf = true := by
  unfold writeFault
  extract_lets w5 fhead lost n lvl va s1 p s2 s3 s4
  have h1 : s1.memWf = true := ite_memWf (ite_memWf h (memWf_update h)) h
  have h2 : s2.memWf = true := putRecord_memWf h1 _ _ _ _ _
  have h3 : s3.memWf = true := setCtxWord_memWf h2 _ _ _
  have h4 : s4.memWf = true := ite_memWf (setCtxWord_memWf h1 _ _ _) (memWf_update h3)
  exact sendMsix_memWf h4 _ _

theorem stickyFlags_memWf {s : State} (h : s.memWf = true) (ph : Phys) (fl : FlagBits) : (stickyFlags s ph fl).memWf = true := by
  unfold stickyFlags
  refine ite_memWf h ?_
  refine ite_memWf (State.memWf_setCore h _ _ (spadWf_update (State.memWf_core h _))) ?_
  split
  · exact State.memWf_setDie h _ _
  · exact h

theorem sinter_memWf {s : State} (h : s.memWf = true) (mkind mid die ctx va : Nat) (ph : Phys) (sc : Nat) (wh : Word) :
    (sinter s mkind mid die ctx va ph sc wh).memWf = true := by
  unfold sinter
  refine ite_memWf h ?_
  extract_lets _ _ _ _ _ _ _ _ _ _ _ s1 s2 _
  have h1 : s1.memWf = true := writeFault_memWf h _ _ _
  have h2 : s2.memWf = true := ite_memWf (ite_memWf (memWf_update h1) h1) h
  exact ite_memWf h2 (memWf_update h2)

theorem sinterBy_memWf {s : State} (h : s.memWf = true) (m : MasterT) (ctx va : Nat) (ph : Phys) (sc : Nat) :
    (sinterBy s m ctx va ph sc).memWf = true := by
  unfold sinterBy
  split
  · exact sinter_memWf h _ _ _ _ _ _ _ _
  · exact h

theorem wsDue_memWf {s : State} (h : s.memWf = true) (d who t0 pa : Nat) : (wsDue s d who t0 pa).2.memWf = true :=
  iteAt_memWf Prod.snd h (State.memWf_setDie h _ _)

theorem wsUnit_memWf {s : State} (h : s.memWf = true) (who : Nat) (ph : Phys) : (wsUnit s who ph).memWf = true := by
  unfold wsUnit
  refine ite_memWf ?_ h
  split
  · exact wsDue_memWf h _ _ _ _
  · exact h

theorem homeTake_memWf {s : State} (h : s.memWf = true) (ctx va n : Nat) (ph : Phys) : (homeTake s ctx va n ph).2.memWf = true := by
  unfold homeTake
  split
  · exact memWf_update h
  · exact h

theorem raiseClock_memWf {s : State} (h : s.memWf = true) (d j : Nat) (v : BitVec 32) : (raiseClock s d j v).memWf = true :=
  ite_memWf h (State.memWf_setDie h _ _)

theorem numberAll_memWf {s : State} (h : s.memWf = true) (d : Nat) (dds : List Nat) (line : Nat) : (numberAll s d dds line).memWf = true :=
  State.memWf_setDie h _ _

theorem numberWrite_memWf {s : State} (h : s.memWf = true) (d dd line : Nat) : (numberWrite s d dd line).memWf = true :=
  numberAll_memWf h _ _ _

theorem ackWrite_memWf {s : State} (h : s.memWf = true) (d : Nat) (v : BitVec 32) : (ackWrite s d v).memWf = true :=
  raiseClock_memWf (State.memWf_setDie h _ _) _ _ _

theorem sendData_memWf {s : State} (h : s.memWf = true) (core : Nat) (t : Transit) : (sendData s core t).memWf = true :=
  ite_memWf (State.memWf_setCore h _ _ (spadWf_update (State.memWf_core h _))) h

theorem l1Fill_spadWf {c : Core} (hc : Memory.wf c.spad = true) (x : L1Line) : Memory.wf (l1Fill c x).spad = true :=
  ite_spadWf hc (spadWf_update hc)

theorem patchAnswers_memWf {s : State} (h : s.memWf = true) (x : Xact) : (patchAnswers s x).memWf = true := by
  unfold patchAnswers
  split
  · exact ite_memWf h (memWf_update h)
  · exact h

theorem performVal_memWf {s : State} (h : s.memWf = true) (x : Xact) : (performVal s x).2.1.memWf = true := by
  unfold performVal
  split
  · exact bankTurn_memWf (homeUse_memWf (checkAbsent_memWf h _ _ _ _) _ _ _) _ _
  · exact bankTurn_memWf (homeWrite_memWf h _ _ _ _ _) _ _
  · exact bankTurn_memWf (homeWrite_memWf h _ _ _ _ _) _ _
  · exact ite_memWf (stickyFlags_memWf (homeWrite_memWf h _ _ _ _ _) _ _) (homeWrite_memWf h _ _ _ _ _)

/-- Which cycle a load's data come back in leaves the memories alone. -/
theorem loadDue_memWf {s : State} (h : s.memWf = true) (x : Xact) (d : Nat) (least : Nat) :
    (if x.ph.loc ≠ 2 then (least, s)
      else match localDie s x.ph.die with
        | some k => let r := wsDue s k (x.mkind * 65536 + x.mid) x.t0 x.ph.pa; (if k = d then r.1 else max least r.1, r.2)
        | none => (least, s)).2.memWf = true := by
  split
  · exact h
  · split
    · exact wsDue_memWf h _ _ _ _
    · exact h

theorem deliver_memWf {s : State} (h : s.memWf = true) (x : Xact) : (deliver s x).memWf = true := by
  unfold deliver
  split
  rename_i _ s1 e1
  have h1 : s1.memWf = true := memWf_of_eq (p := (·.2)) e1 (iteAt_memWf Prod.snd (memWf_update h) h)
  split
  · extract_lets _ c2 s3 _
    have h2 : Memory.wf c2.spad = true := State.memWf_core h1 _
    have h3 : s3.memWf = true := ite_memWf (State.memWf_setCore h1 _ _ (l1Fill_spadWf h2 _)) h1
    exact sendData_memWf (loadDue_memWf h3 _ _ _) _ _
  · exact State.memWf_setQueue h1 _ _
  · refine ite_memWf (memWf_update h1) ?_
    extract_lets c5
    have h5 : Memory.wf c5.spad = true := State.memWf_core h1 _
    split
    · exact h1
    · extract_lets _ _ _ _ s6
      have h6 : s6.memWf = true := State.memWf_setCore h1 _ _ (spadWf_update h5)
      refine ite_memWf h6 ?_
      split
      · exact sendData_memWf h6 _ _
      · exact h6
  · exact State.memWf_setCore h1 _ _ (spadWf_update (State.memWf_core h1 _))
  · exact memWf_update h1
  · exact State.memWf_setQueue h1 _ _
  · exact memWf_update h1
  · exact h1

theorem sendPacket_memWf {s : State} (h : s.memWf = true) (d ep : Nat) (p : Packet) : (sendPacket s d ep p).memWf = true :=
  ite_memWf (State.memWf_setDie h _ _) (State.memWf_setDie h _ _)

theorem sendFresh_memWf {s : State} (h : s.memWf = true) (x : Xact) : (sendFresh s x).memWf = true :=
  ite_memWf h (sendPacket_memWf (ite_memWf (ackWrite_memWf (memWf_update (deliver_memWf (memWf_update h) _)) _ _) (memWf_update h)) _ _ _)

theorem sendAll_memWf {s : State} (h : s.memWf = true) : (sendAll s).memWf = true := by
  unfold sendAll
  refine foldl_memWf (fun _ _ h1 => ?_) h _
  split
  · exact sendFresh_memWf h1 _
  · exact h1

theorem countOrder_memWf {s : State} (h : s.memWf = true) (x : Xact) : (countOrder s x).memWf = true := by
  unfold countOrder
  extract_lets s1
  have h1 : s1.memWf = true := ite_memWf (memWf_update h) h
  exact ite_memWf (memWf_update h1) h1

theorem raceToLanding_memWf {s : State} (h : s.memWf = true) (x : Xact) (n : Nat) : (raceToLanding s x n).memWf = true := by
  unfold raceToLanding
  split
  · exact memWf_update (State.memWf_setCore h _ _ (spadWf_update (State.memWf_core h _)))
  · exact h

theorem sinterX_memWf {s : State} (h : s.memWf = true) (x : Xact) : (sinterX s x).memWf = true :=
  raceToLanding_memWf (sinter_memWf h _ _ _ _ _ _ _ _) _ _

theorem performX_memWf {s : State} (h : s.memWf = true) (x : Xact) : (performX s x).memWf = true := by
  unfold performX
  extract_lets _ _
  split
  rename_i _ s1 _ _ e1
  have h1 : s1.memWf = true := memWf_of_eq (p := (·.2.1)) e1 (performVal_memWf h _)
  extract_lets _ s2 _ s3 s4 _ s5 _ _ _
  have h2 : s2.memWf = true := patchAnswers_memWf (memWf_update h1) _
  have h3 : s3.memWf = true := sinterX_memWf h2 _
  have h4 : s4.memWf = true := ite_memWf h3 (countOrder_memWf h3 _)
  have h5 : s5.memWf = true := memWf_update h4
  refine ite_memWf (memWf_update (deliver_memWf h4 _)) ?_
  split
  · exact h5
  · exact sendPacket_memWf h5 _ _ _

theorem addXact_memWf {s : State} (h : s.memWf = true) (x : Xact) : (addXact s x).memWf = true :=
  sendFresh_memWf (memWf_update (ite_memWf (numberWrite_memWf h _ _ _) h)) _

theorem vaGet_memWf {s : State} (h : s.memWf = true) (acc0 : AccT) (t ctx va n : Nat) (m : MasterT) :
    GivesWf (fun r => r.2) (vaGet acc0 s t ctx va n m) := by
  refine gives_foldlM (P := fun b : Nat × State => b.2.memWf = true) (fun acc p h1 => ?_) h _
  split
  · exact gives_error _
  · exact gives_ok
        (sinterBy_memWf
           (wsUnit_memWf (homeUse_memWf (homeTake_memWf (checkAbsent_memWf (tlbFill_memWf h1 _ _ _ _ _) _ _ _ _) _ _ _ _) _ _ _) _
              _) _ _ _ _ _)

theorem vaRead_memWf {s : State} (h : s.memWf = true) (t ctx va n : Nat) (m : MasterT) : GivesWf (fun r => r.2) (vaRead s t ctx va n m) :=
  vaGet_memWf h _ _ _ _ _ _

theorem postXact_memWf {s : State} (h : s.memWf = true) (m : MasterT) (ctx va n : Nat) (kind : XKind) (ph : Phys) (rel : Bool) (ret : Ret) :
    (postXact s m ctx va n kind ph rel ret).memWf = true :=
  addXact_memWf h _

theorem numberNow_memWf {s : State} (h : s.memWf = true) (d : Nat) (ph : Phys) : (numberNow s d ph).memWf = true :=
  ite_memWf h (ackWrite_memWf (numberWrite_memWf h _ _ _) _ _)

theorem vaPut_memWf {s : State} (h : s.memWf = true) (rel : Bool) (ret : Ret) (t ctx va n v : Nat) (m : MasterT) :
    (vaPut rel ret s t ctx va n v m).1.memWf = true := by
  refine foldlAt_memWf Prod.fst (fun acc p h1 => ?_) h _
  split
  · exact h1
  · split
    · exact h1
    · have h2 := fun ctx va lvl e => tlbFill_memWf h1 t ctx va lvl e
      exact iteAt_memWf Prod.fst (postXact_memWf (h2 _ _ _ _) _ _ _ _ _ _ _ _)
          (numberNow_memWf (sinterBy_memWf (homeWrite_memWf (h2 _ _ _ _) _ _ _ _ _) _ _ _ _ _) _ _)

theorem vaWrite_memWf {s : State} (h : s.memWf = true) (t ctx va n v : Nat) (m : MasterT) : (vaWrite s t ctx va n v m).1.memWf = true :=
  vaPut_memWf h _ _ _ _ _ _ _ _

theorem vaRelease_memWf {s : State} (h : s.memWf = true) (t ctx va n v : Nat) (m : MasterT) : (vaRelease s t ctx va n v m).1.memWf = true :=
  vaPut_memWf h _ _ _ _ _ _ _ _

theorem applyBeat_spadWf {c : Core} (hc : Memory.wf c.spad = true) (t fm sub : Nat) (a b sa sb : VWord) (blockEnd : Bool) :
    Memory.wf (applyBeat c t fm sub a b sa sb blockEnd).spad = true :=
  ite_spadWf (ite_spadWf (spadWf_update hc) (spadWf_update hc)) (spadWf_update hc)

theorem slotldBody_memWf {s : State} {c : Core} (h : s.memWf = true) (hc : Memory.wf c.spad = true) (f : SC) (cu : Cursor) :
    GivesWf id (slotldBody f s cu c) := by
  unfold slotldBody
  refine gives_seq fun _ =>
    Gives.bind (resolveS_spadWf hc _ _) fun ⟨_, c1⟩ h1 =>
    Gives.bind (resolveS_spadWf h1 _ _) fun ⟨_, c2⟩ h2 =>
    gives_seq fun _ => gives_ite (gives_error _) (gives_ite (gives_error _) ?_)
  split
  · exact gives_error _
  · rename_i s1 e1
    exact gives_ok (memWf_update (State.memWf_setCore (vaRead_memWf h _ _ _ _ _ _ e1) _ _ (spadWf_update h2)))

theorem laneStepS_endsWf {s : State} (h : s.memWf = true) {pr : BitVec 6} {body : Cursor → Core → LM State}
    (hb : GivesWf id (body s.cur (s.core s.cur.core))) : EndsWf (laneStepS s pr body) := by
  unfold laneStepS
  extract_lets c1
  have h1 : Memory.wf c1.spad = true := State.memWf_core h _
  split
  · exact endsWf_next (State.memWf_setCore h _ _ (takeTrap_spadWf h1 _ _))
  · exact endsWf_next h
  · split
    · rename_i s2 e2
      exact endsWf_next (hb _ e2)
    · exact endsWf_next (State.memWf_setCore h _ _ (takeTrap_spadWf h1 _ _))
    · exact endsWf_next (State.memWf_setCore h _ _ (spadWf_update h1))

theorem execSlotld_endsWf {s : State} (h : s.memWf = true) (f : SC) : EndsWf (execSlotld f s) :=
  laneStepS_endsWf h (slotldBody_memWf h (State.memWf_core h _) _ _)

theorem fetchIndex_spadWf {c : Core} (hc : Memory.wf c.spad = true) : Memory.wf (fetchIndex c).spad = true :=
  ite_spadWf hc
    (ite_spadWf (ite_spadWf (spadWf_update hc) (spadWf_update hc))
       (ite_spadWf (spadWf_update hc)
          (ite_spadWf (spadWf_update hc)
             (ite_spadWf (spadWf_update hc) (ite_spadWf (spadWf_update hc) (ite_spadWf (spadWf_update hc) (spadWf_update hc)))))))

theorem fetchN_spadWf {c : Core} (hc : Memory.wf c.spad = true) (n : Nat) : Memory.wf (fetchN n c).spad = true := by
  induction n generalizing c with
  | zero => exact hc
  | succ n ih => exact ih (fetchIndex_spadWf hc)

theorem execBundleFetch_endsWf {s : State} (h : s.memWf = true) (core : Nat) : EndsWf (execBundleFetch core s) :=
  endsWf_next (State.memWf_setCore h _ _ (fetchN_spadWf (State.memWf_core h _) _))

theorem applyParts_wf {m : Memory} (h : Memory.wf m = true) (parts : List (Nat × Nat × Nat × Nat)) :
    Memory.wf (parts.foldl (fun m q => Memory.writeEn m q.1 q.2.1 q.2.2.1 q.2.2.2) m) = true :=
  List.foldlRecOn (motive := fun m => Memory.wf m = true) parts _ h fun _ hm _ _ => Memory.wf_writeEn _ _ _ _ hm

/-- Of the effects only a scratchpad store writes the scratchpad. -/
theorem applyEff_spadWf {c : Core} (hc : Memory.wf c.spad = true) (p : Pend) : Memory.wf (applyEff p c).spad = true := by
  unfold applyEff
  extract_lets c1 a put l0
  have h1 : Memory.wf c1.spad = true := spadWf_update hc
  have hput : ∀ x, Memory.wf (put x).spad = true := fun _ => spadWf_update h1
  split
  case h_6 => exact ite_spadWf h1 (hput _)
  case h_10 => exact applyParts_wf h1 _
  case h_11 => exact spadWf_update h1
  case h_12 => exact applyBeat_spadWf h1 _ _ _ _ _ _ _ _
  case h_13 => exact spadWf_update h1
  case h_14 => split <;> exact hput _
  case h_17 => split <;> exact hput _
  case h_18 => exact spadWf_update h1
  case h_20 => exact h1
  all_goals exact hput _

theorem formRead_memWf {s : State} (h : s.memWf = true) (core : Nat) (g : BitVec 768) (fill : BitVec 32) (k : Nat) :
    SomeWf (·.2) (formRead s core g fill k) := by
  unfold formRead
  extract_lets c fmt w live rest d die n a whole va
  refine someWf_ite (someWf_ite (someWf_some h) (someWf_ite (someWf_some h) (someWf_foldlM (fun acc i h1 => ?_) h _)))
      (someWf_ite (someWf_some h) (someWf_ite someWf_none (someWf_ite (someWf_some h) ?_)))
  · refine someWf_ite (someWf_some h1) (someWf_ite (someWf_some h1) (someWf_ite (someWf_some h1) ?_))
    split
    · exact someWf_some h1
    · exact someWf_none
    · refine someWf_ite someWf_none (someWf_ite (someWf_some h1) ?_)
      split
      · rename_i e2
        exact someWf_some (vaRead_memWf h1 _ _ _ _ _ _ e2)
      · exact someWf_some h1
  · split
    · rename_i e2
      exact someWf_some (vaRead_memWf h _ _ _ _ _ _ e2)
    · exact someWf_some h

theorem execStreamPortFetch_endsWf {s : State} (h : s.memWf = true) (core port : Nat) : EndsWf (execStreamPortFetch core port s) := by
  unfold execStreamPortFetch
  extract_lets c1
  split
  · exact endsWf_next h
  · refine endsWf_ite (endsWf_next h) ?_
    split
    · exact endsWf_next h
    · rename_i _ s2 e2
      have h2 : s2.memWf = true := formRead_memWf h _ _ _ _ _ e2
      exact finish_endsWf (State.memWf_setCore h2 _ _ (spadWf_update (State.memWf_core h2 _)))

theorem drainEntry_memWf {s : State} (h : s.memWf = true) (core port : Nat) (p : Port) (e : PushEntry) :
    (drainEntry s core port p e).memWf = true :=
  have hc := State.memWf_core h core
  ite_memWf (State.memWf_setCore h _ _ (Memory.wf_writeN _ _ _ hc)) (State.memWf_setCore h _ _ (spadWf_update (spadWf_update (spadWf_update hc))))

theorem execStreamPortDrain_endsWf {s : State} (h : s.memWf = true) (core port : Nat) : EndsWf (execStreamPortDrain core port s) := by
  unfold execStreamPortDrain
  split
  · exact endsWf_next h
  · split
    · exact endsWf_next h
    · exact endsWf_next (drainEntry_memWf h _ _ _ _)

theorem drainAll_memWf {s : State} (h : s.memWf = true) (core port k : Nat) : (drainAll core port k s).memWf = true := by
  induction k generalizing s with
  | zero => exact h
  | succ k ih =>
    rw [drainAll]
    split
    · exact h
    · split
      · exact h
      · exact ih (drainEntry_memWf h _ _ _ _)

theorem execResultWriteback_endsWf {s : State} (h : s.memWf = true) (core : Nat) : EndsWf (execResultWriteback core s) :=
  have h1 : ∀ l : List Nat, (l.foldl (fun s n => drainAll core n 8 s) s).memWf = true := foldl_memWf (fun _ _ h => drainAll_memWf h _ _ _) h
  endsWf_next (State.memWf_setCore (h1 _) _ _
    (foldl_spadWf (fun _ _ hc => applyEff_spadWf hc _) (spadWf_update (State.memWf_core (h1 _) _)) _))

theorem landReg_spadWf {c : Core} (hc : Memory.wf c.spad = true) (p : Pend) (ws : Bool) (e : Eff) (l : LWord) :
    Memory.wf (landReg c p ws e l).spad = true :=
  ite_spadWf (applyEff_spadWf (ite_spadWf hc (applyEff_spadWf hc _)) _) (ite_spadWf hc (applyEff_spadWf hc _))

theorem landOne_spadWf {c : Core} (hc : Memory.wf c.spad = true) (p : Pend) (b : Bob) (dest : LandDest) (ws : Bool) :
    GivesSpad id (landOne c p b dest ws) := by
  have hreg := fun {c : Core} (hc : Memory.wf c.spad = true) e l => landReg_spadWf hc p ws e l
  unfold landOne
  extract_lets v ill
  refine gives_ite (gives_error _) ?_
  split
  · exact gives_ok (hreg hc _ _)
  · exact gives_ok (hreg hc _ _)
  · exact gives_ok (hreg hc _ _)
  · exact gives_ok (hreg hc _ _)
  · exact gives_ok (ite_spadWf (hreg (spadWf_update hc) _ _) (spadWf_update (hreg (spadWf_update hc) _ _)))
  · exact gives_ite (gives_ok (applyEff_spadWf hc _)) (gives_error _)
  · split
    · exact gives_error _
    · exact gives_ite (gives_ok (spadWf_update (applyEff_spadWf hc _))) (gives_error _)
  · refine gives_ite (gives_error _) (gives_ok ?_)
    split
    · exact ite_spadWf (hreg hc _ _) (spadWf_update (hreg hc _ _))
    · exact hreg hc _ _

theorem execLoadLanding_endsWf {s : State} (h : s.memWf = true) (core : Nat) : EndsWf (execLoadLanding core s) := by
  unfold execLoadLanding
  extract_lets c1 _
  have h1 : Memory.wf c1.spad = true := State.memWf_core h _
  split
  · exact endsWf_next h
  · split
    · split
      · exact endsWf_next (State.memWf_setCore h _ _ (spadWf_update h1))
      · split
        · exact endsWf_next (State.memWf_setCore h _ _ (takeTrap_spadWf (spadWf_update h1) _ _))
        · split
          · exact endsWf_next (State.memWf_setCore h _ _ (takeTrap_spadWf h1 _ _))
          · rename_i c2 e2
            have h2 : Memory.wf c2.spad = true := landOne_spadWf h1 _ _ _ _ _ e2
            exact endsWf_next (State.memWf_setCore h _ _ (spadWf_update h2))
    · exact endsWf_next h

theorem execDataArrival_endsWf {s : State} (h : s.memWf = true) (core : Nat) : EndsWf (execDataArrival core s) :=
  endsWf_next (State.memWf_setCore h _ _ (foldl_spadWf (fun _ _ hc => spadWf_update hc) (spadWf_update (State.memWf_core h _)) _))

theorem execBobbinFull_endsWf {s : State} (h : s.memWf = true) (core : Nat) : EndsWf (execBobbinFull core s) :=
  endsWf_next (State.memWf_setCore h _ _ (takeTrap_spadWf (State.memWf_core h _) _ _))

theorem execLoopBack_endsWf {s : State} (h : s.memWf = true) (core : Nat) : EndsWf (execLoopBack core s) := by
  unfold execLoopBack
  extract_lets c1
  have h1 : Memory.wf c1.spad = true := State.memWf_core h _
  split
  · exact endsWf_next (State.memWf_setCore h _ _ (spadWf_update h1))
  · exact endsWf_next h

end Sys2Proof.Machine
end

