-- ==== Sys2Proof/Proofs/TaskForm.lean ====
section
/-! SUPPORT. Atomics, fault records, traces, launches, groups and tasks keep the form of every memory. -/
namespace Sys2Proof.Machine

theorem vaAmo_memWf {s : State} (h : s.memWf = true) (t ctx va aop w : Nat) (opa opb : Word) (m : MasterT) :
    GivesWf (fun r => r.2) (vaAmo s t ctx va aop w opa opb m) := by
  unfold vaAmo
  split
  · exact gives_error _
  · extract_lets s1 _ _ s2
    have h1 : s1.memWf = true := tlbFill_memWf h _ _ _ _ _
    have h2 : s2.memWf = true := stickyFlags_memWf (homeWrite_memWf h1 _ _ _ _ _) _ _
    exact gives_ite (gives_ok h1)
        (gives_ite (gives_ok (postXact_memWf h1 _ _ _ _ _ _ _ _)) (gives_ok (numberNow_memWf (sinterBy_memWf h2 _ _ _ _ _) _ _)))

theorem vaAmoOut_memWf {s : State} (h : s.memWf = true) (mkind mid path ctx va : Nat) (opa : Word) (m : MasterT) :
    GivesWf (fun r => r.2) (vaAmoOut s mkind mid path ctx va opa m) := by
  unfold vaAmoOut
  extract_lets _
  split
  · exact gives_error _
  · exact gives_ite (Gives.bind (vaAmo_memWf h _ _ _ _ _ _ _ _) fun ⟨_, _⟩ h1 => gives_ok (memWf_update h1))
        (gives_ok (addXact_memWf (memWf_update (tlbFill_memWf h _ _ _ _ _)) _))

theorem queueFault_memWf {s : State} (h : s.memWf = true) (q code : Nat) (wr : Bool) (va : Nat) (pte : Word) (lvl : Nat) (wh : Word) :
    (queueFault s q code wr va pte lvl wh).memWf = true :=
  writeFault_memWf (State.memWf_setQueue h _ _) _ _ _

theorem mfQueue_memWf {s : State} (h : s.memWf = true) (q : Nat) (wr : Bool) (e : MFault) (wh : Word) : (mfQueue s q wr e wh).memWf = true :=
  queueFault_memWf h _ _ _ _ _ _ _

theorem completePkt_memWf {s : State} (h : s.memWf = true) (q num : Nat) (res : Option Word) : (completePkt s q num res).memWf = true :=
  State.memWf_setQueue h _ _

theorem notifyEvent_memWf {s : State} (h : s.memWf = true) (q va : Nat) (v : Word) : GivesWf (fun r => r) (notifyEvent s q va v) := by
  unfold notifyEvent
  extract_lets _ _ _
  split
  · exact gives_error _
  · extract_lets s1 _ _ _ _ _ put _ s2 s3 _
    have h1 : s1.memWf = true := tlbFill_memWf h _ _ _ _ _
    have hput : ∀ {t : State}, t.memWf = true → ∀ k x, (put t k x).memWf = true := fun ht _ _ => homeWrite_memWf ht _ _ _ _ _
    have h2 : s2.memWf = true :=
      ite_memWf (postXact_memWf h1 _ _ _ _ _ _ _ _) (numberNow_memWf (hput (hput (hput h1 _ _) _ _) _ _) _ _)
    have h3 : s3.memWf = true := sinterBy_memWf (sinterBy_memWf h2 _ _ _ _ _) _ _ _ _ _
    exact gives_ok (ite_memWf h3 (ite_memWf (State.memWf_setDie h3 _ _) (State.memWf_setDie h3 _ _)))

theorem traceLost_memWf {s : State} (h : s.memWf = true) (ctx : Nat) : (traceLost s ctx).memWf = true :=
  setCtxWord_memWf h _ _ _

theorem trace_memWf {s : State} (h : s.memWf = true) (l : Launch) (die kind unit a0 : Nat) (a1 : Word) :
    (trace s l die kind unit a0 a1).memWf = true :=
  ite_memWf h (ite_memWf (traceLost_memWf h _) (State.memWf_setDie h _ _))

theorem traceCore_memWf {s : State} (h : s.memWf = true) (core kind a0 : Nat) (a1 : Word) : (traceCore s core kind a0 a1).memWf = true := by
  unfold traceCore
  split
  · exact trace_memWf h _ _ _ _ _ _
  · exact h

theorem execTraceRecordWrite_endsWf {s : State} (h : s.memWf = true) (die : Nat) : EndsWf (execTraceRecordWrite die s) := by
  unfold execTraceRecordWrite
  extract_lets _ _ _
  split
  · exact endsWf_next h
  · refine endsWf_ite (endsWf_next h) ?_
    extract_lets s1 _ _ _
    have h1 : s1.memWf = true := State.memWf_setDie h _ _
    split
    · exact endsWf_next (traceLost_memWf h1 _)
    · rename_i _ s2 e2
      have h2 : s2.memWf = true := vaAmo_memWf h1 _ _ _ _ _ _ _ _ _ e2
      extract_lets _ _
      split
      · rename_i s3 _ e3
        have h3 : s3.memWf = true := memWf_of_eq (p := (·.1)) e3 (vaWrite_memWf h2 _ _ _ _ _ _)
        exact endsWf_next (traceLost_memWf h3 _)
      · rename_i s4 e4
        have h4 : s4.memWf = true := memWf_of_eq (p := (·.1)) e4 (vaWrite_memWf h2 _ _ _ _ _ _)
        split
        · rename_i s5 _ e5
          have h5 : s5.memWf = true := memWf_of_eq (p := (·.1)) e5 (vaRelease_memWf h4 _ _ _ _ _ _)
          exact endsWf_next (traceLost_memWf h5 _)
        · rename_i s6 e6
          have h6 : s6.memWf = true := memWf_of_eq (p := (·.1)) e6 (vaRelease_memWf h4 _ _ _ _ _ _)
          exact finish_endsWf (memWf_update h6)

theorem launchSignals_memWf {s : State} (h : s.memWf = true) (l : Launch) : (launchSignals s l).2.1.memWf = true := by
  unfold launchSignals
  extract_lets q m r l1
  have hr : GivesWf Prod.snd r := gives_ite (gives_ok h) (vaAmoOut_memWf h _ _ _ _ _ _ _)
  clear_value r
  split
  · exact h
  · rename_i s1
    have h1 : s1.memWf = true := hr _ rfl
    split
    · exact h1
    · split
      · rename_i s2 e2
        exact notifyEvent_memWf h1 _ _ _ _ e2
      · exact h1

theorem launchClose_memWf {s : State} (h : s.memWf = true) (l : Launch) : (launchClose s l).memWf = true :=
  memWf_update (completePkt_memWf h _ _ _)

theorem launchDeliver_memWf {s : State} (h : s.memWf = true) (l : Launch) : (launchDeliver s l).memWf = true := by
  unfold launchDeliver
  extract_lets q wh owe rec_
  have howe : ∀ {t : State}, t.memWf = true → ∀ l e, (owe t l e).memWf = true := fun ht _ _ =>
    mfQueue_memWf (State.memWf_setQueue (State.memWf_setLaunch ht _) _ _) _ _ _ _
  clear_value owe rec_
  split
  · rename_i e1
    exact howe (memWf_of_eq (p := Prod.fst) e1 (iteAt_memWf Prod.fst h (vaWrite_memWf h _ _ _ _ _ _))) _ _
  · rename_i s2 e2
    have h2 : s2.memWf = true :=
      memWf_of_eq (p := Prod.fst) e2 (iteAt_memWf Prod.fst h (vaWrite_memWf h _ _ _ _ _ _))
    split
    · rename_i s3 _ e3
      have h3 : s3.memWf = true := memWf_of_eq (p := (·.2.1)) e3 (launchSignals_memWf h2 _)
      exact howe h3 _ _
    · rename_i s4 e4
      have h4 : s4.memWf = true := memWf_of_eq (p := (·.2.1)) e4 (launchSignals_memWf h2 _)
      exact launchClose_memWf h4 _

theorem launchTry_memWf {s : State} (h : s.memWf = true) (l : Launch) : (launchTry s l).memWf = true :=
  ite_memWf h
    (ite_memWf (launchDeliver_memWf h _)
       (ite_memWf h (ite_memWf h (ite_memWf (relMark_memWf h _ _) (launchDeliver_memWf (relDone_memWf h _ _) _)))))

theorem launchEnd_memWf {s : State} (h : s.memWf = true) (id : Nat) : (launchEnd s id).memWf = true := by
  unfold launchEnd
  split
  · exact h
  · refine launchTry_memWf
        (State.memWf_setLaunch
           (memWf_update
              (subSaves_memWf (foldl_memWf (fun t i ht => ?_) ?_ _) List.filter_sublist.subset List.filter_sublist.subset)) _) _
    · exact ite_memWf (State.memWf_setCore ht _ _ (spadWf_update (State.memWf_core ht _))) ht
    · exact trace_memWf h _ _ _ _ _ _

theorem checkEnd_memWf {s : State} (h : s.memWf = true) (id : Nat) : (checkEnd s id).memWf = true := by
  unfold checkEnd
  split
  · exact ite_memWf (launchEnd_memWf h _) h
  · exact h

theorem startTask_memWf {s : State} (h : s.memWf = true) (core : Nat) (t : Task) : (startTask s core t).memWf = true := by
  unfold startTask
  split
  · exact h
  · exact traceCore_memWf (memWf_update (State.memWf_setCore h _ _ (spadWf_update (spadWf_update (State.memWf_core h _))))) _ _ _ _

theorem startChild_memWf {s : State} (h : s.memWf = true) (g : SGroup) (core idx : Nat) : (startChild s g core idx).memWf = true :=
  startTask_memWf (ite_memWf h (State.memWf_setCore h _ _ (spadWf_update (State.memWf_core h _)))) _ _

theorem groupMsg_memWf {s : State} (h : s.memWf = true) (g : SGroup) (src dst : Nat) (data : List Word) (m : Msg) :
    (groupMsg s g src dst data m).memWf = true :=
  sendPacket_memWf h _ _ _

theorem takeTask_memWf {s : State} (h : s.memWf = true) (core : Nat) : (takeTask s core).memWf = true := by
  unfold takeTask
  split
  · exact ite_memWf (startChild_memWf (memWf_update h) _ _ _) (groupMsg_memWf (memWf_update h) _ _ _ _ _)
  · refine ite_memWf h ?_
    split
    · exact startTask_memWf (State.memWf_setLaunch h _) _ _
    · exact h

theorem giveChild_memWf {s : State} (h : s.memWf = true) (id core : Nat) : (giveChild s id core).memWf = true := by
  unfold giveChild
  split
  · exact h
  · exact ite_memWf (groupMsg_memWf (memWf_update h) _ _ _ _ _) (groupMsg_memWf h _ _ _ _ _)

theorem takeChild_memWf {s : State} (h : s.memWf = true) (id core : Nat) (idx : Option Nat) : (takeChild s id core idx).memWf = true := by
  unfold takeChild
  split
  · exact h
  · extract_lets s1 c2
    have h1 : s1.memWf = true := memWf_update h
    have h2 : Memory.wf c2.spad = true := State.memWf_core h1 _
    split
    · exact h1
    · exact ite_memWf (startChild_memWf h1 _ _ _) (memWf_update h1)

theorem execTaskTake_endsWf {s : State} (h : s.memWf = true) (core : Nat) : EndsWf (execTaskTake core s) :=
  endsWf_next (ite_memWf (takeTask_memWf h _) h)

theorem childEndN_memWf {s : State} (h : s.memWf = true) (abn : Bool) (r : Option (BitVec 512)) (w : Nat × Nat) (n g : Nat) :
    (childEndN abn r w n s g).memWf = true := by
  induction n generalizing s g with
  | zero => exact h
  | succ n ih =>
    rw [childEndN]
    split
    · exact ih (memWf_update h) _
    · exact memWf_update h

theorem childEnd_memWf {s : State} (h : s.memWf = true) (g core : Nat) (abn : Bool) (r : Option (BitVec 512)) :
    (childEnd s g core abn r).memWf = true :=
  childEndN_memWf h _ _ _ _ _

theorem endTask_memWf {s : State} (h : s.memWf = true) (core : Nat) (abn : Bool) (r : Option (BitVec 512)) :
    (endTask s core abn r).memWf = true := by
  unfold endTask
  extract_lets c1 c2 _
  have h1 : Memory.wf c1.spad = true := State.memWf_core h _
  have h2 : Memory.wf c2.spad = true := spadWf_update h1
  split
  · exact h
  · extract_lets s3 s4 s5 s6 s7
    have h3 : s3.memWf = true := traceCore_memWf h _ _ _ _
    have h4 : s4.memWf = true := memWf_update h3
    have h5 : s5.memWf = true := State.memWf_setCore h4 _ _ (spadWf_update h2)
    have h6 : s6.memWf = true := by
      unfold s6
      split
      · exact State.memWf_setLaunch h5 _
      · exact h5
    have h7 : s7.memWf = true := by
      unfold s7
      split
      · exact childEnd_memWf h6 _ _ _ _
      · exact h6
    exact checkEnd_memWf h7 _

theorem successor_memWf {s : State} (h : s.memWf = true) (core : Nat) (idx : Word) : (successor s core idx).memWf = true := by
  unfold successor
  split
  · exact h
  · exact startTask_memWf (memWf_update (traceCore_memWf h _ _ _ _)) _ _

theorem spawnGroup_memWf {s : State} (h : s.memWf = true) (core lo hi : Nat) : (spawnGroup s core lo hi).memWf = true := by
  unfold spawnGroup
  split
  · exact h
  · exact traceCore_memWf (memWf_update (State.memWf_setCore h _ _ (spadWf_update (State.memWf_core h _)))) _ _ _ _

theorem requeueTask_memWf {s : State} (h : s.memWf = true) (core : Nat) (t : Task) : (requeueTask s core t).memWf = true := by
  unfold requeueTask
  extract_lets c1 old g s2 s3 s4
  clear_value old
  have h2 : s2.memWf = true := by
    unfold s2
    split
    · exact memWf_update h
    · exact h
  have h3 : s3.memWf = true := by
    unfold s3
    split
    · exact State.memWf_setLaunch h2 _
    · exact h2
  have h4 : s4.memWf = true := traceCore_memWf h3 _ _ _ _
  refine ite_memWf (memWf_update h2) ?_
  split
  · exact childEnd_memWf h4 _ _ _ _
  · exact h4

theorem abandonTasks_memWf {s : State} (h : s.memWf = true) (core : Nat) : (abandonTasks s core).memWf = true := by
  unfold abandonTasks
  refine foldl_memWf (fun _ _ h1 => ?_) h _
  extract_lets s2 s3 s4
  have h2 : s2.memWf = true := by
    unfold s2
    split
    · exact State.memWf_setLaunch h1 _
    · exact h1
  have h3 : s3.memWf = true := traceCore_memWf h2 _ _ _ _
  have h4 : s4.memWf = true := memWf_update h3
  split
  · exact childEnd_memWf h4 _ _ _ _
  · exact h4

theorem joinPark_memWf {s : State} (h : s.memWf = true) (core dst pos : Nat) : (joinPark s core dst pos).memWf = true := by
  unfold joinPark
  extract_lets c1 _ _ _ _ _
  have h1 : Memory.wf c1.spad = true := spadWf_update (State.memWf_core h _)
  split
  · exact setPool_memWf (State.memWf_setCore h _ _ (spadWf_update h1)) (putPart_wf _ _ _ _) _ _
  · exact traceCore_memWf (State.memWf_setCore h _ _ (spadWf_update h1)) _ _ _ _

theorem execJoinComplete_endsWf {s : State} (h : s.memWf = true) (core : Nat) : EndsWf (execJoinComplete core s) := by
  unfold execJoinComplete
  refine endsWf_ite (endsWf_next h) ?_
  split
  · exact endsWf_next h
  · refine endsWf_next ?_
    refine traceCore_memWf ?_ _ _ _ _
    refine memWf_update ?_
    refine memWf_update ?_
    refine State.memWf_setCore h _ _ ?_
    refine spadWf_update ?_
    split
    · exact ite_spadWf (State.memWf_core h _) (spadWf_update (State.memWf_core h _))
    · exact State.memWf_core h _

end Sys2Proof.Machine
end

