-- ==== Sys2Proof/Proofs/SegmentForm.lean ====
section
/-! SUPPORT. Walks, commit, rollback, copy on write, reruns, saves, fences and tile fetches keep the form of every memory. -/
namespace Sys2Proof.Machine

theorem forwardStores_memWf {s : State} (h : s.memWf = true) (core : Nat) (a : Acc) (ph : Phys) : (forwardStores s core a ph).memWf = true :=
  ite_memWf h (State.memWf_setCore h _ _ (spadWf_update (State.memWf_core h _)))

theorem l1Find_spadWf {c : Core} (hc : Memory.wf c.spad = true) {loc die line : Nat} {r : L1Line × Core} (e : l1Find c loc die line = some r) :
    Memory.wf r.2.spad = true := by
  obtain ⟨x, -, rfl⟩ := Option.map_eq_some_iff.mp e
  exact spadWf_update hc

theorem handRead_memWf {s : State} (h : s.memWf = true) (core : Nat) (a : Acc) (va : Nat) (ph : Phys) : (handRead s core a va ph).memWf = true := by
  unfold handRead
  extract_lets s1 c2 _ _
  have h1 : s1.memWf = true := forwardStores_memWf h _ _ _
  have h2 : Memory.wf c2.spad = true := State.memWf_core h1 _
  split
  · rename_i x c3 e3
    have h3 : Memory.wf c3.spad = true := by
      split at e3
      · cases e3
      · exact l1Find_spadWf h2 e3
    exact sendData_memWf (sinterX_memWf (State.memWf_setCore h1 _ _ h3) _) _ _
  · exact addXact_memWf h1 _

theorem handWrite_memWf {s : State} (h : s.memWf = true) (core : Nat) (a : Acc) (ph : Phys) : (handWrite s core a ph).memWf = true :=
  addXact_memWf (State.memWf_setCore h _ _ (spadWf_update (State.memWf_core h _))) _

theorem dropAcc_memWf {s : State} (h : s.memWf = true) (core id : Nat) : (dropAcc s core id).memWf = true :=
  State.memWf_setCore h _ _ (spadWf_update (State.memWf_core h _))

theorem handOn_memWf {s : State} (h : s.memWf = true) (n core : Nat) : (handOn n s core).memWf = true := by
  induction n generalizing s with
  | zero => exact h
  | succ n ih =>
    rw [handOn]
    split
    · split
      · exact ite_memWf h (ih (handWrite_memWf (dropAcc_memWf h _ _) _ _ _))
      · exact h
    · exact h

theorem accTrap_memWf {s : State} (h : s.memWf = true) (core : Nat) (a : Acc) (va code lvl : Nat) (e : Word) :
    (accTrap s core a va code lvl e).memWf = true :=
  State.memWf_setCore h _ _ (takeTrap_spadWf (State.memWf_core h _) _ _)

theorem execTranslationWalkComplete_endsWf {s : State} (h : s.memWf = true) (core id : Nat) : EndsWf (execTranslationWalkComplete core id s) := by
  unfold execTranslationWalkComplete
  extract_lets c1
  split
  · exact endsWf_next h
  · refine endsWf_ite (endsWf_next h) ?_
    split
    · exact endsWf_next h
    · exact endsWf_next (sendData_memWf (dropAcc_memWf h _ _) _ _)
    · split
      · exact endsWf_next (accTrap_memWf h _ _ _ _ _ _)
      · extract_lets s2 s6
        have h2 : s2.memWf = true := by
          refine foldl_memWf (fun _ _ h3 => ?_) h _
          split
          · exact handWrite_memWf h3 _ _ _
          · split
            · have h4 := fun lvl va e => tlbFill_memWf h3 core c1.ctx va lvl e
              split
              · exact handRead_memWf (h4 _ _ _) _ _ _ _
              · exact handWrite_memWf (h4 _ _ _) _ _ _
              · exact State.memWf_setCore (h4 _ _ _) _ _ (spadWf_update (State.memWf_core (h4 _ _ _) _))
            · exact h3
        clear_value s2
        have h6 : s6.memWf = true := by
          unfold s6
          split
          · exact h2
          · exact dropAcc_memWf h2 _ _
        exact finish_endsWf (checkEnd_memWf (handOn_memWf h6 _ _) _)

theorem askWalks_memWf {s : State} (h : s.memWf = true) (core : Nat) : (askWalks s core).memWf = true :=
  foldl_memWf (fun _ _ h1 => ite_memWf h1 (State.memWf_setCore h1 _ _ (spadWf_update (spadWf_update (State.memWf_core h1 _))))) h _

theorem foldMatrix_spadWf {c : Core} (hc : Memory.wf c.spad = true) : Memory.wf (foldMatrix c).spad = true :=
  foldl_spadWf (fun _ _ h => applyEff_spadWf h _) (spadWf_update hc) _

theorem sendPosted_memWf {s : State} (h : s.memWf = true) (core : Nat) (p : Posted) : (sendPosted s core p).memWf = true := by
  unfold sendPosted
  extract_lets _ c1 _
  have h1 : Memory.wf c1.spad = true := State.memWf_core h _
  split
  · exact spawnGroup_memWf h _ _ _
  · exact memWf_update h
  · exact memWf_update h
  · exact State.memWf_setDie h _ _
  · exact State.memWf_setDie h _ _
  · exact foldl_memWf (fun _ _ h2 => ite_memWf (memWf_update h2) (sendPacket_memWf h2 _ _ _)) h _
  · exact State.memWf_setDie h _ _
  · exact State.memWf_setCore h _ _ (spadWf_update h1)
  · exact State.memWf_setDie h _ _

theorem commitSegment_memWf {s : State} (h : s.memWf = true) (core : Nat) : (commitSegment s core).memWf = true := by
  unfold commitSegment
  extract_lets c1 a posted writes c2 c3 c4 _ a' s1 s2 s3
  have h1 : Memory.wf c1.spad = true := foldMatrix_spadWf (State.memWf_core h _)
  have h4 : Memory.wf c4.spad = true := spadWf_update (spadWf_update (spadWf_update (spadWf_update h1)))
  have hs1 : s1.memWf = true := State.memWf_setCore h _ _ (spadWf_update h4)
  have hs2 : s2.memWf = true := repeat_memWf (fun _ ht => memWf_update ht) hs1 _
  exact foldl_memWf (fun _ _ ht => sendPosted_memWf ht _ _) (handOn_memWf hs2 _ _) _

theorem rekeep_memWf {s : State} (h : s.memWf = true) (core : Nat) (f : Arch → Arch) : (rekeep s core f).memWf = true :=
  State.memWf_setCore h _ _ (spadWf_update (State.memWf_core h _))

theorem afterCommit_memWf {s : State} (h : s.memWf = true) (core : Nat) (ctl : Option (Nat × Ctl)) (ui : Bool) :
    (afterCommit s core ctl ui).memWf = true := by
  unfold afterCommit
  split
  · exact endTask_memWf h _ _ _
  · exact successor_memWf h _ _
  · exact endTask_memWf h _ _ _
  · exact joinPark_memWf h _ _ _
  · exact ite_memWf (rekeep_memWf h _ _) h

theorem execSegmentCommit_endsWf {s : State} (h : s.memWf = true) (core : Nat) : EndsWf (execSegmentCommit core s) := by
  unfold execSegmentCommit
  refine endsWf_ite (endsWf_next h) ?_
  refine endsWf_ite (endsWf_next (askWalks_memWf h _)) ?_
  split
  · exact endsWf_next (State.memWf_setCore h _ _ (takeTrap_spadWf (State.memWf_core h _) _ _))
  · exact finish_endsWf (afterCommit_memWf (commitSegment_memWf h _) _ _ _)

theorem freezeCore_memWf {s : State} (h : s.memWf = true) (core : Nat) (t : Trap) (pos : Nat) : (freezeCore s core t pos).memWf = true :=
  writeFault_memWf (State.memWf_setCore h _ _ (spadWf_update (State.memWf_core h _))) _ _ _

theorem execRollbackComplete_endsWf {s : State} (h : s.memWf = true) (core : Nat) : EndsWf (execRollbackComplete core s) := by
  unfold execRollbackComplete
  extract_lets c1 s2
  have h1 : Memory.wf c1.spad = true := State.memWf_core h _
  have h2 : s2.memWf = true := memWf_update (State.memWf_setCore h _ _ (spadWf_update h1))
  split
  · extract_lets s3 c4 s5
    have h3 : s3.memWf = true := traceCore_memWf h2 _ _ _ _
    have h4 : Memory.wf c4.spad = true := State.memWf_core h3 _
    have h5 : s5.memWf = true := State.memWf_setCore h3 _ _ (spadWf_update h4)
    exact endsWf_ite (endsWf_next (State.memWf_setCore h3 _ _ (spadWf_update h4)))
        (endsWf_ite (endsWf_next (memWf_update h5)) (finish_endsWf (freezeCore_memWf h3 _ _ _)))
  · exact endsWf_next h

theorem copyPage_memWf {s : State} (h : s.memWf = true) (ctx page size : Nat) (src : Option Word) (dst : Word) :
    (copyPage s ctx page size src dst).memWf = true := by
  unfold copyPage
  refine foldl_memWf (fun _ _ h1 => ?_) h _
  refine homeWrite_memWf ?_ _ _ _ _ _
  split
  · exact homeUse_memWf h1 _ _ _
  · exact h1

theorem execCowLockAcquire_endsWf {s : State} (h : s.memWf = true) (core : Nat) : EndsWf (execCowLockAcquire core s) := by
  unfold execCowLockAcquire
  extract_lets c1
  have h1 : Memory.wf c1.spad = true := State.memWf_core h _
  split
  · have hout : ∀ {t : State} {ctx : Nat}, t.memWf = true → (cowRelease t ctx).memWf = true := fun ht => memWf_update ht
    refine endsWf_ite (endsWf_next h)
        (endsWf_ite (endsWf_next (hout (State.memWf_setCore h _ _ (spadWf_update h1))))
           (endsWf_ite (finish_endsWf (freezeCore_memWf (hout h) _ _ _))
              (endsWf_ite (finish_endsWf (freezeCore_memWf (hout h) _ _ _))
                 (endsWf_ite (finish_endsWf (freezeCore_memWf (hout h) _ _ _))
                    (endsWf_ite (finish_endsWf (freezeCore_memWf (hout h) _ _ _)) ?_)))))
    exact finish_endsWf
        (memWf_update
           (State.memWf_setCore (setHbm_memWf (copyPage_memWf (setCtxWord_memWf h _ _ _) _ _ _ _ _) _ _ _ _) _ _
              (spadWf_update (State.memWf_core (setHbm_memWf (copyPage_memWf (setCtxWord_memWf h _ _ _) _ _ _ _ _) _ _ _ _) _))))
  · exact endsWf_next h

theorem handlerDone_memWf {s : State} (h : s.memWf = true) (core req : Nat) : (handlerDone s core req).memWf = true := by
  unfold handlerDone
  extract_lets c1
  have h1 : Memory.wf c1.spad = true := State.memWf_core h _
  split
  · exact ite_memWf (memWf_update (State.memWf_setCore h _ _ (spadWf_update h1))) h
  · exact h

theorem breakCircuit_memWf {s : State} (h : s.memWf = true) (circ : Nat) : (breakCircuit s circ).memWf = true := by
  refine memWf_update (mapCores_memWf h fun _ hc => ?_)
  exact spadWf_update hc

theorem allSaved_memWf {s : State} (h : s.memWf = true) (id : Nat) : (allSaved s id).memWf = true := by
  unfold allSaved
  split
  · exact h
  · extract_lets _ s1
    have h1 : s1.memWf = true := by
      unfold s1
      refine foldl_memWf (fun _ _ h2 => ?_) h _
      split
      · exact State.memWf_setCore h2 _ _ (spadWf_update (State.memWf_core h2 _))
      · exact h2
    split
    · exact ite_memWf (State.memWf_setLaunch h1 _) h
    · exact h

theorem retireCore_memWf {s : State} (h : s.memWf = true) (core : Nat) : (retireCore s core).memWf = true := by
  unfold retireCore
  extract_lets c1 _ s2 s3 _ _ _ _ _ s4 s5 s7 s9 _ s10
  have h1 : Memory.wf c1.spad = true := rollbackCore_spadWf (State.memWf_core h _)
  have h2 : s2.memWf = true := State.memWf_setCore h _ _ h1
  have h3 : s3.memWf = true := ite_memWf (traceCore_memWf h2 _ _ _ _) h2
  have h4 : s4.memWf = true := State.memWf_setCore h3 _ _ (spadWf_update h1)
  have h5 : s5.memWf = true := foldl_memWf (fun _ _ h6 => requeueTask_memWf h6 _ _) h4 _
  have h7 : s7.memWf = true := foldl_memWf (fun _ _ h8 => breakCircuit_memWf h8 _) h5 _
  have h9 : s9.memWf = true := by
    unfold s9
    split
    · exact State.memWf_setLaunch h7 _
    · exact h7
  have h10 : s10.memWf = true := memWf_update h9
  exact checkEnd_memWf (allSaved_memWf (writeFault_memWf (abandonTasks_memWf h10 _) _ _ _) _) _

theorem rollTrace_memWf {s : State} (h : s.memWf = true) (core : Nat) : (rollTrace s core).memWf = true :=
  traceCore_memWf h _ _ _ _

theorem startPair_memWf {s : State} (h : s.memWf = true) (core : Nat) : (startPair s core).memWf = true :=
  ite_memWf (retireCore_memWf h _)
    (memWf_update
       (State.memWf_setCore (traceCore_memWf h _ _ _ _) _ _ (spadWf_update (rollbackCore_spadWf (State.memWf_core h _)))))

theorem execDetectedError_endsWf {s : State} (h : s.memWf = true) (core : Nat) (loc : ErrLoc) : EndsWf (execDetectedError core loc s) := by
  unfold execDetectedError
  extract_lets c1 poison
  have h1 : Memory.wf c1.spad = true := State.memWf_core h _
  have hp : ∀ sub, EndsWf (poison sub) := fun _ => endsWf_next (State.memWf_setCore h _ _ (takeTrap_spadWf h1 _ _))
  split
  · exact endsWf_next h
  · exact endsWf_next (State.memWf_setDie h _ _)
  · exact endsWf_next (State.memWf_setCore h _ _ (spadWf_update h1))
  · exact endsWf_next (State.memWf_setDie h _ _)
  · exact endsWf_next (State.memWf_setCore h _ _ (spadWf_update h1))
  · exact endsWf_ite (finish_endsWf (startPair_memWf h _)) (hp _)
  · exact endsWf_ite (finish_endsWf (startPair_memWf h _)) (hp _)
  · exact finish_endsWf (startPair_memWf h _)
  · exact endsWf_next (State.memWf_setCore h _ _ (spadWf_update h1))
  · exact endsWf_next h

theorem execRerunPairCompare_endsWf {s : State} (h : s.memWf = true) (core : Nat) : EndsWf (execRerunPairCompare core s) := by
  unfold execRerunPairCompare
  extract_lets c1 _ c2 s3
  have h1 : Memory.wf c1.spad = true := State.memWf_core h _
  have h2 : Memory.wf c2.spad = true := rollbackCore_spadWf h1
  have h3 : s3.memWf = true := traceCore_memWf (State.memWf_setCore h _ _ (spadWf_update h1)) _ _ _ _
  split
  · exact endsWf_next h
  · refine endsWf_ite (endsWf_next h) ?_
    refine endsWf_ite (endsWf_next (askWalks_memWf h _)) ?_
    refine endsWf_ite (endsWf_next (rollTrace_memWf (memWf_update (State.memWf_setCore h _ _ (spadWf_update (rollbackCore_spadWf h1)))) _)) ?_
    refine endsWf_ite (endsWf_next (rollTrace_memWf (memWf_update (State.memWf_setCore h _ _ (spadWf_update h2))) _)) ?_
    refine endsWf_ite ?_ (finish_endsWf (retireCore_memWf h _))
    split
    · exact endsWf_next (State.memWf_setCore h _ _ (takeTrap_spadWf h1 _ _))
    · exact finish_endsWf (afterCommit_memWf (commitSegment_memWf h3 _) _ _ _)

theorem execPreemptSave_endsWf {s : State} (h : s.memWf = true) (core : Nat) : EndsWf (execPreemptSave core s) := by
  unfold execPreemptSave
  extract_lets c1 c2 _ a img l _ _ s1 s2 s3
  have h1 : Memory.wf (freshPair (rollbackCore c1)).spad = true := spadWf_update (rollbackCore_spadWf (State.memWf_core h _))
  refine endsWf_ite (endsWf_next (rollTrace_memWf (memWf_update (State.memWf_setCore h _ _ h1)) _)) (endsWf_ite (endsWf_next h) ?_)
  have himg : Memory.wf img.spad = true := spadWf_update (spadWf_update h1)
  have hs1 : s1.memWf = true := State.memWf_setCore h _ _ Memory.wf_nil
  have hs2 : s2.memWf = true := addSave_memWf hs1 _ _ _ himg
  have hs3 : s3.memWf = true := setPool_memWf hs2 (slotBytes_wf _ _ _) _ _
  split
  · exact endsWf_next hs3
  · exact endsWf_next (allSaved_memWf (State.memWf_setLaunch (trace_memWf hs3 _ _ _ _ _ _) _) _)

theorem execFenceConditionMet_endsWf {s : State} (h : s.memWf = true) (core : Nat) : EndsWf (execFenceConditionMet core s) := by
  unfold execFenceConditionMet
  extract_lets c1
  have h1 : Memory.wf c1.spad = true := State.memWf_core h _
  split
  · exact endsWf_next h
  · refine endsWf_ite (endsWf_next h) ?_
    refine endsWf_next ?_
    refine State.memWf_setCore h _ _ ?_
    split
    · exact spadWf_update (ite_spadWf (spadWf_update h1) (spadWf_update h1))
    · exact ite_spadWf
          (spadWf_update (ite_spadWf (spadWf_update (ite_spadWf (spadWf_update h1) (spadWf_update h1))) (spadWf_update h1)))
          (ite_spadWf (spadWf_update (ite_spadWf (spadWf_update h1) (spadWf_update h1))) (spadWf_update h1))
    · exact spadWf_update h1

theorem unpinOne_memWf {s : State} (h : s.memWf = true) (p : Nat × Nat) : (unpinOne s p).memWf = true := by
  unfold unpinOne
  extract_lets _ _ _
  split
  · exact h
  · exact ite_memWf (State.memWf_setDie h _ _) (State.memWf_setDie h _ _)

theorem releasePins_memWf {s : State} (h : s.memWf = true) (core : Nat) : (releasePins s core).memWf = true :=
  foldl_memWf (fun _ _ h1 => unpinOne_memWf h1 _) (State.memWf_setCore h _ _ (spadWf_update (State.memWf_core h _))) _

theorem pinLine_memWf {s : State} (h : s.memWf = true) (d ctx loc line : Nat) : (pinLine s d ctx loc line).2.memWf = true := by
  unfold pinLine
  extract_lets y k n
  split
  · exact iteAt_memWf Prod.snd h (State.memWf_setDie h _ _)
  · exact iteAt_memWf Prod.snd h (iteAt_memWf Prod.snd h (State.memWf_setDie h _ _))

theorem tfRead_memWf {s : State} (h : s.memWf = true) (core ctx va n : Nat) (l : TfLines) :
    GivesWf (fun r => r.2.2) (tfRead s core ctx va n l) := by
  refine gives_foldlM (P := fun b : Nat × TfLines × State => b.2.2.memWf = true) (fun ⟨v, l, s⟩ p h1 => ?_) h _
  dsimp -zeta only
  split
  · exact gives_error _
  · extract_lets s2 key v2 s3 l2
    have h2 : s2.memWf = true := checkAbsent_memWf (tlbFill_memWf h1 _ _ _ _ _) _ _ _ _
    have h3 : s3.memWf = true := sinterBy_memWf h2 _ _ _ _ _
    refine gives_ite (gives_error _)
        (gives_ite (gives_error _) (gives_ite (gives_ok (wsUnit_memWf h3 _ _)) (gives_ite (gives_ok h3) ?_)))
    split
    · rename_i s4 e4
      have h4 : s4.memWf = true := memWf_of_eq (p := Prod.snd) e4 (pinLine_memWf (homeUse_memWf h3 _ _ _) _ _ _ _)
      exact gives_ok h4
    · rename_i s4 _ e4
      have h4 : s4.memWf = true := memWf_of_eq (p := Prod.snd) e4 (pinLine_memWf (homeUse_memWf h3 _ _ _) _ _ _ _)
      exact gives_ok (State.memWf_setCore h4 _ _ (spadWf_update (State.memWf_core h4 _)))

theorem formTile_memWf {s : State} (h : s.memWf = true) (core : Nat) (g : BitVec 768) (k : Nat) : SomeWf Prod.snd (formTile s core g k) := by
  unfold formTile
  extract_lets c fmt w live rest d die bits r va n
  refine someWf_ite (someWf_ite (someWf_some h) (someWf_ite (someWf_some h) ?_)) (someWf_ite someWf_none ?_)
  · have hr : SomeWf (fun b : VWord × Option Trap × TfLines × State => b.2.2.2) r := by
      refine someWf_foldlM (fun ⟨val, bad, l, s⟩ i h1 => ?_) h _
      dsimp -zeta only
      refine someWf_ite (someWf_some h1) (someWf_ite (someWf_some h1) (someWf_ite (someWf_some h1) ?_))
      split
      · exact someWf_some h1
      · exact someWf_none
      · refine someWf_ite someWf_none ?_
        split
        · rename_i e2
          exact someWf_some (tfRead_memWf h1 _ _ _ _ _ _ e2)
        · exact someWf_some h1
    intro b e
    obtain ⟨x, hx, rfl⟩ := Option.map_eq_some_iff.mp e
    exact hr x hx
  · split
    · rename_i e2
      exact someWf_some (tfRead_memWf h _ _ _ _ _ _ e2)
    · exact someWf_some h

theorem execTileFetch_endsWf {s : State} (h : s.memWf = true) (core port : Nat) : EndsWf (execTileFetch core port s) := by
  unfold execTileFetch
  extract_lets s1 c2
  have h1 : s1.memWf = true := releasePins_memWf h _
  split
  · exact endsWf_next h1
  · refine endsWf_ite (endsWf_next h1) ?_
    split
    · exact endsWf_next h1
    · rename_i _ s3 e3
      have h3 : s3.memWf = true := formTile_memWf h1 _ _ _ _ e3
      exact finish_endsWf (State.memWf_setCore h3 _ _ (spadWf_update (State.memWf_core h3 _)))

end Sys2Proof.Machine
end

