-- ==== Sys2Proof/Proofs/FabricForm.lean ====
section
/-! SUPPORT. Shuttle commands, links, flits, packets and the frontier keep the form of every memory. -/
namespace Sys2Proof.Machine

theorem setCmd_memWf {s : State} (h : s.memWf = true) (core : Nat) (x : ShCmd) : (setCmd s core x).memWf = true :=
  State.memWf_setCore h _ _ (spadWf_update (State.memWf_core h _))

theorem chanFault_memWf {s : State} (h : s.memWf = true) (core : Nat) (x : ShCmd) (wr : Bool) (e : MFault) :
    (chanFault s core x wr e).memWf = true :=
  writeFault_memWf (State.memWf_setCore (setCmd_memWf h _ _) _ _ (spadWf_update (State.memWf_core (setCmd_memWf h _ _) _))) _ _ _

theorem placePhys_memWf {s : State} (h : s.memWf = true) (t ctx : Nat) (p : Place) (n : Nat) (acc : AccT) (m : MasterT) :
    GivesWf (fun r => r.2) (placePhys s t ctx p n acc m) := by
  unfold placePhys
  split
  · split
    · exact gives_error _
    · exact gives_ok (tlbFill_memWf h _ _ _ _ _)
  · split
    · exact gives_ok h
    · exact gives_error _

theorem askFar_memWf {s : State} (h : s.memWf = true) (core : Nat) (x : ShCmd) (key : Nat) (ps : List Nat) :
    (askFar s core x key ps).memWf = true := by
  unfold askFar
  refine foldl_memWf (fun _ _ h1 => ?_) h _
  refine ite_memWf ?_ h1
  split
  · split
    · rename_i _ s2 e2
      have h2 : s2.memWf = true := placePhys_memWf h1 _ _ _ _ _ _ _ e2
      exact ite_memWf (addXact_memWf h2 _) h2
    · exact h1
  · exact h1

theorem granValue_memWf {s : State} (h : s.memWf = true) (core : Nat) (x : ShCmd) (p : Nat) :
    SomeGives (fun b => b.2.memWf = true) (granValue s core x p) := by
  unfold granValue
  extract_lets n m
  split
  · exact someGives_none
  · exact someGives_some (gives_ok h)
  · split
    · exact someGives_some (gives_error _)
    · rename_i s1 e1
      have h1 : s1.memWf = true := placePhys_memWf h _ _ _ _ _ _ _ e1
      refine someGives_ite ?_
          (someGives_ite someGives_none
             (someGives_some
                (gives_ok
                   (sinterBy_memWf
                      (bankTurn_memWf
                         (wsUnit_memWf (homeUse_memWf (checkAbsent_memWf (homeTake_memWf h1 _ _ _ _) _ _ _ _) _ _ _) _ _) _ _) _ _
                      _ _ _))))
      split
      · exact someGives_some (gives_ok h1)
      · exact someGives_none

theorem gatherLoc_memWf {s : State} (h : s.memWf = true) (core : Nat) (x : ShCmd) (key : Nat) (l : List Nat) :
    SomeGives (fun b => b.2.2.memWf = true) (gatherLoc s core x key l) := by
  induction l generalizing s with
  | nil => exact someGives_some (gives_ok h)
  | cons p rest ih =>
    rw [gatherLoc]
    split
    · exact someGives_none
    · split
      · exact ih h
      · split
        · exact someGives_none
        · exact someGives_some (gives_error _)
        · rename_i s1 e1
          have h1 : s1.memWf = true := granValue_memWf h _ _ _ _ e1 _ rfl
          split
          · rename_i s2 e2
            have h2 : s2.memWf = true := ih h1 _ e2 _ rfl
            exact someGives_some (gives_ok h2)
          · exact ih h1

theorem copyStep_memWf {s : State} (h : s.memWf = true) (k core : Nat) (x : ShCmd) : (copyStep k s core x).memWf = true := by
  induction k generalizing x with
  | zero => exact h
  | succ k ih =>
    rw [copyStep]
    split
    · exact setCmd_memWf h _ _
    · exact setCmd_memWf h _ _
    · exact ih _
    · refine ite_memWf (setCmd_memWf h _ _) ?_
      split
      · exact askFar_memWf (setCmd_memWf h _ _) _ _ _ _
      · exact chanFault_memWf h _ _ _ _
      · rename_i s1 e1
        have h1 : s1.memWf = true := gatherLoc_memWf h _ _ _ _ _ e1 _ rfl
        split
        · exact chanFault_memWf h1 _ _ _ _
        · rename_i s2 e2
          have h2 : s2.memWf = true := placePhys_memWf h1 _ _ _ _ _ _ _ e2
          exact ite_memWf (setCmd_memWf h1 _ _) (addXact_memWf (setCmd_memWf h2 _ _) _)

theorem convStep_memWf {s : State} (h : s.memWf = true) (core : Nat) (x : ShCmd) (fs : Nat) (regs : FMap (BitVec 6)) :
    (convStep s core x fs regs).memWf = true := by
  unfold convStep
  refine ite_memWf h ?_
  extract_lets _ _ _ _ _ _ _ _ _
  split
  · exact chanFault_memWf h _ _ _ _
  · exact chanFault_memWf h _ _ _ _
  · refine ite_memWf h ?_
    split
    exact ite_memWf (setCmd_memWf (bankTurn_memWf h _ _) _ _) (addXact_memWf (setCmd_memWf (bankTurn_memWf h _ _) _ _) _)

theorem startAmo_memWf {s : State} (h : s.memWf = true) (core : Nat) (x : ShCmd) : (startAmo s core x).memWf = true := by
  unfold startAmo
  extract_lets g send a aop w sc rel acq
  have hsend : ∀ pl n kind acc rel acq sc aop w, (send pl n kind acc rel acq sc aop w).memWf = true := by
    intro pl n kind acc rel acq sc aop w
    unfold send
    split
    · exact chanFault_memWf h _ _ _ _
    · rename_i s1 e1
      have h1 : s1.memWf = true := placePhys_memWf h _ _ _ _ _ _ _ e1
      refine ite_memWf ?_ (ite_memWf h1 (addXact_memWf (setCmd_memWf h1 _ _) _))
      have h2 : ∀ y, (setCmd s1 core y).memWf = true := fun _ => setCmd_memWf h1 _ _
      split
      · exact sendData_memWf (memWf_update (h2 _)) _ _
      · exact h2 _
  clear_value send
  split
  · exact ite_memWf (hsend _ _ _ _ _ _ _ _ _) (hsend _ _ _ _ _ _ _ _ _)
  · exact hsend _ _ _ _ _ _ _ _ _

theorem startCmd_memWf {s : State} (h : s.memWf = true) (core : Nat) (x : ShCmd) : (startCmd s core x).memWf = true := by
  unfold startCmd
  extract_lets x2 c1 s2 last cv
  have h2 : s2.memWf = true := setCmd_memWf (State.memWf_setCore h _ _ (spadWf_update (State.memWf_core h _))) _ _
  have hset : ∀ y, (setCmd s2 core y).memWf = true := fun _ => setCmd_memWf h2 _ _
  clear_value cv s2
  split
  · refine ite_memWf (hset _) ?_
    split
    · exact ite_memWf (hset _) (hset _)
    · exact h2
  · exact h2
  · exact h2
  · exact startAmo_memWf h2 _ _

theorem startCopy_memWf {s : State} (h : s.memWf = true) (die : Nat) : (startCopy s die).memWf = true := by
  unfold startCopy
  split
  · exact h
  · exact memWf_update h

theorem execShuttleCommandStart_endsWf {s : State} (h : s.memWf = true) (core : Nat) : EndsWf (execShuttleCommandStart core s) := by
  unfold execShuttleCommandStart
  refine endsWf_ite (endsWf_next (startCopy_memWf h _)) ?_
  split
  · exact endsWf_next h
  · exact finish_endsWf (startCmd_memWf h _ _)

theorem copySource_memWf {s : State} (h : s.memWf = true) (y : QCopy) (n : Nat) (m : MasterT) : GivesWf (fun r => r.2) (copySource s y n m) := by
  refine gives_foldlM (P := fun b : Option Nat × State => b.2.memWf = true) (fun ⟨v, s⟩ p h1 => ?_) h _
  dsimp -zeta only
  extract_lets off put ret
  split
  · exact gives_error _
  · refine gives_ite (Gives.bind (vaRead_memWf h1 _ _ _ _ _) fun ⟨_, _⟩ h2 => gives_ok h2) ?_
    split
    · exact gives_ok h1
    · exact gives_ite (gives_ok h1) (gives_ok (addXact_memWf (tlbFill_memWf h1 _ _ _ _ _) _))

theorem qcopyStep_memWf {s : State} (h : s.memWf = true) (y : QCopy) : (qcopyStep s y).memWf = true := by
  unfold qcopyStep
  extract_lets q ctx t wh a n m r
  refine ite_memWf h ?_
  have hr : GivesWf Prod.snd r := gives_ite (gives_ok h) (copySource_memWf h _ _ _)
  clear_value r
  split
  · exact mfQueue_memWf (memWf_update h) _ _ _ _
  · exact hr _ rfl
  · rename_i s2
    have h2 : s2.memWf = true := hr _ rfl
    split
    · exact mfQueue_memWf (memWf_update h2) _ _ _ _
    · exact addXact_memWf (memWf_update (ite_memWf (tlbFill_memWf h2 _ _ _ _ _) h2)) _

theorem shuttleMove_memWf {s : State} (h : s.memWf = true) (core ch : Nat) (id : BitVec 32) : (shuttleMove s core ch id).memWf = true := by
  unfold shuttleMove
  refine ite_memWf ?_ ?_
  · split
    · exact ite_memWf h (qcopyStep_memWf h _)
    · exact h
  · split
    · exact h
    · refine ite_memWf h ?_
      split
      · exact convStep_memWf h _ _ _ _
      · split
        · exact ite_memWf (setCmd_memWf h _ _) (copyStep_memWf h _ _ _)
        · exact copyStep_memWf h _ _ _
        · exact h
        · exact ite_memWf h (startAmo_memWf h _ _)

theorem execAccessPerformedAtHome_endsWf {s : State} (h : s.memWf = true) (id : Nat) : EndsWf (execAccessPerformedAtHome id s) := by
  unfold execAccessPerformedAtHome
  refine endsWf_ite (finish_endsWf (shuttleMove_memWf h _ _ _)) ?_
  split
  · exact endsWf_next h
  · exact endsWf_ite (finish_endsWf (performX_memWf h _)) (endsWf_next h)

theorem retireCmd_memWf {s : State} (h : s.memWf = true) (core : Nat) (x : ShCmd) : (retireCmd s core x).memWf = true := by
  unfold retireCmd
  extract_lets s1 c2 _
  have h1 : s1.memWf = true := by
    unfold s1
    split
    · exact ite_memWf h (sendData_memWf h _ _)
    · exact h
  have h2 : Memory.wf c2.spad = true := State.memWf_core h1 _
  exact memWf_update (State.memWf_setCore h1 _ _ (spadWf_update h2))

theorem completeCopy_memWf {s : State} (h : s.memWf = true) (y : QCopy) : (completeCopy s y).memWf = true := by
  unfold completeCopy
  refine ite_memWf (memWf_update (completePkt_memWf h _ _ _)) ?_
  split
  · exact mfQueue_memWf (memWf_update h) _ _ _ _
  · rename_i _ s1 e1
    have h1 : s1.memWf = true := vaAmoOut_memWf h _ _ _ _ _ _ _ _ e1
    exact memWf_update (completePkt_memWf h1 _ _ _)

theorem recordPut_memWf {s : State} (h : s.memWf = true) (core : Nat) (x : ShCmd) (m : MasterT) : (recordPut s core x m).1.memWf = true := by
  unfold recordPut
  extract_lets va n
  split
  · exact h
  · split
    rename_i s1 _ e1
    have h1 : s1.memWf = true := memWf_of_eq (p := Prod.fst) e1 (vaPut_memWf h _ _ _ _ _ _ _ _)
    dsimp only
    split
    · exact setCmd_memWf h1 _ _
    · exact h1

theorem execShuttleCommandComplete_endsWf {s : State} (h : s.memWf = true) (core ch : Nat) (id : BitVec 32) :
    EndsWf (execShuttleCommandComplete core ch id s) := by
  unfold execShuttleCommandComplete
  refine endsWf_ite ?_ ?_
  · split
    · exact endsWf_ite (endsWf_next h) (endsWf_ite (endsWf_next (relMark_memWf h _ _)) (finish_endsWf (completeCopy_memWf (relDone_memWf h _ _) _)))
    · exact endsWf_next h
  · split
    · exact endsWf_next h
    · refine endsWf_ite (endsWf_next h) ?_
      refine endsWf_ite (endsWf_next (relMark_memWf h _ _)) ?_
      refine endsWf_ite (endsWf_next (retireCmd_memWf (relDone_memWf h _ _) _ _)) ?_
      refine endsWf_ite (endsWf_next (relDone_memWf h _ _)) ?_
      split
      · rename_i s1 e1
        have h1 : s1.memWf = true := memWf_of_eq (p := (·.1)) e1 (recordPut_memWf (relDone_memWf h _ _) _ _ _)
        refine finish_endsWf ?_
        split
        · exact ite_memWf h1 (retireCmd_memWf h1 _ _)
        · exact h1
      · rename_i s2 _ e2
        have h2 : s2.memWf = true := memWf_of_eq (p := (·.1)) e2 (recordPut_memWf (relDone_memWf h _ _) _ _ _)
        exact endsWf_ite (finish_endsWf (retireCmd_memWf (writeFault_memWf h2 _ _ _) _ _)) (finish_endsWf (chanFault_memWf h2 _ _ _ _))

theorem chanResume_memWf {s : State} (h : s.memWf = true) (core ch : Nat) : (chanResume s core ch).memWf = true :=
  State.memWf_setCore h _ _ (spadWf_update (State.memWf_core h _))

theorem chanKill_memWf {s : State} (h : s.memWf = true) (core ch : Nat) : (chanKill s core ch).memWf = true :=
  State.memWf_setCore (memWf_update h) _ _ (spadWf_update (State.memWf_core h _))

theorem execSlotTableLoadArrive_endsWf {s : State} (h : s.memWf = true) (k : Nat) : EndsWf (execSlotTableLoadArrive k s) := by
  unfold execSlotTableLoadArrive
  split
  · exact endsWf_next h
  · refine endsWf_ite (endsWf_next h) ?_
    extract_lets set late t
    have hset : ∀ {s : State}, s.memWf = true → ∀ a, (set s a).memWf = true := fun hs _ => memWf_update hs
    clear_value set
    split
    · exact endsWf_ite (endsWf_next (hset h _)) (endsWf_ite (endsWf_next (hset h _)) (endsWf_next (hset (memWf_update h) _)))
    · exact endsWf_ite (endsWf_next (hset h _)) (endsWf_ite (endsWf_next (hset h _)) (endsWf_next (hset (State.memWf_setDie h _ _) _)))

theorem execSlotTableActivate_endsWf {s : State} (h : s.memWf = true) (die target : Nat) : EndsWf (execSlotTableActivate die target s) := by
  unfold execSlotTableActivate
  extract_lets _ _
  split
  · exact endsWf_next h
  · exact endsWf_ite (endsWf_next h) (endsWf_next (State.memWf_setDie h _ _))

theorem execSlotTableLoadAnswer_endsWf {s : State} (h : s.memWf = true) (k : Nat) : EndsWf (execSlotTableLoadAnswer k s) := by
  unfold execSlotTableLoadAnswer
  split
  · exact endsWf_next h
  · split
    · exact endsWf_next h
    · extract_lets s1
      have h1 : s1.memWf = true := memWf_update h
      split
      · exact endsWf_next (completePkt_memWf h1 _ _ _)
      · extract_lets c2
        have h2 : Memory.wf c2.spad = true := State.memWf_core h1 _
        split
        · exact endsWf_next (State.memWf_setCore h1 _ _ (spadWf_update h2))
        · exact endsWf_next h1

theorem circTake_memWf {s : State} (h : s.memWf = true) (d unit i : Nat) (f : CFlit) : (circTake s d unit i f).memWf = true := by
  unfold circTake
  refine ite_memWf ?_ (State.memWf_setDie h _ _)
  extract_lets _ c1
  have h1 : Memory.wf c1.spad = true := State.memWf_core h _
  split
  · exact State.memWf_setCore h _ _ (spadWf_update h1)
  · exact h

theorem putWire_memWf {s : State} (h : s.memWf = true) (d unit p lane : Nat) (f : Flit) : (putWire s d unit p lane f).memWf = true := by
  unfold putWire
  split
  · exact memWf_update h
  · exact memWf_update h

theorem emitFlit_memWf {s : State} (h : s.memWf = true) (d unit p lane circ : Nat) (b : Payload) : (emitFlit s d unit p lane circ b).memWf = true :=
  ite_memWf (putWire_memWf (State.memWf_setDie h _ _) _ _ _ _ _) (putWire_memWf (State.memWf_setDie h _ _) _ _ _ _ _)

theorem markUsed_memWf {s : State} (h : s.memWf = true) (d unit : Nat) (ps : List Nat) : (markUsed s d unit ps).memWf = true :=
  State.memWf_setDie h _ _

theorem sendFrontier_memWf {s : State} (h : s.memWf = true) (d link : Nat) : (sendFrontier s d link).memWf = true :=
  emitFlit_memWf (State.memWf_setDie h _ _) _ _ _ _ _ _

theorem execFrontierFlitSend_endsWf {s : State} (h : s.memWf = true) (die link : Nat) : EndsWf (execFrontierFlitSend die link s) :=
  endsWf_ite (endsWf_next h) (endsWf_next (markUsed_memWf (sendFrontier_memWf h _ _) _ _ _))

theorem laneSend_memWf {s : State} (h : s.memWf = true) (d unit p lane : Nat) : (laneSend d unit p s lane).memWf = true := by
  unfold laneSend
  extract_lets done
  have hdone : ∀ {s : State}, s.memWf = true → (done s).memWf = true := fun hs => markUsed_memWf hs _ _ _
  have hemit : ∀ {s : State}, s.memWf = true → ∀ d unit p lane circ b, (emitFlit s d unit p lane circ b).memWf = true :=
    fun hs _ _ _ _ _ _ => emitFlit_memWf hs _ _ _ _ _ _
  clear_value done
  split
  · exact h
  · exact hdone (hemit h _ _ _ _ _ _)
  · exact hdone (putWire_memWf (State.memWf_setDie h _ _) _ _ _ _ _)
  · exact ite_memWf (markUsed_memWf (foldl_memWf (fun _ _ h2 => hemit h2 _ _ _ _ _ _) (circTake_memWf h _ _ _ _) _) _ _ _) h
  · exact hdone (hemit (State.memWf_setDie h _ _) _ _ _ _ _ _)
  · exact hdone (sendFrontier_memWf h _ _)
  · exact hdone (hemit (State.memWf_setDie h _ _) _ _ _ _ _ _)

theorem flitSend_memWf {s : State} (h : s.memWf = true) (d unit p : Nat) : (flitSend d unit p s).memWf = true :=
  foldl_memWf (fun _ _ h1 => laneSend_memWf h1 _ _ _ _) h _

theorem execFlitSend_endsWf {s : State} (h : s.memWf = true) (die unit port : Nat) : EndsWf (execFlitSend die unit port s) :=
  endsWf_next (flitSend_memWf h _ _ _)

theorem execSlotmiss_endsWf {s : State} (h : s.memWf = true) (die unit port : Nat) : EndsWf (execSlotmiss die unit port s) := by
  unfold execSlotmiss
  refine endsWf_ite ?_ (endsWf_ite (endsWf_next (State.memWf_setDie h _ _)) (endsWf_next h))
  extract_lets _ c1
  have h1 : Memory.wf c1.spad = true := State.memWf_core h _
  split
  · exact endsWf_next h
  · exact endsWf_next (State.memWf_setCore (State.memWf_setDie h _ _) _ _ (spadWf_update h1))

theorem execEscapeChannelMove_endsWf {s : State} (h : s.memWf = true) (die unit k : Nat) : EndsWf (execEscapeChannelMove die unit k s) := by
  unfold execEscapeChannelMove
  extract_lets _ _
  split
  · exact endsWf_next h
  · exact endsWf_ite (endsWf_next h) (endsWf_next (State.memWf_setDie h _ _))

theorem leaveEnd_memWf {s : State} (h : s.memWf = true) (d k : Nat) (back : List BePkt) : (leaveEnd s d k back).memWf = true :=
  memWf_update (State.memWf_setDie h _ _)

theorem leaveActive_memWf {s : State} (h : s.memWf = true) (d k : Nat) : (leaveActive s d k).memWf = true :=
  foldl_memWf (fun _ _ h1 => leaveEnd_memWf h1 _ _ _) (foldl_memWf (fun _ _ h2 => breakCircuit_memWf h2 _) h _) _

theorem takeBody_memWf {s : State} (h : s.memWf = true) (d unit port lane circ : Nat) (b : Payload) :
    (takeBody s d unit port lane circ b).memWf = true := by
  unfold takeBody
  extract_lets y
  split
  · refine ite_memWf (ite_memWf ?_ ?_) (State.memWf_setDie h _ _)
    · split
      · exact memWf_update h
      · exact h
    · extract_lets ws more y2 s1
      have h1 : s1.memWf = true := State.memWf_setDie h _ _
      clear_value s1 ws
      refine ite_memWf h1 ?_
      split
      · exact ite_memWf (sendPacket_memWf (State.memWf_setDie h1 _ _) _ _ _) (memWf_update (State.memWf_setDie h1 _ _))
      · exact h1
  · exact ite_memWf h (ite_memWf (memWf_update h) (State.memWf_setDie h _ _))
  · exact memWf_update h
  · exact memWf_update h
  · exact h

theorem lineReceive_memWf {s : State} (h : s.memWf = true) (d unit lane : Nat) (err : FlitErr) (f : Flit) :
    (lineReceive s d unit lane err f).memWf = true :=
  ite_memWf (State.memWf_setDie h _ _)
    (ite_memWf (State.memWf_setDie h _ _)
       (ite_memWf (State.memWf_setDie h _ _) (takeBody_memWf (State.memWf_setDie h _ _) _ _ _ _ _ _)))

theorem execFlitReceive_endsWf {s : State} (h : s.memWf = true) (die unit port : Nat) (err : FlitErr) (ext : Option Flit) :
    EndsWf (execFlitReceive die unit port err ext s) := by
  unfold execFlitReceive
  split
  · exact endsWf_ite (endsWf_next (lineReceive_memWf h _ _ _ _ _)) (endsWf_next h)
  · split
    · exact endsWf_next h
    · exact endsWf_ite (endsWf_next (memWf_update h))
          (endsWf_ite (endsWf_next (lineReceive_memWf (memWf_update h) _ _ _ _ _))
             (endsWf_next (takeBody_memWf (State.memWf_setDie (memWf_update h) _ _) _ _ _ _ _ _)))

theorem trainLinks_memWf {s : State} (h : s.memWf = true) (f : Nat × Nat → Bool) : (trainLinks s f).memWf = true :=
  foldl_memWf (fun _ _ h1 => State.memWf_setDie h1 _ _) h _

theorem trainExternal_memWf {s : State} (h : s.memWf = true) (link : Nat) : (trainExternal s link).memWf = true :=
  ite_memWf (trainLinks_memWf h _) h

theorem setEnds_memWf {s : State} (h : s.memWf = true) (d k : Nat) (st : LinkState) (fails : Nat) : (setEnds s d k st fails).memWf = true :=
  foldl_memWf (fun _ _ h1 => State.memWf_setDie h1 _ _) h _

theorem execLinkTrainingComplete_endsWf {s : State} (h : s.memWf = true) (die link lat : Nat) :
    EndsWf (execLinkTrainingComplete die link lat s) := by
  unfold execLinkTrainingComplete
  extract_lets y l low up
  split
  · exact endsWf_next h
  · exact endsWf_next h
  · exact endsWf_next h
  · exact endsWf_next (trainExternal_memWf (foldl_memWf (fun _ _ h1 => State.memWf_setDie h1 _ _) h _) _)

theorem trainOn_memWf {s : State} (h : s.memWf = true) : (trainOn s).memWf = true :=
  ite_memWf (memWf_update h) h

theorem execLinkTrainingFailure_endsWf {s : State} (h : s.memWf = true) (die link : Nat) : EndsWf (execLinkTrainingFailure die link s) := by
  unfold execLinkTrainingFailure
  extract_lets _ _ _ s1 s2 _
  have h1 : s1.memWf = true := ite_memWf (leaveActive_memWf h _ _) h
  have h2 : s2.memWf = true := setEnds_memWf h1 _ _ _ _
  split
  · exact endsWf_next h
  · exact endsWf_ite (endsWf_next (memWf_update h2)) (endsWf_next h2)

theorem execLinkRetrain_endsWf {s : State} (h : s.memWf = true) (die link : Nat) : EndsWf (execLinkRetrain die link s) :=
  endsWf_ite (endsWf_next h) (endsWf_next (setEnds_memWf (leaveActive_memWf h _ _) _ _ _ _))

theorem execLinkstatRetry_endsWf {s : State} (h : s.memWf = true) (die link : Nat) : EndsWf (execLinkstatRetry die link s) :=
  endsWf_next (setEnds_memWf (ite_memWf (leaveActive_memWf h _ _) h) _ _ _ _)

theorem execLinkWake_endsWf {s : State} (h : s.memWf = true) (die link : Nat) : EndsWf (execLinkWake die link s) := by
  unfold execLinkWake
  extract_lets _ _
  split
  · exact endsWf_ite (endsWf_next h) (endsWf_next (State.memWf_setDie h _ _))
  · exact endsWf_next h

theorem linkPower_memWf {s : State} (h : s.memWf = true) (mode : Nat) : (linkPower s mode).memWf = true := by
  unfold linkPower
  refine foldl_memWf (fun _ _ h1 => ?_) h _
  refine foldl_memWf (fun _ _ h2 => ?_) h1 _
  extract_lets _ _ _
  split
  · exact ite_memWf (State.memWf_setDie h2 _ _) h2
  · exact State.memWf_setDie h2 _ _
  · exact h2

theorem execFrontierFlitReceive_endsWf {s : State} (h : s.memWf = true) (die : Nat) (entries : List (Nat × Word)) :
    EndsWf (execFrontierFlitReceive die entries s) :=
  endsWf_next (foldl_memWf (fun _ _ h1 => raiseClock_memWf h1 _ _ _) h _)

theorem ackFrom_memWf {s : State} (h : s.memWf = true) (d dd : Nat) (v : BitVec 32) (nack : Bool) : (ackFrom s d dd v nack).memWf = true := by
  unfold ackFrom
  split
  · exact State.memWf_setDie h _ _
  · exact memWf_update h

theorem execWriteAcknowledgement_endsWf {s : State} (h : s.memWf = true) (die seq : Nat) (_nack : Bool) :
    EndsWf (execWriteAcknowledgement die seq _nack s) :=
  endsWf_next (sendAll_memWf (ackWrite_memWf h _ _))

theorem nackWrite_memWf {s : State} (h : s.memWf = true) (d : Nat) (p : Packet) : (nackWrite s d p).memWf = true :=
  sendPacket_memWf h _ _ _

theorem waitPacket_memWf {s : State} (h : s.memWf = true) (d : Nat) (p : Packet) : (waitPacket s d p).memWf = true :=
  State.memWf_setDie h _ _

theorem maskWrite_memWf {s : State} (h : s.memWf = true) (t ctx va v en : Nat) (m : MasterT) : (maskWrite s t ctx va v en m).1.memWf = true := by
  refine foldlAt_memWf Prod.fst (fun acc p h1 => iteAt_memWf Prod.fst h1 ?_) h _
  split
  · exact h1
  · exact sinterBy_memWf (homeWrite_memWf (tlbFill_memWf h1 _ _ _ _ _) _ _ _ _ _) _ _ _ _ _

theorem foreignReq_memWf {s : State} (h : s.memWf = true) (d : Nat) (p : Packet) : (foreignReq s d p).memWf = true := by
  unfold foreignReq
  extract_lets hd t va ctx m ans val n
  have hans : ∀ {s : State}, s.memWf = true → ∀ pt nack data, (ans s pt nack data).memWf = true := fun hs _ _ _ => sendPacket_memWf hs _ _ _
  clear_value ans
  split
  · refine ite_memWf (waitPacket_memWf h _ _) ?_
    split
    · rename_i s1 e1
      have h1 : s1.memWf = true := vaRead_memWf h _ _ _ _ _ _ e1
      exact hans h1 _ _ _
    · exact hans h _ _ _
  · refine ite_memWf (waitPacket_memWf h _ _) ?_
    split
    · rename_i s2 e2
      have h2 : s2.memWf = true := vaAmo_memWf h _ _ _ _ _ _ _ _ _ e2
      exact hans h2 _ _ _
    · exact hans h _ _ _
  · refine ite_memWf (waitPacket_memWf h _ _) ?_
    have hw : ∀ v en w n, (if pkAop hd = partAop then maskWrite s t ctx va v en m else vaWrite s t ctx va n w m).1.memWf = true :=
      fun _ _ _ _ => iteAt_memWf Prod.fst (maskWrite_memWf h _ _ _ _ _ _) (vaWrite_memWf h _ _ _ _ _ _)
    split
    · rename_i s3 e3
      have h3 : s3.memWf = true := memWf_of_eq (p := Prod.fst) e3 (hw _ _ _ _)
      exact hans h3 _ _ _
    · rename_i s4 _ e4
      have h4 : s4.memWf = true := memWf_of_eq (p := Prod.fst) e4 (hw _ _ _ _)
      exact hans h4 _ _ _

theorem takeAnswer_memWf {s : State} (h : s.memWf = true) (d : Nat) (p : Packet) (x : Xact) : (takeAnswer s d p x).memWf = true := by
  unfold takeAnswer
  extract_lets _ s1 _ _ _ s3 _ _ s4 s5
  have h1 : s1.memWf = true := ite_memWf (foldl_memWf (fun _ _ h2 => raiseClock_memWf h2 _ _ _) h _) h
  have h3 : s3.memWf = true := by
    unfold s3
    split
    · exact ite_memWf (memWf_update h1) h1
    · exact h1
  have h4 : s4.memWf = true := ite_memWf (countOrder_memWf (memWf_update h3) _) h3
  have h5 : s5.memWf = true := memWf_update (deliver_memWf h4 _)
  exact ite_memWf (ackFrom_memWf h5 _ _ _ _) h5

theorem acceptPacket_memWf {s : State} (h : s.memWf = true) (d : Nat) (p : Packet) : (acceptPacket s d p).memWf = true := by
  unfold acceptPacket
  extract_lets _ _
  split
  · split
    · exact memWf_update h
    · exact h
  · split
    · exact h
    · exact takeAnswer_memWf h _ _ _
  · exact memWf_update (State.memWf_setDie h _ _)
  · split
    · exact State.memWf_setLaunch h _
    · exact h
  · split
    · exact State.memWf_setLaunch h _
    · exact h
  · exact memWf_update h
  · exact h
  · exact giveChild_memWf h _ _
  · exact takeChild_memWf h _ _ _
  · exact takeChild_memWf h _ _ _
  · split
    · exact State.memWf_setLaunch h _
    · exact h
  · split
    · exact foreignReq_memWf h _ _
    · exact foreignReq_memWf h _ _
    · exact foreignReq_memWf h _ _
    · exact foreignReq_memWf h _ _
    · exact ite_memWf (memWf_update h) (foreignReq_memWf h _ _)
    · split
      · exact takeAnswer_memWf h _ _ _
      · exact h
    · split
      · exact takeAnswer_memWf h _ _ _
      · exact h
    · split
      · exact takeAnswer_memWf h _ _ _
      · split
        · exact ackFrom_memWf h _ _ _ _
        · exact h
    · split
      · exact memWf_update (State.memWf_setDie h _ _)
      · exact h
    · exact h

theorem execPacketReceive_endsWf {s : State} (h : s.memWf = true) (die : Nat) (p : Packet) : EndsWf (execPacketReceive die p s) := by
  unfold execPacketReceive
  refine endsWf_ite ?_ ?_
  · extract_lets s1
    have h1 : s1.memWf = true := State.memWf_setDie h _ _
    exact endsWf_next (ite_memWf (nackWrite_memWf h1 _ _) h1)
  · extract_lets _ s2 _ _ s3 s4 _
    have h2 : s2.memWf = true := ite_memWf (State.memWf_setDie h _ _) h
    have h3 : s3.memWf = true := State.memWf_setDie h2 _ _
    have h4 : s4.memWf = true := waitPacket_memWf h2 _ _
    exact endsWf_ite (endsWf_next (ite_memWf (nackWrite_memWf h3 _ _) h3))
        (endsWf_ite (endsWf_next (State.memWf_setDie h4 _ _))
           (endsWf_ite (endsWf_next (waitPacket_memWf h2 _ _))
              (endsWf_ite (endsWf_next (State.memWf_setDie h2 _ _)) (finish_endsWf (acceptPacket_memWf h2 _ _)))))

theorem execHeldWriteApply_endsWf {s : State} (h : s.memWf = true) (die k : Nat) : EndsWf (execHeldWriteApply die k s) := by
  unfold execHeldWriteApply
  extract_lets _ s1 _
  have h1 : s1.memWf = true := State.memWf_setDie h _ _
  split
  · exact endsWf_next h
  · exact endsWf_ite (endsWf_next h) (endsWf_ite (endsWf_next (State.memWf_setDie h1 _ _)) (finish_endsWf (acceptPacket_memWf h1 _ _)))

theorem execChannelWordArrive_endsWf {s : State} (h : s.memWf = true) (core ch : Nat) (w : Word) : EndsWf (execChannelWordArrive core ch w s) :=
  endsWf_next (State.memWf_setCore h _ _ (spadWf_update (State.memWf_core h _)))

theorem execTimeSyncSend_endsWf {s : State} (h : s.memWf = true) : EndsWf (execTimeSyncSend s) :=
  endsWf_ite (endsWf_next h) (endsWf_next (State.memWf_setDie h _ _))

theorem execTimeSyncReceive_endsWf {s : State} (h : s.memWf = true) (x : SyncFrom) (t1 t2 t3 t4 : Word) :
    EndsWf (execTimeSyncReceive x t1 t2 t3 t4 s) := by
  unfold execTimeSyncReceive
  split
  · exact endsWf_next (State.memWf_setDie h _ _)
  · exact endsWf_next (State.memWf_setDie h _ _)
  · exact endsWf_ite (endsWf_next h) (endsWf_ite (endsWf_next (memWf_update h)) (endsWf_ite (endsWf_next (memWf_update h)) (endsWf_next h)))

theorem execDomcfgWrite_endsWf {s : State} (h : s.memWf = true) (v : Word) : EndsWf (execDomcfgWrite v s) :=
  endsWf_ite (endsWf_next h) (endsWf_next (memWf_update h))

end Sys2Proof.Machine
end

