-- ==== Sys2Proof/Proofs/EngineForm.lean ====
section
/-! SUPPORT. The Vent, the Sinter's freezes and the conversions of layouts and shards keep the form of every memory. -/
namespace Sys2Proof.Machine

theorem engineFault_memWf {s : State} (h : s.memWf = true) (d mkind ep ctx key : Nat) (wr : Bool) (e : MFault) :
    (engineFault s d mkind ep ctx key wr e).memWf = true :=
  writeFault_memWf (State.memWf_setDie h _ _) _ _ _

theorem sendContrib_memWf {s : State} (h : s.memWf = true) (d t : Nat) (e : BitVec 1024) (data : List Word) (js : List Nat) :
    (sendContrib s d t e data js).memWf = true := by
  unfold sendContrib
  extract_lets _ _ _ s1 _ _ _ _ _ _
  have h1 : s1.memWf = true := ite_memWf h (numberAll_memWf h _ _ _)
  exact ite_memWf (State.memWf_setDie h1 _ _) (foldl_memWf (fun _ _ h2 => sendPacket_memWf h2 _ _ _) h1 _)

theorem execVentFire_endsWf {s : State} (h : s.memWf = true) (die t : Nat) : EndsWf (execVentFire die t s) := by
  unfold execVentFire
  extract_lets _ _
  split
  · exact endsWf_next h
  · refine endsWf_ite (endsWf_next (State.memWf_setDie (State.memWf_setDie h _ _) _ _)) ?_
    refine endsWf_ite (endsWf_next h) ?_
    split
    · exact finish_endsWf (engineFault_memWf h _ _ _ _ _ _ _)
    · refine endsWf_ite (endsWf_next h) ?_
      split
      extract_lets s1 _ s2 _ _ _ _ _ s3 _ s5
      have h1 : s1.memWf = true := bankTurn_memWf (State.memWf_setDie h _ _) _ _
      have h2 : s2.memWf = true := State.memWf_setDie h1 _ _
      have h3 : s3.memWf = true := foldl_memWf (fun _ _ h4 => sendContrib_memWf h4 _ _ _ _ _) h2 _
      have h5 : s5.memWf = true := ite_memWf (State.memWf_setDie h3 _ _) h3
      exact endsWf_next (memWf_update h5)

theorem ackContrib_memWf {s : State} (hs : s.memWf = true) (d : Nat) (h : BitVec 256) (nack : Bool) : (ackContrib s d h nack).memWf = true :=
  sendPacket_memWf (State.memWf_setDie hs _ _) _ _ _

theorem execVentContributionReceive_endsWf {s : State} (h : s.memWf = true) (die k : Nat) : EndsWf (execVentContributionReceive die k s) := by
  unfold execVentContributionReceive
  extract_lets _ _
  split
  · exact endsWf_next h
  · exact endsWf_ite (endsWf_next h)
        (endsWf_ite (endsWf_next (ackContrib_memWf (State.memWf_setDie h _ _) _ _ _))
           (endsWf_ite (endsWf_next (State.memWf_setDie h _ _)) (endsWf_next (State.memWf_setDie h _ _))))

theorem ventPhys_memWf {s : State} (h : s.memWf = true) (d : Nat) (e : BitVec 1024) (off n : Nat) :
    GivesWf (fun r => r.2) (ventPhys s d e off n) := by
  unfold ventPhys
  refine gives_ite ?_ ?_
  · split
    · exact gives_error _
    · exact gives_ite (gives_error _) (gives_ok (tlbFill_memWf h _ _ _ _ _))
  · extract_lets _
    split
    · exact gives_ok h
    · exact gives_error _

theorem ventWhole_memWf {s : State} (h : s.memWf = true) (d : Nat) (e : BitVec 1024) (n : Nat) : GivesWf (fun r => r) (ventWhole s d e n) :=
  gives_ite (gives_ok h) (gives_map (ventPhys_memWf h _ _ _ _))

theorem ventPut_memWf {s : State} (h : s.memWf = true) (d t : Nat) (e : BitVec 1024) (off n : Nat) (f : Nat → Nat × FlagBits) :
    GivesWf (fun r => r) (ventPut s d t e off n f) := by
  unfold ventPut
  split
  · exact gives_error _
  · rename_i _ s1 e1
    have h1 : s1.memWf = true := ventPhys_memWf h _ _ _ _ _ e1
    exact gives_ok (sinter_memWf (stickyFlags_memWf (homeWrite_memWf h1 _ _ _ _ _) _ _) _ _ _ _ _ _ _ _)

theorem ventApply_memWf {s : State} (h : s.memWf = true) (d t : Nat) (e : BitVec 1024) (data : List Word) :
    GivesWf (fun r => r) (ventApply s d t e data) :=
  Gives.bind (ventWhole_memWf h _ _ _) fun _ h1 => gives_foldlM (fun _ _ h2 => ventPut_memWf h2 _ _ _ _ _ _) h1 _

theorem ventDraw_memWf {s : State} (h : s.memWf = true) (d t : Nat) (e : BitVec 1024) (a b : List Word) :
    GivesWf (fun r => r.2) (ventDraw s d t e a b) := by
  refine Gives.bind (ventWhole_memWf h _ _ _) fun s1 h1 => gives_foldlM (P := fun b : Bool × State => b.2.memWf = true) (fun acc x h2 => ?_) h1 _
  dsimp only
  split
  · exact gives_error _
  · rename_i s3 e3
    exact gives_ok (ventPut_memWf h2 _ _ _ _ _ _ _ e3)

theorem ventFinish_memWf {s : State} (h : s.memWf = true) (d t : Nat) : (ventFinish s d t).memWf = true := by
  unfold ventFinish
  extract_lets y e st v
  split
  rename_i s1 _ e1
  have h1 : s1.memWf = true := memWf_of_eq (p := Prod.fst) e1 (iteAt_memWf Prod.fst h (vaRelease_memWf h _ _ _ _ _ _))
  split
  · exact engineFault_memWf h1 _ _ _ _ _ _ _
  · exact State.memWf_setDie (memWf_update h1) _ _

theorem ventRelease_memWf {s : State} (h : s.memWf = true) (d t : Nat) : (ventRelease s d t).memWf = true :=
  ite_memWf (relMark_memWf h _ _) (ventFinish_memWf (relDone_memWf h _ _) _ _)

theorem execVentContributionApply_endsWf {s : State} (h : s.memWf = true) (die t : Nat) : EndsWf (execVentContributionApply die t s) := by
  unfold execVentContributionApply
  refine endsWf_ite (endsWf_next h) ?_
  extract_lets y e st fault done
  have hfault : ∀ x, EndsWf (fault x) := fun _ => finish_endsWf (engineFault_memWf h _ _ _ _ _ _ _)
  have hdone : ∀ {s : State}, s.memWf = true → ∀ st hs, EndsWf (done s st hs) := fun hs _ _ =>
    have h1 := foldl_memWf (fun _ _ h4 => ackContrib_memWf h4 _ _ _) (State.memWf_setDie hs _ _) _
    finish_endsWf (ite_memWf (ventRelease_memWf h1 _ _) h1)
  clear_value fault done
  refine endsWf_ite (finish_endsWf (ventRelease_memWf h _ _)) (endsWf_ite ?_ ?_)
  · split
    · split
      · exact hfault _
      · rename_i s1 e1
        exact hdone (ventDraw_memWf h _ _ _ _ _ _ e1) _ _
    · exact endsWf_next h
  · split
    · exact endsWf_next h
    · split
      · exact hfault _
      · rename_i s1 e1
        exact hdone (ventApply_memWf h _ _ _ _ _ e1) _ _

theorem execVentGroupUpdate_endsWf {s : State} (h : s.memWf = true) (k : Nat) : EndsWf (execVentGroupUpdate k s) := by
  unfold execVentGroupUpdate
  split
  · exact endsWf_next h
  · extract_lets s1
    have h1 : s1.memWf = true := memWf_update h
    split
    · exact endsWf_next (State.memWf_setDie h1 _ _)
    · exact endsWf_next h1

theorem sinterFreeze_memWf {s : State} (h : s.memWf = true) (mkind mid : Nat) (r : BitVec 512) : (sinterFreeze s mkind mid r).memWf = true := by
  unfold sinterFreeze
  split
  · extract_lets _ c1
    have h1 : Memory.wf c1.spad = true := State.memWf_core h _
    split
    · exact State.memWf_setCore h _ _ (takeTrap_spadWf h1 _ _)
    · exact h
  · exact State.memWf_setCore h _ _ (spadWf_update (State.memWf_core h _))
  · exact State.memWf_setQueue h _ _
  · exact State.memWf_setDie h _ _
  · exact State.memWf_setDie h _ _
  · exact memWf_update h
  · exact h

theorem execSinterTrapFreeze_endsWf {s : State} (h : s.memWf = true) (k : Nat) : EndsWf (execSinterTrapFreeze k s) := by
  unfold execSinterTrapFreeze
  split
  · exact endsWf_next h
  · exact endsWf_next (sinterFreeze_memWf (memWf_update h) _ _ _)

theorem freshDld_spadWf {c : Core} (hc : Memory.wf c.spad = true) (dva : Nat) (now : Option (BitVec 2048)) :
    Memory.wf (freshDld dva now c).spad = true := by
  unfold freshDld
  split
  · exact hc
  · exact spadWf_update hc

theorem updSlots_memWf {s : State} (h : s.memWf = true) (t ctx dva : Nat) (f : BitVec 2048 → BitVec 2048) :
    (updSlots s t ctx dva f).memWf = true := by
  unfold updSlots
  extract_lets u now core
  have hcore : ∀ c, Memory.wf c.spad = true → Memory.wf (core c).spad = true := fun _ hc => ite_spadWf (freshDld_spadWf (spadWf_update hc) _ _) hc
  obtain ⟨hm, hc, hs, hp⟩ := (State.memWf_iff s).mp h
  refine (State.memWf_iff _).mpr ⟨hm, fun x hx => ?_, fun x hx => ?_, fun x hx => ?_⟩
  · obtain ⟨y, hy, rfl⟩ := List.mem_map.mp hx
    exact hcore _ (hc y hy)
  · obtain ⟨y, hy, rfl⟩ := List.mem_map.mp hx
    exact hcore _ (hs y hy)
  · obtain ⟨y, hy, rfl⟩ := List.mem_map.mp hx
    split
    · exact putPart_wf _ _ _ _
    · exact hp y hy

theorem writeRec_memWf {s : State} (h : s.memWf = true) (t : Nat) (c : Conv) (d : BitVec 2048) (ws : List Nat) :
    (writeRec s t c d ws).1.memWf = true := by
  refine foldlAt_memWf Prod.fst (fun acc w h1 => ?_) h _
  split
  · exact h1
  · exact vaPut_memWf h1 _ _ _ _ _ _ _ _

theorem zeroBmap_memWf {s : State} (h : s.memWf = true) (t : Nat) (c : Conv) (va np nt : Nat) : (zeroBmap s t c va np nt).1.memWf = true :=
  vaWrite_memWf h _ _ _ _ _ _

theorem setBmap_memWf {s : State} (h : s.memWf = true) (tl : Nat) (c : Conv) (va p nt t : Nat) :
    GivesWf (fun r => r) (setBmap s tl c va p nt t) := by
  unfold setBmap
  extract_lets _
  split
  · exact gives_error _
  · rename_i _ s1 e1
    have h1 : s1.memWf = true := vaGet_memWf h _ _ _ _ _ _ _ e1
    split
    · rename_i s2 e2
      have h2 : s2.memWf = true := memWf_of_eq (p := (·.1)) e2 (vaWrite_memWf h1 _ _ _ _ _ _)
      exact gives_ok h2
    · rename_i s3 _ e3
      have h3 : s3.memWf = true := memWf_of_eq (p := (·.1)) e3 (vaWrite_memWf h1 _ _ _ _ _ _)
      exact gives_error _

theorem setLock_memWf {s : State} (h : s.memWf = true) (c : Conv) (p : Nat) (f : LockTab → LockTab) : (setLock s c p f).memWf = true :=
  ite_memWf (memWf_update h) (memWf_update h)

theorem copyShadow_memWf {s : State} (h : s.memWf = true) (a b : Phys) : (copyShadow s a b).memWf = true :=
  ite_memWf (memWf_update h) h

theorem readBits_memWf {s : State} (h : s.memWf = true) (t ctx a w : Nat) : GivesWf (fun r => r.2) (readBits s t ctx a w) := by
  unfold readBits
  split
  · rename_i _ s1 e1
    have h1 : s1.memWf = true := vaRead_memWf h _ _ _ _ _ _ e1
    exact gives_ok h1
  · exact gives_error _

theorem writeBits_memWf {s : State} (h : s.memWf = true) (t ctx a w v : Nat) : GivesWf (fun r => r) (writeBits s t ctx a w v) := by
  unfold writeBits
  extract_lets n
  have hold : GivesWf Prod.snd (if a % 8 = 0 ∧ w % 8 = 0 then .ok (0, s) else vaGet .write s t ctx (a / 8) n mUser) :=
    gives_ite (gives_ok h) (vaGet_memWf h _ _ _ _ _ _)
  split
  · exact gives_error _
  · rename_i s1 e1
    have h1 : s1.memWf = true := hold _ e1
    extract_lets lo hi
    split
    · rename_i s2 e2
      have h2 : s2.memWf = true := memWf_of_eq (p := Prod.fst) e2 (vaWrite_memWf h1 _ _ _ _ _ _)
      exact gives_ok h2
    · exact gives_error _

theorem shadowVa_memWf {s : State} (h : s.memWf = true) (t ctx a b : Nat) : (shadowVa s t ctx a b).memWf = true := by
  unfold shadowVa
  split
  · exact copyShadow_memWf h _ _
  · exact h

theorem copyElem_memWf {s : State} (h : s.memWf = true) (t ctx fmt sb sj db dj : Nat) :
    GivesWf (fun r => r) (copyElem s t ctx fmt sb sj db dj) := by
  unfold copyElem
  refine Gives.bind (readBits_memWf h _ _ _ _) fun ⟨_, s1⟩ h1 => Gives.bind (writeBits_memWf h1 _ _ _ _ _) fun s2 h2 => ?_
  dsimp only
  have h3 := fun a b => shadowVa_memWf h2 t ctx a b
  split
  · exact Gives.bind (readBits_memWf (h3 _ _) _ _ _ _) fun ⟨_, s4⟩ h4 => writeBits_memWf h4 _ _ _ _ _
  · exact gives_ok (h3 _ _)

theorem execRelayoutStart_endsWf {s : State} (h : s.memWf = true) (k : Nat) : EndsWf (execRelayoutStart k s) := by
  unfold execRelayoutStart
  split
  · exact endsWf_next h
  · refine endsWf_ite (endsWf_next h) ?_
    extract_lets t dva fault
    have hfault : ∀ {s : State}, s.memWf = true → ∀ e, EndsWf (fault s e) := fun hs _ => finish_endsWf (engineFault_memWf hs _ _ _ _ _ _ _)
    clear_value fault
    split
    · rename_i s1 _ e1
      have h1 : s1.memWf = true := memWf_of_eq (p := Prod.fst) e1 (writeRec_memWf h _ _ _ _)
      exact hfault h1 _
    · rename_i s1 e1
      have h1 : s1.memWf = true := memWf_of_eq (p := Prod.fst) e1 (writeRec_memWf h _ _ _ _)
      split
      · rename_i s2 _ e2
        have h2 : s2.memWf = true := memWf_of_eq (p := Prod.fst) e2 (zeroBmap_memWf h1 _ _ _ _ _)
        exact hfault h2 _
      · rename_i s2 e2
        have h2 : s2.memWf = true := memWf_of_eq (p := Prod.fst) e2 (zeroBmap_memWf h1 _ _ _ _ _)
        exact finish_endsWf (memWf_update (updSlots_memWf (memWf_update h2) _ _ _ _))

theorem pieceDone_memWf {s : State} (h : s.memWf = true) (c : Conv) (p t : Nat) : (pieceDone s c p t).memWf = true := by
  refine memWf_update (setLock_memWf (mapCores_memWf h fun x hx => ?_) _ _ _)
  split
  · exact spadWf_update hx
  · exact hx

theorem execTileConvert_endsWf {s : State} (h : s.memWf = true) (die eng : Nat) : EndsWf (execTileConvert die eng s) := by
  unfold execTileConvert
  split
  · exact endsWf_next h
  · refine endsWf_ite (endsWf_next h) ?_
    extract_lets d m fmt us sb db s1 addrs tl dests r
    have h1 : s1.memWf = true := setLock_memWf h _ _ _
    have hr : GivesWf id r := Gives.bind (gives_foldlM (fun _ _ h2 => copyElem_memWf h2 _ _ _ _ _ _ _) h1 _) fun _ h3 =>
      gives_mapError _ (setBmap_memWf h3 _ _ _ _ _ _)
    clear_value r s1
    refine endsWf_ite (endsWf_next h1) ?_
    split
    · exact finish_endsWf (pieceDone_memWf (hr _ rfl) _ _ _)
    · exact finish_endsWf (engineFault_memWf h1 _ _ _ _ _ _ _)

theorem execRelayoutComplete_endsWf {s : State} (h : s.memWf = true) (k : Nat) : EndsWf (execRelayoutComplete k s) := by
  unfold execRelayoutComplete
  split
  · exact endsWf_next h
  · refine endsWf_ite (endsWf_next h) ?_
    refine endsWf_ite (finish_endsWf (memWf_update (updSlots_memWf h _ _ _ _))) ?_
    refine endsWf_ite (endsWf_next (relMark_memWf h _ _)) ?_
    split
    · rename_i s1 _ e1
      have h1 : s1.memWf = true := memWf_of_eq (p := (·.1)) e1 (writeRec_memWf (relDone_memWf h _ _) _ _ _ _)
      exact finish_endsWf (engineFault_memWf h1 _ _ _ _ _ _ _)
    · rename_i s2 e2
      have h2 : s2.memWf = true := memWf_of_eq (p := (·.1)) e2 (writeRec_memWf (relDone_memWf h _ _) _ _ _ _)
      exact finish_endsWf (memWf_update h2)

theorem execReshardPlan_endsWf {s : State} (h : s.memWf = true) (k : Nat) : EndsWf (execReshardPlan k s) := by
  unfold execReshardPlan
  split
  · exact endsWf_next h
  · refine endsWf_ite (endsWf_next h) ?_
    refine endsWf_ite (endsWf_next h) ?_
    split
    · exact finish_endsWf (engineFault_memWf h _ _ _ _ _ _ _)
    · rename_i _ s1 e1
      have h1 : s1.memWf = true := vaRead_memWf h _ _ _ _ _ _ e1
      split
      · rename_i s2 _ e2
        have h2 : s2.memWf = true := memWf_of_eq (p := (·.1)) e2 (writeRec_memWf h1 _ _ _ _)
        exact finish_endsWf (engineFault_memWf h2 _ _ _ _ _ _ _)
      · rename_i s3 e3
        have h3 : s3.memWf = true := memWf_of_eq (p := (·.1)) e3 (writeRec_memWf h1 _ _ _ _)
        split
        · rename_i s4 _ e4
          have h4 : s4.memWf = true := memWf_of_eq (p := (·.1)) e4 (zeroBmap_memWf h3 _ _ _ _ _)
          exact finish_endsWf (engineFault_memWf h4 _ _ _ _ _ _ _)
        · rename_i s5 e5
          have h5 : s5.memWf = true := memWf_of_eq (p := (·.1)) e5 (zeroBmap_memWf h3 _ _ _ _ _)
          exact finish_endsWf (memWf_update (updSlots_memWf (memWf_update h5) _ _ _ _))

theorem putNew_memWf {s : State} (h : s.memWf = true) (tl : Nat) (c : Conv) (p : Nat) (u : List Nat) :
    SomeGives (fun t : State => t.memWf = true) (putNew s tl c p u) := by
  unfold putNew
  extract_lets d n fmt w db dj da x
  refine someGives_ite (someGives_some (writeBits_memWf h _ _ _ _ _)) ?_
  split
  · exact someGives_some (gives_ok h)
  · refine someGives_ite someGives_none ?_
    split
    · exact someGives_some (copyElem_memWf h _ _ _ _ _ _ _)
    · refine someGives_some (Gives.bind (Q := fun b : List (Nat × Nat) × State => b.2.memWf = true)
        (gives_foldlM (P := fun b : List (Nat × Nat) × State => b.2.memWf = true) (fun acc q h1 => ?_) h _) fun ⟨vs, s2⟩ h2 => ?_)
      · exact Gives.bind (readBits_memWf h1 _ _ _ _) fun ⟨_, _⟩ h3 => gives_ok h3
      · exact Gives.bind (writeBits_memWf (ite_memWf h2 (memWf_update h2)) _ _ _ _ _) fun _ h3 => gives_ok (shadowVa_memWf h3 _ _ _ _)

theorem execReshardPiece_endsWf {s : State} (h : s.memWf = true) (die eng : Nat) : EndsWf (execReshardPiece die eng s) := by
  unfold execReshardPiece
  split
  · exact endsWf_next h
  · refine endsWf_ite (endsWf_next h) ?_
    extract_lets d us tl s1 all olds dests r
    have h1 : s1.memWf = true := setLock_memWf h _ _ _
    have hr : SomeGives (fun t : State => t.memWf = true) r := by
      refine List.foldlRecOn (motive := SomeGives fun t : State => t.memWf = true) all _ (someGives_some (gives_ok h1)) fun acc hacc x _ => ?_
      split
      · exact putNew_memWf (hacc _ rfl _ rfl) _ _ _ _
      · exact hacc
    clear_value r s1
    refine endsWf_ite (endsWf_next h1) ?_
    split
    · exact endsWf_next h1
    · exact finish_endsWf (engineFault_memWf h1 _ _ _ _ _ _ _)
    · rename_i s2
      have h2 : s2.memWf = true := hr _ rfl _ rfl
      split
      · rename_i s3 e3
        have h3 : s3.memWf = true := setBmap_memWf h2 _ _ _ _ _ _ _ e3
        exact finish_endsWf (pieceDone_memWf h3 _ _ _)
      · exact finish_endsWf (engineFault_memWf (memWf_update h2) _ _ _ _ _ _ _)

theorem execReshardComplete_endsWf {s : State} (h : s.memWf = true) (k : Nat) : EndsWf (execReshardComplete k s) := by
  unfold execReshardComplete
  split
  · exact endsWf_next h
  · refine endsWf_ite (endsWf_next h) ?_
    refine endsWf_ite (finish_endsWf (memWf_update (updSlots_memWf h _ _ _ _))) ?_
    refine endsWf_ite (endsWf_next (relMark_memWf h _ _)) ?_
    split
    · rename_i s1 _ e1
      have h1 : s1.memWf = true := memWf_of_eq (p := (·.1)) e1 (writeRec_memWf (relDone_memWf h _ _) _ _ _ _)
      exact finish_endsWf (engineFault_memWf h1 _ _ _ _ _ _ _)
    · rename_i s2 e2
      have h2 : s2.memWf = true := memWf_of_eq (p := (·.1)) e2 (writeRec_memWf (relDone_memWf h _ _) _ _ _ _)
      exact finish_endsWf (memWf_update h2)

theorem engineKill_memWf {s : State} (h : s.memWf = true) (ep : Nat) : (engineKill s ep).memWf = true := by
  unfold engineKill
  refine memWf_update ?_
  refine ite_memWf ?_ (memWf_update h)
  refine foldl_memWf (fun _ _ h1 => ?_) (memWf_update h) _
  split
  · refine ite_memWf h1 ?_
    extract_lets _ _ s2
    have h2 : s2.memWf = true := State.memWf_setDie h1 _ _
    split
    · exact ackContrib_memWf h2 _ _ _
    · exact h2
  · exact h1

theorem ofRead_gives {α : Type} {P : α → Prop} {r : Except MFault α} (h : Gives P r) : Gives P (ofRead r) := by
  cases r with
  | error e => exact gives_error _
  | ok a => exact gives_ok (h a rfl)

theorem readLaunch_memWf {s : State} (h : s.memWf = true) (q : Nat) (va wh : Word) : GivesWf (fun r => r.2) (readLaunch s q va wh) :=
  gives_ite (gives_error _)
    (Gives.bind (ofRead_gives (vaRead_memWf h _ _ _ _ _)) fun ⟨_, _⟩ h1 =>
     Gives.bind (ofRead_gives (vaRead_memWf h1 _ _ _ _ _)) fun ⟨_, _⟩ h2 =>
     gives_ite (gives_error _) (gives_ok (memWf_update h2)))

end Sys2Proof.Machine
end

