-- ==== Sys2Proof/Proofs/QueueForm.lean ====
section
/-! SUPPORT. Command queues and their commands keep the form of every memory. -/
namespace Sys2Proof.Machine

/-- A command keeps the form when its body does: refused, it only freezes the queue. -/
theorem cmdStep_endsWf {s : State} (h : s.memWf = true) {f : Pkt} {xu : Nat} {ok : Bool} {body : Nat → Queue → CM State}
    (hb : ∀ q qq, GivesWf (fun r => r) (body q qq)) : EndsWf (cmdStep s f xu ok body) := by
  unfold cmdStep
  extract_lets q qq
  have hr : GivesWf (fun r => r) (if pktShape qq f xu && ok then body q qq else .error CFault.bad) := gives_ite (hb _ _) (gives_error _)
  split
  · rename_i s1 e1
    exact finish_endsWf (hr _ e1)
  · exact finish_endsWf (queueFault_memWf h _ _ _ _ _ _ _)

theorem pktEnd_memWf {s : State} (h : s.memWf = true) (q : Nat) (qq : Queue) (f : Pkt) (rd : Nat) (v : Word) :
    (pktEnd s q qq f rd v).memWf = true :=
  State.memWf_setQueue h _ _

theorem pktStart_memWf {s : State} (h : s.memWf = true) (q : Nat) (qq : Queue) (f : Pkt) (b : Bool) (w : QWait) :
    (pktStart s q qq f b w).memWf = true :=
  State.memWf_setQueue h _ _

theorem queueAcc_memWf {s : State} (h : s.memWf = true) (q va : Nat) (kind : XKind) (acc : AccT) (rel : Option Nat) (num : Nat) (ret : Ret)
    (wh : Word) : GivesWf (fun r => r) (queueAcc s q va kind acc rel num ret wh) := by
  unfold queueAcc
  extract_lets _ _
  split
  · exact gives_error _
  · exact gives_ok (addXact_memWf (tlbFill_memWf h _ _ _ _ _) _)

theorem waitReads_memWf {s : State} (h : s.memWf = true) (q num : Nat) (wh : Word) (ops got : List Word) :
    GivesWf (fun r => r.2) (waitReads q num wh ops got s) := by
  induction ops generalizing s got with
  | nil => exact gives_ok h
  | cons u ops ih =>
    rw [waitReads]
    split
    · exact gives_error _
    · exact gives_ite (gives_ite (gives_ok h) (gives_ok (addXact_memWf (tlbFill_memWf h _ _ _ _ _) _)))
          (gives_ite (gives_ok h) (Gives.bind (ofRead_gives (vaRead_memWf (memWf_update h) _ _ _ _ _)) fun ⟨_, _⟩ h1 => ih h1 _))

theorem dropUnits_memWf {s : State} (h : s.memWf = true) (q : Nat) : (dropUnits s q).memWf = true :=
  State.memWf_setQueue (memWf_update h) _ _

theorem abortRest_memWf {s : State} (h : s.memWf = true) (q : Nat) (v : Word) (ring : Nat) : (abortRest s q v ring).memWf = true := by
  unfold abortRest
  extract_lets qq wh r
  refine ite_memWf (State.memWf_setQueue h _ _) ?_
  have hr : GivesWf (fun r => r) r := gives_ite (gives_ok h) (queueAcc_memWf h _ _ _ _ _ _ _ _)
  clear_value r
  split
  · exact queueFault_memWf (State.memWf_setQueue h _ _) _ _ _ _ _ _ _
  · exact State.memWf_setQueue (hr _ rfl) _ _

theorem abortQueue_memWf {s : State} (h : s.memWf = true) (q : Nat) (v : Word) (ring : Nat) : (abortQueue s q v ring).memWf = true :=
  abortRest_memWf (dropUnits_memWf (State.memWf_setQueue h _ _) _) _ _ _

theorem recognise_memWf {s : State} (h : s.memWf = true) (q : Nat) : (recognise s q).memWf = true :=
  State.memWf_setQueue h _ _

theorem dropPkt_memWf {s : State} (h : s.memWf = true) (q num : Nat) : (dropPkt s q num).memWf = true :=
  State.memWf_setQueue h _ _

theorem setWait_memWf {s : State} (h : s.memWf = true) (q num : Nat) (w : QWait) : (setWait s q num w).memWf = true :=
  State.memWf_setQueue h _ _

theorem settlePkt_memWf {s : State} (h : s.memWf = true) (q : Nat) (p : QPkt) : GivesWf (fun r => r) (settlePkt s q p) := by
  unfold settlePkt
  refine gives_ite (gives_ok h) ?_
  split
  · refine gives_ite (gives_ok h) ?_
    split
    · rename_i s1 e1
      have h1 : s1.memWf = true := notifyEvent_memWf h _ _ _ _ e1
      exact gives_ok (dropPkt_memWf h1 _ _)
    · exact gives_error _
  · refine Gives.bind (waitReads_memWf h _ _ _ _ _) fun ⟨vs, s1⟩ h1 => gives_ite (gives_ok (setWait_memWf h1 _ _ _)) ?_
    have hput : ∀ qq : Queue, (dropPkt (s1.setQueue q qq) q p.num).memWf = true := fun _ => dropPkt_memWf (State.memWf_setQueue h1 _ _) _ _
    dsimp only
    split
    · exact gives_ok (ite_memWf (dropPkt_memWf h1 _ _) (hput _))
    · exact gives_ok (ite_memWf (setWait_memWf h1 _ _ _) (hput _))
    · exact gives_ok (ite_memWf (abortQueue_memWf (dropPkt_memWf h1 _ _) _ _ _) (hput _))
  · exact gives_ok h

theorem settle_memWf {s : State} (h : s.memWf = true) (q : Nat) : (settle s q).memWf = true := by
  unfold settle
  refine foldl_memWf (fun _ _ h1 => ?_) h _
  split
  · refine ite_memWf h1 ?_
    split
    · rename_i s2 e2
      have h2 : s2.memWf = true := settlePkt_memWf h1 _ _ _ e2
      exact h2
    · refine queueFault_memWf ?_ _ _ _ _ _ _ _
      split
      · exact setWait_memWf h1 _ _ _
      · exact h1
  · exact h1

theorem execQueueAccessReturn_endsWf {s : State} (h : s.memWf = true) (q : Nat) : EndsWf (execQueueAccessReturn q s) :=
  finish_endsWf (settle_memWf (State.memWf_setQueue h _ _) _)

theorem serviceWait_memWf {s : State} (h : s.memWf = true) (q : Nat) : (serviceWait s q).memWf = true := by
  unfold serviceWait
  split
  · exact h
  · split
    · exact ite_memWf (dropPkt_memWf h _ _) h
    · exact settle_memWf (setWait_memWf h _ _ _) _
    · exact h

theorem execQueueService_endsWf {s : State} (h : s.memWf = true) (q : Nat) : EndsWf (execQueueService q s) :=
  finish_endsWf (ite_memWf (recognise_memWf h _) (serviceWait_memWf (recognise_memWf h _) _))

theorem cmdReg_endsWf {s : State} (h : s.memWf = true) (f : Pkt) (ok : Bool) (v : Queue → Word) : EndsWf (cmdReg s f ok v) :=
  cmdStep_endsWf h fun _ _ => gives_ok (pktEnd_memWf h _ _ _ _ _)

theorem cmdAlu_endsWf {s : State} (h : s.memWf = true) (f : Pkt) (op : Word → Word → Word) : EndsWf (cmdAlu s f op) :=
  cmdReg_endsWf h _ _ _

theorem cmdAlui_endsWf {s : State} (h : s.memWf = true) (f : Pkt) (op : Word → Word → Word) : EndsWf (cmdAlui s f op) :=
  cmdReg_endsWf h _ _ _

theorem execCmdNop_endsWf {s : State} (h : s.memWf = true) (f : Pkt) : EndsWf (execCmdNop f s) :=
  cmdReg_endsWf h _ _ _

theorem execCmdLi_endsWf {s : State} (h : s.memWf = true) (f : Pkt) : EndsWf (execCmdLi f s) :=
  cmdReg_endsWf h _ _ _

theorem execCmdLih_endsWf {s : State} (h : s.memWf = true) (f : Pkt) : EndsWf (execCmdLih f s) :=
  cmdReg_endsWf h _ _ _

theorem execCmdRdgtc_endsWf {s : State} (h : s.memWf = true) (f : Pkt) : EndsWf (execCmdRdgtc f s) :=
  cmdReg_endsWf h _ _ _

theorem execCmdLd_endsWf {s : State} (h : s.memWf = true) (f : Pkt) : EndsWf (execCmdLd f s) :=
  cmdStep_endsWf h fun _ _ => gives_ite (gives_error _) (queueAcc_memWf (pktStart_memWf h _ _ _ _ _) _ _ _ _ _ _ _ _)

theorem execCmdSt_endsWf {s : State} (h : s.memWf = true) (f : Pkt) : EndsWf (execCmdSt f s) :=
  cmdStep_endsWf h fun _ _ => gives_ite (gives_error _) (queueAcc_memWf (State.memWf_setQueue h _ _) _ _ _ _ _ _ _ _)

theorem cmdSig_endsWf {s : State} (h : s.memWf = true) (f : Pkt) (aop : Nat) (opa : Word → Word) : EndsWf (cmdSig s f aop opa) :=
  cmdStep_endsWf h fun _ _ =>
  gives_ite (gives_error _)
    (gives_ite (gives_ok (memWf_update (pktEnd_memWf h _ _ _ _ _))) (queueAcc_memWf (pktStart_memWf h _ _ _ _ _) _ _ _ _ _ _ _ _))

theorem cmdBranch_endsWf {s : State} (h : s.memWf = true) (f : Pkt) (ok : Bool) (taken : Queue → Bool) : EndsWf (cmdBranch s f ok taken) :=
  cmdStep_endsWf h fun _ _ => gives_ok (State.memWf_setQueue h _ _)

theorem cmdBcc_endsWf {s : State} (h : s.memWf = true) (f : Pkt) (c : Word → Word → Bool) : EndsWf (cmdBcc s f c) :=
  cmdBranch_endsWf h _ _ _

theorem execCmdBeq_endsWf {s : State} (h : s.memWf = true) (f : Pkt) : EndsWf (execCmdBeq f s) :=
  cmdBcc_endsWf h _ _

theorem execCmdBne_endsWf {s : State} (h : s.memWf = true) (f : Pkt) : EndsWf (execCmdBne f s) :=
  cmdBcc_endsWf h _ _

theorem execCmdBlt_endsWf {s : State} (h : s.memWf = true) (f : Pkt) : EndsWf (execCmdBlt f s) :=
  cmdBcc_endsWf h _ _

theorem execCmdBge_endsWf {s : State} (h : s.memWf = true) (f : Pkt) : EndsWf (execCmdBge f s) :=
  cmdBcc_endsWf h _ _

theorem execCmdBltu_endsWf {s : State} (h : s.memWf = true) (f : Pkt) : EndsWf (execCmdBltu f s) :=
  cmdBcc_endsWf h _ _

theorem execCmdBgeu_endsWf {s : State} (h : s.memWf = true) (f : Pkt) : EndsWf (execCmdBgeu f s) :=
  cmdBcc_endsWf h _ _

theorem execCmdJmp_endsWf {s : State} (h : s.memWf = true) (f : Pkt) : EndsWf (execCmdJmp f s) :=
  cmdBranch_endsWf h _ _ _

theorem execCmdLoop_endsWf {s : State} (h : s.memWf = true) (f : Pkt) : EndsWf (execCmdLoop f s) :=
  cmdStep_endsWf h fun _ _ => gives_ok (State.memWf_setQueue h _ _)

theorem execCmdCall_endsWf {s : State} (h : s.memWf = true) (f : Pkt) : EndsWf (execCmdCall f s) :=
  cmdStep_endsWf h fun _ _ => gives_ite (gives_error _) (gives_ite (gives_error _) (gives_ok (State.memWf_setQueue h _ _)))

theorem execCmdRet_endsWf {s : State} (h : s.memWf = true) (f : Pkt) : EndsWf (execCmdRet f s) :=
  cmdStep_endsWf h fun _ _ => gives_ok (State.memWf_setQueue h _ _)

/-- A packet just started settles at once or stays. -/
theorem settleStarted_memWf {s : State} (h : s.memWf = true) (q num : Nat) :
    GivesWf (fun r => r) (match (s.queue q).out.find? fun p => p.num == num with | some p => settlePkt s q p | none => .ok s) := by
  split
  · exact settlePkt_memWf h _ _
  · exact gives_ok h

theorem cmdWait_endsWf {s : State} (h : s.memWf = true) (f : Pkt) (any : Bool) : EndsWf (cmdWait s f any) :=
  cmdStep_endsWf h fun _ _ => settleStarted_memWf (pktStart_memWf h _ _ _ _ _) _ _

theorem execCmdGtcwait_endsWf {s : State} (h : s.memWf = true) (f : Pkt) : EndsWf (execCmdGtcwait f s) :=
  cmdStep_endsWf h fun _ _ => gives_ok (ite_memWf (pktEnd_memWf h _ _ _ _ _) (ite_memWf (pktEnd_memWf h _ _ _ _ _) (pktStart_memWf h _ _ _ _ _)))

theorem execCmdOnabt_endsWf {s : State} (h : s.memWf = true) (f : Pkt) : EndsWf (execCmdOnabt f s) :=
  cmdStep_endsWf h fun _ _ => gives_ok (State.memWf_setQueue h _ _)

theorem execCmdAbort_endsWf {s : State} (h : s.memWf = true) (f : Pkt) : EndsWf (execCmdAbort f s) :=
  cmdStep_endsWf h fun _ _ => gives_ok (abortQueue_memWf (pktEnd_memWf h _ _ _ _ _) _ _ _)

theorem cmdLaunchAs_endsWf {s : State} (h : s.memWf = true) (f : Pkt) (n : Bool) : EndsWf (cmdLaunchAs s f n) := by
  refine cmdStep_endsWf h fun _ _ => Gives.bind (readLaunch_memWf h _ _ _) fun ⟨_, s1⟩ h1 => ?_
  exact gives_ite (gives_error _) (gives_pure (pktStart_memWf (memWf_update h1) _ _ _ _ _))

theorem cmdCopyAs_endsWf {s : State} (h : s.memWf = true) (f : Pkt) (fill : Bool) : EndsWf (cmdCopyAs s f fill) :=
  cmdStep_endsWf h fun _ _ => gives_ite (gives_error _) (gives_ok (pktStart_memWf (memWf_update h) _ _ _ _ _))

theorem execCmdNotify_endsWf {s : State} (h : s.memWf = true) (f : Pkt) : EndsWf (execCmdNotify f s) := by
  refine cmdStep_endsWf h fun q qq => gives_ite (gives_error _) ?_
  split
  · exact gives_error _
  · exact settleStarted_memWf (pktStart_memWf h _ _ _ _ _) _ _

theorem execCmdSlotld_endsWf {s : State} (h : s.memWf = true) (f : Pkt) : EndsWf (execCmdSlotld f s) := by
  refine cmdStep_endsWf h fun _ _ => Gives.bind (ofRead_gives (vaRead_memWf h _ _ _ _ _)) fun ⟨_, s1⟩ h1 => ?_
  exact gives_pure (pktStart_memWf (memWf_update h1) _ _ _ _ _)

theorem execCmdShootdn_endsWf {s : State} (h : s.memWf = true) (f : Pkt) : EndsWf (execCmdShootdn f s) :=
  cmdStep_endsWf h fun _ _ => gives_ite (gives_error _) (gives_ok (pktStart_memWf (memWf_update h) _ _ _ _ _))

theorem execCmdFlush_endsWf {s : State} (h : s.memWf = true) (f : Pkt) : EndsWf (execCmdFlush f s) :=
  cmdStep_endsWf h fun _ _ => gives_ok (ite_memWf (pktStart_memWf h _ _ _ _ _) (pktEnd_memWf h _ _ _ _ _))

end Sys2Proof.Machine
end

