-- ==== Sys2Proof/Proofs/HostForm.lean ====
section
/-! SUPPORT. Admission, release, host accesses, registers, keys, firmware, power and bring-up keep the form of every memory. -/
namespace Sys2Proof.Machine

theorem sendDesc_memWf {s : State} (h : s.memWf = true) (x : Nat × Nat × Nat) (force : Bool) : (sendDesc s x force).2.memWf = true := by
  obtain ⟨ctx, va, q⟩ := x
  unfold sendDesc
  refine iteAt_memWf Prod.snd h ?_
  split
  · exact h
  · rename_i s1 e1
    have h1 : s1.memWf = true := vaRead_memWf h _ _ _ _ _ _ e1
    refine iteAt_memWf Prod.snd h1 (iteAt_memWf Prod.snd ?_ h1)
    split
    · rename_i s2 _ e2
      exact memWf_of_eq (p := Prod.fst) e2 (vaWrite_memWf h1 _ _ _ _ _ _)
    · rename_i s3 e3
      have h3 : s3.memWf = true := memWf_of_eq (p := Prod.fst) e3 (vaWrite_memWf h1 _ _ _ _ _ _)
      exact sendMsix_memWf h3 _ _

theorem execInterruptSend_endsWf {s : State} (h : s.memWf = true) (die : Nat) : EndsWf (execInterruptSend die s) := by
  unfold execInterruptSend
  extract_lets y go
  have hgo : ∀ {s : State}, s.memWf = true → ∀ force l, (go force l s).2.memWf = true := fun hs force l => by
    refine foldlAt_memWf Prod.snd (fun acc x h1 => ?_) hs _
    exact sendDesc_memWf h1 x force
  clear_value go
  exact finish_endsWf (State.memWf_setDie (hgo (hgo h _ _) _ _) _ _)

theorem execEffectiveClassAge_endsWf {s : State} (h : s.memWf = true) (l : Nat) : EndsWf (execEffectiveClassAge l s) := by
  unfold execEffectiveClassAge
  split
  · exact endsWf_next h
  · split
    · exact endsWf_next (State.memWf_setLaunch h _)
    · exact endsWf_next (State.memWf_setLaunch h _)
    · exact endsWf_next h

theorem selectPending_memWf {s : State} (h : s.memWf = true) (d : Nat) : (selectPending s d).memWf = true := by
  unfold selectPending
  extract_lets y df y2 cand
  clear_value cand
  split
  · exact State.memWf_setDie h _ _
  · extract_lets c
    split
    · exact State.memWf_setDie h _ _
    · extract_lets s1
      have h1 : s1.memWf = true := State.memWf_setDie h _ _
      split
      · exact h1
      · exact trace_memWf (State.memWf_setLaunch h1 _) _ _ _ _ _ _

theorem reserveOn_memWf {s : State} (h : s.memWf = true) (d : Nat) (l : List Launch) (blocked : List Nat) :
    (reserveOn d l blocked s).memWf = true := by
  induction l generalizing s blocked with
  | nil => exact h
  | cons l t ih =>
    rw [reserveOn]
    exact ite_memWf (ih h _) (ite_memWf (ih (State.memWf_setLaunch h _) _) (ih h _))

theorem admitOne_memWf {s : State} (h : s.memWf = true) (l : Launch) : (admitOne s l).memWf = true :=
  ite_memWf
    (State.memWf_setLaunch
       (foldl_memWf
          (fun _ _ h1 => State.memWf_setCore (memWf_update h1) _ _ (spadWf_update (State.memWf_core (memWf_update h1) _))) h _) _)
    h

theorem preemptLaunch_memWf {s : State} (h : s.memWf = true) (l : Launch) : (preemptLaunch s l).memWf = true :=
  foldl_memWf (fun _ _ h1 => State.memWf_setCore h1 _ _ (spadWf_update (State.memWf_core h1 _))) (State.memWf_setLaunch h _) _

theorem requestPreemption_memWf {s : State} (h : s.memWf = true) (d : Nat) : (requestPreemption s d).memWf = true := by
  unfold requestPreemption
  split
  · exact h
  · refine ite_memWf h ?_
    refine foldl_memWf (fun _ _ h1 => ?_) h _
    split
    · exact ite_memWf (preemptLaunch_memWf h1 _) h1
    · exact h1

theorem rangeMsg_memWf {s : State} (h : s.memWf = true) (l : Launch) (src dst : Nat) (data : List Word) (m : Msg) :
    (rangeMsg s l src dst data m).memWf = true :=
  sendPacket_memWf h _ _ _

theorem answerAsks_memWf {s : State} (h : s.memWf = true) (id d : Nat) : (answerAsks s id d).memWf = true := by
  unfold answerAsks
  split
  · exact h
  · refine foldl_memWf (fun _ _ h1 => ?_) (State.memWf_setLaunch h _) _
    split
    · exact h1
    · split
      · exact ite_memWf (rangeMsg_memWf h1 _ _ _ _ _) (rangeMsg_memWf (trace_memWf (State.memWf_setLaunch h1 _) _ _ _ _ _ _) _ _ _ _ _)
      · exact rangeMsg_memWf h1 _ _ _ _ _

theorem sendSizes_memWf {s : State} (h : s.memWf = true) (id d : Nat) : (sendSizes s id d).memWf = true := by
  unfold sendSizes
  split
  · exact h
  · extract_lets _ s1 _ _ _
    have h1 : s1.memWf = true := foldl_memWf (fun _ _ h2 => rangeMsg_memWf h2 _ _ _ _ _) h _
    refine ite_memWf h1 ?_
    split
    · exact h1
    · exact rangeMsg_memWf (State.memWf_setLaunch h1 _) _ _ _ _ _

theorem execStealGrantReceive_endsWf {s : State} (h : s.memWf = true) (l die lo hi : Nat) : EndsWf (execStealGrantReceive l die lo hi s) := by
  unfold execStealGrantReceive
  split
  · exact endsWf_next h
  · exact endsWf_next (State.memWf_setLaunch h _)

theorem execAdmissionWindow_endsWf {s : State} (h : s.memWf = true) (die : Nat) : EndsWf (execAdmissionWindow die s) := by
  unfold execAdmissionWindow
  extract_lets steal s1 s2 may s3 s4
  have h1 : s1.memWf = true := foldl_memWf (fun _ _ ht => answerAsks_memWf ht _ _) h _
  have h2 : s2.memWf = true := ite_memWf h1 (selectPending_memWf h1 _)
  have h3 : s3.memWf = true := reserveOn_memWf h2 _ _ _
  have h4 : s4.memWf = true := requestPreemption_memWf (foldl_memWf (fun _ _ ht => admitOne_memWf ht _) h3 _) _
  exact endsWf_next (foldl_memWf (fun _ _ ht => sendSizes_memWf ht _ _) h4 _)

theorem loadedCore_spadWf (c : Core) (l : Launch) (dict : FMap (BitVec 384)) (code : FMap (BitVec 16)) :
    Memory.wf (loadedCore c l dict code).spad = true :=
  Memory.wf_nil

theorem loadCore_memWf {s : State} (h : s.memWf = true) (l : Launch) (i : Nat) : GivesWf (fun r => r.2) (loadCore s l i) := by
  refine Gives.bind (vaGet_memWf h _ _ _ _ _ _) fun ⟨_, s1⟩ h1 => Gives.bind (vaGet_memWf h1 _ _ _ _ _ _) fun ⟨_, s2⟩ h2 => ?_
  exact gives_pure (State.memWf_setCore h2 _ _ (loadedCore_spadWf _ _ _ _))

theorem freeCores_memWf {s : State} (h : s.memWf = true) (l : Launch) : (freeCores s l).memWf = true := by
  unfold freeCores
  refine foldl_memWf (fun _ _ h1 => ?_) h _
  extract_lets c2
  have h2 : Memory.wf c2.spad = true := State.memWf_core h1 _
  split
  · exact State.memWf_setCore h1 _ _ (spadWf_update h2)
  · exact ite_memWf (State.memWf_setCore h1 _ _ (spadWf_update h2)) h1
  · exact h1

theorem execLaunchLoadComplete_endsWf {s : State} (h : s.memWf = true) (l : Nat) : EndsWf (execLaunchLoadComplete l s) := by
  unfold execLaunchLoadComplete
  split
  · exact endsWf_next h
  · split
    · extract_lets live r
      refine endsWf_ite (endsWf_next h) ?_
      have hr : GivesWf Prod.snd r := by
        refine gives_foldlM (P := fun b : Bool × State => b.2.memWf = true) (fun acc i h1 =>
          Gives.bind (loadCore_memWf h1 _ _) fun ⟨_, s1⟩ h2 => ?_) h live
        exact gives_pure h2
      clear_value r
      split
      · exact finish_endsWf (mfQueue_memWf (State.memWf_setLaunch (freeCores_memWf h _) _) _ _ _ _)
      · rename_i s3
        have h3 : s3.memWf = true := hr _ rfl
        exact finish_endsWf (launchEnd_memWf (freeCores_memWf (State.memWf_setLaunch h3 _) _) _)
      · rename_i s4
        have h4 : s4.memWf = true := hr _ rfl
        exact finish_endsWf (trace_memWf (State.memWf_setLaunch h4 _) _ _ _ _ _ _)
    · exact endsWf_next h

/-- The core that a launch's save holds. -/
theorem savedCore_spadWf {s : State} (h : s.memWf = true) {b : Prop} [Decidable b] {p : Nat × Nat × Core → Bool} {x : Nat × Nat × Core}
    (e : (if b then s.saves.find? p else none) = some x) : Memory.wf x.2.2.spad = true := by
  split at e
  · exact ((State.memWf_iff s).mp h).2.2.1 x (List.mem_of_find?_eq_some e)
  · cases e

theorem releaseCore_memWf {s : State} (h : s.memWf = true) (l : Launch) (i : Nat) : (releaseCore s l i).memWf = true := by
  unfold releaseCore
  extract_lets c
  have hc : Memory.wf c.spad = true := State.memWf_core h _
  split
  · rename_i img e
    have himg : Memory.wf img.spad = true := savedCore_spadWf h e
    extract_lets img1 img2 img3 _ s1
    have h1 : Memory.wf img1.spad = true := himg
    have h2 : Memory.wf img2.spad = true := ite_spadWf (slotBack_spad_wf _ _) (spadWf_update h1)
    have h3 : Memory.wf img3.spad = true := spadWf_update (spadWf_update h2)
    have hs1 : s1.memWf = true := subSaves_memWf (State.memWf_setCore h i img3 h3) List.filter_sublist.subset (List.Subset.refl _)
    exact trace_memWf hs1 _ _ _ _ _ _
  · exact State.memWf_setCore h _ _ (spadWf_update hc)

theorem execCoreRelease_endsWf {s : State} (h : s.memWf = true) (l die : Nat) : EndsWf (execCoreRelease l die s) := by
  unfold execCoreRelease
  split
  · exact endsWf_next h
  · exact endsWf_ite (endsWf_next h)
        (endsWf_ite (endsWf_next h)
           (finish_endsWf
              (checkEnd_memWf
                 (memWf_update
                    (State.memWf_setLaunch
                       (foldl_memWf (fun _ _ h1 => releaseCore_memWf h1 _ _)
                          (ite_memWf
                             (foldl_memWf (fun _ _ h2 => State.memWf_setCore h2 _ _ (spadWf_update (State.memWf_core h2 _))) h _)
                             h) _) _)) _)))

theorem hostAbort_memWf {s : State} (hs : s.memWf = true) (h : HostReq) : (hostAbort s h).memWf = true :=
  memWf_update hs

theorem hostFault_memWf {s : State} (hs : s.memWf = true) (h : HostReq) (c : Nat) (wr : Bool) (e : MFault) : (hostFault s h c wr e).memWf = true :=
  hostAbort_memWf (memWf_update (writeFault_memWf hs _ _ _)) _

theorem execHostWindowRead_endsWf {s : State} (hs : s.memWf = true) (h : HostReq) : EndsWf (execHostWindowRead h s) := by
  unfold execHostWindowRead
  refine endsWf_ite (endsWf_next (memWf_update hs)) ?_
  split
  · exact endsWf_next (hostAbort_memWf hs _)
  · refine endsWf_ite (endsWf_next (memWf_update hs)) ?_
    split
    · rename_i _ s1 e1
      have h1 : s1.memWf = true := vaRead_memWf hs _ _ _ _ _ _ e1
      exact finish_endsWf (memWf_update h1)
    · exact finish_endsWf (hostFault_memWf hs _ _ _ _)

theorem execHostWindowWrite_endsWf {s : State} (hs : s.memWf = true) (h : HostReq) : EndsWf (execHostWindowWrite h s) := by
  unfold execHostWindowWrite
  refine endsWf_ite (endsWf_next (memWf_update hs)) ?_
  split
  · exact endsWf_next (hostAbort_memWf hs _)
  · refine endsWf_ite (endsWf_next (memWf_update hs)) ?_
    split
    · rename_i s1 e1
      have h1 : s1.memWf = true := memWf_of_eq (p := (·.1)) e1 (vaWrite_memWf hs _ _ _ _ _ _)
      exact finish_endsWf (memWf_update h1)
    · rename_i s2 _ e2
      have h2 : s2.memWf = true := memWf_of_eq (p := (·.1)) e2 (vaWrite_memWf hs _ _ _ _ _ _)
      exact finish_endsWf (hostFault_memWf h2 _ _ _ _)

theorem execHostAtomicop_endsWf {s : State} (hs : s.memWf = true) (h : HostReq) (op cmp : Nat) : EndsWf (execHostAtomicop h op cmp s) := by
  unfold execHostAtomicop
  refine endsWf_ite (endsWf_next (memWf_update hs)) ?_
  split
  · exact endsWf_next (hostAbort_memWf hs _)
  · refine endsWf_ite (endsWf_next (memWf_update hs)) ?_
    split
    · exact finish_endsWf (hostFault_memWf hs _ _ _ _)
    · extract_lets s1 _ _ _ _ _ s2 s3
      have h1 : s1.memWf = true := checkAbsent_memWf (tlbFill_memWf hs _ _ _ _ _) _ _ _ _
      have h2 : s2.memWf = true := sinterBy_memWf (homeUse_memWf h1 _ _ _) _ _ _ _ _
      have h3 : s3.memWf = true := addXact_memWf (memWf_update h2) _
      exact endsWf_ite
          (endsWf_ite (finish_endsWf (memWf_update (sinterBy_memWf (homeWrite_memWf h1 _ _ _ _ _) _ _ _ _ _)))
             (finish_endsWf (postXact_memWf h1 _ _ _ _ _ _ _ _)))
          (finish_endsWf (memWf_update h3))

theorem execHostHdmAccess_endsWf {s : State} (h : s.memWf = true) (port hpa : Nat) (wr : Bool) (n v : Nat) :
    EndsWf (execHostHdmAccess port hpa wr n v s) :=
  endsWf_ite (endsWf_next (memWf_update h))
    (endsWf_ite (endsWf_next (memWf_update (touchL2_memWf (physWrite_memWf h _ _ _ _ _ _) _ _ _ _ _ _ _)))
       (endsWf_next (memWf_update (touchL2_memWf (ite_memWf h (reseal_memWf h _ _)) _ _ _ _ _ _ _))))

theorem execHdmcfgWrite_endsWf {s : State} (h : s.memWf = true) (port : Nat) (v : Word) : EndsWf (execHdmcfgWrite port v s) :=
  endsWf_ite (endsWf_next h) (endsWf_next (memWf_update h))

theorem execShootdownStart_endsWf {s : State} (h : s.memWf = true) (v : Word) : EndsWf (execShootdownStart v s) :=
  endsWf_ite (endsWf_next h) (endsWf_next (memWf_update h))

theorem shootDrop_memWf {s : State} (h : s.memWf = true) (x : Shoot) : (shootDrop s x).memWf = true := by
  refine memWf_update (mapCores_memWf h fun _ hc => ?_)
  exact spadWf_update (ite_spadWf (spadWf_update hc) hc)

theorem rocRelease_memWf {s : State} (h : s.memWf = true) (x : Shoot) : (rocRelease s x).memWf = true :=
  ite_memWf h (memWf_update h)

theorem execShootdownComplete_endsWf {s : State} (h : s.memWf = true) : EndsWf (execShootdownComplete s) := by
  unfold execShootdownComplete
  split
  · exact endsWf_next h
  · split
    · exact endsWf_next (memWf_update (shootDrop_memWf h _))
    · refine endsWf_ite (endsWf_next h) ?_
      refine endsWf_ite (endsWf_next (memWf_update (shootDrop_memWf h _))) ?_
      extract_lets s1 s2
      have h1 : s1.memWf = true := shootDrop_memWf h _
      have h2 : s2.memWf = true := rocRelease_memWf (memWf_update h1) _
      split
      · exact endsWf_next h2
      · exact endsWf_next (completePkt_memWf h2 _ _ _)
      · exact endsWf_next (handlerDone_memWf h2 _ _)

theorem execAtsInvalidate_endsWf {s : State} (h : s.memWf = true) (port pasid lo hi : Nat) : EndsWf (execAtsInvalidate port pasid lo hi s) := by
  refine endsWf_next (memWf_update (mapCores_memWf h fun _ hc => ?_))
  exact spadWf_update hc

theorem execAtsInvalidateComplete_endsWf {s : State} (h : s.memWf = true) (k : Nat) : EndsWf (execAtsInvalidateComplete k s) := by
  unfold execAtsInvalidateComplete
  split
  · exact endsWf_next h
  · exact endsWf_ite (endsWf_next h) (endsWf_next (memWf_update h))

theorem relaunch_memWf {s : State} (h : s.memWf = true) (l : Launch) : (relaunch s l).memWf = true := by
  unfold relaunch
  extract_lets _
  split
  · exact queueFault_memWf h _ _ _ _ _ _ _
  · rename_i s1 e1
    have h1 : s1.memWf = true := readLaunch_memWf h _ _ _ _ e1
    exact State.memWf_setLaunch (memWf_update (subSaves_memWf h1 List.filter_sublist.subset List.filter_sublist.subset)) _

theorem queueResume_memWf {s : State} (h : s.memWf = true) (q : Nat) : (queueResume s q).memWf = true := by
  unfold queueResume
  extract_lets _ s1 _ _ s2 s3 s5
  have h1 : s1.memWf = true := dropUnits_memWf (State.memWf_setQueue h _ _) _
  have h2 : s2.memWf = true := memWf_update h1
  have h3 : s3.memWf = true := by
    unfold s3
    refine foldl_memWf (fun _ _ h4 => ?_) h2 _
    split
    · exact launchDeliver_memWf h4 _
    · exact h4
  have h5 : s5.memWf = true := foldl_memWf (fun _ _ h6 => relaunch_memWf h6 _) h3 _
  split
  · exact abortRest_memWf h5 _ _ _
  · exact h5

theorem queueKill_memWf {s : State} (h : s.memWf = true) (q : Nat) : (queueKill s q).memWf = true := by
  unfold queueKill
  refine foldl_memWf (fun _ _ h1 => memWf_update (dropPkt_memWf h1 _ _)) ?_ _
  refine foldl_memWf (fun _ _ h2 => memWf_update (dropPkt_memWf h2 _ _)) ?_ _
  refine foldl_memWf (fun _ _ h3 => ?_) (dropUnits_memWf (State.memWf_setQueue h _ _) _) _
  split
  · exact launchClose_memWf (launchSignals_memWf h3 _) _
  · exact h3

theorem frzRelease_memWf {s : State} (h : s.memWf = true) (v : Word) (kill : Bool) : (frzRelease s v kill).memWf = true := by
  unfold frzRelease
  extract_lets _
  split
  · split
    · exact h
    · extract_lets c1
      have h1 : Memory.wf c1.spad = true := State.memWf_core h _
      split
      · exact ite_memWf (endTask_memWf h _ _ _) (State.memWf_setCore h _ _ (spadWf_update (spadWf_update h1)))
      · exact h
  · split
    · exact h
    · exact ite_memWf h (ite_memWf (chanKill_memWf h _ _) (chanResume_memWf h _ _))
  · exact ite_memWf (ite_memWf (queueKill_memWf h _) (queueResume_memWf h _)) h
  · exact memWf_update h
  · exact ite_memWf h (ite_memWf (engineKill_memWf h _) (memWf_update h))

theorem execFrzctlResume_endsWf {s : State} (h : s.memWf = true) (v : Word) : EndsWf (execFrzctlResume v s) :=
  endsWf_ite (endsWf_next h) (finish_endsWf (frzRelease_memWf (memWf_update h) _ _))

theorem execFrzctlKill_endsWf {s : State} (h : s.memWf = true) (v : Word) : EndsWf (execFrzctlKill v s) :=
  endsWf_ite (endsWf_next h) (finish_endsWf (frzRelease_memWf (memWf_update h) _ _))

theorem execQueueEnable_endsWf {s : State} (h : s.memWf = true) (q : Nat) : EndsWf (execQueueEnable q s) :=
  endsWf_ite (endsWf_next h)
    (endsWf_ite (endsWf_next (State.memWf_setQueue h _ _))
       (endsWf_next (State.memWf_setQueue (dropUnits_memWf (memWf_update h) _) _ _)))

theorem execQueueDisable_endsWf {s : State} (h : s.memWf = true) (q : Nat) : EndsWf (execQueueDisable q s) :=
  endsWf_ite (endsWf_next h) (endsWf_next (State.memWf_setQueue h _ _))

theorem execQueueDoorbell_endsWf {s : State} (h : s.memWf = true) (q : Nat) (v : Word) : EndsWf (execQueueDoorbell q v s) :=
  endsWf_ite (endsWf_next h) (endsWf_ite (endsWf_next (State.memWf_setQueue h _ _)) (endsWf_next (State.memWf_setQueue h _ _)))

theorem keyWrite_memWf {s : State} (h : s.memWf = true) (v : Word) (op : Bool) : (keyWrite s v op).memWf = true := by
  unfold keyWrite
  refine ite_memWf ?_ (memWf_update h)
  split
  · exact memWf_update h
  · exact memWf_update h
  · exact memWf_update h
  · exact memWf_update h
  · exact memWf_update h
  · exact memWf_update h

theorem barWrite_memWf {s : State} (h : s.memWf = true) (port a : Nat) (v en : Word) : (barWrite s port a v en).memWf = true := by
  unfold barWrite
  refine ite_memWf (ite_memWf h (memWf_update h)) ?_
  refine ite_memWf (memWf_update h) ?_
  refine ite_memWf ?_ ?_
  · refine ite_memWf h ?_
    extract_lets _ _ s1
    have h1 : s1.memWf = true := State.memWf_setDie h _ _
    exact ite_memWf (memWf_update h1) h1
  · refine ite_memWf (State.memWf_setDie h _ _) ?_
    refine ite_memWf ?_
        (ite_memWf (ite_memWf h (memWf_update h))
           (ite_memWf (memWf_update h)
              (ite_memWf (ite_memWf (memWf_update h) (memWf_update h))
                 (ite_memWf (ite_memWf h (memWf_update h))
                    (ite_memWf (ite_memWf h (memWf_update h))
                       (ite_memWf (ite_memWf h (memWf_update h))
                          (ite_memWf (keyWrite_memWf h _ _)
                             (ite_memWf (memWf_update h) (ite_memWf (ite_memWf (memWf_update h) h) h)))))))))
    extract_lets _ _ s2
    have h2 : s2.memWf = true := ite_memWf h (State.memWf_setQueue h _ _)
    split
    · exact ite_memWf h (State.memWf_setQueue h _ _)
    · exact ite_memWf (ite_memWf h2 (memWf_update h2)) (ite_memWf (memWf_update h2) h2)
    · exact ite_memWf h (memWf_update h)
    · exact State.memWf_setQueue h _ _
    · exact h

theorem execRegisterWrite_endsWf {s : State} (h : s.memWf = true) (port off n : Nat) (v : Word) : EndsWf (execRegisterWrite port off n v s) := by
  unfold execRegisterWrite
  refine endsWf_ite (endsWf_next h) ?_
  refine endsWf_ite (endsWf_next (memWf_update h)) ?_
  extract_lets _ _ s1
  have h1 : s1.memWf = true := memWf_update (barWrite_memWf h _ _ _ _)
  exact endsWf_next (ite_memWf h1 (barWrite_memWf h1 _ _ _ _))

theorem keyCmd_endsWf {s : State} (h : s.memWf = true) (v : Word) (act : Module → BitVec 4 × Module) : EndsWf (keyCmd s v act) :=
  endsWf_ite (endsWf_next h) (endsWf_ite (endsWf_next (memWf_update h)) (endsWf_next (memWf_update h)))

theorem execKeyLoad_endsWf {s : State} (h : s.memWf = true) (v : Word) : EndsWf (execKeyLoad v s) :=
  keyCmd_endsWf h _ _

theorem execKeyGen_endsWf {s : State} (h : s.memWf = true) (v : Word) : EndsWf (execKeyGen v s) := by
  unfold execKeyGen
  extract_lets _ r
  have hr : EndsWf r := keyCmd_endsWf h _ _
  clear_value r
  split
  · rename_i s1
    have h1 : s1.memWf = true := hr _ rfl
    exact endsWf_next (memWf_update h1)
  · exact hr

theorem execKeyPlain_endsWf {s : State} (h : s.memWf = true) (v : Word) : EndsWf (execKeyPlain v s) :=
  keyCmd_endsWf h _ _

theorem execKeyDestroy_endsWf {s : State} (h : s.memWf = true) (v : Word) : EndsWf (execKeyDestroy v s) :=
  keyCmd_endsWf h _ _

theorem dropKeyLines_memWf {s : State} (h : s.memWf = true) (key : BitVec 512) : (dropKeyLines s key).memWf = true := by
  refine memWf_update (mapCores_memWf h fun _ hc => ?_)
  exact spadWf_update hc

theorem execKeyDestroyDrainEnd_endsWf {s : State} (h : s.memWf = true) (slot : Nat) : EndsWf (execKeyDestroyDrainEnd slot s) :=
  endsWf_ite (endsWf_next h) (endsWf_next (memWf_update (ite_memWf h (dropKeyLines_memWf h _))))

theorem execKeyQuery_endsWf {s : State} (h : s.memWf = true) (v : Word) : EndsWf (execKeyQuery v s) :=
  keyCmd_endsWf h _ _

theorem execFwctlFuse_endsWf {s : State} (h : s.memWf = true) : EndsWf (execFwctlFuse s) :=
  endsWf_ite (endsWf_next h) (endsWf_next (memWf_update h))

theorem execFwctlFuseDone_endsWf {s : State} (h : s.memWf = true) : EndsWf (execFwctlFuseDone s) :=
  endsWf_ite (endsWf_next h) (endsWf_next (memWf_update h))

theorem reply_endsWf {s : State} (h : s.memWf = true) (a : Spdm) : EndsWf (reply s a) :=
  endsWf_next (memWf_update h)

theorem replySigned_endsWf {s : State} (h : s.memWf = true) (a : Spdm) : EndsWf (replySigned s a) :=
  reply_endsWf (memWf_update h) _

theorem execGetVersion_endsWf {s : State} (h : s.memWf = true) (port : Nat) : EndsWf (execGetVersion port s) :=
  reply_endsWf h _

theorem execGetCapabilities_endsWf {s : State} (h : s.memWf = true) (port : Nat) : EndsWf (execGetCapabilities port s) :=
  reply_endsWf h _

theorem execNegotiateAlgorithms_endsWf {s : State} (h : s.memWf = true) (port : Nat) : EndsWf (execNegotiateAlgorithms port s) :=
  reply_endsWf h _

theorem execGetDigests_endsWf {s : State} (h : s.memWf = true) (port : Nat) : EndsWf (execGetDigests port s) :=
  reply_endsWf h _

theorem execGetCertificate_endsWf {s : State} (h : s.memWf = true) (port slot off len : Nat) : EndsWf (execGetCertificate port slot off len s) :=
  endsWf_ite (reply_endsWf h _) (reply_endsWf h _)

theorem execChallenge_endsWf {s : State} (h : s.memWf = true) (port slot : Nat) (nonce : BitVec 256) : EndsWf (execChallenge port slot nonce s) :=
  endsWf_ite (reply_endsWf h _) (replySigned_endsWf h _)

theorem execGetMeasurements_endsWf {s : State} (h : s.memWf = true) (port index : Nat) (nonce : BitVec 256) :
    EndsWf (execGetMeasurements port index nonce s) :=
  endsWf_ite (reply_endsWf h _) (replySigned_endsWf h _)

theorem execSpdmUnsupportedRequest_endsWf {s : State} (h : s.memWf = true) (port : Nat) : EndsWf (execSpdmUnsupportedRequest port s) :=
  reply_endsWf h _

theorem hostBytes_wf {m : Memory} (h : Memory.wf m = true) : Memory.wf (hostBytes m) = true := Memory.wf_filter _ h

theorem restart_memWf {s : State} (h : s.memWf = true) (m : Module) : (restart s m).memWf = true :=
  memWf_update (State.memWf_mem reset_memWf (hostBytes s.mem) (hostBytes_wf ((State.memWf_iff s).mp h).1))

theorem execPowerOnReset_endsWf {s : State} (h : s.memWf = true) : EndsWf (execPowerOnReset s) :=
  endsWf_next (restart_memWf h _)

theorem execPowerRemoved_endsWf {s : State} (h : s.memWf = true) : EndsWf (execPowerRemoved s) :=
  endsWf_next (restart_memWf h _)

theorem execPwrmodeWrite_endsWf {s : State} (h : s.memWf = true) (v : Word) : EndsWf (execPwrmodeWrite v s) :=
  endsWf_ite (endsWf_next (memWf_update h)) (endsWf_next (memWf_update h))

theorem modeChange_memWf {s : State} (h : s.memWf = true) : (modeChange s).memWf = true :=
  ite_memWf h (memWf_update (ite_memWf (memWf_update h) (linkPower_memWf (memWf_update h) _)))

theorem execThrottleWindowStart_endsWf {s : State} (h : s.memWf = true) : EndsWf (execThrottleWindowStart s) := by
  refine endsWf_next (memWf_update (mapCores_memWf (modeChange_memWf h) fun _ hc => ?_))
  exact spadWf_update hc

theorem execThermalSample_endsWf {s : State} (h : s.memWf = true) (t : Nat) : EndsWf (execThermalSample t s) := by
  unfold execThermalSample
  refine endsWf_ite (endsWf_next (memWf_update h)) ?_
  extract_lets _ _ _ _ s1 s2 _ _ s3
  have h1 : s1.memWf = true := memWf_update h
  have h2 : s2.memWf = true := ite_memWf (memWf_update h1) h1
  have h3 : s3.memWf = true := restart_memWf h2 _
  exact endsWf_ite (endsWf_next h2) (endsWf_next (memWf_update h3))

theorem bringupFail_memWf {s : State} (h : s.memWf = true) (die : Nat) : (bringupFail s die).memWf = true :=
  memWf_update h

theorem retireAtTest_memWf {s : State} (h : s.memWf = true) (i : Nat) : (retireAtTest s i).memWf = true :=
  ite_memWf h (memWf_update (State.memWf_setCore h _ _ (spadWf_update (State.memWf_core h _))))

theorem initMemory_memWf {s : State} (h : s.memWf = true) : (initMemory s).memWf = true := by
  have hc := mapCores_memWf h (f := fun p => (p.1, { p.2 with spad := [], tiles := [], psum := [] })) fun _ _ => Memory.wf_nil
  exact memWf_update (State.memWf_mem hc (hostBytes s.mem) (hostBytes_wf ((State.memWf_iff s).mp h).1))

theorem bringupStage_endsWf {s : State} (h : s.memWf = true) (bad : List Nat) (m : Module) {next : State → State}
    (hn : ∀ t, t.memWf = true → (next t).memWf = true) : EndsWf (execBringupStageEnd.go bad m s next) := by
  unfold execBringupStageEnd.go
  split
  · split
    · exact endsWf_next (hn _ (trainLinks_memWf (memWf_update h) _))
    · exact endsWf_next (bringupFail_memWf h _)
  · refine endsWf_ite (endsWf_next h) ?_
    split
    · exact endsWf_next (bringupFail_memWf h _)
    · exact endsWf_next (hn _ h)
  · exact endsWf_next (hn _ (foldl_memWf (fun _ _ ht => retireAtTest_memWf ht _) h _))
  · exact endsWf_next (initMemory_memWf h)
  · exact endsWf_next (hn _ h)

theorem execBringupStageEnd_endsWf {s : State} (h : s.memWf = true) (bad : List Nat) (fail : Option Nat) :
    EndsWf (execBringupStageEnd bad fail s) := by
  unfold execBringupStageEnd
  extract_lets m next
  have hgo : EndsWf (execBringupStageEnd.go bad m s next) := bringupStage_endsWf h _ _ fun _ ht => memWf_update ht
  refine endsWf_ite (endsWf_next h) ?_
  split
  · exact endsWf_ite hgo (endsWf_next (bringupFail_memWf h _))
  · exact hgo

theorem execWeightStoreRefresh_endsWf {s : State} (h : s.memWf = true) (die bank : Nat) : EndsWf (execWeightStoreRefresh die bank s) :=
  endsWf_ite (endsWf_next (State.memWf_setDie h _ _)) (endsWf_ite (endsWf_next (State.memWf_setDie h _ _)) (endsWf_next h))

end Sys2Proof.Machine
end

