-- ==== Sys2Proof/Proofs/StepForm.lean ====
section
/-! LAW. Every step keeps the canonical form of every memory (R4, R63). -/
namespace Sys2Proof.Machine

theorem unitRead_memWf {s : State} (h : s.memWf = true) (q k : Nat) : GivesWf (fun r => r.2) (unitRead s q k) := by
  unfold unitRead
  extract_lets _ _ _ _ _
  split
  · exact gives_error _
  · refine gives_ite (gives_map (vaRead_memWf h _ _ _ _ _)) ?_
    split
    · exact gives_ok h
    · exact gives_ite (gives_ok h) (gives_ok (postXact_memWf (tlbFill_memWf h _ _ _ _ _) _ _ _ _ _ _ _ _))

theorem extUnits_memWf {s : State} (h : s.memWf = true) (q n : Nat) : GivesWf (fun r => r.2) (extUnits s q n) :=
  gives_foldlM (P := fun b : Option (List Word) × State => b.2.memWf = true) (fun _ _ h1 => gives_map (unitRead_memWf h1 _ _)) h _

theorem freshUnits_memWf {s : State} (h : s.memWf = true) (q : Nat) : GivesWf (fun r => r.2) (packetUnits.fresh s q) := by
  unfold packetUnits.fresh
  refine gives_ite (gives_ok h) ?_
  split
  · exact gives_error _
  · rename_i s1 e1
    exact gives_ok (unitRead_memWf h _ _ _ e1)
  · rename_i _ s2 e2
    have h2 : s2.memWf = true := unitRead_memWf h _ _ _ e2
    exact gives_ite (gives_ok h2) (gives_map (extUnits_memWf h2 _ _))

theorem packetUnits_memWf {s : State} (h : s.memWf = true) (q : Nat) : GivesWf (fun r => r.2) (packetUnits s q) := by
  unfold packetUnits
  extract_lets _
  split
  · exact gives_ite (gives_ok h) (freshUnits_memWf h _)
  · exact freshUnits_memWf h _

theorem queueHead_memWf {s : State} (h : s.memWf = true) (q : Nat) : (queueHead s q).2.memWf = true := by
  unfold queueHead
  extract_lets _
  refine iteAt_memWf Prod.snd h ?_
  split
  · exact h
  · rename_i s1 e1
    exact packetUnits_memWf h _ _ e1
  · rename_i _ s2 e2
    have h2 : s2.memWf = true := packetUnits_memWf h _ _ e2
    extract_lets _ _ _ kept s3
    have hk : kept.memWf = true := State.memWf_setQueue h2 _ _
    have h3 : s3.memWf = true := dropUnits_memWf h2 _
    refine iteAt_memWf Prod.snd hk ?_
    split
    · exact h3
    · exact h3
    · exact iteAt_memWf Prod.snd hk h3

/-- The body of a lane that keeps the form of the scratchpad. -/
theorem laneStep_endsWf {s : State} (h : s.memWf = true) {pr : BitVec 6} {body : Cursor → Core → LM Core}
    (hb : GivesSpad id (body s.cur (s.core s.cur.core))) : EndsWf (laneStep s pr body) :=
  fun _ e => laneStep_memWf h (fun _ e' => hb _ e') e

/-- Every instruction and event of the machine keeps the form of every memory. -/
theorem exec_endsWf {s : State} (h : s.memWf = true) (i : Instr) : EndsWf (exec i s) := by
  have hc := State.memWf_core h s.cur.core
  cases i with
  | powerOnReset => exact execPowerOnReset_endsWf h
  | bringupStageEnd => exact execBringupStageEnd_endsWf h _ _
  | pwrmodeWrite => exact execPwrmodeWrite_endsWf h _
  | throttleWindowStart => exact execThrottleWindowStart_endsWf h
  | thermalSample => exact execThermalSample_endsWf h _
  | registerWrite => exact execRegisterWrite_endsWf h _ _ _ _
  | timeSyncSend => exact execTimeSyncSend_endsWf h
  | timeSyncReceive => exact execTimeSyncReceive_endsWf h _ _ _ _ _
  | flitReceive => exact execFlitReceive_endsWf h _ _ _ _ _
  | flitSend => exact execFlitSend_endsWf h _ _ _
  | slotmiss => exact execSlotmiss_endsWf h _ _ _
  | linkTrainingComplete => exact execLinkTrainingComplete_endsWf h _ _ _
  | linkTrainingFailure => exact execLinkTrainingFailure_endsWf h _ _
  | linkRetrain => exact execLinkRetrain_endsWf h _ _
  | linkstatRetry => exact execLinkstatRetry_endsWf h _ _
  | linkWake => exact execLinkWake_endsWf h _ _
  | slotTableLoadArrive => exact execSlotTableLoadArrive_endsWf h _
  | slotTableActivate => exact execSlotTableActivate_endsWf h _ _
  | slotTableLoadAnswer => exact execSlotTableLoadAnswer_endsWf h _
  | packetReceive => exact execPacketReceive_endsWf h _ _
  | heldWriteApply => exact execHeldWriteApply_endsWf h _ _
  | escapeChannelMove => exact execEscapeChannelMove_endsWf h _ _ _
  | frontierFlitSend => exact execFrontierFlitSend_endsWf h _ _
  | frontierFlitReceive => exact execFrontierFlitReceive_endsWf h _ _
  | writeAcknowledgement die seq nack => exact execWriteAcknowledgement_endsWf h _ _ nack
  | domcfgWrite => exact execDomcfgWrite_endsWf h _
  | queueEnable => exact execQueueEnable_endsWf h _
  | queueDisable => exact execQueueDisable_endsWf h _
  | queueDoorbell => exact execQueueDoorbell_endsWf h _ _
  | hostWindowRead => exact execHostWindowRead_endsWf h _
  | hostWindowWrite => exact execHostWindowWrite_endsWf h _
  | hostAtomicop => exact execHostAtomicop_endsWf h _ _ _
  | hostHdmAccess => exact execHostHdmAccess_endsWf h _ _ _ _ _
  | hdmcfgWrite => exact execHdmcfgWrite_endsWf h _ _
  | shootdownStart => exact execShootdownStart_endsWf h _
  | shootdownComplete => exact execShootdownComplete_endsWf h
  | atsInvalidate => exact execAtsInvalidate_endsWf h _ _ _ _
  | atsInvalidateComplete => exact execAtsInvalidateComplete_endsWf h _
  | translationWalkComplete => exact execTranslationWalkComplete_endsWf h _ _
  | frzctlResume => exact execFrzctlResume_endsWf h _
  | frzctlKill => exact execFrzctlKill_endsWf h _
  | keyLoad => exact execKeyLoad_endsWf h _
  | keyPlain => exact execKeyPlain_endsWf h _
  | keyDestroy => exact execKeyDestroy_endsWf h _
  | keyQuery => exact execKeyQuery_endsWf h _
  | keyGen => exact execKeyGen_endsWf h _
  | keyDestroyDrainEnd => exact execKeyDestroyDrainEnd_endsWf h _
  | fwctlFuse => exact execFwctlFuse_endsWf h
  | fwctlFuseDone => exact execFwctlFuseDone_endsWf h
  | getVersion => exact execGetVersion_endsWf h _
  | getCapabilities => exact execGetCapabilities_endsWf h _
  | negotiateAlgorithms => exact execNegotiateAlgorithms_endsWf h _
  | getDigests => exact execGetDigests_endsWf h _
  | getCertificate => exact execGetCertificate_endsWf h _ _ _ _
  | challenge => exact execChallenge_endsWf h _ _ _
  | getMeasurements => exact execGetMeasurements_endsWf h _ _ _
  | spdmUnsupportedRequest => exact execSpdmUnsupportedRequest_endsWf h _
  | queueService => exact execQueueService_endsWf h _
  | queueAccessReturn => exact execQueueAccessReturn_endsWf h _
  | interruptSend => exact execInterruptSend_endsWf h _
  | effectiveClassAge => exact execEffectiveClassAge_endsWf h _
  | admissionWindow => exact execAdmissionWindow_endsWf h _
  | stealGrantReceive => exact execStealGrantReceive_endsWf h _ _ _ _
  | launchLoadComplete => exact execLaunchLoadComplete_endsWf h _
  | coreRelease => exact execCoreRelease_endsWf h _ _
  | taskTake => exact execTaskTake_endsWf h _
  | joinComplete => exact execJoinComplete_endsWf h _
  | traceRecordWrite => exact execTraceRecordWrite_endsWf h _
  | bundleFetch => exact execBundleFetch_endsWf h _
  | resultWriteback => exact execResultWriteback_endsWf h _
  | loadLanding => exact execLoadLanding_endsWf h _
  | dataArrival => exact execDataArrival_endsWf h _
  | bobbinFull => exact execBobbinFull_endsWf h _
  | loopBack => exact execLoopBack_endsWf h _
  | streamPortFetch => exact execStreamPortFetch_endsWf h _ _
  | streamPortDrain => exact execStreamPortDrain_endsWf h _ _
  | channelWordArrive => exact execChannelWordArrive_endsWf h _ _ _
  | segmentCommit => exact execSegmentCommit_endsWf h _
  | fenceConditionMet => exact execFenceConditionMet_endsWf h _
  | rollbackComplete => exact execRollbackComplete_endsWf h _
  | cowLockAcquire => exact execCowLockAcquire_endsWf h _
  | detectedError => exact execDetectedError_endsWf h _ _
  | rerunPairCompare => exact execRerunPairCompare_endsWf h _
  | preemptSave => exact execPreemptSave_endsWf h _
  | tileFetch => exact execTileFetch_endsWf h _ _
  | weightStoreRefresh => exact execWeightStoreRefresh_endsWf h _ _
  | accessPerformedAtHome => exact execAccessPerformedAtHome_endsWf h _
  | sinterTrapFreeze => exact execSinterTrapFreeze_endsWf h _
  | relayoutStart => exact execRelayoutStart_endsWf h _
  | tileConvert => exact execTileConvert_endsWf h _ _
  | relayoutComplete => exact execRelayoutComplete_endsWf h _
  | reshardPlan => exact execReshardPlan_endsWf h _
  | reshardPiece => exact execReshardPiece_endsWf h _ _
  | reshardComplete => exact execReshardComplete_endsWf h _
  | shuttleCommandStart => exact execShuttleCommandStart_endsWf h _
  | shuttleCommandComplete => exact execShuttleCommandComplete_endsWf h _ _ _
  | ventFire => exact execVentFire_endsWf h _ _
  | ventContributionReceive => exact execVentContributionReceive_endsWf h _ _
  | ventContributionApply => exact execVentContributionApply_endsWf h _ _
  | ventGroupUpdate => exact execVentGroupUpdate_endsWf h _
  | cmdNop => exact execCmdNop_endsWf h _
  | cmdLi => exact execCmdLi_endsWf h _
  | cmdLih => exact execCmdLih_endsWf h _
  | cmdRdgtc => exact execCmdRdgtc_endsWf h _
  | cmdAdd | cmdSub | cmdAnd | cmdOr | cmdXor | cmdShl | cmdShr | cmdSra | cmdMin | cmdMax => exact cmdAlu_endsWf h _ _
  | cmdAddi | cmdSubi | cmdAndi | cmdOri | cmdXori | cmdShli | cmdShri | cmdSrai | cmdMini | cmdMaxi => exact cmdAlui_endsWf h _ _
  | cmdLd => exact execCmdLd_endsWf h _
  | cmdSt => exact execCmdSt_endsWf h _
  | cmdBeq => exact execCmdBeq_endsWf h _
  | cmdBne => exact execCmdBne_endsWf h _
  | cmdBlt => exact execCmdBlt_endsWf h _
  | cmdBge => exact execCmdBge_endsWf h _
  | cmdBltu => exact execCmdBltu_endsWf h _
  | cmdBgeu => exact execCmdBgeu_endsWf h _
  | cmdJmp => exact execCmdJmp_endsWf h _
  | cmdCall => exact execCmdCall_endsWf h _
  | cmdRet => exact execCmdRet_endsWf h _
  | cmdLoop => exact execCmdLoop_endsWf h _
  | cmdSigSet | cmdSigAdd | cmdSigSub | cmdSigMax | cmdSigMin => exact cmdSig_endsWf h _ _ _
  | cmdWaitAll | cmdWaitAny => exact cmdWait_endsWf h _ _
  | cmdGtcwait => exact execCmdGtcwait_endsWf h _
  | cmdOnabt => exact execCmdOnabt_endsWf h _
  | cmdAbort => exact execCmdAbort_endsWf h _
  | cmdLaunch | cmdLaunchN => exact cmdLaunchAs_endsWf h _ _
  | cmdCopy | cmdFill => exact cmdCopyAs_endsWf h _ _
  | cmdShootdn => exact execCmdShootdn_endsWf h _
  | cmdNotify => exact execCmdNotify_endsWf h _
  | cmdSlotld => exact execCmdSlotld_endsWf h _
  | cmdFlush => exact execCmdFlush_endsWf h _
  | add | sub | and | or | xor | andn | shl | shr | sra | rotl | min | max | minu | maxu | mul | mulh | mulhu | div | divu | rem | remu =>
    exact laneStep_endsWf h (scalar2_spadWf hc _ _ _ _)
  | mov | clz | ctz | popc | abs | neg | bswap => exact laneStep_endsWf h (scalar1_spadWf hc _ _ _ _)
  | sext | zext => exact laneStep_endsWf h (scalarExt_spadWf hc _ _ _)
  | sel => exact laneStep_endsWf h (scalarSel_spadWf hc _ _)
  | addi | subi | andi | ori | xori | andni | shli | shri | srai | rotli | mini | maxi | minui | maxui =>
    exact laneStep_endsWf h (scalarI_spadWf hc _ _ _ _)
  | li => exact laneStep_endsWf h (scalarLi_spadWf hc _ _)
  | lis => exact laneStep_endsWf h (scalarLis_spadWf hc _ _)
  | cmp | cmpu => exact laneStep_endsWf h (scalarCmp_spadWf hc _ _ _)
  | cmpi => exact laneStep_endsWf h (scalarCmpi_spadWf hc _ _)
  | fcmp => exact laneStep_endsWf h (scalarFcmp_spadWf hc _ _)
  | fadd | fsub | fmul | fdiv | fmin | fmax => exact laneStep_endsWf h (scalarF2_spadWf hc _ _ _)
  | fsqrt | fabs | fneg => exact laneStep_endsWf h (scalarF1_spadWf hc _ _ _)
  | fcvt => exact laneStep_endsWf h (scalarFcvt_spadWf hc _ _)
  | fcvti => exact laneStep_endsWf h (scalarFcvti_spadWf hc _ _)
  | icvtf => exact laneStep_endsWf h (scalarIcvtf_spadWf hc _ _)
  | fclass => exact laneStep_endsWf h (scalarFclass_spadWf hc _ _)
  | gand | gor | gxor | gandn => exact laneStep_endsWf h (gLogic_spadWf hc _ _ _)
  | gset => exact laneStep_endsWf h (gSet_spadWf hc _ _)
  | csrr => exact laneStep_endsWf h (csrrBody_spadWf hc _ _ _)
  | csrw | csrs | csrc => exact laneStep_endsWf h (csrUpdate_spadWf hc _ _ _ _ _)
  | br => exact laneStep_endsWf h (brBody_spadWf hc _ _)
  | call => exact laneStep_endsWf h (callBody_spadWf hc _ _)
  | ret => exact laneStep_endsWf h (retBody_spadWf hc _ _)
  | loop | rloop => exact laneStep_endsWf h (loopBody_spadWf hc _ _ _)
  | lbreak => exact laneStep_endsWf h (lbreakBody_spadWf hc _ _)
  | spawn => exact laneStep_endsWf h (spawnBody_spadWf hc _ _)
  | join => exact laneStep_endsWf h (joinBody_spadWf hc _ _)
  | exit => exact laneStep_endsWf h (exitBody_spadWf hc _ _)
  | exitab => exact laneStep_endsWf h (exitabBody_spadWf hc _ _)
  | trap => exact laneStep_endsWf h (trapBody_spadWf hc _ _)
  | uiret => exact laneStep_endsWf h (uiretBody_spadWf hc _ _)
  | slotld => exact execSlotld_endsWf h _
  | vAdd | vSub | vAnd | vOr | vXor | vAndn | vShl | vShr | vSra | vMin | vMax | vMinu | vMaxu | vMul | vMulh | vAdds | vSubs | vAddsu | vSubsu =>
    exact laneStep_endsWf h (vecInt2_spadWf hc _ _ _ _)
  | vAbs | vNeg | vClz | vPopc => exact laneStep_endsWf h (vecInt1_spadWf hc _ _ _)
  | vMov | vBcast => exact laneStep_endsWf h (vecMove_spadWf hc _ _ _)
  | vSel => exact laneStep_endsWf h (vecSel_spadWf hc _ _)
  | vAddi | vSubi | vAndi | vOri | vXori | vAndni | vShli | vShri | vSrai | vMini | vMaxi | vMulli =>
    exact laneStep_endsWf h (vecIntI_spadWf hc _ _ _ _ _)
  | vAddF | vSubF | vMulF | vMinF | vMaxF => exact laneStep_endsWf h (vecF2_spadWf hc _ _ _)
  | vAbsF | vNegF => exact laneStep_endsWf h (vecF1_spadWf hc _ _ _)
  | vFmaF32 | vFmaF16 | vFmaBf16 | vFmsF32 | vFmsF16 | vFmsBf16 => exact laneStep_endsWf h (vecFma_spadWf hc _ _ _ _)
  | vCmp | vCmpu | vCmpi => exact laneStep_endsWf h (vecCmp_spadWf hc _ _ _ _)
  | vFcmp => exact laneStep_endsWf h (vecFcmp_spadWf hc _ _)
  | pand | por | pxor | pandn => exact laneStep_endsWf h (pLogic_spadWf hc _ _ _)
  | pset => exact laneStep_endsWf h (pSet_spadWf hc _ _)
  | pfirst => exact laneStep_endsWf h (pFirst_spadWf hc _ _)
  | pcount => exact laneStep_endsWf h (pCount_spadWf hc _ _)
  | cvt => exact laneStep_endsWf h (vecCvt_spadWf hc _ _)
  | widen => exact laneStep_endsWf h (vecWiden_spadWf hc _ _)
  | narrow => exact laneStep_endsWf h (vecNarrow_spadWf hc _ _)
  | vq8 => exact laneStep_endsWf h (vecVq8_spadWf hc _ _)
  | vdq8 => exact laneStep_endsWf h (vecVdq8_spadWf hc _ _)
  | mxq => exact laneStep_endsWf h (vecMxq_spadWf hc _ _)
  | wadd | wmul => exact laneStep_endsWf h (vecWide_spadWf hc _ _ _)
  | perm => exact laneStep_endsWf h (vecPermG_spadWf hc _ _)
  | zip | unzip | slide | vRot | splat | rev => exact laneStep_endsWf h (vecPerm_spadWf hc _ _ _ _ _)
  | vIns | vExt => exact laneStep_endsWf h (vecInsExt_spadWf hc _ _ _)
  | compress | expand => exact laneStep_endsWf h (vecPack_spadWf hc _ _ _)
  | rsum | rmax | rmin | rmaxu | rminu | rand | ror | rargmax => exact laneStep_endsWf h (vecRed_spadWf hc _ _ _ _)
  | ard => exact laneStep_endsWf h (ardBody_spadWf hc _ _)
  | awr | aadd | amax | ascl => exact laneStep_endsWf h (rowWrite_spadWf hc _ _ _)
  | vrsqs | vrcps | vexp2 | vlog2 | vtanh | vsigm | vsqrt => exact laneStep_endsWf h (sfu1_spadWf hc _ _ _ _)
  | vlse => exact laneStep_endsWf h (vlseBody_spadWf hc _ _)
  | vdrawF32 | vdrawF16 | vdrawBf16 => exact laneStep_endsWf h (vdrawBody_spadWf hc _ _ _)
  | vdrawm => exact laneStep_endsWf h (vdrawmBody_spadWf hc _ _)
  | mpush => exact laneStep_endsWf h (mpushBody_spadWf hc _ _)
  | mscaleA | mscaleB => exact laneStep_endsWf h (mscaleBody_spadWf hc _ _ _)
  | macc => exact laneStep_endsWf h (maccBody_spadWf hc _ _ _)
  | mshift => exact laneStep_endsWf h (mshiftBody_spadWf hc _ _)
  | mdrain => exact laneStep_endsWf h (mdrainBody_spadWf hc _ _)
  | mzero => exact laneStep_endsWf h (mzeroBody_spadWf hc _ _)
  | mcfg => exact laneStep_endsWf h (mcfgBody_spadWf hc _ _)
  | ldI8 | ldI16 | ldI32 | ldI64 | ldN8 | ldN16 | ldN32 | vld | vldb => exact laneStep_endsWf h (loadMA_spadWf hc _ _ _ _ _ _)
  | stB8 | stB16 | stB32 | stB64 | vst => exact laneStep_endsWf h (storeMA_spadWf hc _ _ _ _ _)
  | ldacq => exact laneStep_endsWf h (ldacqBody_spadWf hc _ _ _)
  | vldx => exact laneStep_endsWf h (vldxBody_spadWf hc _ _ _)
  | vstx => exact laneStep_endsWf h (vstxBody_spadWf hc _ _)
  | gather => exact laneStep_endsWf h (gatherBody_spadWf hc _ _ _)
  | scatter => exact laneStep_endsWf h (scatterBody_spadWf hc _ _)
  | tld => exact laneStep_endsWf h (tldBody_spadWf hc _ _ _)
  | tst => exact laneStep_endsWf h (tstBody_spadWf hc _ _ _)
  | dld => exact laneStep_endsWf h (dldBody_spadWf hc _ _ _)
  | devict => exact laneStep_endsWf h (devictBody_spadWf hc _ _)
  | relay => exact laneStep_endsWf h (relayBody_spadWf hc _ _)
  | reshard => exact laneStep_endsWf h (reshardBody_spadWf hc _ _ _)
  | dget => exact laneStep_endsWf h (dgetBody_spadWf hc _ _)
  | tfcfg => exact laneStep_endsWf h (tfcfgBody_spadWf hc _ _)
  | strel => exact laneStep_endsWf h (strelBody_spadWf hc _ _)
  | sbind => exact laneStep_endsWf h (sbindBody_spadWf hc _ _)
  | sunbind => exact laneStep_endsWf h (sunbindBody_spadWf hc _ _)
  | spos => exact laneStep_endsWf h (sposBody_spadWf hc _ _)
  | cbind => exact laneStep_endsWf h (cbindBody_spadWf hc _ _)
  | cunbind => exact laneStep_endsWf h (cunbindBody_spadWf hc _ _)
  | sfill => exact laneStep_endsWf h (sfillBody_spadWf hc _ _)
  | copy | fill => exact laneStep_endsWf h (copyBody_spadWf hc _ _ _)
  | acc => exact laneStep_endsWf h (accBody_spadWf hc _ _)
  | accr => exact laneStep_endsWf h (accrBody_spadWf hc _ _)
  | sigw => exact laneStep_endsWf h (sigwBody_spadWf hc _ _)
  | chdone => exact laneStep_endsWf h (chdoneBody_spadWf hc _ _)
  | ventset => exact laneStep_endsWf h (ventsetBody_spadWf hc _ _ _)
  | ventrdy => exact laneStep_endsWf h (ventrdyBody_spadWf hc _ _)
  | ventgrp => exact laneStep_endsWf h (ventgrpBody_spadWf hc _ _)
  | fence => exact laneStep_endsWf h (fenceBody_spadWf hc _ _)
  | fencex => exact laneStep_endsWf h (fencexBody_spadWf hc _ _)
  | flush => exact laneStep_endsWf h (flushBody_spadWf hc _ _)
  | collmode => exact laneStep_endsWf h (collmodeBody_spadWf hc _ _)
  | emptySlot => exact execEmptySlot_endsWf h
  | powerRemoved => exact execPowerRemoved_endsWf h

theorem queuePoint_endsWf {s : State} (h : s.memWf = true) (q : Nat) : EndsWf (queuePoint q s) := by
  unfold queuePoint
  have hh : (queueHead (recognise s q) q).2.memWf = true := queueHead_memWf (recognise_memWf h _) _
  refine endsWf_ite (endsWf_next (recognise_memWf h _)) ?_
  split
  · exact finish_endsWf (abortRest_memWf (recognise_memWf h _) _ _ _)
  · split
    · rename_i s1 e1
      have h1 : s1.memWf = true := memWf_of_eq (p := Prod.snd) e1 hh
      exact finish_endsWf h1
    · rename_i _ s2 e2
      have h2 : s2.memWf = true := memWf_of_eq (p := Prod.snd) e2 hh
      exact finish_endsWf (queueFault_memWf h2 _ _ _ _ _ _ _)
    · rename_i _ s3 e3
      have h3 : s3.memWf = true := memWf_of_eq (p := Prod.snd) e3 hh
      exact exec_endsWf (memWf_update h3) _

theorem runLane_endsWf {s : State} (h : s.memWf = true) (cu : Cursor) : EndsWf (runLane cu s) := by
  unfold runLane
  refine endsWf_ite (endsWf_next h) ?_
  split
  · exact endsWf_next h
  · refine endsWf_ite (endsWf_next (State.memWf_setCore h _ _ (takeTrap_spadWf (State.memWf_core h _) _ _))) ?_
    split
    · exact endsWf_next h
    · exact exec_endsWf (memWf_update h) _

theorem bindAhead_spadWf {s : State} (h : s.memWf = true) (core : Nat) : Memory.wf (bindAhead s core).spad = true := by
  unfold bindAhead
  extract_lets c1
  have h1 : Memory.wf c1.spad = true := State.memWf_core h _
  split
  · exact h1
  · refine ite_spadWf h1 (foldl_spadWf (fun c l hc => ?_) h1 _)
    extract_lets _ r
    clear_value r
    split
    · exact spadWf_update hc
    · exact hc

theorem coreTick_memWf {s : State} (h : s.memWf = true) (core : Nat) : (coreTick core s).memWf = true := by
  unfold coreTick
  refine ite_memWf (ite_memWf (memWf_update h) h) (ite_memWf h (ite_memWf (memWf_update h) ?_))
  extract_lets s1
  clear_value s1
  split
  · exact ite_memWf (State.memWf_setCore h _ _ (spadWf_update (State.memWf_core h _))) h
  · exact memWf_update h

theorem coreIssue_memWf {s : State} (h : s.memWf = true) (core : Nat) : (coreIssue core s).memWf = true := by
  unfold coreIssue
  split
  · exact h
  · extract_lets c1 _ _ _ c2 s3
    have h1 : Memory.wf c1.spad = true := ite_spadWf (bindAhead_spadWf h _) (State.memWf_core h _)
    have h2 : Memory.wf c2.spad = true := spadWf_update h1
    have h3 : s3.memWf = true := State.memWf_setCore h _ _ h2
    split
    · exact State.memWf_setCore h _ _ (takeTrap_spadWf h1 _ _)
    · exact memWf_update h3

theorem coreCount_memWf {s : State} (h : s.memWf = true) (core : Nat) : (coreCount core s).memWf = true :=
  ite_memWf h (State.memWf_setCore h _ _ (spadWf_update (State.memWf_core h _)))

theorem coreEnd_memWf {s : State} (h : s.memWf = true) (core : Nat) : (coreEnd core s).memWf = true := by
  unfold coreEnd
  refine ite_memWf h ?_
  refine ite_memWf (State.memWf_setCore h _ _ (spadWf_update (State.memWf_core h _))) ?_
  split
  · exact memWf_update h
  · split
    · exact ite_memWf (memWf_update h) (memWf_update (State.memWf_setCore h _ _ (spadWf_update (State.memWf_core h _))))
    · exact State.memWf_setCore h _ _ (spadWf_update (State.memWf_core h _))

theorem nextCycle_memWf {s : State} (h : s.memWf = true) : (nextCycle s).memWf = true :=
  memWf_update (trainOn_memWf (memWf_update h))

theorem doTodo_endsWf {s : State} (h : s.memWf = true) (x : Todo) : EndsWf (doTodo x s) := by
  unfold doTodo
  split
  · exact exec_endsWf h _
  · exact endsWf_next (coreTick_memWf h _)
  · exact endsWf_next (coreIssue_memWf h _)
  · exact endsWf_next (coreCount_memWf h _)
  · exact endsWf_next (coreEnd_memWf h _)
  · exact runLane_endsWf h _
  · exact queuePoint_endsWf h _
  · split
    · exact endsWf_ite (finish_endsWf (launchTry_memWf h _)) (endsWf_next h)
    · exact endsWf_next h

theorem dueInput_memWf {s : State} (h : s.memWf = true) (before l : List (Nat × Instr)) : SomeWf Prod.snd (dueInput s before l) := by
  induction l generalizing before with
  | nil => exact someWf_none
  | cons x t ih => exact someWf_ite (someWf_some (memWf_update h)) (ih _)

theorem internal_endsWf {s : State} (h : s.memWf = true) (r : Host.Outcome State Fault Refusal) (e : internal s = some r) : EndsWf r := by
  unfold internal at e
  split at e
  · cases e
    exact endsWf_next (releasePins_memWf h _)
  · obtain ⟨i, _, rfl⟩ := Option.map_eq_some_iff.mp e
    exact exec_endsWf h i

theorem idleStep_endsWf {s : State} (h : s.memWf = true) : EndsWf (step.idleStep s) := by
  unfold step.idleStep
  refine endsWf_ite ?_ (endsWf_next (nextCycle_memWf h))
  split
  · rename_i e
    exact internal_endsWf h _ e
  · exact endsWf_next (nextCycle_memWf h)

theorem step_endsWf {s : State} (h : s.memWf = true) : EndsWf (step s) := by
  unfold step
  split
  · exact doTodo_endsWf (memWf_update h) _
  · split
    · rename_i _ s1 e1
      have h1 : s1.memWf = true := dueInput_memWf h _ _ _ e1
      exact endsWf_ite (exec_endsWf h1 _) (endsWf_next h1)
    · exact idleStep_endsWf h

/-- Settles O44, by the rule that each instruction, event and tick of the machine keeps the form of every memory. -/
theorem stepKeepsMemoryForm : Obligations.StepKeepsMemoryForm := by
  intro s t h e
  exact step_endsWf h t e

end Sys2Proof.Machine
end

