-- ==== Sys2Proof/Proofs/LinkState.lean ====
section
/-! SUPPORT. What links read after updates of links, and what training changes of them (R41). -/
namespace Sys2Proof.Machine
open Sys2Proof.Claims

/-! ### Links after updates of links -/

theorem linkAt_withLink (s : State) (d k d' k' : Nat) (l : Link) :
    linkAt (withLink s d k l) d' k' = if d' = d ∧ k' = k then l else linkAt s d' k' := by
  unfold linkAt withLink
  rw [State.die_setDie]
  by_cases hd : d' = d
  · subst hd
    rw [if_pos rfl]
    simpa [Die.link, Die.setLink] using FMap.get_put Link.init (s.die d').links k k' l
  · rw [if_neg hd, if_neg fun h => hd h.1]

/-- Link by link, each link of a list becomes what `g` makes of it in the state reached. -/
def overLinks (g : State → Nat × Nat → Link) (es : List (Nat × Nat)) (s : State) : State :=
  es.foldl (fun s e => withLink s e.1 e.2 (g s e)) s

/-- At most the dies have changed. -/
def DiesOnly (s t : State) : Prop := ∃ ds, t = { s with dies := ds }

theorem diesOnly_refl (s : State) : DiesOnly s s := ⟨s.dies, rfl⟩

theorem diesOnly_foldl {α : Type} {f : State → α → State} (hf : ∀ s a, DiesOnly s (f s a)) (l : List α) (s : State) : DiesOnly s (l.foldl f s) := by
  induction l generalizing s with
  | nil => exact diesOnly_refl s
  | cons a l ih =>
    obtain ⟨ds, h⟩ := hf s a
    obtain ⟨ds', h'⟩ := ih (f s a)
    exact ⟨ds', by rw [List.foldl_cons, h', h]⟩

theorem overLinks_dies (g : State → Nat × Nat → Link) (es : List (Nat × Nat)) (s : State) : DiesOnly s (overLinks g es s) :=
  diesOnly_foldl (fun _ _ => ⟨_, rfl⟩) es s

theorem overLinks_fabricOnly (g : State → Nat × Nat → Link) (es : List (Nat × Nat)) (s : State) : FabricOnly s (overLinks g es s) := by
  obtain ⟨ds, h⟩ := overLinks_dies g es s
  rw [h]
  exact ⟨rfl, rfl, rfl, rfl, rfl, rfl, rfl⟩

theorem fabricOnly_refl (s : State) : FabricOnly s s := ⟨rfl, rfl, rfl, rfl, rfl, rfl, rfl⟩

theorem fabricOnly_trans {s t u : State} (h : FabricOnly s t) (h' : FabricOnly t u) : FabricOnly s u := by
  obtain ⟨a, b, c, d, e, f, g⟩ := h
  obtain ⟨a', b', c', d', e', f', g'⟩ := h'
  exact ⟨a'.trans a, b'.trans b, c'.trans c, d'.trans d, e'.trans e, f'.trans f, g'.trans g⟩

/-- What every new link satisfies holds of each link of the list in the end. -/
theorem overLinks_holds {g : State → Nat × Nat → Link} {P : Link → Prop} (hg : ∀ s e, P (g s e)) (es : List (Nat × Nat)) (s : State)
    (d k : Nat) (h : (d, k) ∈ es ∨ P (linkAt s d k)) : P (linkAt (overLinks g es s) d k) := by
  induction es generalizing s with
  | nil => exact h.resolve_left List.not_mem_nil
  | cons e es ih =>
    refine ih (withLink s e.1 e.2 (g s e)) ?_
    rw [linkAt_withLink]
    by_cases he : d = e.1 ∧ k = e.2
    · rw [if_pos he]
      exact .inr (hg s e)
    · rw [if_neg he]
      refine h.imp_left fun hm => (List.mem_cons.mp hm).resolve_left fun heq => he ?_
      subst heq
      exact ⟨rfl, rfl⟩

/-- A change of a link that made twice is made once reaches the listed links, and no other. -/
theorem linkAt_overLinks {f : Link → Link} (hf : ∀ l, f (f l) = f l) (es : List (Nat × Nat)) (s : State) (d k : Nat) :
    linkAt (overLinks (fun s e => f (linkAt s e.1 e.2)) es s) d k = if (d, k) ∈ es then f (linkAt s d k) else linkAt s d k := by
  induction es generalizing s with
  | nil => rfl
  | cons e es ih =>
    refine (ih (withLink s e.1 e.2 (f (linkAt s e.1 e.2)))).trans ?_
    rw [linkAt_withLink]
    by_cases he : d = e.1 ∧ k = e.2
    · obtain ⟨rfl, rfl⟩ := he
      simp [hf]
    · have hne : (d, k) ≠ e := by
        rintro rfl
        exact he ⟨rfl, rfl⟩
      simp [he, hne]

/-! ### Training -/

/-- A link in a training state with its count of failures: no lane has sent or received since (R41). -/
def restarted (st : LinkState) (fails : Nat) (l : Link) : Link := { l with st := st, fails := fails, lanes := [], replays := [] }

theorem setEnds_eq (s : State) (d k : Nat) (st : LinkState) (fails : Nat) :
    setEnds s d k st fails = overLinks (fun s e => restarted st fails (linkAt s e.1 e.2)) (bothEnds d k) s := rfl

theorem linkAt_setEnds (s : State) {d k : Nat} (st : LinkState) (fails : Nat) {e : Nat × Nat} (he : e ∈ bothEnds d k) :
    linkAt (setEnds s d k st fails) e.1 e.2 = restarted st fails (linkAt s e.1 e.2) := by
  rw [setEnds_eq, linkAt_overLinks (f := restarted st fails) fun _ => rfl]
  exact if_pos he

theorem setEnds_dies (s : State) (d k : Nat) (st : LinkState) (fails : Nat) : DiesOnly s (setEnds s d k st fails) :=
  overLinks_dies _ _ _

theorem setEnds_fabricOnly (s : State) (d k : Nat) (st : LinkState) (fails : Nat) : FabricOnly s (setEnds s d k st fails) :=
  overLinks_fabricOnly _ _ _

theorem setEnds_mod (s : State) (d k : Nat) (st : LinkState) (fails : Nat) : (setEnds s d k st fails).mod = s.mod := by
  obtain ⟨ds, e⟩ := setEnds_dies s d k st fails
  rw [e]

theorem trainLinks_eq (s : State) (f : Nat × Nat → Bool) :
    trainLinks s f = overLinks (fun s e => { linkAt s e.1 e.2 with st := .detect, fails := 0 }) (moduleLinks.filter f) s := rfl

theorem linkAt_trainLinks (s : State) (f : Nat × Nat → Bool) (d k : Nat) :
    linkAt (trainLinks s f) d k =
      if (d, k) ∈ moduleLinks.filter f then { linkAt s d k with st := .detect, fails := 0 } else linkAt s d k := by
  rw [trainLinks_eq]
  exact linkAt_overLinks (f := fun l => { l with st := .detect, fails := 0 }) (fun _ => rfl) _ s d k

theorem trainLinks_dies (s : State) (f : Nat × Nat → Bool) : DiesOnly s (trainLinks s f) := overLinks_dies _ _ _

end Sys2Proof.Machine
end

