-- ==== Sys2Proof/Proofs/CircuitBreak.lean ====
section
/-! SUPPORT. Circuits that cross a link that leaves ACTIVE: none of their flits stays on a wire, and BRK is set at their cores (R42). -/
namespace Sys2Proof.Machine
open Sys2Proof.Claims

theorem FMap.mem_of_find {α : Type} {m : FMap α} {i : Nat} {v : α} (h : FMap.find m i = some v) : (i, v) ∈ m := by
  induction m with
  | nil => cases h
  | cons x t ih =>
    obtain ⟨a, b⟩ := x
    simp only [FMap.find] at h
    split at h
    · rename_i ha
      subst ha
      cases h
      exact List.mem_cons_self
    · exact List.mem_cons_of_mem _ (ih h)

/-- In a map that lists a key once, what `find` answers is the key's one entry. -/
theorem FMap.eq_of_mem_of_find {α : Type} {m : FMap α} (hm : m.Pairwise fun x y => x.1 ≠ y.1) {i : Nat} {v w : α}
    (h : FMap.find m i = some v) (hw : (i, w) ∈ m) : w = v := by
  have hkeys : (m.map Prod.fst).Nodup := List.pairwise_map.mpr hm
  exact congrArg Prod.snd (List.inj_on_of_nodup_map hkeys hw (FMap.mem_of_find h) rfl)

/-- Channel n of a strand is bound, and to a circuit in every entry it has. -/
def BindsTo (a : Arch) (n circ : Nat) : Prop := (FMap.find a.chans n).isSome = true ∧ ∀ b, (n, b) ∈ a.chans → BoundTo b circ

/-- What breaking a circuit does for one entry of the channel bindings. -/
def breakStep (circ : Nat) (a : Arch) (p : Nat × ChanBind) : Arch :=
  let sb := p.2.sen && p.2.scirc == circ
  let rb := p.2.ren && p.2.rcirc == circ
  if sb || rb then
    { a with brk := a.brk ||| ((1 : BitVec 4) <<< p.1), chans := FMap.put a.chans p.1 { p.2 with sbrk := p.2.sbrk || sb, rbrk := p.2.rbrk || rb } }
  else a

theorem breakAt_eq (circ : Nat) (a : Arch) : breakAt circ a = a.chans.foldl (breakStep circ) a := rfl

theorem breakStep_keeps_brk {circ n : Nat} {a : Arch} (p : Nat × ChanBind) (h : a.brk.getLsbD n = true) :
    (breakStep circ a p).brk.getLsbD n = true := by
  unfold breakStep
  dsimp only
  split
  · rw [BitVec.getLsbD_or, h, Bool.true_or]
  · exact h

theorem breakStep_sets_brk {circ n : Nat} (a : Arch) {b : ChanBind} (hn : n < 4) (h : BoundTo b circ) :
    (breakStep circ a (n, b)).brk.getLsbD n = true := by
  have hb : (b.sen && b.scirc == circ || b.ren && b.rcirc == circ) = true := by simpa [BoundTo] using h
  unfold breakStep
  dsimp only
  rw [if_pos hb]
  simp [hn]

/-- Breaking any circuit leaves the channel bound as it was. -/
theorem breakStep_keeps_binds {circ circ' n : Nat} {a : Arch} {p : Nat × ChanBind} (h : BindsTo a n circ') (hp : p.1 = n → BoundTo p.2 circ') :
    BindsTo (breakStep circ a p) n circ' := by
  unfold breakStep
  dsimp only
  split
  · refine ⟨?_, fun b hb => ?_⟩
    · rw [FMap.find_put]
      split
      · rfl
      · exact h.1
    · rcases FMap.mem_put hb with e | e
      · cases e
        exact hp rfl
      · exact h.2 b e
  · exact h

theorem foldl_breakStep_keeps_brk {circ n : Nat} (l : FMap ChanBind) {a : Arch} (h : a.brk.getLsbD n = true) :
    (l.foldl (breakStep circ) a).brk.getLsbD n = true := by
  induction l generalizing a with
  | nil => exact h
  | cons p l ih => exact ih (breakStep_keeps_brk p h)

theorem foldl_breakStep_sets_brk {circ n : Nat} {l : FMap ChanBind} (a : Arch) {b : ChanBind} (hn : n < 4) (hb : (n, b) ∈ l) (h : BoundTo b circ) :
    (l.foldl (breakStep circ) a).brk.getLsbD n = true := by
  induction l generalizing a with
  | nil => cases hb
  | cons p l ih =>
    rcases List.mem_cons.mp hb with rfl | hb
    · exact foldl_breakStep_keeps_brk l (breakStep_sets_brk a hn h)
    · exact ih (breakStep circ a p) hb

theorem foldl_breakStep_keeps_binds {circ circ' n : Nat} {l : FMap ChanBind} {a : Arch} (h : BindsTo a n circ')
    (hl : ∀ b, (n, b) ∈ l → BoundTo b circ') : BindsTo (l.foldl (breakStep circ) a) n circ' := by
  induction l generalizing a with
  | nil => exact h
  | cons p l ih =>
    refine ih (breakStep_keeps_binds h fun e => hl p.2 ?_) fun b hb => hl b (List.mem_cons_of_mem _ hb)
    subst e
    exact List.mem_cons_self

theorem breakAt_keeps_brk {circ n : Nat} {a : Arch} (h : a.brk.getLsbD n = true) : (breakAt circ a).brk.getLsbD n = true := by
  rw [breakAt_eq]
  exact foldl_breakStep_keeps_brk _ h

theorem breakAt_keeps_binds {circ circ' n : Nat} {a : Arch} (h : BindsTo a n circ') : BindsTo (breakAt circ a) n circ' := by
  rw [breakAt_eq]
  exact foldl_breakStep_keeps_binds h h.2

theorem breakAt_sets_brk {circ n : Nat} {a : Arch} (hn : n < 4) (h : BindsTo a n circ) : (breakAt circ a).brk.getLsbD n = true := by
  obtain ⟨b, hb⟩ := Option.isSome_iff_exists.mp h.1
  have hm := FMap.mem_of_find hb
  rw [breakAt_eq]
  exact foldl_breakStep_sets_brk a hn hm (h.2 b hm)

theorem core_breakCircuit (s : State) (circ i : Nat) :
    (breakCircuit s circ).core i = { s.core i with arch := breakAt circ (s.core i).arch, keep := breakAt circ (s.core i).keep } :=
  FMap.get_map Core.init (fun c => { c with arch := breakAt circ c.arch, keep := breakAt circ c.keep }) rfl s.cores i

/-- A flit of a circuit on a wire. -/
def Carries (w : Wire) (circ : Nat) : Prop := ∃ f, w.f.body = .circuit f ∧ (w.f.link.extractLsb' 32 12).toNat = circ

theorem wires_breakCircuit {s : State} {circ : Nat} {w : Wire} (h : w ∈ (breakCircuit s circ).wires) : w ∈ s.wires ∧ ¬ Carries w circ := by
  obtain ⟨hw, hc⟩ := List.mem_filter.mp h
  refine ⟨hw, ?_⟩
  rintro ⟨f, hb, he⟩
  rw [hb] at hc
  simp [he] at hc

theorem wires_breakCircuits {circs : List Nat} {s : State} {w : Wire} (h : w ∈ (circs.foldl breakCircuit s).wires) :
    w ∈ s.wires ∧ ∀ circ ∈ circs, ¬ Carries w circ := by
  induction circs generalizing s with
  | nil => exact ⟨h, fun _ hc => absurd hc List.not_mem_nil⟩
  | cons c circs ih =>
    obtain ⟨hw, hr⟩ := ih h
    obtain ⟨hw, hc⟩ := wires_breakCircuit hw
    exact ⟨hw, List.forall_mem_cons.mpr ⟨hc, hr⟩⟩

/-- Of a core's channel bound to one of the circuits that break, BRK is set. -/
theorem brk_breakCircuits {circs : List Nat} {s : State} {i n circ : Nat} (hn : n < 4) (hb : BindsTo (s.core i).arch n circ)
    (h : circ ∈ circs ∨ (s.core i).arch.brk.getLsbD n = true) : ((circs.foldl breakCircuit s).core i).arch.brk.getLsbD n = true := by
  induction circs generalizing s with
  | nil => exact h.resolve_left List.not_mem_nil
  | cons c circs ih =>
    have harch : ((breakCircuit s c).core i).arch = breakAt c (s.core i).arch := by rw [core_breakCircuit]
    refine ih (s := breakCircuit s c) ?_ ?_ <;> rw [harch]
    · exact breakAt_keeps_binds hb
    · rcases h with h | h
      · rcases List.mem_cons.mp h with rfl | h
        · exact .inr (breakAt_sets_brk hn hb)
        · exact .inl h
      · exact .inr (breakAt_keeps_brk h)

/-- Taking back what the ends of a link hold leaves the cores alone and puts nothing on a wire. -/
theorem foldl_leaveEnd_spec (l : List ((Nat × Nat) × List BePkt)) (s : State) :
    let t := l.foldl (fun s x => leaveEnd s x.1.1 x.1.2 x.2) s
    t.cores = s.cores ∧ ∀ w ∈ t.wires, w ∈ s.wires := by
  induction l generalizing s with
  | nil => exact ⟨rfl, fun _ h => h⟩
  | cons x l ih =>
    obtain ⟨hc, hw⟩ := ih (leaveEnd s x.1.1 x.1.2 x.2)
    exact ⟨hc, fun w h => List.mem_of_mem_filter (hw w h)⟩

theorem leaveActive_breaks (s : State) (d k : Nat) : CircuitsBroken s (leaveActive s d k) (bothEnds d k) := by
  intro circ hcirc
  let s1 := (crossing s (bothEnds d k)).foldl breakCircuit s
  obtain ⟨hcores, hwires⟩ := foldl_leaveEnd_spec ((bothEnds d k).map fun e => (e, endPackets s1 e.1 e.2)) s1
  refine ⟨fun w hw f hf he => ?_, fun i n b hn hp hfind hb => ?_⟩
  · obtain ⟨-, hno⟩ := wires_breakCircuits (hwires w hw)
    exact hno circ hcirc ⟨f, hf, he⟩
  · have hbinds : BindsTo (s.core i).arch n circ :=
      ⟨by rw [hfind]; rfl, fun b' hb' => by rwa [FMap.eq_of_mem_of_find hp hfind hb']⟩
    have hcore : (leaveActive s d k).core i = s1.core i := congrArg (fun m => FMap.get Core.init m i) hcores
    rw [hcore]
    exact brk_breakCircuits hn hbinds (.inl hcirc)

/-- Training states of links break and mend no circuit. -/
theorem circuitsBroken_setEnds {s t : State} {ends : List (Nat × Nat)} (h : CircuitsBroken s t ends) (d k : Nat) (st : LinkState) (fails : Nat) :
    CircuitsBroken s (setEnds t d k st fails) ends := by
  obtain ⟨ds, e⟩ := setEnds_dies t d k st fails
  rw [e]
  exact h

end Sys2Proof.Machine
end

