-- ==== Sys2Proof/Proofs/LinkEvents.lean ====
section
/-! LAW. Training, failure, retraining and waking of links (R28, R41 to R43). -/
namespace Sys2Proof.Machine
open Sys2Proof.Claims

/-! ### Training ends -/

/-- What may begin to train after a bridge has trained: external links alone (Table 1.6). -/
theorem trainExternal_spec (s : State) (link : Nat) :
    FabricOnly s (trainExternal s link) ∧ ∀ d k, link < 8 ∨ 8 ≤ k → linkAt (trainExternal s link) d k = linkAt s d k := by
  unfold trainExternal
  split
  · refine ⟨overLinks_fabricOnly _ _ _, fun d k hk => ?_⟩
    have hk8 : ¬ k < 8 := by omega
    rw [linkAt_trainLinks, if_neg]
    simp [List.mem_filter, hk8]
  · exact ⟨fabricOnly_refl s, fun _ _ _ => rfl⟩

/-- The ends of a bridge have link numbers from 8, those of an external link one below (R43). -/
theorem bothEnds_kind {d k : Nat} {e : Nat × Nat} (he : e ∈ bothEnds d k) : k < 8 ∨ 8 ≤ e.2 := by
  by_cases hk : k < 8
  · exact .inl hk
  · right
    simp only [bothEnds, if_neg hk, List.mem_cons, List.not_mem_nil, or_false] at he
    rcases he with rfl | rfl
    · exact Nat.le_of_not_lt hk
    · unfold bridgePeer linkOf
      split <;> exact Nat.le_of_ble_eq_true rfl

/-- A trained link in the mode in effect (Table 1.2). -/
def trainedState (s : State) (k : Nat) : LinkState :=
  if (s.mod.active = 0 ∧ k < 8) ∨ (s.mod.active = 3 ∧ 4 ≤ k ∧ k < 8) then .lowpower else .active

/-- An end of a trained link: its state, its latency, a fresh count of failures and fresh numbers (R41; log 66). -/
def trainedEnd (st : LinkState) (lat : Nat) (s : State) (e : Nat × Nat) : Link :=
  { linkAt s e.1 e.2 with
    st := st, fails := 0, lat := min lat 255, lanes := [], replays := []
    dirty := if leadsHome s e.1 e.2 then (List.range 32).filter fun j => dieClock (s.die e.1) j != 0 else [] }

theorem trainingComplete_eq {s : State} {d k lat : Nat} (h : (linkAt s d k).st ∉ [.down, .active, .lowpower]) :
    exec (.linkTrainingComplete d k lat) s =
      .next (trainExternal (overLinks (trainedEnd (trainedState s k) lat) (bothEnds d k) s) k) := by
  have hst : ((s.die d).link k).st ∉ [LinkState.down, .active, .lowpower] := h
  simp only [List.mem_cons, List.not_mem_nil, or_false, not_or] at hst
  obtain ⟨hdown, hactive, hlow⟩ := hst
  have hmode : trainedState s k = if (s.mod.active == 0 && decide (k < 8) || (s.mod.active == 3 && decide (4 ≤ k) && decide (k < 8))) = true
      then .lowpower else .active := by
    simp [trainedState, and_assoc]
  rw [hmode]
  show execLinkTrainingComplete d k lat s = _
  unfold execLinkTrainingComplete
  dsimp only
  split
  case h_1 e => exact absurd e hdown
  case h_2 e => exact absurd e hactive
  case h_3 e => exact absurd e hlow
  case h_4 => rfl

theorem trainingComplete_spec (s : State) (d k lat : Nat) (h : (linkAt s d k).st ∉ [.down, .active, .lowpower]) :
    Completes (.linkTrainingComplete d k lat) s fun t => FabricOnly s t ∧ ∀ e ∈ bothEnds d k,
      (linkAt t e.1 e.2).st = trainedState s k ∧ (lat ≤ 255 → (linkAt t e.1 e.2).lat = lat) ∧ (linkAt t e.1 e.2).fails = 0 := by
  obtain ⟨hf, hl⟩ := trainExternal_spec (overLinks (trainedEnd (trainedState s k) lat) (bothEnds d k) s) k
  refine ⟨_, trainingComplete_eq h, fabricOnly_trans (overLinks_fabricOnly _ _ _) hf, fun e he => ?_⟩
  rw [hl e.1 e.2 (bothEnds_kind he)]
  exact overLinks_holds (P := fun m => m.st = trainedState s k ∧ (lat ≤ 255 → m.lat = lat) ∧ m.fails = 0)
    (fun _ _ => ⟨rfl, fun h => Nat.min_eq_left h, rfl⟩) _ s e.1 e.2 (.inl he)

/-- The n-th failure in succession: below three the link trains again, at three it is DOWN, and a bridge that goes DOWN in bring-up ends
bring-up in failure (R28). -/
theorem trainingFailure_eq {s : State} {d k n : Nat} (h : (linkAt s d k).st ∉ [.down, .active]) (hn : (linkAt s d k).fails + 1 = n) :
    exec (.linkTrainingFailure d k) s =
      let t := setEnds s d k (if n ≥ 3 then .down else .detect) (if n ≥ 3 then 0 else n)
      if n ≥ 3 ∧ k ≥ 8 ∧ ¬ t.mod.ready ∧ ¬ t.mod.fail then
        .next (notifyModule { t with mod := { t.mod with fail := true, failDie := d, failStage := t.mod.stage } } 0)
      else .next t := by
  have hst : ((s.die d).link k).st ∉ [LinkState.down, .active] := h
  simp only [List.mem_cons, List.not_mem_nil, or_false, not_or] at hst
  obtain ⟨hdown, hactive⟩ := hst
  subst hn
  show execLinkTrainingFailure d k s = _
  unfold execLinkTrainingFailure
  dsimp only
  split
  case h_1 e => exact absurd e hdown
  case h_2 =>
    rw [if_neg hactive]
    rfl

theorem trainingFailure_again {s : State} {d k : Nat} (h : (linkAt s d k).st ∉ [.down, .active]) (hf : (linkAt s d k).fails < 2) :
    exec (.linkTrainingFailure d k) s = .next (setEnds s d k .detect ((linkAt s d k).fails + 1)) := by
  have hn : ¬ (linkAt s d k).fails + 1 ≥ 3 := by omega
  rw [trainingFailure_eq h rfl]
  simp only [hn, false_and, if_false]

theorem trainingFailure_third {s : State} {d k : Nat} (h : (linkAt s d k).st ∉ [.down, .active]) (hf : (linkAt s d k).fails = 2) :
    exec (.linkTrainingFailure d k) s =
      if k ≥ 8 ∧ s.mod.ready = false ∧ s.mod.fail = false then
        .next (notifyModule { setEnds s d k .down 0 with mod := { s.mod with fail := true, failDie := d, failStage := s.mod.stage } } 0)
      else .next (setEnds s d k .down 0) := by
  have hn : (linkAt s d k).fails + 1 = 3 := by omega
  rw [trainingFailure_eq h hn]
  simp only [ge_iff_le, le_refl, if_true, true_and, setEnds_mod, Bool.not_eq_true]

/-- Bring-up and the notifications do not touch the links. -/
theorem linkAt_notifyFailure (t : State) (m : Module) (d k : Nat) : linkAt (notifyModule { t with mod := m } 0) d k = linkAt t d k := rfl

/-! ### A link trains again or wakes -/

theorem linkRetrain_eq {s : State} {d k : Nat} (h : (linkAt s d k).st = .active) (hr : 64 < (linkAt s d k).replays.length) :
    exec (.linkRetrain d k) s = .next (setEnds (leaveActive s d k) d k .detect 0) := by
  have hg : ¬ (((s.die d).link k).st ≠ .active ∨ ((s.die d).link k).replays.length ≤ 64) :=
    not_or.mpr ⟨fun hne => hne h, Nat.not_le.mpr hr⟩
  exact if_neg hg

theorem linkstatRetry_eq (s : State) (d k : Nat) :
    exec (.linkstatRetry d k) s = .next (setEnds (if (linkAt s d k).st = .active then leaveActive s d k else s) d k .detect 0) := rfl

theorem linkWake_eq {s : State} {d k w : Nat} (h : (linkAt s d k).st = .lowpower) (hw : (linkAt s d k).wakeAt = some w) (hg : w ≤ s.gtc) :
    exec (.linkWake d k) s = .next (withLink s d k { linkAt s d k with st := .active, wakeAt := none }) := by
  have hst : ((s.die d).link k).st = .lowpower := h
  have hwake : ((s.die d).link k).wakeAt = some w := hw
  show execLinkWake d k s = _
  simp only [execLinkWake, hst, hwake, if_neg (Nat.not_lt.mpr hg)]
  rfl

/-- Settles O7: an update of links reads back at both ends, and the circuits found crossing them are broken one after the other. -/
theorem linkEvents : Obligations.LinkEvents := by
  intro s d k _ _ l ends
  refine ⟨fun lat h => trainingComplete_spec s d k lat h, fun h => ⟨fun hf => ?_, fun hf hk => ?_, fun hf hk hr hm => ?_⟩, fun h hr => ?_, ?_,
    fun w h hw hg => linkWake_eq h hw hg⟩
  · exact ⟨_, trainingFailure_again h hf, setEnds_fabricOnly _ _ _ _ _, fun e hm => linkAt_setEnds s _ _ hm⟩
  · have hg : ¬ (k ≥ 8 ∧ s.mod.ready = false ∧ s.mod.fail = false) := by
      rintro ⟨h8, hr, -⟩
      exact hk.elim (Nat.not_lt.mpr h8) (by simp [hr])
    exact ⟨_, (trainingFailure_third h hf).trans (if_neg hg), setEnds_fabricOnly _ _ _ _ _, fun e hm => linkAt_setEnds s _ _ hm⟩
  · refine ⟨_, (trainingFailure_third h hf).trans (if_pos ⟨hk, hr, hm⟩), fun e he => ?_, rfl, ?_⟩
    · rw [linkAt_notifyFailure, linkAt_setEnds s _ _ he]
      rfl
    · obtain ⟨ds, e⟩ := setEnds_dies s d k .down 0
      rw [e]
      rfl
  · refine ⟨_, linkRetrain_eq h hr, fun e hm => ?_, circuitsBroken_setEnds (leaveActive_breaks s d k) _ _ _ _⟩
    rw [linkAt_setEnds _ _ _ hm]
    exact ⟨rfl, rfl⟩
  · refine ⟨_, linkstatRetry_eq s d k, fun e hm => ?_, fun h => circuitsBroken_setEnds ?_ _ _ _ _⟩
    · rw [linkAt_setEnds _ _ _ hm]
      exact ⟨rfl, rfl⟩
    · rw [if_pos h]
      exact leaveActive_breaks s d k

end Sys2Proof.Machine
end

