-- ==== Sys2Proof/Proofs/ModuleEvents.lean ====
section
/-! LAW. Reset, loss of power, bring-up, modes, thermal action and the weight-store refresh (R12, R14, R17 to R22, R26 to R31, R41, R75, R191). -/
namespace Sys2Proof.Machine
open Sys2Proof.Claims

/-! ### Reset and loss of power (R12, R26) -/

theorem powerOnReset_eq (s : State) :
    exec .powerOnReset s = .next (restart s { keepFuses s.mod Module.init with tripped := s.mod.vaux && s.mod.tripped }) := rfl

theorem powerRemoved_eq (s : State) :
    exec .powerRemoved s = .next (restart s { keepFuses s.mod Module.init with vaux := false, rails := false }) := rfl

theorem reset_and_powerRemoved (s : State) :
    Completes .powerOnReset s (fun t => t.gtc = 0 ∧ t.cores = [] ∧ t.dies = [] ∧ t.queues = [] ∧ t.launches = [] ∧ t.mod.ready = false ∧ t.mod.stage = 0 ∧
      t.mod.rails = true ∧ t.mod.tripped = (s.mod.vaux && s.mod.tripped) ∧ t.mod.keys = [] ∧ t.mod.flash = s.mod.flash ∧ t.mod.svnFused = s.mod.svnFused ∧
      t.mem = hostBytes s.mem) ∧
    Completes .powerRemoved s (fun t => t.mod.rails = false ∧ t.mod.vaux = false ∧ t.mod.tripped = false ∧ t.mod.ready = false ∧ t.cores = [] ∧ t.queues = [] ∧
      t.mod.flash = s.mod.flash ∧ t.mod.svnFused = s.mod.svnFused ∧ t.mem = hostBytes s.mem) :=
  ⟨⟨_, powerOnReset_eq s, rfl, rfl, rfl, rfl, rfl, rfl, rfl, rfl, rfl, rfl, rfl, rfl, rfl⟩,
    ⟨_, powerRemoved_eq s, rfl, rfl, rfl, rfl, rfl, rfl, rfl, rfl, rfl⟩⟩

/-! ### Bring-up (R26 to R31) -/

/-- Bring-up is under way: neither done nor failed, and the module has power. -/
def InBringup (s : State) : Prop := s.mod.ready = false ∧ s.mod.fail = false ∧ s.mod.rails = true

/-- The end of a stage that has not failed. -/
def stageDone (bad : List Nat) (s : State) : Host.Outcome State Fault Refusal :=
  execBringupStageEnd.go bad s.mod s fun s => withMod s { s.mod with stage := s.mod.stage + 1 }

theorem InBringup.not_over {s : State} (h : InBringup s) : ¬ (s.mod.ready = true ∨ s.mod.fail = true ∨ ¬ s.mod.rails = true) := by
  obtain ⟨hready, hfail, hrails⟩ := h
  simp [hready, hfail, hrails]

theorem bringupStageEnd_none {s : State} (h : InBringup s) (bad : List Nat) : exec (.bringupStageEnd bad none) s = stageDone bad s :=
  if_neg h.not_over

theorem bringupStageEnd_some {s : State} (h : InBringup s) (bad : List Nat) {d : Nat} (h1 : 1 ≤ s.mod.stage) (h6 : s.mod.stage ≠ 6) :
    exec (.bringupStageEnd bad (some d)) s = .next (bringupFail s d) := by
  have hs : ¬ (s.mod.stage = 0 ∨ s.mod.stage = 6) := by omega
  exact (if_neg h.not_over).trans (if_neg hs)

/-- Stages without an effect of their own: 0, 3, 4 and 5. -/
theorem stageDone_plain {s : State} (bad : List Nat) (h : s.mod.stage = 0 ∨ 3 ≤ s.mod.stage ∧ s.mod.stage ≤ 5) :
    stageDone bad s = .next (withMod s { s.mod with stage := s.mod.stage + 1 }) := by
  unfold stageDone execBringupStageEnd.go
  split
  · omega
  · omega
  · omega
  · omega
  · rfl

/-- Stage 1: the first image that passes runs, and the bridges begin to train. -/
def booted (s : State) (img : List Byte) : State :=
  trainLinks { s with mod := bootFrom s.mod s.free img, free := s.free + 1 } fun x => decide (x.2 ≥ 8)

theorem stageDone_boot {s : State} (bad : List Nat) (h : s.mod.stage = 1) {img : List Byte}
    (hi : [s.mod.flash.1, s.mod.flash.2].find? (imageOk s.mod) = some img) :
    stageDone bad s = .next (withMod (booted s img) { (booted s img).mod with stage := (booted s img).mod.stage + 1 }) := by
  unfold stageDone execBringupStageEnd.go
  simp only [h, hi]
  rfl

theorem booted_mod (s : State) (img : List Byte) : (booted s img).mod = bootFrom s.mod s.free img := by
  unfold booted
  obtain ⟨ds, e⟩ := trainLinks_dies { s with mod := bootFrom s.mod s.free img, free := s.free + 1 } fun x => decide (x.2 ≥ 8)
  rw [e]

theorem linkState_booted (s : State) (img : List Byte) {x : Nat × Nat} (hx : x ∈ moduleLinks) :
    linkState (booted s img) x = if 8 ≤ x.2 then .detect else linkState s x := by
  have h := linkAt_trainLinks { s with mod := bootFrom s.mod s.free img, free := s.free + 1 } (fun x => decide (x.2 ≥ 8)) x.1 x.2
  simp only [List.mem_filter, hx, true_and, decide_eq_true_eq, ge_iff_le] at h
  show (linkAt (booted s img) x.1 x.2).st = _
  unfold booted
  rw [h]
  split <;> rfl

theorem linkState_withMod (s : State) (m : Module) (x : Nat × Nat) : linkState (withMod s m) x = linkState s x := rfl

/-- Stage 2 is over when no link trains and no bridge is DOWN. -/
theorem stageDone_links {s : State} (bad : List Nat) (h : s.mod.stage = 2)
    (hl : ∀ x ∈ moduleLinks, linkState s x = .active ∨ linkState s x = .lowpower) :
    stageDone bad s = .next (withMod s { s.mod with stage := 3 }) := by
  have htrain : (moduleLinks.any fun x => inTraining (linkState s x)) = false := by
    refine List.any_eq_false.mpr fun x hx => ?_
    rcases hl x hx with e | e <;> simp [e, inTraining]
  have hdown : (moduleLinks.find? fun x => decide (x.2 ≥ 8) && linkState s x == .down) = none := by
    refine List.find?_eq_none.mpr fun x hx => ?_
    rcases hl x hx with e | e <;> simp [e]
  unfold stageDone execBringupStageEnd.go
  simp only [h, htrain, hdown, Bool.false_eq_true, if_false]

/-- Retiring the cores of a list retires each of them and keeps whoever was retired; memory and the failure bit stay. -/
theorem foldl_retireAtTest_spec (l : List Nat) (s : State) :
    let t := l.foldl retireAtTest s
    t.mod.stage = s.mod.stage ∧ t.mod.fail = s.mod.fail ∧ t.mem = s.mem ∧ ∀ i, i ∈ l ∨ i ∈ s.mod.retired → i ∈ t.mod.retired := by
  induction l generalizing s with
  | nil => exact ⟨rfl, rfl, rfl, fun _ h => h.resolve_left List.not_mem_nil⟩
  | cons a l ih =>
    obtain ⟨hstage, hfail, hmem, hret⟩ := ih (retireAtTest s a)
    have ha : (retireAtTest s a).mod.stage = s.mod.stage ∧ (retireAtTest s a).mod.fail = s.mod.fail ∧ (retireAtTest s a).mem = s.mem ∧
        ∀ i, i = a ∨ i ∈ s.mod.retired → i ∈ (retireAtTest s a).mod.retired := by
      unfold retireAtTest
      split
      · rename_i hc
        refine ⟨rfl, rfl, rfl, fun i h => h.elim (fun e => ?_) id⟩
        rw [e]
        exact List.contains_iff_mem.mp hc
      · exact ⟨rfl, rfl, rfl, fun i h => List.mem_append.mpr (h.symm.imp_right List.mem_singleton.mpr)⟩
    obtain ⟨ha1, ha2, ha3, ha4⟩ := ha
    refine ⟨hstage.trans ha1, hfail.trans ha2, hmem.trans ha3, fun i h => hret i ?_⟩
    rcases h with h | h
    · rcases List.mem_cons.mp h with e | h
      · exact .inr (ha4 i (.inl e))
      · exact .inl h
    · exact .inr (ha4 i (.inr h))

/-- Stage 6: the cores that failed their test. -/
def tested (bad : List Nat) (s : State) : State :=
  (bad.filter fun i => decide (i < 512) && decide (i % 64 < 48)).foldl retireAtTest s

theorem stageDone_tests {s : State} (bad : List Nat) (h : s.mod.stage = 6) :
    stageDone bad s = .next (withMod (tested bad s) { (tested bad s).mod with stage := (tested bad s).mod.stage + 1 }) := by
  unfold stageDone execBringupStageEnd.go
  simp only [h]
  rfl

theorem stageDone_memory {s : State} (bad : List Nat) (h : s.mod.stage = 7) : stageDone bad s = .next (initMemory s) := by
  unfold stageDone execBringupStageEnd.go
  simp only [h]

/-- A byte that a filter of the addresses leaves out reads 0. -/
theorem Memory.read_filter_out {m : Memory} {p : Nat → Bool} {a : Nat} (ha : p a = false) : Memory.read (m.filter fun c => p c.1) a = 0 := by
  rcases FMap.get_mem (0 : Byte) (m.filter fun c => p c.1) a with h | h
  · exact h
  · exact absurd (List.mem_filter.mp h).2 (by simp [ha])

/-- Below the host's memory nothing is kept (R12, R31). -/
theorem read_hostBytes_device (m : Memory) {a : Nat} (ha : a < maddr 3 0 0) : Memory.read (hostBytes m) a = 0 :=
  Memory.read_filter_out (p := fun x => decide (maddr 3 0 0 ≤ x) && decide (x < maddr 4 0 0)) (by
    rw [decide_eq_false (Nat.not_le.mpr ha), Bool.false_and])

/-! ### Modes and the throttle window (R14, R17 to R19) -/

theorem pwrmodeWrite_bad {s : State} {v : Word} (h : 5 ≤ (v.extractLsb' 0 3).toNat) :
    exec (.pwrmodeWrite v) s = .next (withMod s { s.mod with badw := true }) := if_pos h

theorem pwrmodeWrite_ok {s : State} {v : Word} (h : (v.extractLsb' 0 3).toNat < 5) :
    exec (.pwrmodeWrite v) s = .next (withMod s { s.mod with
      badw := s.mod.badw && !v.getLsbD 4, mode := v.extractLsb' 0 3, capw := v.extractLsb' 16 16, pend := true, pendAt := s.gtc }) :=
  if_neg (Nat.not_le.mpr h)

/-- Link power changes the dies alone. -/
theorem linkPower_dies (s : State) (mode : Nat) : DiesOnly s (linkPower s mode) := by
  refine diesOnly_foldl (fun s d => diesOnly_foldl (fun s k => ?_) _ s) _ s
  dsimp only
  split
  · split
    · exact ⟨_, rfl⟩
    · exact diesOnly_refl s
  · exact ⟨_, rfl⟩
  · exact diesOnly_refl s

/-- A pending mode or cap that this window does not bring into effect, or none (R17). -/
def ModeWaits (s : State) : Prop :=
  ¬ s.mod.pend = true ∨ ¬ s.mod.ready = true ∨ s.gtc ≤ s.mod.pendAt ∨ (s.mod.mode = 0 ∧ s.mod.active ≠ 0 ∧ anyActive s = true)

theorem modeChange_waits {s : State} (h : ModeWaits s) : modeChange s = s := if_pos h

/-- The mode and cap asked for take effect (R17), and the links are held or woken if the mode changes. -/
def modeSet (s : State) : State := withMod s { s.mod with pend := false, active := s.mod.mode, actCap := s.mod.capw }
def modeLinked (s : State) : State := if s.mod.mode = s.mod.active then modeSet s else linkPower (modeSet s) s.mod.mode.toNat

theorem modeChange_acts {s : State} (h : ¬ ModeWaits s) : ∃ ls, modeChange s = { modeLinked s with launches := ls } := ⟨_, if_neg h⟩

theorem modeLinked_dies (s : State) : DiesOnly (modeSet s) (modeLinked s) := by
  unfold modeLinked
  split
  · exact diesOnly_refl _
  · exact linkPower_dies _ _

/-- A mode that takes effect leaves memory and queues. -/
theorem modeChange_frame (s : State) : (modeChange s).mem = s.mem ∧ (modeChange s).queues = s.queues := by
  by_cases h : ModeWaits s
  · rw [modeChange_waits h]
    exact ⟨rfl, rfl⟩
  · obtain ⟨ls, e⟩ := modeChange_acts h
    obtain ⟨ds, e'⟩ := modeLinked_dies s
    rw [e, e']
    exact ⟨rfl, rfl⟩

/-- A core at the start of a throttle window: its count begins again (R14). -/
def freshWindow (c : Core) : Core := { c with maccs := 0, thrott := false }

theorem throttleWindowStart_eq (s : State) :
    exec .throttleWindowStart s = .next { modeChange s with cores := (modeChange s).cores.map fun p => (p.1, freshWindow p.2) } := rfl

theorem throttleWindow_spec (s : State) : Completes .throttleWindowStart s fun t => (∀ i, (t.core i).maccs = 0) ∧ t.mem = s.mem ∧ t.queues = s.queues ∧
    (s.mod.pend = false ∨ s.mod.ready = false → t.mod = s.mod) ∧
    (s.mod.pend = true → s.mod.ready = true → s.mod.pendAt < s.gtc → s.mod.mode ≠ 0 →
      t.mod.active = s.mod.mode ∧ t.mod.actCap = s.mod.capw ∧ t.mod.pend = false) := by
  obtain ⟨hmem, hqueues⟩ := modeChange_frame s
  refine ⟨_, throttleWindowStart_eq s, fun i => ?_, hmem, hqueues, fun h => ?_, fun hp hr hg hm => ?_⟩
  · exact congrArg Core.maccs (FMap.get_map Core.init freshWindow rfl (modeChange s).cores i)
  · have hw : ModeWaits s := h.imp (fun hp => by simp [hp]) fun hr => .inl (by simp [hr])
    show (modeChange s).mod = s.mod
    rw [modeChange_waits hw]
  · have hw : ¬ ModeWaits s := by
      rintro (h | h | h | h)
      · exact h hp
      · exact h hr
      · exact absurd hg (Nat.not_lt.mpr h)
      · exact hm h.1
    obtain ⟨ls, e⟩ := modeChange_acts hw
    obtain ⟨ds, e'⟩ := modeLinked_dies s
    rw [e, e']
    exact ⟨rfl, rfl, rfl⟩

/-! ### Thermal action (R20 to R22) -/

/-- The module's record after a sample, before a trip. -/
def sampled (m : Module) (x : Nat) : Module :=
  let limit := decide (x ≥ 105) || (m.limit && decide (x ≥ 100))
  { m with tmax := BitVec.ofNat 8 x, warn := m.warn || decide (x ≥ 95), limit := limit, limseen := m.limseen || limit }

/-- The machine after a sample, before a trip: a first warning is notified. -/
def warned (s : State) (x : Nat) : State :=
  if ((s.mod.warn || decide (x ≥ 95)) && !s.mod.warn) = true then notifyModule (withMod s (sampled s.mod x)) 1 else withMod s (sampled s.mod x)

theorem warned_frame (s : State) (x : Nat) :
    (warned s x).mod = sampled s.mod x ∧ (warned s x).gtc = s.gtc ∧ (warned s x).cores = s.cores ∧ (warned s x).mem = s.mem := by
  unfold warned
  split <;> exact ⟨rfl, rfl, rfl, rfl⟩

/-- What a trip leaves of the module: the fuses and what VAUX holds (R22). -/
def tripRecord (m : Module) : Module :=
  { keepFuses m Module.init with
    rails := false, tripped := true, tmax := m.tmax, warn := m.warn, limit := m.limit, limseen := m.limseen
    ready := m.ready, fail := m.fail, stage := m.stage, failDie := m.failDie, failStage := m.failStage, retired := m.retired }

theorem thermalSample_eq {s : State} (h : s.mod.rails = true) (x : Nat) : exec (.thermalSample x) s =
    if x < 115 then .next (warned s x)
    else .next { restart (warned s x) (tripRecord (sampled s.mod x)) with gtc := s.gtc, gtcStep := s.gtcStep, gtcStepAt := s.gtcStepAt } :=
  if_neg (not_not_intro h)

theorem thermalSample_spec (s : State) (x : Nat) (h : s.mod.rails = true) : Completes (.thermalSample x) s fun t =>
    t.mod.tmax = BitVec.ofNat 8 x ∧ t.gtc = s.gtc ∧
    t.mod.warn = (s.mod.warn || decide (95 ≤ x)) ∧ t.mod.limit = (decide (105 ≤ x) || (s.mod.limit && decide (100 ≤ x))) ∧
    t.mod.limseen = (s.mod.limseen || t.mod.limit) ∧
    (x < 115 → t.mod.rails = true ∧ t.mod.tripped = s.mod.tripped ∧ t.cores = s.cores ∧ t.mem = s.mem) ∧
    (115 ≤ x → t.mod.rails = false ∧ t.mod.tripped = true ∧ t.cores = [] ∧ t.queues = [] ∧ t.mod.keys = [] ∧ t.mem = hostBytes s.mem) := by
  obtain ⟨hmod, hgtc, hcores, hmem⟩ := warned_frame s x
  by_cases hx : x < 115
  · refine ⟨warned s x, (thermalSample_eq h x).trans (if_pos hx), ?_⟩
    dsimp only
    rw [hmod]
    exact ⟨rfl, hgtc, rfl, rfl, rfl, fun _ => ⟨h, rfl, hcores, hmem⟩, fun h' => absurd hx (Nat.not_lt.mpr h')⟩
  · exact ⟨_, (thermalSample_eq h x).trans (if_neg hx), rfl, rfl, rfl, rfl, rfl, fun h' => absurd h' hx,
      fun _ => ⟨rfl, rfl, rfl, rfl, rfl, congrArg hostBytes hmem⟩⟩

/-! ### Weight-store refresh (R191) -/

theorem weightStoreRefresh_in {s : State} {d b : Nat} (hb : b < 8) (hlo : 4096 * b ≤ s.gtc % 32768) (hhi : s.gtc % 32768 < 4096 * b + 512) :
    exec (.weightStoreRefresh d b) s = .next (s.setDie d { s.die d with wsRefresh := some b }) :=
  if_pos ⟨hlo, hhi, hb⟩

theorem weightStoreRefresh_out {s : State} {d b : Nat} (hout : s.gtc % 32768 < 4096 * b ∨ 4096 * b + 512 ≤ s.gtc % 32768)
    (hr : (s.die d).wsRefresh = some b) : exec (.weightStoreRefresh d b) s = .next (s.setDie d { s.die d with wsRefresh := none }) := by
  have hg : ¬ (4096 * b ≤ s.gtc % 32768 ∧ s.gtc % 32768 < 4096 * b + 512 ∧ b < 8) := by omega
  exact (if_neg hg).trans (if_pos hr)

end Sys2Proof.Machine

namespace Sys2Proof.Claims
open Sys2Proof.Machine

/-- Settles O1, event by event; a stage of bring-up by what its end does. -/
theorem moduleEvents : Obligations.ModuleEvents := by
  refine ⟨reset_and_powerRemoved, fun s bad hready hfail hrails => ?_, fun s v => ⟨pwrmodeWrite_bad, pwrmodeWrite_ok⟩, throttleWindow_spec,
    thermalSample_spec, fun s d b hb => ⟨weightStoreRefresh_in hb, weightStoreRefresh_out⟩⟩
  have hb : InBringup s := ⟨hready, hfail, hrails⟩
  have hend := bringupStageEnd_none hb bad
  refine ⟨fun d h1 h6 => ?_, fun h => hend.trans (stageDone_plain bad h), fun h img hi => ?_, fun h hl => hend.trans (stageDone_links bad h hl),
    fun h => ?_, fun h => ?_⟩
  · exact ⟨_, bringupStageEnd_some hb bad h1 h6, rfl, rfl, rfl, hready, rfl, rfl, rfl⟩
  · refine ⟨_, hend.trans (stageDone_boot bad h hi), ?_, fun x hx => (linkState_withMod _ _ x).trans (linkState_booted s img hx)⟩
    show { (booted s img).mod with stage := (booted s img).mod.stage + 1 } = _
    have hstage : (bootFrom s.mod s.free img).stage + 1 = 2 := congrArg (· + 1) h
    rw [booted_mod, hstage]
  · obtain ⟨hstage, hf, hmem, hret⟩ := foldl_retireAtTest_spec (bad.filter fun i => decide (i < 512) && decide (i % 64 < 48)) s
    refine ⟨_, hend.trans (stageDone_tests bad h), congrArg (· + 1) (hstage.trans h), hmem, hf.trans hfail, fun i hi h512 h48 => hret i (.inl ?_)⟩
    exact List.mem_filter.mpr ⟨hi, by simp [h512, h48]⟩
  · exact ⟨_, hend.trans (stageDone_memory bad h), rfl, rfl, rfl, rfl, fun _ ha => read_hostBytes_device s.mem ha, rfl⟩

end Sys2Proof.Claims
end

