-- ==== Sys2Proof/Proofs/RegisterEvents.lean ====
section
/-! LAW. Host writes of the register window and of the queue registers, the domain, the HDM ranges and the time exchange (R24, R29, R51, R53 to
R55, R63, R80, R406). -/
namespace Sys2Proof.Machine
open Sys2Proof.Claims

/-! ### The register window (R29, R53) -/

theorem registerWrite_unready {s : State} {port off n : Nat} {v : Word} (hp : s.mod.rails = true) (hr : s.mod.ready = false)
    (ho : off < 0x40 ∨ 0x48 < off + n) : exec (.registerWrite port off n v) s = .next (answers s (.unsupported port)) := by
  have hg : ¬ s.mod.ready = true ∧ ¬ (0x40 ≤ off ∧ off + n ≤ 0x48) := ⟨by simp [hr], by omega⟩
  exact (if_neg (not_not_intro hp)).trans (if_pos hg)

/-- The mask of n bytes. -/
def byteMask (n : Nat) : Word := BitVec.ofNat 64 (2 ^ (8 * n) - 1)

/-- A write within one register. -/
theorem registerWrite_one {s : State} {port off n : Nat} {v : Word} (hp : s.mod.rails = true)
    (ho : s.mod.ready = true ∨ 0x40 ≤ off ∧ off + n ≤ 0x48) (hn : off % 8 + n ≤ 8) : exec (.registerWrite port off n v) s =
      .next (answers (barWrite s port (off / 8 * 8) (v <<< (8 * (off % 8))) (byteMask n <<< (8 * (off % 8)))) (.done port)) := by
  have hg : ¬ (¬ s.mod.ready = true ∧ ¬ (0x40 ≤ off ∧ off + n ≤ 0x48)) := fun h => ho.elim h.1 h.2
  have hmin : min n 8 = n := by omega
  show execRegisterWrite port off n v s = _
  unfold execRegisterWrite
  rw [if_neg (not_not_intro hp), if_neg hg]
  dsimp only
  rw [if_pos hn, hmin]
  rfl

theorem barWrite_winctx (s : State) (port : Nat) (v : Word) :
    (barWrite s port 0x3008 v (byteMask 8)).mod.winctx = v &&& 0x00FFFF80000003FF#64 := by
  have hmask : byteMask 8 = BitVec.allOnes 64 := by decide
  show ((_ &&& ~~~byteMask 8) ||| (v &&& byteMask 8)) &&& _ = _
  rw [hmask, BitVec.not_allOnes, BitVec.and_zero, BitVec.zero_or, BitVec.and_allOnes]

theorem registerWrite_winctx {s : State} (hp : s.mod.rails = true) (hr : s.mod.ready = true) (port : Nat) (v : Word) :
    Completes (.registerWrite port 0x3008 8 v) s fun t => t.mod.winctx = v &&& 0x00FFFF80000003FF#64 := by
  refine ⟨_, registerWrite_one hp (.inl hr) (by decide), ?_⟩
  have ha : 0x3008 / 8 * 8 = 0x3008 := rfl
  have ho : 8 * (0x3008 % 8) = 0 := rfl
  rw [ha, ho, BitVec.shiftLeft_zero, BitVec.shiftLeft_zero]
  exact barWrite_winctx s port v

/-! ### Queue registers (R54, R55, R80) -/

/-- The configuration that a write of EN = 1 asks of a queue. -/
def GoodConfig (s : State) (x : Queue) : Prop :=
  12 ≤ x.size.toNat ∧ x.size.toNat ≤ 24 ∧ x.qbase.toNat % 2 ^ x.size.toNat = 0 ∧ ctxOk s x.qctx.toNat = true ∧ x.tail.toNat < 2 ^ (x.size.toNat - 3)

/-- The refusals of QUEUE_ENABLE are the breaches of it. -/
theorem goodConfig_iff (s : State) (x : Queue) : GoodConfig s x ↔ ¬ (x.size.toNat < 12 ∨ x.size.toNat > 24 ∨ x.qbase.toNat % 2 ^ x.size.toNat ≠ 0 ∨
    ¬ ctxOk s x.qctx.toNat = true ∨ x.tail.toNat ≥ 2 ^ (x.size.toNat - 3)) := by
  simp only [GoodConfig, not_or, not_not, Nat.not_lt, ge_iff_le, gt_iff_lt, Nat.not_le]

/-- A queue that has just been enabled: HEAD 0, its state zero. -/
def enabled (x : Queue) : Queue :=
  { x with en := true, head := 0, c := [], stack := [], abtsig := 0, hva := 0, hlen := 0, inHandler := false, abort := none
           out := x.out.map fun p => { p with rd := 0 } }

section
variable {s : State} {q : Nat} (hr : s.mod.ready = true) (hq : q < 64)
include hr hq

theorem queueEnable_opens (he : (s.queue q).en = false) : ¬ (¬ s.mod.ready = true ∨ (s.queue q).en = true ∨ q ≥ 64) := by
  simp [hr, he, hq]

theorem queueEnable_bad (he : (s.queue q).en = false) (hg : ¬ GoodConfig s (s.queue q)) :
    exec (.queueEnable q) s = .next (s.setQueue q { s.queue q with badcfg := true }) :=
  (if_neg (queueEnable_opens hr hq he)).trans (if_pos (not_not.mp fun h => hg ((goodConfig_iff s _).mpr h)))

theorem queueEnable_good (he : (s.queue q).en = false) (hg : GoodConfig s (s.queue q)) : exec (.queueEnable q) s =
    let s1 := dropUnits { s with ivals := FMap.erase s.ivals (ivalKey 4 q) } q
    .next (s1.setQueue q (enabled (s1.queue q))) :=
  (if_neg (queueEnable_opens hr hq he)).trans (if_neg ((goodConfig_iff s _).mp hg))

theorem queueEnable_spec (he : (s.queue q).en = false) (hg : GoodConfig s (s.queue q)) : Completes (.queueEnable q) s fun t =>
    (t.queue q).en = true ∧ (t.queue q).head = 0 ∧ (t.queue q).c = [] ∧ (t.queue q).stack = [] ∧ (t.queue q).tail = (s.queue q).tail ∧
      t.mem = s.mem ∧ t.cores = s.cores := by
  have hd : (dropUnits { s with ivals := FMap.erase s.ivals (ivalKey 4 q) } q).queue q = { s.queue q with far := [], seen := none } :=
    State.queue_setQueue_same _ _ _
  refine ⟨_, queueEnable_good hr hq he hg, ?_⟩
  dsimp only
  rw [State.queue_setQueue_same, hd]
  exact ⟨rfl, rfl, rfl, rfl, rfl, rfl, rfl⟩

end

theorem queueDisable_eq {s : State} (hr : s.mod.ready = true) (q : Nat) :
    exec (.queueDisable q) s = .next (s.setQueue q { s.queue q with en := false }) := if_neg (not_not_intro hr)

/-- A TAIL outside the ring, where SIZE is legal (R54). -/
def TailOut (x : Queue) (v : Word) : Prop := 12 ≤ x.size.toNat ∧ x.size.toNat ≤ 24 ∧ 2 ^ (x.size.toNat - 3) ≤ (v.extractLsb' 0 22).toNat

theorem queueDoorbell_out {s : State} (hr : s.mod.ready = true) {q : Nat} {v : Word} (h : TailOut (s.queue q) v) :
    exec (.queueDoorbell q v) s = .next (s.setQueue q { s.queue q with badtail := true }) :=
  (if_neg (not_not_intro hr)).trans (if_pos h)

theorem queueDoorbell_in {s : State} (hr : s.mod.ready = true) {q : Nat} {v : Word} (h : ¬ TailOut (s.queue q) v) :
    exec (.queueDoorbell q v) s = .next (s.setQueue q { s.queue q with tail := v.extractLsb' 0 22 }) :=
  (if_neg (not_not_intro hr)).trans (if_neg h)

/-! ### DOMCFG and HDMCFG (R63, R406) -/

theorem domcfgWrite_eq {s : State} {v : Word} (hq : ∀ q ∈ s.queues, q.2.en = false)
    (hp : (v.extractLsb' 4 4).getLsbD (v.extractLsb' 0 2).toNat = true) :
    exec (.domcfgWrite v) s = .next (withMod s { s.mod with modidx := v.extractLsb' 0 2, present := v.extractLsb' 4 4 }) := by
  have hany : (s.queues.any fun q => q.2.en) = false := List.any_eq_false.mpr fun q h => by simp [hq q h]
  have hg : ¬ ((s.queues.any fun q => q.2.en) = true ∨ ¬ (v.extractLsb' 4 4).getLsbD (v.extractLsb' 0 2).toNat = true) := by
    rw [hany, hp]
    decide
  exact if_neg hg

/-- What HDMCFG_WRITE looks up in the context table is what the statements call mapped. -/
theorem hdmMapped_iff (s : State) (port n : Nat) : ((List.range 512).any fun c => ctxV s c &&
    mapsPast s (portDie s port) (512000000000 - n * 2 ^ 30) 4 (ptrDie (ctxWord s c 1)) (ptrAddr (ctxWord s c 1))) = true ↔ hdmMapped s port n := by
  simp only [List.any_eq_true, List.mem_range, Bool.and_eq_true, hdmMapped]

/-- A size that HDMCFG refuses: too large, or over frames that a context maps. -/
def HdmRefused (s : State) (port n : Nat) : Prop := 476 < n ∨ 0 < n ∧ hdmMapped s port n

theorem hdmcfgWrite_refused {s : State} {port : Nat} {w : Word} (h : HdmRefused s port (w.extractLsb' 30 10).toNat) :
    exec (.hdmcfgWrite port w) s = .next s :=
  if_pos (.inr (h.imp_right fun h => ⟨h.1, (hdmMapped_iff s port _).mpr h.2⟩))

theorem hdmcfgWrite_taken {s : State} {port : Nat} {w : Word} (hr : s.mod.ready = true) (h : ¬ HdmRefused s port (w.extractLsb' 30 10).toNat) :
    exec (.hdmcfgWrite port w) s = .next (withMod s
      (if port = 0 then { s.mod with hdm0 := (w.extractLsb' 30 10).toNat } else { s.mod with hdm4 := (w.extractLsb' 30 10).toNat })) :=
  if_neg fun hg => hg.elim (· hr) fun hg => h (hg.imp_right fun h => ⟨h.1, (hdmMapped_iff s port _).mp h.2⟩)

/-! ### Time synchronisation (R24, R51) -/

/-- What the exchange begins with on one link. -/
def askTime (s : State) (k : Nat) (l : Link) : Link :=
  if l.st = .active ∧ leadsHome s 0 k = true then { l with tpend := l.tpend ++ [(0, 0, 0, 0, 0)] } else l

/-- The step of the fold over the links. -/
def askStep (s : State) (m : FMap Link) (k : Nat) : FMap Link :=
  match FMap.find m k with
  | some l => if l.st = .active ∧ leadsHome s 0 k = true then FMap.put m k { l with tpend := l.tpend ++ [(0, 0, 0, 0, 0)] } else m
  | none => m

theorem find_askStep (s : State) (m : FMap Link) (j k : Nat) :
    FMap.find (askStep s m j) k = if k = j then (FMap.find m k).map (askTime s k) else FMap.find m k := by
  unfold askStep
  by_cases hk : k = j
  · subst hk
    rw [if_pos rfl]
    cases hf : FMap.find m k with
    | none => exact hf
    | some l =>
      dsimp only [Option.map_some, askTime]
      split
      · rw [FMap.find_put, if_pos rfl]
      · exact hf
  · rw [if_neg hk]
    split
    · split
      · rw [FMap.find_put, if_neg hk]
      · rfl
    · rfl

theorem timeSyncSend_eq {s : State} (h : isMaster s = true) :
    exec .timeSyncSend s = .next (s.setDie 0 { s.die 0 with links := (List.range 8).foldl (askStep s) (s.die 0).links }) :=
  if_neg (not_not_intro h)

theorem find_foldl_askStep (s : State) {l : List Nat} (hl : l.Nodup) (m : FMap Link) (k : Nat) :
    FMap.find (l.foldl (askStep s) m) k = if k ∈ l then (FMap.find m k).map (askTime s k) else FMap.find m k := by
  induction l generalizing m with
  | nil => rfl
  | cons a l ih =>
    obtain ⟨ha, hl⟩ := List.nodup_cons.mp hl
    rw [List.foldl_cons, ih hl, find_askStep]
    by_cases hk : k = a
    · subst hk
      simp [ha]
    · simp [hk]

theorem timeSyncSend_spec {s : State} (h : isMaster s = true) : Completes .timeSyncSend s fun t => ∀ k l, k < 8 → FMap.find (s.die 0).links k = some l →
    FMap.find (t.die 0).links k = some (askTime s k l) := by
  refine ⟨_, timeSyncSend_eq h, fun k l hk hl => ?_⟩
  rw [State.die_setDie_same]
  dsimp only
  rw [find_foldl_askStep s List.nodup_range, if_pos (List.mem_range.mpr hk), hl]
  rfl

/-- The machine in which die 0 owes a time message on one of its links. -/
def timeReply (s : State) (k : Nat) (x : Nat × Word × Word × Word × Word) : State :=
  withLink s 0 k { linkAt s 0 k with tpend := (linkAt s 0 k).tpend ++ [x] }

theorem tpend_timeReply (s : State) (k : Nat) (x : Nat × Word × Word × Word × Word) :
    (((timeReply s k x).die 0).link k).tpend = ((s.die 0).link k).tpend ++ [x] := by
  show (linkAt (timeReply s k x) 0 k).tpend = _
  unfold timeReply
  rw [linkAt_withLink, if_pos ⟨rfl, rfl⟩]
  rfl

theorem timeSyncReceive_first (s : State) (k : Nat) (t1 t2 t3 t4 : Word) :
    exec (.timeSyncReceive ⟨k, 0⟩ t1 t2 t3 t4) s = .next (timeReply s k (1, t1, BitVec.ofNat 64 s.gtc, 0, 0)) := rfl

theorem timeSyncReceive_second (s : State) (k : Nat) (t1 t2 t3 t4 : Word) :
    exec (.timeSyncReceive ⟨k, 1⟩ t1 t2 t3 t4) s = .next (timeReply s k (2, t1, t2, t3, BitVec.ofNat 64 s.gtc)) := rfl

/-- The slave may correct its time: the last step is done, and 65 536 cycles old (R24). -/
def MayCorrect (s : State) : Prop := isMaster s = false ∧ s.gtcStep = 0 ∧ (s.gtcStepAt = 0 ∨ s.gtcStepAt + 65536 ≤ s.gtc)

theorem timeSyncReceive_third {s : State} (h : MayCorrect s) (k : Nat) (t1 t2 t3 t4 : Word) :
    exec (.timeSyncReceive ⟨k, 2⟩ t1 t2 t3 t4) s =
      let off : Int := ((t2 - t1).toInt - (t4 - t3).toInt) / 2
      if off ≤ -2 then .next { s with gtcStep := 2, gtcStepAt := s.gtc }
      else if off ≥ 2 then .next { s with gtcStep := 1, gtcStepAt := s.gtc }
      else .next s := by
  obtain ⟨hm, hstep, hat⟩ := h
  have hg : ¬ (isMaster s = true ∨ s.gtcStep ≠ 0 ∨ (s.gtcStepAt ≠ 0 ∧ s.gtc < s.gtcStepAt + 65536)) := by
    rintro (h | h | ⟨h0, hlt⟩)
    · exact Bool.false_ne_true (hm.symm.trans h)
    · exact h hstep
    · omega
  exact if_neg hg

/-- Settles O2, register by register. -/
theorem registerEvents : Obligations.RegisterEvents := by
  refine ⟨fun s port off n v hp => ⟨registerWrite_unready hp, registerWrite_one hp, fun hr hn ho => ?_⟩, fun s q hr hq => ?_,
    fun s v => domcfgWrite_eq, fun s w hr h0 => ?_, fun s w hr => ?_, fun s => timeSyncSend_spec, fun s k t1 t2 t3 t4 => ?_⟩
  · subst hn ho
    exact registerWrite_winctx hp hr port v
  · exact ⟨queueEnable_spec hr hq, queueEnable_bad hr hq, queueDisable_eq hr q, fun v => ⟨queueDoorbell_out hr, queueDoorbell_in hr⟩⟩
  · have hfree : ∀ port, ¬ HdmRefused s port (w.extractLsb' 30 10).toNat := fun port => by simp [HdmRefused, h0]
    have e0 := hdmcfgWrite_taken (port := 0) hr (hfree 0)
    have e1 := hdmcfgWrite_taken (port := 1) hr (hfree 1)
    rw [h0] at e0 e1
    exact ⟨e0, e1⟩
  · have hok : ∀ port, (w.extractLsb' 30 10).toNat ≤ 476 → ¬ hdmMapped s port (w.extractLsb' 30 10).toNat →
        ¬ HdmRefused s port (w.extractLsb' 30 10).toNat := fun port hn hm h => h.elim (Nat.not_lt.mpr hn) fun h => hm h.2
    exact ⟨fun hn hm => hdmcfgWrite_taken hr (hok 0 hn hm), fun hn hm => hdmcfgWrite_taken hr (hok 1 hn hm), fun port => hdmcfgWrite_refused⟩
  · refine ⟨⟨_, timeSyncReceive_first s k t1 t2 t3 t4, tpend_timeReply s k _⟩, ⟨_, timeSyncReceive_second s k t1 t2 t3 t4, tpend_timeReply s k _⟩,
      fun hm hs ha => ?_⟩
    have e := timeSyncReceive_third ⟨hm, hs, ha⟩ k t1 t2 t3 t4
    intro off
    refine ⟨fun hlo => e.trans (if_pos hlo), fun hhi => ?_⟩
    have hlo : ¬ off ≤ -2 := by omega
    exact e.trans ((if_neg hlo).trans (if_pos hhi))

end Sys2Proof.Machine
end

