-- ==== Sys2Proof/Proofs/MatrixResults.lean ====
section
/-! LAW. Lane X: what mpush, mscale, mcfg and macc queue at their latency (R13, R14, R160, R344, R345, R347, R351). -/
namespace Sys2Proof.Machine
open Sys2Proof.Claims

/-- An operation that acts and whose body succeeds leaves what the body makes of the issuing core. -/
theorem laneStep_leaves {s : State} {pr : BitVec 6} {body : Cursor → Core → LM Core} {c : Core} (h : Acts s pr)
    (hb : body s.cur (here s) = .ok c) : laneStep s pr body = leaves s c :=
  laneStep_acts h hb

theorem mpushBody_ok {f : XP} {cu : Cursor} {c c1 c2 : Core} {a b : VWord} (ha : pushOperand cu c f.va (f.pa = 1) 0 = .ok (a, c1))
    (hb : pushOperand cu c1 f.vb (f.pb = 1) 1 = .ok (b, c2)) : mpushBody f cu c = .ok (emit cu 1 (.stage (.push a b)) c2) := by
  simp only [mpushBody, ha, hb, LM_bind_ok]

/-- Bit 0 of the argument of mscale names the side (R345). -/
theorem mscaleBody_ok {f : XS} {sideB : Bool} (cu : Cursor) (c : Core) (h8 : f.arg.toNat < 8) (hs : f.arg.getLsbD 0 = sideB) :
    mscaleBody f sideB cu c = .ok (emit cu 1 (.stage (.scale sideB (f.arg.toNat / 2) (readV c f.src.toNat))) c) := by
  have hn : (decide (f.arg.toNat < 8) && (f.arg.getLsbD 0 == sideB)) = true := by
    rw [hs, beq_self_eq_true, decide_eq_true h8, Bool.and_self]
  simp only [mscaleBody, need_ok hn, LM_bind_ok]

theorem mcfgBody_ok {f : XS} (cu : Cursor) (c : Core) (h4 : f.arg.toNat < 4) (hv : ecValid ((readV c f.src.toNat).setWidth 2048) = true) :
    mcfgBody f cu c = .ok (emit cu 1 (.ecfg f.arg.toNat ((readV c f.src.toNat).setWidth 2048)) c) := by
  have hn : (decide (f.arg.toNat < 4) && ecValid ((readV c f.src.toNat).setWidth 2048)) = true := by simp [h4, hv]
  simp only [mcfgBody, need_ok hn, LM_bind_ok]

/-- The fields of macc are legal: the beat's format and sub-beat, and no block phase but for mx4 (R347, R268). -/
def MaccLegal (f : XT) (c : Core) : Prop :=
  let fm := f.arg.toNat / 16 % 16
  let sub := f.arg.toNat / 256 % 4
  f.arg.toNat < 1024 ∧ fm ≠ 15 ∧ (7 ≤ fm → sub ≤ 4 / fmK fm - 1) ∧ (fm < 7 → sub = 0) ∧ (fm ≠ 6 → tilePhase c f.tile.toNat = 0)

/-- The strand after a beat on tile t: its block phase advances if the format is mx4 (R268). -/
def afterBeat (fm t : Nat) (c : Core) : Arch :=
  if fm = 6 then { c.arch with phase := FMap.set 0 c.arch.phase t (if tilePhase c t = 7 then 0 else tilePhase c t + 1) } else c.arch

theorem maccBody_ok {f : XT} {limit : Nat} {cu : Cursor} {c c1 : Core} (hf : MaccLegal f c) (hl : c.maccs < limit)
    (ht : touchTile cu c f.tile.toNat true = .ok c1) :
    let a := FMap.get StageLevel.zero c1.arch.stage (f.arg.toNat % 4)
    let b := FMap.get StageLevel.zero c1.arch.stage (f.arg.toNat / 4 % 4)
    let t := f.tile.toNat
    let fm := f.arg.toNat / 16 % 16
    maccBody f limit cu c = .ok (emit cu 8 (.beat t fm (f.arg.toNat / 256 % 4) a.a b.b a.sa b.sb (tilePhase c1 t = 7))
      { c1 with maccs := c1.maccs + 1, arch := afterBeat fm t c1 }) := by
  obtain ⟨hw, hfm, hsub, hsub0, hph⟩ := hf
  intro a b t fm
  have hn : (decide (f.arg.toNat < 1024) && decide (fm ≠ 15) &&
      (if fm ≥ 7 then decide (f.arg.toNat / 256 % 4 ≤ 4 / fmK fm - 1) else decide (f.arg.toNat / 256 % 4 = 0)) &&
      (fm == 6 || decide (tilePhase c t = 0))) = true := by
    simp only [Bool.and_eq_true, Bool.or_eq_true, decide_eq_true_eq, beq_iff_eq]
    refine ⟨⟨⟨hw, hfm⟩, ?_⟩, or_iff_not_imp_left.mpr hph⟩
    split
    · exact decide_eq_true (hsub ‹_›)
    · exact decide_eq_true (hsub0 (Nat.lt_of_not_le ‹_›))
  have hnl : ¬ c.maccs ≥ limit := Nat.not_le.mpr hl
  unfold maccBody
  dsimp only
  rw [need_ok hn]
  simp only [LM_bind_ok, if_neg hnl, ht, decide_eq_true_eq]
  rfl

/-- Settles O23, by what the body of each operation of lane X answers on legal operands. -/
theorem matrixResults : Obligations.MatrixResults := by
  refine ⟨fun f s a b c1 c2 hp ha hb => laneStep_leaves hp (mpushBody_ok ha hb), fun f s hp h8 => ⟨fun he => ?_, fun ho => ?_⟩,
    fun f s hp h4 hv => laneStep_leaves hp (mcfgBody_ok s.cur (here s) h4 hv), ?_⟩
  · exact laneStep_leaves hp (mscaleBody_ok s.cur (here s) h8 (by simp [BitVec.getLsbD, Nat.testBit_zero, he]))
  · exact laneStep_leaves hp (mscaleBody_ok s.cur (here s) h8 (by simp [BitVec.getLsbD, Nat.testBit_zero, ho]))
  · intro f s c1 hp fm sub t ph hw hfm hsub hsub0 hph hl ht a b
    exact ⟨afterBeat fm t c1, fun h => if_neg h, fun h => if_pos h,
      laneStep_leaves hp (maccBody_ok (c := here s) ⟨hw, hfm, hsub, hsub0, hph⟩ hl ht)⟩

end Sys2Proof.Machine
end

