-- ==== Sys2Proof/Proofs/ResetState.lean ====
section
/-! LAW. The machine right after reset (R16 to R18, R23, R26, R30, R43, R54, R71). -/
namespace Sys2Proof.Machine

/-- Settles O45: every part of the reset state is unlisted, so it reads as the value of an unlisted part. -/
theorem resetState : Obligations.ResetState := by
  refine ⟨⟨rfl, rfl, rfl, rfl, rfl, rfl, rfl⟩, fun _ => ⟨rfl, rfl, rfl, rfl, rfl, rfl⟩, fun _ => rfl, fun _ => rfl, fun _ _ => rfl,
    reset_memWf, rfl, fun _ => rfl⟩

end Sys2Proof.Machine
end

