-- ==== Sys2Proof/Proofs/SlotTableEvents.lean ====
section
/-! LAW. Loads of slot tables at their target, their coming into force and their answers (R46, R98, R317). -/
namespace Sys2Proof.Machine
open Sys2Proof.Claims

/-! ### Arrival at the target (R46) -/

/-- The machine in which load k, which is x, has its answer. -/
def loadAnswered (s : State) (k : Nat) (x : SlotLoad) (a : Nat) : State :=
  { s with slotLoads := s.slotLoads.set k { x with ans := some a } }

/-- The machine in which the image of load x waits at its unit of die d for cycle t. -/
def tableWaits (s : State) (d : Nat) (x : SlotLoad) (t : Nat) : State :=
  s.setDie d { s.die d with slotTabs := FMap.put (s.die d).slotTabs x.unit { (s.die d).slotTab x.unit with
    next := ((s.die d).slotTab x.unit).next ++ [(t, x.img)] } }

section
variable {s : State} {k d : Nat} {x : SlotLoad} (hx : s.slotLoads[k]? = some x) (ha : x.ans = none) (hd : localDie s x.die = some d)
include hx ha hd

/-- A load that has come to a die of the module: the refusals in their order, then the time. -/
theorem slotTableLoadArrive_eq : exec (.slotTableLoadArrive k) s =
    if ¬ unitExists d x.unit = true ∨ x.unit > 58 then .next (loadAnswered s k x 3)
    else if x.t % 256 ≠ 0 ∨ ¬ slotTableOk d x.unit x.img = true then .next (loadAnswered s k x 1)
    else .next (loadAnswered (tableWaits s d x (if decide (x.t ≤ s.gtc) = true then (s.gtc / 256 + 1) * 256 else x.t)) k x
      (if decide (x.t ≤ s.gtc) = true then 2 else 0)) := by
  have hn : ¬ x.ans.isSome = true := by simp [ha]
  show execSlotTableLoadArrive k s = _
  unfold execSlotTableLoadArrive
  simp only [hx, hd]
  rw [if_neg hn]
  rfl

theorem slotTableLoadArrive_absent (h : unitExists d x.unit = false ∨ 58 < x.unit) :
    exec (.slotTableLoadArrive k) s = .next (loadAnswered s k x 3) := by
  rw [slotTableLoadArrive_eq hx ha hd, if_pos (h.imp_left (by simp [·]))]

variable (hu : unitExists d x.unit = true) (h58 : x.unit ≤ 58)
include hu h58

theorem slotTableLoadArrive_bad (h : x.t % 256 ≠ 0 ∨ slotTableOk d x.unit x.img = false) :
    exec (.slotTableLoadArrive k) s = .next (loadAnswered s k x 1) := by
  have hg : ¬ (¬ unitExists d x.unit = true ∨ x.unit > 58) := by simp [hu, h58]
  rw [slotTableLoadArrive_eq hx ha hd, if_neg hg, if_pos (h.imp_right (by simp [·]))]

theorem slotTableLoadArrive_taken (ht : x.t % 256 = 0) (hok : slotTableOk d x.unit x.img = true) : exec (.slotTableLoadArrive k) s =
    .next (loadAnswered (tableWaits s d x (if decide (x.t ≤ s.gtc) = true then (s.gtc / 256 + 1) * 256 else x.t)) k x
      (if decide (x.t ≤ s.gtc) = true then 2 else 0)) := by
  have hg : ¬ (¬ unitExists d x.unit = true ∨ x.unit > 58) := by simp [hu, h58]
  have hg' : ¬ (x.t % 256 ≠ 0 ∨ ¬ slotTableOk d x.unit x.img = true) := by simp [ht, hok]
  rw [slotTableLoadArrive_eq hx ha hd, if_neg hg, if_neg hg']

theorem slotTableLoadArrive_late (ht : x.t % 256 = 0) (hok : slotTableOk d x.unit x.img = true) (hlt : x.t < s.gtc) :
    exec (.slotTableLoadArrive k) s = .next (loadAnswered (tableWaits s d x ((s.gtc / 256 + 1) * 256)) k x 2) := by
  have hl : decide (x.t ≤ s.gtc) = true := decide_eq_true hlt.le
  rw [slotTableLoadArrive_taken hx ha hd hu h58 ht hok, if_pos hl, if_pos hl]

theorem slotTableLoadArrive_early (ht : x.t % 256 = 0) (hok : slotTableOk d x.unit x.img = true) (hlt : s.gtc < x.t) :
    exec (.slotTableLoadArrive k) s = .next (loadAnswered (tableWaits s d x x.t) k x 0) := by
  have hl : ¬ decide (x.t ≤ s.gtc) = true := by simp [hlt]
  rw [slotTableLoadArrive_taken hx ha hd hu h58 ht hok, if_neg hl, if_neg hl]

end

/-! ### Coming into force, and the answer (R46, R98, R317) -/

theorem slotTableActivate_eq {s : State} {d u t : Nat} {img : FMap (BitVec 128)} (h : nextTab ((s.die d).slotTab u).next = some (t, img))
    (ht : t ≤ s.gtc) : exec (.slotTableActivate d u) s = .next (s.setDie d { s.die d with
      slotTabs := FMap.put (s.die d).slotTabs u { now := img, next := ((s.die d).slotTab u).next.erase (t, img) } }) := by
  show execSlotTableActivate d u s = _
  unfold execSlotTableActivate
  simp only [h]
  exact if_neg (Nat.not_lt.mpr ht)

theorem slotTableLoadAnswer_queue {s : State} {k a q num : Nat} {x : SlotLoad} (hx : s.slotLoads[k]? = some x) (ha : x.ans = some a)
    (hsrc : x.src = .inl (q, num)) : exec (.slotTableLoadAnswer k) s =
      .next (completePkt { s with slotLoads := s.slotLoads.eraseIdx k } q num (some (BitVec.ofNat 64 a))) := by
  show execSlotTableLoadAnswer k s = _
  simp only [execSlotTableLoadAnswer, hx, ha, hsrc]

theorem slotTableLoadAnswer_core {s : State} {k a i dst n : Nat} {x : SlotLoad} (hx : s.slotLoads[k]? = some x) (ha : x.ans = some a)
    (hsrc : x.src = .inr i) (hw : (s.core i).waits = [.slotld dst n]) : exec (.slotTableLoadAnswer k) s =
      .next (State.setCore { s with slotLoads := s.slotLoads.eraseIdx k } i { s.core i with
        waits := [], arch := ((s.core i).arch.setS dst (BitVec.ofNat 64 a)).setLatch 0 (BitVec.ofNat 512 a) }) := by
  have hcore : State.core { s with slotLoads := s.slotLoads.eraseIdx k } i = s.core i := rfl
  show execSlotTableLoadAnswer k s = _
  simp only [execSlotTableLoadAnswer, hx, ha, hsrc, hcore, hw, List.find?_cons_of_pos, List.erase_cons_head]

/-- Settles O5: the refusals at the target in their order, the earliest waiting table, and the two who may wait for an answer. -/
theorem slotTableEvents : Obligations.SlotTableEvents := by
  refine ⟨fun s k d x hx ha hd => ⟨slotTableLoadArrive_absent hx ha hd, fun hu h58 => ⟨slotTableLoadArrive_bad hx ha hd hu h58, fun ht hok =>
      ⟨slotTableLoadArrive_late hx ha hd hu h58 ht hok, slotTableLoadArrive_early hx ha hd hu h58 ht hok⟩⟩⟩,
    fun s d u t img => slotTableActivate_eq, fun s k a x hx ha => ⟨fun q num => slotTableLoadAnswer_queue hx ha,
      fun i dst n => slotTableLoadAnswer_core hx ha⟩⟩

end Sys2Proof.Machine
end

