-- ==== Sys2Proof/Proofs/FencesAndSlotTableLoads.lean ====
section
/-! LAW. Fences and slotld at a checkpoint bundle hold the core; an empty slot does nothing (R46, R229 to R232, R279, R317, R396). -/
namespace Sys2Proof.Machine
open Sys2Proof.Claims

/-! ### Fences (R229 to R232) -/

section
variable {f : MX} {cu : Cursor} (c : Core) (hck : cu.ckpt = true) (hdt : f.dt = 0) (hbs : f.bs = 0) (hws : f.ws = 0)
include hck hdt hbs hws

theorem fenceBody_ok (hix : f.ix = 0) (hfn : f.fn.toNat ≤ 4) : fenceBody f cu c = .ok (withWait c (.fence f.fn.toNat)) := by
  have hn : (cu.ckpt && f.dt = 0 && f.bs = 0 && f.ix = 0 && decide (f.fn.toNat ≤ 4) && f.ws = 0) = true := by
    simp [hck, hdt, hbs, hws, hix, hfn]
  unfold fenceBody
  rw [need_ok hn]
  rfl

theorem flushBody_ok (hix : f.ix = 0) (hfn : f.fn = 0) : flushBody f cu c = .ok (withWait c .flush) := by
  have hn : (cu.ckpt && f.dt = 0 && f.bs = 0 && f.ix = 0 && f.fn = 0 && f.ws = 0) = true := by simp [hck, hdt, hbs, hws, hix, hfn]
  unfold flushBody
  rw [need_ok hn]
  rfl

/-- The scope, the set before the fence and the set behind it (R231). -/
theorem fencexBody_ok (hfn : f.fn.toNat < 64) (hsc : f.fn.toNat % 8 ≤ 4) (hp : f.fn.toNat / 8 ≠ 0) (hq : 0 < f.ix.toNat) (hq8 : f.ix.toNat < 8) :
    fencexBody f cu c = .ok (withWait c (.fencex (f.fn.toNat % 8) (f.fn.toNat / 8) f.ix.toNat)) := by
  have h8 : f.fn.toNat / 8 % 8 = f.fn.toNat / 8 := Nat.mod_eq_of_lt (by omega)
  have hn : (cu.ckpt && f.dt = 0 && f.bs = 0 && decide (f.fn.toNat < 64) && decide (f.fn.toNat % 8 ≤ 4) && decide (f.fn.toNat / 8 ≠ 0) &&
      decide (0 < f.ix.toNat) && decide (f.ix.toNat < 8) && f.ws = 0) = true := by
    simp only [hck, hdt, hbs, hws, hfn, hsc, hp, hq, hq8, ne_eq, not_false_eq_true, decide_true, Bool.and_self]
  unfold fencexBody
  dsimp only
  rw [h8, need_ok hn]
  rfl

end

/-! ### Slot-table loads of a core (R46, R317) -/

/-- A lane operation that also acts outside its core: the predicate holds and the body succeeds. -/
theorem laneStepS_acts {s t : State} {pr : BitVec 6} {body : Cursor → Core → LM State} (hp : Acts s pr) (hb : body s.cur (here s) = .ok t) :
    laneStepS s pr body = .next t := by
  have hp' : stagePred (s.core s.cur.core) pr = some true := hp
  have hb' : body s.cur (s.core s.cur.core) = .ok t := hb
  simp only [laneStepS, hp', hb']

/-- The unit a load names is one that can be asked: its die lies in the launch of core i, and has the unit where it is of this module. -/
def unitThere (s : State) (i j unit : Nat) : Bool :=
  inLaunch s i j && (match localDie s j with | some d => unitExists d unit | none => true)

theorem unitThere_iff (s : State) (i j unit : Nat) :
    unitThere s i j unit = true ↔ inLaunch s i j = true ∧ ∀ d, localDie s j = some d → unitExists d unit = true := by
  unfold unitThere
  cases localDie s j <;> simp

/-- The load a slotld sends: target and activation time from its operands, answered at once with 3 where its unit is not there. -/
def sentLoad (s : State) (i : Nat) (v t : Word) (img : Nat) : SlotLoad :=
  ⟨v.toNat % 32, v.toNat / 32 % 64, slotImage img, t.toNat, .inr i, if unitThere s i (v.toNat % 32) (v.toNat / 32 % 64) = true then none else some 3⟩

/-- The master that reads the image for a slotld: the issuing core. -/
def slotldMaster (s : State) (cu : Cursor) : MasterT := mUser.by 0 (cu.core + 64 * s.dieBase) (s.dieBase + cu.core / 64) (BitVec.ofNat 64 cu.pos)

/-- The fields of a slotld are legal: it stands in a checkpoint bundle, and its result goes to a register (R317). -/
def SlotldLegal (f : SC) (cu : Cursor) : Prop := cu.ckpt = true ∧ f.fn = 0 ∧ f.tgt.toNat / 128 < 64 ∧ f.tgt.toNat < 2 ^ 14

/-- The target operand names a unit number of Table 2.1 and an image in the address space. -/
def NamesUnit (v : Word) : Prop := v.getLsbD 11 = false ∧ v.toNat / 32 % 64 ≤ 58 ∧ v.toNat < 2 ^ 56

theorem slotldBody_ok {f : SC} {s s1 : State} {cu : Cursor} {c c1 c2 : Core} {v t : Word} {img : Nat} (hf : SlotldLegal f cu) (hu : NamesUnit v)
    (hv : resolveS cu f.sa c = .ok (v, c1)) (ht : resolveS cu (f.tgt.setWidth 7) c1 = .ok (t, c2))
    (hheld : vaHeld s cu.core c2.ctx (v.toNat / 4096 * 4096) 4096 (slotldMaster s cu) = false)
    (hread : vaRead s cu.core c2.ctx (v.toNat / 4096 * 4096) 4096 (slotldMaster s cu) = .ok (img, s1)) :
    slotldBody f s cu c = .ok { s1.setCore cu.core (withWait c2 (.slotld (mapReg c2.arch.rot (f.tgt.toNat / 128)) 0)) with
      slotLoads := s1.slotLoads ++ [sentLoad s1 cu.core v t img] } := by
  obtain ⟨hck, hfn, hdst, htgt⟩ := hf
  obtain ⟨h11, hunit, hrange⟩ := hu
  have hfields : (cu.ckpt && f.fn = 0 && decide (f.tgt.toNat < 2 ^ 14) && decide (f.tgt.toNat / 128 < 64)) = true := by
    simp only [hck, hfn, htgt, hdst, decide_true, Bool.and_self]
  have hnamed : (!v.getLsbD 11 && decide (v.toNat / 32 % 64 ≤ 58)) = true := by simp only [h11, hunit, decide_true, Bool.not_false, Bool.and_self]
  have hva : ¬ v.toNat / 4096 * 4096 ≥ 2 ^ 56 := by omega
  have hheld' : ¬ vaHeld s cu.core c2.ctx (v.toNat / 4096 * 4096) 4096 (slotldMaster s cu) = true := by simp [hheld]
  unfold slotldMaster at hheld' hread
  unfold slotldBody
  simp only [need_ok hfields, hv, ht, need_ok hnamed, LM_bind_ok, if_neg hva, if_neg hheld', hread]
  rfl

@[simp] theorem sentLoad_img (s : State) (i : Nat) (v t : Word) (img : Nat) : (sentLoad s i v t img).img = slotImage img := by
  simp only [sentLoad]

/-- What the answer of a load just sent says of its unit. -/
theorem sentLoad_ans (s : State) (i : Nat) (v t : Word) (img : Nat) :
    ((sentLoad s i v t img).ans = none ↔ unitThere s i (v.toNat % 32) (v.toNat / 32 % 64) = true) ∧
      ((sentLoad s i v t img).ans ≠ none → (sentLoad s i v t img).ans = some 3) := by
  unfold sentLoad
  split <;> simp_all

/-- Settles O32: what each body answers when its fields are legal. -/
theorem fencesAndSlotTableLoads : Obligations.FencesAndSlotTableLoads := by
  refine ⟨fun f s hp hdt hbs hws hck => ⟨fun hix hfn => ?_, fun hix hfn => ?_, fun hfn hsc hpset hq hq8 => ?_⟩, ?_, fun _ => rfl⟩
  · exact laneStep_leaves hp (fenceBody_ok _ hck hdt hbs hws hix hfn)
  · exact laneStep_leaves hp (flushBody_ok _ hck hdt hbs hws hix hfn)
  · exact laneStep_leaves hp (fencexBody_ok _ hck hdt hbs hws hfn hsc hpset hq hq8)
  · intro f s v t c1 c2 img s1 hp hck hfn hdst htgt hv ht h11 hunit hrange m hheld hread
    obtain ⟨hnone, hthree⟩ := sentLoad_ans s1 s.cur.core v t img
    have hbody := slotldBody_ok ⟨hck, hfn, hdst, htgt⟩ ⟨h11, hunit, hrange⟩ hv ht hheld hread
    exact ⟨sentLoad s1 s.cur.core v t img, laneStepS_acts hp hbody, rfl, rfl, sentLoad_img _ _ _ _ _, rfl, rfl,
      hnone.trans (unitThere_iff _ _ _ _), hthree⟩

end Sys2Proof.Machine
end

