-- ==== Sys2Proof/Proofs/FabricParts.lean ====
section
/-! SUPPORT. What routers, links and lanes read after updates of the fabric, and what a flit leaves with (R33, R36, R47). -/
namespace Sys2Proof.Machine
open Sys2Proof.Claims

/-! ### Parts of a die -/

@[simp] theorem Die.router_setRouter_same (y : Die) (u : Nat) (r : Router) : (y.setRouter u r).router u = r := by
  simp [Die.router, Die.setRouter, FMap.get_put]
@[simp] theorem Die.link_setRouter (y : Die) (u k : Nat) (r : Router) : (y.setRouter u r).link k = y.link k := rfl
@[simp] theorem Link.lane_setLane_same (l : Link) (n : Nat) (x : LaneSt) : (l.setLane n x).lane n = x := by
  simp [Link.lane, Link.setLane, FMap.get_put]

@[simp] theorem linkAt_withLink_same (s : State) (d k : Nat) (l : Link) : linkAt (withLink s d k l) d k = l := by
  rw [linkAt_withLink, if_pos ⟨rfl, rfl⟩]

/-- s with another router in a die. -/
def withRouter (s : State) (d u : Nat) (r : Router) : State := s.setDie d ((s.die d).setRouter u r)

@[simp] theorem router_withRouter_same (s : State) (d u : Nat) (r : Router) : ((withRouter s d u r).die d).router u = r := by
  unfold withRouter
  rw [State.die_setDie_same, Die.router_setRouter_same]
@[simp] theorem linkAt_withRouter (s : State) (d u : Nat) (r : Router) (k : Nat) : linkAt (withRouter s d u r) d k = linkAt s d k := by
  unfold linkAt withRouter
  rw [State.die_setDie_same, Die.link_setRouter]

/-! ### What changes the fabric alone -/

theorem diesOnly_fabricOnly {s t : State} (h : DiesOnly s t) : FabricOnly s t ∧ t.cores = s.cores := by
  obtain ⟨ds, rfl⟩ := h
  exact ⟨⟨rfl, rfl, rfl, rfl, rfl, rfl, rfl⟩, rfl⟩

theorem fabricOnly_setDie (s : State) (d : Nat) (y : Die) : FabricOnly s (s.setDie d y) := ⟨rfl, rfl, rfl, rfl, rfl, rfl, rfl⟩

theorem fabricOnly_pushEvs (s : State) (evs : List Instr) : FabricOnly s (pushEvs s evs) := ⟨rfl, rfl, rfl, rfl, rfl, rfl, rfl⟩

/-! ### Wires -/

theorem putWire_inside {s : State} {d u p ln d' u' p' ln' lat : Nat} (h : flitDest d u p ln = some (d', u', p', ln', lat)) (f : Flit) :
    putWire s d u p ln f = { s with wires := s.wires ++ [⟨s.gtc + lat, d', u', p', ln', f⟩] } := by
  simp only [putWire, h]

theorem putWire_outside {s : State} {d u p ln : Nat} (h : flitDest d u p ln = none) (f : Flit) :
    putWire s d u p ln f = { s with outbox := s.outbox ++ [(d, u - 48, f)] } := by
  simp only [putWire, h]

@[simp] theorem die_putWire (s : State) (d u p ln : Nat) (f : Flit) (e : Nat) : (putWire s d u p ln f).die e = s.die e := by
  unfold putWire
  split <;> rfl

theorem putWire_fabricOnly (s : State) (d u p ln : Nat) (f : Flit) : FabricOnly s (putWire s d u p ln f) := by
  unfold putWire
  split <;> exact ⟨rfl, rfl, rfl, rfl, rfl, rfl, rfl⟩

/-! ### Outputs used in a cycle -/

@[simp] theorem markUsed_wires (s : State) (d u : Nat) (ps : List Nat) : (markUsed s d u ps).wires = s.wires := rfl
@[simp] theorem markUsed_outbox (s : State) (d u : Nat) (ps : List Nat) : (markUsed s d u ps).outbox = s.outbox := rfl
theorem markUsed_fabricOnly (s : State) (d u : Nat) (ps : List Nat) : FabricOnly s (markUsed s d u ps) := fabricOnly_setDie _ _ _

@[simp] theorem linkAt_markUsed (s : State) (d u : Nat) (ps : List Nat) (k : Nat) : linkAt (markUsed s d u ps) d k = linkAt s d k :=
  linkAt_withRouter s d u _ k

@[simp] theorem be_markUsed (s : State) (d u : Nat) (ps : List Nat) :
    (((markUsed s d u ps).die d).router u).be = ((s.die d).router u).be := by
  unfold markUsed
  rw [State.die_setDie_same, Die.router_setRouter_same]

/-! ### Numbers of flits (R36) -/

/-- The FSEQ a flit leaves with is its number modulo 1024. -/
theorem flSeq_linkField (x : LaneSt) (gtc ftype circ n : Nat) : flSeq (linkField x gtc ftype circ n) = n % 1024 := by
  unfold flSeq linkField
  rw [BitVec.extractLsb'_toNat, BitVec.toNat_ofNat, Nat.shiftRight_zero]
  split <;> omega

/-- A flit that carries something leaves an output of a router: it takes the output's next number. -/
theorem emitFlit_router {b : Payload} (hb : bodyType b ≠ 0) {u : Nat} (hu : isEnd u = false) (s : State) (d p ln circ : Nat) :
    ∃ f r, emitFlit s d u p ln circ b = putWire (withRouter s d u r) d u p ln f ∧ f.body = b ∧
      flSeq f.link = (FMap.get 0 ((s.die d).router u).fseqs (outOf u p ln) + 1) % 1024 ∧ r.be = ((s.die d).router u).be := by
  have hn : ¬ (isEnd u = true ∧ p = 1) := by simp [hu]
  unfold emitFlit
  dsimp only
  rw [if_neg hn, if_neg hb]
  exact ⟨_, _, rfl, rfl, (flSeq_linkField _ _ _ _ _).trans (Nat.mod_mod _ _), rfl⟩

/-- Lane of a line that a flit of a lane uses: an external link has but one (R33). -/
def lineLane (u ln : Nat) : Nat := if u ≤ 55 then 0 else ln

/-- A flit that carries something leaves on a line: it takes the lane's next number, and is kept until it is acknowledged. -/
theorem emitFlit_line {b : Payload} (hb : bodyType b ≠ 0) {u : Nat} (hu : isEnd u = true) (s : State) (d ln circ : Nat) :
    ∃ f l, emitFlit s d u 1 ln circ b = putWire (withLink s d (linkOf u) l) d u 1 ln f ∧ f.body = b ∧
      flSeq f.link = (((linkAt s d (linkOf u)).lane (lineLane u ln)).fseq + 1) % 1024 ∧
      (l.lane (lineLane u ln)).unack = ((linkAt s d (linkOf u)).lane (lineLane u ln)).unack ++ [f] ∧
      l.dirty = (linkAt s d (linkOf u)).dirty ∧ l.lastFr = (linkAt s d (linkOf u)).lastFr := by
  unfold emitFlit
  dsimp only
  rw [if_pos ⟨hu, rfl⟩, if_neg hb, if_neg hb]
  refine ⟨_, _, rfl, rfl, (flSeq_linkField _ _ _ _ _).trans (Nat.mod_mod _ _), ?_, rfl, rfl⟩
  exact congrArg LaneSt.unack (Link.lane_setLane_same ((s.die d).link (linkOf u)) (lineLane u ln) _)

theorem emitFlit_fabricOnly (s : State) (d u p ln circ : Nat) (b : Payload) : FabricOnly s (emitFlit s d u p ln circ b) := by
  unfold emitFlit
  dsimp only
  split
  · exact fabricOnly_trans (fabricOnly_setDie _ _ _) (putWire_fabricOnly _ _ _ _ _ _)
  · exact fabricOnly_trans (fabricOnly_setDie _ _ _) (putWire_fabricOnly _ _ _ _ _ _)

/-- A flit that leaves a die after a change of it moves the fabric alone. -/
theorem sent_fabricOnly (s : State) (d : Nat) (y : Die) (u p ln circ : Nat) (b : Payload) (ps : List Nat) :
    FabricOnly s (markUsed (emitFlit (s.setDie d y) d u p ln circ b) d u ps) :=
  fabricOnly_trans (fabricOnly_setDie s d y) (fabricOnly_trans (emitFlit_fabricOnly _ _ _ _ _ _ _) (markUsed_fabricOnly _ _ _ _))

/-- The link of a line whose flit has just left. -/
theorem linkAt_sent (s : State) (d k : Nat) (l : Link) (u p ln : Nat) (f : Flit) (ps : List Nat) :
    linkAt (markUsed (putWire (withLink s d k l) d u p ln f) d u ps) d k = l := by
  rw [linkAt_markUsed]
  unfold linkAt
  rw [die_putWire]
  exact linkAt_withLink_same s d k l

end Sys2Proof.Machine
end

