-- ==== Sys2Proof/Proofs/FlitEvents.lean ====
section
/-! LAW. What an output sends, what an end takes in, what waits too long (R33, R36, R37, R45, R47, R48). -/
namespace Sys2Proof.Machine
open Sys2Proof.Claims

/-! ### Sending a packet of one flit (R36, R47) -/

/-- The router of a unit once the only flit of packet b has left on output o. -/
def packetGone (r : Router) (b : BePkt) (o : Nat) : Router := { r with be := r.be.erase b, out := FMap.erase r.out o }

theorem laneSend_best {s : State} {d u p ln : Nat} {b : BePkt} (h : pickOut s d u p ln = .best b 0 1) : laneSend d u p s ln =
    markUsed (emitFlit (withRouter s d u (packetGone ((s.die d).router u) b (outOf u p ln))) d u p b.lane 0 (.best b.p 0 1)) d u [outOf u p ln] := by
  unfold laneSend
  simp only [h]
  rfl

/-- A unit of one lane sends what that lane picks. -/
theorem flitSend_one {u : Nat} (hu : u < 56) (s : State) (d p : Nat) : exec (.flitSend d u p) s = .next (laneSend d u p s 0) := by
  have hl : lanesOf u = [0] := if_neg (by omega)
  show Host.Outcome.next (flitSend d u p s) = _
  unfold flitSend
  rw [hl]
  rfl

theorem flitSend_router {s : State} {d u p d' u' p' ln lat : Nat} {b : BePkt} (hu : u < 48) (h : pickOut s d u p 0 = .best b 0 1)
    (hd : flitDest d u p b.lane = some (d', u', p', ln, lat)) :
    Completes (.flitSend d u p) s fun t => (∃ f, t.wires = s.wires ++ [⟨s.gtc + lat, d', u', p', ln, f⟩] ∧ f.body = .best b.p 0 1 ∧
      flSeq f.link = (FMap.get 0 ((s.die d).router u).fseqs p + 1) % 1024) ∧ ((t.die d).router u).be = ((s.die d).router u).be.erase b ∧
      FabricOnly s t := by
  have hend : isEnd u = false := by simp [isEnd, hu]
  have hout : outOf u p b.lane = p := if_neg (by omega)
  let s1 := withRouter s d u (packetGone ((s.die d).router u) b (outOf u p 0))
  obtain ⟨f, r, he, hbody, hseq, hbe⟩ := emitFlit_router (b := .best b.p 0 1) two_ne_zero hend s1 d p b.lane 0
  rw [router_withRouter_same] at hseq hbe
  rw [hout] at hseq
  refine ⟨_, (flitSend_one (by omega) s d p).trans (congrArg _ (laneSend_best h)), ⟨f, ?_, hbody, hseq⟩, ?_, sent_fabricOnly _ _ _ _ _ _ _ _ _⟩
  · rw [he, markUsed_wires, putWire_inside hd]
    rfl
  · rw [he, be_markUsed, die_putWire, router_withRouter_same, hbe]
    rfl

/-- Link ends stand at units 48 to 58, link k at unit 48 + k (R43). -/
theorem isEnd_link {k : Nat} (hk : k ≤ 10) : isEnd (48 + k) = true := by
  simp only [isEnd, Bool.and_eq_true, decide_eq_true_eq]
  omega
@[simp] theorem linkOf_unit (k : Nat) : linkOf (48 + k) = k := Nat.add_sub_cancel_left 48 k

/-- The line of an external link leads out of the module. -/
theorem flitDest_external {k : Nat} (hk : k < 8) (d ln : Nat) : flitDest d (48 + k) 1 ln = none := by
  unfold flitDest
  rw [if_pos (isEnd_link (by omega)), if_neg one_ne_zero, if_pos (by omega)]

theorem flitSend_external {s : State} {d k : Nat} {b : BePkt} (hk : k < 8) (h : pickOut s d (48 + k) 1 0 = .best b 0 1) :
    Completes (.flitSend d (48 + k) 1) s fun t => ∃ f, t.outbox = s.outbox ++ [(d, k, f)] ∧ f.body = .best b.p 0 1 ∧
      flSeq f.link = (((linkAt s d k).lane 0).fseq + 1) % 1024 ∧ ((linkAt t d k).lane 0).unack = ((linkAt s d k).lane 0).unack ++ [f] ∧
      FabricOnly s t := by
  have hlane : lineLane (48 + k) b.lane = 0 := if_pos (by omega)
  let s1 := withRouter s d (48 + k) (packetGone ((s.die d).router (48 + k)) b (outOf (48 + k) 1 0))
  obtain ⟨f, l, he, hbody, hseq, hun, -, -⟩ := emitFlit_line (b := .best b.p 0 1) two_ne_zero (isEnd_link (k := k) (by omega)) s1 d b.lane 0
  rw [hlane, linkOf_unit, linkAt_withRouter] at hseq hun
  rw [linkOf_unit] at he
  refine ⟨_, (flitSend_one (by omega) s d 1).trans (congrArg _ (laneSend_best h)), f, ?_, hbody, hseq, ?_, sent_fabricOnly _ _ _ _ _ _ _ _ _⟩
  · rw [he, markUsed_outbox, putWire_outside (flitDest_external hk d b.lane), Nat.add_sub_cancel_left]
    rfl
  · rw [he, linkAt_sent, hun]

/-! ### Frontier flits (R47, R50) -/

/-- A link that has just sent its frontier flit: at most 29 of the entries owed have gone. -/
def frontierGone (l : Link) (gtc : Nat) : Link := { l with dirty := l.dirty.drop 29, lastFr := some gtc }

theorem frontierFlitSend_eq {s : State} {d k : Nat} (hd : (linkAt s d k).dirty ≠ []) (hst : (linkAt s d k).st = .active)
    (hf : frontierFree (48 + k) (linkAt s d k) s.gtc = true) : exec (.frontierFlitSend d k) s =
      .next (markUsed (emitFlit (withLink s d k (frontierGone (linkAt s d k) s.gtc)) d (48 + k) 1 0 0
        (.frontier (s.dieBase + d) (frontierEntries s d (linkAt s d k)))) d (48 + k) [1]) := by
  have hg : ¬ (((s.die d).link k).dirty = [] ∨ ((s.die d).link k).st ≠ .active ∨ ¬ frontierFree (48 + k) ((s.die d).link k) s.gtc = true) := by
    rintro (h | h | h)
    · exact hd h
    · exact h hst
    · exact h hf
  exact if_neg hg

theorem frontierFlitSend_spec {s : State} {d k : Nat} (hd : (linkAt s d k).dirty ≠ []) (hst : (linkAt s d k).st = .active)
    (hf : frontierFree (48 + k) (linkAt s d k) s.gtc = true) (hk : k ≤ 10) : Completes (.frontierFlitSend d k) s fun t =>
      FabricOnly s t ∧ (linkAt t d k).dirty = (linkAt s d k).dirty.drop 29 ∧ (linkAt t d k).lastFr = some s.gtc := by
  let s1 := withLink s d k (frontierGone (linkAt s d k) s.gtc)
  obtain ⟨f, l, he, -, -, -, hdirty, hlast⟩ := emitFlit_line (b := .frontier (s.dieBase + d) (frontierEntries s d (linkAt s d k)))
    three_ne_zero (isEnd_link hk) s1 d 0 0
  rw [linkOf_unit, linkAt_withLink_same] at hdirty hlast
  rw [linkOf_unit] at he
  refine ⟨_, frontierFlitSend_eq hd hst hf, sent_fabricOnly _ _ _ _ _ _ _ _ _, ?_⟩
  rw [he, linkAt_sent]
  exact ⟨hdirty, hlast⟩

/-! ### An end of an external link receives (R37, R50) -/

theorem flitReceive_external {k : Nat} (hk : k < 8) (s : State) (d p : Nat) (err : FlitErr) (f : Flit) :
    exec (.flitReceive d (48 + k) p err (some f)) s = .next (lineReceive s d (48 + k) 0 err f) :=
  if_pos ⟨by omega, by omega⟩

/-- A link that asks for a replay of what followed the last good flit of its lane 0, unless it has asked already. -/
def replayAsked (l : Link) (gtc : Nat) : Link :=
  if (l.lane 0).nak = true then l
  else { l.setLane 0 { l.lane 0 with nak := true, ahead := 1 } with
    replay := min (l.replay + 1) 65535, replays := gtc :: l.replays.filter fun g => decide (gtc < g + 2 ^ 20) }

theorem lineReceive_bad {k : Nat} (hk : k < 8) (s : State) (d ln : Nat) (f : Flit) :
    lineReceive s d (48 + k) ln .bad f = withLink s d k (replayAsked (linkAt s d k) s.gtc) := by
  have h55 : 48 + k ≤ 55 := by omega
  unfold lineReceive
  rw [linkOf_unit, if_pos h55]
  extract_lets
  rw [if_pos rfl]
  rfl

theorem replayAsked_spec (l : Link) (gtc : Nat) : ((replayAsked l gtc).lane 0).nak = true ∧ ((replayAsked l gtc).lane 0).got = (l.lane 0).got ∧
    (replayAsked l gtc).replay = if (l.lane 0).nak = true then l.replay else min (l.replay + 1) 65535 := by
  unfold replayAsked
  split
  · exact ⟨‹_›, rfl, rfl⟩
  · have hl : ∀ (x : LaneSt) (n : Nat) (g : List Nat), Link.lane { l.setLane 0 x with replay := n, replays := g } 0 = x := fun x _ _ =>
      Link.lane_setLane_same l 0 x
    rw [hl]
    exact ⟨rfl, rfl, rfl⟩

/-- What the partner acknowledges does not change what a lane has received. -/
@[simp] theorem takeAck_got (x : LaneSt) (f : BitVec 48) : (takeAck x f).got = x.got := by
  unfold takeAck
  dsimp only
  split
  · rfl
  · split <;> rfl

/-- The lane after the next numbered flit in order (R37). -/
def received (x : LaneSt) (seq : Nat) : LaneSt := { x with got := seq, ackOwed := true, nak := false, ahead := 0 }

/-- The lane once it has heard what a good flit says of its own flits: a request of the partner may stand for one that carried this end's. -/
def heard (x : LaneSt) (f : BitVec 48) : LaneSt :=
  if flNak f = true ∧ (takeAck x f).ahead ≠ 0 then { takeAck x f with nak := true } else takeAck x f

@[simp] theorem heard_got (x : LaneSt) (f : BitVec 48) : (heard x f).got = x.got := by
  unfold heard
  split
  · exact takeAck_got x f
  · exact takeAck_got x f

theorem lineReceive_frontier {k j : Nat} (hk : k < 8) {s : State} {d : Nat} {f : Flit} {es : List (Nat × Word)} (ht : flType f.link = 3)
    (hr : flRsvd f.link = 0) (hb : f.body = .frontier j es) (hs : flSeq f.link = (((linkAt s d k).lane 0).got + 1) % 1024) :
    lineReceive s d (48 + k) 0 .none f = pushEvs (withLink s d k ((linkAt s d k).setLane 0 (received (heard ((linkAt s d k).lane 0) f.link)
      (flSeq f.link)))) [.frontierFlitReceive d es] := by
  have h55 : 48 + k ≤ 55 := by omega
  have hidle : (flType f.link == 0) = false := by simp [ht]
  unfold lineReceive
  rw [linkOf_unit, if_pos h55]
  extract_lets link y ln old l nakNow x0 x idle n l1 circ l2
  rw [if_neg (by decide)]
  have hx : x = heard ((linkAt s d k).lane 0) f.link := rfl
  have hin : ¬ (¬ idle = true ∧ flSeq f.link ≠ (x.got + 1) % 1024) := by
    rw [hx, heard_got]
    exact fun h => h.2 hs
  have hl1 : l1 = (linkAt s d k).setLane 0 (received x (flSeq f.link)) := by
    simp only [l1, idle, hidle]
    rfl
  have hl2 : l2 = l1 := if_neg (by simp [ht])
  rw [if_neg hin, if_neg (by simp [ht, hr]), hl2, hl1, hx, hb]
  rfl

/-! ### What waits too long (R45, R48) -/

/-- Circuit flits at an input, those that have waited 256 cycles noted. -/
def noteMissed (gtc : Nat) (l : List CFlit) : List CFlit := l.map fun f => if f.due + 256 ≤ gtc then { f with missed := true } else f

/-- A flit that is noted stays the flit it was. -/
theorem noteMissed_flits (gtc : Nat) (l : List CFlit) : (noteMissed gtc l).map (fun f => (f.circ, f.ws)) = l.map fun f => (f.circ, f.ws) := by
  unfold noteMissed
  rw [List.map_map]
  refine List.map_congr_left fun f _ => ?_
  dsimp only [Function.comp]
  split <;> rfl

/-- A router whose circuit flits at input p have been looked at; its die, with FABERR set. -/
def missesNoted (r : Router) (p gtc : Nat) : Router := { r with circ := FMap.put r.circ p (noteMissed gtc (FMap.get [] r.circ p)) }
def missSeen (y : Die) (u p gtc : Nat) : Die := { y.setRouter u (missesNoted (y.router u) p gtc) with slotmiss := true }

theorem circ_missSeen (y : Die) (u p gtc : Nat) :
    FMap.get [] ((missSeen y u p gtc).router u).circ p = noteMissed gtc (FMap.get [] (y.router u).circ p) := by
  have hr : (missSeen y u p gtc).router u = missesNoted (y.router u) p gtc := Die.router_setRouter_same y u _
  rw [hr, missesNoted, FMap.get_put, if_pos rfl]

theorem slotmiss_eq {s : State} {d u p : Nat} (hup : 48 ≤ u ∨ p ≠ 4) (hp : p ≠ 5)
    (h : ∃ f ∈ FMap.get [] ((s.die d).router u).circ p, f.missed = false ∧ f.due + 256 ≤ s.gtc) : exec (.slotmiss d u p) s =
      .next (s.setDie d (missSeen (s.die d) u p s.gtc)) := by
  have hport : ¬ (u < 48 ∧ p = 4) := by omega
  have hany : (FMap.get [] ((s.die d).router u).circ p).any (flitMisses s.gtc) = true := by
    obtain ⟨f, hf, hm, hd⟩ := h
    exact List.any_eq_true.mpr ⟨f, hf, by simp [flitMisses, hm, hd]⟩
  show execSlotmiss d u p s = _
  unfold execSlotmiss
  dsimp only
  rw [if_neg hport, if_neg hp, List.take_length, List.drop_length, if_pos hany, List.append_nil]
  rfl

theorem slotmiss_spec {s : State} {d u p : Nat} (hup : 48 ≤ u ∨ p ≠ 4) (hp : p ≠ 5)
    (h : ∃ f ∈ FMap.get [] ((s.die d).router u).circ p, f.missed = false ∧ f.due + 256 ≤ s.gtc) :
    Completes (.slotmiss d u p) s fun t => (t.die d).slotmiss = true ∧
      (FMap.get [] ((t.die d).router u).circ p).map (fun f => (f.circ, f.ws)) =
        (FMap.get [] ((s.die d).router u).circ p).map (fun f => (f.circ, f.ws)) ∧ FabricOnly s t ∧ t.cores = s.cores := by
  refine ⟨_, slotmiss_eq hup hp h, ?_, ?_, fabricOnly_setDie _ _ _, rfl⟩ <;> rw [State.die_setDie_same]
  · rfl
  · rw [circ_missSeen, noteMissed_flits]

theorem escapeChannelMove_eq {s : State} {d u k : Nat} {b : BePkt} (hk : ((s.die d).router u).be[k]? = some b) (he : b.esc = false)
    (hd : b.due + 64 ≤ s.gtc) : exec (.escapeChannelMove d u k) s =
      .next (withRouter s d u { (s.die d).router u with be := ((s.die d).router u).be.set k { b with esc := true } }) := by
  have hg : ¬ (b.esc = true ∨ b.due + 64 > s.gtc) := by simp [he, hd]
  show execEscapeChannelMove d u k s = _
  unfold execEscapeChannelMove
  simp only [hk]
  rw [if_neg hg]
  rfl

/-- Settles O6: what each event makes of one router or one end of a link, all else being as it was. -/
theorem flitEvents : Obligations.FlitEvents := by
  refine ⟨fun s d u p b d' u' p' ln lat => flitSend_router, fun s d k b => flitSend_external, fun s d k => frontierFlitSend_spec,
    fun s d k p f hk => ⟨?_, fun j es ht hr hb hs => ?_⟩, fun s d u p => slotmiss_spec, fun s d u k b => escapeChannelMove_eq⟩
  · obtain ⟨hnak, hgot, hreplay⟩ := replayAsked_spec (linkAt s d k) s.gtc
    refine ⟨_, (flitReceive_external hk s d p .bad f).trans (congrArg _ (lineReceive_bad hk s d 0 f)), fabricOnly_setDie _ _ _, rfl, ?_⟩
    rw [linkAt_withLink_same]
    exact ⟨hnak, hgot, hreplay⟩
  · let l := (linkAt s d k).setLane 0 (received (heard ((linkAt s d k).lane 0) f.link) (flSeq f.link))
    have hlink : ∀ evs, linkAt (pushEvs (withLink s d k l) evs) d k = l := fun _ => linkAt_withLink_same s d k l
    have hfab : ∀ evs, FabricOnly s (pushEvs (withLink s d k l) evs) := fun _ => fabricOnly_trans (fabricOnly_setDie _ _ _) (fabricOnly_pushEvs _ _)
    refine ⟨_, (flitReceive_external hk s d p .none f).trans (congrArg _ (lineReceive_frontier hk ht hr hb hs)), hfab _, rfl, ?_⟩
    rw [hlink, Link.lane_setLane_same]
    exact ⟨rfl, rfl⟩

end Sys2Proof.Machine
end

