-- ==== Sys2Proof/Proofs/PacketEvents.lean ====
section
/-! LAW. Clocks rise; packets at their destination are counted, dropped, held or taken in; channel words arrive (R39, R49, R50, R151, R234 to
R236). -/
namespace Sys2Proof.Machine
open Sys2Proof.Claims

/-! ### Clocks (R50, R235) -/

/-- What raising a clock entry changes: that entry, unless the clock covers it already, and what is owed to the links. -/
theorem raiseClock_spec (s : State) (d j : Nat) (v : BitVec 32) : DiesOnly s (raiseClock s d j v) ∧
    ((raiseClock s d j v).die d).unacked = (s.die d).unacked ∧ ∀ i, dieClock ((raiseClock s d j v).die d) i =
      if i = j ∧ serialGe (dieClock (s.die d) j) v = false then v else dieClock (s.die d) i := by
  unfold raiseClock
  dsimp only
  split
  · rename_i h
    exact ⟨diesOnly_refl s, rfl, fun i => by simp [h]⟩
  · rename_i h
    refine ⟨⟨_, rfl⟩, ?_, fun i => ?_⟩ <;> rw [State.die_setDie_same]
    show FMap.get 0 (FMap.set 0 (s.die d).clock j v) i = _
    simp only [FMap.get_set, Bool.eq_false_iff.mpr h, and_true]
    rfl

theorem frontierFlitReceive_one {j : Nat} (hj : j < 32) (s : State) (d : Nat) (v : Word) :
    exec (.frontierFlitReceive d [(j, v)]) s = .next (raiseClock s d j (v.extractLsb' 32 32)) := by
  have hm : j % 32 = j := Nat.mod_eq_of_lt hj
  show Host.Outcome.next (raiseClock s d (j % 32) (v.extractLsb' 32 32)) = _
  rw [hm]

theorem frontierFlitReceive_spec {j : Nat} (hj : j < 32) (s : State) (d : Nat) (v : Word) :
    Completes (.frontierFlitReceive d [(j, v)]) s fun t => FabricOnly s t ∧ t.cores = s.cores ∧
      dieClock (t.die d) j = (if serialGe (dieClock (s.die d) j) (v.extractLsb' 32 32) then dieClock (s.die d) j else v.extractLsb' 32 32) ∧
      ∀ i, i ≠ j → dieClock (t.die d) i = dieClock (s.die d) i := by
  obtain ⟨hdies, -, hclock⟩ := raiseClock_spec s d j (v.extractLsb' 32 32)
  obtain ⟨hfab, hcores⟩ := diesOnly_fabricOnly hdies
  refine ⟨_, frontierFlitReceive_one hj s d v, hfab, hcores, ?_, fun i hi => ?_⟩ <;> rw [hclock]
  · cases serialGe (dieClock (s.die d) j) (v.extractLsb' 32 32) <;> simp
  · rw [if_neg fun h => hi h.1]

/-! ### Acknowledgements (R234, R235) -/

theorem sendAll_none {s : State} (h : s.xacts = []) : sendAll s = s := by
  unfold sendAll
  rw [h]
  rfl

theorem ackWrite_spec (s : State) (d : Nat) (v : BitVec 32) :
    DiesOnly s (ackWrite s d v) ∧ ((ackWrite s d v).die d).unacked = (s.die d).unacked.filter fun x => x.1 ≠ v := by
  unfold ackWrite
  extract_lets y u s1 top
  obtain ⟨⟨ds, hdies⟩, hun, -⟩ := raiseClock_spec s1 d (s1.dieBase + d) top
  refine ⟨⟨ds, hdies⟩, hun.trans ?_⟩
  exact congrArg Die.unacked (State.die_setDie_same _ _ _)

theorem writeAcknowledgement_spec {s : State} (hx : s.xacts = []) (d seq : Nat) (nack : Bool) :
    Completes (.writeAcknowledgement d seq nack) s fun t => t.mem = s.mem ∧
      (t.die d).unacked = (s.die d).unacked.filter fun x => x.1 ≠ BitVec.ofNat 32 seq := by
  obtain ⟨hdies, hun⟩ := ackWrite_spec s d (BitVec.ofNat 32 seq)
  obtain ⟨⟨hmem, -, -, -, -, hxacts, -⟩, -⟩ := diesOnly_fabricOnly hdies
  refine ⟨_, congrArg Host.Outcome.next (sendAll_none (hxacts.trans hx)), hmem, hun⟩

/-! ### A packet at its destination (R39, R44, R49, R50, R236) -/

section
variable {s : State} {d : Nat} {p : Packet}

/-- A malformed packet is counted, and answered where it is a write or an accumulate. -/
theorem packetReceive_bad (h : packetBad d p = true) : exec (.packetReceive d p) s =
    .next (if pkPtype p.hdr = 2 ∨ pkPtype p.hdr = 4 then sendPacket (badCounted s d) d (pkDep p.hdr) (turnedAway s d p) else badCounted s d) :=
  if_pos h

/-- What a well-formed packet finds: the die has noted its stamp, and nothing else has changed. -/
theorem skewed_spec (s : State) (d : Nat) (p : Packet) : DiesOnly s (skewed s d p) ∧
    (skewed s d p).die d = { s.die d with tskew := (s.die d).tskew || decide (s.gtc + 16 < pkStamp p.hdr) } := by
  unfold skewed
  split
  · rename_i h
    refine ⟨⟨_, rfl⟩, ?_⟩
    rw [State.die_setDie_same]
    simp [h]
  · rename_i h
    exact ⟨diesOnly_refl s, by simp [h]⟩

@[simp] theorem mustHold_skewed (s : State) (d : Nat) (p : Packet) : mustHold (skewed s d p) d p = mustHold s d p := by
  obtain ⟨-, hdie⟩ := skewed_spec s d p
  unfold mustHold
  rw [hdie]
  rfl

/-- A die that has dropped a packet of an unknown group. -/
def groupDropped (y : Die) (me : Nat) (p : Packet) : Die := { ownDone y me p.hdr with gdrop := min (y.gdrop + 1) 65535 }
/-- A die that has put a packet in its causal-hold buffer. -/
def heldIn (y : Die) (p : Packet) : Die := { y with held := y.held ++ [p], chold := y.chold || y.held.length == 511 }

/-- The outcomes for a well-formed packet, in their order. -/
theorem packetReceive_good (h : packetBad d p = false) : exec (.packetReceive d p) s =
    let t := skewed s d p
    let y := t.die d
    if groupDrops y p.hdr = true then
      let u := t.setDie d (groupDropped y (t.dieBase + d) p)
      .next (if pkPtype p.hdr = 6 then nackWrite u d p else u)
    else if (isPosted p.hdr = true ∨ mustHold t d p = true) ∧ y.held.length ≥ 512 then
      .next ((waitPacket t d p).setDie d { (waitPacket t d p).die d with chold := true })
    else if pkPtype p.hdr = 6 ∧ (y.ventIn.any fun v => pkLen v.2.2.2 != 0) = true then .next (waitPacket t d p)
    else if mustHold t d p = true then .next (t.setDie d (heldIn y p))
    else finish (acceptPacket t d p) := by
  have hs : skewed s d p = if decide (pkStamp p.hdr > s.gtc + 16) = true then s.setDie d { s.die d with tskew := true } else s := by
    simp [skewed]
  show execPacketReceive d p s = _
  unfold execPacketReceive
  dsimp only
  rw [if_neg (by simp [h]), ← hs]
  rfl

theorem packetReceive_dropped (h : packetBad d p = false) (hg : groupDrops (s.die d) p.hdr = true) (h6 : pkPtype p.hdr ≠ 6) :
    Completes (.packetReceive d p) s fun t => (t.die d).gdrop = min ((s.die d).gdrop + 1) 65535 ∧
      (t.die d).tskew = ((s.die d).tskew || decide (s.gtc + 16 < pkStamp p.hdr)) ∧ FabricOnly s t := by
  obtain ⟨hdies, hdie⟩ := skewed_spec s d p
  have hown : ∀ (y : Die) (me : Nat), (groupDropped y me p).tskew = y.tskew := fun y me => by
    unfold groupDropped ownDone
    dsimp only
    split
    · rfl
    · split <;> rfl
  refine ⟨_, (packetReceive_good h).trans ((if_pos ?_).trans (congrArg Host.Outcome.next (if_neg h6))), ?_, ?_,
    fabricOnly_trans (diesOnly_fabricOnly hdies).1 (fabricOnly_setDie _ _ _)⟩
  · rw [hdie]
    exact hg
  · rw [State.die_setDie_same, hdie]
    rfl
  · rw [State.die_setDie_same, hown, hdie]

/-- A packet that passes is held or taken in. -/
theorem packetReceive_passes (h : Passes s d p) : exec (.packetReceive d p) s =
    if mustHold s d p = true then .next ((skewed s d p).setDie d (heldIn ((skewed s d p).die d) p))
    else finish (acceptPacket (skewed s d p) d p) := by
  obtain ⟨hbad, hgroup, hroom, hvent⟩ := h
  obtain ⟨-, hdie⟩ := skewed_spec s d p
  have h1 : ¬ groupDrops ((skewed s d p).die d) p.hdr = true := by
    rw [hdie]
    exact Bool.eq_false_iff.mp hgroup
  have h2 : ¬ ((isPosted p.hdr = true ∨ mustHold (skewed s d p) d p = true) ∧ ((skewed s d p).die d).held.length ≥ 512) := by
    rw [hdie, mustHold_skewed]
    rintro ⟨hp, hl⟩
    rcases hroom with hlt | ⟨hpost, hhold⟩
    · exact absurd hl (Nat.not_le.mpr hlt)
    · simp [hpost, hhold] at hp
  have h3 : ¬ (pkPtype p.hdr = 6 ∧ (((skewed s d p).die d).ventIn.any fun v => pkLen v.2.2.2 != 0) = true) := by
    rw [hdie]
    rintro ⟨h6, hany⟩
    obtain ⟨v, hv, hlen⟩ := List.any_eq_true.mp hany
    simp [hvent h6 v hv] at hlen
  rw [packetReceive_good hbad]
  dsimp only
  rw [if_neg h1, if_neg h2, if_neg h3, mustHold_skewed]

theorem packetReceive_held (h : Passes s d p) (hh : mustHold s d p = true) : Completes (.packetReceive d p) s fun t =>
    (t.die d).held = (s.die d).held ++ [p] ∧ FabricOnly s t := by
  obtain ⟨hdies, hdie⟩ := skewed_spec s d p
  refine ⟨_, (packetReceive_passes h).trans (if_pos hh), ?_, fabricOnly_trans (diesOnly_fabricOnly hdies).1 (fabricOnly_setDie _ _ _)⟩
  rw [State.die_setDie_same, hdie]
  rfl

theorem packetReceive_accepted (h : Passes s d p) (hh : mustHold s d p = false) (ha : (acceptPacket (skewed s d p) d p).absent = none) :
    exec (.packetReceive d p) s = .next (acceptPacket (skewed s d p) d p) := by
  rw [packetReceive_passes h, if_neg (Bool.eq_false_iff.mp hh)]
  exact finish_next ha

/-- A request comes to its home: its access waits there to be performed (R218). -/
theorem acceptPacket_request {id : Nat} {x : Xact} (hm : p.msg = .req id) (hx : s.xacts.find? (fun y => y.id == id) = some x) :
    acceptPacket s d p = setXact s { x with st := .home } := by
  simp only [acceptPacket, hm, hx]

theorem packetReceive_request {id : Nat} {x : Xact} (ha : s.absent = none) (h : Passes s d p) (hh : mustHold s d p = false) (hm : p.msg = .req id)
    (hx : s.xacts.find? (fun y => y.id == id) = some x) : Completes (.packetReceive d p) s fun t =>
      t.xacts = (setXact s { x with st := .home }).xacts ∧ t.mem = s.mem := by
  obtain ⟨⟨ds, hdies⟩, -⟩ := skewed_spec s d p
  have he : acceptPacket (skewed s d p) d p = setXact (skewed s d p) { x with st := .home } :=
    acceptPacket_request hm (by rw [hdies]; exact hx)
  refine ⟨_, packetReceive_accepted h hh ?_, ?_⟩ <;> rw [he, hdies]
  · exact ha
  · exact ⟨rfl, rfl⟩

/-- A held write that the clock now covers is taken in (R236). -/
theorem heldWriteApply_eq {k : Nat} (hk : (s.die d).held[k]? = some p) (hh : mustHold s d p = false) (hg : groupDrops (s.die d) p.hdr = false)
    (ha : (acceptPacket (s.setDie d { s.die d with held := (s.die d).held.eraseIdx k }) d p).absent = none) :
    exec (.heldWriteApply d k) s = .next (acceptPacket (s.setDie d { s.die d with held := (s.die d).held.eraseIdx k }) d p) := by
  show execHeldWriteApply d k s = _
  unfold execHeldWriteApply
  simp only [hk]
  rw [if_neg (Bool.eq_false_iff.mp hh), if_neg (Bool.eq_false_iff.mp hg)]
  exact finish_next ha

end

theorem channelWordArrive_eq (s : State) (i ch : Nat) (w : Word) : exec (.channelWordArrive i ch w) s =
    .next (s.setCore i { s.core i with rx := FMap.put (s.core i).rx ch (FMap.get [] (s.core i).rx ch ++ [w]) }) := rfl

/-- Settles O8: the outcomes of a packet in their order, a clock entry raised, and a write struck from those outstanding. -/
theorem packetEvents : Obligations.PacketEvents := by
  refine ⟨fun s d j v hj => frontierFlitReceive_spec hj s d v, fun s d seq nack hx => writeAcknowledgement_spec hx d seq nack,
    fun s d p => ⟨fun h h2 h4 => ?_, fun h hw => ?_, packetReceive_dropped, packetReceive_held, packetReceive_accepted, fun k => heldWriteApply_eq⟩,
    fun s d id p x => packetReceive_request, channelWordArrive_eq⟩
  · rw [packetReceive_bad h, if_neg (not_or.mpr ⟨h2, h4⟩)]
  · rw [packetReceive_bad h, if_pos hw]

end Sys2Proof.Machine
end

