-- ==== Sys2Proof/Proofs/PhysicalStores.lean ====
section
/-! LAW. A store reads back under its seal and changes no byte outside what it covers (R63, R73, R194). -/
namespace Sys2Proof.Machine

/-! ### Reads of several bytes -/

theorem Memory.readN_lt (m : Memory) (a n : Nat) : Memory.readN m a n < 256 ^ n := by
  induction n generalizing a with
  | zero => exact Nat.one_pos
  | succ n ih =>
    have hbyte := (Memory.read m a).isLt
    have hrest := ih (a + 1)
    rw [Memory.readN, Nat.pow_succ]
    omega

/-- A read is its low bytes, and above them the read from where they end. -/
theorem Memory.readN_add (m : Memory) (a k n : Nat) :
    Memory.readN m a (k + n) = Memory.readN m a k + 256 ^ k * Memory.readN m (a + k) n := by
  induction k generalizing a with
  | zero => simp [Memory.readN]
  | succ k ih =>
    rw [Nat.succ_add, Memory.readN, ih (a + 1), Memory.readN, show a + 1 + k = a + (k + 1) by omega, Nat.pow_succ', Nat.mul_assoc,
      Nat.mul_add, Nat.add_assoc]

/-- n bytes out of a longer read, from byte k on. -/
theorem Memory.readN_slice (m : Memory) (a : Nat) {k n len : Nat} (h : k + n ≤ len) :
    Memory.readN m a len / 256 ^ k % 256 ^ n = Memory.readN m (a + k) n := by
  obtain ⟨r, rfl⟩ := Nat.exists_eq_add_of_le h
  rw [Nat.add_assoc, Memory.readN_add, Memory.readN_add m (a + k), Nat.add_mul_div_left _ _ (Nat.pow_pos (by omega)),
    Nat.div_eq_of_lt (Memory.readN_lt m a k), Nat.zero_add, Nat.add_mul_mod_self_left, Nat.mod_eq_of_lt (Memory.readN_lt m (a + k) n)]

/-- A word as wide as a read holds what was read. -/
theorem Memory.toNat_ofNat_readN (m : Memory) (a : Nat) {n w : Nat} (h : w = 8 * n) :
    (BitVec.ofNat w (Memory.readN m a n)).toNat = Memory.readN m a n := by
  subst h
  rw [BitVec.toNat_ofNat, Nat.mod_eq_of_lt]
  rw [Nat.pow_mul]
  exact Memory.readN_lt m a n

/-! ### Lines -/

/-- Lines do not cross stores or dies: the key of a byte keeps its place in its line. -/
theorem maddr_mod_line (loc die pa : Nat) : maddr loc die pa % 128 = pa % 128 := by
  unfold maddr
  omega

/-- A line as read under the seal it is kept under: its bytes as they stand. -/
theorem lineAs_own {s : State} {line : Nat} {sl : Seal} (h : FMap.find s.seals line = some sl) :
    lineAs s line sl = BitVec.ofNat 1024 (Memory.readN s.mem (line * 128) 128) := by
  simp [lineAs, h]

theorem physRead_own {s : State} {loc die pa n : Nat} {sl : Seal} (hs : isSealed loc = true) (hn : pa % 128 + n ≤ 128)
    (h : FMap.find s.seals (maddr loc die pa / 128) = some sl) :
    physRead s loc die pa n sl = Memory.readN s.mem (maddr loc die pa) n := by
  have hmod := maddr_mod_line loc die pa
  simp only [physRead, hs, if_true]
  rw [lineAs_own h, Memory.toNat_ofNat_readN (w := 1024) (n := 128) _ _ rfl, Memory.readN_slice _ _ (by omega), Nat.mul_comm, Nat.div_add_mod]

theorem reseal_same {s : State} {line : Nat} {sl : Seal} (h : FMap.find s.seals line = some sl) : reseal s line sl = s := by
  simp [reseal, h]

/-- A change of seal writes its line alone, and no field but the bytes and the seals. -/
theorem reseal_frame (s : State) (line : Nat) (sl : Seal) :
    (∃ m f, reseal s line sl = { s with mem := m, seals := f }) ∧
      ∀ a, a / 128 ≠ line → Memory.read (reseal s line sl).mem a = Memory.read s.mem a := by
  unfold reseal
  split
  · split
    · exact ⟨⟨_, _, rfl⟩, fun a _ => rfl⟩
    · exact ⟨⟨_, _, rfl⟩, fun a ha => Memory.read_writeN_out _ _ _ _ _ (by omega)⟩
  · exact ⟨⟨_, _, rfl⟩, fun a _ => rfl⟩

/-! ### Stores -/

section
variable {s : State} {loc : Nat}

theorem physWrite_plain (h : isSealed loc = false) (die pa n v : Nat) (sl : Seal) :
    physWrite s loc die pa n v sl = { s with mem := Memory.writeN s.mem (maddr loc die pa) n v } := by
  simp [physWrite, h]

/-- A store to an encrypted line: the line comes under the seal, then the bytes are written. -/
theorem physWrite_sealed (h : isSealed loc = true) (die pa n v : Nat) (sl : Seal) : physWrite s loc die pa n v sl =
    { reseal s (maddr loc die pa / 128) sl with
      mem := Memory.writeN (reseal s (maddr loc die pa / 128) sl).mem (maddr loc die pa) n v
      seals := FMap.put (reseal s (maddr loc die pa / 128) sl).seals (maddr loc die pa / 128) sl } := by
  simp [physWrite, h]

theorem physWrite_fields (loc die pa n v : Nat) (sl : Seal) :
    ∃ m f, physWrite s loc die pa n v sl = { s with mem := m, seals := f } := by
  cases h : isSealed loc with
  | false => exact ⟨_, _, physWrite_plain h ..⟩
  | true =>
    obtain ⟨⟨m, f, he⟩, -⟩ := reseal_frame s (maddr loc die pa / 128) sl
    rw [physWrite_sealed h, he]
    exact ⟨_, _, rfl⟩

theorem plainStore_spec (h : isSealed loc = false) (die pa n v : Nat) (sl : Seal) :
    physRead (physWrite s loc die pa n v sl) loc die pa n sl = v % 256 ^ n ∧ (physWrite s loc die pa n v sl).seals = s.seals ∧
      ∀ a, a < maddr loc die pa ∨ maddr loc die pa + n ≤ a → Memory.read (physWrite s loc die pa n v sl).mem a = Memory.read s.mem a := by
  rw [physWrite_plain h]
  refine ⟨?_, rfl, Memory.read_writeN_out _ _ _ _⟩
  simp only [physRead, h, Bool.false_eq_true, if_false]
  exact Memory.readN_writeN ..

theorem sealedStore_reads (h : isSealed loc = true) {die pa n : Nat} (hn : pa % 128 + n ≤ 128) (v : Nat) (sl : Seal) :
    physRead (physWrite s loc die pa n v sl) loc die pa n sl = v % 256 ^ n := by
  rw [physWrite_sealed h, physRead_own h hn ?_]
  · exact Memory.readN_writeN ..
  · rw [FMap.find_put, if_pos rfl]

/-- A store stays in its line, and where the line had its seal already, in its bytes. -/
theorem sealedStore_frame (h : isSealed loc = true) {die pa n : Nat} (hn : pa % 128 + n ≤ 128) (v : Nat) (sl : Seal) :
    (∀ a, a / 128 ≠ maddr loc die pa / 128 → Memory.read (physWrite s loc die pa n v sl).mem a = Memory.read s.mem a) ∧
      (FMap.find s.seals (maddr loc die pa / 128) = some sl → ∀ a, a < maddr loc die pa ∨ maddr loc die pa + n ≤ a →
        Memory.read (physWrite s loc die pa n v sl).mem a = Memory.read s.mem a) := by
  have hmod := maddr_mod_line loc die pa
  rw [physWrite_sealed h]
  constructor
  · intro a ha
    exact (Memory.read_writeN_out _ _ _ _ _ (by omega)).trans ((reseal_frame s _ sl).2 a ha)
  · intro hown a ha
    rw [reseal_same hown]
    exact Memory.read_writeN_out _ _ _ _ _ ha

end

/-- Settles O54: a plain store by the laws of byte memory; an encrypted one after its line has come under the seal, which rewrites that line alone. -/
theorem physicalStores : Obligations.PhysicalStores := by
  intro s loc die pa n v sl
  refine ⟨fun h => plainStore_spec h die pa n v sl, fun h hn => ⟨sealedStore_reads h hn v sl, sealedStore_frame h hn v sl⟩, ?_⟩
  obtain ⟨m, f, he⟩ := physWrite_fields (s := s) loc die pa n v sl
  rw [he]
  exact ⟨rfl, rfl, rfl, rfl⟩

end Sys2Proof.Machine
end

