-- ==== Sys2Proof/Proofs/AddressesAndTranslation.lean ====
section
/-! LAW. Effective addresses (R354); what a translation that succeeds says of its leaf, and the codes of one that faults (R60, R61, R73). -/
namespace Sys2Proof.Machine

/-! ### Effective addresses (R354) -/

section
variable {cu : Cursor} {a : Word} {n al : Nat} {wr : Bool}

theorem effAddr_misaligned (h : a.toNat % al ≠ 0) : effAddr cu a n al wr = illegal cu 2 := if_pos h

theorem effAddr_aligned (h : a.toNat % al = 0) : effAddr cu a n al wr =
    if a.getLsbD 63 then
      if a.extractLsb' 22 41 ≠ 0 ∨ 2 ^ 22 < (a.setWidth 22).toNat + n then addrRange cu a wr else .ok (.spad (a.setWidth 22).toNat)
    else if 2 ^ 56 ≤ a.toNat ∨ 2 ^ 56 < a.toNat + n then addrRange cu a wr
    else .ok (.dev a.toNat) := by
  rw [effAddr, if_neg (not_not.mpr h), BitVec.toNat_setWidth]

theorem effAddr_spec (cu : Cursor) (a : Word) (n al : Nat) (wr : Bool) :
    let e := effAddr cu a n al wr
    (a.toNat % al ≠ 0 → e = illegal cu 2) ∧
    (a.toNat % al = 0 → a.getLsbD 63 = true → a.extractLsb' 22 41 = 0 → (a.setWidth 22).toNat + n ≤ 2 ^ 22 → e = .ok (.spad (a.setWidth 22).toNat)) ∧
    (a.toNat % al = 0 → a.getLsbD 63 = true → (a.extractLsb' 22 41 ≠ 0 ∨ 2 ^ 22 < (a.setWidth 22).toNat + n) → e = addrRange cu a wr) ∧
    (a.toNat % al = 0 → a.getLsbD 63 = false → a.toNat + n ≤ 2 ^ 56 → 0 < n → e = .ok (.dev a.toNat)) ∧
    (a.toNat % al = 0 → a.getLsbD 63 = false → 2 ^ 56 < a.toNat + n → e = addrRange cu a wr) := by
  refine ⟨effAddr_misaligned, fun hal hb hx hn => ?_, fun hal hb hout => ?_, fun hal hb hn h0 => ?_, fun hal hb hout => ?_⟩
  · rw [effAddr_aligned hal, if_pos hb, if_neg (not_or.mpr ⟨not_not.mpr hx, not_lt.mpr hn⟩)]
  · rw [effAddr_aligned hal, if_pos hb, if_pos hout]
  · rw [effAddr_aligned hal, if_neg (Bool.eq_false_iff.mp hb), if_neg (by omega)]
  · rw [effAddr_aligned hal, if_neg (Bool.eq_false_iff.mp hb), if_pos (.inr hout)]

end

/-! ### The key check (R73) -/

theorem keyFault_zero {s : State} {ctx : Nat} {e : Word} (h : keyFault s ctx e = 0) (hs : isSealed (pteLoc e) = true) :
    let k := FMap.get KeySlot.init s.mod.keys (pteKey e)
    (k.st = .keyed ∨ k.st = .plain) ∧ k.owner = ctx := by
  intro k
  unfold keyFault at h
  dsimp only at h
  split at h
  · cases h
  · rename_i hst
    split at h
    · cases h
    · rename_i hown
      refine ⟨?_, not_not.mp fun hne => hown ⟨hs, hne⟩⟩
      have hlive : ¬ (k.st = .empty ∨ k.st = .destroying) := fun hd => hst ⟨hs, hd⟩
      cases hk : k.st <;> simp_all

theorem keyFault_codes (s : State) (ctx : Nat) (e : Word) : keyFault s ctx e = 0 ∨ keyFault s ctx e = 9 ∨ keyFault s ctx e = 10 := by
  unfold keyFault
  dsimp only
  split
  · exact .inr (.inl rfl)
  · split
    · exact .inr (.inr rfl)
    · exact .inl rfl

/-! ### What a leaf permits (R61) -/

/-- The leaf e of level l permits the access, and ph is what it maps the VA to. -/
def LeafPermits (s : State) (ctx va : Nat) (acc : AccT) (m : MasterT) (ph : Phys) (l : Nat) (e : Word) : Prop :=
  ph.loc = pteLoc e ∧ ph.loc ≤ 3 ∧ ph.die = pteDie e ∧ ph.key = pteKey e ∧ pteFrame e % 2 ^ lvlShift l = 0 ∧
  (ph.loc ≠ 3 → ph.pa = pteFrame e + va % 2 ^ lvlShift l) ∧ (pteSup e = true → m.user = false) ∧
  (acc = .read ∨ acc = .amo → pteR e = true) ∧ (acc = .exec → pteX e = true) ∧
  (acc = .write ∨ acc = .amo → pteW e = true ∧ pteRoc e = false ∧ pteCow e = false ∧ (ph.loc = 2 → m.supCopy = true ∧ launchActive s ph.die = false)) ∧
  (isSealed ph.loc = true → let k := FMap.get KeySlot.init s.mod.keys ph.key
    (k.st = .keyed ∨ k.st = .plain) ∧ k.owner = ctx)

/-- A check that has not faulted was passed. -/
theorem ok_of_guard {p : Prop} [Decidable p] {c l l' : Nat} {e e' : Word} {r : TRes} {ph : Phys}
    (h : (if p then TRes.fault c l e else r) = .ok ph l' e') : ¬ p ∧ r = .ok ph l' e' := by
  split at h
  · cases h
  · exact ⟨‹_›, h⟩

theorem checkLeaf_ok {s : State} {ctx va lvl l : Nat} {e e' : Word} {acc : AccT} {m : MasterT} {ph : Phys}
    (h : checkLeaf s ctx va lvl e acc m = .ok ph l e') : l = lvl ∧ e' = e ∧ LeafPermits s ctx va acc m ph lvl e := by
  unfold checkLeaf at h
  dsimp only at h
  obtain ⟨hform, h⟩ := ok_of_guard h
  obtain ⟨-, h⟩ := ok_of_guard h
  obtain ⟨-, h⟩ := ok_of_guard h
  obtain ⟨hsup, h⟩ := ok_of_guard h
  obtain ⟨-, h⟩ := ok_of_guard h
  obtain ⟨hread, h⟩ := ok_of_guard h
  obtain ⟨hexec, h⟩ := ok_of_guard h
  obtain ⟨-, h⟩ := ok_of_guard h
  obtain ⟨hroc, h⟩ := ok_of_guard h
  obtain ⟨hcow, h⟩ := ok_of_guard h
  obtain ⟨hwrite, h⟩ := ok_of_guard h
  obtain ⟨hws, h⟩ := ok_of_guard h
  obtain ⟨hkey, h⟩ := ok_of_guard h
  cases h
  simp only [not_or, not_lt, ne_eq, not_not] at hform
  obtain ⟨hloc, hframe, -⟩ := hform
  refine ⟨rfl, rfl, rfl, hloc, rfl, rfl, hframe, fun hl => ?_, fun hs => ?_, fun ha => ?_, fun ha => ?_, fun ha => ⟨?_, ?_, ?_, fun hl => ?_⟩, fun hs => ?_⟩
  · rw [if_neg hl, Nat.add_zero]
  · exact Bool.eq_false_iff.mpr fun hu => hsup ⟨hs, hu⟩
  · exact not_not.mp fun hr => hread ⟨ha, hr⟩
  · exact not_not.mp fun hx => hexec ⟨ha, hx⟩
  · exact not_not.mp fun hw => hwrite ⟨ha, hw⟩
  · exact Bool.eq_false_iff.mpr fun hr => hroc ⟨ha, .inl hr⟩
  · exact Bool.eq_false_iff.mpr fun hc => hcow ⟨ha, hc⟩
  · exact ⟨not_not.mp fun hm => hws ⟨ha, hl, .inr hm⟩, Bool.eq_false_iff.mpr fun hl' => hws ⟨ha, hl, .inl hl'⟩⟩
  · exact keyFault_zero (not_not.mp hkey) hs

/-! ### Codes (Table 3.9) -/

/-- A result that, where it is a fault, carries a translation's code. -/
def CodesInRange (r : TRes) : Prop := ∀ c l e, r = .fault c l e → 1 ≤ c ∧ c ≤ 13

theorem codesInRange_ok (ph : Phys) (l : Nat) (e : Word) : CodesInRange (.ok ph l e) := fun _ _ _ h => by cases h
theorem codesInRange_fault {c : Nat} (h : 1 ≤ c ∧ c ≤ 13) (l : Nat) (e : Word) : CodesInRange (.fault c l e) := fun _ _ _ h' => by cases h'; exact h
theorem codesInRange_guard {p : Prop} [Decidable p] {c l : Nat} {e : Word} {r : TRes} (hc : p → 1 ≤ c ∧ c ≤ 13) (hr : CodesInRange r) :
    CodesInRange (if p then .fault c l e else r) := by
  split
  · exact codesInRange_fault (hc ‹_›) l e
  · exact hr

theorem checkLeaf_codes (s : State) (ctx va lvl : Nat) (e : Word) (acc : AccT) (m : MasterT) : CodesInRange (checkLeaf s ctx va lvl e acc m) := by
  have hkey : keyFault s ctx e ≠ 0 → 1 ≤ keyFault s ctx e ∧ keyFault s ctx e ≤ 13 := fun h => by
    have := keyFault_codes s ctx e
    omega
  unfold checkLeaf
  dsimp only
  refine codesInRange_guard (fun _ => by decide) <| codesInRange_guard (fun _ => by decide) <| codesInRange_guard (fun _ => by decide) <|
    codesInRange_guard (fun _ => by decide) <| codesInRange_guard (fun _ => by split <;> decide) <| codesInRange_guard (fun _ => by decide) <|
    codesInRange_guard (fun _ => by decide) <| codesInRange_guard (fun h => hkey h.2) <| codesInRange_guard (fun _ => by decide) <|
    codesInRange_guard (fun _ => by decide) <| codesInRange_guard (fun _ => by decide) <| codesInRange_guard (fun _ => by decide) <|
    codesInRange_guard hkey <| codesInRange_ok _ _ _

theorem walkFrom_code (s : State) (va lvl die addr : Nat) :
    (walkFrom s va lvl die addr).code = 0 ∨ (walkFrom s va lvl die addr).code = 1 ∨ (walkFrom s va lvl die addr).code = 11 := by
  induction lvl generalizing die addr with
  | zero =>
    unfold walkFrom
    dsimp only
    split
    · exact .inr (.inl rfl)
    · exact .inl rfl
  | succ n ih =>
    unfold walkFrom
    dsimp only
    split
    · exact .inr (.inl rfl)
    · split
      · exact .inl rfl
      · split
        · exact .inr (.inr rfl)
        · exact ih _ _

/-! ### translate (R61, R64) -/

section
variable {s : State} {t ctx va : Nat}

theorem translate_past_space (h : 2 ^ 56 ≤ va) (acc : AccT) (m : MasterT) : translate s t ctx va acc m = .fault 12 7 0 := if_pos h

theorem translate_bad_context (h : va < 2 ^ 56) (hc : ctxOk s ctx = false) (acc : AccT) (m : MasterT) :
    translate s t ctx va acc m = .fault 13 7 0 := by
  rw [translate, if_neg (not_le.mpr h), if_pos (Bool.eq_false_iff.mp hc)]

/-- The leaf comes from the TLB, or from a walk. -/
theorem translate_hit {x : TlbEntry} (h : va < 2 ^ 56) (hc : ctxOk s ctx = true) (hx : tlbFind s t ctx va = some x) (acc : AccT) (m : MasterT) :
    translate s t ctx va acc m = checkLeaf s ctx va x.lvl x.pte acc m := by
  rw [translate, if_neg (not_le.mpr h), if_neg (not_not.mpr hc), hx]

theorem translate_walk (h : va < 2 ^ 56) (hc : ctxOk s ctx = true) (hx : tlbFind s t ctx va = none) (acc : AccT) (m : MasterT) :
    translate s t ctx va acc m = if (walk s ctx va).code ≠ 0 then .fault (walk s ctx va).code (walk s ctx va).lvl (walk s ctx va).e
      else checkLeaf s ctx va (walk s ctx va).lvl (walk s ctx va).e acc m := by
  rw [translate, if_neg (not_le.mpr h), if_neg (not_not.mpr hc), hx]

/-- The ways a translation can go. -/
theorem translate_cases (s : State) (t ctx va : Nat) (acc : AccT) (m : MasterT) :
    translate s t ctx va acc m = .fault 12 7 0 ∨ translate s t ctx va acc m = .fault 13 7 0 ∨
    va < 2 ^ 56 ∧ ctxOk s ctx = true ∧
      (((walk s ctx va).code ≠ 0 ∧ translate s t ctx va acc m = .fault (walk s ctx va).code (walk s ctx va).lvl (walk s ctx va).e) ∨
        ∃ lvl e, translate s t ctx va acc m = checkLeaf s ctx va lvl e acc m) := by
  by_cases hva : va < 2 ^ 56
  · cases hc : ctxOk s ctx with
    | false => exact .inr (.inl (translate_bad_context hva hc acc m))
    | true =>
      refine .inr (.inr ⟨hva, rfl, ?_⟩)
      cases hx : tlbFind s t ctx va with
      | some x => exact .inr ⟨_, _, translate_hit hva hc hx acc m⟩
      | none =>
        have hw := translate_walk hva hc hx acc m
        by_cases hcode : (walk s ctx va).code = 0
        · exact .inr ⟨_, _, hw.trans (if_neg (not_not.mpr hcode))⟩
        · exact .inl ⟨hcode, hw.trans (if_pos hcode)⟩
  · exact .inl (translate_past_space (not_lt.mp hva) acc m)

theorem translate_ok {acc : AccT} {m : MasterT} {ph : Phys} {l : Nat} {e : Word} (h : translate s t ctx va acc m = .ok ph l e) :
    va < 2 ^ 56 ∧ ctxOk s ctx = true ∧ LeafPermits s ctx va acc m ph l e := by
  rcases translate_cases s t ctx va acc m with hf | hf | ⟨hva, hc, ⟨-, hf⟩ | ⟨lvl, e', hl⟩⟩
  · rw [hf] at h; cases h
  · rw [hf] at h; cases h
  · rw [hf] at h; cases h
  · rw [hl] at h
    obtain ⟨rfl, rfl, hleaf⟩ := checkLeaf_ok h
    exact ⟨hva, hc, hleaf⟩

theorem translate_codes (s : State) (t ctx va : Nat) (acc : AccT) (m : MasterT) : CodesInRange (translate s t ctx va acc m) := by
  rcases translate_cases s t ctx va acc m with hf | hf | ⟨-, -, ⟨hcode, hf⟩ | ⟨lvl, e, hf⟩⟩ <;> rw [hf]
  · exact codesInRange_fault (by decide) _ _
  · exact codesInRange_fault (by decide) _ _
  · refine codesInRange_fault ?_ _ _
    have : (walk s ctx va).code = 0 ∨ (walk s ctx va).code = 1 ∨ (walk s ctx va).code = 11 := walkFrom_code ..
    omega
  · exact checkLeaf_codes s ctx va lvl e acc m

end

/-- Settles O55: the branches of effAddr; a translation that succeeds has passed every check on its leaf, one that faults stopped at a check with its code. -/
theorem addressesAndTranslation : Obligations.AddressesAndTranslation := by
  refine ⟨fun s a n al wr => effAddr_spec s.cur a n al wr, fun s t ctx va acc m => ⟨fun h => translate_past_space h acc m,
    fun h hc => translate_bad_context h hc acc m, fun ph l e h => translate_ok h, fun hx h hc hw => ?_, translate_codes s t ctx va acc m⟩⟩
  rw [translate_walk h hc hx, if_pos hw]

end Sys2Proof.Machine
end

