-- ==== Sys2Proof/Proofs/KeyEvents.lean ====
section
/-! LAW. Key commands and the drain of a slot, fusing, the SPDM responder (R71, R72, R74, R77 to R79). -/
namespace Sys2Proof.Machine
open Sys2Proof.Claims

/-! ### Key commands (R71, R72) -/

section
variable {s : State} {v : Word}

/-- With MODREADY set and BUSY clear a command leaves its fields, its status and what it does. -/
theorem keyCmd_idle (hr : s.mod.ready = true) (hb : s.mod.keyBusy = false) {act : Module → BitVec 4 × Module} {st : BitVec 4} {m : Module}
    (ha : act (keyFields s.mod v) = (st, m)) : keyCmd s v act = .next (withMod s { m with keyStatus := st }) := by
  rw [keyCmd, if_neg (not_not.mpr hr), if_neg (Bool.eq_false_iff.mp hb), ha]
  rfl

theorem keyRefusal_none (he : (keySlotOf s v).st = .empty) (hc : ctxOk s (kOwner v) = true) : keyRefusal s v = 0 := by
  show (if (keySlotOf s v).st ≠ .empty then 1 else if ¬ ctxOk s (kOwner v) then 3 else 0) = (0 : BitVec 4)
  rw [if_neg (not_not.mpr he), if_neg (not_not.mpr hc)]

theorem keyRefusal_filled (he : (keySlotOf s v).st ≠ .empty) : keyRefusal s v = 1 := if_pos he

variable (hr : s.mod.ready = true) (hb : s.mod.keyBusy = false)
include hr hb

theorem keyLoad_fills (he : (keySlotOf s v).st = .empty) (hc : ctxOk s (kOwner v) = true)
    (hk : s.mod.keydata.extractLsb' 0 256 ≠ s.mod.keydata.extractLsb' 256 256) :
    exec (.keyLoad v) s = .next (withMod s (filled v .keyed false s.mod.keydata { keyDone s.mod v 0 with keydata := 0 })) := by
  show execKeyLoad v s = _
  rw [execKeyLoad]
  exact keyCmd_idle hr hb (m := fillSlot { keyFields s.mod v with keydata := 0 } v .keyed false s.mod.keydata)
    ((if_neg (not_not.mpr (keyRefusal_none he hc))).trans (if_neg hk))

theorem keyLoad_equal_halves (he : (keySlotOf s v).st = .empty) (hc : ctxOk s (kOwner v) = true)
    (hk : s.mod.keydata.extractLsb' 0 256 = s.mod.keydata.extractLsb' 256 256) :
    exec (.keyLoad v) s = .next (withMod s { keyDone s.mod v 4 with keydata := 0 }) := by
  show execKeyLoad v s = _
  rw [execKeyLoad]
  exact keyCmd_idle hr hb (m := { keyFields s.mod v with keydata := 0 }) ((if_neg (not_not.mpr (keyRefusal_none he hc))).trans (if_pos hk))

theorem keyGen_fills (he : (keySlotOf s v).st = .empty) (hc : ctxOk s (kOwner v) = true) : exec (.keyGen v) s =
    .next { withMod s (filled v .keyed true (Config.randomKey s.free) (keyDone s.mod v 0)) with free := s.free + 1 } := by
  show execKeyGen v s = _
  rw [execKeyGen, keyCmd_idle hr hb (if_neg (not_not.mpr (keyRefusal_none he hc)))]
  rfl

theorem keyPlain_fills (he : (keySlotOf s v).st = .empty) (hc : ctxOk s (kOwner v) = true) :
    exec (.keyPlain v) s = .next (withMod s (filled v .plain false 0 (keyDone s.mod v 0))) := by
  show execKeyPlain v s = _
  rw [execKeyPlain]
  exact keyCmd_idle hr hb (m := fillSlot (keyFields s.mod v) v .plain false 0) (if_neg (not_not.mpr (keyRefusal_none he hc)))

theorem keyPlain_refused (he : (keySlotOf s v).st ≠ .empty) : exec (.keyPlain v) s = .next (withMod s (keyDone s.mod v 1)) := by
  have hwhy : keyRefusal s v ≠ 0 := by rw [keyRefusal_filled he]; decide
  show execKeyPlain v s = _
  rw [execKeyPlain, keyCmd_idle hr hb (if_pos hwhy), keyRefusal_filled he]
  rfl

theorem keyDestroy_begins (he : (keySlotOf s v).st ≠ .empty) : exec (.keyDestroy v) s = .next (withMod s { keyDone s.mod v 0 with
    keys := FMap.put s.mod.keys (kSlot v) { keySlotOf s v with st := .destroying }, keyBusy := true }) := by
  show execKeyDestroy v s = _
  rw [execKeyDestroy]
  exact keyCmd_idle hr hb (m := { keyFields s.mod v with
    keys := FMap.put s.mod.keys (kSlot v) { keySlotOf s v with st := .destroying }, keyBusy := true }) (if_neg he)

theorem keyQuery_eq : exec (.keyQuery v) s = .next (withMod s { keyDone s.mod v 0 with keystat := keyStatOf (keySlotOf s v) }) := by
  show execKeyQuery v s = _
  rw [execKeyQuery]
  exact keyCmd_idle hr hb (m := { keyFields s.mod v with keystat := keyStatOf (keySlotOf s v) }) rfl

end

/-! ### The end of a drain (R74) -/

/-- The machine with the second-tier lines under the key of a slot given up; the lines of a PLAIN slot lie under none. -/
def linesDropped (s : State) (k : Nat) : State := if (keyOf s k).key = 0 then s else dropKeyLines s (keyOf s k).key

theorem linesDropped_fields (s : State) (k : Nat) : ∃ cs ds, linesDropped s k = { s with cores := cs, dies := ds } := by
  unfold linesDropped
  split
  · exact ⟨_, _, rfl⟩
  · exact ⟨_, _, rfl⟩

theorem keyDestroyDrainEnd_eq {s : State} {k : Nat} (hd : (FMap.get KeySlot.init s.mod.keys k).st = .destroying) (hu : slotInUse s k = false) :
    exec (.keyDestroyDrainEnd k) s = .next (withMod (linesDropped s k)
      { (linesDropped s k).mod with keys := FMap.erase (linesDropped s k).mod.keys k, keyBusy := false }) := by
  show execKeyDestroyDrainEnd k s = _
  exact if_neg (not_or.mpr ⟨not_not.mpr hd, Bool.eq_false_iff.mp hu⟩)

theorem keyDestroyDrainEnd_spec {s : State} {k : Nat} (hd : (FMap.get KeySlot.init s.mod.keys k).st = .destroying) (hu : slotInUse s k = false) :
    Completes (.keyDestroyDrainEnd k) s fun t =>
      t.mod = { s.mod with keys := FMap.erase s.mod.keys k, keyBusy := false } ∧ t.mem = s.mem ∧ t.seals = s.seals := by
  refine ⟨_, keyDestroyDrainEnd_eq hd hu, ?_⟩
  obtain ⟨cs, ds, he⟩ := linesDropped_fields s k
  rw [he]
  exact ⟨rfl, rfl, rfl⟩

/-! ### Fusing (R79) -/

theorem fwctlFuse_begins {s : State} (hr : s.mod.ready = true) (hv : s.mod.svnFused < s.mod.fwSvn) :
    exec .fwctlFuse s = .next (withMod s { s.mod with fusing := true }) :=
  if_neg (not_or.mpr ⟨not_not.mpr hr, BitVec.not_le.mpr hv⟩)

theorem fwctlFuseDone_eq {s : State} (hf : s.mod.fusing = true) :
    exec .fwctlFuseDone s = .next (withMod s { s.mod with svnFused := s.mod.fwSvn, fusing := false }) := if_neg (not_not.mpr hf)

/-! ### Measurements (R78, Table 3.14) -/

/-- The blocks that a request names: all of them, or the one of its index. -/
def blocksAsked (m : Module) (index : Nat) : List (Nat × List Byte) := (measurements m).filter fun b => index == 255 || b.1 == index

section
variable (s : State) (port : Nat) (nonce : BitVec 256)

theorem getMeasurements_known {index : Nat} (h : blocksAsked s.mod index ≠ []) : ∃ sg, exec (.getMeasurements port index nonce) s =
    replies { s with free := s.free + 1 } (.measurements port (blocksAsked s.mod index) sg) :=
  ⟨_, if_neg fun hn => h hn.1⟩

theorem getMeasurements_unknown {index : Nat} (h : blocksAsked s.mod index = []) (h0 : index ≠ 0) :
    exec (.getMeasurements port index nonce) s = replies s (.unsupported port) := if_pos ⟨h, h0⟩

theorem blocksAsked_all (m : Module) : blocksAsked m 255 = measurements m := List.filter_eq_self.mpr fun _ _ => rfl

theorem measurements_indices (m : Module) : (measurements m).map Prod.fst = [1, 2, 3, 4, 5] := rfl

/-- Each index from 1 to 5 names one block. -/
theorem blocksAsked_one (m : Module) {k : Nat} (hk : k ∈ [1, 2, 3, 4, 5]) : ∃ b, blocksAsked m k = [(k, b)] := by
  simp only [List.mem_cons, List.not_mem_nil, or_false] at hk
  rcases hk with rfl | rfl | rfl | rfl | rfl <;> exact ⟨_, rfl⟩

theorem blocksAsked_none (m : Module) {k : Nat} (h5 : 5 < k) (hk : k ≠ 255) : blocksAsked m k = [] := by
  refine List.filter_eq_nil_iff.mpr fun b hb => ?_
  have hidx : b.1 ∈ [1, 2, 3, 4, 5] := measurements_indices m ▸ List.mem_map_of_mem hb
  have hle : b.1 ≤ 5 := by
    simp only [List.mem_cons, List.not_mem_nil, or_false] at hidx
    omega
  simp only [Bool.or_eq_true, beq_iff_eq, not_or]
  exact ⟨hk, by omega⟩

theorem getMeasurements_all : ∃ l sg, exec (.getMeasurements port 255 nonce) s = replies { s with free := s.free + 1 } (.measurements port l sg) ∧
    l.map Prod.fst = [1, 2, 3, 4, 5] := by
  obtain ⟨sg, hsg⟩ := getMeasurements_known s port nonce (index := 255) (by rw [blocksAsked_all]; exact List.cons_ne_nil _ _)
  exact ⟨_, sg, hsg, blocksAsked_all s.mod ▸ measurements_indices s.mod⟩

theorem getMeasurements_one {k : Nat} (hk : k ∈ [1, 2, 3, 4, 5]) : ∃ b sg, exec (.getMeasurements port k nonce) s =
    replies { s with free := s.free + 1 } (.measurements port [(k, b)] sg) := by
  obtain ⟨b, hb⟩ := blocksAsked_one s.mod hk
  obtain ⟨sg, hsg⟩ := getMeasurements_known s port nonce (index := k) (hb ▸ List.cons_ne_nil _ _)
  exact ⟨b, sg, hb ▸ hsg⟩

end

/-- Settles O4: each key command by its refusal and its act, the drain by what it drops, the responder by the answer of each request. -/
theorem keyEvents : Obligations.KeyEvents := by
  refine ⟨fun s v hr hb => ⟨fun he hc => ⟨keyLoad_fills hr hb he hc, keyLoad_equal_halves hr hb he hc, keyGen_fills hr hb he hc, keyPlain_fills hr hb he hc⟩,
      fun he => ⟨keyPlain_refused hr hb he, keyDestroy_begins hr hb he⟩, keyQuery_eq hr hb⟩,
    fun s k hd hu => keyDestroyDrainEnd_spec hd hu, fun s => ⟨fwctlFuse_begins, fwctlFuseDone_eq⟩,
    fun s port off len nonce => ⟨rfl, rfl, rfl, rfl, rfl, ⟨_, rfl⟩, getMeasurements_all s port nonce, fun k hk => getMeasurements_one s port nonce hk,
      fun k h5 hk => getMeasurements_unknown s port nonce (blocksAsked_none s.mod h5 hk) (by omega), rfl⟩⟩

end Sys2Proof.Machine
end

