-- ==== Sys2Proof/Proofs/Outcomes.lean ====
section
/-! SUPPORT. A part of the state that an operation completes in, read off its outcome. -/
namespace Sys2Proof.Machine
open Sys2Proof.Claims

/-- The part f of the next state, if there is one. -/
def partAfter {α : Type} (f : State → α) (o : Host.Outcome State Fault Refusal) : Option α :=
  match o with
  | .next t => some (f t)
  | .fault _ => none
  | .refused _ => none

/-- An operation that completes with P does so in a state whose parts are those of its outcome. -/
theorem completes_part {i : Instr} {s : State} {P : State → Prop} {α : Type} {f : State → α} {a : α} (h : Completes i s P)
    (ha : partAfter f (exec i s) = some a) : ∃ t, P t ∧ f t = a := by
  obtain ⟨t, ht, hP⟩ := h
  rw [ht] at ha
  exact ⟨t, hP, Option.some.inj ha⟩

end Sys2Proof.Machine
end

