-- ==== Sys2Proof/Proofs/HostEvents.lean ====
section
/-! LAW. A host AtomicOp with SYSATOM = 0 at a die that is not present leaves no write in flight (R244, R406). -/
namespace Sys2Proof.Machine
open Sys2Proof.Claims

/-- A 1 GiB page of die 8 that may be read and written, SYSATOM = 0. Die 8 belongs to module 1, which a domain of module 0 alone has not. -/
def farLeaf : Word := 0x400000F
def farPlace : Phys := ⟨0, 8, 0, false, false, false, 0⟩

/-- The window of port 0 is open on context 0, whose first page is the far one, and the port's TLB holds its leaf. -/
def farWindow : State := { State.reset with
  mod := { Module.init with ready := true, winctx := 0x200 }
  mem := [(0, 1)]
  tlbs := [(1000, [⟨0, 2, 0, farLeaf⟩])] }

/-- FetchAdd of 77 to the 8 bytes at offset 0. -/
def farAdd : HostReq := ⟨0, 5, none, 0, 8, 77⟩

theorem farWindow_open : hostOpen farWindow farAdd = some 0 := by decide +kernel

theorem farWindow_free : hostHeld farWindow farAdd .amo = false := by decide +kernel

theorem farWindow_translates :
    translate farWindow (1000 + farAdd.port) 0 (winVa farWindow farAdd.off) .amo (mHost farWindow farAdd) = .ok farPlace 2 farLeaf := by decide +kernel

/-- The port performs the AtomicOp itself: neither does its page say SYSATOM, nor does FREECNT lie there. -/
theorem farPlace_byPort : ¬ (farPlace.sysatom = true ∨ isFreecnt farWindow farPlace = true) := by decide +kernel

/-- The write that the port owes after its answer goes to a die that is not present, where it completes at once, not performed. -/
theorem farAdd_leaves_no_write : partAfter State.xacts (exec (.hostAtomicop farAdd 0 0) farWindow) = some [] := rfl

/-- Refutes O3: an AtomicOp with SYSATOM = 0 need not leave its write among the accesses, since one to a die that is not present is over at once.
Unlike the clause on the AtomicOps of another die's home, this one does not ask that the die is present. -/
theorem not_hostEvents : ¬ Obligations.HostEvents := by
  intro h
  obtain ⟨-, -, -, hatomic, -⟩ := h
  obtain ⟨-, hpair, -⟩ := hatomic farWindow farAdd 0 0 0 2 farPlace farLeaf rfl rfl (.inr rfl) (by decide) rfl farWindow_open farWindow_free
    farWindow_translates (.inr (by decide))
  obtain ⟨t, ⟨-, -, x, hx, -⟩, ht⟩ := completes_part (hpair farPlace_byPort rfl) farAdd_leaves_no_write
  rw [ht] at hx
  exact List.not_mem_nil hx

end Sys2Proof.Machine
end

