-- ==== Sys2Proof/Proofs/SegmentEvents.lean ====
section
/-! LAW. The end of a pair's first run is traced, and TLOST in memory counts a record that finds its die's buffer full (R127 to R129, R169). -/
namespace Sys2Proof.Machine
open Sys2Proof.Claims

/-- A traced launch that runs on core 0. -/
def tracedLaunch : Launch :=
  { id := 1, queue := 0, num := 0, ctx := 0, cls := 0, eff := 0, stamp := 0, phase := .running, frames := 0, nply := 1, flags := 4, grain := 1
    dictva := 0, dictn := 0, codeva := 0, coden := 0, argva := 0, relgtc := 0, recva := 0, statusva := 0, plies := [], cores := [0], far := []
    dies := [0], resv := [0], relT := 0, relFirst := 0, released := [0], saved := [], restore := false, shares := [], sizes := [], asks := []
    refused := [], asking := [], granted := [], nabn := 0, nret := 0, preempts := 0, first := none, sig := 0, notify := none, status := 0
    badDict := false, cover := [], coverSh := [] }

/-- A core at the end of the first run of a rerun pair. -/
def firstRunDone : Core := { Core.init with
  mode := .run, launch := 1, arch := { Arch.init with uiGo := true }, rerun := some ⟨1, 0, 0, 0, false, []⟩ }

/-- Its die's trace buffer is full; its context is valid with a ring of 2^8 records, and TLOST is 0. -/
def fullTrace : State := { State.reset with
  cores := [(0, firstRunDone)], launches := [tracedLaunch], mem := [(0, 1), (56, 8)]
  dies := [(0, { Die.init with trace := List.replicate 256 ⟨0, 0, 0, 0, 0, 0, 0⟩ })] }

theorem firstRunDone_atBoundary : atBoundary firstRunDone = true := by decide +kernel

/-- The record of the rollback is dropped, and TLOST of the context entry, at bytes 60 to 63, counts it (R129). -/
theorem fullTrace_counts_lost : partAfter State.mem (exec (.rerunPairCompare 0) fullTrace) = some [(0, 1), (56, 8), (60, 1)] := by decide +kernel

/-- Refutes O13: the end of a pair's first run changes memory where the trace record of its rollback is dropped. Unlike the end of the second
run, the clause does not ask for a core that is `Untraced`. -/
theorem not_segmentEvents : ¬ Obligations.SegmentEvents := by
  intro h
  obtain ⟨-, -, -, -, -, herrors⟩ := h
  obtain ⟨-, -, -, -, hfirst, -⟩ := herrors fullTrace 0
  obtain ⟨t, ⟨-, hmem, -⟩, ht⟩ := completes_part (hfirst _ rfl rfl rfl firstRunDone_atBoundary rfl rfl rfl) fullTrace_counts_lost
  exact absurd (ht.symm.trans hmem) (by decide)

end Sys2Proof.Machine
end

