-- ==== Sys2Proof/Proofs/CommandParts.lean ====
section
/-! SUPPORT. The outcomes of a packet in the words of the statements: its shape and registers, the position it moves, the machine in which it is over
or has started (R83 to R86, R89, R90). -/
namespace Sys2Proof.Machine
open Sys2Proof.Claims

/-! ### Moving the position (R85, R90) -/

/-- r differs from q at most in its position: the ring's offset, the buffers entered, the handler. -/
def PositionOnly (q r : Queue) : Prop := ∃ st ih hd, r = { q with stack := st, inHandler := ih, head := hd }

theorem positionOnly_trans {q r t : Queue} (h : PositionOnly q r) (h' : PositionOnly r t) : PositionOnly q t := by
  obtain ⟨_, _, _, rfl⟩ := h
  obtain ⟨_, _, _, rfl⟩ := h'
  exact ⟨_, _, _, rfl⟩

theorem Queue.pop_positionOnly (q : Queue) : PositionOnly q q.pop := by
  unfold Queue.pop
  split
  · exact ⟨_, _, _, rfl⟩
  · split
    · exact ⟨_, _, _, rfl⟩
    · exact ⟨_, _, _, rfl⟩
  · exact ⟨_, _, _, rfl⟩

theorem Queue.unwind_positionOnly (n : Nat) (q : Queue) : PositionOnly q (Queue.unwind n q) := by
  induction n generalizing q with
  | zero => exact ⟨_, _, _, rfl⟩
  | succ n ih =>
    rw [Queue.unwind]
    split
    · split
      · exact positionOnly_trans q.pop_positionOnly (ih _)
      · exact ⟨_, _, _, rfl⟩
    · exact ⟨_, _, _, rfl⟩

theorem Queue.move_positionOnly (q : Queue) (o : Int) : PositionOnly q (q.move o) := by
  unfold Queue.move
  split
  · exact ⟨_, _, _, rfl⟩
  · exact positionOnly_trans ⟨_, _, _, rfl⟩ (Queue.unwind_positionOnly 9 _)

@[simp] theorem Queue.move_out (q : Queue) (o : Int) : (q.move o).out = q.out := by
  obtain ⟨_, _, _, h⟩ := q.move_positionOnly o
  rw [h]
@[simp] theorem Queue.move_nstart (q : Queue) (o : Int) : (q.move o).nstart = q.nstart := by
  obtain ⟨_, _, _, h⟩ := q.move_positionOnly o
  rw [h]
@[simp] theorem Queue.move_qctx (q : Queue) (o : Int) : (q.move o).qctx = q.qctx := by
  obtain ⟨_, _, _, h⟩ := q.move_positionOnly o
  rw [h]

theorem Queue.mayMove_iff (s : State) (o : Int) : (s.queue s.curQ).mayMove o = true ↔ MayMove s o := by
  unfold Queue.mayMove MayMove atQ
  cases (s.queue s.curQ).stack <;> simp

/-! ### Registers (R80) -/

theorem toNat_eq_zero_iff {n : Nat} (i : BitVec n) : i.toNat = 0 ↔ i = 0 := by
  rw [← BitVec.toNat_inj]
  simp

theorem Queue.reg_eq_creg (s : State) (i : BitVec 4) : (s.queue s.curQ).reg i.toNat = creg s i := by
  unfold Queue.reg creg
  simp only [toNat_eq_zero_iff]
  rfl

/-- What a register reads after one has been written: c0 stays 0. -/
theorem Queue.get_setReg (q : Queue) (i k : Nat) (v : Word) :
    FMap.get 0 (q.setReg i v).c k = if k = i ∧ i ≠ 0 then v else FMap.get 0 q.c k := by
  unfold Queue.setReg
  split
  · rename_i h
    simp [h]
  · rename_i h
    rw [FMap.get_set]
    simp [h]

theorem cmdVa_eq_cmdAddr (s : State) (f : Pkt) : cmdVa (s.queue s.curQ) f = cmdAddr s f := by
  unfold cmdVa cmdAddr
  rw [Queue.reg_eq_creg]
  rfl

/-! ### The machine after a packet (R83, R86) -/

theorem pktEnd_eq_ends (s : State) (f : Pkt) (v : Word) : pktEnd s s.curQ (s.queue s.curQ) f f.rd.toNat v = ends s f f.rd v := by
  unfold pktEnd ends Queue.setReg
  simp only [toNat_eq_zero_iff]
  rfl

/-- The packet a queue has started, as it stands among those outstanding. -/
def startedPkt (qq : Queue) (f : Pkt) (b : Bool) (w : QWait) : QPkt :=
  ⟨qq.nstart, b, f.rd.toNat, w, none, (match qq.stack with | [] => qq.head.toNat | _ => qq.callAt),
    (match qq.stack with | [] => 0 | fr :: _ => fr.idx), qq.stack.length⟩

/-- A queue that has started a packet. -/
def startedQueue (qq : Queue) (f : Pkt) (b : Bool) (w : QWait) : Queue :=
  { qq.move (pktUnits f) with out := qq.out ++ [startedPkt qq f b w], nstart := qq.nstart + 1 }

theorem starts_eq (s : State) (q : Nat) (qq : Queue) (f : Pkt) (b : Bool) (w : QWait) :
    starts s q qq f b w = s.setQueue q (startedQueue qq f b w) := by
  unfold starts
  rw [Queue.move_out, Queue.move_nstart]
  rfl

theorem startedQueue_qctx (qq : Queue) (f : Pkt) (b : Bool) (w : QWait) : (startedQueue qq f b w).qctx = qq.qctx := Queue.move_qctx _ _

section
variable {s : State} {f : Pkt} {xu : Nat}

theorem wellShaped_pktShape (h : WellShaped s f xu) : pktShape (s.queue s.curQ) f xu = true := by
  obtain ⟨h7, h23, hx, hext, hend⟩ := h
  unfold atQ at hend
  unfold pktShape
  cases hst : (s.queue s.curQ).stack with
  | nil => simp [h7, h23, hx, hext]
  | cons fr t => simp [h7, h23, hx, hext, hend fr t hst]

/-- A packet of one unit that writes no register and moves the position past itself. -/
theorem pktEnd_eq_goes (h : WellShaped s f 0) : pktEnd s s.curQ (s.queue s.curQ) f 0 0 = goes s 1 := by
  obtain ⟨-, -, hx, -, -⟩ := h
  unfold pktEnd goes pktUnits
  rw [hx]
  rfl

theorem ends_eq_goes (h : WellShaped s f 0) (hrd : f.rd = 0) (v : Word) : ends s f f.rd v = goes s 1 := by
  rw [← pktEnd_eq_goes h, ← pktEnd_eq_ends, hrd]
  rfl

/-! ### The outcomes of a packet (R84, R86) -/

variable {t : State} {ok : Bool} {body : Nat → Queue → CM State}

theorem cmdStep_next (hw : WellShaped s f xu) (ho : ok = true) (hb : body s.curQ (s.queue s.curQ) = .ok t) (ha : t.absent = none) :
    cmdStep s f xu ok body = .next t := cmdStep_acts (wellShaped_pktShape hw) ho hb ha

theorem cmdStep_finish (hw : WellShaped s f xu) (ho : ok = true) (hb : body s.curQ (s.queue s.curQ) = .ok t) :
    cmdStep s f xu ok body = finish t := by
  unfold cmdStep
  simp only [wellShaped_pktShape hw, ho, Bool.and_self, if_true, hb]

theorem cmdStep_freezes {e : CFault} (hw : WellShaped s f xu) (ho : ok = true) (hb : body s.curQ (s.queue s.curQ) = .error e) :
    cmdStep s f xu ok body = freezes s e.code e.lvl e.e e.va e.wr := cmdStep_fault (wellShaped_pktShape hw) ho hb

theorem cmdStep_bad_field (ho : ok = false) : cmdStep s f xu ok body = freezes s 33 7 0 0 false :=
  cmdStep_bad (by rw [ho, Bool.and_false])

end

end Sys2Proof.Machine
end

