-- ==== Sys2Proof/Proofs/CommandRegisterResults.lean ====
section
/-! LAW. Register commands write RD with the result of their operation (R87, R100). -/
namespace Sys2Proof.Machine
open Sys2Proof.Claims

section
variable {s : State} {f : Pkt} (ha : s.absent = none) (hw : WellShaped s f 0)
include ha hw

theorem cmdReg_ends {ok : Bool} (ho : ok = true) (v : Queue → Word) : cmdReg s f ok v = .next (ends s f f.rd (v (atQ s))) :=
  cmdStep_next hw ho (congrArg Except.ok (pktEnd_eq_ends s f _)) ha

theorem cmdAlu_ends (hi : f.imm = 0) (op : Word → Word → Word) : cmdAlu s f op = .next (ends s f f.rd (op (creg s f.ra) (creg s f.rb))) := by
  rw [← Queue.reg_eq_creg, ← Queue.reg_eq_creg]
  exact cmdReg_ends ha hw (beq_iff_eq.mpr hi) _

theorem cmdAlui_ends (hb : f.rb = 0) (op : Word → Word → Word) : cmdAlui s f op = .next (ends s f f.rd (op (creg s f.ra) (simm f))) := by
  rw [← Queue.reg_eq_creg]
  exact cmdReg_ends ha hw (beq_iff_eq.mpr hb) _

end

/-- A register command and its immediate form compute an operation of Table 4.2. -/
def ComputesAlu (e : (Pkt → Instr) × (Pkt → Instr) × (Word → Word → Word)) : Prop :=
  ∀ (f : Pkt) (s : State), exec (e.1 f) s = cmdAlu s f e.2.2 ∧ exec (e.2.1 f) s = cmdAlui s f e.2.2

theorem cMin_eq : cMin = fun x y => if y.toInt < x.toInt then y else x := by
  funext x y
  simp [cMin, BitVec.slt]

theorem cMax_eq : cMax = fun x y => if x.toInt < y.toInt then y else x := by
  funext x y
  simp [cMax, BitVec.slt]

/-- Each pair of Table 4.2 runs its operation, the minimum and maximum being those of signed numbers. -/
theorem commandAlu_computes : ∀ e ∈ commandAlu, ComputesAlu e := by
  have h : ∀ (r i : Pkt → Instr) (op : Word → Word → Word), (∀ f s, exec (r f) s = cmdAlu s f op) →
      (∀ f s, exec (i f) s = cmdAlui s f op) → ComputesAlu (r, i, op) := fun _ _ _ hr hi f s => ⟨hr f s, hi f s⟩
  unfold commandAlu
  rw [← cMin_eq, ← cMax_eq]
  simp only [List.forall_mem_cons, List.not_mem_nil, false_imp_iff, implies_true, and_true]
  refine ⟨?add, ?sub, ?and, ?or, ?xor, ?shl, ?shr, ?sra, ?min, ?max⟩ <;> exact h _ _ _ (fun _ _ => rfl) fun _ _ => rfl

/-- Settles O33: each register command is over at once, with the result of its operation in RD. -/
theorem commandRegisterResults : Obligations.CommandRegisterResults := by
  intro f s ha hw
  refine ⟨fun e he => ?alu, fun hra hrb => ⟨?li, ?lih⟩, fun hra hrb himm => ?rdgtc, fun hrd hra hrb himm => ?nop⟩
  case alu =>
    obtain ⟨hr, hi⟩ := commandAlu_computes e he f s
    exact ⟨fun himm => hr.trans (cmdAlu_ends ha hw himm _), fun hrb => hi.trans (cmdAlui_ends ha hw hrb _)⟩
  case li =>
    show execCmdLi f s = _
    rw [execCmdLi, cmdReg_ends ha hw (by simp [hra, hrb])]
    rfl
  case lih =>
    show execCmdLih f s = _
    rw [execCmdLih, cmdReg_ends ha hw (by simp [hra, hrb]), ← Queue.reg_eq_creg]
    rfl
  case rdgtc =>
    show execCmdRdgtc f s = _
    rw [execCmdRdgtc, cmdReg_ends ha hw (by simp [hra, hrb, himm])]
  case nop =>
    show execCmdNop f s = _
    rw [execCmdNop, cmdReg_ends ha hw (by simp [hrd, hra, hrb, himm]), ends_eq_goes hw hrd]

end Sys2Proof.Machine
end

