-- ==== Sys2Proof/Proofs/CommandControlFlow.lean ====
section
/-! LAW. Branches, loop, call and ret move the position (R84, R85, R89, R90). -/
namespace Sys2Proof.Machine
open Sys2Proof.Claims

/-- A conditional branch tests its two registers by the relation r. -/
def BranchesOn (i : Pkt → Instr) (r : Word → Word → Prop) : Prop :=
  ∃ c : Word → Word → Bool, (∀ f s, exec (i f) s = cmdBcc s f c) ∧ ∀ x y, c x y = true ↔ r x y

theorem commandBranches_branch : ∀ e ∈ commandBranches, BranchesOn e.1 e.2 := by
  unfold commandBranches
  simp only [List.forall_mem_cons, List.not_mem_nil, false_imp_iff, implies_true, and_true]
  refine ⟨⟨fun x y => x == y, fun _ _ => rfl, fun x y => ?eq⟩, ⟨fun x y => x != y, fun _ _ => rfl, fun x y => ?ne⟩,
    ⟨fun x y => x.slt y, fun _ _ => rfl, fun x y => ?lt⟩, ⟨fun x y => !x.slt y, fun _ _ => rfl, fun x y => ?ge⟩,
    ⟨fun x y => x.ult y, fun _ _ => rfl, fun x y => ?ltu⟩, ⟨fun x y => !x.ult y, fun _ _ => rfl, fun x y => ?geu⟩⟩
  case eq => exact beq_iff_eq
  case ne => exact bne_iff_ne
  case lt => exact BitVec.slt_iff_toInt_lt
  case ge => simp [BitVec.slt]
  case ltu => exact BitVec.ult_iff_toNat_lt
  case geu => simp [BitVec.ult]

/-- A queue past a call packet: where its buffer returns to. -/
def Queue.pastCall (q : Queue) : Queue :=
  match q.stack with
  | [] => q.skip 1
  | fr :: t => { q with stack := { fr with idx := fr.idx + 1 } :: t }
/-- A queue that has called the buffer of n units at VA a. -/
def Queue.entered (q : Queue) (a n : Nat) : Queue :=
  { q.pastCall with stack := ⟨a, n, 0⟩ :: q.pastCall.stack, callAt := match q.stack with | [] => q.head.toNat | _ => q.callAt }

/-- The buffer is the innermost; the position to return to is past the call, and the ring remembers the outermost call. -/
theorem Queue.entered_spec (q : Queue) (a n : Nat) :
    (q.entered a n).stack.head? = some ⟨a, n, 0⟩ ∧
      (q.entered a n).stack.tail = q.stack.modifyHead (fun fr => { fr with idx := fr.idx + 1 }) ∧
      (q.stack = [] → (q.entered a n).head = (q.skip 1).head ∧ (q.entered a n).callAt = q.head.toNat) ∧
      (q.stack ≠ [] → (q.entered a n).head = q.head ∧ (q.entered a n).callAt = q.callAt) ∧ (q.entered a n).c = q.c := by
  cases hst : q.stack with
  | nil => simp [Queue.entered, Queue.pastCall, Queue.skip, hst]
  | cons fr t => simp [Queue.entered, Queue.pastCall, hst]

section
variable {s : State} {f : Pkt} (ha : s.absent = none) (hw : WellShaped s f 0)
include ha hw

theorem cmdBranch_goes {ok : Bool} (ho : ok = true) (hm : MayMove s f.imm.toInt) (taken : Queue → Bool) :
    cmdBranch s f ok taken = .next (goes s (if taken (atQ s) then f.imm.toInt else 1)) :=
  cmdStep_next hw (Bool.and_eq_true_iff.mpr ⟨ho, (Queue.mayMove_iff s _).mpr hm⟩) rfl ha

theorem cmdBcc_goes (hrd : f.rd = 0) (hm : MayMove s f.imm.toInt) (c : Word → Word → Bool) :
    cmdBcc s f c = .next (goes s (if c (creg s f.ra) (creg s f.rb) then f.imm.toInt else 1)) := by
  rw [← Queue.reg_eq_creg, ← Queue.reg_eq_creg]
  exact cmdBranch_goes ha hw (beq_iff_eq.mpr hrd) hm _

theorem cmdLoop_goes (hra : f.ra = 0) (hrb : f.rb = 0) (hst : (atQ s).stack ≠ []) (hm : MayMove s f.imm.toInt) :
    let v := creg s f.rd - 1
    exec (.cmdLoop f) s = .next (s.setQueue s.curQ (((atQ s).move (if v ≠ 0 then f.imm.toInt else 1)).setReg f.rd.toNat v)) := by
  have hm' := (Queue.mayMove_iff s _).mpr hm
  unfold atQ at hst
  rw [← Queue.reg_eq_creg]
  show execCmdLoop f s = _
  unfold execCmdLoop
  exact cmdStep_next hw (by simp [hra, hrb, hst, hm']) rfl ha

theorem cmdCall_enters (hrd : f.rd = 0) (hrb : f.rb = 0) (h8 : (creg s f.ra).toNat % 8 = 0) (h1 : 1 ≤ f.imm.toNat) (hn : f.imm.toNat ≤ 65536)
    (hd : (atQ s).stack.length < 8) :
    exec (.cmdCall f) s = .next (s.setQueue s.curQ (Queue.entered (atQ s) (creg s f.ra).toNat f.imm.toNat)) := by
  have hok : ¬ ((creg s f.ra).toNat % 8 ≠ 0 ∨ f.imm.toNat < 1 ∨ f.imm.toNat > 65536) := by omega
  have hd' : ¬ (s.queue s.curQ).stack.length ≥ 8 := Nat.not_le.mpr hd
  show execCmdCall f s = _
  unfold execCmdCall
  refine cmdStep_next hw (by simp [hrd, hrb]) ?_ ha
  dsimp only
  rw [Queue.reg_eq_creg, if_neg hok, if_neg hd']
  rfl

theorem cmdRet_leaves (hrd : f.rd = 0) (hra : f.ra = 0) (hrb : f.rb = 0) (himm : f.imm = 0) (hst : (atQ s).stack ≠ []) :
    exec (.cmdRet f) s = .next (s.setQueue s.curQ (Queue.unwind 9 (atQ s).pop)) := by
  unfold atQ at hst
  show execCmdRet f s = _
  unfold execCmdRet
  exact cmdStep_next hw (by simp [hrd, hra, hrb, himm, hst]) rfl ha

end

/-- Settles O34: a branch moves by its offset or past itself as its test says; loop, call and ret by what they make of the queue. -/
theorem commandControlFlow : Obligations.CommandControlFlow := by
  intro f s ha hw
  refine ⟨fun e he hrd hm => ?branch, fun hrd hra hrb hm => ?jmp, fun hra hrb hst hm => cmdLoop_goes ha hw hra hrb hst hm,
    fun hrd hrb h8 h1 hn hd => ⟨_, cmdCall_enters ha hw hrd hrb h8 h1 hn hd, Queue.entered_spec _ _ _⟩,
    fun hrd hra hrb himm hst => cmdRet_leaves ha hw hrd hra hrb himm hst⟩
  case branch =>
    obtain ⟨c, hexec, hc⟩ := commandBranches_branch e he
    rw [hexec, cmdBcc_goes ha hw hrd hm]
    exact ⟨fun h => by rw [if_pos ((hc _ _).mpr h)], fun h => by rw [if_neg (mt (hc _ _).mp h)]⟩
  case jmp => exact cmdBranch_goes ha hw (by simp [hrd, hra, hrb]) hm fun _ => true

end Sys2Proof.Machine
end

