-- ==== Sys2Proof/Proofs/QueueEvents.lean ====
section
/-! LAW. The service of a queue, the return of an access, the interrupt of a descriptor (R80, R83, R86, R97, R102, R103). -/
namespace Sys2Proof.Machine
open Sys2Proof.Claims

/-! ### Service (R80, R83, R102) -/

section
variable {s : State} {q : Nat} {p : QPkt} (hout : (s.queue q).out = [p])
include hout

/-- A complete packet of an enabled queue writes its result and goes. -/
theorem recognise_done {v : Word} (hd : p.w = .done) (hr : p.res = some v) (hen : (s.queue q).en = true) :
    recognise s q = s.setQueue q { (s.queue q).setReg p.rd v with out := [] } := by
  have hdone : pktDone s q p = true := by simp only [pktDone, hd]
  simp [recognise, hout, hdone, hen, hr]

/-- A packet that is not complete stays. -/
theorem recognise_open (hd : pktDone s q p = false) : recognise s q = s.setQueue q (s.queue q) := by
  simp only [recognise, hout, List.foldl_cons, List.foldl_nil, hd, Bool.false_and, Bool.false_eq_true, if_false, Bool.not_false,
    List.filter_cons_of_pos, List.filter_nil]
  rw [← hout]

end

theorem serviceWait_none {s : State} {q : Nat} (hout : (s.queue q).out = []) : serviceWait s q = s := by
  simp only [serviceWait, hout, List.find?_nil]

theorem queueService_done {s : State} {q : Nat} {p : QPkt} {v : Word} (ha : s.absent = none) (hout : (s.queue q).out = [p]) (hd : p.w = .done)
    (hr : p.res = some v) (hen : (s.queue q).en = true) :
    exec (.queueService q) s = .next (s.setQueue q { (s.queue q).setReg p.rd v with out := [] }) := by
  show execQueueService q s = _
  unfold execQueueService
  dsimp only
  rw [recognise_done hout hd hr hen, serviceWait_none (congrArg Queue.out (State.queue_setQueue_same _ _ _)), ite_self]
  exact finish_next ha

/-! ### The return of an access (R83, R86) -/

theorem settlePkt_done {s : State} {q : Nat} {p : QPkt} (hd : p.w = .done) : settlePkt s q p = .ok s := by
  unfold settlePkt
  simp only [hd, ite_self]

theorem settle_done {s : State} {q : Nat} {p : QPkt} (hout : (s.queue q).out = [p]) (hd : p.w = .done) : settle s q = s := by
  simp [settle, hout, settlePkt_done hd]

theorem queueAccessReturn_completes {s : State} {q : Nat} {p : QPkt} {v : Word} (ha : s.absent = none) (hout : (s.queue q).out = [p])
    (hw : p.w = .access) (hr : p.res = some v) :
    exec (.queueAccessReturn q) s = .next (s.setQueue q { s.queue q with out := [{ p with w := .done }] }) := by
  show execQueueAccessReturn q s = _
  simp only [execQueueAccessReturn, hout, List.map_cons, List.map_nil, hw, hr]
  rw [settle_done (congrArg Queue.out (State.queue_setQueue_same _ _ _)) rfl]
  exact finish_next ha

/-! ### Interrupts (R97, R103) -/

/-- A descriptor with enough unsent events, or whose time has come: SENT takes COUNT, and the vector is signalled. -/
theorem sendDesc_sends {s s1 s2 : State} {ctx va q v : Nat} (hway : wayHeld s (tlbSpindle (q / 8)) ctx va 40 .amo mQueue = false)
    (hlines : linesOpen s (tlbSpindle (q / 8)) ctx va 40 mQueue = true) (hread : vaRead s (tlbSpindle (q / 8)) ctx va 40 mQueue = .ok (v, s1))
    (hen : fld v 0 8 / 2 ^ 11 % 2 = 1) (hn : (fld v 8 8 + 2 ^ 64 - fld v 16 8) % 2 ^ 64 ≠ 0)
    (hdue : fld v 32 8 + 256 * (fld v 0 8 / 2 ^ 16 % 2 ^ 16) ≤ s1.gtc ∨
      max 1 (fld v 0 8 / 2 ^ 32 % 2 ^ 16) ≤ (fld v 8 8 + 2 ^ 64 - fld v 16 8) % 2 ^ 64)
    (hwrite : vaWrite s1 (tlbSpindle (q / 8)) ctx (va + 16) 8 (fld v 8 8) mQueue = (s2, none)) :
    sendDesc s (ctx, va, q) false = (false, sendMsix s2 (portOf (q / 8)) (fld v 0 8 % 2 ^ 11)) := by
  have hheld : ¬ (wayHeld s (tlbSpindle (q / 8)) ctx va 40 .amo mQueue || !linesOpen s (tlbSpindle (q / 8)) ctx va 40 mQueue) = true := by
    simp [hway, hlines]
  have hsend : (fld v 0 8 / 2 ^ 11 % 2 == 1 && (false || decide (s1.gtc ≥ fld v 32 8 + 256 * (fld v 0 8 / 2 ^ 16 % 2 ^ 16)) ||
      decide ((fld v 8 8 + 2 ^ 64 - fld v 16 8) % 2 ^ 64 ≥ max 1 (fld v 0 8 / 2 ^ 32 % 2 ^ 16)))) = true := by
    rw [Bool.and_eq_true, Bool.or_eq_true, Bool.or_eq_true, decide_eq_true_iff, decide_eq_true_iff, beq_iff_eq]
    exact ⟨hen, hdue.imp_left .inr⟩
  unfold sendDesc
  dsimp only
  rw [if_neg hheld, hread]
  dsimp only
  rw [if_neg hn, if_pos hsend, hwrite]

/-- The turn of a die that tracks one descriptor whose interrupt goes out. -/
theorem interruptSend_one {s t : State} {d : Nat} {x : Nat × Nat × Nat} (htr : (s.die d).tracked = [x]) (hex : (s.die d).extra = [])
    (hsend : sendDesc s x false = (false, t)) (ha : t.absent = none) :
    exec (.interruptSend d) s = .next (t.setDie d { t.die d with tracked := [], extra := [] }) := by
  show execInterruptSend d s = _
  simp only [execInterruptSend, htr, hex, List.foldl_cons, List.foldl_nil, hsend, Bool.false_eq_true, if_false]
  exact finish_next ha

theorem sendMsix_absent (s : State) (port vec : Nat) : (sendMsix s port vec).absent = s.absent := by
  unfold sendMsix
  split <;> rfl

/-- Settles O9: the outstanding packet recognised or completed, and the one descriptor of a die sent. -/
theorem queueEvents : Obligations.QueueEvents := by
  refine ⟨fun s q p v ha hen hout => ⟨fun hd hr => ⟨_, queueService_done ha hout hd hr hen, ?service⟩,
    fun hw hr => ⟨_, queueAccessReturn_completes ha hout hw hr, ?answer⟩⟩, ?interrupt⟩
  case service =>
    beta_reduce
    rw [State.queue_setQueue_same]
    refine ⟨rfl, rfl, rfl, fun h0 => ?_, fun k hk => ?_⟩
    · exact (Queue.get_setReg _ _ _ v).trans (if_pos ⟨rfl, h0⟩)
    · exact (Queue.get_setReg _ _ _ v).trans (if_neg fun h => hk h.1)
  case answer =>
    beta_reduce
    rw [State.queue_setQueue_same]
    exact ⟨rfl, rfl, rfl⟩
  case interrupt =>
    intro s s1 s2 d ctx va q v htr hex hway hlines hread w0 n hen hn hdue hwrite ha
    exact interruptSend_one htr hex (sendDesc_sends hway hlines hread hen hn hdue hwrite) ((sendMsix_absent _ _ _).trans ha)

end Sys2Proof.Machine
end

