-- ==== Sys2Proof/Proofs/GtcWait.lean ====
section
/-! LAW. gtcwait: its start, and the service of one that waits (R93). -/
namespace Sys2Proof.Machine
open Sys2Proof.Claims

/-! ### The packet (R93) -/

section
variable {s : State} {f : Pkt} (ha : s.absent = none) (hw : WellShaped s f 0) (hrb : f.rb = 0) (himm : f.imm = 0)
include ha hw hrb himm

theorem cmdGtcwait_compares (hb : f.b = 0) :
    exec (.cmdGtcwait f) s = .next (ends s f f.rd (if (creg s f.ra).toNat ≤ s.gtc then 1 else 0)) := by
  show execCmdGtcwait f s = _
  unfold execCmdGtcwait
  refine cmdStep_next hw (by simp [hrb, himm, hb]) ?_ ha
  dsimp only
  rw [if_pos hb, Queue.reg_eq_creg, pktEnd_eq_ends]
  simp only [decide_eq_true_eq]

variable (hb : f.b = 1) (hrd : f.rd = 0)
include hb hrd

theorem cmdGtcwait_over (ht : (creg s f.ra).toNat ≤ s.gtc) : exec (.cmdGtcwait f) s = .next (goes s 1) := by
  have hb0 : f.b ≠ 0 := by simp [hb]
  show execCmdGtcwait f s = _
  unfold execCmdGtcwait
  refine cmdStep_next hw (by simp [hrb, himm, hrd]) ?_ ha
  dsimp only
  rw [if_neg hb0, Queue.reg_eq_creg, if_pos (decide_eq_true ht), pktEnd_eq_goes hw]

theorem cmdGtcwait_stays (ht : s.gtc < (creg s f.ra).toNat) :
    exec (.cmdGtcwait f) s = .next (starts s s.curQ (atQ s) f true (.gtc (creg s f.ra))) := by
  have hb0 : f.b ≠ 0 := by simp [hb]
  have ht' : ¬ decide ((creg s f.ra).toNat ≤ s.gtc) = true := by simp [ht]
  show execCmdGtcwait f s = _
  unfold execCmdGtcwait
  refine cmdStep_next hw (by simp [hrb, himm, hrd]) ?_ ha
  dsimp only
  rw [if_neg hb0, Queue.reg_eq_creg, if_neg ht']
  rfl

end

theorem cmdGtcwait_bad {s : State} {f : Pkt} (hb : f.b = 1) (hrd : f.rd ≠ 0) : exec (.cmdGtcwait f) s = freezes s 33 7 0 0 false := by
  show execCmdGtcwait f s = _
  unfold execCmdGtcwait
  have hbad : (f.b == 0 || f.rd == 0) = false := by
    rw [hb, Bool.or_eq_false_iff]
    exact ⟨rfl, beq_eq_false_iff_ne.mpr hrd⟩
  exact cmdStep_bad_field (by rw [hbad, Bool.and_false])

/-! ### Its service (R93, R102) -/

/-- The one packet of a queue that waits for a time: it goes once GTC has reached it. -/
theorem serviceWait_gtc {s : State} {q : Nat} {t : Word} {p : QPkt} (hout : (s.queue q).out = [p]) (hp : p.w = .gtc t) :
    serviceWait s q = if t.toNat ≤ s.gtc then dropPkt s q p.num else s := by
  simp only [serviceWait, hout, List.find?_cons, hp]

theorem queueService_gtc {s : State} {q : Nat} {t : Word} {p : QPkt} (ha : s.absent = none) (hf : (s.queue q).frozen = false)
    (hout : (s.queue q).out = [p]) (hp : p.w = .gtc t) : exec (.queueService q) s =
      .next (if t.toNat ≤ s.gtc then dropPkt (s.setQueue q (s.queue q)) q p.num else s.setQueue q (s.queue q)) := by
  have hopen : pktDone s q p = false := by simp only [pktDone, hp]
  have hf' : ¬ ((s.setQueue q (s.queue q)).queue q).frozen = true := by simp [hf]
  have hout' : ((s.setQueue q (s.queue q)).queue q).out = [p] := by rw [State.queue_setQueue_same, hout]
  show execQueueService q s = _
  unfold execQueueService
  dsimp only
  rw [recognise_open hout hopen, if_neg hf', serviceWait_gtc hout' hp]
  refine finish_next ?_
  split
  · exact ha
  · exact ha

/-- Settles O36: gtcwait by whether it blocks and whether its time has come, then the service of the one that waits. -/
theorem gtcWait : Obligations.GtcWait := by
  refine ⟨fun f s ha hw hrb himm => ⟨cmdGtcwait_compares ha hw hrb himm, cmdGtcwait_bad, cmdGtcwait_over ha hw hrb himm,
    cmdGtcwait_stays ha hw hrb himm⟩, fun s q t p ha hf hout hp => ?_⟩
  refine ⟨fun ht => ⟨_, queueService_gtc ha hf hout hp, ?reached⟩, fun ht => ⟨_, queueService_gtc ha hf hout hp, ?early⟩⟩
  case reached =>
    rw [if_pos ht]
    simp [dropPkt, hout]
  case early =>
    rw [if_neg (Nat.not_le.mpr ht), State.queue_setQueue_same]
    exact ⟨hout, rfl⟩

end Sys2Proof.Machine
end

