-- ==== Sys2Proof/Proofs/QueueAccesses.lean ====
section
/-! SUPPORT. An access of a queue: what keeping its translation changes, when it stays on its die, what leaves when it does not (R101, R186, R234,
R236, R406). -/
namespace Sys2Proof.Machine
open Sys2Proof.Claims

/-! ### Keeping a translation (R64, R186) -/

/-- t differs from s in its caches alone: lines and blocks of its L2s, TLBs, host translations, read-only pages. -/
def CachesOnly (s t : State) : Prop :=
  (∃ ds ats roc tlbs, t = { s with dies := ds, ats := ats, rocPages := roc, tlbs := tlbs }) ∧ ∀ d, (t.die d).unacked = (s.die d).unacked

theorem cachesOnly_refl (s : State) : CachesOnly s s := ⟨⟨_, _, _, _, rfl⟩, fun _ => rfl⟩

theorem cachesOnly_trans {s t u : State} (h : CachesOnly s t) (h' : CachesOnly t u) : CachesOnly s u := by
  obtain ⟨⟨_, _, _, _, rfl⟩, hun⟩ := h
  obtain ⟨⟨_, _, _, _, rfl⟩, hun'⟩ := h'
  exact ⟨⟨_, _, _, _, rfl⟩, fun d => (hun' d).trans (hun d)⟩

theorem cachesOnly_setDie (s : State) (d : Nat) {y : Die} (h : y.unacked = (s.die d).unacked) : CachesOnly s (s.setDie d y) := by
  refine ⟨⟨_, _, _, _, rfl⟩, fun k => ?_⟩
  rw [State.die_setDie]
  split
  · rename_i hk
    rw [h, hk]
  · rfl

theorem writeBack_cachesOnly (s : State) (d dom : Nat) (x : L2Line) : CachesOnly s (writeBack s d dom x) := by
  unfold writeBack
  split
  · exact cachesOnly_refl s
  · exact cachesOnly_setDie s d rfl

theorem touchL2_cachesOnly (s : State) (d dom loc pa : Nat) (wr nocomp : Bool) (page : Option (Nat × Nat)) :
    CachesOnly s (touchL2 s d dom loc pa wr nocomp page) := by
  unfold touchL2
  split
  · exact cachesOnly_refl s
  · extract_lets y line k l victim l' bad s1
    split
    · exact cachesOnly_setDie s d rfl
    · have h1 : CachesOnly s s1 := cachesOnly_setDie s d rfl
      clear_value s1 l' victim
      cases victim with
      | none => exact h1
      | some v => exact cachesOnly_trans h1 (writeBack_cachesOnly _ _ _ _)

theorem walkUse_cachesOnly (s : State) (ctx va : Nat) : CachesOnly s (walkUse s ctx va) := by
  unfold walkUse
  extract_lets root
  generalize walkLines s va 4 (ptrDie root) (ptrAddr root) = l
  clear root
  induction l generalizing s with
  | nil => exact cachesOnly_refl s
  | cons p l ih =>
    refine cachesOnly_trans ?_ (ih _)
    beta_reduce
    split
    · exact touchL2_cachesOnly _ _ _ _ _ _ _ _
    · exact cachesOnly_refl s

theorem tlbFill_cachesOnly (s : State) (t ctx va lvl : Nat) (e : Word) : CachesOnly s (tlbFill s t ctx va lvl e) := by
  unfold tlbFill
  extract_lets a s1 s2 x s3 l
  have h1 : CachesOnly s s1 := by
    unfold s1
    split
    · split
      · exact cachesOnly_refl s
      · exact ⟨⟨_, _, _, _, rfl⟩, fun _ => rfl⟩
    · exact cachesOnly_refl s
  have h2 : CachesOnly s1 s2 := by
    unfold s2
    split
    · exact cachesOnly_refl s1
    · exact walkUse_cachesOnly s1 ctx va
  have h3 : CachesOnly s2 s3 := by
    unfold s3
    split
    · exact ⟨⟨_, _, _, _, rfl⟩, fun _ => rfl⟩
    · exact cachesOnly_refl s2
  refine cachesOnly_trans (cachesOnly_trans h1 (cachesOnly_trans h2 h3)) ?_
  split
  · exact cachesOnly_refl s3
  · exact ⟨⟨_, _, _, _, rfl⟩, fun _ => rfl⟩

/-! ### Headers (Table 2.4) -/

section
variable (ptype len sdie sep ddie dep : Nat) (sys : Bool) (seq : BitVec 32) (va ctx group aop tag stamp : Nat)

theorem pkPtype_mkHdr : pkPtype (mkHdr ptype len sdie sep ddie dep sys seq va ctx group aop tag stamp) = ptype % 16 := by
  unfold pkPtype mkHdr
  rw [BitVec.extractLsb'_toNat, BitVec.toNat_ofNat, Nat.shiftRight_eq_div_pow]
  split <;> omega

theorem pkDdie_mkHdr : pkDdie (mkHdr ptype len sdie sep ddie dep sys seq va ctx group aop tag stamp) = ddie % 32 := by
  unfold pkDdie mkHdr
  rw [BitVec.extractLsb'_toNat, BitVec.toNat_ofNat, Nat.shiftRight_eq_div_pow]
  split <;> omega

theorem pkSys_mkHdr : pkSys (mkHdr ptype len sdie sep ddie dep sys seq va ctx group aop tag stamp) = sys := by
  unfold pkSys mkHdr
  rw [BitVec.getLsbD_ofNat, Nat.testBit_eq_decide_div_mod_eq]
  cases sys
  · simp only [Bool.false_eq_true, if_false, Nat.reduceLT, decide_true, Bool.true_and, decide_eq_false_iff_not]
    omega
  · simp only [if_true, Nat.reduceLT, decide_true, Bool.true_and, decide_eq_true_eq]
    omega

end

/-! ### Requests (R33, R234, R236) -/

theorem sendPacket_present {s : State} {p : Packet} (hp : diePresent s (pkDdie p.hdr) = true) (d ep : Nat) :
    ∃ r at_, sendPacket s d ep p = withRouter s d (epRouter ep) r ∧ ⟨p, at_, false, 0⟩ ∈ r.be := by
  unfold sendPacket
  rw [if_neg (not_not.mpr hp)]
  exact ⟨_, _, rfl, List.mem_append_right _ (List.mem_singleton_self _)⟩

/-- The request of access x, in a packet. -/
def CarriesRequest (x : Xact) (p : Packet) : Prop :=
  p.msg = .req x.id ∧ pkPtype p.hdr = reqPtype x % 16 ∧ pkDdie p.hdr = x.ph.die ∧ pkSys p.hdr = xSys x

/-- The home of an access is on another die of the module that is present, to which requests travel. -/
def HomeOnOtherDie (s : State) (die : Nat) (ph : Phys) : Prop :=
  ph.die ≠ die ∧ ph.loc ≠ 3 ∧ (localDie s ph.die).isSome = true ∧ diePresent s ph.die = true

/-- Which dies there are is a matter of the module's registers alone. -/
theorem homeOnOtherDie_congr {s t : State} (hm : t.mod = s.mod) {die : Nat} {ph : Phys} (h : HomeOnOtherDie s die ph) : HomeOnOtherDie t die ph := by
  unfold HomeOnOtherDie localDie diePresent at h ⊢
  rw [hm]
  exact h

theorem diePresent_lt {s : State} {j : Nat} (h : diePresent s j = true) : j < 32 := by
  unfold diePresent at h
  rw [Bool.and_eq_true, decide_eq_true_eq] at h
  exact h.1

theorem sendFresh_stays (s : State) {x : Xact} (h : x.ph.die = x.die ∨ x.ph.loc = 3) : sendFresh s x = s :=
  if_pos (.inr (h.imp_right .inl))

theorem sendFresh_leaves {s : State} {x : Xact} (hst : x.st = .fresh) (haway : HomeOnOtherDie s x.die x.ph)
    (hfree : isWrite x.kind = true → lineFree s (xDie x) x.ph.die (x.ph.pa / 128) x.num = true) :
    ∃ p y, sendFresh s x = sendPacket (setXact s y) (xDie x) (masterEp x) p ∧ CarriesRequest x p ∧
      ∃ num dv epoch, y = { x with st := .sent, num := num, dv := dv, epoch := epoch } := by
  obtain ⟨hdie, hloc, hlocal, hpres⟩ := haway
  have hgo : ¬ (x.st ≠ .fresh ∨ x.ph.die = x.die ∨ x.ph.loc = 3 ∨
      ¬ (isWrite x.kind = true → lineFree s (xDie x) x.ph.die (x.ph.pa / 128) x.num = true) ∨
      (x.mkind = 4 ∧ x.path = 6 ∧ localDie s x.ph.die = none ∧ ¬ (priorDone s x (fun _ => true) = true ∧ ¬ asksLeft s x = true))) := by
    rintro (h | h | h | h | ⟨-, -, h, -⟩)
    · exact h hst
    · exact hdie h
    · exact hloc h
    · exact h hfree
    · rw [h] at hlocal
      exact Bool.false_ne_true hlocal
  have hdrop : ∀ y : Xact, ¬ (isWrite x.kind = true ∧ ¬ diePresent (setXact s y) x.ph.die = true) := fun _ h => h.2 hpres
  unfold sendFresh
  dsimp only
  rw [if_neg hgo, if_neg (hdrop _)]
  refine ⟨_, _, rfl, ⟨if_pos hlocal, ?_, ?_, ?_⟩, _, _, _, rfl⟩
  · exact pkPtype_mkHdr _ _ _ _ _ _ _ _ _ _ _ _ _ _
  · exact (pkDdie_mkHdr _ _ _ _ _ _ _ _ _ _ _ _ _ _).trans (Nat.mod_eq_of_lt (diePresent_lt hpres))
  · exact pkSys_mkHdr _ _ _ _ _ _ _ _ _ _ _ _ _ _

/-! ### A new access (R101, R234) -/

/-- An access whose home is on its master's die or in host memory waits there for its turn. -/
theorem addXact_stays (s : State) {x : Xact} (h : x.ph.die = x.die ∨ x.ph.loc = 3) : addXact s x =
    { s with
      xacts := s.xacts ++ [{ x with id := s.nextId, num := if x.ph.die = x.die ∧ x.rel.isSome then (s.die (xDie x)).seq else 0 }]
      nextId := s.nextId + 1 } := by
  have haway : (decide (x.ph.die ≠ x.die) && x.ph.loc != 3 && isWrite x.kind) = false := by
    rcases h with h | h <;> simp [h]
  unfold addXact
  dsimp only
  rw [haway]
  exact sendFresh_stays _ h

/-- The number just given to a write bars no line that was free. -/
theorem lineFree_numberWrite {s : State} {d dd line : Nat} (h : ∀ u ∈ (s.die d).unacked, ¬ (u.2.1 = dd ∧ u.2.2 = line)) :
    lineFree (numberWrite s d dd line) d dd line (nextSeq s d) = true := by
  unfold lineFree numberWrite numberAll nextSeq
  rw [State.die_setDie_same, Bool.not_eq_true', List.any_eq_false]
  intro u hu
  rcases List.mem_append.mp hu with hold | hnew
  · have := h u hold
    simp only [Bool.and_eq_true, beq_iff_eq, not_and]
    exact fun hold' => absurd hold'.1 this
  · obtain rfl := List.mem_singleton.mp hnew
    simp

/-- The machine in which a write to another die has its number. -/
def numbered (s : State) (x : Xact) : State := if isWrite x.kind then numberWrite s (xDie x) x.ph.die (x.ph.pa / 128) else s

theorem numbered_dies (s : State) (x : Xact) : DiesOnly s (numbered s x) := by
  unfold numbered
  split
  · exact ⟨_, rfl⟩
  · exact diesOnly_refl s

/-- A new access to another die, as it enters the list. -/
def listed (s : State) (x : Xact) : Xact := { x with id := s.nextId, num := if isWrite x.kind then nextSeq s (xDie x) else 0 }

/-- The machine in which a new access to another die has entered the list. -/
def withListed (s : State) (x : Xact) : State := { numbered s x with xacts := (numbered s x).xacts ++ [listed s x], nextId := s.nextId + 1 }

theorem withListed_fields (s : State) (x : Xact) :
    ∃ ds, withListed s x = { s with dies := ds, xacts := s.xacts ++ [listed s x], nextId := s.nextId + 1 } := by
  obtain ⟨ds, h⟩ := numbered_dies s x
  unfold withListed
  rw [h]
  exact ⟨ds, rfl⟩

theorem lineFree_withListed {s : State} {x : Xact}
    (hfree : ∀ u ∈ (s.die (xDie x)).unacked, ¬ (u.2.1 = x.ph.die ∧ u.2.2 = x.ph.pa / 128)) (hw : isWrite x.kind = true) :
    lineFree (withListed s x) (xDie x) x.ph.die (x.ph.pa / 128) (listed s x).num = true := by
  have hnum : (listed s x).num = nextSeq s (xDie x) := if_pos hw
  have hn : numbered s x = numberWrite s (xDie x) x.ph.die (x.ph.pa / 128) := if_pos hw
  have hdie : (withListed s x).die (xDie x) = (numberWrite s (xDie x) x.ph.die (x.ph.pa / 128)).die (xDie x) := by
    rw [← hn]
    rfl
  have h := lineFree_numberWrite hfree
  unfold lineFree at h ⊢
  rw [hnum, hdie]
  exact h

section
variable {s : State} {x : Xact} (hst : x.st = .fresh) (haway : HomeOnOtherDie s x.die x.ph)
  (hfree : isWrite x.kind = true → ∀ u ∈ (s.die (xDie x)).unacked, ¬ (u.2.1 = x.ph.die ∧ u.2.2 = x.ph.pa / 128))
include haway

theorem addXact_away : addXact s x = sendFresh (withListed s x) (listed s x) := by
  obtain ⟨hdie, hloc, -, -⟩ := haway
  have hw : (decide (x.ph.die ≠ x.die) && x.ph.loc != 3 && isWrite x.kind) = isWrite x.kind := by simp [hdie, hloc]
  have hlocal : ¬ (x.ph.die = x.die ∧ x.rel.isSome = true) := fun h => hdie h.1
  have hid : (numbered s x).nextId = s.nextId := by
    obtain ⟨ds, h⟩ := numbered_dies s x
    rw [h]
  unfold addXact
  dsimp only
  rw [hw, if_neg hlocal]
  show sendFresh { numbered s x with
      xacts := (numbered s x).xacts ++ [{ x with id := (numbered s x).nextId, num := if isWrite x.kind then nextSeq s (xDie x) else 0 }]
      nextId := (numbered s x).nextId + 1 }
    { x with id := (numbered s x).nextId, num := if isWrite x.kind then nextSeq s (xDie x) else 0 } = _
  rw [hid]
  rfl

include hst hfree

/-- An access to another die leaves as a request, through the router of its master. -/
theorem addXact_leaves : (addXact s x).queues = s.queues ∧ (addXact s x).absent = s.absent ∧ ∃ y ∈ (addXact s x).xacts,
    (∃ num dv epoch, y = { x with id := s.nextId, st := .sent, num := num, dv := dv, epoch := epoch }) ∧
    ∃ b ∈ (((addXact s x).die (xDie x)).router (epRouter (masterEp x))).be, CarriesRequest y b.p := by
  obtain ⟨ds, hfields⟩ := withListed_fields s x
  have hmod : (withListed s x).mod = s.mod := by rw [hfields]
  have hqueues : (withListed s x).queues = s.queues := by rw [hfields]
  have habsent : (withListed s x).absent = s.absent := by rw [hfields]
  have hmem : listed s x ∈ (withListed s x).xacts := by
    rw [hfields]
    exact List.mem_append_right _ (List.mem_singleton_self _)
  have haway' : HomeOnOtherDie (withListed s x) (listed s x).die (listed s x).ph := homeOnOtherDie_congr hmod haway
  obtain ⟨p, y, hsend, hcarry, num, dv, epoch, hy⟩ :=
    sendFresh_leaves (x := listed s x) hst haway' fun hw => lineFree_withListed (hfree hw) hw
  have hpres : diePresent (setXact (withListed s x) y) (pkDdie p.hdr) = true := by
    obtain ⟨-, -, -, hpres⟩ := haway'
    obtain ⟨-, -, hddie, -⟩ := hcarry
    rw [hddie]
    exact hpres
  obtain ⟨r, at_, hpacket, hr⟩ := sendPacket_present hpres (xDie (listed s x)) (masterEp (listed s x))
  rw [addXact_away haway, hsend, hpacket]
  have hy_mem : y ∈ (setXact (withListed s x) y).xacts := List.mem_map.mpr ⟨listed s x, hmem, if_pos (by rw [hy])⟩
  refine ⟨hqueues, habsent, y, hy_mem, ⟨num, dv, epoch, hy⟩, ⟨p, at_, false, 0⟩, ?_, ?_⟩
  · exact (router_withRouter_same _ _ _ r).symm ▸ hr
  · rw [hy]
    exact hcarry

end

end Sys2Proof.Machine
end

