-- ==== Sys2Proof/Proofs/CommandMemoryAccess.lean ====
section
/-! LAW. ld, st and the signal commands send one access each (R86, R88, R91, R101, R234, R244). -/
namespace Sys2Proof.Machine
open Sys2Proof.Claims

/-! ### The access of a queue (R101) -/

/-- The access of queue q at va, translated to ph, before it has its number. -/
def queueXact (s : State) (q ctx va : Nat) (ph : Phys) (kind : XKind) (rel : Option Nat) (num : Nat) (ret : Ret) (wh : Word) : Xact :=
  { id := 0, mkind := 4, mid := q, die := s.dieBase + q / 8, path := 6, ctx := ctx, va := va, n := 8, ph := ph, kind := kind, rel := rel
    acq := none, sc := 4, seq := num, num := 0, dv := [], st := .fresh, t0 := s.gtc, val := 0, nack := false, ret := ret, wh := wh }

section
variable {s : State} {q va : Nat} {acc : AccT} (kind : XKind) (rel : Option Nat) (num : Nat) (ret : Ret) (wh : Word)

theorem queueAcc_ok {ph : Phys} {l : Nat} {e : Word} (h : translate s (tlbSpindle (q / 8)) (s.queue q).qctx.toNat va acc mQueue = .ok ph l e) :
    queueAcc s q va kind acc rel num ret wh = .ok (addXact (tlbFill s (tlbSpindle (q / 8)) (s.queue q).qctx.toNat va l e)
      (queueXact s q (s.queue q).qctx.toNat va ph kind rel num ret wh)) := by
  unfold queueAcc
  simp only [h]
  rfl

theorem queueAcc_fault {c l : Nat} {e : Word} (h : translate s (tlbSpindle (q / 8)) (s.queue q).qctx.toNat va acc mQueue = .fault c l e) :
    queueAcc s q va kind acc rel num ret wh = .error ⟨c, l, e, va % 2 ^ 56, decide (acc ≠ .read)⟩ := by
  unfold queueAcc
  simp only [h]

end

/-- The home of a queue's access is on its own die, or in host memory. -/
def HomeHere (s : State) (ph : Phys) : Prop := ph.die = s.dieBase + s.curQ / 8 ∨ ph.loc = 3

/-- s0 is s with another queue at the position, of the same context. -/
def QueueMoved (s s0 : State) : Prop := ∃ qq : Queue, s0 = s.setQueue s.curQ qq ∧ qq.qctx = (atQ s).qctx

theorem starts_moved (s : State) (f : Pkt) (b : Bool) (w : QWait) : QueueMoved s (starts s s.curQ (atQ s) f b w) :=
  ⟨_, starts_eq _ _ _ _ _ _, startedQueue_qctx _ _ _ _⟩

theorem counted_moved (s : State) : QueueMoved s (counted s) := ⟨_, rfl, Queue.move_qctx _ _⟩

section
variable {s s0 : State} (hs0 : QueueMoved s s0) {va l : Nat} {acc : AccT} {ph : Phys} {e : Word}
  (htr : translate s0 (tlbSpindle (s.curQ / 8)) (atQ s).qctx.toNat va acc mQueue = .ok ph l e) (kind : XKind) (rel : Option Nat) (ret : Ret)
include hs0

theorem accessed_absent : (accessed s s0 va kind rel ret ph l e).absent = s.absent := by
  obtain ⟨qq, rfl, -⟩ := hs0
  obtain ⟨⟨_, _, _, _, hfill⟩, -⟩ := tlbFill_cachesOnly (s.setQueue s.curQ qq) (tlbSpindle (s.curQ / 8)) (atQ s).qctx.toNat va l e
  exact (congrArg State.absent hfill :)

include htr

/-- The access of the packet at the position. -/
theorem queueAcc_at : queueAcc s0 s.curQ va kind acc rel (atQ s).nstart ret (atQ s).where =
    .ok (addXact (tlbFill s0 (tlbSpindle (s.curQ / 8)) (atQ s).qctx.toNat va l e)
      (queueXact s s.curQ (atQ s).qctx.toNat va ph kind rel (atQ s).nstart ret (atQ s).where)) := by
  obtain ⟨qq, rfl, hctx⟩ := hs0
  have hq : ((s.setQueue s.curQ qq).queue s.curQ).qctx = (atQ s).qctx := by rw [State.queue_setQueue_same, hctx]
  rw [← hq] at htr ⊢
  exact queueAcc_ok kind rel _ ret _ htr

theorem queueAcc_accessed (hown : HomeHere s ph) :
    queueAcc s0 s.curQ va kind acc rel (atQ s).nstart ret (atQ s).where = .ok (accessed s s0 va kind rel ret ph l e) := by
  rw [queueAcc_at hs0 htr kind rel ret]
  exact congrArg Except.ok (addXact_stays (x := queueXact s s.curQ (atQ s).qctx.toNat va ph kind rel (atQ s).nstart ret (atQ s).where) _ hown)

/-- To another die of the module the access leaves as a request. -/
theorem queueAcc_requests (haway : HomeOnOtherDie s (s.dieBase + s.curQ / 8) ph) (hrel : rel ≠ some 0)
    (hfree : isWrite kind = true → LineFree s ph) :
    ∃ t, queueAcc s0 s.curQ va kind acc rel (atQ s).nstart ret (atQ s).where = .ok t ∧ t.absent = s.absent ∧ t.queues = s0.queues ∧
      requested s t va (reqPtype (queueXact s s.curQ (atQ s).qctx.toNat va ph kind rel (atQ s).nstart ret (atQ s).where) % 16) kind rel ret ph := by
  refine ⟨_, queueAcc_at hs0 htr kind rel ret, ?_⟩
  obtain ⟨⟨_, _, _, _, hfill⟩, hun⟩ := tlbFill_cachesOnly s0 (tlbSpindle (s.curQ / 8)) (atQ s).qctx.toNat va l e
  generalize tlbFill s0 (tlbSpindle (s.curQ / 8)) (atQ s).qctx.toNat va l e = u at hfill hun ⊢
  obtain ⟨qq, rfl, -⟩ := hs0
  have hmod : u.mod = s.mod := by rw [hfill]; rfl
  have habs : u.absent = s.absent := by rw [hfill]; rfl
  have hqueues : u.queues = (s.setQueue s.curQ qq).queues := by rw [hfill]
  generalize hx : queueXact s s.curQ (atQ s).qctx.toNat va ph kind rel (atQ s).nstart ret (atQ s).where = x
  have hsys : xSys x = rel.isSome := by
    rw [← hx]
    cases rel with
    | none => rfl
    | some sc => simpa [xSys, queueXact] using hrel
  have hfree' : isWrite x.kind = true → ∀ v ∈ (u.die (xDie x)).unacked, ¬ (v.2.1 = x.ph.die ∧ v.2.2 = x.ph.pa / 128) := by
    rw [hun, ← hx]
    exact hfree
  have haway' : HomeOnOtherDie u x.die x.ph := by
    rw [← hx]
    exact homeOnOtherDie_congr hmod haway
  obtain ⟨hq, ha, y, hy, ⟨num, dv, epoch, hfields⟩, b, hb, hmsg, hptype, hddie, hsys'⟩ := addXact_leaves (by rw [← hx]; rfl) haway' hfree'
  refine ⟨ha.trans habs, hq.trans hqueues, y, hy, ?_⟩
  subst hx hfields
  exact ⟨rfl, rfl, rfl, rfl, rfl, rfl, rfl, rfl, rfl, rfl, b, hb, hmsg, hptype, hddie, hsys'.trans hsys⟩

end

/-! ### The commands (R88, R91) -/

section
variable {s t : State} {f : Pkt} (hw : WellShaped s f 0) (h8 : cmdAddr s f % 8 = 0)
include hw h8

theorem cmdLd_next (hrb : f.rb = 0) (hacc : queueAcc (starts s s.curQ (atQ s) f (f.b = 1) .access) s.curQ (cmdAddr s f) .rd .read none
    (atQ s).nstart (.queue s.curQ (atQ s).nstart) (atQ s).where = .ok t) (ha : t.absent = none) : exec (.cmdLd f) s = .next t := by
  show execCmdLd f s = _
  unfold execCmdLd
  refine cmdStep_next hw (by simp [hrb]) ?_ ha
  dsimp only
  rw [cmdVa_eq_cmdAddr, if_neg (not_not.mpr h8)]
  exact hacc

theorem cmdSt_next (hrd : f.rd = 0) (hacc : queueAcc (counted s) s.curQ (cmdAddr s f) (.wr (creg s f.rb).toNat) .write none (atQ s).nstart .none
    (atQ s).where = .ok t) (ha : t.absent = none) : exec (.cmdSt f) s = .next t := by
  show execCmdSt f s = _
  unfold execCmdSt
  refine cmdStep_next hw (by simp [hrd]) ?_ ha
  dsimp only
  rw [cmdVa_eq_cmdAddr, if_neg (not_not.mpr h8), Queue.reg_eq_creg]
  exact hacc

/-- A signal operation that host memory does not take has no effect. -/
theorem cmdSig_free {aop : Nat} {opa : Word → Word} (hhost : toHost s s.curQ (cmdAddr s f) = true ∧ ¬ hostAmo aop 64 = true)
    (ha : s.absent = none) :
    cmdSig s f aop opa = .next { ends s f f.rd (Config.freeValue s.free) with free := s.free + 1 } := by
  unfold cmdSig
  refine cmdStep_next hw rfl ?_ ha
  dsimp only
  rw [cmdVa_eq_cmdAddr, if_neg (not_not.mpr h8), if_pos hhost, pktEnd_eq_ends]

theorem cmdSig_next {aop : Nat} {opa : Word → Word} (hhost : ¬ (toHost s s.curQ (cmdAddr s f) = true ∧ ¬ hostAmo aop 64 = true))
    (hacc : queueAcc (starts s s.curQ (atQ s) f (f.b = 1) .access) s.curQ (cmdAddr s f) (.amo aop 64 (opa (creg s f.rb)) 0 0 0 0 false) .amo (some 4)
      (atQ s).nstart (.queue s.curQ (atQ s).nstart) (atQ s).where = .ok t) (ha : t.absent = none) : cmdSig s f aop opa = .next t := by
  unfold cmdSig
  refine cmdStep_next hw rfl ?_ ha
  dsimp only
  rw [cmdVa_eq_cmdAddr, if_neg (not_not.mpr h8), if_neg hhost, Queue.reg_eq_creg]
  exact hacc

end

theorem toHost_of_translate {s : State} {q va l : Nat} {ph : Phys} {e : Word}
    (h : translate s (tlbSpindle (q / 8)) (s.queue q).qctx.toNat va .amo mQueue = .ok ph l e) : toHost s q va = (ph.loc == 3) := by
  unfold toHost
  simp only [h]

/-- A signal command is one accumulate, with an operator that host memory takes unless it is a maximum or a minimum. -/
def Signals (g : (Pkt → Instr) × Nat × (Word → Word)) : Prop :=
  (∀ (f : Pkt) (s : State), exec (g.1 f) s = cmdSig s f g.2.1 g.2.2) ∧ (hostAmo g.2.1 64 = true ↔ g.2.1 ≠ 4 ∧ g.2.1 ≠ 5)

theorem commandSignals_signal : ∀ g ∈ commandSignals, Signals g := by
  unfold commandSignals
  simp only [List.forall_mem_cons, List.not_mem_nil, false_imp_iff, implies_true, and_true]
  refine ⟨⟨fun _ _ => rfl, ?set⟩, ⟨fun _ _ => rfl, ?add⟩, ⟨fun _ _ => rfl, ?sub⟩, ⟨fun _ _ => rfl, ?max⟩,
    ⟨fun _ _ => rfl, ?min⟩⟩ <;> decide

/-- Settles O35: what the access of each command is, then whether its home is here or on another die. -/
theorem commandMemoryAccess : Obligations.CommandMemoryAccess := by
  intro f s ha hw va tr own away st1
  have hst1 : QueueMoved s st1 := starts_moved s f (f.b = 1) .access
  have hcounted := counted_moved s
  refine ⟨fun hrb h8 ph l e htr haway => ?ldAway, fun hrd h8 ph l e htr haway hfree => ?stAway,
    fun g hg h8 ph l e htr0 htr haway hfree => ?sigAway, fun hrb h8 ph l e htr hown => ?ldHere, fun hrd h8 ph l e htr hown => ?stHere,
    fun g hg h8 ph l e htr0 => ⟨fun h3 haop => ?sigFree, fun hnot ph' l' e' htr hown => ?sigHere⟩⟩
  case ldAway =>
    obtain ⟨t, hacc, habs, hq, hreq⟩ := queueAcc_requests hst1 htr .rd none (.queue s.curQ (atQ s).nstart) haway nofun nofun
    exact ⟨t, cmdLd_next hw h8 hrb hacc (habs.trans ha), hq, hreq⟩
  case ldHere =>
    exact cmdLd_next hw h8 hrb (queueAcc_accessed hst1 htr _ _ _ hown) ((accessed_absent hst1 _ _ _).trans ha)
  case stAway =>
    obtain ⟨t, hacc, habs, hq, hreq⟩ := queueAcc_requests hcounted htr (.wr (creg s f.rb).toNat) none .none haway nofun fun _ => hfree
    exact ⟨t, cmdSt_next hw h8 hrd hacc (habs.trans ha), hq, hreq⟩
  case stHere =>
    exact cmdSt_next hw h8 hrd (queueAcc_accessed hcounted htr _ _ _ hown) ((accessed_absent hcounted _ _ _).trans ha)
  case sigAway =>
    obtain ⟨hexec, -⟩ := commandSignals_signal g hg
    have hloc : ph.loc ≠ 3 := by
      obtain ⟨-, hloc, -⟩ := haway
      exact hloc
    obtain ⟨t, hacc, habs, hq, hreq⟩ := queueAcc_requests hst1 htr (.amo g.2.1 64 (g.2.2 (creg s f.rb)) 0 0 0 0 false) (some 4)
      (.queue s.curQ (atQ s).nstart) haway (by simp) fun _ => hfree
    have hhost : ¬ (toHost s s.curQ (cmdAddr s f) = true ∧ ¬ hostAmo g.2.1 64 = true) := by
      rw [toHost_of_translate htr0, beq_iff_eq]
      exact fun h => hloc h.1
    exact ⟨t, (hexec f s).trans (cmdSig_next hw h8 hhost hacc (habs.trans ha)), hq, hreq⟩
  case sigFree =>
    obtain ⟨hexec, hamo⟩ := commandSignals_signal g hg
    have hhost : toHost s s.curQ (cmdAddr s f) = true ∧ ¬ hostAmo g.2.1 64 = true := by
      rw [toHost_of_translate htr0, beq_iff_eq, hamo]
      exact ⟨h3, by omega⟩
    exact (hexec f s).trans (cmdSig_free hw h8 hhost ha)
  case sigHere =>
    obtain ⟨hexec, hamo⟩ := commandSignals_signal g hg
    have hhost : ¬ (toHost s s.curQ (cmdAddr s f) = true ∧ ¬ hostAmo g.2.1 64 = true) := by
      rw [toHost_of_translate htr0, beq_iff_eq, hamo]
      exact fun h => hnot.elim (fun hn => hn h.1) h.2
    exact (hexec f s).trans (cmdSig_next hw h8 hhost (queueAcc_accessed hst1 htr _ _ _ hown) ((accessed_absent hst1 _ _ _).trans ha))

end Sys2Proof.Machine
end

