-- ==== Sys2Proof/Proofs/StartedPackets.lean ====
section
/-! SUPPORT. A packet that has just started and has something to read or record: it waits for the queue's earlier accesses, or goes on at once
(R83, R92, R97, R101). -/
namespace Sys2Proof.Machine
open Sys2Proof.Claims

@[simp] theorem startedPkt_num (qq : Queue) (f : Pkt) (b : Bool) (w : QWait) : (startedPkt qq f b w).num = qq.nstart := rfl

theorem startedPkt_where (qq : Queue) (f : Pkt) (b : Bool) (w : QWait) :
    whereOf (startedPkt qq f b w).ring (startedPkt qq f b w).idx (startedPkt qq f b w).depth = qq.where := by
  unfold startedPkt Queue.where
  cases qq.stack <;> rfl

section
variable (s : State) (f : Pkt) (b : Bool) (w : QWait)

theorem starts_out : ((starts s s.curQ (atQ s) f b w).queue s.curQ).out = (atQ s).out ++ [startedPkt (atQ s) f b w] := by
  rw [starts_eq, State.queue_setQueue_same]
  rfl

/-- Numbered as they start, the packets outstanding do not hide the one just started. -/
theorem starts_find (hn : Numbered s) :
    ((starts s s.curQ (atQ s) f b w).queue s.curQ).out.find? (fun p => p.num == (atQ s).nstart) = some (startedPkt (atQ s) f b w) := by
  have hold : (atQ s).out.find? (fun p => p.num == (atQ s).nstart) = none :=
    List.find?_eq_none.mpr fun p hp => by simpa using (hn p hp).ne
  rw [starts_out, List.find?_append, hold, List.find?_cons_of_pos (by simp)]
  rfl

theorem starts_settles (hn : Numbered s) :
    (match ((starts s s.curQ (atQ s) f b w).queue s.curQ).out.find? (fun p => p.num == (atQ s).nstart) with
      | some p => settlePkt (starts s s.curQ (atQ s) f b w) s.curQ p
      | none => .ok (starts s s.curQ (atQ s) f b w)) =
      settlePkt (starts s s.curQ (atQ s) f b w) s.curQ (startedPkt (atQ s) f b w) := by
  rw [starts_find s f b w hn]

theorem asksBefore_starts (q : Queue) (hq : q = (starts s s.curQ (atQ s) f b w).queue s.curQ) :
    asksBefore q (atQ s).nstart = asksBefore (atQ s) (atQ s).nstart := by
  subst hq
  unfold asksBefore
  rw [starts_out, List.any_append]
  simp

/-- With nothing of the queue's earlier packets left to make, the packet goes on. -/
theorem starts_quiet (hq : Quiet s) : ¬ (queueBusy (starts s s.curQ (atQ s) f b w) s.curQ (startedPkt (atQ s) f b w).num ||
    asksBefore ((starts s s.curQ (atQ s) f b w).queue s.curQ) (startedPkt (atQ s) f b w).num) = true := by
  obtain ⟨hbusy, hasks⟩ := hq
  rw [startedPkt_num, asksBefore_starts s f b w _ rfl, hasks, Bool.or_false, Bool.not_eq_true]
  exact hbusy

theorem settlePkt_busy (hb : queueBusy s s.curQ (atQ s).nstart = true) :
    settlePkt (starts s s.curQ (atQ s) f b w) s.curQ (startedPkt (atQ s) f b w) = .ok (starts s s.curQ (atQ s) f b w) :=
  if_pos (Bool.or_eq_true_iff.mpr (.inl hb))

end

/-- The machine in which a check() of packet p of queue q has read vs: its outcome (R92, R94). -/
def checked (s : State) (q : Nat) (p : QPkt) (any : Bool) (ops vs : List Word) : State :=
  let put : Word → State := fun v => dropPkt (s.setQueue q (if (s.queue q).en then (s.queue q).setReg p.rd v else s.queue q)) q p.num
  match waitOutcome (s.queue q) any ops vs with
  | .met => if p.b then dropPkt s q p.num else put 1
  | .notMet => if p.b then setWait s q p.num (.wait any ops) else put 0
  | .abort v => if p.b then abortQueue (dropPkt s q p.num) q v p.ring else put (-1)

section
variable {s s1 : State} {f : Pkt} (hq : Quiet s)
include hq

/-- A check() whose reads are all made at once has its outcome. -/
theorem settlePkt_checked {b any : Bool} {vs : List Word} (hreads : waitReads s.curQ (atQ s).nstart (atQ s).where f.ext []
    (starts s s.curQ (atQ s) f b (.ask any f.ext [])) = .ok (vs, s1)) (hlen : vs.length = f.ext.length) :
    settlePkt (starts s s.curQ (atQ s) f b (.ask any f.ext [])) s.curQ (startedPkt (atQ s) f b (.ask any f.ext [])) =
      .ok (checked s1 s.curQ (startedPkt (atQ s) f b (.ask any f.ext [])) any f.ext vs) := by
  have hall : ¬ vs.length < f.ext.length := hlen.not_lt
  unfold settlePkt
  dsimp only
  rw [startedPkt_where, if_neg (starts_quiet s f b _ hq)]
  simp only [startedPkt, List.length_nil, List.drop_zero, hreads]
  refine (if_neg hall).trans ?_
  unfold checked
  dsimp only
  cases waitOutcome (s1.queue s.curQ) any f.ext vs <;> rfl

/-- A notify whose place is free records its event and is over. -/
theorem settlePkt_note {b : Bool} {va : Nat} {v : Word} (hheld : recordHeld (starts s s.curQ (atQ s) f b (.note va v)) s.curQ va = false)
    (hev : notifyEvent (starts s s.curQ (atQ s) f b (.note va v)) s.curQ va v = .ok s1) :
    settlePkt (starts s s.curQ (atQ s) f b (.note va v)) s.curQ (startedPkt (atQ s) f b (.note va v)) =
      .ok (dropPkt s1 s.curQ (atQ s).nstart) := by
  unfold settlePkt
  dsimp only
  rw [if_neg (starts_quiet s f b _ hq)]
  simp only [startedPkt, hheld, hev, Bool.false_eq_true, if_false]

end

end Sys2Proof.Machine
end

