-- ==== Sys2Proof/Proofs/CommandWaiting.lean ====
section
/-! LAW. wait.all, wait.any, onabt, abort and flush (R92, R94, R100, R101). -/
namespace Sys2Proof.Machine
open Sys2Proof.Claims

/-! ### wait.all and wait.any (R92) -/

/-- The fields of a wait are legal: unused fields are zero, RD too with B, and each operand has a condition of Table 4.2. -/
def WaitLegal (f : Pkt) : Prop :=
  f.ra = 0 ∧ f.rb = 0 ∧ f.imm = 0 ∧ (f.b = 1 → f.rd = 0) ∧ ∀ u ∈ f.ext, u.toNat % 8 ≤ 5 ∧ u.toNat < 2 ^ 60

theorem bit_eq_one {b : BitVec 1} (h : b ≠ 0) : b = 1 := (BitVec.eq_zero_or_eq_one b).resolve_left h

theorem waitLegal_ok {f : Pkt} (h : WaitLegal f) :
    (f.ra == 0 && f.rb == 0 && f.imm == 0 && (f.b == 0 || f.rd == 0) && f.ext.all waitUnit) = true := by
  obtain ⟨hra, hrb, himm, hrd, hext⟩ := h
  have hb : (f.b == 0 || f.rd == 0) = true := by
    rw [Bool.or_eq_true, beq_iff_eq, beq_iff_eq]
    exact or_iff_not_imp_left.mpr fun h0 => hrd (bit_eq_one h0)
  have hunits : f.ext.all waitUnit = true := List.all_eq_true.mpr fun u hu => by
    obtain ⟨hcond, h60⟩ := hext u hu
    exact Bool.and_eq_true_iff.mpr ⟨decide_eq_true hcond, decide_eq_true h60⟩
  rw [hra, hrb, himm, hb, hunits]
  rfl

section
variable {s t s1 : State} {f : Pkt} {any : Bool} (hw : WellShaped s f (f.fn.toNat % 4 + 1)) (hf : WaitLegal f) (hn : Numbered s)
include hw hf hn

/-- A wait ends as its check() does once it has started. -/
theorem cmdWait_settles (h : settlePkt (starts s s.curQ (atQ s) f (f.b = 1) (.ask any f.ext [])) s.curQ
    (startedPkt (atQ s) f (f.b = 1) (.ask any f.ext [])) = .ok t) : cmdWait s f any = finish t := by
  unfold cmdWait
  exact cmdStep_finish hw (waitLegal_ok hf) ((starts_settles s f _ _ hn).trans h)

variable (hq : Quiet s) {vs : List Word} (hreads : waitReads s.curQ (atQ s).nstart (atQ s).where f.ext []
    (starts s s.curQ (atQ s) f (f.b = 1) (.ask any f.ext [])) = .ok (vs, s1)) (hlen : vs.length = f.ext.length)
include hq hreads hlen

/-- A check() at the start whose reads are all made. -/
theorem cmdWait_checked : cmdWait s f any =
    finish (checked s1 s.curQ (startedPkt (atQ s) f (f.b = 1) (.ask any f.ext [])) any f.ext vs) :=
  cmdWait_settles hw hf hn (settlePkt_checked hq hreads hlen)

/-- Without B the outcome goes to RD. -/
theorem cmdWait_answers (ha : s1.absent = none) (hb : f.b = 0) (hen : (s1.queue s.curQ).en = true) : cmdWait s f any =
    .next (dropPkt (s1.setQueue s.curQ ((s1.queue s.curQ).setReg f.rd.toNat
      (match waitOutcome (s1.queue s.curQ) any f.ext vs with | .met => 1 | .notMet => 0 | .abort _ => -1))) s.curQ (atQ s).nstart) := by
  rw [cmdWait_checked hw hf hn hq hreads hlen, hb]
  unfold checked
  rw [hen]
  cases waitOutcome (s1.queue s.curQ) any f.ext vs <;> exact finish_next ha

variable (hb : f.b = 1)
include hb

theorem cmdWait_met (ha : s1.absent = none) (hr : waitOutcome (s1.queue s.curQ) any f.ext vs = .met) :
    cmdWait s f any = .next (dropPkt s1 s.curQ (atQ s).nstart) := by
  rw [cmdWait_checked hw hf hn hq hreads hlen, hb]
  unfold checked
  rw [hr]
  exact finish_next ha

theorem cmdWait_waits (ha : s1.absent = none) (hr : waitOutcome (s1.queue s.curQ) any f.ext vs = .notMet) :
    cmdWait s f any = .next (setWait s1 s.curQ (atQ s).nstart (.wait any f.ext)) := by
  rw [cmdWait_checked hw hf hn hq hreads hlen, hb]
  unfold checked
  rw [hr]
  exact finish_next ha

theorem cmdWait_aborts {v : Word} (hr : waitOutcome (s1.queue s.curQ) any f.ext vs = .abort v) : cmdWait s f any =
    finish (abortQueue (dropPkt s1 s.curQ (atQ s).nstart) s.curQ v (match (atQ s).stack with | [] => (atQ s).head.toNat | _ => (atQ s).callAt)) := by
  rw [cmdWait_checked hw hf hn hq hreads hlen, hb]
  unfold checked
  rw [hr]
  rfl

end

/-! ### onabt, abort and flush (R94, R100) -/

section
variable {s : State} {f : Pkt}

theorem addrUnit_ok {u : Word} (h8 : u.toNat % 8 = 0) (h56 : u.toNat < 2 ^ 56) : addrUnit u = true :=
  Bool.and_eq_true_iff.mpr ⟨beq_iff_eq.mpr h8, decide_eq_true h56⟩

theorem cmdOnabt_sets (ha : s.absent = none) {sig buf : Word} (hext : f.ext = [sig, buf]) (hw : WellShaped s f 2) (hrd : f.rd = 0) (hra : f.ra = 0)
    (hrb : f.rb = 0) (hsig : addrUnit sig = true) (hbuf : addrUnit buf = true) (hn : f.imm.toNat ≤ 65536) (h0 : buf = 0 → f.imm = 0) :
    exec (.cmdOnabt f) s = .next (s.setQueue s.curQ { (atQ s).move 3 with abtsig := sig.toNat, hva := buf.toNat, hlen := f.imm.toNat }) := by
  have hxu : pktUnits f = 3 := by
    obtain ⟨-, -, hx, -, -⟩ := hw
    unfold pktUnits
    rw [hx]
  have hlen : (!(buf == 0 && f.imm != 0)) = true := by
    rw [Bool.not_eq_true', Bool.and_eq_false_iff, bne_eq_false_iff_eq, beq_eq_false_iff_ne]
    exact (em (buf = 0)).symm.imp_right h0
  show execCmdOnabt f s = _
  unfold execCmdOnabt
  simp only [hext, List.getD_cons_zero, List.getD_cons_succ]
  refine cmdStep_next hw ?_ ?_ ha
  · rw [hrd, hra, hrb, hsig, hbuf, hlen, decide_eq_true hn]
    rfl
  · rw [hxu]
    rfl

theorem cmdAbort_aborts (hw : WellShaped s f 0) (hrd : f.rd = 0) (hrb : f.rb = 0) (himm : f.imm = 0) : exec (.cmdAbort f) s =
    finish (abortQueue (goes s 1) s.curQ (if (creg s f.ra).toInt < 0 then creg s f.ra else -1)
      (match (atQ s).stack with | [] => (atQ s).head.toNat | _ => (atQ s).callAt)) := by
  show execCmdAbort f s = _
  unfold execCmdAbort
  refine cmdStep_finish hw (by simp [hrd, hrb, himm]) ?_
  simp only [pktEnd_eq_goes hw, Queue.reg_eq_creg, BitVec.msb_eq_toInt, decide_eq_true_eq]
  rfl

theorem cmdFlush_eq (ha : s.absent = none) (hw : WellShaped s f 0) (hrd : f.rd = 0) (hra : f.ra = 0) (hrb : f.rb = 0) (himm : f.imm = 0) :
    exec (.cmdFlush f) s = .next (if writesBefore s s.curQ (atQ s).nstart then starts s s.curQ (atQ s) f true .flush else goes s 1) := by
  show execCmdFlush f s = _
  unfold execCmdFlush
  refine cmdStep_next hw (by simp [hrd, hra, hrb, himm]) ?_ ?_
  · rw [pktEnd_eq_goes hw]
    rfl
  · split
    · exact ha
    · exact ha

end

/-- Settles O37: a wait by the outcome of its check(), then onabt, abort and flush. -/
theorem commandWaiting : Obligations.CommandWaiting := by
  refine fun f s ha => ⟨fun any hw hra hrb himm hrd hext hn => ?wait, fun sig buf hext hw hrd hra hrb h8 h56 hb8 hb56 hn h0 =>
    cmdOnabt_sets ha hext hw hrd hra hrb (addrUnit_ok h8 h56) (addrUnit_ok hb8 hb56) hn h0, fun hw hrd hrb himm ht =>
    (cmdAbort_aborts hw hrd hrb himm).trans (finish_next ht), fun hw hrd hra hrb himm => ?flush⟩
  case wait =>
    intro op st num
    have hf : WaitLegal f := ⟨hra, hrb, himm, hrd, hext⟩
    have hop : exec op s = cmdWait s f any := by cases any <;> rfl
    rw [hop]
    refine ⟨fun hbusy => (cmdWait_settles hw hf hn (settlePkt_busy s f _ _ hbusy)).trans (finish_next ha), fun hq vs s1 hreads hlen ha1 => ?_⟩
    exact ⟨cmdWait_answers hw hf hn hq hreads hlen ha1, fun hb => cmdWait_met hw hf hn hq hreads hlen hb ha1,
      fun hb => cmdWait_waits hw hf hn hq hreads hlen hb ha1, fun hb v => cmdWait_aborts hw hf hn hq hreads hlen hb⟩
  case flush =>
    rw [cmdFlush_eq ha hw hrd hra hrb himm]
    exact ⟨fun h => by rw [h]; rfl, fun h => by rw [h]; rfl⟩

end Sys2Proof.Machine
end

