-- ==== Sys2Proof/Proofs/CommandsHandWorkOn.lean ====
section
/-! LAW. launch, copy, fill, notify, slotld and shootdn hand their work on (R95 to R99). -/
namespace Sys2Proof.Machine
open Sys2Proof.Claims

section
variable {s s1 : State} {f : Pkt}

/-! ### Launches (R95) -/

section
variable {sig : Word} {l : Launch} {n : Bool} (hext : f.ext = [sig]) (himm : f.imm = 0) (hsig : addrUnit sig = true)
  (hrb : n = false → f.rb = 0)
include hext himm hsig hrb

theorem cmdLaunchAs_ok : (f.imm == 0 && addrUnit (f.ext.getD 0 0) && (n || f.rb == 0)) = true := by
  simp only [hext, List.getD_cons_zero, hsig, himm]
  cases n with
  | true => rfl
  | false => simp [hrb rfl]

variable (hw : WellShaped s f 1) (hread : readLaunch s s.curQ (creg s f.ra) (atQ s).where = .ok (l, s1))
include hw hread

/-- The launch that a command adds has its number, its signal and, with launch.n, its descriptor. -/
theorem cmdLaunchAs_adds (ha : s1.absent = none) (hdesc : n = true → (creg s f.rb).toNat % 64 = 0) : cmdLaunchAs s f n =
    let x := pendLaunch s1 { l with num := (atQ s).nstart, sig := sig.toNat, notify := if n then some (creg s f.rb).toNat else none }
    .next (starts { s1 with launches := s1.launches ++ [x] } s.curQ (s1.queue s.curQ) f (f.b = 1) (.launch x.id)) := by
  have hgo : ¬ (n = true ∧ (creg s f.rb).toNat % 64 ≠ 0) := fun h => h.2 (hdesc h.1)
  unfold cmdLaunchAs
  refine cmdStep_next hw (cmdLaunchAs_ok hext himm hsig hrb) ?_ ha
  simp only [Queue.reg_eq_creg, hext, List.getD_cons_zero]
  unfold atQ at hread
  rw [hread]
  exact if_neg hgo

theorem cmdLaunchAs_misaligned (hn : n = true) (hdesc : (creg s f.rb).toNat % 64 ≠ 0) :
    cmdLaunchAs s f n = freezes s 34 7 0 (creg s f.rb).toNat true := by
  unfold cmdLaunchAs
  refine cmdStep_freezes (e := CFault.misalign (creg s f.rb).toNat true) hw (cmdLaunchAs_ok hext himm hsig hrb) ?_
  simp only [Queue.reg_eq_creg]
  unfold atQ at hread
  rw [hread]
  exact if_pos ⟨hn, hdesc⟩

end

/-! ### Copies (R96) -/

section
variable {sig : Word} {fill : Bool} (hext : f.ext = [sig]) (hrd : f.rd = 0) (hsig : addrUnit sig = true)
  (h1 : 1 ≤ f.imm.toNat) (hn : f.imm.toNat < 2 ^ 31) (hfill : fill = true → f.imm.toNat % 8 = 0)
include hext hrd hsig h1 hn hfill

theorem cmdCopyAs_ok : (f.rd == 0 && addrUnit (f.ext.getD 0 0) && decide (1 ≤ f.imm.toNat) && decide (f.imm.toNat < 2 ^ 31) &&
    (!fill || f.imm.toNat % 8 == 0)) = true := by
  simp only [hext, List.getD_cons_zero, hsig, hrd, decide_eq_true h1, decide_eq_true hn]
  cases fill with
  | true => simp [hfill rfl]
  | false => rfl

variable (hw : WellShaped s f 1)
include hw

/-- A copy or fill joins the Spindle's own channel. -/
theorem cmdCopyAs_joins (ha : s.absent = none) (h8 : fill = true → (creg s f.ra).toNat % 8 = 0) : cmdCopyAs s f fill =
    .next (starts { s with qcopies := s.qcopies ++ [⟨s.curQ, (atQ s).nstart, fill, (creg s f.ra).toNat,
      if fill then (creg s f.ra).toNat else (creg s f.rb).toNat, f.imm.toNat, creg s f.rb, 0, sig.toNat, false, 0, false, [], none⟩] }
      s.curQ (atQ s) f (f.b = 1) .copy) := by
  have hgo : ¬ (fill = true ∧ (creg s f.ra).toNat % 8 ≠ 0) := fun h => h.2 (h8 h.1)
  unfold cmdCopyAs
  refine cmdStep_next hw (cmdCopyAs_ok hext hrd hsig h1 hn hfill) ?_ ha
  simp only [Queue.reg_eq_creg, hext, List.getD_cons_zero]
  exact if_neg hgo

theorem cmdCopyAs_misaligned (hf : fill = true) (h8 : (creg s f.ra).toNat % 8 ≠ 0) :
    cmdCopyAs s f fill = freezes s 34 7 0 (creg s f.ra).toNat true := by
  unfold cmdCopyAs
  refine cmdStep_freezes (e := CFault.misalign (creg s f.ra).toNat true) hw (cmdCopyAs_ok hext hrd hsig h1 hn hfill) ?_
  simp only [Queue.reg_eq_creg]
  exact if_pos ⟨hf, h8⟩

end

/-! ### Notify (R97) -/

/-- A notify whose place translates goes as its event does. -/
theorem cmdNotify_settles {t : State} (hw : WellShaped s f 0) (hrd : f.rd = 0) (h64 : cmdAddr s f % 64 = 0) (hn : Numbered s) {ph : Phys} {l : Nat}
    {e : Word} (htr : translate s (tlbSpindle (s.curQ / 8)) (atQ s).qctx.toNat (cmdAddr s f) .amo mQueue = .ok ph l e)
    (h : settlePkt (starts s s.curQ (atQ s) f false (.note (cmdAddr s f) (creg s f.rb))) s.curQ
      (startedPkt (atQ s) f false (.note (cmdAddr s f) (creg s f.rb))) = .ok t) (ha : t.absent = none) : exec (.cmdNotify f) s = .next t := by
  unfold atQ at htr
  show execCmdNotify f s = _
  unfold execCmdNotify
  refine cmdStep_next hw (by simp [hrd]) ?_ ha
  simp only [cmdVa_eq_cmdAddr, Queue.reg_eq_creg, htr]
  exact (if_neg (not_not.mpr h64)).trans ((starts_settles s f _ _ hn).trans h)

/-! ### Loads of slot tables (R98) -/

/-- The load a queue's slotld sends: answered at once with 3 where its unit is not there. -/
def queueLoad (s1 : State) (q num : Nat) (u t : Word) (img : Nat) : SlotLoad :=
  ⟨u.toNat % 32, u.toNat / 32 % 64, slotImage img, t.toNat, .inl (q, num),
    if diePresent s1 (u.toNat % 32) && unitExists (u.toNat % 32 % 8) (u.toNat / 32 % 64) then none else some 3⟩

theorem queueLoad_img (s1 : State) (q num : Nat) (u t : Word) (img : Nat) : (queueLoad s1 q num u t img).img = slotImage img := by
  simp only [queueLoad]

theorem cmdSlotld_sends {u : Word} {img : Nat} (hext : f.ext = [u]) (hw : WellShaped s f 1) (himm : f.imm = 0) (hu : u.toNat < 2 ^ 11)
    (hunit : u.toNat / 32 % 64 ≤ 58) (hread : vaRead s (tlbSpindle (s.curQ / 8)) (atQ s).qctx.toNat (creg s f.ra).toNat 4096
      (mQ s s.curQ (atQ s).where) = .ok (img, s1)) (ha : s1.absent = none) :
    exec (.cmdSlotld f) s = .next (starts { s1 with slotLoads := s1.slotLoads ++ [queueLoad s1 s.curQ (atQ s).nstart u (creg s f.rb) img] }
      s.curQ (s1.queue s.curQ) f (f.b = 1) (.slotld 0)) := by
  unfold atQ at hread
  show execCmdSlotld f s = _
  unfold execCmdSlotld
  simp only [hext, List.getD_cons_zero]
  refine cmdStep_next hw ?_ ?_ ha
  · rw [himm, decide_eq_true hu, decide_eq_true hunit]
    rfl
  · simp only [Queue.reg_eq_creg]
    rw [hread]
    rfl

/-! ### Shoot-downs (R99) -/

theorem cmdShootdn_asks (ha : s.absent = none) (hw : WellShaped s f 0) (hrb : f.rb = 0) (himm : f.imm = 0) :
    let v := creg s f.ra
    v.getLsbD 0 = false → v.getLsbD 14 = false → (v.extractLsb' 1 9).toNat = (atQ s).qctx.toNat → v.getLsbD 10 = false →
    spanAligned (v.extractLsb' 11 2).toNat ((v.extractLsb' 16 40).toNat * 65536) = true → v.toNat < 2 ^ 56 →
    exec (.cmdShootdn f) s = .next (starts { s with shoots := s.shoots ++ [⟨(atQ s).qctx.toNat, false, (v.extractLsb' 11 2).toNat, v.getLsbD 13,
      (v.extractLsb' 16 40).toNat * 65536, .queue s.curQ (atQ s).nstart, none, false⟩] } s.curQ (atQ s) f (f.b = 1) (.shootdn 0)) := by
  intro v h0 h14 hctx hall hspan h56
  have hgo : ¬ (v.getLsbD 0 = true ∨ v.getLsbD 14 = true ∨ (v.extractLsb' 1 9).toNat ≠ (s.queue s.curQ).qctx.toNat ∨ v.getLsbD 10 = true ∨
      ¬ spanAligned (v.extractLsb' 11 2).toNat ((v.extractLsb' 16 40).toNat * 65536) = true ∨ v.toNat ≥ 2 ^ 56) := by
    simp only [h0, h14, hall, hspan, Bool.false_eq_true, not_true_eq_false, false_or, not_or, not_not]
    exact ⟨hctx, Nat.not_le.mpr h56⟩
  show execCmdShootdn f s = _
  unfold execCmdShootdn
  refine cmdStep_next hw (by simp [hrb, himm]) ?_ ha
  simp only [Queue.reg_eq_creg, shootOf]
  rw [← hctx, ← hall]
  exact if_neg hgo

end

/-- Settles O38: a launch once its record is read, the others at their start; notify by its event. -/
theorem commandsHandWorkOn : Obligations.CommandsHandWorkOn := by
  refine fun f s ha => ⟨fun sig hext hw himm h8 h56 l s1 hread ha1 => ?launch, fun sig hext hw hrd h8 h56 h1 hn => ?copy,
    fun hw hrd h64 hn ph l e htr => ?notify, fun u hext hw himm hu hunit img s1 hread ha1 => ?slotld,
    fun hw hrb himm => cmdShootdn_asks ha hw hrb himm⟩
  case launch =>
    have hsig := addrUnit_ok h8 h56
    exact ⟨fun hrb => cmdLaunchAs_adds hext himm hsig (fun _ => hrb) hw hread ha1 nofun,
      fun hdesc => cmdLaunchAs_adds (n := true) hext himm hsig nofun hw hread ha1 fun _ => hdesc⟩
  case copy =>
    have hsig := addrUnit_ok h8 h56
    exact ⟨cmdCopyAs_joins (fill := false) hext hrd hsig h1 hn nofun hw ha nofun,
      fun hn8 ha8 => cmdCopyAs_joins (fill := true) hext hrd hsig h1 hn (fun _ => hn8) hw ha fun _ => ha8⟩
  case notify =>
    exact ⟨fun hbusy => cmdNotify_settles hw hrd h64 hn htr (settlePkt_busy s f _ _ hbusy) ha,
      fun hq hheld s1 hev ha1 => cmdNotify_settles hw hrd h64 hn htr (settlePkt_note hq hheld hev) ha1⟩
  case slotld => exact ⟨queueLoad s1 s.curQ (atQ s).nstart u (creg s f.rb) img, rfl, rfl, queueLoad_img _ _ _ _ _ _, rfl,
    cmdSlotld_sends hext hw himm hu hunit hread ha1⟩

end Sys2Proof.Machine
end

