-- ==== Sys2Proof/Proofs/CommandRefusals.lean ====
section
/-! LAW. What freezes a queue with nothing else done, and the abort procedure (R85, R86, R88 to R91, R94 to R96). -/
namespace Sys2Proof.Machine
open Sys2Proof.Claims

section
variable {s : State} {f : Pkt}

/-! ### The position (R85, R89, R90) -/

/-- An offset that leaves the packet's ring or buffer is refused, taken or not. -/
theorem cmdBranch_refused {ok : Bool} {taken : Queue → Bool} (hm : ¬ MayMove s f.imm.toInt) : cmdBranch s f ok taken = freezes s 33 7 0 0 false := by
  have hm' := Bool.eq_false_iff.mpr (mt (Queue.mayMove_iff s f.imm.toInt).mp hm)
  exact cmdStep_bad_field (by rw [hm', Bool.and_false])

theorem cmdLoop_at_ring (hst : (atQ s).stack = []) : exec (.cmdLoop f) s = freezes s 33 7 0 0 false := by
  unfold atQ at hst
  show execCmdLoop f s = _
  unfold execCmdLoop
  exact cmdStep_bad_field (by simp [hst])

theorem cmdRet_at_ring (hst : (atQ s).stack = []) : exec (.cmdRet f) s = freezes s 33 7 0 0 false := by
  unfold atQ at hst
  show execCmdRet f s = _
  unfold execCmdRet
  exact cmdStep_bad_field (by simp [hst])

variable (hw : WellShaped s f 0)
include hw

/-- At most eight buffers nest. -/
theorem cmdCall_too_deep (hrd : f.rd = 0) (hrb : f.rb = 0) (h8 : (creg s f.ra).toNat % 8 = 0) (h1 : 1 ≤ f.imm.toNat) (hn : f.imm.toNat ≤ 65536)
    (hd : 8 ≤ (atQ s).stack.length) : exec (.cmdCall f) s = freezes s 35 7 0 0 false := by
  have hok : ¬ ((creg s f.ra).toNat % 8 ≠ 0 ∨ f.imm.toNat < 1 ∨ f.imm.toNat > 65536) := by omega
  show execCmdCall f s = _
  unfold execCmdCall
  refine cmdStep_freezes (e := ⟨35, 7, 0, 0, false⟩) hw (by simp [hrd, hrb]) ?_
  dsimp only
  rw [Queue.reg_eq_creg, if_neg hok]
  exact if_pos hd

/-! ### Addresses (R86, R88, R91) -/

section
variable (h8 : cmdAddr s f % 8 ≠ 0)
include h8

theorem cmdLd_misaligned (hrb : f.rb = 0) : exec (.cmdLd f) s = freezes s 34 7 0 (cmdAddr s f) false := by
  show execCmdLd f s = _
  unfold execCmdLd
  refine cmdStep_freezes (e := CFault.misalign (cmdAddr s f) false) hw (by simp [hrb]) ?_
  dsimp only
  rw [cmdVa_eq_cmdAddr]
  exact if_pos h8

theorem cmdSt_misaligned (hrd : f.rd = 0) : exec (.cmdSt f) s = freezes s 34 7 0 (cmdAddr s f) true := by
  show execCmdSt f s = _
  unfold execCmdSt
  refine cmdStep_freezes (e := CFault.misalign (cmdAddr s f) true) hw (by simp [hrd]) ?_
  dsimp only
  rw [cmdVa_eq_cmdAddr]
  exact if_pos h8

theorem cmdSig_misaligned (aop : Nat) (opa : Word → Word) : cmdSig s f aop opa = freezes s 34 7 0 (cmdAddr s f) true := by
  unfold cmdSig
  refine cmdStep_freezes (e := CFault.misalign (cmdAddr s f) true) hw rfl ?_
  dsimp only
  rw [cmdVa_eq_cmdAddr]
  exact if_pos h8

end

/-- A refused translation freezes the queue with its own code. -/
theorem cmdLd_untranslated (hrb : f.rb = 0) (h8 : cmdAddr s f % 8 = 0) {c l : Nat} {e : Word}
    (htr : translate (starts s s.curQ (atQ s) f (f.b = 1) .access) (tlbSpindle (s.curQ / 8)) (atQ s).qctx.toNat (cmdAddr s f) .read mQueue =
      .fault c l e) : exec (.cmdLd f) s = freezes s c l e (cmdAddr s f % 2 ^ 56) false := by
  have hctx : ((starts s s.curQ (atQ s) f (f.b = 1) .access).queue s.curQ).qctx = (atQ s).qctx := by
    rw [starts_eq, State.queue_setQueue_same, startedQueue_qctx]
  rw [← hctx] at htr
  show execCmdLd f s = _
  unfold execCmdLd
  refine cmdStep_freezes (e := ⟨c, l, e, cmdAddr s f % 2 ^ 56, false⟩) hw (by simp [hrb]) ?_
  dsimp only
  rw [cmdVa_eq_cmdAddr, if_neg (not_not.mpr h8)]
  exact queueAcc_fault .rd none _ _ _ htr

end

/-! ### The abort procedure without a signal (R94) -/

/-- A queue whose abort procedure has written value v to c15 and left every buffer; its write of ABTSIG has taken its number. -/
def Queue.unbuffered (q : Queue) (v : Word) : Queue :=
  { q.setReg 15 v with stack := [], inHandler := false, far := [], seen := none, abort := none, nstart := q.nstart + 1 }
/-- A queue that has left its buffers for the abort handler, entered once, or else has discarded the ring. -/
def Queue.afterAbort (q : Queue) : Queue :=
  if q.hlen = 0 then q.drain else { q with stack := [⟨q.hva, q.hlen, 0⟩], inHandler := true, hlen := 0, callAt := q.head.toNat }

theorem dropUnits_queue (s : State) (q : Nat) : (dropUnits s q).queue q = { s.queue q with far := [], seen := none } :=
  State.queue_setQueue_same _ _ _

theorem abortRest_silent {s : State} {q : Nat} (h : (s.queue q).abtsig = 0) (v : Word) (ring : Nat) : abortRest s q v ring =
    s.setQueue q (Queue.afterAbort { s.queue q with abort := none, nstart := (s.queue q).nstart + 1 }) := by
  have hwalk : ¬ ((s.queue q).abtsig ≠ 0 ∧ walkHeld s (tlbSpindle (q / 8)) (s.queue q).qctx.toNat (s.queue q).abtsig = true) := fun hs => hs.1 h
  unfold abortRest
  dsimp only
  rw [if_neg hwalk, if_pos h]
  rfl

/-- Without an abort signal the procedure writes c15 and leaves every buffer; then the handler or the end of the ring. -/
theorem abortQueue_silent {s : State} {q : Nat} (h : (s.queue q).abtsig = 0) (v : Word) (ring : Nat) : (abortQueue s q v ring).queue q =
    ((s.queue q).unbuffered v).afterAbort := by
  unfold abortQueue
  dsimp only
  rw [abortRest_silent, State.queue_setQueue_same, dropUnits_queue, State.queue_setQueue_same]
  · rfl
  · rw [dropUnits_queue, State.queue_setQueue_same]
    exact h

/-- A queue whose ring is discarded has no unconsumed unit. -/
theorem Queue.avail_drain (q : Queue) : q.drain.avail = 0 := by
  have hwhole : q.tail.toNat + q.units - q.tail.toNat % q.units = q.units * (q.tail.toNat / q.units + 1) := by
    have hdiv := Nat.mod_add_div q.tail.toNat q.units
    rw [Nat.mul_add]
    omega
  show (q.tail.toNat + q.units - q.tail.toNat % q.units) % q.units = 0
  rw [hwhole]
  exact Nat.mul_mod_right _ _

theorem Queue.afterAbort_no_handler {q : Queue} (h : q.hlen = 0) : q.afterAbort = q.drain := if_pos h

theorem Queue.afterAbort_handler {q : Queue} (h : q.hlen ≠ 0) :
    q.afterAbort = { q with stack := [⟨q.hva, q.hlen, 0⟩], inHandler := true, hlen := 0, callAt := q.head.toNat } := if_neg h

theorem Queue.afterAbort_frame (q : Queue) : q.afterAbort.c = q.c ∧ q.afterAbort.abort = q.abort := by
  unfold Queue.afterAbort
  split
  · exact ⟨rfl, rfl⟩
  · exact ⟨rfl, rfl⟩

/-- Settles O56: each refusal by the check that fails, the abort procedure by what it makes of the queue. -/
theorem commandRefusals : Obligations.CommandRefusals := by
  refine ⟨fun f s ha hw => ?packets, fun f s sig ha hext hw h8 h56 => ?descriptors, fun s q v ring hsig => ?abort⟩
  case packets =>
    intro va
    refine ⟨fun e he hm => ?branch, fun _ _ => cmdLoop_at_ring, cmdCall_too_deep hw, fun _ _ _ _ => cmdRet_at_ring,
      fun hrb h8 => cmdLd_misaligned hw h8 hrb, fun hrd h8 => cmdSt_misaligned hw h8 hrd, fun g hg h8 => ?signal, fun hrb h8 c l e => cmdLd_untranslated hw hrb h8⟩
    case branch =>
      obtain ⟨c, hexec, -⟩ := commandBranches_branch e he
      exact (hexec f s).trans (cmdBranch_refused hm)
    case signal =>
      obtain ⟨hexec, -⟩ := commandSignals_signal g hg
      exact (hexec f s).trans (cmdSig_misaligned hw h8 _ _)
  case descriptors =>
    have hsig := addrUnit_ok h8 h56
    exact ⟨fun himm hdesc l s1 hread _ => cmdLaunchAs_misaligned (n := true) hext himm hsig nofun hw hread rfl hdesc,
      fun hrd h1 hn hn8 ha8 => cmdCopyAs_misaligned (fill := true) hext hrd hsig h1 hn (fun _ => hn8) hw rfl ha8⟩
  case abort =>
    intro qq
    have hqq : qq = ((s.queue q).unbuffered v).afterAbort := abortQueue_silent hsig v ring
    obtain ⟨hc, habort⟩ := Queue.afterAbort_frame ((s.queue q).unbuffered v)
    rw [hqq]
    refine ⟨?c15, habort, fun hlen => ?discard, fun hlen => ?handler⟩
    case c15 =>
      show FMap.get 0 ((s.queue q).unbuffered v).afterAbort.c 15 = v
      rw [hc]
      exact (Queue.get_setReg _ 15 15 v).trans (if_pos ⟨rfl, by decide⟩)
    case discard =>
      rw [Queue.afterAbort_no_handler (q := (s.queue q).unbuffered v) hlen]
      exact ⟨rfl, rfl, Queue.avail_drain _⟩
    case handler =>
      rw [Queue.afterAbort_handler (q := (s.queue q).unbuffered v) hlen]
      exact ⟨rfl, rfl, rfl, rfl⟩

end Sys2Proof.Machine
end

