-- ==== Sys2Proof/Proofs/LaunchParts.lean ====
section
/-! SUPPORT. A launch by its number, and before and after its record is replaced; what is not traced leaves no trace. -/
namespace Sys2Proof.Machine
open Sys2Proof.Claims

theorem State.launch_id {s : State} {l : Nat} {x : Launch} (h : s.launch l = some x) : x.id = l :=
  beq_iff_eq.mp (List.find?_some (p := fun y : Launch => y.id == l) h)

/-- The record that takes the place of a launch's is the one its number names. -/
theorem State.launch_setLaunch {s : State} {l : Nat} {x y : Launch} (h : s.launch l = some x) (hy : y.id = x.id) :
    (s.setLaunch y).launch l = some y := by
  have hx : x.id = l := State.launch_id h
  have hkey : ((fun z : Launch => z.id == l) ∘ fun z : Launch => if z.id = y.id then y else z) = fun z => z.id == l := by
    funext z
    show ((if z.id = y.id then y else z).id == l) = (z.id == l)
    split
    · rename_i hz; rw [hz]
    · rfl
  show (s.launches.map _).find? _ = _
  rw [List.find?_map, hkey]
  show (s.launch l).map _ = _
  rw [h, Option.map_some, if_pos hy.symm]

theorem State.setLaunch_only {s : State} {x y : Launch} (h : s.launches = [x]) (hy : y.id = x.id) : (s.setLaunch y).launches = [y] := by
  show s.launches.map _ = _
  rw [h, List.map_singleton, if_pos hy.symm]

theorem trace_off {s : State} {l : Launch} (h : traceOn s l = false) (d kind unit a0 : Nat) (a1 : Word) : trace s l d kind unit a0 a1 = s :=
  if_pos (by rw [h]; decide)

theorem traceCore_untraced {s : State} {i : Nat} (h : Untraced s i) (kind a0 : Nat) (a1 : Word) : traceCore s i kind a0 a1 = s := by
  unfold traceCore
  split
  · rename_i l hl; exact trace_off (h l hl) _ _ _ _ _
  · rfl

end Sys2Proof.Machine
end

