-- ==== Sys2Proof/Proofs/LaunchEvents.lean ====
section
/-! LAW. Launches age, are admitted, load, are released and take stolen ranges (R108 to R113, R118, R175). -/
namespace Sys2Proof.Machine
open Sys2Proof.Claims

/-! ### Age and stolen ranges (R108, R118) -/

theorem effectiveClassAge_ages {s : State} {l : Nat} {x : Launch} (h : s.launch l = some x) (hp : x.phase = .pending ∨ x.phase = .reserving) :
    exec (.effectiveClassAge l) s = .next (s.setLaunch (execEffectiveClassAge.age x)) := by
  show execEffectiveClassAge l s = _
  unfold execEffectiveClassAge
  rcases hp with hp | hp <;> simp only [h, hp]

theorem age_counts {x : Launch} (h : x.frames < 15) : execEffectiveClassAge.age x = { x with frames := x.frames + 1 } := if_neg (by omega)

theorem age_raises {x : Launch} (h : 15 ≤ x.frames) : execEffectiveClassAge.age x = { x with frames := 0, eff := x.eff - 1 } := if_pos (by omega)

theorem stealGrantReceive_shares {s : State} {l : Nat} {x : Launch} (h : s.launch l = some x) (d lo hi : Nat) :
    exec (.stealGrantReceive l d lo hi) s = .next (s.setLaunch { x with
      shares := FMap.put x.shares d (lo, hi), granted := x.granted.erase (d, lo, hi), asking := x.asking.filter fun k => k != d }) := by
  show execStealGrantReceive l d lo hi s = _
  simp only [execStealGrantReceive, h]

/-! ### Admission of the one launch (R109 to R111, R175) -/

/-- The record of a launch whose only reserved die is j. -/
def Launch.reserving (x : Launch) (j : Nat) : Launch := { x with resv := [j] }

/-- Without a pending launch, selection only drops deficits. -/
theorem selectPending_none {s : State} (h : ∀ n, headPending s n = none) (d : Nat) : ∃ y, selectPending s d = s.setDie d y := by
  refine ⟨{ s.die d with deficit := (s.die d).deficit.filter fun p => (headPending s (8 * d + p.1)).isSome }, ?_⟩
  simp only [selectPending, h, List.filterMap_none]

section
variable {s : State} {x : Launch} (hone : s.launches = [x])
include hone

theorem headPending_one (hp : isPending x = false) (n : Nat) : headPending s n = none := by
  simp [headPending, hone, hp]

theorem inReservation_one (hp : isReserving x = true) : inReservation s = [x] := by
  simp [inReservation, hone, hp, insertKey]

/-- Unless IDLE holds launches, the only one in reservation may be given cores. -/
theorem mayReserve_one (hp : isReserving x = true) (hidle : idleHolds s = false) : (inReservation s).filter (mayReserve s) = [x] := by
  rw [inReservation_one hone hp]
  simp [mayReserve, hidle]

theorem inReservation_empty (hp : isReserving x = false) : inReservation s = [] := by
  simp [inReservation, hone, hp]

theorem filter_running_one (hp : isRunning x = false) (d : Nat) :
    (s.launches.filter fun l => isRunning l && l.flags.getLsbD 0 && l.dies.contains (s.dieBase + d)) = [] := by
  simp [hone, hp]

/-- A launch that has reserved no die holds no core. -/
theorem coreFree_one (hres : x.resv = []) {i : Nat} (hm : (s.core i).mode = .free) : coreFree s i = true := by
  simp [coreFree, holder, hone, hres, hm]

/-- The only launch reserves a die all of whose cores are free. -/
theorem reserveOn_one {d : Nat} (hdie : x.dies = [s.dieBase + d]) (hres : x.resv = []) (hcores : ∀ i ∈ x.cores, (s.core i).mode = .free) :
    reserveOn d [x] [] s = s.setLaunch (x.reserving (s.dieBase + d)) := by
  have hfree : ((liveOn s x d).all fun i => coreFree s i && !([] : List Nat).contains i) = true := by
    refine List.all_eq_true.mpr fun i hi => ?_
    rw [coreFree_one hone hres (hcores i (List.mem_of_mem_filter hi))]
    rfl
  have hlacks : ¬ (¬ x.dies.contains (s.dieBase + d) ∨ x.resv.contains (s.dieBase + d)) := by simp [hdie, hres]
  unfold reserveOn
  dsimp only
  rw [if_neg hlacks, if_pos hfree, hres]
  rfl

end

/-- Without a launch in reservation nobody asks for a pre-emption. -/
theorem requestPreemption_none {s : State} (h : inReservation s = []) (d : Nat) : requestPreemption s d = s := by
  simp only [requestPreemption, h, List.find?_nil]

theorem isLive_of_free {s : State} {i : Nat} (h : (s.core i).mode = .free) : isLive s i = true := by
  simp only [isLive, h]

/-- A core is given to an admitted launch, with a save slot. -/
def giveCore (l : Launch) (s : State) (i : Nat) : State :=
  let u := FMap.get [] s.saveUse i
  let s := { s with saveUse := FMap.put s.saveUse i (if u.contains l.id then u else u ++ [l.id]) }
  s.setCore i { s.core i with mode := .loading }

/-- The machine in which launch l has been admitted. -/
def admitted (s : State) (l : Launch) : State := ((liveCores s l).foldl (giveCore l) s).setLaunch { l with phase := .loading }

theorem admitOne_admits {s : State} {l : Launch} (hres : ∀ j ∈ l.dies, j ∈ l.resv) (hslots : slotsFor s l = true) : admitOne s l = admitted s l :=
  if_pos ⟨List.all_eq_true.mpr fun j hj => List.contains_iff_mem.mpr (hres j hj), hslots⟩

/-- The cores of the list load; launches and memory stay. -/
theorem foldl_giveCore_spec (l : Launch) (is : List Nat) (s : State) : let t := is.foldl (giveCore l) s
    t.launches = s.launches ∧ t.mem = s.mem ∧ ∀ i, i ∈ is ∨ (s.core i).mode = .loading → (t.core i).mode = .loading := by
  induction is generalizing s with
  | nil => exact ⟨rfl, rfl, fun _ h => h.resolve_left List.not_mem_nil⟩
  | cons a is ih =>
    obtain ⟨hlaunches, hmem, hcores⟩ := ih (giveCore l s a)
    have hcore (i : Nat) : ((giveCore l s a).core i).mode = if i = a then .loading else (s.core i).mode := by
      show ((State.setCore _ a _).core i).mode = _
      rw [State.core_setCore]
      split <;> rfl
    refine ⟨hlaunches, hmem, fun i h => hcores i ?_⟩
    rw [hcore]
    by_cases hi : i = a
    · exact .inr (if_pos hi)
    · rw [if_neg hi]
      exact h.imp_left fun h => (List.mem_cons.mp h).resolve_left hi

theorem admitted_one {s : State} {x : Launch} (hone : s.launches = [x]) :
    (admitted s x).launches = [{ x with phase := .loading }] ∧ (∀ i ∈ liveCores s x, ((admitted s x).core i).mode = .loading) ∧
      (admitted s x).mem = s.mem := by
  obtain ⟨hlaunches, hmem, hcores⟩ := foldl_giveCore_spec x (liveCores s x) s
  exact ⟨State.setLaunch_only (hlaunches.trans hone) rfl, fun i hi => hcores i (.inl hi), hmem⟩

/-- The window of a die at which the only launch reserves the die and is admitted. -/
theorem admissionWindow_admits {s : State} {d : Nat} {x : Launch} (hone : s.launches = [x]) (hp : x.phase = .reserving)
    (hdie : x.dies = [s.dieBase + d]) (hres : x.resv = []) (hidle : idleHolds s = false) (hcores : ∀ i ∈ x.cores, (s.core i).mode = .free)
    (hslots : slotsFor s x = true) : ∃ y, exec (.admissionWindow d) s =
      .next (admitted ((s.setDie d y).setLaunch (x.reserving (s.dieBase + d))) (x.reserving (s.dieBase + d))) := by
  have hreserving : isReserving x = true := by simp only [isReserving, hp]
  have hpending : isPending x = false := by simp only [isPending, hp]
  have hrunning : isRunning x = false := by simp only [isRunning, hp]
  obtain ⟨y, hselect⟩ := selectPending_none (headPending_one hone hpending) d
  have hreserve : reserveOn d [x] [] (s.setDie d y) = (s.setDie d y).setLaunch (x.reserving (s.dieBase + d)) :=
    reserveOn_one (s := s.setDie d y) hone hdie hres hcores
  have hone1 : ((s.setDie d y).setLaunch (x.reserving (s.dieBase + d))).launches = [x.reserving (s.dieBase + d)] :=
    State.setLaunch_only (s := s.setDie d y) hone rfl
  have hadmit := admitOne_admits (s := (s.setDie d y).setLaunch (x.reserving (s.dieBase + d))) (l := x.reserving (s.dieBase + d))
    (by simp [Launch.reserving, hdie]) hslots
  obtain ⟨hone2, -, -⟩ := admitted_one hone1
  refine ⟨y, ?_⟩
  show execAdmissionWindow d s = _
  unfold execAdmissionWindow
  dsimp only
  rw [filter_running_one hone hrunning, List.map_nil, List.foldl_nil, List.foldl_nil, hidle, if_neg Bool.false_ne_true, hselect,
    mayReserve_one (s := s.setDie d y) hone hreserving hidle, hreserve, mayReserve_one hone1 hreserving hidle, List.foldl_cons, List.foldl_nil,
    hadmit, requestPreemption_none (inReservation_empty hone2 rfl)]

/-! ### Loading and release (R112, R113) -/

/-- The tables and the code of every core can be read now (R42, R191). -/
def LoadOpen (s : State) (x : Launch) : Prop :=
  ∀ i ∈ liveCores s x, ∀ p ∈ [(x.dictva, 48 * x.dictn), (x.codeva, 2 * x.coden)], p.2 ≠ 0 →
    wsHolds s i x.ctx p.1 p.2 mUser = false ∧ wayHeld s i x.ctx p.1 p.2 .exec mUser = false

theorem LoadOpen.not_held {s : State} {x : Launch} (h : LoadOpen s x) :
    ((liveCores s x).any fun i => [(x.dictva, 48 * x.dictn), (x.codeva, 2 * x.coden)].any fun p =>
      decide (p.2 ≠ 0) && (wsHolds s i x.ctx p.1 p.2 mUser || wayHeld s i x.ctx p.1 p.2 .exec mUser)) = false := by
  refine List.any_eq_false.mpr fun i hi => ?_
  rw [Bool.not_eq_true]
  refine List.any_eq_false.mpr fun p hpm => ?_
  by_cases h0 : p.2 = 0
  · simp [h0]
  · obtain ⟨hws, hway⟩ := h i hi p hpm h0
    simp [hws, hway]

/-- The release cycle that the home die chooses. -/
def releaseAt (s : State) (x : Launch) : Nat := (max x.relgtc (s.gtc + 512) + 255) / 256 * 256

/-- The record of a loaded launch that is to be released in cycle r. -/
def Launch.waitingFor (x : Launch) (r : Nat) : Launch :=
  { x with phase := .waiting, relT := r, relFirst := if x.relFirst = 0 then r else x.relFirst }

theorem launchLoadComplete_waits {s s1 : State} {l : Nat} {x : Launch} (h : s.launch l = some x) (hp : x.phase = .loading) (hopen : LoadOpen s x)
    (hload : (liveCores s x).foldlM (fun (acc : Bool × State) i => do
      let (b, s) ← loadCore acc.2 x i
      pure (acc.1 || b, s)) (false, s) = .ok (false, s1)) (htrace : traceOn s1 x = false) (ha : s1.absent = none) :
    exec (.launchLoadComplete l) s = .next (s1.setLaunch (x.waitingFor (releaseAt s1 x))) := by
  have huntraced : traceOn (s1.setLaunch (x.waitingFor (releaseAt s1 x))) (x.waitingFor (releaseAt s1 x)) = false := htrace
  show execLaunchLoadComplete l s = _
  unfold execLaunchLoadComplete
  rw [h]
  dsimp only
  rw [hp]
  dsimp only
  rw [hopen.not_held, if_neg Bool.false_ne_true, hload]
  exact (congrArg finish (trace_off huntraced _ _ _ _ _)).trans (finish_next ha)

/-- The release of a die of a launch whose cycle has come and is not past. -/
theorem coreRelease_releases {s : State} {l d : Nat} {x : Launch} (h : s.launch l = some x) (hp : x.phase = .waiting ∨ x.phase = .running)
    (hdie : s.dieBase + d ∈ x.dies) (hnew : s.dieBase + d ∉ x.released) (hT : x.relT ≤ s.gtc) (hlate : s.gtc ≤ x.relT + 1) :
    let s1 := (liveOn s x d).foldl (fun s i => releaseCore s x i) s
    let s2 := s1.setLaunch { x with phase := .running, released := x.released ++ [s.dieBase + d] }
    exec (.coreRelease l d) s = finish (checkEnd (pushEvs s2 ((liveOn s2 x d).map fun i => .taskTake i)) l) := by
  have hready : (match x.phase with | .waiting => true | .running => true | _ => false) = true := by rcases hp with hp | hp <;> rw [hp]
  have hontime : decide (x.relT + 1 < s.gtc) = false := decide_eq_false (by omega)
  show execCoreRelease l d s = _
  unfold execCoreRelease
  rw [h]
  dsimp only
  simp only [hontime, Bool.false_and, Bool.false_eq_true, if_false]
  refine if_neg fun hstay => ?_
  rcases hstay with hphase | hother
  · exact hphase hready
  · simp [hdie, hnew, hT.not_gt] at hother

theorem pushEvs_taskTake (s : State) (is : List Nat) :
    pushEvs s (is.map fun i => .taskTake i) = { s with agenda := (is.map fun i => Todo.ev (.taskTake i)) ++ s.agenda } := by
  rw [pushEvs, List.map_map]
  rfl

/-- Settles O10: each event of a launch by the one thing it does to the launch and its cores. -/
theorem launchEvents : Obligations.LaunchEvents := by
  refine ⟨fun s l x h => ⟨fun hp => ⟨fun hf => ?_, fun hf => ?_⟩, stealGrantReceive_shares h⟩, ?admission, ?load, ?release⟩
  · rw [effectiveClassAge_ages h hp, age_counts hf]
  · rw [effectiveClassAge_ages h hp, age_raises hf]
  case admission =>
    intro s d x hone hp hdie hres hidle hcores hslots
    have hfree : ∀ i ∈ x.cores, (s.core i).mode = .free := fun i hi => (hcores i hi).2
    obtain ⟨y, hexec⟩ := admissionWindow_admits hone hp hdie hres hidle hfree hslots
    obtain ⟨hlaunches, hloading, hmem⟩ := admitted_one (State.setLaunch_only (s := s.setDie d y) (y := x.reserving (s.dieBase + d)) hone rfl)
    exact ⟨_, hexec, hlaunches, fun i hi => hloading i (List.mem_filter.mpr ⟨hi, isLive_of_free (hfree i hi)⟩), hmem⟩
  case load =>
    intro s s1 l x h hp hopen hload htrace ha
    exact launchLoadComplete_waits h hp hopen hload htrace ha
  case release =>
    intro s l d x h hp hdie hnew hT hlate s1 s2 s3 ha
    rw [coreRelease_releases h hp hdie hnew hT hlate, pushEvs_taskTake]
    exact finish_next ha

end Sys2Proof.Machine
end

