-- ==== Sys2Proof/Proofs/TaskParts.lean ====
section
/-! SUPPORT. What the s registers read after a write; the strand of a task at its start and after its join (R114, R120, R121, R156, R310). -/
namespace Sys2Proof.Machine
open Sys2Proof.Claims

/-- Words put into a map one after the other. -/
theorem FMap.get_foldl_set {α : Type} [DecidableEq α] (d : α) (f : Nat → α) (is : List Nat) (m : FMap α) (k : Nat) :
    FMap.get d (is.foldl (fun m j => FMap.set d m j (f j)) m) k = if k ∈ is then f k else FMap.get d m k := by
  induction is generalizing m with
  | nil => simp
  | cons i is ih =>
    rw [List.foldl_cons, ih, FMap.get_set]
    by_cases hi : k = i
    · subst hi; simp
    · simp [hi]

/-- Outside a handler the s registers are those of the strand's own bank (R154). -/
theorem Arch.getS_strand {a : Arch} (h : a.uiActive = false) {r : Nat} (hr : r ≠ 0) : a.getS r = FMap.get 0 a.s r := by
  simp [Arch.getS, h, hr]

theorem Arch.setS_strand {a : Arch} (h : a.uiActive = false) {r : Nat} (hr : r ≠ 0) (v : Word) :
    a.setS r v = { a with s := FMap.set 0 a.s r v } := by
  simp [Arch.setS, h, hr]

@[simp] theorem core_setCore_ivals (s : State) (i : Nat) (c : Core) (iv : FMap Nat) (gs : List SGroup) :
    State.core { s.setCore i c with ivals := iv, groups := gs } i = c := State.core_setCore_same s i c

/-- Tracing stays off when a core that keeps its launch is replaced. -/
theorem untraced_setCore {s : State} {i : Nat} (h : Untraced s i) {c : Core} (hc : c.launch = (s.core i).launch) (iv : FMap Nat) (gs : List SGroup) :
    Untraced { s.setCore i c with ivals := iv, groups := gs } i := by
  intro l hl
  have hlaunch : s.launch ((s.setCore i c).core i).launch = some l := hl
  rw [State.core_setCore_same, hc] at hlaunch
  exact h l hlaunch

/-! ### The start of a task (R114, R156) -/

theorem taskArch_getS (old : Arch) (arg idx : Word) (ply : Nat) (parent : Word) (core rel : Nat) {r : Nat} (hr : r ≠ 0) :
    (taskArch old arg idx ply parent core rel).getS r =
      if r = 6 then BitVec.ofNat 64 rel else if r = 5 then BitVec.ofNat 64 core else if r = 4 then parent else
        if r = 3 then BitVec.ofNat 64 ply else if r = 2 then idx else if r = 1 then arg else 0 := by
  rw [Arch.getS_strand rfl hr]
  simp [taskArch, FMap.get_set, FMap.get]

theorem taskArch_getS_zero (old : Arch) (arg idx : Word) (ply : Nat) (parent : Word) (core rel : Nat) {r : Nat} (hr : 7 ≤ r) :
    (taskArch old arg idx ply parent core rel).getS r = 0 := by
  rw [taskArch_getS _ _ _ _ _ _ _ (by omega)]
  iterate 6 rw [if_neg (by omega)]

theorem taskArch_getV (old : Arch) (arg idx : Word) (ply : Nat) (parent : Word) (core rel : Nat) (r : Nat) :
    (taskArch old arg idx ply parent core rel).getV r = 0 := rfl

/-- A task of an untraced launch starts on its core; beside the core only Sinter's intervals change. -/
theorem startTask_starts {s : State} {i : Nat} {l : Launch} (hl : s.launch (s.core i).launch = some l) (htrace : traceOn s l = false) (t : Task) :
    ∃ c iv, startTask s i t = { s.setCore i c with ivals := iv } ∧ c.mode = .run ∧ c.task = some t ∧ c.keep = c.arch ∧ c.waits = [] ∧
      c.arch = taskArch (s.core i).arch l.argva t.idx t.ply (parentOf s t) (i + 64 * s.dieBase) l.relT := by
  unfold startTask
  rw [hl]
  dsimp only
  have huntraced : Untraced s i := fun l' hl' => Option.some.inj (hl.symm.trans hl') ▸ htrace
  exact ⟨_, _, traceCore_untraced (untraced_setCore huntraced (by rfl) _ _) _ _ _, rfl, rfl, rfl, rfl, rfl⟩

/-! ### The join of a task (R120, R121, R310) -/

/-- The strand with what a parked state restores. -/
def Parked.onto (p : Parked) (a : Arch) : Arch :=
  { a with rot := p.rot, loops := p.loops, g := p.g, s := p.s, vxf := p.vxf, p := p.p, v := p.v, ctl := none, pend := [], uiEn := p.uiEn
           uiActive := false, uiPend := p.uiPend ||| a.uiPend, uiVec := p.uiVec, uiPc := p.uiPc, uiRot := p.uiRot, uiDepth := p.uiDepth, uiHeld := []
           shadow := p.shadow }

/-- The strand after the join of group g by parked state p. -/
def joinedArch (a : Arch) (p : Parked) (g : SGroup) : Arch :=
  let b := joinWrite (redirect (p.onto a) (p.onto a).lo p.pos) p.dst g.nabn g.requeued g.first
  { b with segK := b.lo, segCk := false }

/-- The status of a join (R310). -/
def joinStatus (nabn : Nat) (requeued : Bool) : Nat := min nabn (2 ^ 32 - 1) + if requeued then 2 ^ 32 else 0

/-- The eight words of the first fault record among the children, or of zeros (R121, R310). -/
def recordWords (first : Option (BitVec 512)) : FMap Word :=
  (List.range 8).foldl (fun m j => FMap.set 0 m j ((first.getD 0).extractLsb' (64 * j) 64)) []

theorem recordWords_get (first : Option (BitVec 512)) {j : Nat} (hj : j < 8) :
    FMap.get 0 (recordWords first) j = (first.getD 0).extractLsb' (64 * j) 64 :=
  (FMap.get_foldl_set _ _ _ _ _).trans (if_pos (List.mem_range.mpr hj))

theorem joinWrite_eq (a : Arch) (dst nabn : Nat) (rq : Bool) (first : Option (BitVec 512)) : joinWrite a dst nabn rq first =
    (Arch.setS { a with jrec := recordWords first } dst (BitVec.ofNat 64 (joinStatus nabn rq))).setLatch 0
      (BitVec.ofNat 512 (joinStatus nabn rq)) := by
  cases first <;> rfl

/-- A join writes its status to its register and to a latch, and the words of the first record. -/
theorem joinWrite_strand {a : Arch} (h : a.uiActive = false) (dst nabn : Nat) (rq : Bool) (first : Option (BitVec 512)) :
    ∃ m n, joinWrite a dst nabn rq first = { a with jrec := recordWords first, s := m, latch := n } ∧
      m = if dst = 0 then a.s else FMap.set 0 a.s dst (BitVec.ofNat 64 (joinStatus nabn rq)) := by
  rw [joinWrite_eq]
  by_cases hd : dst = 0
  · rw [if_pos hd, hd]
    exact ⟨_, _, rfl, rfl⟩
  · rw [if_neg hd, Arch.setS_strand (a := { a with jrec := recordWords first }) h hd]
    exact ⟨_, _, rfl, rfl⟩

section
variable {a : Arch} {p : Parked} {g : SGroup}

/-- A join restores the parked strand, refetches from its position and writes the first record's words. -/
theorem joinedArch_eq : ∃ m n, joinedArch a p g = { redirect (p.onto a) (p.onto a).lo p.pos with
      jrec := recordWords g.first, s := m, latch := n, segK := (p.onto a).lo, segCk := false } ∧
    m = if p.dst = 0 then p.s else FMap.set 0 p.s p.dst (BitVec.ofNat 64 (joinStatus g.nabn g.requeued)) := by
  obtain ⟨m, n, hb, hm⟩ := joinWrite_strand (a := redirect (p.onto a) (p.onto a).lo p.pos) rfl p.dst g.nabn g.requeued g.first
  refine ⟨m, n, ?_, hm⟩
  unfold joinedArch
  rw [hb]
  rfl

theorem joinedArch_getS {r : Nat} (hr : r ≠ 0) :
    (joinedArch a p g).getS r = if r = p.dst then BitVec.ofNat 64 (joinStatus g.nabn g.requeued) else FMap.get 0 p.s r := by
  obtain ⟨m, n, ha, hm⟩ := joinedArch_eq (a := a) (p := p) (g := g)
  rw [ha, Arch.getS_strand rfl hr]
  show FMap.get 0 m r = _
  rw [hm]
  split
  · rename_i hd
    rw [if_neg (hd ▸ hr)]
  · exact FMap.get_set _ _ _ _ _

theorem joinedArch_jrec {j : Nat} (hj : j < 8) : FMap.get 0 (joinedArch a p g).jrec j = (g.first.getD 0).extractLsb' (64 * j) 64 := by
  obtain ⟨m, n, ha, -⟩ := joinedArch_eq (a := a) (p := p) (g := g)
  rw [ha]
  exact recordWords_get _ hj

/-- What the join restores as it was parked. -/
theorem joinedArch_restores : let b := joinedArch a p g
    b.fpos = p.pos ∧ b.rot = p.rot ∧ b.loops = p.loops ∧ b.v = p.v ∧ b.p = p.p ∧ b.g = p.g ∧ b.pend = [] ∧ b.uiActive = false ∧
      b.shadow = p.shadow := by
  obtain ⟨m, n, ha, -⟩ := joinedArch_eq (a := a) (p := p) (g := g)
  rw [ha]
  exact ⟨rfl, rfl, rfl, rfl, rfl, rfl, rfl, rfl, rfl⟩

end

end Sys2Proof.Machine
end

