-- ==== Sys2Proof/Proofs/TaskEvents.lean ====
section
/-! LAW. Tasks are taken, joins complete, trace records are written (R114 to R116, R120, R121, R128, R129, R156, R310). -/
namespace Sys2Proof.Machine
open Sys2Proof.Claims

/-! ### The next index of a share (R116) -/

/-- A core that may take no child but has work is done with its joins. -/
theorem hasWork_parked {s : State} {i : Nat} (hw : hasWork s i = true) (hnone : takeable s i = []) : (s.core i).parked = [] := by
  simp only [hasWork, hnone, Bool.and_eq_true, Bool.or_eq_true, beq_iff_eq] at hw
  obtain ⟨-, hbad | ⟨hparked, -⟩⟩ := hw
  · exact absurd hbad (by decide)
  · exact hparked

theorem shareOf_launch {s : State} {i a b : Nat} {l : Launch} (h : shareOf s i = some (l, a, b)) : s.launch (s.core i).launch = some l := by
  unfold shareOf at h
  split at h
  · rename_i x hx
    split at h
    · split at h
      · rw [hx, (Prod.mk.inj (Option.some.inj h)).1]
      · cases h
    · cases h
  · cases h

/-- The record of a launch whose share on die d is left with the indices from a to b. -/
def Launch.leaving (l : Launch) (d a b : Nat) : Launch := { l with shares := FMap.put l.shares d (a, b) }

/-- An idle core takes the lowest index of its die's share. -/
theorem taskTake_takes {s : State} {i a b : Nat} {l : Launch} (hw : hasWork s i = true) (hnone : takeable s i = [])
    (hshare : shareOf s i = some (l, a, b)) : exec (.taskTake i) s =
      .next (startTask (s.setLaunch (l.leaving (i / 64) (a + 1) b)) i ⟨0, BitVec.ofNat 64 a, none⟩) := by
  show execTaskTake i s = _
  unfold execTaskTake takeTask
  rw [if_pos hw, hnone]
  dsimp only
  rw [if_neg (not_not.mpr (hasWork_parked hw hnone)), hshare]
  rfl

/-! ### Joins (R115, R120, R121, R310) -/

/-- The core at the join of a group: it acquires at a SCOPE wider than the core's (R115, R226). -/
def joinCore (s : State) (g : SGroup) (c : Core) : Core := if groupScope s g = 0 then c else l1Drop c

theorem joinCore_launch (s : State) (g : SGroup) (c : Core) : (joinCore s g c).launch = c.launch := by
  unfold joinCore
  split <;> rfl

/-- The join of the task parked last, of an untraced launch. -/
theorem joinComplete_restores {s : State} {i : Nat} {p0 : Parked} {rest : List Parked} {g : SGroup} (hready : joinReady s i = true)
    (hparked : (s.core i).parked = p0 :: rest) {p : Parked} (hp : p = parkedBack (poolOf s (s.core i).launch i) p0 rest.length)
    (hg : s.groups.find? (fun g => g.id == p.group) = some g) (huntraced : Untraced s i) :
    exec (.joinComplete i) s = .next { s.setCore i { joinCore s g (s.core i) with
      mode := .run, task := some p.task, parked := rest, openGroup := none, arch := joinedArch (s.core i).arch p g
      keep := joinedArch (s.core i).arch p g } with
        ivals := (bumpIval s 0 (i + 64 * s.dieBase)).ivals, groups := s.groups.filter fun g => g.id != p.group } := by
  show execJoinComplete i s = _
  unfold execJoinComplete
  extract_lets c
  rw [if_neg (not_not.mpr hready)]
  split
  · rename_i hnil
    exact absurd (hparked.symm.trans hnil) (List.cons_ne_nil _ _)
  · rename_i q0 qs hq
    obtain ⟨rfl, rfl⟩ := List.cons.inj (hq.symm.trans hparked)
    extract_lets q gq
    obtain rfl : q = p := hp.symm
    have hgq : gq = some g := hg
    clear_value gq
    subst hgq
    exact congrArg _ (traceCore_untraced (untraced_setCore huntraced (by exact joinCore_launch s g (s.core i)) _ _) _ _ _)

/-! ### Trace records (R128, R129) -/

/-- The first 24 bytes of a trace record: stamp, what and where, second argument. -/
def TraceRec.body (r : TraceRec) : Nat :=
  r.stamp.toNat + 2 ^ 64 * (r.kind + r.die % 32 * 2 ^ 8 + r.unit % 64 * 2 ^ 13 + r.a0.toNat * 2 ^ 32) + 2 ^ 128 * r.a1.toNat

/-- The oldest record of a die is numbered, written, and its number released. -/
theorem traceRecordWrite_writes {s s2 s3 s4 : State} {d : Nat} {r : TraceRec} {rest : List TraceRec} {n : Nat} (hrec : (s.die d).trace = r :: rest)
    (hfree : traceHeld s d r = false) {s1 : State} (hs1 : s1 = s.setDie d { s.die d with trace := rest }) {va at_ : Nat}
    (hva : va = (ctxWord s1 r.ctx 6).toNat % 2 ^ 56) (hat : at_ = traceSlot va ((ctxWord s1 r.ctx 7).toNat % 32) n)
    (hnumber : vaAmo s1 (tlbTrace d) r.ctx va 1 64 1 0 (mTrace s d) = .ok (some n, s2))
    (hwrite : vaWrite s2 (tlbTrace d) r.ctx at_ 24 r.body (mTrace s d) = (s3, none))
    (hrelease : vaRelease s3 (tlbTrace d) r.ctx (at_ + 24) 8 n (mTrace s d) = (s4, none)) (ha : s4.absent = none) :
    exec (.traceRecordWrite d) s = .next (bumpIval s4 4 (8 * 32 + s4.dieBase + d)) := by
  subst hva hat
  unfold TraceRec.body at hwrite
  show execTraceRecordWrite d s = _
  unfold execTraceRecordWrite
  dsimp only
  rw [hrec]
  dsimp only
  rw [hfree, if_neg Bool.false_ne_true, ← hs1, hnumber]
  dsimp only
  rw [Option.getD_some, hwrite]
  dsimp only
  rw [hrelease]
  exact finish_next ha

/-- Settles O11: a task by the strand it starts with, a join by the strand it restores, a trace record by its three accesses. -/
theorem taskEvents : Obligations.TaskEvents := by
  refine ⟨?take, ?join, ?record⟩
  case take =>
    intro s i l a b hw hnone hshare htrace
    have hl : s.launch (s.core i).launch = some l := shareOf_launch hshare
    have hl' := State.launch_setLaunch (y := l.leaving (i / 64) (a + 1) b) hl rfl
    obtain ⟨c, iv, hstart, hmode, htask, hkeep, hwaits, harch⟩ := startTask_starts hl' htrace ⟨0, BitVec.ofNat 64 a, none⟩
    refine ⟨_, (taskTake_takes hw hnone hshare).trans (congrArg _ hstart), rfl, rfl, ?_⟩
    rw [core_setCore_ivals]
    refine ⟨hmode, htask, hkeep, hwaits, ?_⟩
    rw [harch]
    have hS {r : Nat} (hr : r ≠ 0) := taskArch_getS (s.core i).arch l.argva (BitVec.ofNat 64 a) 0 (-1) (i + 64 * s.dieBase) l.relT hr
    refine ⟨hS (by decide), hS (by decide), hS (by decide), hS (by decide), hS (by decide), hS (by decide),
      fun r h7 _ => taskArch_getS_zero _ _ _ _ _ _ _ h7, taskArch_getV _ _ _ _ _ _ _, rfl, rfl, rfl⟩
  case join =>
    intro s i p0 rest g hready hparked p hg huntraced
    refine ⟨_, joinComplete_restores hready hparked rfl hg huntraced, rfl, fun x hx => by simpa using (List.mem_filter.mp hx).2, ?_⟩
    obtain ⟨hpos, hrot, hloops, hv, hpreds, hgp, hpend, hui, hshadow⟩ := joinedArch_restores (a := (s.core i).arch) (p := p) (g := g)
    rw [core_setCore_ivals]
    refine ⟨rfl, rfl, rfl, rfl, hpos, hrot, hloops, hv, hpreds, hgp, hpend, hui, hshadow, fun r h0 _ hr => ?_, fun j hj => joinedArch_jrec hj,
      fun h0 _ => ?_⟩
    · exact (joinedArch_getS h0).trans (if_neg hr)
    · exact (joinedArch_getS h0).trans (if_pos rfl)
  case record =>
    intro s d r rest n s2 s3 s4 hrec hfree m s1 va lg v hnumber hwrite hrelease ha
    exact traceRecordWrite_writes hrec hfree rfl rfl rfl hnumber hwrite hrelease ha

end Sys2Proof.Machine
end

