-- ==== Sys2Proof/Proofs/ControlResults.lean ====
section
/-! LAW. What br, call, ret, lbreak, loop and rloop leave: the transfer that waits for every group to issue their bundle (R132, R305 to R308). -/
namespace Sys2Proof.Machine
open Sys2Proof.Claims

section
variable {f : SC} {s : State} {c c1 : Core} {x : Word}

/-- The condition of br is the one of Table 13.6, spelled out by `taken`. -/
theorem brTaken_eq_taken {fn : Nat} (h : fn ≤ 6) (x : Word) : brTaken fn x = taken fn x := by
  have hb : ∀ n : Nat, n ≤ 6 → n = 0 ∨ n = 1 ∨ n = 2 ∨ n = 3 ∨ n = 4 ∨ n = 5 ∨ n = 6 := by omega
  rcases hb fn h with rfl | rfl | rfl | rfl | rfl | rfl | rfl <;> simp [brTaken, taken, bne, Bool.beq_eq_decide_eq]

/-- br with FN = 0 reads no operand and is always taken (R306). -/
theorem brBody_always (hfn : f.fn = 0) (hsa : f.sa = 0) (hE : FreeOfE s c) : brBody f s.cur c = .ok (withCtl s (.jump f.tgt.toNat) c) := by
  have hE' : notAtE s.cur c = .ok () := hE
  have hn : (decide (f.fn.toNat ≤ 6) && (decide (f.fn ≠ 0) || f.sa = 0)) = true := by simp [hfn, hsa]
  unfold brBody
  rw [need_ok hn]
  simp only [LM_bind_ok, if_pos, hfn, hE']
  rfl

/-- The fields of a br that reads a condition are legal. -/
theorem brBody_legal (h1 : 1 ≤ f.fn.toNat) (h6 : f.fn.toNat ≤ 6) :
    f.fn ≠ 0 ∧ (decide (f.fn.toNat ≤ 6) && (decide (f.fn ≠ 0) || f.sa = 0)) = true := by
  have h0 : f.fn ≠ 0 := by
    intro h
    rw [h] at h1
    exact absurd h1 (by decide)
  exact ⟨h0, by rw [decide_eq_true h6, decide_eq_true h0]; rfl⟩

theorem brBody_notTaken (h1 : 1 ≤ f.fn.toNat) (h6 : f.fn.toNat ≤ 6) (hx : resolveS s.cur f.sa c = .ok (x, c1))
    (ht : taken f.fn.toNat x = false) : brBody f s.cur c = .ok c1 := by
  obtain ⟨h0, hn⟩ := brBody_legal h1 h6
  unfold brBody
  simp only [need_ok hn, LM_bind_ok, if_neg h0, hx, brTaken_eq_taken h6, ht]
  rfl

theorem brBody_taken (h1 : 1 ≤ f.fn.toNat) (h6 : f.fn.toNat ≤ 6) (hx : resolveS s.cur f.sa c = .ok (x, c1))
    (ht : taken f.fn.toNat x = true) (hE : FreeOfE s c1) : brBody f s.cur c = .ok (withCtl s (.jump f.tgt.toNat) c1) := by
  obtain ⟨h0, hn⟩ := brBody_legal h1 h6
  have hE' : notAtE s.cur c1 = .ok () := hE
  unfold brBody
  simp only [need_ok hn, LM_bind_ok, if_neg h0, hx, brTaken_eq_taken h6, ht, if_true, hE']
  rfl

/-- The core after call has written the position past its bundle to s31 and its lane's latch (R307). -/
def linked (s : State) (c : Core) : Core :=
  emitLatch s.cur 1 (BitVec.ofNat 512 (after s.cur)) (emit s.cur 1 (.s 31 (BitVec.ofNat 64 (after s.cur))) c)

theorem callBody_target (hfn : f.fn = 0) (hsa : f.sa = 0) (hE : FreeOfE s c) :
    callBody f s.cur c = .ok (withCtl s (.jump f.tgt.toNat) (linked s c)) := by
  have hE' : notAtE s.cur c = .ok () := hE
  have hn : (decide (f.fn.toNat ≤ 1) && (if f.fn = 0 then f.sa = 0 else f.tgt = 0)) = true := by simp [hfn, hsa]
  unfold callBody
  rw [need_ok hn]
  simp only [LM_bind_ok, if_pos hfn, hE']
  rfl

theorem callBody_register (hfn : f.fn = 1) (htgt : f.tgt = 0) (hx : resolveS s.cur f.sa c = .ok (x, c1)) (hE : FreeOfE s c1) :
    callBody f s.cur c = .ok (withCtl s (.jump (x.toNat % 65536)) (linked s c1)) := by
  have hE' : notAtE s.cur c1 = .ok () := hE
  have h0 : f.fn ≠ 0 := by simp [hfn]
  have hn : (decide (f.fn.toNat ≤ 1) && (if f.fn = 0 then f.sa = 0 else f.tgt = 0)) = true := by simp [hfn, htgt]
  unfold callBody
  rw [need_ok hn]
  simp only [LM_bind_ok, if_neg h0, hx, hE']
  rfl

theorem retBody_ok (hfn : f.fn = 0) (htgt : f.tgt = 0) (hx : resolveS s.cur f.sa c = .ok (x, c1)) (hE : FreeOfE s c1) :
    retBody f s.cur c = .ok (withCtl s (.jump (x.toNat % 65536)) c1) := by
  have hE' : notAtE s.cur c1 = .ok () := hE
  have hn : (f.fn = 0 && f.tgt = 0) = true := by simp [hfn, htgt]
  unfold retBody
  simp only [need_ok hn, LM_bind_ok, hx, hE']
  rfl

theorem lbreakBody_ok (hfn : f.fn = 0) (hsa : f.sa = 0) (hl : loopsAt s.cur c ≠ []) :
    lbreakBody f s.cur c = .ok (withCtl s (.pop f.tgt.toNat) c) := by
  have hn : (f.fn = 0 && f.sa = 0) = true := by simp [hfn, hsa]
  unfold lbreakBody
  simp only [need_ok hn, LM_bind_ok, if_neg hl]
  rfl

/-- A loop that may be set up on core c: an entry is free, its end lies in the code behind its start and inside the enclosing loop (R308). -/
def LoopFits (s : State) (c : Core) (e : Nat) : Prop :=
  (loopsAt s.cur c).length < 6 ∧ after s.cur ≤ e ∧ e < c.coden ∧ beyondTop (loopsAt s.cur c) e = false

/-- What loop and rloop wait to do: with a count of 0 the body is passed over, else an entry is pushed (R308). -/
def loopCtl (s : State) (c : Core) (e : Nat) (rot : Bool) (x : Word) : Ctl :=
  if x.toNat % 2 ^ 32 = 0 then .jump (e + if FMap.get 0 c.code e = 0xFFFF then 25 else 1)
  else .push (after s.cur) ⟨after s.cur, e, x.toNat % 2 ^ 32, if rot then x.toNat / 2 ^ 32 % 256 else 0, 0, rot⟩

theorem loopCtl_zero (s : State) (c : Core) (e : Nat) (rot : Bool) (h : x.toNat % 2 ^ 32 = 0) :
    loopCtl s c e rot x = .jump (e + if FMap.get 0 c.code e = 0xFFFF then 25 else 1) := if_pos h

theorem loopCtl_push (s : State) (c : Core) (e : Nat) (rot : Bool) (h : x.toNat % 2 ^ 32 ≠ 0) :
    loopCtl s c e rot x = .push (after s.cur) ⟨after s.cur, e, x.toNat % 2 ^ 32, if rot then x.toNat / 2 ^ 32 % 256 else 0, 0, rot⟩ := if_neg h

theorem loopBody_ok (rot : Bool) (hfn : f.fn = 0) (hx : resolveS s.cur f.sa c = .ok (x, c1)) (hE : FreeOfE s c1)
    (hfit : LoopFits s c1 f.tgt.toNat) : loopBody f rot s.cur c = .ok (withCtl s (loopCtl s c1 f.tgt.toNat rot x) c1) := by
  obtain ⟨hlen, hst, hend, htop⟩ := hfit
  have hE' : notAtE s.cur c1 = .ok () := hE
  have hn : decide (f.fn = 0) = true := by simp [hfn]
  have hst' : nextPos s.cur ≤ f.tgt.toNat := hst
  have hok : ¬ ((loopsAt s.cur c1).length ≥ 6 ∨ f.tgt.toNat < nextPos s.cur ∨ f.tgt.toNat ≥ c1.coden ∨
      beyondTop (loopsAt s.cur c1) f.tgt.toNat = true) := by
    simp only [htop, Bool.false_eq_true, or_false]
    omega
  unfold loopBody loopCtl
  simp only [need_ok hn, LM_bind_ok, hx, hE', if_neg hok]
  split <;> rfl

end

/-- Settles O26, by what the body of each control operation answers on legal operands. -/
theorem controlResults : Obligations.ControlResults := by
  refine ⟨fun f s hp => ⟨fun hfn hsa hE => ?_, fun h1 h6 x c1 hx => ⟨fun ht => ?_, fun ht hE => ?_⟩⟩, fun f s hp => ⟨fun hfn hsa hE => ?_,
    fun hfn htgt x c1 hx hE => ?_⟩, fun f s x c1 hp hfn htgt hx hE => ?_, fun f s hp hfn hsa hl => ?_, fun f s x c1 hp hfn hx hE => ?_⟩
  · exact laneStep_leaves hp (brBody_always hfn hsa hE)
  · exact laneStep_leaves hp (brBody_notTaken h1 h6 hx ht)
  · exact laneStep_leaves hp (brBody_taken h1 h6 hx ht hE)
  · exact laneStep_leaves hp (callBody_target hfn hsa hE)
  · exact laneStep_leaves hp (callBody_register hfn htgt hx hE)
  · exact laneStep_leaves hp (retBody_ok hfn htgt hx hE)
  · exact laneStep_leaves hp (lbreakBody_ok hfn hsa hl)
  · intro e n hlen hst hend htop
    have hfit : LoopFits s c1 e := ⟨hlen, hst, hend, htop⟩
    have hloop : exec (.loop f) s = leaves s (withCtl s (loopCtl s c1 e false x) c1) := laneStep_leaves hp (loopBody_ok false hfn hx hE hfit)
    have hrloop : exec (.rloop f) s = leaves s (withCtl s (loopCtl s c1 e true x) c1) := laneStep_leaves hp (loopBody_ok true hfn hx hE hfit)
    rw [hloop, hrloop]
    exact ⟨fun h0 => by rw [loopCtl_zero s c1 e false h0, loopCtl_zero s c1 e true h0]; exact ⟨rfl, rfl⟩,
      fun h0 => by rw [loopCtl_push s c1 e false h0, loopCtl_push s c1 e true h0]; exact ⟨rfl, rfl⟩⟩

end Sys2Proof.Machine
end

