-- ==== Sys2Proof/Proofs/OperandsAndRegisters.lean ====
section
/-! LAW. Every operand form, and what a register file reads after a write (R137, R139, R154, R281 to R283, R318). -/
namespace Sys2Proof.Machine
open Sys2Proof.Claims

/-! ### Sources (R283) -/

section
variable {cu : Cursor} {code : BitVec 7} {c : Core}

theorem mapReg_eq (rot : BitVec 5) (n : Nat) : mapReg rot n = if n < 32 then n else 32 + (n - 32 + (32 - rot.toNat)) % 32 := by
  have hr := rot.isLt
  unfold mapReg
  split
  · rfl
  · rw [Nat.add_sub_assoc (by omega)]

theorem resolveS_latch (h : 64 ≤ code.toNat) (h' : code.toNat ≤ 71) :
    resolveS cu code c = .ok ((c.arch.getLatch (code.toNat - 64)).setWidth 64, c) := by
  unfold resolveS
  dsimp only
  rw [if_neg (by omega), if_pos h']

theorem resolveV_latch (h : 64 ≤ code.toNat) (h' : code.toNat ≤ 71) :
    resolveV cu code c = .ok ((c.arch.getLatch (code.toNat - 64)).setWidth 4096, c) := by
  unfold resolveV
  dsimp only
  rw [if_neg (by omega), if_pos h']

theorem resolveV_port (h : 72 ≤ code.toNat) (h' : code.toNat ≤ 79) : resolveV cu code c = popPort cu c (code.toNat - 72) := by
  unfold resolveV
  dsimp only
  rw [if_neg (by omega), if_neg (by omega), if_pos h']

theorem resolveS_port {v : VWord} {c1 : Core} (h : 72 ≤ code.toNat) (h' : code.toNat ≤ 79) (hp : popPort cu c (code.toNat - 72) = .ok (v, c1)) :
    resolveS cu code c = .ok (v.setWidth 64, c1) := by
  unfold resolveS
  dsimp only
  rw [if_neg (by omega), if_neg (by omega), if_pos h', hp]
  rfl

theorem resolveS_channel (h : 80 ≤ code.toNat) (h' : code.toNat ≤ 83) : resolveS cu code c = popChan cu c (code.toNat - 80) := by
  unfold resolveS
  dsimp only
  rw [if_neg (by omega), if_neg (by omega), if_neg (by omega), if_pos h']

theorem resolveV_channel (h : 80 ≤ code.toNat) (h' : code.toNat ≤ 83) : resolveV cu code c = illegal cu 3 := by
  unfold resolveV
  dsimp only
  rw [if_neg (by omega), if_neg (by omega), if_neg (by omega), if_pos h']

theorem resolveS_zero (h : code.toNat = 127) : resolveS cu code c = .ok (0, c) := by
  unfold resolveS
  dsimp only
  rw [if_neg (by omega), if_neg (by omega), if_neg (by omega), if_neg (by omega), if_pos h]

theorem resolveV_zero (h : code.toNat = 127) : resolveV cu code c = .ok (0, c) := by
  unfold resolveV
  dsimp only
  rw [if_neg (by omega), if_neg (by omega), if_neg (by omega), if_neg (by omega), if_pos h]

theorem resolveS_invalid (h : 84 ≤ code.toNat) (h' : code.toNat ≤ 126) : resolveS cu code c = illegal cu 2 := by
  unfold resolveS
  dsimp only
  rw [if_neg (by omega), if_neg (by omega), if_neg (by omega), if_neg (by omega), if_neg (by omega)]

theorem resolveV_invalid (h : 84 ≤ code.toNat) (h' : code.toNat ≤ 126) : resolveV cu code c = illegal cu 2 := by
  unfold resolveV
  dsimp only
  rw [if_neg (by omega), if_neg (by omega), if_neg (by omega), if_neg (by omega), if_neg (by omega)]

end

/-! ### Destinations (R281, R282, R318) -/

section
variable {cu : Cursor} {dst : BitVec 7} {ws : BitVec 1} {lat w : Nat} {c c1 : Core} {x : Word} {v m : VWord}

theorem writeS_port (h : 72 ≤ dst.toNat) (h' : dst.toNat ≤ 79)
    (hp : pushPort cu c (dst.toNat - 72) 64 (x.setWidth 4096) (lowMask 64 64) = .ok c1) :
    writeS cu dst 0 lat x c = .ok (emitLatch cu lat (x.setWidth 512) c1) := by
  unfold writeS
  dsimp only
  rw [if_neg (by omega), if_pos (by omega), if_neg (by decide), if_pos h', hp]
  rfl

theorem writeS_channel (h : 80 ≤ dst.toNat) (h' : dst.toNat ≤ 83) (hp : pushChan cu c (dst.toNat - 80) x = .ok c1) :
    writeS cu dst 0 lat x c = .ok (emitLatch cu lat (x.setWidth 512) c1) := by
  unfold writeS
  dsimp only
  rw [if_neg (by omega), if_pos (by omega), if_neg (by decide), if_neg (by omega), hp]
  rfl

/-- A port or a channel cannot be suppressed (R282). -/
theorem writeS_suppressed (h : 72 ≤ dst.toNat) (h' : dst.toNat ≤ 83) : writeS cu dst 1 lat x c = illegal cu 2 := by
  unfold writeS
  dsimp only
  rw [if_neg (by omega), if_pos (by omega), if_pos rfl]

theorem writeS_invalid (h : 64 ≤ dst.toNat ∧ dst.toNat ≤ 71 ∨ 84 ≤ dst.toNat) : writeS cu dst ws lat x c = illegal cu 2 := by
  unfold writeS
  dsimp only
  rw [if_neg (by omega), if_neg (by omega)]

theorem writeV_port (h : 72 ≤ dst.toNat) (h' : dst.toNat ≤ 79) (hp : pushPort cu c (dst.toNat - 72) w v m = .ok c1) :
    writeV cu dst 0 lat w v m c = .ok (emitLatch cu lat ((v &&& m).setWidth 512) c1) := by
  unfold writeV
  dsimp only
  rw [if_neg (by omega), if_pos (by omega), if_neg (by decide), if_neg (by omega), hp]
  rfl

theorem writeV_channel (h : 80 ≤ dst.toNat) (h' : dst.toNat ≤ 83) : writeV cu dst 0 lat w v m c = illegal cu 3 := by
  unfold writeV
  dsimp only
  rw [if_neg (by omega), if_pos (by omega), if_neg (by decide), if_pos h]

theorem writeV_suppressed (h : 72 ≤ dst.toNat) (h' : dst.toNat ≤ 83) : writeV cu dst 1 lat w v m c = illegal cu 2 := by
  unfold writeV
  dsimp only
  rw [if_neg (by omega), if_pos (by omega), if_pos rfl]

theorem writeV_invalid (h : 64 ≤ dst.toNat ∧ dst.toNat ≤ 71 ∨ 84 ≤ dst.toNat) : writeV cu dst ws lat w v m c = illegal cu 2 := by
  unfold writeV
  dsimp only
  rw [if_neg (by omega), if_neg (by omega)]

end

/-! ### The register files (R137, R139, R154) -/

section
variable (a : Arch)

@[simp] theorem Arch.setS_zero (v : Word) : a.setS 0 v = a := if_pos rfl
@[simp] theorem Arch.getS_zero : a.getS 0 = 0 := if_pos rfl

/-- While the handler is active a write of s8 to s15 goes to the shadow bank (R154). -/
theorem Arch.setS_shadow {r : Nat} (v : Word) (hui : a.uiActive = true) (h8 : 8 ≤ r) (h16 : r < 16) :
    a.setS r v = { a with shadow := FMap.set 0 a.shadow r v } := by
  unfold Arch.setS
  rw [if_neg (by omega), if_pos ⟨hui, h8, h16⟩]

/-- Any other write goes to the s registers. -/
theorem Arch.setS_own {r : Nat} (v : Word) (h0 : r ≠ 0) (hsh : ¬ (a.uiActive = true ∧ 8 ≤ r ∧ r < 16)) :
    a.setS r v = { a with s := FMap.set 0 a.s r v } := by
  unfold Arch.setS
  rw [if_neg h0, if_neg hsh]

/-- An s register reads what was written to it last; every other reads as before. -/
theorem Arch.getS_setS (r k : Nat) (v : Word) : (a.setS r v).getS k = if k = r ∧ r ≠ 0 then v else a.getS k := by
  by_cases h0 : r = 0
  · subst h0
    rw [Arch.setS_zero, if_neg (by simp)]
  by_cases hsh : a.uiActive = true ∧ 8 ≤ r ∧ r < 16
  · rw [Arch.setS_shadow a v hsh.1 hsh.2.1 hsh.2.2]
    simp only [Arch.getS, FMap.get_set]
    grind
  · rw [Arch.setS_own a v h0 hsh]
    simp only [Arch.getS, FMap.get_set]
    grind

theorem Arch.getV_setV (r k : Nat) (v : VWord) : (a.setV r v).getV k = if k = r then v else a.getV k := FMap.get_set _ _ _ _ _
theorem Arch.getP_setP (r k : Nat) (v : PWord) : (a.setP r v).getP k = if k = r then v else a.getP k := FMap.get_set _ _ _ _ _

/-- A one shifted to place r is set there alone. -/
theorem getLsbD_one_shiftLeft {r : Nat} (k : Nat) (h : r < 32) : ((1 : BitVec 32) <<< r).getLsbD k = decide (k = r) := by
  simp only [BitVec.getLsbD_shiftLeft, BitVec.ofNat_eq_ofNat, BitVec.getLsbD_one]
  grind

theorem Arch.getG_setG {r : Nat} (k : Nat) (b : Bool) (h : r < 32) : (a.setG r b).getG k = if k = r then b else a.getG k := by
  unfold Arch.setG Arch.getG
  cases b
  · by_cases h32 : k < 32
    · simp only [Bool.false_eq_true, if_false, BitVec.getLsbD_and, BitVec.getLsbD_not, getLsbD_one_shiftLeft k h, h32]
      grind
    · have hk : k ≠ r := by omega
      rw [if_neg hk, BitVec.getLsbD_of_ge _ k (Nat.le_of_not_lt h32), BitVec.getLsbD_of_ge _ k (Nat.le_of_not_lt h32)]
  · simp only [if_true, BitVec.getLsbD_or, getLsbD_one_shiftLeft k h]
    grind

end

/-- Settles O51: each operand form by its code, each register file by what it reads after a write. -/
theorem operandsAndRegisters : Obligations.OperandsAndRegisters := by
  refine ⟨fun s c code => ?_, fun a r v => ?_⟩
  · refine ⟨fun h => ⟨_, resolveS_register h, resolveV_register h, mapReg_eq _ _⟩, fun h h' => ⟨resolveS_latch h h', resolveV_latch h h'⟩,
      fun h h' v c1 hp => ⟨(resolveV_port h h').trans hp, resolveS_port h h' hp⟩, fun h h' => ⟨resolveS_channel h h', resolveV_channel h h'⟩,
      fun h => ⟨resolveS_zero h, resolveV_zero h⟩, fun h h' => ⟨resolveS_invalid h h', resolveV_invalid h h'⟩,
      fun lat v h => ⟨_, mapReg_eq c.arch.rot _, writeS_register h, writeS_register h⟩,
      fun lat w v m h => ⟨_, mapReg_eq c.arch.rot _, writeV_register h, writeV_register h⟩, fun lat v h h' c1 hp => writeS_port h h' hp,
      fun ws lat v h => writeS_invalid h, fun lat w v m => ⟨fun h ws => writeV_invalid h, writeV_suppressed, writeV_channel,
        fun h h' c1 hp => writeV_port h h' hp⟩, fun lat v => ⟨writeS_suppressed, fun h h' c1 hp => writeS_channel h h' hp⟩⟩
  · refine ⟨⟨a.setS_zero v, a.getS_zero⟩, fun h => ?_, fun k h => ?_, fun hui h8 h16 => ?_, fun x => ⟨?_, fun k h => ?_, rfl⟩,
      fun x => ⟨?_, fun k h => ?_⟩, fun b h => ⟨?_, fun k hk => ?_⟩⟩
    · rw [Arch.getS_setS, if_pos ⟨rfl, h⟩]
    · rw [Arch.getS_setS, if_neg (fun e => h e.1)]
    · rw [Arch.setS_shadow a v hui h8 h16]
    · rw [Arch.getV_setV, if_pos rfl]
    · rw [Arch.getV_setV, if_neg h]
    · rw [Arch.getP_setP, if_pos rfl]
    · rw [Arch.getP_setP, if_neg h]
    · rw [Arch.getG_setG a _ b h, if_pos rfl]
    · rw [Arch.getG_setG a _ b h, if_neg hk]

end Sys2Proof.Machine
end

