-- ==== Sys2Proof/Proofs/StrandEvents.lean ====
section
/-! LAW. A push through a slot that has been emptied since drains in the format of the slot's record at the push (R200, R369). -/
namespace Sys2Proof.Machine
open Sys2Proof.Claims

/-- A pattern of one element of slot 0 whose SPAD bit is set: bits 0 and 16, counts of 1. -/
def slotSpadPattern : BitVec 768 := 1#768 ||| (1#768 <<< 16) ||| (1#768 <<< 192) ||| (1#768 <<< 256) ||| (1#768 <<< 320) ||| (1#768 <<< 384)

/-- An entry pushed while slot 0 held a record of FMT 3, elements of 8 bits. -/
def pushedByte : PushEntry := ⟨0, 0, 0, 0, 0xFFFFFFFF, 3#2048 <<< 32⟩

/-- A write port with that pattern and entry. -/
def spadPort : Port := ⟨slotSpadPattern, 0, 1, (0, 0), 0, [], [pushedByte]⟩

/-- Core 0 has it as port 0; its slot 0 is empty. -/
def pushedPort : State := { State.reset with cores := [(0, { Core.init with arch := { Arch.init with ports := [(0, spadPort)] } })] }

theorem spadPort_spad : patSpad spadPort.img = true := by decide +kernel

/-- The entry drains as one element of 8 bits. -/
theorem pushedPort_drains_byte :
    partAfter (fun t => Memory.read (t.core 0).spad 1) (exec (.streamPortDrain 0 0) pushedPort) = some 0 := by decide +kernel

/-- The port's pattern alone, its slot empty, would give the entry the format 0: one element of 32 bits. -/
theorem emptySlot_width :
    (patAddr (patFmtOf (pushedPort.core 0) spadPort.img) spadPort.img pushedByte.idx).toNat % 2 ^ 22 = 0 ∧
      patLive (patFmtOf (pushedPort.core 0) spadPort.img) spadPort.img pushedByte.idx * fmtWidth (patFmtOf (pushedPort.core 0) spadPort.img) / 8 = 4 := by
  decide +kernel

/-- Refutes O12: a drain to the scratchpad need not have the format that the pattern's slot gives now. Where the slot has been emptied since the push
it has that of the record kept with the entry. The clause does not ask for a pattern in address mode, which R369 requires of one with SPAD = 1. -/
theorem not_strandEvents : ¬ Obligations.StrandEvents := by
  intro h
  obtain ⟨-, -, -, -, -, hports⟩ := h
  obtain ⟨-, hdrain⟩ := hports pushedPort 0 0 spadPort rfl
  obtain ⟨t, ⟨-, hspad⟩, ht⟩ := completes_part (hdrain pushedByte [] rfl spadPort_spad) pushedPort_drains_byte
  obtain ⟨haddr, hbytes⟩ := emptySlot_width
  have hword : Memory.read (Memory.writeN (pushedPort.core 0).spad 0 4 pushedByte.val.toNat) 1 = 0xFF := by decide +kernel
  rw [hspad, haddr, hbytes, hword] at ht
  exact absurd ht (by decide)

end Sys2Proof.Machine
end

