-- ==== Sys2Proof/Proofs/StepRunsDecoded.lean ====
section
/-! LAW. At a start point what an abort left goes on before the packet at the position starts (R94). -/
namespace Sys2Proof.Machine
open Sys2Proof.Claims

/-- A queue that is enabled, whose abort procedure with value 0 waited to set ABTSIG, and which has read a nop at its position. -/
def abortLeft : Queue := { Queue.init with en := true, tail := 1, abort := some (0, 0), seen := some (0, [0]) }

/-- The next thing of the cycle is a start point of queue 0. -/
def abortPoint : State := { State.reset with queues := [(0, abortLeft)], agenda := [.point 0] }

/-- The queue at its start point: nothing started is complete. -/
def atPoint : State := recognise { abortPoint with agenda := [] } 0

theorem atPoint_runs : (atPoint.queue 0).en = true ∧ (atPoint.queue 0).frozen = false := by decide +kernel

/-- A nop stands at the position and might start. -/
theorem atPoint_head : queueHead atPoint 0 = (.cmd (.cmdNop (Pkt.ofUnits 0 [])), dropUnits atPoint 0) := by decide +kernel

/-- The nop leaves the abort procedure where it is. -/
theorem nop_keeps_abort : partAfter (fun t => (t.queue 0).abort) (exec (.cmdNop (Pkt.ofUnits 0 [])) { dropUnits atPoint 0 with curQ := 0 }) =
    some (some (0, 0)) := by decide +kernel

/-- The start point goes on with the abort procedure, which ends there. -/
theorem point_ends_abort : partAfter (fun t => (t.queue 0).abort) (queuePoint 0 { abortPoint with agenda := [] }) = some none := by decide +kernel

/-- Refutes O46: with a command at its position a queue's start point still goes on with what its abort procedure left. The clause on start points
does not ask for `abort = none`. -/
theorem not_stepRunsDecoded : ¬ Obligations.StepRunsDecoded := by
  intro h
  obtain ⟨-, -, hpoint, -, -⟩ := h
  obtain ⟨hen, hfr⟩ := atPoint_runs
  have hstep : queuePoint 0 { abortPoint with agenda := [] } = _ := hpoint abortPoint (dropUnits atPoint 0) 0 [] _ rfl hen hfr atPoint_head
  have hends := point_ends_abort
  rw [hstep, nop_keeps_abort] at hends
  exact absurd hends (by decide)

end Sys2Proof.Machine
end

