-- ==== Sys2Proof/Proofs/LaneGate.lean ====
section
/-! LAW. The gate of a lane operation: with a stage predicate of 0 nothing happens, an invalid PR traps, and there is always a next state (R140, R287). -/
namespace Sys2Proof.Machine
open Sys2Proof.Claims

/-! ### The gate (R140, R287) -/

section
variable {s : State} {pr : BitVec 6} {body : Cursor → Core → LM State}

/-- A lane operation that changes its core alone is one that may act outside it. -/
theorem laneStep_eq_laneStepS (s : State) (pr : BitVec 6) (body : Cursor → Core → LM Core) :
    laneStep s pr body = laneStepS s pr fun cu c => (body cu c).map (s.setCore s.cur.core) := by
  unfold laneStep laneStepS
  dsimp only
  cases stagePred (s.core s.cur.core) pr with
  | none => rfl
  | some b =>
    cases b with
    | false => rfl
    | true =>
      cases body s.cur (s.core s.cur.core) with
      | ok c => rfl
      | error e => cases e <;> rfl

theorem laneStepS_off (h : stagePred (here s) pr = some false) : laneStepS s pr body = .next s := by
  unfold here at h
  simp only [laneStepS, h]

theorem laneStepS_badPr (h : stagePred (here s) pr = none) : laneStepS s pr body = traps s (Trap.illegal 2 s.cur.lane) := by
  unfold here at h
  simp only [laneStepS, h]
  rfl

theorem laneStepS_next (s : State) (pr : BitVec 6) (body : Cursor → Core → LM State) : ∃ t, laneStepS s pr body = .next t := by
  unfold laneStepS
  dsimp only
  split
  · exact ⟨_, rfl⟩
  · exact ⟨_, rfl⟩
  · split <;> exact ⟨_, rfl⟩

end

/-! ### Every lane operation has it -/

/-- The instruction is executed through the gate, with PR field pr. -/
def Gated (s : State) (i : Instr) (pr : BitVec 6) : Prop := ∃ body, exec i s = laneStepS s pr body

theorem gated_core {s : State} {i : Instr} {pr : BitVec 6} {body : Cursor → Core → LM Core} (h : exec i s = laneStep s pr body) : Gated s i pr :=
  ⟨_, h.trans (laneStep_eq_laneStepS s pr body)⟩

/-- The instruction has a word of a lane (Table 12.1). -/
def hasLaneWord (i : Instr) : Bool :=
  match encode i with
  | .s _ | .v _ | .f _ | .m _ | .x _ => true
  | .cmd _ | .event => false

theorem everyLaneOp_imp {P Q : Instr → BitVec 6 → Prop} (h : ∀ i pr, P i pr → Q i pr) (hP : EveryLaneOp P) : EveryLaneOp Q := by
  obtain ⟨h1, h2, h3, h4, h5, h6, h7, h8, h9, h10, h11, h12, h13, h14⟩ := hP
  exact ⟨fun op m f => h _ _ (h1 op m f), fun op m f => h _ _ (h2 op m f), fun op m f => h _ _ (h3 op m f), fun op m f => h _ _ (h4 op m f),
    fun op m f => h _ _ (h5 op m f), fun op m f => h _ _ (h6 op m f), fun op m f => h _ _ (h7 op m f), fun op m f => h _ _ (h8 op m f),
    fun op m f => h _ _ (h9 op m f), fun op m f => h _ _ (h10 op m f), fun op m f => h _ _ (h11 op m f), fun op m f => h _ _ (h12 op m f),
    fun op m f => h _ _ (h13 op m f), fun op m f => h _ _ (h14 op m f)⟩

/-- Every lane operation goes through the gate with its PR field: all but slotld change their core alone. -/
theorem everyLaneOp_gated (s : State) : EveryLaneOp fun i pr => hasLaneWord i = true ∧ Gated s i pr := by
  have core : ∀ {i : Instr} {pr : BitVec 6} {body : Cursor → Core → LM Core}, hasLaneWord i = true → exec i s = laneStep s pr body →
      hasLaneWord i = true ∧ Gated s i pr := fun hw h => ⟨hw, gated_core h⟩
  refine ⟨?_, ?_, ?_, ?control, ?_, ?_, ?_, ?_, ?_, ?_, ?_, ?_, ?_, ?_⟩
  case control =>
    simp only [allSC, List.forall_mem_cons, List.not_mem_nil, false_imp_iff, implies_true, and_true]
    refine ⟨?_, ?_, ?_, ?_, ?_, ?_, ?_, ?_, ?_, ?_, ?_, ?_, fun f => ⟨rfl, _, (rfl : exec (.slotld f) s = laneStepS s f.pr (slotldBody f s))⟩⟩
    all_goals exact fun f => core rfl rfl
  all_goals
    simp only [allSR, allSI, allSL, allVR, allVT, allVA, allFA, allFD, allMA, allMX, allXP, allXT, allXS, List.forall_mem_cons, List.not_mem_nil,
      false_imp_iff, implies_true, and_true]
    and_intros
    all_goals exact fun f => core rfl rfl

/-- Settles O49, by the gate every lane operation goes through. -/
theorem stagePredicateGate : Obligations.StagePredicateGate := by
  intro s
  refine everyLaneOp_imp (fun i pr h => ?_) (everyLaneOp_gated s)
  obtain ⟨-, body, hexec⟩ := h
  rw [hexec]
  exact ⟨laneStepS_off, laneStepS_badPr, laneStepS_next s pr body⟩

end Sys2Proof.Machine
end

