-- ==== Sys2Proof/Proofs/IssueStore.lean ====
section
/-! SUPPORT. The body of a lane operation leaves the registers, latches, scratchpad, tiles and staging of its core as they were: `f_store` says so of
`f`, whatever core it is given. Results, stores and posts only join what waits for its latency or for the commit (R135, R136, R158, R159). -/
namespace Sys2Proof.Machine
open Sys2Proof.Claims

theorem ite_store {c0 : Core} {p : Prop} [Decidable p] {a b : Core} (ha : sameStore c0 a) (hb : sameStore c0 b) :
    sameStore c0 (if p then a else b) := by
  split
  · exact ha
  · exact hb

theorem foldl_store {c0 : Core} {α : Type} {f : Core → α → Core} (hf : ∀ c a, sameStore c0 c → sameStore c0 (f c a)) {c : Core}
    (h : sameStore c0 c) {l : List α} : sameStore c0 (l.foldl f c) :=
  List.foldlRecOn l f h fun t ht a _ => hf t a ht

section
variable {c0 c : Core} {cu : Cursor} {s : State} (hc : sameStore c0 c)
include hc

/-! ### Results, ports, channels, operands -/

theorem emit_store {lat : Nat} {e : Eff} : sameStore c0 (emit cu lat e c) := hc
theorem setCtl_store {k : Ctl} : sameStore c0 (setCtl cu k c) := hc

theorem logGranules_store {a n : Nat} : sameStore c0 (logGranules c a n) := by
  induction n with
  | zero => exact hc
  | succ n ih =>
    rw [logGranules]
    split
    · exact ih
    · exact ih

theorem logSpad_store {a n : Nat} : Gives (sameStore c0) (logSpad cu c a n) := gives_ite (gives_error _) (gives_ok (logGranules_store hc))

theorem popPort_store {n : Nat} : Gives (fun r => sameStore c0 r.2) (popPort cu c n) := by
  unfold popPort
  refine gives_seq fun _ => ?_
  refine gives_ite (gives_error _) ?_
  refine gives_ite (gives_ok hc) ?_
  split
  · exact gives_error _
  · split
    · exact gives_error _
    · exact gives_ok hc

theorem pushPort_store {n w : Nat} {val mask : VWord} : Gives (sameStore c0) (pushPort cu c n w val mask) :=
  gives_seq fun _ =>
  gives_ite (gives_error _)
    (gives_ite (gives_ok hc)
       (gives_ite (gives_error _)
          (gives_ite (Gives.bind (logSpad_store hc) fun _ h1 => gives_ok h1)
             (gives_seq fun _ => gives_let (gives_ok hc)))))

theorem popChan_store {n : Nat} : Gives (fun r => sameStore c0 r.2) (popChan cu c n) := by
  unfold popChan
  refine gives_seq fun _ => ?_
  refine gives_ite (gives_error _) ?_
  split
  · exact gives_error _
  · exact gives_ok hc

theorem pushChan_store {n : Nat} {w : Word} : Gives (sameStore c0) (pushChan cu c n w) :=
  gives_seq fun _ => gives_ite (gives_error _) (gives_ite (gives_error _) (gives_ok hc))

theorem resolveS_store {code : BitVec 7} : Gives (fun r => sameStore c0 r.2) (resolveS cu code c) :=
  gives_ite (gives_ok hc)
    (gives_ite (gives_ok hc)
       (gives_ite (Gives.bind (popPort_store hc) fun ⟨_, _⟩ h1 => gives_ok h1)
          (gives_ite (popChan_store hc) (gives_ite (gives_ok hc) (gives_error _)))))

theorem resolveV_store {code : BitVec 7} : Gives (fun r => sameStore c0 r.2) (resolveV cu code c) :=
  gives_ite (gives_ok hc)
    (gives_ite (gives_ok hc)
       (gives_ite (popPort_store hc) (gives_ite (gives_error _) (gives_ite (gives_ok hc) (gives_error _)))))

theorem emitLatch_store {lat : Nat} {v : LWord} : sameStore c0 (emitLatch cu lat v c) := ite_store (emit_store hc) hc

theorem writeS_store {dst : BitVec 7} {ws : BitVec 1} {lat : Nat} {v : Word} : Gives (sameStore c0) (writeS cu dst ws lat v c) :=
  gives_ite (gives_ok (emitLatch_store (ite_store (emit_store hc) hc)))
    (gives_ite
       (gives_ite (gives_error _)
          (gives_ite (Gives.bind (pushPort_store hc) fun _ h1 => gives_ok (emitLatch_store h1))
             (Gives.bind (pushChan_store hc) fun _ h2 => gives_ok (emitLatch_store h2))))
       (gives_error _))

theorem writeV_store {dst : BitVec 7} {ws : BitVec 1} {lat w : Nat} {val mask : VWord} : Gives (sameStore c0) (writeV cu dst ws lat w val mask c) :=
  gives_ite (gives_ok (emitLatch_store (ite_store (emit_store hc) hc)))
    (gives_ite
       (gives_ite (gives_error _)
          (gives_ite (gives_error _)
             (Gives.bind (pushPort_store hc) fun _ h1 => gives_ok (emitLatch_store h1))))
       (gives_error _))

theorem writeVs_store {dst : BitVec 7} {ws : BitVec 1} {lat : Nat} {parts : List (VWord × VWord)} :
    Gives (sameStore c0) (writeVs cu dst ws lat parts c) := by
  unfold writeVs
  refine gives_ite ?_ (gives_ite (gives_error _) (gives_error _))
  extract_lets c1
  have h1 : sameStore c0 c1 := ite_store (foldl_store (fun _ _ h => emit_store h) hc) hc
  split
  · exact gives_ok h1
  · exact gives_ok (emitLatch_store h1)

theorem writeG_store {g : Nat} {ws : BitVec 1} {lat : Nat} {b : Bool} : sameStore c0 (writeG cu g ws lat b c) :=
  emitLatch_store (ite_store (emit_store hc) hc)

theorem writeP_store {i : Nat} {ws : BitVec 1} {lat : Nat} {v : PWord} : sameStore c0 (writeP cu i ws lat v c) :=
  emitLatch_store (ite_store (emit_store hc) hc)

theorem takeBob_store {dest : LandDest} {ws : BitVec 1} {waiting : Nat} {ovl : VWord} {mask : BitVec 512} :
    Gives (fun r => sameStore c0 r.2) (takeBob cu c dest ws waiting ovl mask) := gives_ite (gives_error _) (gives_ite (gives_error _) (gives_ok hc))

/-! ### Control -/

theorem brBody_store {f : SC} : Gives (sameStore c0) (brBody f cu c) :=
  gives_seq fun _ =>
  gives_ite (gives_let (gives_ite (gives_seq fun _ => gives_ok hc) (gives_ok hc)))
    (Gives.bind (resolveS_store hc) fun ⟨_, _⟩ h1 =>
     gives_ite (gives_seq fun _ => gives_ok h1) (gives_ok h1))

theorem callBody_store {f : SC} : Gives (sameStore c0) (callBody f cu c) :=
  gives_seq fun _ =>
  gives_ite (gives_let (gives_seq fun _ => gives_ok (setCtl_store (emitLatch_store (emit_store hc)))))
    (Gives.bind (resolveS_store hc) fun ⟨_, _⟩ h1 =>
     gives_seq fun _ => gives_ok (setCtl_store (emitLatch_store (emit_store h1))))

theorem retBody_store {f : SC} : Gives (sameStore c0) (retBody f cu c) :=
  gives_seq fun _ => Gives.bind (resolveS_store hc) fun ⟨_, _⟩ h1 => gives_seq fun _ => gives_ok h1

theorem lbreakBody_store {f : SC} : Gives (sameStore c0) (lbreakBody f cu c) := gives_seq fun _ => gives_ite (gives_error _) (gives_ok hc)

theorem loopBody_store {f : SC} {rot : Bool} : Gives (sameStore c0) (loopBody f rot cu c) :=
  gives_seq fun _ =>
  Gives.bind (resolveS_store hc) fun ⟨_, _⟩ h1 =>
  gives_seq fun _ => gives_ite (gives_error _) (gives_ite (gives_ok h1) (gives_ok h1))

theorem spawnBody_store {f : SC} : Gives (sameStore c0) (spawnBody f cu c) :=
  gives_seq fun _ =>
  Gives.bind (resolveS_store hc) fun ⟨_, _⟩ h1 =>
  Gives.bind (resolveS_store h1) fun ⟨_, _⟩ h2 => gives_ite (gives_error _) (gives_ok h2)

theorem joinBody_store {f : SC} : Gives (sameStore c0) (joinBody f cu c) := gives_seq fun _ => gives_ite (gives_error _) (gives_ok hc)

theorem exitBody_store {f : SC} : Gives (sameStore c0) (exitBody f cu c) :=
  gives_seq fun _ =>
  gives_ite (gives_let (gives_seq fun _ => gives_ok hc))
    (Gives.bind (resolveS_store hc) fun ⟨_, _⟩ h1 =>
     gives_seq fun _ => gives_ok h1)

theorem exitabBody_store {f : SC} : Gives (sameStore c0) (exitabBody f cu c) :=
  gives_seq fun _ => Gives.bind (resolveS_store hc) fun ⟨_, _⟩ h1 => gives_seq fun _ => gives_ok h1

theorem trapBody_store {f : SC} : Gives (sameStore c0) (trapBody f cu c) := gives_seq fun _ => gives_ite (gives_ok hc) (gives_error _)

theorem uiretBody_store {f : SC} : Gives (sameStore c0) (uiretBody f cu c) := gives_seq fun _ => gives_ite (gives_error _) (gives_ok hc)

/-! ### Scalar integers -/

theorem emitFlags_store {lat : Nat} {nf : BitVec 1} {fl : List (Nat × FlagBits)} : sameStore c0 (emitFlags cu lat nf fl c) := ite_store hc hc

theorem scalar2_store {f : SR} {lat : Nat} {op : Word → Word → Word} : Gives (sameStore c0) (scalar2 f lat op cu c) :=
  gives_seq fun _ => Gives.bind (resolveS_store hc) fun ⟨_, _⟩ h1 => Gives.bind (resolveS_store h1) fun ⟨_, _⟩ h2 => writeS_store h2

theorem scalar1_store {f : SR} {lat : Nat} {op : Word → Word} : Gives (sameStore c0) (scalar1 f lat op cu c) :=
  gives_seq fun _ => Gives.bind (resolveS_store hc) fun ⟨_, _⟩ h1 => writeS_store h1

theorem scalarExt_store {f : SR} {op : Nat → Word → Word} : Gives (sameStore c0) (scalarExt f op cu c) :=
  gives_seq fun _ => Gives.bind (resolveS_store hc) fun ⟨_, _⟩ h1 => writeS_store h1

theorem scalarI_store {f : SI} {ok : BitVec 11 → Bool} {op : Word → Word → Word} : Gives (sameStore c0) (scalarI f ok op cu c) :=
  gives_seq fun _ => Gives.bind (resolveS_store hc) fun ⟨_, _⟩ h1 => writeS_store h1

theorem scalarSel_store {f : SR} : Gives (sameStore c0) (scalarSel f cu c) :=
  gives_seq fun _ => Gives.bind (resolveS_store hc) fun ⟨_, _⟩ h1 => Gives.bind (resolveS_store h1) fun ⟨_, _⟩ h2 => writeS_store h2

theorem scalarLi_store {f : SL} : Gives (sameStore c0) (scalarLi f cu c) := writeS_store hc

theorem scalarLis_store {f : SL} : Gives (sameStore c0) (scalarLis f cu c) := gives_seq fun _ => writeS_store hc

theorem scalarCmp_store {f : SR} {signed : Bool} : Gives (sameStore c0) (scalarCmp f signed cu c) :=
  gives_seq fun _ => Gives.bind (resolveS_store hc) fun ⟨_, _⟩ h1 => Gives.bind (resolveS_store h1) fun ⟨_, _⟩ h2 => gives_ok (writeG_store h2)

theorem scalarCmpi_store {f : SI} : Gives (sameStore c0) (scalarCmpi f cu c) :=
  gives_seq fun _ => Gives.bind (resolveS_store hc) fun ⟨_, _⟩ h1 => gives_ok (writeG_store h1)

theorem gLogic_store {f : SR} {op : Bool → Bool → Bool} : Gives (sameStore c0) (gLogic f op cu c) :=
  gives_seq fun _ => gives_seq fun _ => gives_seq fun _ => gives_ok (writeG_store hc)

theorem gSet_store {f : SR} : Gives (sameStore c0) (gSet f cu c) :=
  gives_seq fun _ => Gives.bind (resolveS_store hc) fun ⟨_, _⟩ h1 => gives_ok (writeG_store h1)

/-! ### Vector integers and predicates -/

theorem vecInt2_store {f : VR} {lat : Nat} {op : Nat → Nat → Nat → Nat → Nat} : Gives (sameStore c0) (vecInt2 f lat op cu c) :=
  gives_seq fun _ => Gives.bind (resolveV_store hc) fun ⟨_, _⟩ h1 => Gives.bind (resolveV_store h1) fun ⟨_, _⟩ h2 => writeV_store h2

theorem vecInt1_store {f : VR} {op : Nat → Nat → Nat} : Gives (sameStore c0) (vecInt1 f op cu c) :=
  gives_seq fun _ => Gives.bind (resolveV_store hc) fun ⟨_, _⟩ h1 => writeV_store h1

theorem vecIntI_store {f : VR} {lat : Nat} {shift : Bool} {op : Nat → Nat → Nat → Nat → Nat} : Gives (sameStore c0) (vecIntI f lat shift op cu c) :=
  gives_seq fun _ => Gives.bind (resolveV_store hc) fun ⟨_, _⟩ h1 => writeV_store h1

theorem vecMove_store {f : VR} {bcast : Bool} : Gives (sameStore c0) (vecMove f bcast cu c) :=
  gives_seq fun _ => Gives.bind (resolveV_store hc) fun ⟨_, _⟩ h1 => writeV_store h1

theorem vecSel_store {f : VR} : Gives (sameStore c0) (vecSel f cu c) :=
  gives_seq fun _ => Gives.bind (resolveV_store hc) fun ⟨_, _⟩ h1 => Gives.bind (resolveV_store h1) fun ⟨_, _⟩ h2 => writeV_store h2

theorem vecCmp_store {f : VR} {signed imm : Bool} : Gives (sameStore c0) (vecCmp f signed imm cu c) :=
  gives_seq fun _ =>
  Gives.bind (resolveV_store hc) fun ⟨_, _⟩ h1 =>
  gives_ite (gives_let (gives_ok (writeP_store h1)))
    (Gives.bind (resolveV_store h1) fun ⟨_, _⟩ h2 => gives_ok (writeP_store h2))

theorem vecFcmp_store {f : VR} : Gives (sameStore c0) (vecFcmp f cu c) :=
  gives_seq fun _ =>
  Gives.bind (resolveV_store hc) fun ⟨_, _⟩ h1 =>
  Gives.bind (resolveV_store h1) fun ⟨_, _⟩ h2 => gives_ok (emitFlags_store (writeP_store h2))

theorem pLogic_store {f : VR} {op : PWord → PWord → PWord} : Gives (sameStore c0) (pLogic f op cu c) :=
  gives_seq fun _ => gives_seq fun _ => gives_seq fun _ => gives_ok (writeP_store hc)

theorem pSet_store {f : VR} : Gives (sameStore c0) (pSet f cu c) :=
  gives_seq fun _ => Gives.bind (resolveV_store hc) fun ⟨_, _⟩ h1 => gives_ok (writeP_store h1)

theorem pFirst_store {f : VR} : Gives (sameStore c0) (pFirst f cu c) := gives_seq fun _ => gives_seq fun _ => gives_ok (writeP_store hc)

theorem pCount_store {f : VR} : Gives (sameStore c0) (pCount f cu c) := gives_seq fun _ => gives_seq fun _ => writeV_store hc

/-! ### Vector floating point, conversions and draws -/

theorem finishVF_store {dst : BitVec 7} {ws nf : BitVec 1} {ep : BitVec 4} {lat w : Nat} {r : Nat → Nat × FlagBits} :
    Gives (sameStore c0) (finishVF dst ws nf ep lat w r cu c) := Gives.bind (writeV_store hc) fun _ h1 => gives_ok (emitFlags_store h1)

theorem vecF2_store {f : VR} {op : FFmt → Nat → Nat → Nat × FlagBits} : Gives (sameStore c0) (vecF2 f op cu c) :=
  gives_seq fun _ => Gives.bind (resolveV_store hc) fun ⟨_, _⟩ h1 => Gives.bind (resolveV_store h1) fun ⟨_, _⟩ h2 => finishVF_store h2

theorem vecF1_store {f : VR} {op : FFmt → Nat → Nat × FlagBits} : Gives (sameStore c0) (vecF1 f op cu c) :=
  gives_seq fun _ => Gives.bind (resolveV_store hc) fun ⟨_, _⟩ h1 => finishVF_store h1

theorem vecFma_store {f : VT} {t : FFmt} {sub : Bool} : Gives (sameStore c0) (vecFma f t sub cu c) :=
  gives_seq fun _ =>
  Gives.bind (resolveV_store hc) fun ⟨_, _⟩ h1 =>
  Gives.bind (resolveV_store h1) fun ⟨_, _⟩ h2 =>
  Gives.bind (resolveV_store h2) fun ⟨_, _⟩ h3 => finishVF_store h3

theorem finishRed_store {f : VR} {r : Nat × FlagBits} : Gives (sameStore c0) (finishRed f r cu c) :=
  Gives.bind (writeV_store hc) fun _ h1 => gives_ok (emitFlags_store h1)

theorem vecRed_store {f : VR} {tyMax : Nat} {value : Nat → List (Option Nat) → Nat × FlagBits} : Gives (sameStore c0) (vecRed f tyMax value cu c) :=
  gives_seq fun _ => Gives.bind (resolveV_store hc) fun ⟨_, _⟩ h1 => finishRed_store h1

theorem sfu1_store {f : FA} {lat : Nat} {op : FFmt → Nat → Nat × FlagBits} : Gives (sameStore c0) (sfu1 f lat op cu c) :=
  gives_seq fun _ => Gives.bind (resolveV_store hc) fun ⟨_, _⟩ h1 => finishVF_store h1

theorem vlseBody_store {f : FA} : Gives (sameStore c0) (vlseBody f cu c) :=
  gives_seq fun _ => Gives.bind (resolveV_store hc) fun ⟨_, _⟩ h1 => Gives.bind (writeV_store h1) fun _ h2 => gives_ok (emitFlags_store h2)

theorem vecCvt_store {f : VR} : Gives (sameStore c0) (vecCvt f cu c) :=
  gives_seq fun _ => Gives.bind (resolveV_store hc) fun ⟨_, _⟩ h1 => finishVF_store h1

theorem finishWiden_store {dst : BitVec 7} {ws nf : BitVec 1} {ep : BitVec 4} {wsrc wd k : Nat} {flags : Bool} {r : Nat → Nat × FlagBits} :
    Gives (sameStore c0) (finishWiden dst ws nf ep wsrc wd k flags r cu c) :=
  Gives.bind (writeVs_store hc) fun _ h1 => gives_ok (ite_store (emitFlags_store h1) h1)

theorem vecWiden_store {f : VR} : Gives (sameStore c0) (vecWiden f cu c) :=
  gives_seq fun _ => Gives.bind (resolveV_store hc) fun ⟨_, _⟩ h1 => finishWiden_store h1

theorem vecNarrow_store {f : VR} : Gives (sameStore c0) (vecNarrow f cu c) :=
  gives_seq fun _ => gives_seq fun _ => Gives.bind (writeV_store hc) fun _ h1 => gives_ok (emitFlags_store h1)

theorem vecVq8_store {f : VR} : Gives (sameStore c0) (vecVq8 f cu c) :=
  gives_seq fun _ =>
  gives_seq fun _ =>
  Gives.bind (resolveV_store hc) fun ⟨_, _⟩ h1 =>
  Gives.bind (writeV_store h1) fun _ h2 => gives_ok (emitFlags_store h2)

theorem vecVdq8_store {f : VR} : Gives (sameStore c0) (vecVdq8 f cu c) :=
  gives_seq fun _ => Gives.bind (resolveV_store hc) fun ⟨_, _⟩ h1 => Gives.bind (resolveV_store h1) fun ⟨_, _⟩ h2 => finishWiden_store h2

theorem vecMxq_store {f : VR} : Gives (sameStore c0) (vecMxq f cu c) :=
  gives_seq fun _ => gives_seq fun _ => Gives.bind (writeVs_store hc) fun _ h1 => gives_ok (emitFlags_store h1)

theorem vecWide_store {f : VR} {mul : Bool} : Gives (sameStore c0) (vecWide f mul cu c) :=
  gives_seq fun _ => Gives.bind (resolveV_store hc) fun ⟨_, _⟩ h1 => Gives.bind (resolveV_store h1) fun ⟨_, _⟩ h2 => finishWiden_store h2

theorem drawOut_store {f : FD} {r : Pair} {pos : Nat} {fin : Bool} {lat : Nat} {fl : List (Nat × FlagBits)} :
    sameStore c0 (drawOut f r pos fin lat fl cu c) := by
  unfold drawOut
  split
  exact emitFlags_store (emitLatch_store (emit_store (emit_store hc)))

theorem vdrawBody_store {f : FD} {t : FFmt} : Gives (sameStore c0) (vdrawBody f t cu c) := gives_seq fun _ => gives_ok (drawOut_store hc)

theorem vdrawmBody_store {f : FD} : Gives (sameStore c0) (vdrawmBody f cu c) := gives_seq fun _ => gives_ok (drawOut_store hc)

/-! ### The matrix unit -/

theorem touchTile_store {t : Nat} {mods : Bool} : Gives (sameStore c0) (touchTile cu c t mods) := gives_ite (gives_error _) (gives_ok hc)

theorem pushOperand_store {reg : BitVec 6} {fromPort : Bool} {k : Nat} : Gives (fun r => sameStore c0 r.2) (pushOperand cu c reg fromPort k) := by
  unfold pushOperand
  refine gives_ite (gives_ok hc) ?_
  refine gives_ite (gives_error _) ?_
  split
  · exact gives_error _
  · refine gives_ite (gives_error _) ?_
    split
    · exact gives_error _
    · split
      · exact gives_error _
      · exact gives_ok hc

theorem mpushBody_store {f : XP} : Gives (sameStore c0) (mpushBody f cu c) :=
  Gives.bind (pushOperand_store hc) fun ⟨_, _⟩ h1 => Gives.bind (pushOperand_store h1) fun ⟨_, _⟩ h2 => gives_ok h2

theorem mscaleBody_store {f : XS} {sideB : Bool} : Gives (sameStore c0) (mscaleBody f sideB cu c) := gives_seq fun _ => gives_ok hc

theorem mshiftBody_store {f : XT} : Gives (sameStore c0) (mshiftBody f cu c) := gives_seq fun _ => gives_ok hc

theorem maccBody_store {f : XT} {limit : Nat} : Gives (sameStore c0) (maccBody f limit cu c) := by
  refine gives_seq fun _ => gives_ite (gives_error _) (Gives.bind (touchTile_store hc) fun c1 h1 => gives_ok ?_)
  dsimp only [id]
  split <;> exact h1

theorem mzeroBody_store {f : XT} : Gives (sameStore c0) (mzeroBody f cu c) := gives_seq fun _ => gives_ite (gives_error _) (gives_ok hc)

theorem mcfgBody_store {f : XS} : Gives (sameStore c0) (mcfgBody f cu c) := gives_seq fun _ => gives_ok hc

theorem mdrainBody_store {f : XT} : Gives (sameStore c0) (mdrainBody f cu c) :=
  gives_seq fun _ =>
  Gives.bind (touchTile_store hc) fun _ h1 =>
  gives_ite (gives_seq fun _ => Gives.bind (logSpad_store h1) fun _ h2 => gives_ok (emitFlags_store (emit_store h2)))
    (gives_ok (emitFlags_store (emit_store (emit_store h1))))

theorem ardBody_store {f : VA} : Gives (sameStore c0) (ardBody f cu c) :=
  gives_seq fun _ => Gives.bind (touchTile_store hc) fun _ h1 => writeVs_store h1

theorem rowWrite_store {f : VA} {op : RowOp} : Gives (sameStore c0) (rowWrite f op cu c) :=
  gives_seq fun _ => Gives.bind (touchTile_store hc) fun _ h1 => gives_ok h1

/-! ### Loads and stores -/

theorem issueReads_store {dest : LandDest} {ws : BitVec 1} {reads : List (EA × Nat × Nat)} {acq : Bool} {known : VWord × BitVec 512} :
    Gives (sameStore c0) (issueReads s cu c dest ws reads acq known) := Gives.bind (takeBob_store hc) fun ⟨_, _⟩ h1 => gives_ok h1

theorem bufferStore_store {kind : StoreKind} {parts : List (Nat × Nat × Nat)} : Gives (sameStore c0) (bufferStore cu c kind parts) :=
  gives_seq fun _ => gives_ok hc

theorem loadMA_store {f : MA} {bytes al : Nat} {dest : Nat → LandDest} : Gives (sameStore c0) (loadMA f bytes al dest s cu c) :=
  gives_seq fun _ => gives_seq fun _ => issueReads_store hc

theorem storeAt_store {ea : EA} {bytes val : Nat} {rel : Option Nat} : Gives (sameStore c0) (storeAt ea bytes val rel cu c) := by
  unfold storeAt
  split
  · exact Gives.bind (logSpad_store hc) fun c1 h1 => gives_ok (emit_store (by split <;> exact h1))
  · exact bufferStore_store hc

theorem storeMA_store {f : MA} {bytes al : Nat} {vec : Bool} : Gives (sameStore c0) (storeMA f bytes al vec cu c) :=
  gives_seq fun _ =>
  gives_seq fun _ =>
  gives_ite (Gives.bind (resolveV_store hc) fun ⟨_, _⟩ h1 => gives_let (storeAt_store h1))
    (Gives.bind (resolveS_store hc) fun ⟨_, _⟩ h2 => gives_let (storeAt_store h2))

theorem ldacqBody_store {f : MA} : Gives (sameStore c0) (ldacqBody f s cu c) :=
  gives_seq fun _ => gives_seq fun _ => gives_seq fun _ => issueReads_store hc

theorem strelBody_store {f : MX} : Gives (sameStore c0) (strelBody f cu c) :=
  gives_seq fun _ => gives_seq fun _ => Gives.bind (resolveS_store hc) fun ⟨_, _⟩ h1 => storeAt_store h1

theorem vldxBody_store {f : MX} : Gives (sameStore c0) (vldxBody f s cu c) :=
  gives_seq fun _ => gives_seq fun _ => gives_seq fun _ => issueReads_store hc

theorem vstxBody_store {f : MX} : Gives (sameStore c0) (vstxBody f cu c) :=
  gives_seq fun _ => gives_seq fun _ => Gives.bind (resolveV_store hc) fun ⟨_, _⟩ h1 => storeAt_store h1

theorem gatherBody_store {f : MX} : Gives (sameStore c0) (gatherBody f s cu c) :=
  gives_seq fun _ => gives_seq fun _ => gives_seq fun _ => issueReads_store hc

theorem scatterBody_store {f : MX} : Gives (sameStore c0) (scatterBody f cu c) := by
  unfold scatterBody
  refine gives_seq fun _ => gives_seq fun _ => Gives.bind (resolveV_store hc) fun ⟨_, c1⟩ h1 => ?_
  refine Gives.bind (gives_foldlM (fun _ _ h => logSpad_store h) h1 _) fun c2 h2 => ?_
  have h3 : ∀ sp, sameStore c0 (if sp = [] then c2 else emit cu 1 (.spad sp) c2) := fun _ => ite_store h2 h2
  exact gives_ite (gives_ok (h3 _)) (bufferStore_store (h3 _))

theorem dldBody_store {f : MX} : Gives (sameStore c0) (dldBody f s cu c) :=
  gives_seq fun _ => gives_seq fun _ => gives_ite (gives_error _) (issueReads_store hc)

theorem devictBody_store {f : MX} : Gives (sameStore c0) (devictBody f cu c) := gives_seq fun _ => gives_seq fun _ => gives_ok hc

theorem dgetBody_store {f : MX} : Gives (sameStore c0) (dgetBody f cu c) := gives_seq fun _ => gives_seq fun _ => gives_seq fun _ => writeS_store hc

theorem relayBody_store {f : MX} : Gives (sameStore c0) (relayBody f cu c) := gives_seq fun _ => gives_seq fun _ => gives_seq fun _ => gives_ok hc

theorem reshardBody_store {f : MX} : Gives (sameStore c0) (reshardBody f s cu c) :=
  gives_seq fun _ =>
  gives_seq fun _ =>
  Gives.bind (resolveS_store hc) fun ⟨_, _⟩ h1 =>
  gives_seq fun _ => gives_ite (gives_error _) (issueReads_store h1)

theorem tldBody_store {f : MX} : Gives (sameStore c0) (tldBody f s cu c) :=
  gives_seq fun _ =>
  gives_seq fun _ =>
  gives_seq fun _ =>
  gives_seq fun _ =>
  gives_ite (gives_error _) (Gives.bind (takeBob_store hc) fun ⟨_, _⟩ h1 => gives_ok h1)

theorem tstBody_store {f : MX} : Gives (sameStore c0) (tstBody f s cu c) :=
  gives_seq fun _ => gives_seq fun _ => gives_seq fun _ => Gives.bind (resolveV_store hc) fun ⟨_, _⟩ h1 => bufferStore_store h1

/-! ### Streams, channels, Shuttle and Vent -/

theorem sbindBody_store {f : MX} : Gives (sameStore c0) (sbindBody f cu c) :=
  gives_seq fun _ => Gives.bind (resolveV_store hc) fun ⟨_, _⟩ h1 => gives_seq fun _ => gives_ite (gives_error _) (gives_ok h1)

theorem sunbindBody_store {f : MX} : Gives (sameStore c0) (sunbindBody f cu c) := gives_seq fun _ => gives_ok hc

theorem sposBody_store {f : MX} : Gives (sameStore c0) (sposBody f cu c) := by
  unfold sposBody
  refine gives_seq fun _ => ?_
  refine gives_seq fun _ => ?_
  split
  · exact gives_error _
  · exact writeS_store hc

theorem sfillBody_store {f : MX} : Gives (sameStore c0) (sfillBody f cu c) := by
  unfold sfillBody
  refine gives_seq fun _ => ?_
  refine Gives.bind (resolveS_store hc) fun ⟨_, c1⟩ h1 => ?_
  dsimp only
  split
  · exact gives_error _
  · exact gives_ok h1

theorem tfcfgBody_store {f : MX} : Gives (sameStore c0) (tfcfgBody f cu c) :=
  gives_seq fun _ =>
  gives_ite (gives_seq fun _ => gives_ok hc)
    (Gives.bind (resolveV_store hc) fun ⟨_, _⟩ h1 =>
     gives_seq fun _ => gives_ite (gives_error _) (gives_ok h1))

theorem cbindBody_store {f : MX} : Gives (sameStore c0) (cbindBody f cu c) :=
  gives_seq fun _ => Gives.bind (resolveS_store hc) fun ⟨_, _⟩ h1 => gives_seq fun _ => gives_ok h1

theorem cunbindBody_store {f : MX} : Gives (sameStore c0) (cunbindBody f cu c) := gives_seq fun _ => gives_ok hc

theorem postCmd_store {ch : Nat} {kind : ShKind} {img : BitVec 2432} {t q : Word} {bob : Nat} {fl : FlagBits} :
    Gives (fun r => sameStore c0 r.2) (postCmd cu c ch kind img t q bob fl) := gives_ite (gives_error _) (gives_ok hc)

theorem copyBody_store {f : MX} {fill : Bool} : Gives (sameStore c0) (copyBody f fill cu c) :=
  gives_seq fun _ => gives_seq fun _ => gives_seq fun _ => Gives.bind (postCmd_store hc) fun ⟨_, _⟩ h1 => writeS_store h1

theorem accBody_store {f : MX} : Gives (sameStore c0) (accBody f cu c) := by
  unfold accBody
  refine gives_seq fun _ => ?_
  refine gives_seq fun _ => ?_
  split
  exact Gives.bind (postCmd_store hc) fun ⟨_, c1⟩ h1 => gives_ok h1

theorem accrBody_store {f : MX} : Gives (sameStore c0) (accrBody f cu c) := by
  unfold accrBody
  refine gives_seq fun _ => ?_
  refine gives_seq fun _ => ?_
  refine gives_seq fun _ => ?_
  split
  exact Gives.bind (takeBob_store hc) fun ⟨_, c1⟩ h1 => Gives.bind (postCmd_store h1) fun ⟨_, c2⟩ h2 => gives_ok h2

theorem sigwBody_store {f : MX} : Gives (sameStore c0) (sigwBody f cu c) :=
  gives_seq fun _ => gives_seq fun _ => gives_seq fun _ => Gives.bind (postCmd_store hc) fun ⟨_, _⟩ h1 => gives_ok h1

theorem volatile_store {v : Word} : sameStore c0 (volatile c v).2 := by
  unfold volatile
  split
  · split
    · split
      · exact hc
      · exact hc
    · exact hc
  · exact hc

theorem chdoneBody_store {f : MX} : Gives (sameStore c0) (chdoneBody f cu c) := gives_seq fun _ => gives_seq fun _ => writeS_store (volatile_store hc)

theorem ventsetBody_store {f : MX} : Gives (sameStore c0) (ventsetBody f s cu c) := gives_seq fun _ => gives_seq fun _ => gives_ok hc

theorem ventrdyBody_store {f : MX} : Gives (sameStore c0) (ventrdyBody f cu c) := gives_seq fun _ => gives_seq fun _ => gives_ok hc

theorem ventgrpBody_store {f : MX} : Gives (sameStore c0) (ventgrpBody f cu c) := gives_seq fun _ => gives_seq fun _ => gives_seq fun _ => gives_ok hc

theorem collmodeBody_store {f : MX} : Gives (sameStore c0) (collmodeBody f cu c) := gives_seq fun _ => gives_seq fun _ => gives_ok hc

theorem fenceBody_store {f : MX} : Gives (sameStore c0) (fenceBody f cu c) := gives_seq fun _ => gives_ok hc

theorem fencexBody_store {f : MX} : Gives (sameStore c0) (fencexBody f cu c) := gives_seq fun _ => gives_ok hc

theorem flushBody_store {f : MX} : Gives (sameStore c0) (flushBody f cu c) := gives_seq fun _ => gives_ok hc

/-! ### CSRs -/

theorem csrWrite_store {n : Nat} {x : Word} : sameStore c0 (csrWrite cu n x c) := ite_store hc (ite_store hc (ite_store hc hc))

theorem csrOld_store {f : SI} : Gives (fun r => sameStore c0 r.2.2) (csrOld f s cu c) := by
  unfold csrOld
  refine gives_ite (gives_error _) ?_
  split
  · exact gives_error _
  · exact gives_ite (gives_ok (volatile_store hc)) (gives_ok hc)

theorem csrrBody_store {f : SI} : Gives (sameStore c0) (csrrBody f s cu c) :=
  gives_seq fun _ => Gives.bind (csrOld_store hc) fun ⟨_, _, _⟩ h1 => writeS_store h1

theorem csrUpdate_store {f : SI} {rwOnly : Bool} {new : Word → Word → Word} : Gives (sameStore c0) (csrUpdate f s rwOnly new cu c) :=
  Gives.bind (csrOld_store hc) fun ⟨_, _, _⟩ h1 =>
  gives_seq fun _ =>
  Gives.bind (resolveS_store h1) fun ⟨_, _⟩ h2 =>
  gives_seq fun _ => writeS_store (csrWrite_store h2)

/-! ### Scalar floating point -/

theorem finishF_store {f : SR} {r : Nat × FlagBits} : Gives (sameStore c0) (finishF f r cu c) :=
  Gives.bind (writeS_store hc) fun _ h1 => gives_ok (emitFlags_store h1)

theorem scalarF2_store {f : SR} {op : FFmt → Nat → Nat → Nat × FlagBits} : Gives (sameStore c0) (scalarF2 f op cu c) :=
  gives_seq fun _ => Gives.bind (resolveS_store hc) fun ⟨_, _⟩ h1 => Gives.bind (resolveS_store h1) fun ⟨_, _⟩ h2 => finishF_store h2

theorem scalarF1_store {f : SR} {op : FFmt → Nat → Nat × FlagBits} : Gives (sameStore c0) (scalarF1 f op cu c) :=
  gives_seq fun _ => Gives.bind (resolveS_store hc) fun ⟨_, _⟩ h1 => finishF_store h1

theorem scalarFcvt_store {f : SR} : Gives (sameStore c0) (scalarFcvt f cu c) := by
  unfold scalarFcvt
  refine gives_seq fun _ => ?_
  split
  exact Gives.bind (resolveS_store hc) fun ⟨_, c1⟩ h1 => finishF_store h1

theorem scalarFcvti_store {f : SR} : Gives (sameStore c0) (scalarFcvti f cu c) :=
  gives_seq fun _ => Gives.bind (resolveS_store hc) fun ⟨_, _⟩ h1 => finishF_store h1

theorem scalarIcvtf_store {f : SR} : Gives (sameStore c0) (scalarIcvtf f cu c) := by
  unfold scalarIcvtf
  refine gives_seq fun _ => ?_
  split
  exact Gives.bind (resolveS_store hc) fun ⟨_, c1⟩ h1 => finishF_store h1

theorem scalarFclass_store {f : SR} : Gives (sameStore c0) (scalarFclass f cu c) :=
  gives_seq fun _ => Gives.bind (resolveS_store hc) fun ⟨_, _⟩ h1 => writeS_store h1

theorem scalarFcmp_store {f : SR} : Gives (sameStore c0) (scalarFcmp f cu c) :=
  gives_seq fun _ =>
  Gives.bind (resolveS_store hc) fun ⟨_, _⟩ h1 =>
  Gives.bind (resolveS_store h1) fun ⟨_, _⟩ h2 => gives_ok (emitFlags_store (writeG_store h2))

/-! ### Permutations -/

theorem vecPerm_store {f : VR} {fnMax : Nat} {unary : Bool} {g : Nat → VWord → VWord → Nat → Nat} :
    Gives (sameStore c0) (vecPerm f fnMax unary g cu c) :=
  gives_seq fun _ =>
  Gives.bind (resolveV_store hc) fun ⟨_, _⟩ h1 =>
  gives_ite (gives_let (writeV_store h1))
    (Gives.bind (resolveV_store h1) fun ⟨_, _⟩ h2 => writeV_store h2)

theorem vecInsExt_store {f : VR} {g : Nat → VWord → VWord → Nat → Nat} : Gives (sameStore c0) (vecInsExt f g cu c) :=
  gives_seq fun _ => Gives.bind (resolveV_store hc) fun ⟨_, _⟩ h1 => Gives.bind (resolveV_store h1) fun ⟨_, _⟩ h2 => writeV_store h2

theorem vecPack_store {f : VR} {g : Nat → (Nat → Bool) → VWord → VWord} : Gives (sameStore c0) (vecPack f g cu c) :=
  gives_seq fun _ => Gives.bind (resolveV_store hc) fun ⟨_, _⟩ h1 => writeV_store h1

theorem vecPermG_store {f : VT} : Gives (sameStore c0) (vecPermG f cu c) :=
  gives_seq fun _ =>
  Gives.bind (resolveV_store hc) fun ⟨_, _⟩ h1 =>
  Gives.bind (resolveV_store h1) fun ⟨_, _⟩ h2 =>
  Gives.bind (resolveV_store h2) fun ⟨_, _⟩ h3 => writeV_store h3

end

end Sys2Proof.Machine
end

