-- ==== Sys2Proof/Proofs/ReadFrame.lean ====
section
/-! SUPPORT. What reading bytes at a virtual address leaves unchanged: every core, queue, launch and access, the clock and the module registers. It
may evict and reseal lines, keep a translation, and write the record of a race into its context's fault ring (R69, R186, R249, R251). -/
namespace Sys2Proof.Machine
open Sys2Proof.Claims

/-- Cores, queues, launches, clock, module registers, accesses and cursor of the two states agree. -/
def ReadFrame (s t : State) : Prop :=
  t.cores = s.cores ∧ t.queues = s.queues ∧ t.launches = s.launches ∧ t.gtc = s.gtc ∧ t.mod = s.mod ∧ t.xacts = s.xacts ∧
  t.cur = s.cur

theorem readFrame_refl (s : State) : ReadFrame s s := ⟨rfl, rfl, rfl, rfl, rfl, rfl, rfl⟩

theorem ReadFrame.trans {s t u : State} (h : ReadFrame s t) (h' : ReadFrame t u) : ReadFrame s u := by
  obtain ⟨h1, h2, h3, h4, h5, h6, h7⟩ := h
  obtain ⟨h1', h2', h3', h4', h5', h6', h7'⟩ := h'
  exact ⟨h1'.trans h1, h2'.trans h2, h3'.trans h3, h4'.trans h4, h5'.trans h5, h6'.trans h6, h7'.trans h7⟩

/-- A change of none of these fields. -/
theorem ReadFrame.update {s t u : State} (h : ReadFrame s t)
    (e : (u.cores, u.queues, u.launches, u.gtc, u.mod, u.xacts, u.cur) = (t.cores, t.queues, t.launches, t.gtc, t.mod, t.xacts, t.cur)) :
    ReadFrame s u := by
  simp only [Prod.mk.injEq] at e
  exact h.trans e

theorem ReadFrame.ite {s t u : State} {p : Prop} [Decidable p] (ht : ReadFrame s t) (hu : ReadFrame s u) : ReadFrame s (if p then t else u) := by
  split
  · exact ht
  · exact hu

theorem CachesOnly.readFrame {s t : State} (h : CachesOnly s t) : ReadFrame s t := by
  obtain ⟨⟨_, _, _, _, rfl⟩, -⟩ := h
  exact readFrame_refl s

/-! ### Bytes of a line -/

section
variable {r s : State} (h : ReadFrame r s)
include h

theorem touchL2_readFrame (d dom loc pa : Nat) (wr nocomp : Bool) (page : Option (Nat × Nat)) :
    ReadFrame r (touchL2 s d dom loc pa wr nocomp page) :=
  h.trans (touchL2_cachesOnly s d dom loc pa wr nocomp page).readFrame

theorem tlbFill_readFrame (t ctx va lvl : Nat) (e : Word) : ReadFrame r (tlbFill s t ctx va lvl e) :=
  h.trans (tlbFill_cachesOnly s t ctx va lvl e).readFrame

theorem checkAbsent_readFrame (loc die pa n : Nat) : ReadFrame r (checkAbsent s loc die pa n) := by
  obtain ⟨a, e⟩ := checkAbsent_fields s loc die pa n
  rw [e]
  exact h

theorem reseal_readFrame (line : Nat) (sl : Seal) : ReadFrame r (reseal s line sl) := by
  obtain ⟨⟨m, f, e⟩, -⟩ := reseal_frame s line sl
  rw [e]
  exact h

theorem mendLocs_readFrame (d loc pa n : Nat) : ReadFrame r (mendLocs s d loc pa n) := ReadFrame.ite h (h.update rfl)

theorem rocNote_readFrame (die a n v : Nat) : ReadFrame r (rocNote s die a n v) := by
  unfold rocNote
  extract_lets w e o new l
  exact ReadFrame.ite h (ReadFrame.ite h (h.update rfl))

theorem setHbm_readFrame (die a n v : Nat) : ReadFrame r (setHbm s die a n v) := by
  unfold setHbm
  split
  · extract_lets s1
    have h1 : ReadFrame r s1 := mendLocs_readFrame (ReadFrame.ite (rocNote_readFrame h _ _ _ _) h) _ _ _ _
    have h2 : ReadFrame r (checkAbsent s1 0 die a n) := checkAbsent_readFrame h1 _ _ _ _
    refine touchL2_readFrame (h2.update ?_) _ _ _ _ _ _ _
    rfl
  · exact h

/-! ### The record of a race (R69, R251) -/

theorem putRecord_readFrame (d a : Nat) (rec : BitVec 512) (n i : Nat) : ReadFrame r (putRecord s d a rec n i) := by
  induction n generalizing s i with
  | zero => exact setHbm_readFrame h _ _ _ _
  | succ n ih =>
    rw [putRecord]
    exact ReadFrame.ite (ih (setHbm_readFrame h _ _ _ _) _) (setHbm_readFrame h _ _ _ _)

theorem writeFault_readFrame (ctx port : Nat) (rec : BitVec 512) : ReadFrame r (writeFault s ctx port rec) := by
  unfold writeFault
  extract_lets w5 fhead lost n lvl va s1 p s2 s3 s4
  have h1 : ReadFrame r s1 := ReadFrame.ite (ReadFrame.ite h (h.update rfl)) h
  have h2 : ReadFrame r s2 := putRecord_readFrame h1 _ _ _ _ _
  have h3 : ReadFrame r s3 := setHbm_readFrame h2 _ _ _ _
  have h4 : ReadFrame r s4 := ReadFrame.ite (setHbm_readFrame h1 _ _ _ _) (h3.update rfl)
  exact ReadFrame.ite h4 (h4.update rfl)

theorem sinter_readFrame (mkind mid die ctx va : Nat) (ph : Phys) (sc : Nat) (wh : Word) : ReadFrame r (sinter s mkind mid die ctx va ph sc wh) := by
  unfold sinter
  refine ReadFrame.ite h ?_
  extract_lets _ _ _ _ _ _ _ _ _ _ _ s1 s2 _
  have h1 : ReadFrame r s1 := writeFault_readFrame h _ _ _
  have h2 : ReadFrame r s2 := ReadFrame.ite (ReadFrame.ite (h1.update rfl) h1) h
  exact ReadFrame.ite h2 (h2.update rfl)

theorem sinterBy_readFrame (m : MasterT) (ctx va : Nat) (ph : Phys) (sc : Nat) : ReadFrame r (sinterBy s m ctx va ph sc) := by
  unfold sinterBy
  split
  · exact sinter_readFrame h _ _ _ _ _ _ _ _
  · exact h

/-! ### A read at its home (R186, R190) -/

theorem homeTake_readFrame (ctx va n : Nat) (ph : Phys) : ReadFrame r (homeTake s ctx va n ph).2 := by
  unfold homeTake
  split
  · exact h.update rfl
  · exact h

theorem homeUse_readFrame (ctx va : Nat) (ph : Phys) : ReadFrame r (homeUse s ctx va ph) := by
  unfold homeUse
  split
  · exact touchL2_readFrame (ReadFrame.ite (reseal_readFrame h _ _) h) _ _ _ _ _ _ _
  · exact h

theorem wsDue_readFrame (d who t0 pa : Nat) : ReadFrame r (wsDue s d who t0 pa).2 := by
  unfold wsDue
  dsimp only
  split
  · exact h
  · exact h.update rfl

theorem wsUnit_readFrame (who : Nat) (ph : Phys) : ReadFrame r (wsUnit s who ph) := by
  unfold wsUnit
  refine ReadFrame.ite ?_ h
  split
  · exact wsDue_readFrame h _ _ _ _
  · exact h

theorem vaRead_readFrame (t ctx va n : Nat) (m : MasterT) : Gives (fun x => ReadFrame r x.2) (vaRead s t ctx va n m) := by
  refine gives_foldlM (P := fun b : Nat × State => ReadFrame r b.2) (fun acc p h1 => ?_) h _
  split
  · exact gives_error _
  · rename_i ph l e _
    have h2 := checkAbsent_readFrame (tlbFill_readFrame h1 t ctx p.1 l e) ph.loc ph.die (ph.pa % 2 ^ 52) p.2.1
    exact gives_ok (sinterBy_readFrame (wsUnit_readFrame (homeUse_readFrame (homeTake_readFrame h2 _ _ _ _) _ _ _) _ _) _ _ _ _ _)

end

end Sys2Proof.Machine
end

