-- ==== Sys2Proof/Proofs/IssueFrame.lean ====
section
/-! LAW. At its issue no lane operation changes memory, another core, a queue, a register, a latch, the scratchpad, a tile or the staging
(R135, R136, R158, R159, R317). -/
namespace Sys2Proof.Machine
open Sys2Proof.Claims

theorem sameStore_refl (c : Core) : sameStore c c := ⟨rfl, rfl, rfl, rfl, rfl, rfl, rfl, rfl, rfl, rfl, rfl, rfl, rfl, rfl, rfl⟩

/-! ### What an issue leaves unchanged -/

/-- The part of the frame that slotld has too: all but memory, where its image read may write a race record. -/
def IssueFramed (s t : State) : Prop :=
  (t.queues = s.queues ∧ t.launches = s.launches ∧ t.gtc = s.gtc ∧ t.mod = s.mod ∧ t.xacts = s.xacts ∧ othersSame s t) ∧
  (isRun (here s) = true → isRun (here t) = true → sameStore (here s) (here t))

/-- The next state has the same memory and the frame of an issue. -/
def IssueKeeps (s : State) (o : Result) : Prop := ∀ t, o = .next t → (t.mem = s.mem ∧ t.seals = s.seals) ∧ IssueFramed s t

theorem issueFramed_refl (s : State) : IssueFramed s s := ⟨⟨rfl, rfl, rfl, rfl, rfl, fun _ _ => rfl⟩, fun _ _ => sameStore_refl _⟩

/-- Only the issuing core changes, and it keeps its store if it still runs. -/
theorem issueFramed_setCore {s : State} {c : Core} (hc : isRun c = true → sameStore (here s) c) : IssueFramed s (s.setCore s.cur.core c) := by
  refine ⟨⟨rfl, rfl, rfl, rfl, rfl, fun i hi => State.core_setCore_ne s _ i c hi⟩, fun _ hrun => ?_⟩
  have hhere : here (s.setCore s.cur.core c) = c := State.core_setCore_same s _ c
  rw [hhere] at hrun ⊢
  exact hc hrun

theorem IssueFramed.readFrame {s t u : State} (h : IssueFramed s t) (hu : ReadFrame t u) : IssueFramed s u := by
  obtain ⟨⟨hqueues, hlaunches, hgtc, hmod, hxacts, hothers⟩, hstore⟩ := h
  obtain ⟨hcores', hqueues', hlaunches', hgtc', hmod', hxacts', hcur'⟩ := hu
  have hcore : u.core = t.core := funext fun i => congrArg (fun l => FMap.get Core.init l i) hcores'
  have hhere : here u = here t := by rw [here, here, hcore, hcur']
  refine ⟨⟨hqueues'.trans hqueues, hlaunches'.trans hlaunches, hgtc'.trans hgtc, hmod'.trans hmod, hxacts'.trans hxacts, ?_⟩, ?_⟩
  · rwa [othersSame, hcore]
  · rwa [hhere]

/-- A trap takes the core out of the run mode (R162). -/
theorem takeTrap_not_isRun (cu : Cursor) (t : Trap) (c : Core) : ¬ isRun (takeTrap cu t c) = true := Bool.false_ne_true

section
variable {s : State} {pr : BitVec 6}

/-- The gate keeps what its body keeps: a trap leaves the run mode, a stall changes nothing else. -/
theorem laneStepS_next_of {P : State → Prop} {body : Cursor → Core → LM State} (hb : Gives P (body s.cur (here s))) (hs : P s)
    (hcore : ∀ c, (isRun c = true → sameStore (here s) c) → P (s.setCore s.cur.core c)) {t : State} (ht : laneStepS s pr body = .next t) : P t := by
  have htrap : ∀ x, P (s.setCore s.cur.core (takeTrap s.cur x (here s))) := fun x =>
    hcore _ fun h => absurd h (takeTrap_not_isRun _ _ _)
  unfold laneStepS at ht
  dsimp only at ht
  split at ht
  · cases ht
    exact htrap _
  · cases ht
    exact hs
  · split at ht
    · rename_i t' e
      cases ht
      exact hb _ e
    · cases ht
      exact htrap _
    · cases ht
      exact hcore _ fun _ => sameStore_refl _

theorem laneStep_issueKeeps {body : Cursor → Core → LM Core} (hb : Gives (sameStore (here s)) (body s.cur (here s))) :
    IssueKeeps s (laneStep s pr body) := by
  intro t ht
  have hcore : ∀ c, (isRun c = true → sameStore (here s) c) →
      ((s.setCore s.cur.core c).mem = s.mem ∧ (s.setCore s.cur.core c).seals = s.seals) ∧ IssueFramed s (s.setCore s.cur.core c) :=
    fun c hc => ⟨⟨rfl, rfl⟩, issueFramed_setCore hc⟩
  rw [laneStep_eq_laneStepS] at ht
  exact laneStepS_next_of (P := fun t => (t.mem = s.mem ∧ t.seals = s.seals) ∧ IssueFramed s t) (gives_map fun c e => hcore c fun _ => hb c e)
    ⟨⟨rfl, rfl⟩, issueFramed_refl s⟩ hcore ht

end

/-! ### slotld (R317) -/

theorem slotldBody_framed (f : SC) (s : State) : Gives (IssueFramed s) (slotldBody f s s.cur (here s)) := by
  unfold slotldBody
  refine gives_seq fun _ =>
    Gives.bind (resolveS_store (sameStore_refl (here s))) fun ⟨_, _⟩ h1 =>
    Gives.bind (resolveS_store h1) fun ⟨_, c2⟩ h2 =>
    gives_seq fun _ => gives_ite (gives_error _) (gives_ite (gives_error _) ?_)
  split
  · exact gives_error _
  · rename_i s1 hread
    have hs1 : ReadFrame s s1 := vaRead_readFrame (readFrame_refl s) _ _ _ _ _ _ hread
    obtain ⟨hcores, hrest⟩ := hs1
    exact gives_ok ((issueFramed_setCore (c := addWait _ c2) fun _ => h2).readFrame ⟨congrArg (fun l => FMap.put l s.cur.core _) hcores, hrest⟩)

theorem execSlotld_framed {s t : State} {f : SC} (ht : exec (.slotld f) s = .next t) : IssueFramed s t :=
  laneStepS_next_of (slotldBody_framed f s) (issueFramed_refl s) (fun _ hc => issueFramed_setCore hc) ht

/-! ### Every other lane operation -/

/-- An instruction with a lane's word, other than slotld, changes its core's issue state alone. -/
theorem exec_issueKeeps (s : State) {i : Instr} (hlane : hasLaneWord i = true) (hs : ∀ f, i ≠ .slotld f) : IssueKeeps s (exec i s) := by
  have hc := sameStore_refl (here s)
  cases i with
  | add | sub | and | or | xor | andn | shl | shr | sra | rotl | min | max | minu | maxu | mul | mulh | mulhu | div | divu | rem | remu =>
    exact laneStep_issueKeeps (scalar2_store hc)
  | mov | clz | ctz | popc | abs | neg | bswap => exact laneStep_issueKeeps (scalar1_store hc)
  | sext | zext => exact laneStep_issueKeeps (scalarExt_store hc)
  | sel => exact laneStep_issueKeeps (scalarSel_store hc)
  | addi | subi | andi | ori | xori | andni | shli | shri | srai | rotli | mini | maxi | minui | maxui =>
    exact laneStep_issueKeeps (scalarI_store hc)
  | li => exact laneStep_issueKeeps (scalarLi_store hc)
  | lis => exact laneStep_issueKeeps (scalarLis_store hc)
  | cmp | cmpu => exact laneStep_issueKeeps (scalarCmp_store hc)
  | cmpi => exact laneStep_issueKeeps (scalarCmpi_store hc)
  | fcmp => exact laneStep_issueKeeps (scalarFcmp_store hc)
  | fadd | fsub | fmul | fdiv | fmin | fmax => exact laneStep_issueKeeps (scalarF2_store hc)
  | fsqrt | fabs | fneg => exact laneStep_issueKeeps (scalarF1_store hc)
  | fcvt => exact laneStep_issueKeeps (scalarFcvt_store hc)
  | fcvti => exact laneStep_issueKeeps (scalarFcvti_store hc)
  | icvtf => exact laneStep_issueKeeps (scalarIcvtf_store hc)
  | fclass => exact laneStep_issueKeeps (scalarFclass_store hc)
  | gand | gor | gxor | gandn => exact laneStep_issueKeeps (gLogic_store hc)
  | gset => exact laneStep_issueKeeps (gSet_store hc)
  | csrr => exact laneStep_issueKeeps (csrrBody_store hc)
  | csrw | csrs | csrc => exact laneStep_issueKeeps (csrUpdate_store hc)
  | br => exact laneStep_issueKeeps (brBody_store hc)
  | call => exact laneStep_issueKeeps (callBody_store hc)
  | ret => exact laneStep_issueKeeps (retBody_store hc)
  | loop | rloop => exact laneStep_issueKeeps (loopBody_store hc)
  | lbreak => exact laneStep_issueKeeps (lbreakBody_store hc)
  | spawn => exact laneStep_issueKeeps (spawnBody_store hc)
  | join => exact laneStep_issueKeeps (joinBody_store hc)
  | exit => exact laneStep_issueKeeps (exitBody_store hc)
  | exitab => exact laneStep_issueKeeps (exitabBody_store hc)
  | trap => exact laneStep_issueKeeps (trapBody_store hc)
  | uiret => exact laneStep_issueKeeps (uiretBody_store hc)
  | slotld => exact absurd rfl (hs _)
  | vAdd | vSub | vAnd | vOr | vXor | vAndn | vShl | vShr | vSra | vMin | vMax | vMinu | vMaxu | vMul | vMulh | vAdds | vSubs | vAddsu | vSubsu =>
    exact laneStep_issueKeeps (vecInt2_store hc)
  | vAbs | vNeg | vClz | vPopc => exact laneStep_issueKeeps (vecInt1_store hc)
  | vMov | vBcast => exact laneStep_issueKeeps (vecMove_store hc)
  | vSel => exact laneStep_issueKeeps (vecSel_store hc)
  | vAddi | vSubi | vAndi | vOri | vXori | vAndni | vShli | vShri | vSrai | vMini | vMaxi | vMulli =>
    exact laneStep_issueKeeps (vecIntI_store hc)
  | vAddF | vSubF | vMulF | vMinF | vMaxF => exact laneStep_issueKeeps (vecF2_store hc)
  | vAbsF | vNegF => exact laneStep_issueKeeps (vecF1_store hc)
  | vFmaF32 | vFmaF16 | vFmaBf16 | vFmsF32 | vFmsF16 | vFmsBf16 => exact laneStep_issueKeeps (vecFma_store hc)
  | vCmp | vCmpu | vCmpi => exact laneStep_issueKeeps (vecCmp_store hc)
  | vFcmp => exact laneStep_issueKeeps (vecFcmp_store hc)
  | pand | por | pxor | pandn => exact laneStep_issueKeeps (pLogic_store hc)
  | pset => exact laneStep_issueKeeps (pSet_store hc)
  | pfirst => exact laneStep_issueKeeps (pFirst_store hc)
  | pcount => exact laneStep_issueKeeps (pCount_store hc)
  | cvt => exact laneStep_issueKeeps (vecCvt_store hc)
  | widen => exact laneStep_issueKeeps (vecWiden_store hc)
  | narrow => exact laneStep_issueKeeps (vecNarrow_store hc)
  | vq8 => exact laneStep_issueKeeps (vecVq8_store hc)
  | vdq8 => exact laneStep_issueKeeps (vecVdq8_store hc)
  | mxq => exact laneStep_issueKeeps (vecMxq_store hc)
  | wadd | wmul => exact laneStep_issueKeeps (vecWide_store hc)
  | perm => exact laneStep_issueKeeps (vecPermG_store hc)
  | zip | unzip | slide | vRot | splat | rev => exact laneStep_issueKeeps (vecPerm_store hc)
  | vIns | vExt => exact laneStep_issueKeeps (vecInsExt_store hc)
  | compress | expand => exact laneStep_issueKeeps (vecPack_store hc)
  | rsum | rmax | rmin | rmaxu | rminu | rand | ror | rargmax => exact laneStep_issueKeeps (vecRed_store hc)
  | ard => exact laneStep_issueKeeps (ardBody_store hc)
  | awr | aadd | amax | ascl => exact laneStep_issueKeeps (rowWrite_store hc)
  | vrsqs | vrcps | vexp2 | vlog2 | vtanh | vsigm | vsqrt => exact laneStep_issueKeeps (sfu1_store hc)
  | vlse => exact laneStep_issueKeeps (vlseBody_store hc)
  | vdrawF32 | vdrawF16 | vdrawBf16 => exact laneStep_issueKeeps (vdrawBody_store hc)
  | vdrawm => exact laneStep_issueKeeps (vdrawmBody_store hc)
  | mpush => exact laneStep_issueKeeps (mpushBody_store hc)
  | mscaleA | mscaleB => exact laneStep_issueKeeps (mscaleBody_store hc)
  | macc => exact laneStep_issueKeeps (maccBody_store hc)
  | mshift => exact laneStep_issueKeeps (mshiftBody_store hc)
  | mdrain => exact laneStep_issueKeeps (mdrainBody_store hc)
  | mzero => exact laneStep_issueKeeps (mzeroBody_store hc)
  | mcfg => exact laneStep_issueKeeps (mcfgBody_store hc)
  | ldI8 | ldI16 | ldI32 | ldI64 | ldN8 | ldN16 | ldN32 | vld | vldb => exact laneStep_issueKeeps (loadMA_store hc)
  | stB8 | stB16 | stB32 | stB64 | vst => exact laneStep_issueKeeps (storeMA_store hc)
  | ldacq => exact laneStep_issueKeeps (ldacqBody_store hc)
  | vldx => exact laneStep_issueKeeps (vldxBody_store hc)
  | vstx => exact laneStep_issueKeeps (vstxBody_store hc)
  | gather => exact laneStep_issueKeeps (gatherBody_store hc)
  | scatter => exact laneStep_issueKeeps (scatterBody_store hc)
  | tld => exact laneStep_issueKeeps (tldBody_store hc)
  | tst => exact laneStep_issueKeeps (tstBody_store hc)
  | dld => exact laneStep_issueKeeps (dldBody_store hc)
  | devict => exact laneStep_issueKeeps (devictBody_store hc)
  | relay => exact laneStep_issueKeeps (relayBody_store hc)
  | reshard => exact laneStep_issueKeeps (reshardBody_store hc)
  | dget => exact laneStep_issueKeeps (dgetBody_store hc)
  | tfcfg => exact laneStep_issueKeeps (tfcfgBody_store hc)
  | strel => exact laneStep_issueKeeps (strelBody_store hc)
  | sbind => exact laneStep_issueKeeps (sbindBody_store hc)
  | sunbind => exact laneStep_issueKeeps (sunbindBody_store hc)
  | spos => exact laneStep_issueKeeps (sposBody_store hc)
  | cbind => exact laneStep_issueKeeps (cbindBody_store hc)
  | cunbind => exact laneStep_issueKeeps (cunbindBody_store hc)
  | sfill => exact laneStep_issueKeeps (sfillBody_store hc)
  | copy | fill => exact laneStep_issueKeeps (copyBody_store hc)
  | acc => exact laneStep_issueKeeps (accBody_store hc)
  | accr => exact laneStep_issueKeeps (accrBody_store hc)
  | sigw => exact laneStep_issueKeeps (sigwBody_store hc)
  | chdone => exact laneStep_issueKeeps (chdoneBody_store hc)
  | ventset => exact laneStep_issueKeeps (ventsetBody_store hc)
  | ventrdy => exact laneStep_issueKeeps (ventrdyBody_store hc)
  | ventgrp => exact laneStep_issueKeeps (ventgrpBody_store hc)
  | fence => exact laneStep_issueKeeps (fenceBody_store hc)
  | fencex => exact laneStep_issueKeeps (fencexBody_store hc)
  | flush => exact laneStep_issueKeeps (flushBody_store hc)
  | collmode => exact laneStep_issueKeeps (collmodeBody_store hc)
  | emptySlot => exact fun t ht => by cases ht; exact ⟨⟨rfl, rfl⟩, issueFramed_refl s⟩
  | _ => exact absurd hlane Bool.false_ne_true

/-- Settles O50, by what the body of each lane operation leaves of its core, and the gate. -/
theorem issueFrame : Obligations.IssueFrame := by
  intro s
  refine everyLaneOp_imp (fun i _ hi t ht => ?_) (everyLaneOp_gated s)
  obtain ⟨hlane, -⟩ := hi
  by_cases hs : ∃ f, i = .slotld f
  · obtain ⟨f, rfl⟩ := hs
    exact ⟨fun hne => absurd rfl (hne f), execSlotld_framed ht⟩
  · obtain ⟨hmem, hframe⟩ := exec_issueKeeps s hlane (fun f h => hs ⟨f, h⟩) t ht
    exact ⟨fun _ => hmem, hframe⟩

end Sys2Proof.Machine
end

