-- ==== Sys2Proof/Proofs/CoreException.lean ====
section
/-! LAW. Taking a core exception: the kept strand is back, the scratchpad and the tiles as at the checkpoint bundle (R162, R164, R167). -/
namespace Sys2Proof.Machine
open Sys2Proof.Claims

/-! ### The scratchpad (R159, R162) -/

/-- Bytes outside every granule of the undo log are left alone. -/
theorem undoSpad_read_out (m : Memory) (log : FMap (BitVec 512)) {a : Nat} (h : ∀ p ∈ log, p.1 * 64 + 64 ≤ a ∨ a < p.1 * 64) :
    Memory.read (undoSpad m log) a = Memory.read m a := by
  induction log generalizing m with
  | nil => rfl
  | cons x t ih =>
    obtain ⟨g, v⟩ := x
    have hg := h (g, v) List.mem_cons_self
    rw [undoSpad, ih _ fun p hp => h p (List.mem_cons_of_mem _ hp), Memory.read_writeN_out _ _ _ _ _ (by omega)]

/-- The one granule of an undo log has the logged bytes again. -/
theorem undoSpad_read_granule (m : Memory) (g : Nat) (v : BitVec 512) {i : Nat} (h : i < 64) :
    Memory.read (undoSpad m [(g, v)]) (64 * g + i) = v.extractLsb' (8 * i) 8 := by
  have hbyte : v.toNat / 256 ^ i = v.toNat >>> (8 * i) := by rw [Nat.shiftRight_eq_div_pow, Nat.pow_mul]
  rw [undoSpad, undoSpad, Memory.read_writeN_in _ _ _ _ _ h, hbyte]
  rfl

/-! ### The tiles (R160, R162, R167) -/

/-- Undoing one more tile decides that tile alone: its image at the checkpoint if it was live-in, else nothing. -/
theorem undoTiles_find_cons {α : Type} (live : List Nat) (old now : FMap α) (t : Nat) (l : List Nat) (k : Nat) :
    FMap.find (undoTiles live old now (t :: l)) k =
      if k = t then (if k ∈ live then FMap.find old k else none) else FMap.find (undoTiles live old now l) k := by
  rw [undoTiles]
  by_cases hlive : t ∈ live
  · cases hold : FMap.find old t with
    | none => by_cases hk : k = t <;> simp [hlive, hold, hk, FMap.find_erase]
    | some x => by_cases hk : k = t <;> simp [hlive, hold, hk, FMap.find_put]
  · by_cases hk : k = t <;> simp [hlive, hk, FMap.find_erase]

/-- What a tile holds after a rollback: if it is listed, its image at the checkpoint or nothing; other tiles are left alone. -/
theorem undoTiles_find {α : Type} (live : List Nat) (old now : FMap α) (l : List Nat) (k : Nat) :
    FMap.find (undoTiles live old now l) k =
      if k ∈ l then (if k ∈ live then FMap.find old k else none) else FMap.find now k := by
  induction l with
  | nil => simp [undoTiles]
  | cons t l ih =>
    rw [undoTiles_find_cons, ih]
    by_cases hk : k = t <;> simp [hk]

/-- Tiles that row writes of earlier bundles, still pending at the checkpoint bundle, change: a rollback puts them back (R167). -/
def keptRows (c : Core) : List Nat := rowIds (c.keep.pend ++ c.keep.uiHeld)

/-- Of these, the ones that no operation of the segment itself modified. -/
def restoredRows (c : Core) : List Nat := (keptRows c).filter fun t => !c.arch.tMod.contains t

theorem mem_restoredRows (c : Core) (k : Nat) : k ∈ restoredRows c ↔ k ∈ keptRows c ∧ k ∉ c.arch.tMod := by
  simp [restoredRows, List.mem_filter]

theorem takeTrap_tiles (cu : Cursor) (t : Trap) (c : Core) : (takeTrap cu t c).tiles =
    undoTiles (restoredRows c ++ c.arch.tLive) c.tilesK c.tiles (restoredRows c ++ c.arch.tMod) := rfl

/-- Tile by tile what taking a core exception leaves. -/
theorem takeTrap_tile (cu : Cursor) (t : Trap) (c : Core) (k : Nat) : FMap.find (takeTrap cu t c).tiles k =
    if k ∈ c.arch.tMod then (if k ∈ c.arch.tLive then FMap.find c.tilesK k else none)
    else if k ∈ keptRows c then FMap.find c.tilesK k else FMap.find c.tiles k := by
  rw [takeTrap_tiles, undoTiles_find]
  simp only [List.mem_append, mem_restoredRows]
  by_cases hmod : k ∈ c.arch.tMod <;> by_cases hrow : k ∈ keptRows c <;> simp [hmod, hrow]

/-! ### The strand (R162, R265, R371) -/

/-- A rollback keeps the pins of the tile-fetch operands, then drops what could not be fetched: one map over the ports. -/
theorem takeTrap_arch (cu : Cursor) (t : Trap) (c : Core) : (takeTrap cu t c).arch = broughtBack c.keep c.arch :=
  congrArg (fun tf => { broughtBack c.keep c.arch with tfports := tf }) List.map_map

/-- Settles O52: byte by byte and tile by tile what a rollback puts back. -/
theorem coreException : Obligations.CoreException := by
  intro s c t
  have htile := takeTrap_tile s.cur t c
  refine ⟨⟨rfl, takeTrap_arch s.cur t c, rfl, rfl, rfl, rfl, rfl⟩, ⟨rfl, rfl, rfl, rfl, rfl, rfl⟩, fun a h => undoSpad_read_out c.spad c.spadLog h,
    fun g v hlog i hi => ?_, fun k hmod hlive => ⟨?_, fun j hj hrow => ?_⟩, fun k hrow hmod => ?_, fun k im hmod hlive hold => ?_, rfl, rfl, rfl⟩
  · have hspad : (takeTrap s.cur t c).spad = undoSpad c.spad [(g, v)] := congrArg (undoSpad c.spad) hlog
    rw [hspad]
    exact undoSpad_read_granule c.spad g v hi
  · simp [htile, hmod, hlive]
  · have hrow' : j ∉ keptRows c := hrow
    simp [htile, hmod, hj, hrow']
  · have hrow' : k ∈ keptRows c := hrow
    simp [htile, hmod, hrow']
  · simp [htile, hmod, hlive, hold]

end Sys2Proof.Machine
end

