-- ==== Sys2Proof/Proofs/Landings.lean ====
section
/-! SUPPORT. A landing at its issue: the Bobbin entry it takes, the reads it begins (R143 to R147, R356). -/
namespace Sys2Proof.Machine
open Sys2Proof.Claims

theorem loadDst_register (cu : Cursor) {dt : BitVec 7} (h : dt.toNat ≤ 63) : loadDst cu dt = .ok () := if_pos h

/-- The core after a landing has taken the Bobbin entry b: its bytes are due at the bundle's delay. -/
def withBob (s : State) (c : Core) (dest : LandDest) (ws : Bool) (b : Bob) : Core :=
  emit s.cur s.cur.late (.land c.nextAcc dest ws) { c with bobs := c.bobs ++ [b], nextAcc := c.nextAcc + 1 }

section
variable {s : State} {c : Core}

theorem takeBob_ok (h : CanLand s c) (dest : LandDest) (ws : BitVec 1) (n : Nat) (ovl : VWord) (mask : BitVec 512) :
    takeBob s.cur c dest ws n ovl mask = .ok (c.nextAcc, withBob s c dest (ws = 1) ⟨c.nextAcc, n, 0, mask, ovl, 0, 0, false, none⟩) := by
  obtain ⟨hlate, hfree⟩ := h
  unfold takeBob
  rw [if_neg hlate, if_neg (by omega)]
  rfl

/-- A landing is no store of an earlier lane: the scratchpad is seen as before it. -/
theorem spadSeen_withBob (dest : LandDest) (ws : Bool) (b : Bob) : spadSeen s.cur (withBob s c dest ws b) = spadSeen s.cur c := by
  simp [spadSeen, withBob, emit, List.filter_append]

/-- A read of the own scratchpad: offset, bytes, byte of the landing. -/
def spadRead (r : EA × Nat × Nat) : Option (Nat × Nat × Nat) :=
  match r.1 with
  | .spad o => some (o, r.2.1, r.2.2)
  | .dev _ => none

theorem spadRead_toList (r : EA × Nat × Nat) : (spadRead r).toList = eaSpad r.1 r.2.1 r.2.2 := by
  obtain ⟨ea, n, off⟩ := r
  cases ea <;> rfl

theorem filterMap_spadRead (reads : List (EA × Nat × Nat)) : reads.filterMap spadRead = reads.flatMap fun r => eaSpad r.1 r.2.1 r.2.2 := by
  simp only [List.filterMap_eq_flatMap_toList, spadRead_toList]

/-- The core after a landing has taken its entry and begun its reads: `dev` of device memory, `sp` of the own scratchpad, `ov` the bytes it
knows already (R143, R144, R356). -/
def withReads (s : State) (c : Core) (dest : LandDest) (ws : Bool) (dev sp : List (Nat × Nat × Nat)) (acq : Bool) (ov : VWord × BitVec 512) : Core :=
  let c1 := withBob s c dest ws ⟨c.nextAcc, dev.length + sp.length, 0, ov.2, ov.1, 0, 0, false, none⟩
  addAccs { c1 with transit := c1.transit ++ sp.map fun r =>
      ⟨c.nextAcc, r.2.2, r.2.1, Memory.readN (spadSeen s.cur c1) r.1 r.2.1, s.cur.gtc + 4, 0⟩ }
    (dev.map fun r => { mkAcc s.cur 0 .rd r.1 r.2.1 0 c.nextAcc r.2.2 with acq := acq })

theorem issueReads_ok (h : CanLand s c) (dest : LandDest) (ws : BitVec 1) (reads : List (EA × Nat × Nat)) (acq : Bool) (known : VWord × BitVec 512) :
    ∃ ov, issueReads s s.cur c dest ws reads acq known =
      .ok (withReads s c dest (ws = 1) (reads.flatMap fun r => eaDev r.1 r.2.1 r.2.2) (reads.filterMap spadRead) acq ov) := by
  unfold issueReads
  dsimp only
  rw [takeBob_ok h]
  exact ⟨_, rfl⟩

theorem withReads_issued (dest : LandDest) (ws : Bool) (dev sp : List (Nat × Nat × Nat)) (acq : Bool) (ov : VWord × BitVec 512) :
    landIssued s dest ws dev sp acq c (withReads s c dest ws dev sp acq ov) := by
  refine ⟨⟨_, rfl, rfl, rfl, rfl⟩, rfl, ?_, ?_, rfl, rfl, rfl⟩
  · simp [withReads, addAccs, withBob, emit, mkAcc, List.zipIdx_map]
  · simp only [withReads, spadSeen_withBob]
    rfl

/-- Issuing the reads of a landing takes one entry, begins the device's reads and takes the scratchpad's bytes as they stand. -/
theorem issueReads_issued (h : CanLand s c) (dest : LandDest) (ws : BitVec 1) (reads : List (EA × Nat × Nat)) (acq : Bool)
    (known : VWord × BitVec 512) :
    ∃ c', issueReads s s.cur c dest ws reads acq known = .ok c' ∧
      landIssued s dest (ws = 1) (reads.flatMap fun r => eaDev r.1 r.2.1 r.2.2) (reads.flatMap fun r => eaSpad r.1 r.2.1 r.2.2) acq c c' := by
  obtain ⟨ov, hov⟩ := issueReads_ok h dest ws reads acq known
  rw [← filterMap_spadRead]
  exact ⟨_, hov, withReads_issued _ _ _ _ _ _⟩

end

end Sys2Proof.Machine
end

