-- ==== Sys2Proof/Proofs/ShuttleAndVentPosts.lean ====
section
/-! LAW. Copies, fills, accumulates and signal writes join their channel at issue; chdone; requests to the Vent engines wait for the commit (R163,
R316, R376 to R395). -/
namespace Sys2Proof.Machine
open Sys2Proof.Claims

/-! ### Posting (R376, R377) -/

/-- The slot image a command takes with it: copies and fills alone name slots. -/
def takenSlot (c : Core) (kind : ShKind) (g : BitVec 2432) (dst : Bool) : Option (BitVec 2048) :=
  match kind with
  | .copy => sideSlot c g dst
  | .fill => sideSlot c g dst
  | _ => none

section
variable {s : State} {c : Core}

theorem postCmd_ok (h : c.arch.cmds.length < 64) (ch : Nat) (kind : ShKind) (g : BitVec 2432) (t q : Word) (bob : Nat) (fl : FlagBits) :
    postCmd s.cur c ch kind g t q bob fl =
      .ok (FMap.get 0 c.arch.nextId ch, withCmd s c ch kind g t q bob fl (takenSlot c kind g false) (takenSlot c kind g true)) := by
  unfold postCmd
  rw [if_neg (by omega)]
  cases kind <;> rfl

/-- The 65th command of a segment takes the segment limit trap (R163, Table 7.1). -/
theorem postCmd_full (h : 64 ≤ c.arch.cmds.length) (ch : Nat) (kind : ShKind) (g : BitVec 2432) (t q : Word) (bob : Nat) (fl : FlagBits) :
    postCmd s.cur c ch kind g t q bob fl = segLimit s.cur 6 := if_pos h

end

/-! ### Copies and fills (R376, R377, R381) -/

/-- The kind of command of a copy or of a fill. -/
def copyKind (fill : Bool) : ShKind := if fill then .fill else .copy

theorem takenSlot_copyKind (c : Core) (fill : Bool) (g : BitVec 2432) (dst : Bool) : takenSlot c (copyKind fill) g dst = sideSlot c g dst := by
  cases fill <;> rfl

theorem exec_copyOrFill (f : MX) (s : State) (fill : Bool) :
    exec (if fill then Instr.fill f else Instr.copy f) s = laneStep s f.pr (copyBody f fill) := by
  cases fill <;> rfl

section
variable {f : MX} {s : State} {c : Core} {fill : Bool} (hch : f.fn.toNat < 8) (hdt : f.dt.toNat ≤ 63)
  (hrec : cpOk c fill ((readV c f.ix.toNat).setWidth 2432) = true)
include hch hdt hrec

/-- With legal fields and a valid record a copy or fill is posted and gives its ID. -/
theorem copyBody_eq : copyBody f fill s.cur c =
    postCmd s.cur c f.fn.toNat (copyKind fill) ((readV c f.ix.toNat).setWidth 2432) (readS c f.bs.toNat) 0 0 0 >>= fun p =>
      writeS s.cur f.dt f.ws 1 (p.1.setWidth 64) p.2 := by
  unfold copyBody
  rw [need_ok (decide_eq_true hch), need_ok (decide_eq_true hdt)]
  simp only [LM_bind_ok, need_ok hrec]
  rfl

theorem copyBody_ok {c2 : Core} (hn : c.arch.cmds.length < 64)
    (hd : DstS s f.dt f.ws 1 ((FMap.get 0 c.arch.nextId f.fn.toNat).setWidth 64)
      (withCmd s c f.fn.toNat (copyKind fill) ((readV c f.ix.toNat).setWidth 2432) (readS c f.bs.toNat) 0 0 0
        (sideSlot c ((readV c f.ix.toNat).setWidth 2432) false) (sideSlot c ((readV c f.ix.toNat).setWidth 2432) true)) c2) :
    copyBody f fill s.cur c = .ok c2 := by
  rw [copyBody_eq hch hdt hrec, postCmd_ok hn, takenSlot_copyKind, takenSlot_copyKind]
  exact hd

theorem copyBody_full (hn : 64 ≤ c.arch.cmds.length) : copyBody f fill s.cur c = .error (.trap (Trap.core 50 6 s.cur.lane)) := by
  rw [copyBody_eq hch hdt hrec, postCmd_full hn]
  rfl

end

/-! ### Accumulates and signal writes (R384 to R387) -/

/-- The record of an accumulate, as its body reads it. -/
def accImg (f : MX) (c : Core) : BitVec 2432 := ((readV c f.ix.toNat).setWidth 512).setWidth 2432

section
variable {f : MX} {s : State} {c : Core} (hn : c.arch.cmds.length < 64)
include hn

theorem accBody_ok (hch : f.fn.toNat < 8) (hdt : f.dt = 0) (hws : f.ws = 0) (hrec : acOk false (accImg f c) = true) :
    accBody f s.cur c = .ok (withCmd s c f.fn.toNat .acc (accImg f c) (readS c f.bs.toNat) (acOperand (accImg f c)).1 0
      (acOperand (accImg f c)).2 none none) := by
  have hfields : (decide (f.fn.toNat < 8) && f.dt = 0 && f.ws = 0) = true := by simp [hch, hdt, hws]
  have hrec' : acOk false (((readV c f.ix.toNat).setWidth 512).setWidth 2432) = true := hrec
  unfold accBody
  simp only [need_ok hfields, need_ok hrec', LM_bind_ok, postCmd_ok hn]
  rfl

/-- accr takes a Bobbin entry that its old value fills, then joins its channel (R384, R386). -/
theorem accrBody_ok (hch : f.fn.toNat < 8) (hbs : f.bs = 0) (hdt : f.dt.toNat ≤ 63) (hrec : acOk true (accImg f c) = true) (hland : CanLand s c) :
    accrBody f s.cur c = .ok (withCmd s
      (withBob s c (.accr (mapReg c.arch.rot f.dt.toNat) (accrAcq (accImg f c))) (f.ws = 1) ⟨c.nextAcc, 1, 0, 0, 0, 0, 0, false, none⟩)
      f.fn.toNat .accr (accImg f c) 0 (acOperand (accImg f c)).1 c.nextAcc (acOperand (accImg f c)).2 none none) := by
  have hfields : (decide (f.fn.toNat < 8) && f.bs = 0) = true := by simp [hch, hbs]
  have hrec' : acOk true (((readV c f.ix.toNat).setWidth 512).setWidth 2432) = true := hrec
  have hroom : (withBob s c (.accr (mapReg c.arch.rot f.dt.toNat) (accrAcq (accImg f c))) (f.ws = 1)
      ⟨c.nextAcc, 1, 0, 0, 0, 0, 0, false, none⟩).arch.cmds.length < 64 := hn
  unfold accrBody
  simp only [need_ok hfields, need_ok (decide_eq_true hdt), need_ok hrec', LM_bind_ok, takeBob_ok hland]
  exact congrArg (· >>= _) (postCmd_ok hroom _ _ _ _ _ _ _)

theorem sigwBody_ok (hsc : f.fn.toNat / 8 % 8 ≤ 4) (hdt : f.dt.toNat ≤ 63) (hws : f.ws = 0) (hal : (readS c f.ix.toNat).toNat % 8 = 0) :
    sigwBody f s.cur c = .ok (withCmd s c (f.fn.toNat % 8) (.sigw (f.fn.toNat / 8 % 8) (f.fn.getLsbD 6))
      (BitVec.ofNat 2432 ((readS c f.ix.toNat).toNat + (readS c f.dt.toNat).toNat * 2 ^ 128)) (readS c f.bs.toNat) (readS c f.dt.toNat) 0 0 none none) := by
  have hfields : (decide (f.fn.toNat / 8 % 8 ≤ 4) && f.ws = 0) = true := by simp [hsc, hws]
  have hal' : ((readS c f.ix.toNat).toNat % 8 == 0) = true := by simp [hal]
  unfold sigwBody
  simp only [need_ok hfields, loadDst_register s.cur hdt, need_ok hal', LM_bind_ok, postCmd_ok hn]
  rfl

end

/-! ### chdone (R316, R378, R379) -/

theorem chdoneBody_ok {f : MX} {s : State} {c c2 : Core} (hfn : f.fn.toNat < 16) (hbs : f.bs = 0) (hix : f.ix = 0) (hdt : f.dt.toNat ≤ 63)
    (hd : let r := volatile c ((if f.fn.getLsbD 3 then FMap.get 0 c.arch.nextId (f.fn.toNat % 8) else chdoneOf c (f.fn.toNat % 8)).setWidth 64)
      DstS s f.dt f.ws 1 r.1 r.2 c2) :
    chdoneBody f s.cur c = .ok c2 := by
  have hfields : (decide (f.fn.toNat < 16) && f.bs = 0 && f.ix = 0) = true := by simp [hfn, hbs, hix]
  unfold chdoneBody
  simp only [need_ok hfields, need_ok (decide_eq_true hdt), LM_bind_ok]
  exact hd

/-! ### Vent requests (R390, R391, R394, R395) -/

section
variable {f : MX} {s : State} {c : Core} (hfn : f.fn = 0) (hws : f.ws = 0)
include hfn hws

theorem ventsetBody_ok (hdt : f.dt = 0) (hi : (readS c f.bs.toNat).toNat < 1024)
    (hv : vtOk (s.dieBase + s.cur.core / 64) (diePresent s) ((readV c f.ix.toNat).setWidth 1024) = true) :
    ventsetBody f s s.cur c = .ok (withPost c (.vset (readS c f.bs.toNat).toNat ((readV c f.ix.toNat).setWidth 1024))) := by
  have hfields : (f.dt = 0 && f.fn = 0 && f.ws = 0) = true := by simp [hdt, hfn, hws]
  have hentry : (decide ((readS c f.bs.toNat).toNat < 1024) &&
      vtOk (s.dieBase + coreDie s.cur) (diePresent s) ((readV c f.ix.toNat).setWidth 1024)) = true := by
    rw [decide_eq_true hi, Bool.true_and]
    exact hv
  unfold ventsetBody
  simp only [need_ok hfields, need_ok hentry, LM_bind_ok]
  rfl

theorem ventrdyBody_ok (hdt : f.dt = 0) (hix : f.ix = 0) (hi : (readS c f.bs.toNat).toNat < 1024) :
    ventrdyBody f s.cur c = .ok (withPost c (.vready (readS c f.bs.toNat).toNat)) := by
  have hfields : (f.dt = 0 && f.fn = 0 && f.ix = 0 && f.ws = 0) = true := by simp [hdt, hfn, hix, hws]
  unfold ventrdyBody
  simp only [need_ok hfields, need_ok (decide_eq_true hi), LM_bind_ok]
  rfl

theorem collmodeBody_ok (hdt : f.dt = 0) (hix : f.ix = 0) (hi : (readS c f.bs.toNat).toNat < 2) :
    collmodeBody f s.cur c = .ok (withPost c (.collmode ((readS c f.bs.toNat).toNat = 1))) := by
  have hfields : (f.dt = 0 && f.fn = 0 && f.ix = 0 && f.ws = 0) = true := by simp [hdt, hfn, hix, hws]
  unfold collmodeBody
  simp only [need_ok hfields, need_ok (decide_eq_true hi), LM_bind_ok]
  rfl

theorem ventgrpBody_ok (hix : f.ix = 0) (hdt : f.dt.toNat ≤ 63) (hg : (readS c f.dt.toNat).toNat < 2 ^ 13)
    (hne : (readS c f.dt.toNat).toNat % 4096 ≠ 0) :
    ventgrpBody f s.cur c = .ok (withPost c (.vgroup ((readS c f.dt.toNat).toNat % 4096) ((readS c f.dt.toNat).toNat / 4096 = 1)
      ((readS c f.bs.toNat).setWidth 32))) := by
  have hfields : (f.fn = 0 && f.ix = 0 && f.ws = 0) = true := by simp [hfn, hix, hws]
  have hgroup : (decide ((readS c f.dt.toNat).toNat < 2 ^ 13) && decide ((readS c f.dt.toNat).toNat % 4096 ≠ 0)) = true := by
    rw [decide_eq_true hg, decide_eq_true hne, Bool.and_self]
  unfold ventgrpBody
  simp only [need_ok hfields, loadDst_register s.cur hdt, need_ok hgroup, LM_bind_ok]
  rfl

end

/-- Settles O31, by what the body of each operation answers when its fields and its record are legal. -/
theorem shuttleAndVentPosts : Obligations.ShuttleAndVentPosts := by
  refine ⟨fun f s fill hp hch hdt hrec => ?_, fun f s hp hn => ⟨fun hch hdt hws hrec => ?_, fun hch hbs hdt hrec hland => ?_,
    fun hsc hdt hws hal => ?_⟩, fun f s hp hfn hbs hix hdt c2 hd => ?_, fun f s hp hfn hws => ⟨fun hdt hi hv => ?_,
    fun hdt hix hi => ?_, fun hdt hix hi => ?_, fun hix hdt hg hne => ?_⟩⟩
  · rw [exec_copyOrFill]
    exact ⟨fun hn c2 hd => laneStep_leaves hp (copyBody_ok hch hdt hrec hn hd), fun hn => laneStep_trap hp (copyBody_full hch hdt hrec hn)⟩
  · exact laneStep_leaves hp (accBody_ok hn hch hdt hws hrec)
  · exact ⟨_, _, laneStep_leaves hp (accrBody_ok hn hch hbs hdt hrec hland), rfl, rfl, rfl, rfl, rfl, rfl⟩
  · exact laneStep_leaves hp (sigwBody_ok hn hsc hdt hws hal)
  · exact laneStep_leaves hp (chdoneBody_ok hfn hbs hix hdt hd)
  · exact laneStep_leaves hp (ventsetBody_ok hfn hws hdt hi hv)
  · exact laneStep_leaves hp (ventrdyBody_ok hfn hws hdt hix hi)
  · exact laneStep_leaves hp (collmodeBody_ok hfn hws hdt hix hi)
  · exact laneStep_leaves hp (ventgrpBody_ok hfn hws hix hdt hg hne)

end Sys2Proof.Machine
end

