-- ==== Sys2Proof/Proofs/StoresIssue.lean ====
section
/-! LAW. What a store, a gather and a scatter do at their issue (R159, R357, R359 to R363). -/
namespace Sys2Proof.Machine
open Sys2Proof.Claims

/-! ### Buffered stores (R159, R357) -/

/-- `c'` is `c` with one more buffered store, the walks of whose pages have begun. -/
def Buffered (s : State) (kind : StoreKind) (parts : List (Nat × Nat × Nat)) (c c' : Core) : Prop :=
  ∃ ids, c'.arch = { c.arch with stores := c.arch.stores ++ [⟨s.cur.seq, s.cur.lane, kind, ids, s.cur.pos⟩] } ∧
    c'.spad = c.spad ∧ c'.tiles = c.tiles ∧ c'.mode = c.mode ∧ ids.length = (walkPages parts).length ∧
    c'.accs.map (fun a => (a.kind, a.va, a.n)) = c.accs.map (fun a => (a.kind, a.va, a.n)) ++ (walkPages parts).map fun a => (.walk, a, 1)

section
variable {s : State} {c c1 c2 : Core}

theorem checkStores_room (cu : Cursor) (h : c.arch.stores.length + waitingStores c < 256) : checkStores cu c = .ok () := if_neg (by omega)

/-- Numbering accesses leaves what they are, where and how long. -/
theorem addAccs_shapes (c : Core) (l : List Acc) : (addAccs c l).accs.map (fun a => (a.kind, a.va, a.n)) =
    c.accs.map (fun a => (a.kind, a.va, a.n)) ++ l.map fun a => (a.kind, a.va, a.n) := by
  have hnum : (l.zipIdx.map fun p => { p.1 with id := c.nextAcc + p.2 }).map (fun a => (a.kind, a.va, a.n)) =
      (l.zipIdx.map Prod.fst).map fun a => (a.kind, a.va, a.n) := by
    rw [List.map_map, List.map_map]
    rfl
  rw [addAccs, List.map_append, hnum, List.zipIdx_map_fst]

theorem bufferStore_buffered (h : c.arch.stores.length + waitingStores c < 256) (kind : StoreKind) (parts : List (Nat × Nat × Nat)) :
    ∃ c', bufferStore s.cur c kind parts = .ok c' ∧ Buffered s kind parts c c' := by
  have hwalks : (addAccs c ((walkPages parts).map fun a => mkAcc s.cur 0 .walk a 1 0 0 0)).accs.map (fun a => (a.kind, a.va, a.n)) =
      c.accs.map (fun a => (a.kind, a.va, a.n)) ++ (walkPages parts).map fun a => (.walk, a, 1) := by
    rw [addAccs_shapes, List.map_map]
    rfl
  unfold bufferStore
  rw [checkStores_room s.cur h]
  exact ⟨_, rfl, _, rfl, rfl, rfl, rfl, by rw [List.length_map, List.length_range], hwalks⟩

/-! ### One store at an effective address -/

theorem storeAt_spad {o n : Nat} (v : Nat) (rel : Option Nat) (hlog : logSpad s.cur c o n = .ok c2) :
    storeAt (.spad o) n v rel s.cur c = .ok (emit s.cur 1 (.spad [(o, n, 2 ^ n - 1, v)])
      (if rel.isSome then { c2 with arch := { c2.arch with relSpad := c2.arch.relSpad ++ [o / 64] } } else c2)) := by
  simp only [storeAt, hlog, LM_bind_ok]

/-- The parts of a store of n bytes to device memory, one per location it touches: address, bytes, value. -/
def devParts (va n v : Nat) : List (Nat × Nat × Nat) := (locPieces va n).map fun p => (p.1, p.2.1, v / 256 ^ p.2.2 % 256 ^ p.2.1)

/-- An operation whose body comes to a store at an effective address stores there. -/
theorem laneStep_stores {pr : BitVec 6} {body : Cursor → Core → LM Core} {ea : EA} {n v : Nat} {rel : Option Nat} (hp : Acts s pr)
    (hb : body s.cur (here s) = storeAt ea n v rel s.cur c) : stores s ea n v rel c (laneStep s pr body) := by
  cases ea with
  | spad o => exact fun c2 hlog => laneStep_leaves hp (hb.trans (storeAt_spad v rel hlog))
  | dev va =>
    intro hroom
    obtain ⟨c', hc', ids, hbuf⟩ := bufferStore_buffered (s := s) hroom (.dev (devParts va n v) rel) (devParts va n v)
    exact ⟨c', ids, laneStep_leaves hp (hb.trans hc'), hbuf⟩

/-! ### The stores of forms MA and MX (R359 to R362) -/

theorem storeMA_scalar {f : MA} {n al : Nat} {ea : EA} {v : Word} (hws : f.ws = 0) (ha : effAddr s.cur (maAddr f n c) n al true = .ok ea)
    (hv : resolveS s.cur f.dt c = .ok (v, c1)) : storeMA f n al false s.cur c = storeAt ea n (v.toNat % 256 ^ n) none s.cur c1 := by
  unfold storeMA
  rw [need_ok (decide_eq_true hws), ha, hv]
  rfl

theorem storeMA_vector {f : MA} {n al : Nat} {ea : EA} {v : VWord} (hws : f.ws = 0) (ha : effAddr s.cur (maAddr f n c) n al true = .ok ea)
    (hv : resolveV s.cur f.dt c = .ok (v, c1)) : storeMA f n al true s.cur c = storeAt ea n v.toNat none s.cur c1 := by
  unfold storeMA
  rw [need_ok (decide_eq_true hws), ha, hv]
  rfl

/-- The scalar stores differ in their bytes alone. -/
theorem exec_storeOps : ∀ e ∈ storeOps, ∀ (f : MA) (s : State), exec (e.1 f) s = laneStep s f.pr (storeMA f e.2 e.2 false) := by
  simp only [storeOps, List.forall_mem_cons]
  exact ⟨fun _ _ => rfl, fun _ _ => rfl, fun _ _ => rfl, fun _ _ => rfl, fun _ h => nomatch h⟩

theorem strelBody_eq {f : MX} {ea : EA} {v : Word} (hws : f.ws = 0) (hsc : f.fn.toNat ≤ 4) (ha : effAddr s.cur (mxAddr f c) 8 8 true = .ok ea)
    (hv : resolveS s.cur f.dt c = .ok (v, c1)) : strelBody f s.cur c = storeAt ea 8 v.toNat (some f.fn.toNat) s.cur c1 := by
  have hn : (f.ws = 0 && decide (f.fn.toNat ≤ 4)) = true := by simp [hws, hsc]
  unfold strelBody
  rw [need_ok hn, ha, hv]
  rfl

theorem vstxBody_eq {f : MX} {ea : EA} {v : VWord} (hws : f.ws = 0) (hfn : f.fn = 0) (ha : effAddr s.cur (mxAddr f c) 512 64 true = .ok ea)
    (hv : resolveV s.cur f.dt c = .ok (v, c1)) : vstxBody f s.cur c = storeAt ea 512 v.toNat none s.cur c1 := by
  have hn : (f.fn = 0 && f.ws = 0) = true := by simp [hws, hfn]
  unfold vstxBody
  rw [need_ok hn, ha, hv]
  rfl

/-! ### Gather and scatter (R363) -/

/-- Bytes of an element: FN bit 0. -/
def elemBytes (f : MX) : Nat := if f.fn.getLsbD 0 then 8 else 4

/-- Of a scatter, the element p in the own scratchpad, with its bytes all enabled; and the element p in device memory. -/
def scatterSpad (n : Nat) (v : VWord) (p : Nat × EA) : Option (Nat × Nat × Nat × Nat) :=
  match p.2 with
  | .spad o => some (o, n, 2 ^ n - 1, el (8 * n) v p.1)
  | .dev _ => none
def scatterDev (n : Nat) (v : VWord) (p : Nat × EA) : Option (Nat × Nat × Nat) :=
  match p.2 with
  | .dev a => some (a, n, el (8 * n) v p.1)
  | .spad _ => none

/-- The core after the scratchpad elements of a scatter have been queued. -/
def withSpad (s : State) (sp : List (Nat × Nat × Nat × Nat)) (c : Core) : Core := if sp = [] then c else emit s.cur 1 (.spad sp) c

/-- The end of a scatter: its device elements, if it has any, are one buffered store. -/
def scatterEnd (s : State) (sp : List (Nat × Nat × Nat × Nat)) (dv : List (Nat × Nat × Nat)) (c : Core) : LM Core :=
  if dv = [] then .ok (withSpad s sp c) else bufferStore s.cur (withSpad s sp c) (.dev dv none) dv

section
variable {f : MX} {l : List (Nat × EA)} (hfn : f.fn.toNat < 32)
include hfn

theorem gatherBody_issued (hdt : f.dt.toNat ≤ 63) (hland : CanLand s c) (hl : gatherAddrs f false s.cur c = .ok l) :
    ∃ c', gatherBody f s s.cur c = .ok c' ∧ landIssued s
      (.gather (mapReg c.arch.rot f.dt.toNat) (spread (8 * elemBytes f) (epMask c (f.fn.extractLsb' 1 4)))) (f.ws = 1)
      (l.flatMap fun p => eaDev p.2 (elemBytes f) (p.1 * elemBytes f)) (l.flatMap fun p => eaSpad p.2 (elemBytes f) (p.1 * elemBytes f)) false c c' := by
  obtain ⟨c', hc', hiss⟩ := issueReads_issued hland
    (.gather (mapReg c.arch.rot f.dt.toNat) (spread (8 * elemBytes f) (epMask c (f.fn.extractLsb' 1 4)))) f.ws
    (l.map fun p => (p.2, elemBytes f, p.1 * elemBytes f)) false (0, 0)
  simp only [List.flatMap_map] at hiss
  refine ⟨c', ?_, hiss⟩
  unfold gatherBody
  rw [need_ok (decide_eq_true hfn), loadDst_register s.cur hdt, hl]
  exact hc'

/-- A scatter logs the granules of its scratchpad elements and queues them, then buffers its device elements as one store. -/
theorem scatterBody_eq {v : VWord} (hws : f.ws = 0) (hl : gatherAddrs f true s.cur c = .ok l) (hv : resolveV s.cur f.dt c = .ok (v, c1))
    (hlog : (l.filterMap (scatterSpad (elemBytes f) v)).foldlM (fun c p => logSpad s.cur c p.1 p.2.1) c1 = .ok c2) :
    scatterBody f s.cur c = scatterEnd s (l.filterMap (scatterSpad (elemBytes f) v)) (l.filterMap (scatterDev (elemBytes f) v)) c2 := by
  have hn : (decide (f.fn.toNat < 32) && f.ws = 0) = true := by simp [hfn, hws]
  unfold scatterBody
  rw [need_ok hn, hl, hv]
  exact congrArg (· >>= scatterEnd s _ _) hlog

end

end

/-- Settles O29: each store comes to `storeAt` at its address, gather to the issue of one landing, scatter to a log, a result and one store. -/
theorem storesIssue : Obligations.StoresIssue := by
  refine ⟨⟨fun e he f s ea v c1 hp hws ha hv => ?_, fun f s ea v c1 hp hws ha hv => ?_, fun f s ea hp hws => ⟨fun hsc ha v c1 hv => ?_,
    fun hfn ha v c1 hv => ?_⟩⟩, fun f s l hp hfn => ⟨fun hdt hland hl => ?_, fun hws hl v c1 hv c2 hlog => ⟨fun hdv => ?_, fun hdv hroom => ?_⟩⟩⟩
  · rw [exec_storeOps e he]
    exact laneStep_stores hp (storeMA_scalar hws ha hv)
  · exact laneStep_stores hp (storeMA_vector hws ha hv)
  · exact laneStep_stores hp (strelBody_eq hws hsc ha hv)
  · exact laneStep_stores hp (vstxBody_eq hws hfn ha hv)
  · obtain ⟨c', hc', hiss⟩ := gatherBody_issued hfn hdt hland hl
    exact ⟨c', laneStep_leaves hp hc', hiss⟩
  · exact laneStep_leaves hp ((scatterBody_eq hfn hws hl hv hlog).trans (if_pos hdv))
  · obtain ⟨c', hc', ids, harch, hspad, -⟩ := bufferStore_buffered (s := s) hroom (.dev (l.filterMap (scatterDev (elemBytes f) v)) none)
      (l.filterMap (scatterDev (elemBytes f) v))
    exact ⟨c', ids, laneStep_leaves hp ((scatterBody_eq hfn hws hl hv hlog).trans ((if_neg hdv).trans hc')), harch, hspad⟩

end Sys2Proof.Machine
end

