-- ==== Sys2Proof/Proofs/TensorAccesses.lean ====
section
/-! LAW. tld begins one read per element of its row that lies in the tensor; tst buffers one store of those elements (R206, R207, R368). -/
namespace Sys2Proof.Machine
open Sys2Proof.Claims

theorem slotOf_ok {c : Core} {n : BitVec 6} {d : BitVec 2048} (cu : Cursor) (h : Slot c n d) : slotOf cu c n = .ok d := by
  obtain ⟨hn, hd⟩ := h
  unfold slotOf
  rw [if_neg (by omega), hd]

/-- What a record of an access says besides its number is kept when the access is appended. -/
theorem addAccs_map {β : Type} (g : Acc → β) (hg : ∀ a n, g { a with id := n } = g a) (c : Core) (l : List Acc) :
    (addAccs c l).accs.map g = c.accs.map g ++ l.map g := by
  simp only [addAccs, List.map_append, List.map_map, Function.comp_def, hg]
  rw [← Function.comp_def g Prod.fst, ← List.map_map, List.zipIdx_map_fst]

/-- The dimension a tld or tst steps along: the last, or the last but one (R368). -/
def rowDim (f : MX) (d : BitVec 2048) : Nat := dRank d - 1 - f.fn.toNat

/-- The elements of a row with their coordinates. -/
def rowCoords (f : MX) (c : Core) (d : BitVec 2048) : List (Nat × List Nat) :=
  (List.range (4096 / fmtWidth (slotFmt d))).map fun e => (e, tensorCoords d (readV c f.ix.toNat) (rowDim f d) e)

/-- Those of them that lie in the tensor. -/
def rowInside (f : MX) (c : Core) (d : BitVec 2048) : List (Nat × List Nat) := (rowCoords f c d).filter fun p => !isOut d p.2

/-- The elements of a row that lie in the tensor, with the values a tst stores there. -/
def rowStores (f : MX) (c : Core) (d : BitVec 2048) (v : VWord) : List (List Nat × Nat) :=
  ((List.range (4096 / fmtWidth (slotFmt d))).map fun e =>
    (tensorCoords d (readV c f.ix.toNat) (rowDim f d) e, el (fmtWidth (slotFmt d)) v e)).filter fun p => !isOut d p.1

section
variable {f : MX} {s : State} {c c1 : Core} {d : BitVec 2048} (hfn : f.fn.toNat ≤ 1) (hslot : Slot c f.bs d)
  (hbyte : fmtIsByte (slotFmt d) = true) (hrank : f.fn = 1 → 2 ≤ dRank d)

include hfn hbyte hrank in
/-- The format and the rank allow the access: a second dimension to step along must be there (R368). -/
theorem row_fields : (fmtIsByte (slotFmt d) && (f.fn = 0 || decide (dRank d ≥ 2))) = true := by
  have hfn01 : f.fn = 0 ∨ f.fn = 1 := by
    simp only [← BitVec.toNat_inj]
    exact Nat.le_one_iff_eq_zero_or_eq_one.mp hfn
  rcases hfn01 with h0 | h1
  · simp [hbyte, h0]
  · simp [hbyte, hrank h1]

/-- The read of one element of a tensor, which waits for its tile where that is busy (R206, R210). -/
def elemRead (s : State) (c : Core) (d : BitVec 2048) (p : Nat × List Nat) : Acc :=
  { mkAcc s.cur 0 .rd 0 (fmtWidth (slotFmt d) / 8) 0 c.nextAcc (p.1 * fmtWidth (slotFmt d) / 8) with elem := some (d, p.2) }

include hfn hslot hbyte hrank

/-- tld takes an entry that waits for the elements inside the tensor; FILL and the core's own stores are the bytes `ov` it knows already. -/
theorem tldBody_ok (hdt : f.dt.toNat ≤ 63) (hland : CanLand s c)
    (hpart : ((rowCoords f c d).any fun p => partialRead s c.ctx d p.2 (s.dieBase + s.cur.core / 64)) = false) :
    ∃ ov : VWord × BitVec 512, tldBody f s s.cur c = .ok (addAccs
      (withBob s c (.v (mapReg c.arch.rot f.dt.toNat)) (f.ws = 1)
        ⟨c.nextAcc, (rowInside f c d).length, 0, ov.2, ov.1, 0, 0, false, none⟩)
      ((rowInside f c d).map (elemRead s c d))) := by
  unfold tldBody
  rw [need_ok (decide_eq_true hfn), loadDst_register s.cur hdt, slotOf_ok s.cur hslot]
  dsimp only [LM_bind_ok]
  rw [need_ok (row_fields hfn hbyte hrank)]
  dsimp only [LM_bind_ok]
  generalize (List.foldl _ _ _ : VWord × BitVec 512) = ov
  refine ⟨ov, (if_neg (ne_true_of_eq_false hpart)).trans ?_⟩
  rw [takeBob_ok hland]
  rfl

/-- tst buffers its elements with the slot image of its issue (log 95). -/
theorem tstBody_ok {v : VWord} (hws : f.ws = 0) (hv : resolveV s.cur f.dt c = .ok (v, c1)) :
    ∃ parts, tstBody f s s.cur c =
      bufferStore s.cur c1 (.slot d (fmtWidth (slotFmt d)) (rowStores f c1 d v)) parts := by
  have hfields : (decide (f.fn.toNat ≤ 1) && f.ws = 0) = true := by simp [hfn, hws]
  unfold tstBody
  rw [need_ok hfields, slotOf_ok s.cur hslot]
  dsimp only [LM_bind_ok]
  rw [need_ok (row_fields hfn hbyte hrank), hv]
  exact ⟨_, rfl⟩

end

/-- Settles O39: tld comes to one landing with a read per element inside the tensor, tst to one buffered store. -/
theorem tensorAccesses : Obligations.TensorAccesses := by
  refine fun f s d hp hfn hslot hbyte hrank => ⟨fun hdt hland hpart => ?_, fun hws v c1 hv hroom => ?_⟩
  · obtain ⟨ov, hbody⟩ := tldBody_ok hfn hslot hbyte hrank hdt hland hpart
    refine ⟨_, _, laneStep_leaves hp hbody, rfl, rfl, rfl, ?_, rfl, rfl⟩
    rw [addAccs_map _ fun _ _ => rfl, List.map_map]
    rfl
  · obtain ⟨parts, hbody⟩ := tstBody_ok hfn hslot hbyte hrank hws hv
    obtain ⟨c', hc', ids, harch, hspad, -⟩ := bufferStore_buffered (s := s) hroom
      (.slot d (fmtWidth (slotFmt d)) (rowStores f c1 d v)) parts
    exact ⟨c', ids, laneStep_leaves hp (hbody.trans hc'), harch, hspad⟩

end Sys2Proof.Machine
end

