-- ==== Sys2Proof/Proofs/VentEvents.lean ====
section
/-! LAW. A fire of the Vent leaves its queue and raises SINST; contributions are taken in, applied and finished (R390 to R394). -/
namespace Sys2Proof.Machine
open Sys2Proof.Claims

/-! ### What sending leaves of a die's Vent (R391) -/

/-- The fires that wait and the Vent's table of die d are in t as in s. -/
def KeepsVent (d : Nat) (s t : State) : Prop := (t.die d).fires = (s.die d).fires ∧ (t.die d).vent = (s.die d).vent

section
variable {d : Nat} {s t u : State}

theorem keepsVent_refl (s : State) : KeepsVent d s s := ⟨rfl, rfl⟩

theorem KeepsVent.trans (h : KeepsVent d s t) (h' : KeepsVent d t u) : KeepsVent d s u := ⟨h'.1.trans h.1, h'.2.trans h.2⟩

theorem keepsVent_setDie {y : Die} (hf : y.fires = (s.die d).fires) (hv : y.vent = (s.die d).vent) : KeepsVent d s (s.setDie d y) := by
  unfold KeepsVent
  rw [State.die_setDie_same]
  exact ⟨hf, hv⟩

theorem keepsVent_foldl {α : Type} {f : State → α → State} (hf : ∀ r a, KeepsVent d r (f r a)) (l : List α) (s : State) :
    KeepsVent d s (l.foldl f s) :=
  List.foldlRecOn l f (keepsVent_refl s) fun _ h a _ => h.trans (hf _ a)

theorem sendPacket_keepsVent (ep : Nat) (p : Packet) : KeepsVent d s (sendPacket s d ep p) := by
  unfold sendPacket
  split
  · exact keepsVent_setDie rfl rfl
  · exact keepsVent_setDie rfl rfl

theorem sendContrib_keepsVent (t : Nat) (e : BitVec 1024) (data : List Word) (js : List Nat) : KeepsVent d s (sendContrib s d t e data js) := by
  unfold sendContrib
  extract_lets me j sq s1
  have hnumbered : KeepsVent d s s1 := by
    unfold s1
    split
    · exact keepsVent_refl s
    · exact keepsVent_setDie rfl rfl
  split
  · exact hnumbered.trans (keepsVent_setDie rfl rfl)
  · exact hnumbered.trans (keepsVent_foldl (fun _ _ => sendPacket_keepsVent _ _) _ _)

end

@[simp] theorem die_bankTurn (s : State) (path : Nat) (ph : Phys) (d : Nat) : (bankTurn s path ph).die d = s.die d := by
  unfold bankTurn
  split <;> rfl

/-! ### Fires (R391) -/

/-- s in which fire f of die d no longer waits. -/
def withoutFire (s : State) (d : Nat) (f : Nat × Nat × Nat) : State := s.setDie d { s.die d with fires := (s.die d).fires.erase f }

theorem fires_withoutFire (s : State) (d : Nat) (f : Nat × Nat × Nat) : ((withoutFire s d f).die d).fires = (s.die d).fires.erase f := by
  simp [withoutFire]

section
variable {s : State} {d : Nat} {f : Nat × Nat × Nat} (hone : (s.die d).fires = [f])
include hone

theorem find_onlyFire : ((s.die d).fires.find? fun g => g.1 == f.1) = some f := by
  rw [hone]
  exact List.find?_cons_of_pos (beq_self_eq_true _)

theorem erase_onlyFire : (s.die d).fires.erase f = [] := by
  rw [hone]
  exact List.erase_cons_head _ _

/-- A fire of an entry that is not valid is counted as a malformed packet. -/
theorem ventFire_invalid (hv : vtV (FMap.get 0 (s.die d).vent f.1) = false) :
    Completes (.ventFire d f.1) s fun u => (u.die d).fires = [] ∧ (u.die d).badpkt = satInc (s.die d).badpkt := by
  refine ⟨(withoutFire s d f).setDie d { (withoutFire s d f).die d with badpkt := satInc (s.die d).badpkt }, ?_, ?_⟩
  · show execVentFire d f.1 s = _
    unfold execVentFire
    dsimp only
    rw [find_onlyFire hone]
    exact if_pos (ne_true_of_eq_false hv)
  · simp [fires_withoutFire, erase_onlyFire hone]

/-- A fire that may read its source and send leaves the queue and raises the entry's SINST, whatever its contributions are. -/
theorem ventFire_sends {e : BitVec 1024} {ph : Phys} (he : FMap.get 0 (s.die d).vent f.1 = e) (hv : vtV e = true)
    (hready : fireReady s f.2.1 = true) (hfree : engFrozen s d (ventEp f.1) = false)
    (hph : spadPhys s (vtCtx e) (vtSrc e) (vtLen e) = some ph) (hopen : rangeClosed s ph (vtLen e) = false)
    (hsend : ∀ j ∈ fireTargets e (s.dieBase + d), j = s.dieBase + d ∨ maySend s d j (contribLine f.1) = true) :
    Completes (.ventFire d f.1) s fun u => (u.die d).fires = [] ∧ FMap.get 0 (u.die d).vent f.1 = vtSet e 448 32 (vtSinst e + 1) := by
  have hall : ((fireTargets e (s.dieBase + d)).all fun j => j == s.dieBase + d || maySend s d j (contribLine f.1)) = true := by
    simpa [List.all_eq_true] using hsend
  unfold Completes
  show ∃ u, execVentFire d f.1 s = .next u ∧ _
  unfold execVentFire
  extract_lets y e1
  obtain rfl : e1 = e := he
  rw [find_onlyFire hone]
  dsimp -zeta only
  extract_lets drop
  rw [if_neg (not_not.mpr hv), if_neg (by simp [hready, hfree, hall]), hph]
  dsimp -zeta only
  rw [if_neg (ne_true_of_eq_false hopen)]
  extract_lets s1 y1 s2 _ _ _ _ _ s3 y3 s4
  have hfires : (s2.die d).fires = [] := by
    simp [s2, y1, s1, drop, erase_onlyFire hone]
  have hinst : FMap.get 0 (s2.die d).vent f.1 = vtSet e1 448 32 (vtSinst e1 + 1) := by
    simp [s2, FMap.get_put]
  have hsent : KeepsVent d s2 s4 := by
    have h3 : KeepsVent d s2 s3 := keepsVent_foldl (fun _ _ => sendContrib_keepsVent _ _ _ _) _ _
    unfold s4
    split
    · exact h3.trans (keepsVent_setDie rfl rfl)
    · exact h3
  obtain ⟨hsf, hsv⟩ := hsent
  exact ⟨_, rfl, hsf.trans hfires, (congrArg (FMap.get 0 · f.1) hsv).trans hinst⟩

end

/-! ### Contributions (R392, R393) -/

section
variable {s : State} {d k t i : Nat} {data : List Word} {h : BitVec 256} (hin : (s.die d).ventIn[k]? = some (t, i, data, h))
  (hmoves : contribMoves s d k = true)
include hin hmoves

/-- A contribution whose number is RINST is held for its turn. -/
theorem ventContributionReceive_holds (hnow : i % 2 ^ 32 = vtRinst (FMap.get 0 (s.die d).vent t)) :
    let st := FMap.get VentSt.init (s.die d).ventSt t
    exec (.ventContributionReceive d k) s = .next (s.setDie d { s.die d with
      ventIn := (s.die d).ventIn.eraseIdx k, ventSt := FMap.put (s.die d).ventSt t { st with hold := st.hold ++ [(i / 2 ^ 32, data, h)] } }) := by
  intro st
  show execVentContributionReceive d k s = _
  unfold execVentContributionReceive
  dsimp only
  rw [hin]
  dsimp only
  rw [if_neg (not_not.mpr hmoves), if_neg (by omega), if_pos hnow]

/-- One with a later number is parked. -/
theorem ventContributionReceive_parks (hlater : vtRinst (FMap.get 0 (s.die d).vent t) < i % 2 ^ 32) :
    let st := FMap.get VentSt.init (s.die d).ventSt t
    exec (.ventContributionReceive d k) s = .next (s.setDie d { s.die d with
      ventIn := (s.die d).ventIn.eraseIdx k, ventSt := FMap.put (s.die d).ventSt t { st with park := some (i / 2 ^ 32, data, h) } }) := by
  intro st
  show execVentContributionReceive d k s = _
  unfold execVentContributionReceive
  dsimp only
  rw [hin]
  dsimp only
  rw [if_neg (not_not.mpr hmoves), if_neg (by omega), if_neg (by omega)]

end

/-- Without a flag to write, or with the die's earlier writes performed, the release is made at once (R236). -/
theorem ventRelease_finishes {s : State} {d t : Nat} (h : vtFlag (FMap.get 0 (s.die d).vent t) = 0 ∨ relOpen s d (relKeyVent t) = true) :
    ventRelease s d t = ventFinish (relDone s d (relKeyVent t)) d t :=
  if_neg fun ⟨hflag, hwait⟩ => h.elim hflag hwait

section
variable {s : State} {d t : Nat} (hready : ventReady s d t = true)
include hready

theorem ventContributionApply_finishes (hcount : vtNexp (FMap.get 0 (s.die d).vent t) ≤ (FMap.get VentSt.init (s.die d).ventSt t).count)
    (hopen : vtFlag (FMap.get 0 (s.die d).vent t) = 0 ∨ relOpen s d (relKeyVent t) = true)
    (ha : (ventFinish (relDone s d (relKeyVent t)) d t).absent = none) :
    exec (.ventContributionApply d t) s = .next (ventFinish (relDone s d (relKeyVent t)) d t) := by
  show execVentContributionApply d t s = _
  unfold execVentContributionApply
  rw [if_neg (not_not.mpr hready)]
  dsimp only
  rw [if_pos hcount, ventRelease_finishes hopen]
  exact finish_next ha

/-- The state in which the entry has performed its oldest held contribution and acknowledged it. -/
def contribApplied (s1 : State) (d t : Nat) (st : VentSt) (rest : List (Nat × List Word × BitVec 256)) (h : BitVec 256) : State :=
  ackContrib (s1.setDie d { s1.die d with ventSt := FMap.put (s1.die d).ventSt t { st with hold := rest, count := st.count + 1 } }) d h false

/-- The oldest contribution held is applied and acknowledged; while more are expected RINST stays. -/
theorem ventContributionApply_applies {s1 : State} {h : Nat × List Word × BitVec 256} {rest : List (Nat × List Word × BitVec 256)}
    (hcount : (FMap.get VentSt.init (s.die d).ventSt t).count + 1 < vtNexp (FMap.get 0 (s.die d).vent t))
    (hoper : vtOper (FMap.get 0 (s.die d).vent t) ≠ 3) (hhold : (FMap.get VentSt.init (s.die d).ventSt t).hold = h :: rest)
    (happly : ventApply s d t (FMap.get 0 (s.die d).vent t) h.2.1 = .ok s1)
    (ha : (contribApplied s1 d t (FMap.get VentSt.init (s.die d).ventSt t) rest h.2.2).absent = none) :
    exec (.ventContributionApply d t) s = .next (contribApplied s1 d t (FMap.get VentSt.init (s.die d).ventSt t) rest h.2.2) := by
  show execVentContributionApply d t s = _
  unfold execVentContributionApply
  rw [if_neg (not_not.mpr hready)]
  dsimp only
  rw [if_neg (by omega), if_neg hoper, hhold]
  dsimp only
  rw [happly]
  dsimp only
  rw [List.foldl_cons, List.foldl_nil, if_neg (by omega)]
  exact finish_next ha

end

theorem ventGroupUpdate_updates {s : State} {k j g d : Nat} {destroy : Bool} {w : Word} (hk : s.grpUpd[k]? = some (j, g, destroy, w))
    (hd : localDie s j = some d) : exec (.ventGroupUpdate k) s =
      .next (State.setDie { s with grpUpd := s.grpUpd.eraseIdx k } d { s.die d with
        groups := if destroy then FMap.erase (s.die d).groups g else FMap.put (s.die d).groups g w }) := by
  have hd' : localDie { s with grpUpd := s.grpUpd.eraseIdx k } j = some d := hd
  show execVentGroupUpdate k s = _
  unfold execVentGroupUpdate
  rw [hk]
  dsimp only
  rw [hd']
  rfl

end Sys2Proof.Machine
end

