-- ==== Sys2Proof/Proofs/Conversions.lean ====
section
/-! LAW. Relayouts and reshards start, convert their tiles one by one, and complete (R208 to R216, R402). -/
namespace Sys2Proof.Machine
open Sys2Proof.Claims

/-! ### Records and slots (R208, R211, R212, R215) -/

/-- The state from which the pieces of c are given out: the shards' locks are new, the slots name the conversion. -/
def convOpened (s : State) (c : Conv) (reshard : Bool) (upd : BitVec 2048 → BitVec 2048) : State :=
  startConv (updSlots (dropLocks s c.ctx (dWord c.img 15) false reshard) (tlbCarder c.die) c.ctx (dWord c.img 15) upd) c.id

/-- The machine after the relayout's end has reached the slots, the conversion and its locks gone (R211). -/
def relayoutEnded (s : State) (k : Nat) (c : Conv) : State :=
  let s3 := updSlots s (tlbCarder c.die) c.ctx (dWord c.img 15) fun d => if dRly d then relayEnd d else d
  dropLocks { s3 with convs := s3.convs.eraseIdx k } c.ctx (dWord c.img 15) false false

/-- The words of the record that the planner writes, word 0 last. -/
def planWords : List Nat := [11, 12] ++ (List.range 8).map (24 + ·) ++ [0]

/-- The words of the record that the end of a reshard writes, word 0 last. -/
def reshardWords : List Nat := [8, 9, 10, 11, 12] ++ (List.range 16).map (16 + ·) ++ [0]

/-- The machine after the reshard's end has reached the slots, its locks gone and a relayout of the same tensor with it (R215). -/
def reshardEnded (s : State) (c : Conv) : State :=
  let s3 := updSlots s (tlbCarder c.die) c.ctx (dWord c.img 15) fun d => if dRsh d then reshEnd d else d
  dropLocks { s3 with convs := s3.convs.filter fun x => !(x.id == c.id) && !(x.ctx == c.ctx && dWord x.img 15 == dWord c.img 15 && !x.reshard) }
    c.ctx (dWord c.img 15) true true

section
variable {s s1 s2 : State} {k : Nat} {c : Conv} (hk : s.convs[k]? = some c)
include hk

section
variable (hkind : c.reshard = false) (hfree : engFrozen s c.die 50 = false)
include hkind hfree

theorem relayoutStart_opens (hnew : c.started = false) (hrec : writeRec s (tlbCarder c.die) c c.img [0, 9] = (s1, none))
    (hmap : zeroBmap s1 (tlbCarder c.die) c (dWord c.img 13) (convShards c) (convTiles c) = (s2, none))
    (ha : (convOpened s2 c false (relayUpd c.img)).absent = none) :
    exec (.relayoutStart k) s = .next (convOpened s2 c false (relayUpd c.img)) := by
  show execRelayoutStart k s = _
  unfold execRelayoutStart
  rw [hk]
  dsimp only
  rw [if_neg (by simp [hkind, hnew, hfree]), hrec]
  dsimp only
  rw [hmap]
  exact finish_next ha

section
variable (hdone : convDone c = true) (hout : recordOut s c = false)
include hdone hout

/-- The relayout writes its record once the die's earlier writes are performed (R211, R236). -/
theorem relayoutComplete_writes (hrec : c.written = false) (hrel : relOpen s c.die (relKeyConv c.id) = true)
    (hw : writeRec (relDone s c.die (relKeyConv c.id)) (tlbCarder c.die) c (relayEnd c.img) [8, 9, 0] = (s1, none))
    (ha : (recWritten s1 c.id).absent = none) : exec (.relayoutComplete k) s = .next (recWritten s1 c.id) := by
  show execRelayoutComplete k s = _
  unfold execRelayoutComplete
  rw [hk]
  dsimp only
  rw [if_neg (by simp [hkind, hdone, hfree, hout]), if_neg (ne_true_of_eq_false hrec), if_neg (not_not.mpr hrel), hw]
  exact finish_next ha

theorem relayoutComplete_ends (hrec : c.written = true) (ha : (relayoutEnded s k c).absent = none) :
    exec (.relayoutComplete k) s = .next (relayoutEnded s k c) := by
  show execRelayoutComplete k s = _
  unfold execRelayoutComplete
  rw [hk]
  dsimp only
  rw [if_neg (by simp [hkind, hdone, hfree, hout]), if_pos hrec]
  exact finish_next ha

end

end

section
variable (hkind : c.reshard = true) (hfree : engFrozen s c.die 62 = false)
include hkind hfree

/-- The planner reads the map at the reshard's VA and plans by the record's image (log 114). -/
theorem reshardPlan_opens (hnew : c.started = false)
    (hother : ∀ x ∈ s.convs, x.written = true → ¬ (x.ctx = c.ctx ∧ dWord x.img 15 = dWord c.img 15))
    (hheld : vaHeld s (tlbCarder c.die) c.ctx c.mapva 64 (mService s c) = false) {m : Nat} {r0 : State}
    (hread : vaRead s (tlbCarder c.die) c.ctx c.mapva 64 (mService s c) = .ok (m, r0))
    (hrec : writeRec r0 (tlbCarder c.die) c c.img planWords = (s1, none))
    (hmap : zeroBmap s1 (tlbCarder c.die) c (dWord c.img 14) (convShards c) (convTiles c) = (s2, none))
    (ha : (convOpened s2 c true (reshUpd c.img)).absent = none) : exec (.reshardPlan k) s = .next (convOpened s2 c true (reshUpd c.img)) := by
  have hending : (s.convs.any fun x => x.written && x.ctx == c.ctx && dWord x.img 15 == dWord c.img 15) = false := by
    simpa [List.any_eq_false] using hother
  unfold planWords at hrec
  show execReshardPlan k s = _
  unfold execReshardPlan
  rw [hk]
  dsimp only
  rw [if_neg (by simp [hkind, hnew, hfree, hending]), if_neg (ne_true_of_eq_false hheld), hread]
  dsimp only
  rw [hrec]
  dsimp only
  rw [hmap]
  exact finish_next ha

section
variable (hdone : convDone c = true) (hout : recordOut s c = false)
include hdone hout

theorem reshardComplete_writes (hrec : c.written = false) (hrel : relOpen s c.die (relKeyConv c.id) = true)
    (hw : writeRec (relDone s c.die (relKeyConv c.id)) (tlbCarder c.die) c (reshEnd c.img) reshardWords = (s1, none))
    (ha : (recWritten s1 c.id).absent = none) : exec (.reshardComplete k) s = .next (recWritten s1 c.id) := by
  unfold reshardWords at hw
  show execReshardComplete k s = _
  unfold execReshardComplete
  rw [hk]
  dsimp only
  rw [if_neg (by simp [hkind, hdone, hfree, hout]), if_neg (ne_true_of_eq_false hrec), if_neg (not_not.mpr hrel), hw]
  exact finish_next ha

theorem reshardComplete_ends (hrec : c.written = true) (ha : (reshardEnded s c).absent = none) :
    exec (.reshardComplete k) s = .next (reshardEnded s c) := by
  show execReshardComplete k s = _
  unfold execReshardComplete
  rw [hk]
  dsimp only
  rw [if_neg (by simp [hkind, hdone, hfree, hout]), if_pos hrec]
  exact finish_next ha

end

end

end

/-! ### Tiles (R209, R213, R214) -/

/-- s with tile t of shard p busy, which holds accesses back until the tile is done. -/
def withBusyTile (s : State) (c : Conv) (p t : Nat) : State :=
  setLock s c p fun l => { l with busy := if l.busy.contains t then l.busy else l.busy ++ [t] }

/-- The byte where an element stands, in a shard that begins at `base` under a map and a tag. -/
def elemByte (c : Conv) (base : Nat) (m : BitVec 512) (tag : Nat) (u : List Nat) : Nat :=
  base + posBits (slotFmt c.img) (elemIdx c.img m tag u) / 8

/-- A relayout copies the elements of a tile, one by one, from the old place of shard p to its new one. -/
def copyTile (s : State) (d : Nat) (c : Conv) (p : Nat) (us : List (List Nat)) : Except (MFault × Bool) State :=
  us.foldlM (fun s u => copyElem s (tlbCarder d) c.ctx (slotFmt c.img) (dWord c.img 8 + p * dWord c.img 10)
    (elemIdx c.img (dMap c.img) (dTag c.img) u) (dWord c.img 9 + p * dWord c.img 10) (elemIdx c.img (dMap c.img) (dPtag c.img) u)) s

/-- A reshard writes the elements of a tile and their copies in halos; none while one must wait. -/
def putTile (s : State) (d : Nat) (c : Conv) (all : List (Nat × List Nat)) : Option (Except (MFault × Bool) State) :=
  all.foldl (fun (acc : Option (Except (MFault × Bool) State)) x => match acc with
    | some (.ok s) => putNew s (tlbVent d) c x.1 x.2 | x => x) (some (.ok s))

section
variable {s s2 s3 : State} {d e p t : Nat} {c : Conv}

/-- A Carder engine copies its tile whole once nobody uses it, and sets its bit (R209). -/
theorem tileConvert_converts (hpiece : pieceFor s d e false = some (c, p, t)) (hfree : engFrozen s d (50 + e) = false) {us : List (List Nat)}
    (hus : tileCoords c.img (dMap c.img) t = us)
    (huse : tileInUse (withBusyTile s c p t) c.ctx (us.map (elemByte c (dWord c.img 8 + p * dWord c.img 10) (dMap c.img) (dTag c.img))) = false)
    (hheld : tileHeld (withBusyTile s c p t) (tlbCarder d) c.ctx
      (us.map (elemByte c (dWord c.img 8 + p * dWord c.img 10) (dMap c.img) (dTag c.img)))
      (us.map (elemByte c (dWord c.img 9 + p * dWord c.img 10) (dMap c.img) (dPtag c.img))) = false)
    (hcopy : copyTile (withBusyTile s c p t) d c p us = .ok s2)
    (hbit : setBmap s2 (tlbCarder d) c (dWord c.img 13) p (convTiles c) t = .ok s3) (ha : (pieceDone s3 c p t).absent = none) :
    exec (.tileConvert d e) s = .next (pieceDone s3 c p t) := by
  subst hus
  have hgo : ¬ (_ = true ∨ _ = true) := not_or.mpr ⟨ne_true_of_eq_false huse, ne_true_of_eq_false hheld⟩
  unfold copyTile withBusyTile at hcopy
  show execTileConvert d e s = _
  unfold execTileConvert
  rw [hpiece]
  dsimp only
  rw [if_neg (ne_true_of_eq_false hfree)]
  refine (if_neg hgo).trans ?_
  rw [hcopy]
  dsimp only [Bind.bind, Except.bind]
  rw [hbit]
  exact finish_next ha

/-- A Vent engine writes its tile of a reshard, halo copies with it, and sets its bit (R213, R214). -/
theorem reshardPiece_writes (hpiece : pieceFor s d e true = some (c, p, t)) (hfree : engFrozen s d (54 + e) = false)
    (hplan : engFrozen s c.die 62 = false ∨ pieceBusy s c p t = true) {us : List (List Nat)} {all : List (Nat × List Nat)} {old : List Nat}
    (hus : tileCoords c.img (dNmap c.img) t = us) (hall : (us.flatMap fun u => (p, u) :: haloCopies c.img p u) = all)
    (hold : us.flatMap (oldAddrs (withBusyTile s c p t) c p) = old)
    (huse : tileInUse (withBusyTile s c p t) c.ctx
      (all.map (fun x => elemByte c (dWord c.img 11 + x.1 * dWord c.img 12) (dNmap c.img) (newTag c.img) x.2) ++ old) = false)
    (hheld : tileHeld (withBusyTile s c p t) (tlbVent d) c.ctx old
      (all.map fun x => elemByte c (dWord c.img 11 + x.1 * dWord c.img 12) (dNmap c.img) (newTag c.img) x.2) = false)
    (hstop : c.stop.contains (p, t) = false) (hput : putTile (withBusyTile s c p t) d c all = some (.ok s2))
    (hbit : setBmap s2 (tlbVent d) c (dWord c.img 14) p (convTiles c) t = .ok s3) (ha : (pieceDone s3 c p t).absent = none) :
    exec (.reshardPiece d e) s = .next (pieceDone s3 c p t) := by
  subst hus hall hold
  have hgiven : ¬ (engFrozen s d (54 + e) = true ∨ (engFrozen s c.die 62 = true ∧ ¬ pieceBusy s c p t = true) ∨ c.stop.contains (p, t) = true) := by
    refine not_or.mpr ⟨ne_true_of_eq_false hfree, not_or.mpr ⟨fun ⟨hfrozen, hidle⟩ => ?_, ne_true_of_eq_false hstop⟩⟩
    exact hplan.elim (fun h => ne_true_of_eq_false h hfrozen) hidle
  have hgo : ¬ (_ = true ∨ _ = true) := not_or.mpr ⟨ne_true_of_eq_false huse, ne_true_of_eq_false hheld⟩
  show execReshardPiece d e s = _
  unfold execReshardPiece
  rw [hpiece]
  dsimp only
  rw [if_neg hgiven]
  refine (if_neg hgo).trans ?_
  generalize hr : (List.foldl _ _ _ : Option (Except (MFault × Bool) State)) = r
  obtain rfl : r = some (.ok s2) := hr.symm.trans hput
  dsimp only
  rw [hbit]
  exact finish_next ha

end

end Sys2Proof.Machine
end

