-- ==== Sys2Proof/Proofs/EngineEvents.lean ====
section
/-! LAW. Accesses are performed at their homes, races freeze queues, Shuttle commands start and complete; with them the Carder and the Vent (R218 to
R220, R243, R251, R376 to R380, R389). -/
namespace Sys2Proof.Machine
open Sys2Proof.Claims

theorem accessPerformedAtHome_performs {s : State} {x : Xact} (hid : x.id < 2 ^ 64) (hx : (s.xacts.find? fun y => y.id == x.id) = some x)
    (hmay : mayPerform s x = true) (ha : (performX s x).absent = none) : exec (.accessPerformedAtHome x.id) s = .next (performX s x) := by
  show execAccessPerformedAtHome x.id s = _
  unfold execAccessPerformedAtHome
  rw [if_neg (by omega), hx]
  dsimp only
  rw [if_pos hmay]
  exact finish_next ha

/-- A race found on an access of a queue freezes the queue (R251). -/
theorem sinterTrapFreeze_queue {s : State} {k q : Nat} {r : BitVec 512} (hk : s.races[k]? = some (4, q, r)) (hq : q < 64) :
    exec (.sinterTrapFreeze k) s = .next (State.setQueue { s with races := s.races.eraseIdx k } q { s.queue q with frozen := true }) := by
  show execSinterTrapFreeze k s = _
  unfold execSinterTrapFreeze
  rw [hk]
  dsimp only [sinterFreeze]
  rw [Nat.mod_eq_of_lt hq]
  rfl

/-! ### Shuttle commands (R376 to R380) -/

section
variable {s : State} {i : Nat} {x : ShCmd} (hi : i % 64 ≠ 48)
include hi

theorem shuttleCommandStart_starts (hx : cmdToStart s i = some x) (ha : (startCmd s i x).absent = none) :
    exec (.shuttleCommandStart i) s = .next (startCmd s i x) := by
  show execShuttleCommandStart i s = _
  unfold execShuttleCommandStart
  rw [if_neg hi, hx]
  exact finish_next ha

/-- The master of a command's completion record. -/
def recordMaster (s : State) (i : Nat) (x : ShCmd) : MasterT := mUser.by 1 (chanMid s i x.ch) (s.dieBase + i / 64) (x.id.setWidth 64)

section
variable {ch : Nat} {id : BitVec 32} (hx : getCmd s i ch id = some x) (hready : cmdReady s i x = true)
  (hrel : cmdScope x = 0 ∨ relOpen s (i / 64) (relKeySh i ch id) = true)
include hx hready hrel

/-- Without a record to write, or with it written, the command leaves its channel. -/
theorem shuttleCommandComplete_retires (hrec : cmdCrec x = 0 ∨ x.recOut = true) :
    exec (.shuttleCommandComplete i ch id) s = .next (retireCmd (relDone s (i / 64) (relKeySh i ch id)) i x) := by
  show execShuttleCommandComplete i ch id s = _
  unfold execShuttleCommandComplete
  rw [if_neg hi, hx]
  dsimp only
  rw [if_neg (not_not.mpr hready), if_neg (fun ⟨hscope, hwait⟩ => hrel.elim hscope hwait), if_pos hrec]

/-- Otherwise the record is written first; the command stays while requests of the record to other dies are on their way (R378). -/
theorem shuttleCommandComplete_records {s1 : State} {y : ShCmd} (hcrec : cmdCrec x ≠ 0) (hout : x.recOut = false)
    (hheld : walkHeld (relDone s (i / 64) (relKeySh i ch id)) i x.ctx (cmdCrec x) = false)
    (hheld31 : walkHeld (relDone s (i / 64) (relKeySh i ch id)) i x.ctx (cmdCrec x + 31) = false)
    (hput : recordPut (relDone s (i / 64) (relKeySh i ch id)) i x (recordMaster (relDone s (i / 64) (relKeySh i ch id)) i x) = (s1, none))
    (hy : getCmd s1 i ch id = some y) :
    exec (.shuttleCommandComplete i ch id) s = finish (if y.recOut = true ∧ y.unacked ≠ 0 then s1 else retireCmd s1 i y) := by
  unfold recordMaster at hput
  show execShuttleCommandComplete i ch id s = _
  unfold execShuttleCommandComplete
  rw [if_neg hi, hx]
  dsimp only
  rw [if_neg (not_not.mpr hready), if_neg (fun ⟨hscope, hwait⟩ => hrel.elim hscope hwait), if_neg (by simp [hcrec, hout]),
    if_neg (by simp [hheld, hheld31]), hput]
  dsimp only
  rw [hy]

end

end

/-- Settles O14: each event by its one lemma; a fire by what sending leaves of the Vent. -/
theorem engineEvents : Obligations.EngineEvents := by
  refine ⟨fun s x => accessPerformedAtHome_performs, fun s k q r => sinterTrapFreeze_queue, ?conversions, ?tiles, ?shuttle, ?fires, ?receive, ?apply,
    fun s k j g d destroy w => ventGroupUpdate_updates⟩
  case conversions =>
    intro s s1 s2 k c hk dva t
    exact ⟨fun hkind hnew hfree hrec hmap => relayoutStart_opens hk hkind hfree hnew hrec hmap,
      fun hkind hdone hfree hout => relayoutComplete_writes hk hkind hfree hdone hout,
      fun hkind hdone hfree hout => relayoutComplete_ends hk hkind hfree hdone hout,
      fun hkind hnew hfree hother hheld m r0 hread => reshardPlan_opens hk hkind hfree hnew hother hheld hread,
      fun hkind hdone hfree hout => reshardComplete_writes hk hkind hfree hdone hout,
      fun hkind hdone hfree hout => reshardComplete_ends hk hkind hfree hdone hout⟩
  case tiles =>
    exact fun s s2 s3 d e p t c => ⟨fun hpiece hfree => tileConvert_converts hpiece hfree rfl,
      fun hpiece hfree hplan => reshardPiece_writes hpiece hfree hplan rfl rfl rfl⟩
  case shuttle =>
    refine fun s i x hi => ⟨shuttleCommandStart_starts hi, fun ch id hx hready hrel => ⟨shuttleCommandComplete_retires hi hx hready hrel,
      fun hcrec hout hheld hheld31 s1 y hput hy => ⟨fun hrec hacks ha => ?_, fun hlast ha => ?_⟩⟩⟩
    · rw [shuttleCommandComplete_records hi hx hready hrel hcrec hout hheld hheld31 hput hy, if_pos ⟨hrec, hacks⟩]
      exact finish_next ha
    · have hleaves : ¬ (y.recOut = true ∧ y.unacked ≠ 0) := fun ⟨hrec, hacks⟩ => hlast.elim (fun h => ne_true_of_eq_false h hrec) hacks
      rw [shuttleCommandComplete_records hi hx hready hrel hcrec hout hheld hheld31 hput hy, if_neg hleaves]
      exact finish_next ha
  case fires =>
    rintro s d t f hone rfl e
    exact ⟨ventFire_invalid hone, fun ph hv hready hfree hph hopen hsend => ventFire_sends hone rfl hv hready hfree hph hopen hsend⟩
  case receive =>
    exact fun s d k t i data h hin hmoves => ⟨ventContributionReceive_holds hin hmoves, ventContributionReceive_parks hin hmoves⟩
  case apply =>
    exact fun s d t hready => ⟨ventContributionApply_finishes hready, fun h rest s1 => ventContributionApply_applies hready⟩

end Sys2Proof.Machine
end

