-- ==== Sys2Proof/Proofs/CheckpointOnly.lean ====
section
/-! LAW. Fences, slotld and channel bindings away from a checkpoint bundle are ILLEGAL_OP SUB 2 (R229 to R232, R317, R374). -/
namespace Sys2Proof.Machine
open Sys2Proof.Claims

/-- A body whose legality condition fails stops there, whatever it would do next (R287). -/
theorem need_bind_illegal {α : Type} {cu : Cursor} {b : Bool} (h : b = false) (rest : Unit → LM α) : (need cu b >>= rest) = illegal cu 2 := by
  subst h
  rfl

/-- A lane operation that also acts outside its core: the predicate holds and the body meets a trap. -/
theorem laneStepS_trap {s : State} {pr : BitVec 6} {body : Cursor → Core → LM State} {t : Trap} (hp : Acts s pr)
    (hb : body s.cur (here s) = .error (.trap t)) : laneStepS s pr body = traps s t := by
  have hp' : stagePred (s.core s.cur.core) pr = some true := hp
  have hb' : body s.cur (s.core s.cur.core) = .error (.trap t) := hb
  simp only [laneStepS, hp', hb']
  rfl

/-! ### Each body names the checkpoint bundle in its legality condition -/

section
variable {cu : Cursor} (c : Core) (hck : cu.ckpt = false)
include hck

theorem fenceBody_illegal (f : MX) : fenceBody f cu c = illegal cu 2 := need_bind_illegal (by simp [hck]) _

theorem fencexBody_illegal (f : MX) : fencexBody f cu c = illegal cu 2 := need_bind_illegal (by simp [hck]) _

theorem flushBody_illegal (f : MX) : flushBody f cu c = illegal cu 2 := need_bind_illegal (by simp [hck]) _

theorem cbindBody_illegal (f : MX) : cbindBody f cu c = illegal cu 2 := need_bind_illegal (by simp [hck]) _

theorem cunbindBody_illegal (f : MX) : cunbindBody f cu c = illegal cu 2 := need_bind_illegal (by simp [hck]) _

theorem slotldBody_illegal (f : SC) (s : State) : slotldBody f s cu c = illegal cu 2 := need_bind_illegal (by simp [hck]) _

end

/-- Settles O57: each body is illegal there, and the gate turns that into the trap. -/
theorem checkpointOnly : Obligations.CheckpointOnly := by
  refine fun s hck => ⟨fun f hp op hop => ?_, fun f hp => laneStepS_trap hp (slotldBody_illegal _ hck f s)⟩
  simp only [List.mem_cons, List.not_mem_nil, or_false] at hop
  obtain rfl | rfl | rfl | rfl | rfl := hop
  · exact laneStep_trap hp (fenceBody_illegal _ hck f)
  · exact laneStep_trap hp (fencexBody_illegal _ hck f)
  · exact laneStep_trap hp (flushBody_illegal _ hck f)
  · exact laneStep_trap hp (cbindBody_illegal _ hck f)
  · exact laneStep_trap hp (cunbindBody_illegal _ hck f)

end Sys2Proof.Machine
end

