-- ==== Sys2Proof/Proofs/ConversionsAndQuantisation.lean ====
section
/-! LAW. Conversions and quantisation: what each body answers on legal fields, and what its operation leaves (R257 to R259, R320, R328 to R332). -/
namespace Sys2Proof.Machine
open Sys2Proof.Claims

/-! ### The three ways to deliver results -/

/-- A body that ends as an element-wise operation gives element-wise results under EP (R319). -/
theorem laneStep_finishVF {s : State} {pr : BitVec 6} {body : Cursor → Core → LM Core} {c : Core} {dst : BitVec 7} {ws nf : BitVec 1} {ep : BitVec 4}
    {lat w : Nat} {r : Nat → Nat × FlagBits} (hp : Acts s pr) (hb : body s.cur (here s) = finishVF dst ws nf ep lat w r s.cur c) :
    vecDone s dst ws nf ep lat w r c (laneStep s pr body) := by
  intro c' hd
  have hd' : writeV s.cur dst ws lat w (buildV w fun i => (r i).1) (spread w (epMask c ep)) c = .ok c' := hd
  refine laneStep_leaves hp (hb.trans ?_)
  simp only [finishVF, hd', LM_bind_ok]
  rfl

/-- A body that ends as a widening gives k registers, flags at the source's place (R320). -/
theorem laneStep_finishWiden {s : State} {f : VR} {body : Cursor → Core → LM Core} {c : Core} {wsrc wd k : Nat} {r : Nat → Nat × FlagBits}
    (hp : Acts s f.pr) (hb : body s.cur (here s) = finishWiden f.dst f.ws f.nf f.ep wsrc wd k true r s.cur c) :
    widened s f wsrc wd k r c (laneStep s f.pr body) := by
  intro c' hd
  have hd' : writeVs s.cur f.dst f.ws 3 ((List.range k).map fun j => (buildV wd (fun t => (r (t * k + j)).1),
      buildV wd (fun t => if (epMask c f.ep).getLsbD (t * k + j) then 2 ^ wd - 1 else 0))) c = .ok c' := hd
  refine laneStep_leaves hp (hb.trans ?_)
  simp only [finishWiden, hd', LM_bind_ok, if_true]
  rfl

/-- What a narrowing by ws / wd does with its results: one register under EP, flags at the place of the source element (R320). -/
def finishNarrow (f : VR) (ws wd : Nat) (r : Nat → Nat × FlagBits) (cu : Cursor) (c : Core) : LM Core := do
  let c ← writeV cu f.dst f.ws 3 wd (buildV wd fun i => (r i).1) (spread wd (epMask c f.ep)) c
  .ok (emitFlags cu 3 f.nf (narrowFlags c f.ep ws wd (ws / wd) fun i => (r i).2) c)

theorem laneStep_finishNarrow {s : State} {f : VR} {body : Cursor → Core → LM Core} {c c' : Core} {ws wd : Nat} {r : Nat → Nat × FlagBits}
    (hp : Acts s f.pr) (hb : body s.cur (here s) = finishNarrow f ws wd r s.cur c)
    (hd : DstV s f.dst f.ws 3 wd (buildV wd fun i => (r i).1) (spread wd (epMask c f.ep)) c c') :
    laneStep s f.pr body = leaves s (flagged s 3 f.nf (narrowed c' f.ep ws wd r) c') := by
  have hd' : writeV s.cur f.dst f.ws 3 wd (buildV wd fun i => (r i).1) (spread wd (epMask c f.ep)) c = .ok c' := hd
  refine laneStep_leaves hp (hb.trans ?_)
  simp only [finishNarrow, hd', LM_bind_ok]
  rfl

/-! ### Each body on legal fields -/

section
variable {f : VR} {cu : Cursor} {c c1 c2 : Core} {a b : VWord} {l : List VWord}

theorem vecCvt_ok (hpair : cvtPair (f.sb.toNat % 16) f.ty.toNat = true) (hfn : f.fn.toNat ≤ 1)
    (hf : convFieldsOk (f.sb.toNat % 16) f.ty.toNat (f.sb.toNat / 16) (f.fn = 1) false f.nf = true) (ha : resolveV cu f.sa c = .ok (a, c1)) :
    vecCvt f cu c = finishVF f.dst f.ws f.nf f.ep 3 (tyWidth f.ty.toNat) (fun i => convElem (f.sb.toNat % 16) f.ty.toNat
      (RMode.ofCode (f.sb.toNat / 16)) (f.fn = 1) false (el (tyWidth f.ty.toNat) a i)) cu c1 := by
  unfold vecCvt
  simp only [need_ok, hpair, hfn, hf, decide_true, Bool.and_self, ha, LM_bind_ok]
  rfl

theorem vecWiden_ok (hpair : widenPair (f.sb.toNat % 16) f.ty.toNat = true) (hrm : f.sb.toNat < 16) (hfn : f.fn = 0)
    (hnf : f.sb.toNat % 16 ≤ 5 → f.ty.toNat ≤ 5 → f.nf = 0) (ha : resolveV cu f.sa c = .ok (a, c1)) :
    let ws := tyWidth (f.sb.toNat % 16)
    let wd := tyWidth f.ty.toNat
    vecWiden f cu c = finishWiden f.dst f.ws f.nf f.ep ws wd (wd / ws) true
      (fun i => convElem (f.sb.toNat % 16) f.ty.toNat .rne false false (el ws a i)) cu c1 := by
  have hint : (!(tyIsInt (f.sb.toNat % 16) && tyIsInt f.ty.toNat) || f.nf = 0) = true := by
    by_cases hi : f.sb.toNat % 16 ≤ 5 ∧ f.ty.toNat ≤ 5
    · simp [hnf hi.1 hi.2]
    · have hni : (tyIsInt (f.sb.toNat % 16) && tyIsInt f.ty.toNat) = false := by simpa [tyIsInt] using hi
      simp [hni]
  unfold vecWiden
  simp only [need_ok, hpair, hrm, hfn, hint, decide_true, Bool.and_self, ha, LM_bind_ok]
  rfl

/-- Element i of a narrowing: by a draw under RM 4, else converted (R329). -/
def narrowElem (f : VR) (l : List VWord) (x : VWord) (i : Nat) : Nat × FlagBits :=
  let ws := tyWidth (f.sb.toNat % 16)
  let e := narrowSrc ws (ws / tyWidth f.ty.toNat) l i
  if f.sb.toNat / 16 = 4 then srBf16 e ((dgen (drawKey x) (drawBase x + BitVec.ofNat 64 i)).toNat % 65536)
  else convElem (f.sb.toNat % 16) f.ty.toNat (RMode.ofCode (f.sb.toNat / 16)) (f.fn = 1) true e

theorem vecNarrow_ok (hpair : narrowPair (f.sb.toNat % 16) f.ty.toNat = true) (hfn : f.fn.toNat ≤ 1)
    (hf : convFieldsOk (f.sb.toNat % 16) f.ty.toNat (f.sb.toNat / 16) (f.fn = 1) true f.nf = true)
    (hl : readVs cu f.sa (tyWidth (f.sb.toNat % 16) / tyWidth f.ty.toNat) c = .ok l) :
    vecNarrow f cu c = finishNarrow f (tyWidth (f.sb.toNat % 16)) (tyWidth f.ty.toNat) (narrowElem f l (drawParams c)) cu c := by
  unfold vecNarrow
  simp only [need_ok, hpair, hfn, hf, decide_true, Bool.and_self, hl, LM_bind_ok]
  rfl

theorem vecVq8_ok (hty : f.ty = 15) (hfn : f.fn.toNat ≤ 1) (hl : readVs cu f.sa 4 c = .ok l) (hb : resolveV cu f.sb c = .ok (b, c1)) :
    vecVq8 f cu c =
      finishNarrow f 32 8 (fun i => q8Encode (narrowSrc 32 4 l i) (codeTable c1 f.fn.toNat) (b.toNat % 2 ^ 32)) cu c1 := by
  unfold vecVq8
  simp only [need_ok, hty, hfn, decide_true, Bool.and_self, hl, hb, LM_bind_ok]
  rfl

theorem vecVdq8_ok (hty : f.ty = 6) (hfn : f.fn.toNat ≤ 1) (ha : resolveV cu f.sa c = .ok (a, c1)) (hb : resolveV cu f.sb c1 = .ok (b, c2)) :
    vecVdq8 f cu c =
      finishWiden f.dst f.ws f.nf f.ep 8 32 4 true (fun i => q8Decode (el 8 a i) (codeTable c2 f.fn.toNat) (b.toNat % 2 ^ 32)) cu c2 := by
  unfold vecVdq8
  simp only [need_ok, hty, hfn, decide_true, Bool.and_self, ha, hb, LM_bind_ok]
  rfl

/-- The 32 blocks of mxq from registers l: a scale, and 32 elements with their flags (R257, R332). -/
def mxqBlocks (t rm : Nat) (l : List VWord) : List (Nat × List (Nat × FlagBits)) :=
  (List.range 32).map fun b => mxEncode (RMode.ofCode rm)
    ((List.range 32).map fun j => (tyFmt t).decode (narrowSrc (tyFmt t).width ((tyFmt t).width / 4) l (32 * b + j)))
/-- Element i of those blocks. -/
def mxqElem (blocks : List (Nat × List (Nat × FlagBits))) (i : Nat) : Nat × FlagBits := ((blocks.getD (i / 32) (0, [])).2).getD (i % 32) (0, 0)

theorem vecMxq_ok (hty : f.ty = 12) (h6 : 6 ≤ f.sb.toNat % 16) (h8 : f.sb.toNat % 16 ≤ 8) (hrm : f.sb.toNat / 16 ≤ 3) (hfn : f.fn = 0)
    (hep : f.ep = 0) :
    let w := (tyFmt (f.sb.toNat % 16)).width
    let blocks := mxqBlocks (f.sb.toNat % 16) (f.sb.toNat / 16) l
    readVs cu f.sa (w / 4) c = .ok l →
    writeVs cu f.dst f.ws 3 [(buildV 4 fun i => (mxqElem blocks i).1, -1), (buildV 8 fun b => if b < 32 then (blocks.getD b (0, [])).1 else 0, -1)] c
      = .ok c1 →
    vecMxq f cu c = .ok (emitFlags cu 3 f.nf ((List.range 1024).map fun i => (i / (w / 4) * w / 32, (mxqElem blocks i).2)) c1) := by
  intro w blocks hl hd
  have hs : [6, 7, 8].contains (f.sb.toNat % 16) = true := by
    simp only [List.contains_eq_mem, List.mem_cons, List.not_mem_nil, or_false, decide_eq_true_eq]
    omega
  simp only [blocks, mxqElem, mxqBlocks] at hd
  unfold vecMxq
  simp only [need_ok, hty, hs, hrm, hfn, hep, decide_true, Bool.and_self, hl, w, LM_bind_ok, hd]
  rfl

theorem vecWide_ok (mul : Bool) (hpair : (f.fn.toNat, f.ty.toNat) ∈ [(0, 2), (1, 3), (2, 4), (3, 5), (7, 6), (8, 6)]) (hnf : f.fn.toNat < 6 → f.nf = 0)
    (ha : resolveV cu f.sa c = .ok (a, c1)) (hb : resolveV cu f.sb c1 = .ok (b, c2)) :
    let w := tyWidth f.fn.toNat
    vecWide f mul cu c = finishWiden f.dst f.ws f.nf f.ep w (2 * w) 2 true (fun i => wideElem f.fn.toNat mul (el w a i) (el w b i)) cu c2 := by
  have hn : ([(0, 2), (1, 3), (2, 4), (3, 5), (7, 6), (8, 6)].contains (f.fn.toNat, f.ty.toNat) && (decide (6 ≤ f.fn.toNat) || f.nf = 0)) = true := by
    simp only [List.contains_eq_mem, hpair, decide_true, Bool.true_and, Bool.or_eq_true, decide_eq_true_eq]
    exact or_iff_not_imp_left.mpr fun h => hnf (Nat.lt_of_not_le h)
  unfold vecWide
  simp only [need_ok hn, ha, hb, LM_bind_ok, tyIsInt, decide_eq_true_eq]
  rfl

end

/-- Settles O42: each body comes to one of the three deliveries, or for mxq to two registers written together. -/
theorem conversionsAndQuantisation : Obligations.ConversionsAndQuantisation := by
  refine ⟨fun f s hp => ⟨fun a c1 ha => ⟨fun hpair hfn hf => ?_, fun hpair hrm hfn hnf => ?_⟩, fun hpair hfn hf l hl c2 hd => ?_⟩,
    fun f s hp => ⟨fun hty hfn l b c1 hl hb c2 hd => ?_, fun hty hfn a b c1 c2 ha hb => ?_, fun hty h6 h8 hrm hfn hep l hl c2 hd => ?_,
      fun hpair hnf a b c1 c2 ha hb => ⟨?_, ?_⟩⟩⟩
  · exact laneStep_finishVF hp (vecCvt_ok hpair hfn hf ha)
  · exact laneStep_finishWiden hp (vecWiden_ok hpair hrm hfn hnf ha)
  · exact laneStep_finishNarrow hp (vecNarrow_ok hpair hfn hf hl) hd
  · exact laneStep_finishNarrow hp (vecVq8_ok hty hfn hl hb) hd
  · exact laneStep_finishWiden hp (vecVdq8_ok hty hfn ha hb)
  · exact laneStep_leaves hp (vecMxq_ok hty h6 h8 hrm hfn hep hl hd)
  · exact laneStep_finishWiden hp (vecWide_ok false hpair hnf ha hb)
  · exact laneStep_finishWiden hp (vecWide_ok true hpair hnf ha hb)

end Sys2Proof.Machine
end

