-- ==== Sys2Proof/Proofs/Encodings.lean ====
section
/-! LAW. Words and instructions: every operation is written with its opcode and PR, and decodes from what it is written as (R84, R280, Tables 4.1,
4.3, 12.1 to 12.5). -/
namespace Sys2Proof
open Sys2Proof.Machine Sys2Proof.Claims

/-! ### PR follows the opcode (R280) -/

theorem SR.bits_pr (op : BitVec 8) (f : SR) : (SR.bits op f).extractLsb' 8 6 = f.pr := congrArg SR.pr (SR.ofBits_bits op f)
theorem SI.bits_pr (op : BitVec 8) (f : SI) : (SI.bits op f).extractLsb' 8 6 = f.pr := congrArg SI.pr (SI.ofBits_bits op f)
theorem SL.bits_pr (op : BitVec 8) (f : SL) : (SL.bits op f).extractLsb' 8 6 = f.pr := congrArg SL.pr (SL.ofBits_bits op f)
theorem SC.bits_pr (op : BitVec 8) (f : SC) : (SC.bits op f).extractLsb' 8 6 = f.pr := congrArg SC.pr (SC.ofBits_bits op f)
theorem VR.bits_pr (op : BitVec 7) (f : VR) : (VR.bits op f).extractLsb' 7 6 = f.pr := congrArg VR.pr (VR.ofBits_bits op f)
theorem VT.bits_pr (op : BitVec 7) (f : VT) : (VT.bits op f).extractLsb' 7 6 = f.pr := congrArg VT.pr (VT.ofBits_bits op f)
theorem VA.bits_pr (op : BitVec 7) (f : VA) : (VA.bits op f).extractLsb' 7 6 = f.pr := congrArg VA.pr (VA.ofBits_bits op f)
theorem FA.bits_pr (op : BitVec 5) (f : FA) : (FA.bits op f).extractLsb' 5 6 = f.pr := congrArg FA.pr (FA.ofBits_bits op f)
theorem FD.bits_pr (op : BitVec 5) (f : FD) : (FD.bits op f).extractLsb' 5 6 = f.pr := congrArg FD.pr (FD.ofBits_bits op f)
theorem MA.bits_pr (op : BitVec 7) (f : MA) : (MA.bits op f).extractLsb' 7 6 = f.pr := congrArg MA.pr (MA.ofBits_bits op f)
theorem MX.bits_pr (op : BitVec 7) (f : MX) : (MX.bits op f).extractLsb' 7 6 = f.pr := congrArg MX.pr (MX.ofBits_bits op f)
theorem XP.bits_pr (op : BitVec 4) (f : XP) : (XP.bits op f).extractLsb' 4 6 = f.pr := congrArg XP.pr (XP.ofBits_bits op f)
theorem XT.bits_pr (op : BitVec 4) (f : XT) : (XT.bits op f).extractLsb' 4 6 = f.pr := congrArg XT.pr (XT.ofBits_bits op f)
theorem XS.bits_pr (op : BitVec 4) (f : XS) : (XS.bits op f).extractLsb' 4 6 = f.pr := congrArg XS.pr (XS.ofBits_bits op f)

/-! ### Decoding what is written -/

/-- A decoder that reads its opcode as an operation of a form gives the operation back from the form's bits. -/
theorem decode_bits {n k : Nat} {F : Type} {bits : BitVec k → F → BitVec n} {ofBits : BitVec n → F} {decode : BitVec n → Option Instr}
    {op : BitVec k} {mk : F → Instr} (hop : ∀ op f, (bits op f).extractLsb' 0 k = op) (hof : ∀ op f, ofBits (bits op f) = f)
    (h : ∀ w, w.extractLsb' 0 k = op → decode w = some (mk (ofBits w))) (f : F) : decode (bits op f) = some (mk f) := by
  rw [h _ (hop op f), hof]

/-- mscale is the operation of the side that bit 0 of its argument names (R345). -/
theorem decodeX_mscale (f : XS) : decodeX (XS.bits 2 f) = some (if f.arg.getLsbD 0 then .mscaleB f else .mscaleA f) := by
  have hside : (XS.bits 2 f).getLsbD 16 = f.arg.getLsbD 0 := by
    have harg := congrArg (fun g : XS => g.arg.getLsbD 0) (XS.ofBits_bits 2 f)
    simpa [XS.ofBits] using harg
  rw [decodeX, decodeXLane, XS.bits_op, hside, XS.ofBits_bits]
  rfl

theorem decodeEnc_packet {op : BitVec 6} {f : Pkt} {i : Instr}
    (h : ∀ u : Word, u.extractLsb' 0 6 = op → u.extractLsb' 24 8 = f.fn → Pkt.ofUnits u f.ext = f → decodeCmd u f.ext = .ok i) :
    decodeEnc (.cmd (Pkt.header op f :: f.ext)) = some i := by
  rw [decodeEnc, h _ (Pkt.header_op op f) (Pkt.header_fn op f) (Pkt.ofUnits_header op f)]

theorem wf_fn {f : Pkt} {k : BitVec 8} (h : (pktOk f && f.fn == k) = true) : f.fn = k :=
  beq_iff_eq.mp (Bool.and_eq_true_iff.mp h).2

/-- Settles O43, operation by operation. -/
theorem decodeOfEncode : Obligations.DecodeOfEncode := by
  intro i hwf hwords
  cases i with
  | add f | sub f | and f | or f | xor f | andn f | shl f | shr f | sra f | rotl f | min f | max f | minu f | maxu f | mov f | mul f | mulh f
  | mulhu f | div f | divu f | rem f | remu f | clz f | ctz f | popc f | sext f | zext f | sel f | abs f | neg f | bswap f | cmp f | cmpu f | fcmp f
  | fadd f | fsub f | fmul f | fdiv f | fmin f | fmax f | fsqrt f | fabs f | fneg f | fcvt f | fcvti f | icvtf f | fclass f | gand f | gor f | gxor f
  | gandn f | gset f =>
    refine decode_bits (decode := decodeS0) SR.bits_op SR.ofBits_bits (fun w hop => ?_) f
    rw [decodeS0, decodeSCommon, hop]
    rfl
  | addi f | subi f | andi f | ori f | xori f | andni f | shli f | shri f | srai f | rotli f | mini f | maxi f | minui f | maxui f | cmpi f | csrr f
  | csrw f | csrs f | csrc f =>
    refine decode_bits (decode := decodeS0) SI.bits_op SI.ofBits_bits (fun w hop => ?_) f
    rw [decodeS0, decodeSCommon, hop]
    rfl
  | li f | lis f =>
    refine decode_bits (decode := decodeS0) SL.bits_op SL.ofBits_bits (fun w hop => ?_) f
    rw [decodeS0, decodeSCommon, hop]
    rfl
  | br f | call f | ret f | loop f | rloop f | lbreak f | spawn f | join f | exit f | exitab f | trap f | uiret f | slotld f =>
    refine decode_bits (decode := decodeS0) SC.bits_op SC.ofBits_bits (fun w hop => ?_) f
    rw [decodeS0, decodeSCommon, decodeS0Only, hop]
    rfl
  | vAdd f | vSub f | vAnd f | vOr f | vXor f | vAndn f | vShl f | vShr f | vSra f | vMin f | vMax f | vMinu f | vMaxu f | vMul f | vMulh f | vAdds f
  | vSubs f | vAddsu f | vSubsu f | vAbs f | vNeg f | vClz f | vPopc f | vMov f | vBcast f | vSel f | vAddi f | vSubi f | vAndi f | vOri f | vXori f
  | vAndni f | vShli f | vShri f | vSrai f | vMini f | vMaxi f | vMulli f | vAddF f | vSubF f | vMulF f | vMinF f | vMaxF f | vAbsF f | vNegF f
  | vCmp f | vCmpu f | vFcmp f | vCmpi f | pand f | por f | pxor f | pandn f | pset f | pfirst f | pcount f | cvt f | widen f | narrow f | vq8 f
  | vdq8 f | mxq f | wadd f | wmul f | zip f | unzip f | slide f | vRot f | splat f | vIns f | vExt f | compress f | expand f | rev f | rsum f
  | rmax f | rmin f | rmaxu f | rminu f | rand f | ror f | rargmax f =>
    refine decode_bits (decode := decodeV2) VR.bits_op VR.ofBits_bits (fun w hop => ?_) f
    rw [decodeV2, decodeVCommon, hop]
    rfl
  | vFmaF32 f | vFmaF16 f | vFmaBf16 f | vFmsF32 f | vFmsF16 f | vFmsBf16 f | perm f =>
    refine decode_bits (decode := decodeV2) VT.bits_op VT.ofBits_bits (fun w hop => ?_) f
    rw [decodeV2, decodeVCommon, hop]
    rfl
  | ard f | awr f | aadd f | amax f | ascl f =>
    refine decode_bits (decode := decodeV2) VA.bits_op VA.ofBits_bits (fun w hop => ?_) f
    rw [decodeV2, decodeVCommon, decodeV2Only, hop]
    rfl
  | vrsqs f | vrcps f | vexp2 f | vlog2 f | vlse f | vtanh f | vsigm f | vsqrt f =>
    refine decode_bits (decode := decodeF) FA.bits_op FA.ofBits_bits (fun w hop => ?_) f
    rw [decodeF, decodeFLane, hop]
    rfl
  | vdrawF32 f | vdrawF16 f | vdrawBf16 f | vdrawm f =>
    refine decode_bits (decode := decodeF) FD.bits_op FD.ofBits_bits (fun w hop => ?_) f
    rw [decodeF, decodeFLane, hop]
    rfl
  | ldI8 f | ldI16 f | ldI32 f | ldI64 f | ldN8 f | ldN16 f | ldN32 f | stB8 f | stB16 f | stB32 f | stB64 f | vld f | vst f | vldb f | ldacq f =>
    refine decode_bits (decode := decodeM) MA.bits_op MA.ofBits_bits (fun w hop => ?_) f
    rw [decodeM, decodeMLane, hop]
    rfl
  | vldx f | vstx f | gather f | scatter f | tld f | tst f | dld f | devict f | relay f | reshard f | dget f | tfcfg f | strel f | sbind f | sunbind f
  | spos f | cbind f | cunbind f | sfill f | copy f | fill f | acc f | accr f | sigw f | chdone f | ventset f | ventrdy f | ventgrp f | fence f
  | fencex f | flush f | collmode f =>
    refine decode_bits (decode := decodeM) MX.bits_op MX.ofBits_bits (fun w hop => ?_) f
    rw [decodeM, decodeMLane, hop]
    rfl
  | mpush f =>
    refine decode_bits (decode := decodeX) XP.bits_op XP.ofBits_bits (fun w hop => ?_) f
    rw [decodeX, decodeXLane, hop]
    rfl
  | macc f | mshift f | mdrain f | mzero f =>
    refine decode_bits (decode := decodeX) XT.bits_op XT.ofBits_bits (fun w hop => ?_) f
    rw [decodeX, decodeXLane, hop]
    rfl
  | mcfg f =>
    refine decode_bits (decode := decodeX) XS.bits_op XS.ofBits_bits (fun w hop => ?_) f
    rw [decodeX, decodeXLane, hop]
    rfl
  | mscaleA f =>
    have hside : f.arg.getLsbD 0 = false := by simpa using (Bool.and_eq_true_iff.mp hwf).2
    exact (decodeX_mscale f).trans (by rw [hside]; rfl)
  | mscaleB f =>
    have hside : f.arg.getLsbD 0 = true := (Bool.and_eq_true_iff.mp hwf).2
    exact (decodeX_mscale f).trans (by rw [hside]; rfl)
  | cmdNop f | cmdLi f | cmdLih f | cmdAdd f | cmdSub f | cmdAnd f | cmdOr f | cmdXor f | cmdShl f | cmdShr f | cmdSra f | cmdMin f | cmdMax f
  | cmdAddi f | cmdSubi f | cmdAndi f | cmdOri f | cmdXori f | cmdShli f | cmdShri f | cmdSrai f | cmdMini f | cmdMaxi f | cmdLd f | cmdSt f
  | cmdBeq f | cmdBne f | cmdBlt f | cmdBge f | cmdBltu f | cmdBgeu f | cmdJmp f | cmdCall f | cmdRet f | cmdLoop f | cmdSigSet f | cmdSigAdd f
  | cmdSigSub f | cmdSigMax f | cmdSigMin f | cmdGtcwait f | cmdOnabt f | cmdAbort f | cmdLaunch f | cmdLaunchN f | cmdCopy f | cmdFill f
  | cmdShootdn f | cmdNotify f | cmdSlotld f | cmdRdgtc f | cmdFlush f =>
    refine decodeEnc_packet fun u hop hfn hof => ?_
    rw [wf_fn hwf] at hfn
    unfold decodeCmd
    rw [hop, hfn, hof]
    rfl
  | cmdWaitAll f =>
    have h4 : f.fn.toNat < 4 := of_decide_eq_true (Bool.and_eq_true_iff.mp hwf).2
    refine decodeEnc_packet fun u hop hfn hof => ?_
    unfold decodeCmd
    rw [hop, hfn, hof]
    exact if_pos h4
  | cmdWaitAny f =>
    obtain ⟨h, h8⟩ := Bool.and_eq_true_iff.mp hwf
    have h4 : 4 ≤ f.fn.toNat := of_decide_eq_true (Bool.and_eq_true_iff.mp h).2
    refine decodeEnc_packet fun u hop hfn hof => ?_
    unfold decodeCmd
    rw [hop, hfn, hof]
    exact (if_neg (Nat.not_lt.mpr h4)).trans (if_pos (of_decide_eq_true h8))
  | emptySlot => rfl
  | _ => exact absurd rfl hwords

/-! ### Opcode and PR (R280) -/

/-- Every lane operation is written with PR above its opcode. -/
theorem everyLaneOp_prOf : EveryLaneOp PrOf := by
  refine ⟨?SR, ?SI, ?SL, ?SC, ?VR, ?VT, ?VA, ?FA, ?FD, ?MA, ?MX, ?XP, ?XT, ?XS⟩
  all_goals
    simp only [allSR, allSI, allSL, allSC, allVR, allVT, allVA, allFA, allFD, allMA, allMX, allXP, allXT, allXS, List.forall_mem_cons,
      List.not_mem_nil, false_imp_iff, implies_true, and_true]
  case SR => and_intros <;> exact fun f => SR.bits_pr _ f
  case SI => and_intros <;> exact fun f => SI.bits_pr _ f
  case SL => and_intros <;> exact fun f => SL.bits_pr _ f
  case SC => and_intros <;> exact fun f => SC.bits_pr _ f
  case VR => and_intros <;> exact fun f => VR.bits_pr _ f
  case VT => and_intros <;> exact fun f => VT.bits_pr _ f
  case VA => and_intros <;> exact fun f => VA.bits_pr _ f
  case FA => and_intros <;> exact fun f => FA.bits_pr _ f
  case FD => and_intros <;> exact fun f => FD.bits_pr _ f
  case MA => and_intros <;> exact fun f => MA.bits_pr _ f
  case MX => and_intros <;> exact fun f => MX.bits_pr _ f
  case XP => exact fun f => XP.bits_pr _ f
  case XT => and_intros <;> exact fun f => XT.bits_pr _ f
  case XS => and_intros <;> exact fun f => XS.bits_pr _ f

/-- Every lane operation is written with its opcode of Table 12.5 in the lowest bits. -/
theorem everyOpcode : EveryOpcode := by
  refine ⟨?SR, ?SI, ?SL, ?SC, ?VR, ?VT, ?VA, ?FA, ?FD, ?MA, ?MX, ?XP, ?XT, ?XS, rfl⟩
  all_goals
    simp only [allSR, allSI, allSL, allSC, allVR, allVT, allVA, allFA, allFD, allMA, allMX, allXP, allXT, allXS, opSR, opSI, opSC, opVR, opMX, codes,
      List.range, List.range.loop, List.map_cons, List.map_nil, List.cons_append, List.nil_append, List.zip_cons_cons, List.zip_nil_left,
      List.forall_mem_cons, List.not_mem_nil, false_imp_iff, implies_true, and_true]
  case SR => and_intros <;> exact fun f => congrArg BitVec.toNat (SR.bits_op _ f)
  case SI => and_intros <;> exact fun f => congrArg BitVec.toNat (SI.bits_op _ f)
  case SL => and_intros <;> exact fun f => congrArg BitVec.toNat (SL.bits_op _ f)
  case SC => and_intros <;> exact fun f => congrArg BitVec.toNat (SC.bits_op _ f)
  case VR => and_intros <;> exact fun f => congrArg BitVec.toNat (VR.bits_op _ f)
  case VT => and_intros <;> exact fun f => congrArg BitVec.toNat (VT.bits_op _ f)
  case VA => and_intros <;> exact fun f => congrArg BitVec.toNat (VA.bits_op _ f)
  case FA => and_intros <;> exact fun f => congrArg BitVec.toNat (FA.bits_op _ f)
  case FD => and_intros <;> exact fun f => congrArg BitVec.toNat (FD.bits_op _ f)
  case MA => and_intros <;> exact fun f => congrArg BitVec.toNat (MA.bits_op _ f)
  case MX => and_intros <;> exact fun f => congrArg BitVec.toNat (MX.bits_op _ f)
  case XP => exact fun f => congrArg BitVec.toNat (XP.bits_op _ f)
  case XT => and_intros <;> exact fun f => congrArg BitVec.toNat (XT.bits_op _ f)
  case XS => and_intros <;> exact fun f => congrArg BitVec.toNat (XS.bits_op _ f)

/-- Bit 5 of PR says whether it names a stage predicate. -/
theorem pr_bit5 (pr : BitVec 6) : pr.getLsbD 5 = decide (32 ≤ pr.toNat) := by
  rw [← BitVec.msb_eq_getLsbD_last, BitVec.msb_eq_decide]

/-- Settles O48: opcode and PR by the bits of each form, the meaning of PR by the range it lies in. -/
theorem stagePredicateField : Obligations.StagePredicateField := by
  refine ⟨everyOpcode, everyLaneOp_prOf, fun c pr => ⟨fun h0 => if_pos h0, fun h5 => ?_, fun h0 h5 => ?_⟩⟩
  · rw [pr_bit5, decide_eq_true_eq] at h5
    have h0 : pr ≠ 0 := fun h => absurd (h ▸ h5) (by decide)
    have hg : (pr.setWidth 5).toNat = pr.toNat - 32 := by
      rw [BitVec.toNat_setWidth]
      omega
    rw [stagePred, if_neg h0, if_pos h5, hg]
    rfl
  · rw [pr_bit5, decide_eq_false_iff_not] at h5
    rw [stagePred, if_neg h0, if_neg h5]

/-- Settles O47, word by word. -/
theorem decodedWords : Obligations.DecodedWords := by
  refine ⟨rfl, rfl, rfl, rfl, rfl, rfl, rfl, rfl, rfl, rfl⟩

end Sys2Proof
end

