-- ==== Sys2Proof/Proofs/ScalarResults.lean ====
section
/-! LAW. What scalar integer operations, constants, compares and stage-predicate logic leave on legal operands (R295 to R299, R301). -/
namespace Sys2Proof.Machine
open Sys2Proof.Claims

/-! ### Each operation by its shared body -/

theorem exec_scalarOps2 : ∀ e ∈ scalarOps2, ∀ (f : SR) (s : State), exec (e.1 f) s = laneStep s f.pr (scalar2 f e.2.1 e.2.2) := by
  simp only [scalarOps2, List.forall_mem_cons, List.not_mem_nil, false_imp_iff, implies_true, and_true]
  and_intros <;> exact fun f s => rfl

theorem exec_scalarOps1 : ∀ e ∈ scalarOps1, ∀ (f : SR) (s : State), exec (e.1 f) s = laneStep s f.pr (scalar1 f 1 e.2) := by
  simp only [scalarOps1, List.forall_mem_cons, List.not_mem_nil, false_imp_iff, implies_true, and_true]
  and_intros <;> exact fun f s => rfl

/-- Which immediates an operation takes: a shift count, or any (R297). -/
def immLegal (shift : Bool) : BitVec 11 → Bool := if shift then shImm else anyImm

theorem exec_scalarOpsI : ∀ e ∈ scalarOpsI, ∀ (f : SI) (s : State), exec (e.1 f) s = laneStep s f.pr (scalarI f (immLegal e.2.1) e.2.2) := by
  simp only [scalarOpsI, List.forall_mem_cons, List.not_mem_nil, false_imp_iff, implies_true, and_true]
  and_intros <;> exact fun f s => rfl

theorem exec_gOps : ∀ e ∈ gOps, ∀ (f : SR) (s : State), exec (e.1 f) s = laneStep s f.pr (gLogic f e.2) := by
  simp only [gOps, List.forall_mem_cons, List.not_mem_nil, false_imp_iff, implies_true, and_true]
  and_intros <;> exact fun f s => rfl

/-! ### Each body on legal fields -/

section
variable {f : SR} {cu : Cursor} {c c1 c2 c3 : Core} {a b : Word}

theorem scalar2_ok {lat : Nat} {op : Word → Word → Word} (hnf : f.nf = 0) (hfn : f.fn = 0) (ha : resolveS cu f.sa c = .ok (a, c1))
    (hb : resolveS cu f.sb c1 = .ok (b, c2)) : scalar2 f lat op cu c = writeS cu f.dst f.ws lat (op a b) c2 := by
  simp only [scalar2, need_ok, hnf, hfn, decide_true, Bool.and_self, ha, hb, LM_bind_ok]

theorem scalar1_ok {lat : Nat} {op : Word → Word} (hnf : f.nf = 0) (hfn : f.fn = 0) (hsb : f.sb = 0) (ha : resolveS cu f.sa c = .ok (a, c1)) :
    scalar1 f lat op cu c = writeS cu f.dst f.ws lat (op a) c1 := by
  simp only [scalar1, need_ok, hnf, hfn, hsb, decide_true, Bool.and_self, ha, LM_bind_ok]

theorem scalarExt_ok {op : Nat → Word → Word} (hnf : f.nf = 0) (hsb : f.sb = 0) (hfn : f.fn.toNat ≤ 2) (ha : resolveS cu f.sa c = .ok (a, c1)) :
    scalarExt f op cu c = writeS cu f.dst f.ws 1 (op (8 * 2 ^ f.fn.toNat) a) c1 := by
  simp only [scalarExt, need_ok, hnf, hfn, hsb, decide_true, Bool.and_self, ha, LM_bind_ok]

theorem scalarSel_ok (hnf : f.nf = 0) (ha : resolveS cu f.sa c = .ok (a, c1)) (hb : resolveS cu f.sb c1 = .ok (b, c2)) :
    scalarSel f cu c = writeS cu f.dst f.ws 1 (if readG c2 f.fn.toNat then a else b) c2 := by
  simp only [scalarSel, need_ok, hnf, decide_true, ha, hb, LM_bind_ok]

/-- The model's integer conditions are those of Table 13.1. -/
theorem intCond_eq_icond {k : Nat} (h : k ≤ 5) (x y : Int) : intCond k x y = icond k x y := by
  have hk : k = 0 ∨ k = 1 ∨ k = 2 ∨ k = 3 ∨ k = 4 ∨ k = 5 := by omega
  rcases hk with rfl | rfl | rfl | rfl | rfl | rfl <;> simp [intCond, icond, bne, Bool.beq_eq_decide_eq]

theorem scalarCmp_ok (signed : Bool) (hnf : f.nf = 0) (hdst : f.dst.toNat < 32) (hfn : f.fn.toNat ≤ 5) (ha : resolveS cu f.sa c = .ok (a, c1))
    (hb : resolveS cu f.sb c1 = .ok (b, c2)) :
    scalarCmp f signed cu c =
      .ok (writeG cu f.dst.toNat f.ws 1 (if signed then icond f.fn.toNat a.toInt b.toInt else icond f.fn.toNat a.toNat b.toNat) c2) := by
  simp only [scalarCmp, need_ok, hnf, hdst, hfn, decide_true, Bool.and_self, ha, hb, LM_bind_ok, intCond_eq_icond hfn]

theorem gSource_ok {code : BitVec 7} {x : Bool} (h : gVal c code = some x) : gSource cu code c = .ok x := by
  unfold gVal at h
  unfold gSource
  split_ifs at h ⊢ <;> simp_all

theorem gLogic_ok {op : Bool → Bool → Bool} {x y : Bool} (hnf : f.nf = 0) (hfn : f.fn = 0) (hdst : f.dst.toNat < 32) (hx : gVal c f.sa = some x)
    (hy : gVal c f.sb = some y) : gLogic f op cu c = .ok (writeG cu f.dst.toNat f.ws 1 (op x y) c) := by
  simp only [gLogic, need_ok, hnf, hfn, hdst, decide_true, Bool.and_self, gSource_ok hx, gSource_ok hy, LM_bind_ok]

theorem gSet_ok (hnf : f.nf = 0) (hfn : f.fn = 0) (hsb : f.sb = 0) (hdst : f.dst.toNat < 32) (ha : resolveS cu f.sa c = .ok (a, c1)) :
    gSet f cu c = .ok (writeG cu f.dst.toNat f.ws 1 (a.getLsbD 0) c1) := by
  simp only [gSet, need_ok, hnf, hfn, hsb, hdst, decide_true, Bool.and_self, ha, LM_bind_ok]

end

section
variable {f : SI} {cu : Cursor} {c c1 : Core} {a : Word}

theorem scalarI_ok {shift : Bool} {op : Word → Word → Word} (himm : shift = true → f.imm.toNat < 64) (ha : resolveS cu f.sa c = .ok (a, c1)) :
    scalarI f (immLegal shift) op cu c = writeS cu f.dst f.ws 1 (op a (f.imm.signExtend 64)) c1 := by
  have hn : immLegal shift f.imm = true := by
    cases shift with
    | false => rfl
    | true => exact decide_eq_true (himm rfl)
  simp only [scalarI, need_ok hn, ha, LM_bind_ok]

theorem scalarCmpi_ok (hdst : f.dst.toNat < 32) (hcond : (f.imm.extractLsb' 8 3).toNat ≤ 5) (ha : resolveS cu f.sa c = .ok (a, c1)) :
    scalarCmpi f cu c =
      .ok (writeG cu f.dst.toNat f.ws 1 (icond (f.imm.extractLsb' 8 3).toNat a.toInt (f.imm.setWidth 8).toInt) c1) := by
  simp only [scalarCmpi, need_ok, hdst, hcond, decide_true, Bool.and_self, ha, LM_bind_ok, intCond_eq_icond hcond]

end

theorem scalarLis_ok {f : SL} (cu : Cursor) (c : Core) (hdst : f.dst.toNat ≤ 63) :
    scalarLis f cu c = writeS cu f.dst f.ws 1 ((readS c f.dst.toNat <<< 18) ||| f.imm.setWidth 64) c := by
  simp only [scalarLis, need_ok (decide_eq_true hdst), LM_bind_ok]

/-- Settles O15: each operation by the body it shares, each body by the one result it writes. -/
theorem scalarIntegerResults : Obligations.ScalarIntegerResults := by
  refine ⟨fun e he f s a b c1 c2 c3 hp hnf hfn ha hb hd => ?_, ⟨fun e he f s a c1 c2 hp hnf hfn hsb ha hd => ?_,
    fun f s a c1 c2 hp hnf hsb hfn ha => ⟨fun hd => ?_, fun hd => ?_⟩, fun f s a b c1 c2 c3 hp hnf ha hb hd => ?_⟩,
    fun e he f s a c1 c2 hp himm ha hd => ?_, fun f s c1 hp => ⟨fun hd => ?_, fun hdst hd => ?_⟩⟩
  · rw [exec_scalarOps2 e he]
    exact laneStep_leaves hp ((scalar2_ok hnf hfn ha hb).trans hd)
  · rw [exec_scalarOps1 e he]
    exact laneStep_leaves hp ((scalar1_ok hnf hfn hsb ha).trans hd)
  · exact laneStep_leaves hp ((scalarExt_ok hnf hsb hfn ha).trans hd)
  · exact laneStep_leaves hp ((scalarExt_ok hnf hsb hfn ha).trans hd)
  · exact laneStep_leaves hp ((scalarSel_ok hnf ha hb).trans hd)
  · rw [exec_scalarOpsI e he]
    exact laneStep_leaves hp ((scalarI_ok himm ha).trans hd)
  · exact laneStep_leaves hp hd
  · exact laneStep_leaves hp ((scalarLis_ok s.cur (here s) hdst).trans hd)

/-- Settles O16: each body writes its one stage predicate. -/
theorem scalarPredicateResults : Obligations.ScalarPredicateResults := by
  refine ⟨fun f s a b c1 c2 hp hnf hdst hfn ha hb => ⟨?_, ?_⟩, fun f s a c1 hp hdst hcond ha => ?_,
    fun e he f s x y hp hnf hfn hdst hx hy => ?_, fun f s a c1 hp hnf hfn hsb hdst ha => ?_⟩
  · exact laneStep_leaves hp (scalarCmp_ok true hnf hdst hfn ha hb)
  · exact laneStep_leaves hp (scalarCmp_ok false hnf hdst hfn ha hb)
  · exact laneStep_leaves hp (scalarCmpi_ok hdst hcond ha)
  · rw [exec_gOps e he]
    exact laneStep_leaves hp (gLogic_ok hnf hfn hdst hx hy)
  · exact laneStep_leaves hp (gSet_ok hnf hfn hsb hdst ha)

end Sys2Proof.Machine
end

