-- ==== Sys2Proof/Proofs/ScalarFloatResults.lean ====
section
/-! LAW. Scalar floats: arithmetic, compares, conversions, and the class of a value (R300, R302 to R304). -/
namespace Sys2Proof.Machine
open Sys2Proof.Claims

/-! ### Each operation by its shared body -/

theorem exec_floatOps2 : ∀ e ∈ floatOps2, ∀ (f : SR) (s : State), exec (e.1 f) s = laneStep s f.pr (scalarF2 f e.2) := by
  simp only [floatOps2, List.forall_mem_cons, List.not_mem_nil, false_imp_iff, implies_true, and_true]
  and_intros <;> exact fun f s => rfl

theorem exec_floatOps1 : ∀ e ∈ floatOps1, ∀ (f : SR) (s : State), exec (e.1 f) s = laneStep s f.pr (scalarF1 f e.2) := by
  simp only [floatOps1, List.forall_mem_cons, List.not_mem_nil, false_imp_iff, implies_true, and_true]
  and_intros <;> exact fun f s => rfl

/-! ### Each body on legal fields (R300, R302, R303) -/

/-- A body that ends as a scalar float operation gives a value with its flags at position 0. -/
theorem laneStep_finishF {s : State} {f : SR} {body : Cursor → Core → LM Core} {c : Core} {r : Nat × FlagBits} (hp : Acts s f.pr)
    (hb : body s.cur (here s) = finishF f r s.cur c) : floatDone s f r c (laneStep s f.pr body) := by
  intro c' hd
  have hd' : writeS s.cur f.dst f.ws 4 (BitVec.ofNat 64 r.1) c = .ok c' := hd
  refine laneStep_leaves hp (hb.trans ?_)
  simp only [finishF, hd', LM_bind_ok]
  rfl

theorem intRange_eq_intBounds {t : Nat} (h : t ≤ 3) : intRange t = intBounds t := by
  have ht : t = 0 ∨ t = 1 ∨ t = 2 ∨ t = 3 := by omega
  rcases ht with rfl | rfl | rfl | rfl <;> rfl

section
variable {f : SR} {cu : Cursor} {c c1 c2 : Core} {a b : Word}

theorem scalarF2_ok {op : FFmt → Nat → Nat → Nat × FlagBits} (hfn : f.fn.toNat ≤ 2) (ha : resolveS cu f.sa c = .ok (a, c1))
    (hb : resolveS cu f.sb c1 = .ok (b, c2)) :
    scalarF2 f op cu c = finishF f (op (fmtOfCode f.fn.toNat) (lowBits (fmtOfCode f.fn.toNat) a) (lowBits (fmtOfCode f.fn.toNat) b)) cu c2 := by
  simp only [scalarF2, need_ok, hfn, decide_true, ha, hb, LM_bind_ok]

theorem scalarF1_ok {op : FFmt → Nat → Nat × FlagBits} (hfn : f.fn.toNat ≤ 2) (hsb : f.sb = 0) (ha : resolveS cu f.sa c = .ok (a, c1)) :
    scalarF1 f op cu c = finishF f (op (fmtOfCode f.fn.toNat) (lowBits (fmtOfCode f.fn.toNat) a)) cu c1 := by
  simp only [scalarF1, need_ok, hfn, hsb, decide_true, Bool.and_self, ha, LM_bind_ok]

theorem scalarFcmp_ok (ht : f.dst.toNat / 32 ≤ 2) (ha : resolveS cu f.sa c = .ok (a, c1)) (hb : resolveS cu f.sb c1 = .ok (b, c2)) :
    let t := fmtOfCode (f.dst.toNat / 32)
    let r := fcmpCond t f.fn.toNat (lowBits t a) (lowBits t b)
    scalarFcmp f cu c = .ok (emitFlags cu 4 f.nf [(0, r.2)] (writeG cu (f.dst.toNat % 32) f.ws 4 r.1 c2)) := by
  simp only [scalarFcmp, need_ok, ht, decide_true, ha, hb, LM_bind_ok]

section
variable (hfn : f.fn.toNat ≤ 2) (hsb : f.sb.toNat < 32) (hrm : f.sb.toNat / 4 ≤ 3)
include hfn hsb hrm

/-- The second type and the rounding mode stand in SB (R303). -/
theorem cvtFields_ok {t2max : Nat} (ht : f.sb.toNat % 4 ≤ t2max) :
    cvtFields cu f t2max = .ok (f.sb.toNat % 4, RMode.ofCode (f.sb.toNat / 4)) := by
  have h8 : f.sb.toNat / 4 % 8 = f.sb.toNat / 4 := Nat.mod_eq_of_lt (by omega)
  simp only [cvtFields, need_ok, hfn, ht, h8, hrm, hsb, decide_true, Bool.and_self, LM_bind_ok]

theorem scalarFcvt_ok (ht : f.sb.toNat % 4 ≤ 2) (ha : resolveS cu f.sa c = .ok (a, c1)) :
    let u := fmtOfCode (f.sb.toNat % 4)
    let r := round (fmtOfCode f.fn.toNat) (RMode.ofCode (f.sb.toNat / 4)) false (u.decode (lowBits u a))
    scalarFcvt f cu c = finishF f (r.1, r.2 ||| u.snanFlag (lowBits u a)) cu c1 := by
  simp only [scalarFcvt, cvtFields_ok hfn hsb hrm ht, ha, LM_bind_ok]

theorem scalarFcvti_ok (ha : resolveS cu f.sa c = .ok (a, c1)) :
    let t := fmtOfCode f.fn.toNat
    let r := toIntRange (RMode.ofCode (f.sb.toNat / 4)) (intBounds (f.sb.toNat % 4)).1 (intBounds (f.sb.toNat % 4)).2 (t.decode (lowBits t a))
    scalarFcvti f cu c = finishF f (wrapN 64 r.1, r.2) cu c1 := by
  have ht : f.sb.toNat % 4 ≤ 3 := by omega
  simp only [scalarFcvti, cvtFields_ok hfn hsb hrm ht, ha, LM_bind_ok, intRange_eq_intBounds ht]

theorem scalarIcvtf_ok (ha : resolveS cu f.sa c = .ok (a, c1)) :
    scalarIcvtf f cu c =
      finishF f (round (fmtOfCode f.fn.toNat) (RMode.ofCode (f.sb.toNat / 4)) false (.ofInt (intRead (f.sb.toNat % 4) a))) cu c1 := by
  have ht : f.sb.toNat % 4 ≤ 3 := by omega
  have hcases : f.sb.toNat % 4 = 0 ∨ f.sb.toNat % 4 = 1 ∨ f.sb.toNat % 4 = 2 ∨ f.sb.toNat % 4 = 3 := by omega
  simp only [scalarIcvtf, cvtFields_ok hfn hsb hrm ht, ha, LM_bind_ok]
  rcases hcases with h | h | h | h <;> rw [h] <;> rfl

end

theorem scalarFclass_ok (hfn : f.fn.toNat ≤ 2) (hsb : f.sb = 0) (hnf : f.nf = 0) (ha : resolveS cu f.sa c = .ok (a, c1)) :
    scalarFclass f cu c =
      writeS cu f.dst f.ws 4 (BitVec.ofNat 64 (fclass (fmtOfCode f.fn.toNat) (lowBits (fmtOfCode f.fn.toNat) a))) c1 := by
  simp only [scalarFclass, need_ok, hfn, hsb, hnf, decide_true, Bool.and_self, ha, LM_bind_ok]

end

/-- Settles O17: each body by the value and flags it delivers. -/
theorem scalarFloatAndConversionResults : Obligations.ScalarFloatAndConversionResults := by
  refine ⟨⟨fun e he f s a b c1 c2 hp hfn ha hb => ?_, fun e he f s a c1 hp hfn hsb ha => ?_, fun f s a b c1 c2 hp ht ha hb => ?_⟩,
    fun f s a c1 hp hfn hsb hrm ha => ⟨fun ht => ?_, ?_, ?_⟩⟩
  · rw [exec_floatOps2 e he]
    exact laneStep_finishF hp (scalarF2_ok hfn ha hb)
  · rw [exec_floatOps1 e he]
    exact laneStep_finishF hp (scalarF1_ok hfn hsb ha)
  · exact laneStep_leaves hp (scalarFcmp_ok ht ha hb)
  · exact laneStep_finishF hp (scalarFcvt_ok hfn hsb hrm ht ha)
  · exact laneStep_finishF hp (scalarFcvti_ok hfn hsb hrm ha)
  · exact laneStep_finishF hp (scalarIcvtf_ok hfn hsb hrm ha)

/-! ### Classes (R304) -/

section
variable {f : FFmt} {x : Nat}

theorem decode_inf (hinf : f.hasInf = true) (he : x / 2 ^ f.mb % 2 ^ f.eb = 2 ^ f.eb - 1) (hm : x % 2 ^ f.mb = 0) :
    f.decode x = .inf (x / 2 ^ (f.eb + f.mb) % 2 = 1) := by
  simp only [FFmt.decode, hinf, he, hm, and_self, if_true]

theorem decode_nan (hinf : f.hasInf = true) (he : x / 2 ^ f.mb % 2 ^ f.eb = 2 ^ f.eb - 1) (hm : x % 2 ^ f.mb ≠ 0) : f.decode x = .nan := by
  simp only [FFmt.decode, hinf, he, hm, and_self, if_true, if_false]

theorem decode_subnormal (heb : 1 ≤ f.eb) (hinf : f.hasInf = true) (he : x / 2 ^ f.mb % 2 ^ f.eb = 0) :
    f.decode x = .fin (x / 2 ^ (f.eb + f.mb) % 2 = 1) (x % 2 ^ f.mb) (f.emin - f.mb) := by
  have htop : ¬ 0 = 2 ^ f.eb - 1 := by
    have := Nat.one_lt_two_pow (n := f.eb) (by omega)
    omega
  simp [FFmt.decode, hinf, he, htop]

theorem decode_normal (hinf : f.hasInf = true) (he0 : x / 2 ^ f.mb % 2 ^ f.eb ≠ 0) (he1 : x / 2 ^ f.mb % 2 ^ f.eb ≠ 2 ^ f.eb - 1) :
    f.decode x = .fin (x / 2 ^ (f.eb + f.mb) % 2 = 1) (2 ^ f.mb + x % 2 ^ f.mb) (((x / 2 ^ f.mb % 2 ^ f.eb : Nat) : Int) - f.bias - f.mb) := by
  simp [FFmt.decode, hinf, he0, he1]

end

/-- A NaN signals when the top bit of its fraction is 0. -/
theorem top_fraction_bit {mb : Nat} (hmb : 1 ≤ mb) (x : Nat) : x / 2 ^ (mb - 1) % 2 = 0 ↔ x % 2 ^ mb < 2 ^ (mb - 1) := by
  obtain ⟨k, rfl⟩ : ∃ k, mb = k + 1 := ⟨mb - 1, by omega⟩
  rw [Nat.add_sub_cancel, ← Nat.mod_mul_right_div_self, ← pow_succ, Nat.div_eq_zero_iff_lt (by positivity)]

theorem classOf_le (eb mb x : Nat) : classOf eb mb x ≤ 9 := by
  unfold classOf
  dsimp only
  split_ifs <;> decide

/-- In a type with infinities fclass gives the mask of the class (R304). -/
theorem fclass_eq_two_pow {f : FFmt} (hf : f = f32 ∨ f = f16 ∨ f = bf16) (x : Nat) : fclass f x = 2 ^ classOf f.eb f.mb x := by
  obtain ⟨hinf, heb, hmb⟩ : f.hasInf = true ∧ 1 ≤ f.eb ∧ 1 ≤ f.mb := by rcases hf with rfl | rfl | rfl <;> decide
  by_cases he1 : x / 2 ^ f.mb % 2 ^ f.eb = 2 ^ f.eb - 1
  · by_cases hm : x % 2 ^ f.mb = 0
    · simp only [fclass, decode_inf hinf he1 hm, classOf, he1, hm, if_true, decide_eq_true_eq]
      split <;> rfl
    · have hs : f.snan x = decide (x % 2 ^ f.mb < 2 ^ (f.mb - 1)) := by
        simp only [FFmt.snan, hf, decode_nan hinf he1 hm, top_fraction_bit hmb, true_and]
      simp only [fclass, decode_nan hinf he1 hm, hs, classOf, he1, hm, if_true, if_false, decide_eq_true_eq]
      split <;> rfl
  · by_cases he0 : x / 2 ^ f.mb % 2 ^ f.eb = 0
    · have htop : ¬ 0 = 2 ^ f.eb - 1 := he0 ▸ he1
      by_cases hm : x % 2 ^ f.mb = 0
      · simp only [fclass, decode_subnormal heb hinf he0, classOf, he0, htop, hm, if_true, if_false, decide_eq_true_eq]
        split <;> rfl
      · have hlog : Nat.log2 (x % 2 ^ f.mb) < f.mb := (Nat.log2_lt hm).mpr (Nat.mod_lt _ (by positivity))
        have hlow : (Nat.log2 (x % 2 ^ f.mb) : Int) + (f.emin - f.mb) < f.emin := by omega
        simp only [fclass, decode_subnormal heb hinf he0, classOf, he0, htop, hm, hlow, if_true, if_false, decide_eq_true_eq]
        split <;> rfl
    · have hlog : Nat.log2 (2 ^ f.mb + x % 2 ^ f.mb) = f.mb := by
        have hlt : x % 2 ^ f.mb < 2 ^ f.mb := Nat.mod_lt _ (by positivity)
        exact (Nat.log2_eq_iff (by omega)).mpr ⟨by omega, by rw [pow_succ]; omega⟩
      have hne : ¬ 2 ^ f.mb + x % 2 ^ f.mb = 0 := by positivity
      have hhigh : ¬ (f.mb : Int) + (((x / 2 ^ f.mb % 2 ^ f.eb : Nat) : Int) - f.bias - f.mb) < f.emin := by
        unfold FFmt.emin
        omega
      simp only [fclass, decode_normal hinf he0 he1, classOf, he0, he1, hlog, hne, hhigh, if_false, decide_eq_true_eq]
      split <;> rfl

/-- What fclass leaves, in each of the types it takes. -/
theorem exec_fclass {f : SR} {s : State} {a : Word} {c1 c2 : Core} {t : FFmt} (ht : t = f32 ∨ t = f16 ∨ t = bf16) (hp : Acts s f.pr)
    (hfn : f.fn.toNat ≤ 2) (hfmt : fmtOfCode f.fn.toNat = t) (hsb : f.sb = 0) (hnf : f.nf = 0) (ha : SrcS s f.sa (here s) a c1)
    (hd : DstS s f.dst f.ws 4 (BitVec.ofNat 64 (2 ^ classOf t.eb t.mb (a.toNat % 2 ^ (1 + t.eb + t.mb)))) c1 c2) :
    exec (.fclass f) s = leaves s c2 := by
  refine laneStep_leaves hp ((scalarFclass_ok hfn hsb hnf ha).trans ?_)
  rw [hfmt, fclass_eq_two_pow ht]
  exact hd

/-- Settles O18: the mask of the class, whatever the type. -/
theorem classMask : Obligations.ClassMask := by
  refine ⟨classOf_le, ?_⟩
  simp only [classTypes, List.forall_mem_cons, List.not_mem_nil, false_imp_iff, implies_true, and_true]
  refine ⟨fun f s a c1 c2 hp hfn => ?_, fun f s a c1 c2 hp hfn => ?_, fun f s a c1 c2 hp hfn => ?_⟩
  · exact exec_fclass (t := f32) (.inl rfl) hp (by rw [hfn]; decide) (by rw [hfn]; rfl)
  · exact exec_fclass (t := f16) (.inr (.inl rfl)) hp (by rw [hfn]; decide) (by rw [hfn]; rfl)
  · exact exec_fclass (t := bf16) (.inr (.inr rfl)) hp (by rw [hfn]; decide) (by rw [hfn]; rfl)

end Sys2Proof.Machine
end

