-- ==== Sys2Proof/Proofs/TaskControlAndCsrResults.lean ====
section
/-! LAW. What spawn, join, exit, exitab, trap, uiret and the CSR operations leave on legal operands (R309 to R316). -/
namespace Sys2Proof.Machine
open Sys2Proof.Claims

/-! ### Tasks (R309 to R314) -/

section
variable {f : SC} {s : State} {c c1 c2 : Core} {x lo hi : Word}

theorem spawnBody_ok (hfn : f.fn = 0) (htgt : f.tgt.toNat < 128) (hlo : resolveS s.cur f.sa c = .ok (lo, c1))
    (hhi : resolveS s.cur (f.tgt.setWidth 7) c1 = .ok (hi, c2)) (hply : (match c2.task with | some t => t.ply | none => 0) + 1 < c2.nply)
    (hgrp : holdsGroup c2 = false) (hle : lo.toNat ≤ hi.toNat) :
    spawnBody f s.cur c = .ok { c2 with arch := { c2.arch with posted := c2.arch.posted ++ [.spawn lo hi] } } := by
  have hok : ¬ ((match c2.task with | some t => t.ply | none => 0) + 1 ≥ c2.nply ∨ holdsGroup c2 = true ∨ lo.toNat > hi.toNat) := by
    simp only [hgrp, Bool.false_eq_true, false_or]
    omega
  simp only [spawnBody, need_ok, hfn, htgt, decide_true, Bool.and_self, hlo, hhi, LM_bind_ok]
  exact if_neg hok

theorem joinBody_ok (hfn : f.fn = 0) (hsa : f.sa = 0) (htgt : f.tgt.toNat < 64) (hui : c.arch.uiActive = false) :
    joinBody f s.cur c = .ok (withCtl s (.join (mapReg c.arch.rot f.tgt.toNat) (after s.cur)) c) := by
  simp only [joinBody, need_ok, hfn, hsa, htgt, decide_true, Bool.and_self, hui, LM_bind_ok]
  rfl

theorem exitOk_ok (cu : Cursor) (h : MayExit c) : exitOk cu c = .ok () := by
  obtain ⟨hui, hgrp⟩ := h
  simp only [exitOk, hui, hgrp, Bool.false_eq_true, if_false]

theorem exitBody_noStatus (hfn : f.fn = 0) (hsa : f.sa = 0) (htgt : f.tgt = 0) (h : MayExit c) :
    exitBody f s.cur c = .ok (withCtl s (.exit none (after s.cur)) c) := by
  have hn : (decide (f.fn.toNat ≤ 1) && f.tgt = 0 && (decide (f.fn ≠ 0) || f.sa = 0)) = true := by simp [hfn, hsa, htgt]
  unfold exitBody
  rw [need_ok hn]
  simp only [LM_bind_ok, if_pos, hfn, exitOk_ok s.cur h]
  rfl

theorem exitBody_status (hfn : f.fn = 1) (htgt : f.tgt = 0) (hx : resolveS s.cur f.sa c = .ok (x, c1)) (h : MayExit c1) :
    exitBody f s.cur c = .ok (withCtl s (.exit (some x) (after s.cur)) c1) := by
  have h0 : f.fn ≠ 0 := by simp [hfn]
  have hn : (decide (f.fn.toNat ≤ 1) && f.tgt = 0 && (decide (f.fn ≠ 0) || f.sa = 0)) = true := by simp [hfn, htgt]
  simp only [exitBody, need_ok hn, LM_bind_ok, if_neg h0, hx, exitOk_ok s.cur h]
  rfl

theorem exitabBody_ok (hfn : f.fn = 0) (htgt : f.tgt = 0) (hx : resolveS s.cur f.sa c = .ok (x, c1)) (h : MayExit c1) :
    exitabBody f s.cur c = .ok (withCtl s (.exitab (x.toNat % 256) s.cur.pos) c1) := by
  simp only [exitabBody, need_ok, hfn, htgt, decide_true, Bool.and_self, hx, exitOk_ok s.cur h, LM_bind_ok]
  rfl

theorem trapBody_passes (hfn : f.fn = 0) (hsa : f.sa = 0) (htgt : f.tgt.toNat < 256) (h : c.arch.skip = some s.cur.pos) :
    trapBody f s.cur c = .ok { c with arch := { c.arch with skip := none } } := by
  simp only [trapBody, need_ok, hfn, hsa, htgt, decide_true, Bool.and_self, h, if_true, LM_bind_ok]

theorem trapBody_traps (hfn : f.fn = 0) (hsa : f.sa = 0) (htgt : f.tgt.toNat < 256) (h : c.arch.skip ≠ some s.cur.pos) :
    trapBody f s.cur c = .error (.trap (Trap.core 54 f.tgt.toNat s.cur.lane)) := by
  simp only [trapBody, need_ok, hfn, hsa, htgt, decide_true, Bool.and_self, h, if_false, LM_bind_ok]

theorem uiretBody_ok (hfn : f.fn = 0) (hsa : f.sa = 0) (htgt : f.tgt = 0) (hui : c.arch.uiActive = true)
    (hd : (loopsAt s.cur c).length = c.arch.uiDepth) : uiretBody f s.cur c = .ok (withCtl s .uiret c) := by
  have hok : ¬ (¬ c.arch.uiActive = true ∨ (loopsAt s.cur c).length ≠ c.arch.uiDepth) := by simp [hui, hd]
  simp only [uiretBody, need_ok, hfn, hsa, htgt, decide_true, Bool.and_self, LM_bind_ok]
  exact if_neg hok

end

/-! ### CSRs (R315, R316) -/

section
variable {f : SI} {s : State} {cu : Cursor} {c c2 : Core} {v x : Word}

/-- A CSR's value as an operation reads it, and the core after the read (R316). -/
def csrRead (n : Nat) (c : Core) (v : Word) : Word × Core := if csrVolatile n then volatile c v else (v, c)

theorem csrOld_ok (hn : f.imm.toNat < 1024) (hv : csrValue s cu c f.imm.toNat = some v) :
    csrOld f s cu c = .ok (f.imm.toNat, csrRead f.imm.toNat c v) := by
  simp only [csrOld, if_neg (Nat.not_le.mpr hn), hv, csrRead]
  split <;> rfl

theorem csrrBody_ok (hn : f.imm.toNat < 1024) (hv : csrValue s cu c f.imm.toNat = some v) (hsa : f.sa = 0) :
    csrrBody f s cu c = writeS cu f.dst f.ws 1 (csrRead f.imm.toNat c v).1 (csrRead f.imm.toNat c v).2 := by
  simp only [csrrBody, need_ok, hsa, decide_true, csrOld_ok hn hv, LM_bind_ok]

theorem csrUpdate_ok {rwOnly : Bool} {new : Word → Word → Word} (hn : f.imm.toNat < 1024) (hv : csrValue s cu c f.imm.toNat = some v)
    (hrw : rwOnly = true → csrRw f.imm.toNat = true) (hx : resolveS cu f.sa (csrRead f.imm.toNat c v).2 = .ok (x, c2))
    (hfmt : csrFmtOk f.imm.toNat (new (csrRead f.imm.toNat c v).1 x) = true) :
    csrUpdate f s rwOnly new cu c =
      writeS cu f.dst f.ws 1 (csrRead f.imm.toNat c v).1 (csrWrite cu f.imm.toNat (new (csrRead f.imm.toNat c v).1 x) c2) := by
  have hlegal : (!rwOnly || csrRw f.imm.toNat) = true := by
    cases rwOnly with
    | false => rfl
    | true => exact hrw rfl
  simp only [csrUpdate, csrOld_ok hn hv, need_ok hlegal, hx, need_ok hfmt, LM_bind_ok]

end

/-- Settles O27, by what the body of each operation answers on legal operands. -/
theorem taskControlAndCsrResults : Obligations.TaskControlAndCsrResults := by
  refine ⟨⟨fun f s lo hi c1 c2 hp hfn htgt hlo hhi hply hgrp hle => ?_, fun f s hp hfn hsa => ⟨fun htgt hui => ?_, fun htgt h => ?_,
    fun htgt => ⟨fun h => ?_, fun h => ?_⟩, fun htgt hui hd => ?_⟩, fun f s x c1 hp htgt hx h => ⟨fun hfn => ?_, fun hfn => ?_⟩⟩, ?csr⟩
  · exact laneStep_leaves hp (spawnBody_ok hfn htgt hlo hhi hply hgrp hle)
  · exact laneStep_leaves hp (joinBody_ok hfn hsa htgt hui)
  · exact laneStep_leaves hp (exitBody_noStatus hfn hsa htgt h)
  · exact laneStep_leaves hp (trapBody_passes hfn hsa htgt h)
  · exact laneStep_trap hp (trapBody_traps hfn hsa htgt h)
  · exact laneStep_leaves hp (uiretBody_ok hfn hsa htgt hui hd)
  · exact laneStep_leaves hp (exitBody_status hfn htgt hx h)
  · exact laneStep_leaves hp (exitabBody_ok hfn htgt hx h)
  case csr =>
    intro f s v hp hn hv n r
    refine ⟨fun hsa c2 hd => ?_, fun x c2 hx => ⟨fun hfmt c3 hd => ?_, fun hrw hfmt c3 hd => ?_, fun hrw hfmt c3 hd => ?_⟩⟩
    · exact laneStep_leaves hp ((csrrBody_ok hn hv hsa).trans hd)
    · exact laneStep_leaves hp ((csrUpdate_ok hn hv (fun h => absurd h Bool.false_ne_true) hx hfmt).trans hd)
    · exact laneStep_leaves hp ((csrUpdate_ok hn hv (fun _ => hrw) hx hfmt).trans hd)
    · exact laneStep_leaves hp ((csrUpdate_ok hn hv (fun _ => hrw) hx hfmt).trans hd)

end Sys2Proof.Machine
end

