-- ==== Sys2Proof/Proofs/VectorIntegerResults.lean ====
section
/-! LAW. Integer operations by elements, moves, compares, predicate operations and permutations of vectors (R319, R321 to R323, R325 to R327). -/
namespace Sys2Proof.Machine
open Sys2Proof.Claims

/-! ### Each operation by its shared body -/

/-- mulh is signed where TY is even (R321). -/
theorem eMulh_eq : eMulh = fun ty w a b => if ty % 2 = 0 then wrapN w (sgn w a * sgn w b / 2 ^ w) else a * b / 2 ^ w := by
  funext ty w a b
  simp only [eMulh, tySigned, decide_eq_true_eq]
  rfl

theorem exec_vecOps2 : ∀ e ∈ vecOps2, ∀ (f : VR) (s : State), exec (e.1 f) s = laneStep s f.pr (vecInt2 f e.2.1 e.2.2) := by
  simp only [vecOps2, ← eMulh_eq, List.forall_mem_cons, List.not_mem_nil, false_imp_iff, implies_true, and_true]
  and_intros <;> exact fun f s => rfl

theorem exec_vecOps1 : ∀ e ∈ vecOps1, ∀ (f : VR) (s : State), exec (e.1 f) s = laneStep s f.pr (vecInt1 f e.2) := by
  simp only [vecOps1, List.forall_mem_cons, List.not_mem_nil, false_imp_iff, implies_true, and_true]
  and_intros <;> exact fun f s => rfl

theorem exec_vecOpsI : ∀ e ∈ vecOpsI, ∀ (f : VR) (s : State),
    exec (e.1 f) s = laneStep s f.pr (vecIntI f e.2.1 e.2.2.1 fun _ => e.2.2.2) := by
  simp only [vecOpsI, List.forall_mem_cons, List.not_mem_nil, false_imp_iff, implies_true, and_true]
  and_intros <;> exact fun f s => rfl

theorem exec_pOps : ∀ e ∈ pOps, ∀ (f : VR) (s : State), exec (e.1 f) s = laneStep s f.pr (pLogic f e.2) := by
  simp only [pOps, List.forall_mem_cons, List.not_mem_nil, false_imp_iff, implies_true, and_true]
  and_intros <;> exact fun f s => rfl

theorem exec_permOps : ∀ e ∈ permOps, ∀ (f : VR) (s : State), exec (e.1 f) s = laneStep s f.pr (vecPerm f e.2.1 false (e.2.2 f)) := by
  simp only [permOps, List.forall_mem_cons, List.not_mem_nil, false_imp_iff, implies_true, and_true]
  and_intros <;> exact fun f s => rfl

theorem exec_insOps : ∀ e ∈ insOps, ∀ (f : VR) (s : State), exec (e.1 f) s = laneStep s f.pr (vecInsExt f e.2) := by
  simp only [insOps, List.forall_mem_cons, List.not_mem_nil, false_imp_iff, implies_true, and_true]
  and_intros <;> exact fun f s => rfl

/-! ### Each body on legal fields -/

section
variable {f : VR} {cu : Cursor} {c c1 c2 : Core} {a b : VWord}

section
variable (hnf : f.nf = 0) (hfn : f.fn = 0) (ha : resolveV cu f.sa c = .ok (a, c1))
include hnf hfn ha

theorem vecInt2_ok {lat : Nat} {op : Nat → Nat → Nat → Nat → Nat} (hty : f.ty.toNat ≤ 5) (hb : resolveV cu f.sb c1 = .ok (b, c2)) :
    let w := tyWidth f.ty.toNat
    vecInt2 f lat op cu c =
      writeV cu f.dst f.ws lat w (buildV w fun i => op f.ty.toNat w (el w a i) (el w b i)) (spread w (epMask c2 f.ep)) c2 := by
  simp only [vecInt2, need_ok, hty, hnf, hfn, decide_true, Bool.and_self, ha, hb, LM_bind_ok]
  rfl

theorem vecInt1_ok {op : Nat → Nat → Nat} (hty : f.ty.toNat ≤ 5) (hsb : f.sb = 0) :
    let w := tyWidth f.ty.toNat
    vecInt1 f op cu c = writeV cu f.dst f.ws 2 w (buildV w fun i => op w (el w a i)) (spread w (epMask c1 f.ep)) c1 := by
  simp only [vecInt1, need_ok, hty, hnf, hfn, hsb, decide_true, Bool.and_self, ha, LM_bind_ok]
  rfl

theorem vecIntI_ok {lat : Nat} {shift : Bool} {op : Nat → Nat → Nat → Nat} (hty : f.ty.toNat ≤ 5)
    (himm : shift = true → f.sb.toNat < tyWidth f.ty.toNat) :
    let w := tyWidth f.ty.toNat
    vecIntI f lat shift (fun _ => op) cu c =
      writeV cu f.dst f.ws lat w (buildV w fun i => op w (el w a i) (immOf w f.sb)) (spread w (epMask c1 f.ep)) c1 := by
  have hn : (decide (f.ty.toNat ≤ 5) && f.nf = 0 && f.fn = 0 && (!shift || decide (f.sb.toNat < tyWidth f.ty.toNat))) = true := by
    simp only [hty, hnf, hfn, decide_true, Bool.and_self, Bool.true_and, Bool.or_eq_true, Bool.not_eq_true', decide_eq_true_eq]
    exact (Bool.eq_false_or_eq_true shift).symm.imp_right himm
  simp only [vecIntI, need_ok hn, ha, LM_bind_ok]
  rfl

theorem vecMove_ok (bcast : Bool) (hty : f.ty.toNat ≤ 11) (hsb : f.sb = 0) :
    let w := tyWidth f.ty.toNat
    vecMove f bcast cu c =
      writeV cu f.dst f.ws 2 w (if bcast then buildV w fun _ => el w a 0 else a) (spread w (epMask c1 f.ep)) c1 := by
  simp only [vecMove, need_ok, hty, hnf, hfn, hsb, decide_true, Bool.and_self, ha, LM_bind_ok]
  rfl

theorem vecRev_ok {g : Nat → VWord → VWord → Nat → Nat} (hty : f.ty.toNat ≤ 11) (hsb : f.sb = 0) :
    let w := tyWidth f.ty.toNat
    vecPerm f 0 true g cu c = writeV cu f.dst f.ws 2 w (buildV w (g w a 0)) (spread w (epMask c1 f.ep)) c1 := by
  have h0 : f.fn.toNat ≤ 0 := by simp [hfn]
  simp only [vecPerm, need_ok, hty, hnf, h0, hsb, decide_true, Bool.and_self, Bool.or_true, ha, LM_bind_ok, if_true]

theorem vecPack_ok {g : Nat → (Nat → Bool) → VWord → VWord} (hty : f.ty.toNat ≤ 11) (hsb : f.sb = 0) :
    let w := tyWidth f.ty.toNat
    vecPack f g cu c = writeV cu f.dst f.ws 2 w (g w (fun i => (epMask c1 f.ep).getLsbD i) a) (-1) c1 := by
  simp only [vecPack, need_ok, hty, hnf, hfn, hsb, decide_true, Bool.and_self, ha, LM_bind_ok]

theorem vecInsExt_ok {g : Nat → VWord → VWord → Nat → Nat} (hty : f.ty.toNat ≤ 11) (hep : f.ep = 0) (hb : resolveV cu f.sb c1 = .ok (b, c2)) :
    let w := tyWidth f.ty.toNat
    vecInsExt f g cu c = writeV cu f.dst f.ws 2 w (buildV w (g w a b)) (-1) c2 := by
  simp only [vecInsExt, need_ok, hty, hnf, hfn, hep, decide_true, Bool.and_self, ha, hb, LM_bind_ok]

end

section
variable (ha : resolveV cu f.sa c = .ok (a, c1)) (hb : resolveV cu f.sb c1 = .ok (b, c2))
include ha hb

theorem vecSel_ok (hty : f.ty.toNat ≤ 11) (hnf : f.nf = 0) :
    let w := tyWidth f.ty.toNat
    let m := spread w (c2.arch.getP f.fn.toNat)
    vecSel f cu c = writeV cu f.dst f.ws 2 w ((a &&& m) ||| (b &&& ~~~m)) (spread w (epMask c2 f.ep)) c2 := by
  simp only [vecSel, need_ok, hty, hnf, decide_true, Bool.and_self, ha, hb, LM_bind_ok]

theorem vecPerm_ok {fnMax : Nat} {g : Nat → VWord → VWord → Nat → Nat} (hty : f.ty.toNat ≤ 11) (hnf : f.nf = 0) (hfn : f.fn.toNat ≤ fnMax) :
    let w := tyWidth f.ty.toNat
    vecPerm f fnMax false g cu c = writeV cu f.dst f.ws 2 w (buildV w (g w a b)) (spread w (epMask c2 f.ep)) c2 := by
  simp only [vecPerm, need_ok, hty, hnf, hfn, decide_true, Bool.and_self, Bool.not_false, Bool.true_or, ha, hb, LM_bind_ok, Bool.false_eq_true,
    if_false]

theorem vecFcmp_ok (h6 : 6 ≤ f.ty.toNat) (h8 : f.ty.toNat ≤ 8) (hfn : f.fn.toNat ≤ 7) (hdst : f.dst.toNat ≤ 15) :
    let t := fmtOfCode (f.ty.toNat - 6)
    let r := fun i => fcmpCond t f.fn.toNat (el t.width a i) (el t.width b i)
    vecFcmp f cu c = .ok (emitFlags cu 2 f.nf (elemFlags c2 f.ep t.width (4096 / t.width) fun i => (r i).2)
      (writeP cu f.dst.toNat f.ws 2 (buildP c2 f.ep (4096 / t.width) fun i => (r i).1) c2)) := by
  simp only [vecFcmp, need_ok, h6, h8, hfn, hdst, decide_true, Bool.and_self, ha, hb, LM_bind_ok]
  rfl

end

section
variable (hty : f.ty.toNat ≤ 5) (hnf : f.nf = 0) (hfn : f.fn.toNat ≤ 5) (hdst : f.dst.toNat ≤ 15) (ha : resolveV cu f.sa c = .ok (a, c1))
include hty hnf hfn hdst ha

theorem vecCmp_register (signed : Bool) (hb : resolveV cu f.sb c1 = .ok (b, c2)) :
    let w := tyWidth f.ty.toNat
    let rd : Nat → Int := fun x => if signed then sgn w x else x
    vecCmp f signed false cu c = .ok (writeP cu f.dst.toNat f.ws 2
      (buildP c2 f.ep (4096 / w) fun i => icond f.fn.toNat (rd (el w a i)) (rd (el w b i))) c2) := by
  simp only [vecCmp, need_ok, hty, hnf, hfn, hdst, decide_true, Bool.and_self, ha, hb, LM_bind_ok, Bool.false_eq_true, if_false,
    intCond_eq_icond hfn]
  rfl

theorem vecCmp_immediate :
    let w := tyWidth f.ty.toNat
    vecCmp f true true cu c = .ok (writeP cu f.dst.toNat f.ws 2
      (buildP c1 f.ep (4096 / w) fun i => icond f.fn.toNat (sgn w (el w a i)) (sgn w (el w (buildV w fun _ => immOf w f.sb) i))) c1) := by
  simp only [vecCmp, need_ok, hty, hnf, hfn, hdst, decide_true, Bool.and_self, ha, LM_bind_ok, if_true, intCond_eq_icond hfn]
  rfl

end

theorem pSource_ok {code : BitVec 7} {p : PWord} (h : pVal c code = some p) : pSource cu code c = .ok p := by
  unfold pVal at h
  unfold pSource
  split_ifs at h ⊢ <;> simp_all

theorem pFields_ok (hty : f.ty = 0) (hep : f.ep = 0) (hnf : f.nf = 0) (hfn : f.fn = 0) : pFields f = true := by
  simp only [pFields, hty, hep, hnf, hfn, decide_true, Bool.and_self]

section
variable (hf : pFields f = true)
include hf

theorem pLogic_ok {op : PWord → PWord → PWord} {p q : PWord} (hdst : f.dst.toNat ≤ 15) (hp : pVal c f.sa = some p) (hq : pVal c f.sb = some q) :
    pLogic f op cu c = .ok (writeP cu f.dst.toNat f.ws 1 (op p q) c) := by
  simp only [pLogic, need_ok, hf, hdst, decide_true, Bool.and_self, pSource_ok hp, pSource_ok hq, LM_bind_ok]

theorem pSet_ok (hsb : f.sb = 0) (hdst : f.dst.toNat ≤ 15) (ha : resolveV cu f.sa c = .ok (a, c1)) :
    pSet f cu c = .ok (writeP cu f.dst.toNat f.ws 1 (BitVec.ofNat 1024 (2 ^ min (a.toNat % 2 ^ 32) 1024 - 1)) c1) := by
  simp only [pSet, need_ok, hf, hsb, hdst, decide_true, Bool.and_self, ha, LM_bind_ok]

theorem pFirst_ok {p : PWord} (hsb : f.sb = 0) (hdst : f.dst.toNat ≤ 15) (hp : pVal c f.sa = some p) :
    pFirst f cu c = .ok (writeP cu f.dst.toNat f.ws 1 (p &&& -p) c) := by
  simp only [pFirst, need_ok, hf, hsb, hdst, decide_true, Bool.and_self, pSource_ok hp, LM_bind_ok]

theorem pCount_ok {p : PWord} (hsb : f.sb = 0) (hp : pVal c f.sa = some p) :
    pCount f cu c = writeV cu f.dst f.ws 1 32 (BitVec.ofNat 4096 (popN p.toNat 1024)) (-1) c := by
  simp only [pCount, need_ok, hf, hsb, decide_true, Bool.and_self, pSource_ok hp, LM_bind_ok]

end

end

theorem vecPermG_ok {f : VT} {cu : Cursor} {c c1 c2 c3 : Core} {a b x : VWord} (hnf : f.nf = 0) (hrsvd : f.rsvd = 0)
    (ha : resolveV cu f.sa c = .ok (a, c1)) (hb : resolveV cu f.sb c1 = .ok (b, c2)) (hx : resolveV cu f.sc c2 = .ok (x, c3)) :
    vecPermG f cu c = writeV cu f.dst f.ws 2 16
      (buildV 16 fun i => if el 16 x i ≥ 2 ^ 15 then 0 else catElem 16 a b (el 16 x i % 512)) (spread 16 (epMask c3 f.ep)) c3 := by
  simp only [vecPermG, need_ok, hnf, hrsvd, decide_true, Bool.and_self, ha, hb, hx, LM_bind_ok]
  rfl

/-- Settles O19: each operation by the body it shares, each body by the one register it writes. -/
theorem vectorIntegerAndMoveResults : Obligations.VectorIntegerAndMoveResults := by
  refine ⟨⟨fun e he f s a b c1 c2 c3 hp hty hnf hfn ha hb hd => ?_, fun e he f s a c1 c2 hp hty hnf hfn hsb ha hd => ?_,
    fun e he f s a c1 c2 hp hty hnf hfn himm ha hd => ?_⟩, fun f s a c1 c2 hp hty hnf hfn hsb ha => ⟨fun hd => ?_, fun hd => ?_⟩,
    fun f s a b c1 c2 c3 hp hty hnf ha hb hd => ?_⟩
  · rw [exec_vecOps2 e he]
    exact laneStep_leaves hp ((vecInt2_ok hnf hfn ha hty hb).trans hd)
  · rw [exec_vecOps1 e he]
    exact laneStep_leaves hp ((vecInt1_ok hnf hfn ha hty hsb).trans hd)
  · rw [exec_vecOpsI e he]
    exact laneStep_leaves hp ((vecIntI_ok hnf hfn ha hty himm).trans hd)
  · exact laneStep_leaves hp ((vecMove_ok hnf hfn ha false hty hsb).trans hd)
  · exact laneStep_leaves hp ((vecMove_ok hnf hfn ha true hty hsb).trans hd)
  · exact laneStep_leaves hp ((vecSel_ok ha hb hty hnf).trans hd)

/-- Settles O20: compares and predicate operations by the predicate they write, permutations by the register. -/
theorem vectorPredicateAndPermutationResults : Obligations.VectorPredicateAndPermutationResults := by
  refine ⟨⟨fun f s a b c1 c2 hp hty hnf hfn hdst ha => ⟨fun hb => ⟨?_, ?_⟩, ?_⟩, fun f s a b c1 c2 hp h6 h8 hfn hdst ha hb => ?_,
    fun e he f s p q hp hty hep hnf hfn hdst hx hy => ?_, fun f s hp hty hep hnf hfn hsb =>
      ⟨fun a c1 hdst ha => ?_, fun p hdst hx => ?_, fun p c1 hx hd => ?_⟩⟩,
    fun e he f s a b c1 c2 c3 hp hty hnf hfn ha hb hd => ?_,
    fun f s a c1 c2 hp hty hnf hfn hsb ha => ⟨fun hd => ?_, fun hd => ?_, fun hd => ?_⟩,
    fun e he f s a b c1 c2 c3 hp hty hnf hfn hep ha hb hd => ?_, fun f s a b x c1 c2 c3 c4 hp hnf hrsvd ha hb hx hd => ?_⟩
  · exact laneStep_leaves hp (vecCmp_register hty hnf hfn hdst ha true hb)
  · exact laneStep_leaves hp (vecCmp_register hty hnf hfn hdst ha false hb)
  · exact laneStep_leaves hp (vecCmp_immediate hty hnf hfn hdst ha)
  · exact laneStep_leaves hp (vecFcmp_ok ha hb h6 h8 hfn hdst)
  · rw [exec_pOps e he]
    exact laneStep_leaves hp (pLogic_ok (pFields_ok hty hep hnf hfn) hdst hx hy)
  · exact laneStep_leaves hp (pSet_ok (pFields_ok hty hep hnf hfn) hsb hdst ha)
  · exact laneStep_leaves hp (pFirst_ok (pFields_ok hty hep hnf hfn) hsb hdst hx)
  · exact laneStep_leaves hp ((pCount_ok (pFields_ok hty hep hnf hfn) hsb hx).trans hd)
  · rw [exec_permOps e he]
    exact laneStep_leaves hp ((vecPerm_ok ha hb hty hnf hfn).trans hd)
  · exact laneStep_leaves hp ((vecRev_ok hnf hfn ha hty hsb).trans hd)
  · exact laneStep_leaves hp ((vecPack_ok hnf hfn ha hty hsb).trans hd)
  · exact laneStep_leaves hp ((vecPack_ok hnf hfn ha hty hsb).trans hd)
  · rw [exec_insOps e he]
    exact laneStep_leaves hp ((vecInsExt_ok hnf hfn ha hty hep hb).trans hd)
  · exact laneStep_leaves hp ((vecPermG_ok hnf hrsvd ha hb hx).trans hd)

end Sys2Proof.Machine
end

