-- ==== Sys2Proof/Proofs/VectorFloatResults.lean ====
section
/-! LAW. Float arithmetic by elements, reductions, and the special functions of lane F (R324, R333 to R337). -/
namespace Sys2Proof.Machine
open Sys2Proof.Claims

/-- A computation that succeeds goes on with its value. -/
theorem LM_bind_of_ok {α β : Type} {x : LM α} {a : α} {f : α → LM β} (h : x = .ok a) : (x >>= f) = f a := by
  rw [h, LM_bind_ok]

/-! ### Each operation by its shared body -/

theorem exec_vFloatOps2 : ∀ e ∈ vFloatOps2, ∀ (f : VR) (s : State), exec (e.1 f) s = laneStep s f.pr (vecF2 f e.2) := by
  simp only [vFloatOps2, List.forall_mem_cons, List.not_mem_nil, false_imp_iff, implies_true, and_true]
  and_intros <;> exact fun f s => rfl

theorem exec_vFloatOps1 : ∀ e ∈ vFloatOps1, ∀ (f : VR) (s : State), exec (e.1 f) s = laneStep s f.pr (vecF1 f e.2) := by
  simp only [vFloatOps1, List.forall_mem_cons, List.not_mem_nil, false_imp_iff, implies_true, and_true]
  and_intros <;> exact fun f s => rfl

theorem exec_fmaOps : ∀ e ∈ fmaOps, ∀ (f : VT) (s : State), exec (e.1 f) s = laneStep s f.pr (vecFma f e.2.1 e.2.2) := by
  simp only [fmaOps, List.forall_mem_cons, List.not_mem_nil, false_imp_iff, implies_true, and_true]
  and_intros <;> exact fun f s => rfl

theorem exec_redOps : ∀ e ∈ redOps, ∀ (f : VR) (s : State), exec (e.1 f) s = laneStep s f.pr (vecRed f e.2.1 e.2.2) := by
  simp only [redOps, List.forall_mem_cons, List.not_mem_nil, false_imp_iff, implies_true, and_true]
  and_intros <;> exact fun f s => rfl

theorem exec_sfuOps : ∀ e ∈ sfuOps, ∀ (f : FA) (s : State), exec (e.1 f) s = laneStep s f.pr (sfu1 f e.2.1 e.2.2) := by
  simp only [sfuOps, List.forall_mem_cons, List.not_mem_nil, false_imp_iff, implies_true, and_true]
  and_intros <;> exact fun f s => rfl

/-! ### Each body on legal fields -/

section
variable {f : VR} {cu : Cursor} {c c1 c2 : Core} {a b : VWord}

theorem vecF2_ok {op : FFmt → Nat → Nat → Nat × FlagBits} (h6 : 6 ≤ f.ty.toNat) (h8 : f.ty.toNat ≤ 8) (hfn : f.fn = 0)
    (ha : resolveV cu f.sa c = .ok (a, c1)) (hb : resolveV cu f.sb c1 = .ok (b, c2)) :
    let t := fmtOfCode (f.ty.toNat - 6)
    vecF2 f op cu c = finishVF f.dst f.ws f.nf f.ep 4 t.width (fun i => op t (el t.width a i) (el t.width b i)) cu c2 := by
  simp only [vecF2, need_ok, h6, h8, hfn, decide_true, Bool.and_self, ha, hb, LM_bind_ok]
  rfl

theorem vecF1_ok {op : FFmt → Nat → Nat × FlagBits} (h6 : 6 ≤ f.ty.toNat) (h8 : f.ty.toNat ≤ 8) (hfn : f.fn = 0) (hsb : f.sb = 0)
    (ha : resolveV cu f.sa c = .ok (a, c1)) :
    let t := fmtOfCode (f.ty.toNat - 6)
    vecF1 f op cu c = finishVF f.dst f.ws f.nf f.ep 4 t.width (fun i => op t (el t.width a i)) cu c1 := by
  simp only [vecF1, need_ok, h6, h8, hfn, hsb, decide_true, Bool.and_self, ha, LM_bind_ok]
  rfl

/-- A reduction of a float type may raise flags; of an integer type it has none to suppress (R333). -/
theorem vecRed_ok {tyMax : Nat} {value : Nat → List (Option Nat) → Nat × FlagBits} (hty : f.ty.toNat ≤ tyMax) (hsb : f.sb = 0) (hfn : f.fn = 0)
    (hnf : f.ty.toNat < 6 → f.nf = 0) (ha : resolveV cu f.sa c = .ok (a, c1)) :
    vecRed f tyMax value cu c = finishRed f (value f.ty.toNat (liveElems c1 f.ep (tyWidth f.ty.toNat) a)) cu c1 := by
  have hn : (decide (f.ty.toNat ≤ tyMax) && f.sb = 0 && f.fn = 0 && (decide (6 ≤ f.ty.toNat) || f.nf = 0)) = true := by
    simp only [hty, hsb, hfn, decide_true, Bool.and_self, Bool.true_and, Bool.or_eq_true, decide_eq_true_eq]
    exact (Nat.lt_or_ge f.ty.toNat 6).symm.imp_right hnf
  simp only [vecRed, need_ok hn, ha, LM_bind_ok]

theorem finishRed_ok {r : Nat × FlagBits} (hd : writeV cu f.dst f.ws 6 32 (BitVec.ofNat 4096 r.1) (-1) c = .ok c1) :
    finishRed f r cu c = .ok (emitFlags cu 6 f.nf [(0, r.2)] c1) := by
  simp only [finishRed, hd, LM_bind_ok]

end

theorem vecFma_ok {f : VT} {cu : Cursor} {c c1 c2 c3 : Core} {a b x : VWord} {t : FFmt} {sub : Bool} (hrsvd : f.rsvd = 0)
    (ha : resolveV cu f.sa c = .ok (a, c1)) (hb : resolveV cu f.sb c1 = .ok (b, c2)) (hx : resolveV cu f.sc c2 = .ok (x, c3)) :
    vecFma f t sub cu c =
      finishVF f.dst f.ws f.nf f.ep 4 t.width (fun i => ffma t sub (el t.width a i) (el t.width b i) (el t.width x i)) cu c3 := by
  simp only [vecFma, need_ok, hrsvd, decide_true, ha, hb, hx, LM_bind_ok]
  rfl

section
variable {f : FA} {cu : Cursor} {c c1 c2 : Core} {a : VWord} (hty : f.ty.toNat ≤ 2) (ha : resolveV cu f.sa c = .ok (a, c1))
include hty ha

theorem sfu1_ok {lat : Nat} {op : FFmt → Nat → Nat × FlagBits} :
    let t := fmtOfCode f.ty.toNat
    sfu1 f lat op cu c = finishVF (f.dst.setWidth 7) f.ws f.nf f.ep lat t.width (fun i => op t (el t.width a i)) cu c1 := by
  simp only [sfu1, need_ok, hty, decide_true, ha, LM_bind_ok]
  rfl

/-- vlse reduces over every element, a masked one counting as −∞ (R337). -/
theorem vlseBody_ok :
    let t := fmtOfCode f.ty.toNat
    let l := liveElems c1 f.ep t.width a
    let r := heapReduce lseNode 8 (l.map fun x => match x with | some e => some (toF32 t e) | none => some (f32.signed true f32.infCode)) 0
    writeV cu (f.dst.setWidth 7) f.ws 12 32 (BitVec.ofNat 4096 (r.1.getD 0)) (-1) c1 = .ok c2 →
    vlseBody f cu c = .ok (emitFlags cu 12 f.nf [(0, r.2 ||| snanAny t l)] c2) := by
  intro t l r hd
  unfold vlseBody
  simp only [need_ok, hty, decide_true, ha, LM_bind_ok]
  exact LM_bind_of_ok hd

end

/-- Settles O21: each body ends as an element-wise operation of latency 4. -/
theorem vectorFloatArithmetic : Obligations.VectorFloatArithmetic := by
  refine ⟨fun e he f s a b c1 c2 hp h6 h8 hfn ha hb => ?_, fun e he f s a c1 hp h6 h8 hfn hsb ha => ?_,
    fun e he f s a b x c1 c2 c3 hp hrsvd ha hb hx => ?_⟩
  · rw [exec_vFloatOps2 e he]
    exact laneStep_finishVF hp (vecF2_ok h6 h8 hfn ha hb)
  · rw [exec_vFloatOps1 e he]
    exact laneStep_finishVF hp (vecF1_ok h6 h8 hfn hsb ha)
  · rw [exec_fmaOps e he]
    exact laneStep_finishVF hp (vecFma_ok hrsvd ha hb hx)

/-- Settles O22: a reduction by its one value, a special function by elements. -/
theorem reductionAndSpecialFunctionResults : Obligations.ReductionAndSpecialFunctionResults := by
  refine ⟨fun e he f s a c1 c2 hp hty hsb hfn hnf ha hd => ?_, fun e he f s a c1 hp hty ha => ?_, fun f s a c1 c2 hp hty ha hd => ?_⟩
  · rw [exec_redOps e he]
    exact laneStep_leaves hp ((vecRed_ok hty hsb hfn hnf ha).trans (finishRed_ok hd))
  · rw [exec_sfuOps e he]
    exact laneStep_finishVF hp (sfu1_ok hty ha)
  · exact laneStep_leaves hp (vlseBody_ok hty ha hd)

end Sys2Proof.Machine
end

