-- ==== Sys2Proof/Proofs/Draws.lean ====
section
/-! LAW. Draws: the pair that vdraw and vdrawm leave at the root of the tree of R341 (R338 to R341). -/
namespace Sys2Proof.Machine
open Sys2Proof.Claims

/-- The leaves of vdraw, one for each element of its register, with their flags (R339). -/
def drawLeaves (f : FD) (t : FFmt) (c : Core) : List (Pair × FlagBits) :=
  let x := drawParams c
  let n := 4096 / t.width
  (List.range n).map fun i => if badScale (dpS x) ∨ ¬ (epMask c f.ep).getLsbD i then (zeroPair, (0 : FlagBits))
    else drawLeaf t (dpJ x * n + i) (el t.width (readV c f.sa.toNat) i) (dpS x)

/-- The pairs that vdrawm merges: 2^LV of its register, from position H mod 64 on (R340). -/
def drawPairs (f : FD) (c : Core) : List Pair :=
  let x := drawParams c
  (List.range (2 ^ dpLv x)).map fun t => if badScale (dpS x) ∨ ¬ (epMask c f.ep).getLsbD (dpH x % 64 + t) then zeroPair
    else Pair.ofNat (el 64 (readV c f.sa.toNat) (dpH x % 64 + t))

theorem exec_drawOps : ∀ e ∈ drawOps, ∀ (f : FD) (s : State), exec (e.1 f) s = laneStep s f.pr (vdrawBody f e.2) := by
  simp only [drawOps, List.forall_mem_cons, List.not_mem_nil, false_imp_iff, implies_true, and_true]
  and_intros <;> exact fun f s => rfl

section
variable {f : FD} {cu : Cursor} {c : Core}

theorem vdrawBody_ok {t : FFmt} :
    let x := drawParams c
    let n := 4096 / t.width
    dpQl x ≤ 30 → dpJ x < 2 ^ dpQl x → dpJ x * n + n - 1 ≤ 0x7FFFFFFF →
    let root := mergeTree (scaleInf (dpS x)) (drawKey x) (dpStrm x) 0 1 (if n = 128 then 7 else 8) ((drawLeaves f t c).map Prod.fst)
    vdrawBody f t cu c = .ok (drawOut f root ((2 ^ dpQl x + dpJ x) % 64) (dpFin x) 14
      (if badScale (dpS x) then [(0, flInvalid)] else (drawLeaves f t c).zipIdx.map fun p => (p.2 * t.width / 32, p.1.2)) cu c) := by
  intro x n hq hj hn root
  unfold vdrawBody
  dsimp only
  rw [need_ok (by simp only [hq, hj, hn, x, n, decide_true, Bool.and_self])]
  rfl

theorem vdrawmBody_ok :
    let x := drawParams c
    1 ≤ dpLv x → dpLv x ≤ 6 → dpH x % 2 ^ dpLv x = 0 → 2 ^ dpLv x ≤ dpH x →
    let root := mergeTree (scaleInf (dpS x)) (drawKey x) (dpStrm x) 0x80000000 (dpH x / 2 ^ dpLv x) (dpLv x) (drawPairs f c)
    vdrawmBody f cu c =
      .ok (drawOut f root (dpH x / 2 ^ dpLv x % 64) (dpFin x) 16 (if badScale (dpS x) then [(0, flInvalid)] else []) cu c) := by
  intro x h1 h6 hh hle root
  unfold vdrawmBody
  dsimp only
  rw [need_ok (by simp only [h1, h6, hh, hle, x, decide_true, Bool.and_self])]
  rfl

end

/-- Settles O41: each body delivers the root of its tree. -/
theorem draws : Obligations.Draws := by
  refine ⟨fun e he f s hp hq hj hn => ?_, fun f s hp h1 h6 hh hle => ?_⟩
  · rw [exec_drawOps e he]
    exact laneStep_leaves hp (vdrawBody_ok hq hj hn)
  · exact laneStep_leaves hp (vdrawmBody_ok h1 h6 hh hle)

end Sys2Proof.Machine
end

