-- ==== Sys2Proof/Proofs/TileResults.lean ====
section
/-! LAW. The staging and the tiles: mshift, mzero, the accumulator rows through V2, and mdrain (R346, R348 to R352). -/
namespace Sys2Proof.Machine
open Sys2Proof.Claims

/-! ### Staging and mzero (R346, R348) -/

theorem mshiftBody_ok {f : XT} (cu : Cursor) (c : Core) (ht : f.tile = 0) (ha : f.arg = 0) :
    mshiftBody f cu c = .ok (emit cu 1 (.stage .shift) c) := by
  simp only [mshiftBody, need_ok, ht, ha, decide_true, Bool.and_self, LM_bind_ok]

/-- A list of tiles with t among them. -/
def withTile (l : List Nat) (t : Nat) : List Nat := if l.contains t then l else t :: l

/-- mzero takes its tile as modified and as zeroed, where at most one live tile is modified (R160; log 95). -/
theorem mzeroBody_ok {f : XT} {cu : Cursor} {c : Core} (ha : f.arg = 0)
    (hl : (c.arch.tLive.filter fun x => (withTile c.arch.tMod f.tile.toNat).contains x).length ≤ 1) :
    mzeroBody f cu c = .ok (emit cu 1 (.mzero f.tile.toNat)
      { c with arch := { c.arch with tMod := withTile c.arch.tMod f.tile.toNat, tZero := withTile c.arch.tZero f.tile.toNat } }) := by
  simp only [mzeroBody, need_ok, ha, decide_true, LM_bind_ok]
  exact if_neg (Nat.not_lt.mpr hl)

theorem applyEff_shift {p : Pend} (c : Core) (h : p.eff = .stage .shift) :
    applyEff p c = { c with
      rcrc := effCrc c p.eff, rowLog := effRows p.eff ++ c.rowLog,
      arch := { c.arch with
        stage := (List.range 4).map fun i => (i, FMap.get StageLevel.zero c.arch.stage (if i = 0 then 3 else i - 1)) } } := by
  simp only [applyEff, h]

theorem applyEff_mzero {p : Pend} {t : Nat} (c : Core) (h : p.eff = .mzero t) :
    applyEff p c = { c with
      rcrc := effCrc c p.eff, rowLog := effRows p.eff ++ c.rowLog, tiles := FMap.erase c.tiles t, psum := FMap.erase c.psum t,
      arch := { c.arch with phase := FMap.erase c.arch.phase t } } := by
  simp only [applyEff, h]

/-- Settles O24: each body queues its one effect, and the effect is read back level by level and tile by tile. -/
theorem stagingAndZero : Obligations.StagingAndZero := by
  refine ⟨fun f s hp => ⟨fun ht ha => laneStep_leaves hp (mshiftBody_ok s.cur (here s) ht ha), fun ha hl => laneStep_leaves hp (mzeroBody_ok ha hl)⟩,
    fun c p h => ?_, fun c p t h => ?_⟩
  · rw [applyEff_shift c h]
    exact ⟨rfl, rfl, rfl, rfl, rfl, rfl, rfl⟩
  · rw [applyEff_mzero c h]
    refine ⟨fun r => ?_, ?_, fun k hk => ⟨?_, ?_⟩, rfl, rfl, rfl, rfl⟩
    · simp only [FMap.get_erase, if_true]
      rfl
    · simp only [tilePhase, FMap.get_erase, if_true]
    · simp only [FMap.get_erase, if_neg hk]
    · simp only [tilePhase, FMap.get_erase, if_neg hk]

/-! ### Accumulator rows (R349, R352) -/

section
variable {f : VA} {s : State} {c1 : Core}

theorem vaCheck_ok {wsOk nfOk : Bool} (h : VaLegal s f) (hws : wsOk = false → f.ws = 0) (hnf : nfOk = false → f.nf = 0) :
    vaCheck f wsOk nfOk s.cur (here s) = .ok () := by
  obtain ⟨hfn, hrsvd, hvd, heven, hph⟩ := h
  refine need_ok ?_
  simp only [hfn, hrsvd, hvd, heven, hph, decide_true, beq_self_eq_true, Bool.and_self, Bool.true_and, Bool.and_true, Bool.and_eq_true,
    Bool.or_eq_true, decide_eq_true_eq]
  exact ⟨(Bool.eq_false_or_eq_true wsOk).imp_right hws, (Bool.eq_false_or_eq_true nfOk).imp_right hnf⟩

theorem ardBody_ok (h : VaLegal s f) (hnf : f.nf = 0) (ht : touchTile s.cur (here s) f.tile.toNat false = .ok c1) :
    let x := tileRow c1 f.tile.toNat ((readS c1 f.rs.toNat).toNat % 256)
    let part := fun h => (buildV 32 fun p => rowElem x (2 * p + h), buildV 32 fun p => if (epMask c1 f.ep).getLsbD (2 * p + h) then 2 ^ 32 - 1 else 0)
    ardBody f s.cur (here s) = writeVs s.cur f.vd f.ws 6 [part 0, part 1] c1 := by
  simp only [ardBody, vaCheck_ok h (fun h => absurd h.symm Bool.false_ne_true) fun _ => hnf, ht, LM_bind_ok]
  rfl

/-- Column j of the two registers that hold a row: the even columns in the first, the odd ones in the second. -/
theorem el_evenOdd (c : Core) (r j : Nat) :
    elem 32 (if j % 2 = 0 then readV c r else readV c (r + 1)).toNat (j / 2) = el 32 (readV c (r + j % 2)) (j / 2) := by
  rcases Nat.mod_two_eq_zero_or_one j with h | h <;> simp [h, el]

theorem rowWrite_ok {op : RowOp} (h : VaLegal s f) (hws : f.ws = 0) (hnf : op = .wr → f.nf = 0)
    (ht : touchTile s.cur (here s) f.tile.toNat true = .ok c1) :
    let val := buildRow fun j => el 32 (readV c1 (f.vd.toNat + j % 2)) (j / 2)
    let mask := buildRow fun j => if (epMask c1 f.ep).getLsbD j then 2 ^ 32 - 1 else 0
    rowWrite f op s.cur (here s) =
      .ok (emit s.cur 3 (.row f.tile.toNat ((readS c1 f.rs.toNat).toNat % 256) op val mask (f.nf = 1)) c1) := by
  have hnf' : (op != .wr) = false → f.nf = 0 := fun h => hnf (by simpa using h)
  simp only [rowWrite, vaCheck_ok h (fun _ => hws) hnf', ht, LM_bind_ok, el_evenOdd]
  rfl

theorem exec_rowOps : ∀ e ∈ rowOps, ∀ (f : VA) (s : State), exec (e.1 f) s = laneStep s f.pr (rowWrite f e.2) := by
  simp only [rowOps, List.forall_mem_cons, List.not_mem_nil, false_imp_iff, implies_true, and_true]
  and_intros <;> exact fun f s => rfl

end

/-- Settles O25: ard by the two registers it writes, the others by the row write they queue. -/
theorem accumulatorRows : Obligations.AccumulatorRows := by
  refine ⟨fun f s c1 c2 hp h hnf ht hd => ?_, fun e he f s c1 hp h hws hnf ht => ?_⟩
  · exact laneStep_leaves hp ((ardBody_ok h hnf ht).trans hd)
  · rw [exec_rowOps e he]
    exact laneStep_leaves hp (rowWrite_ok h hws hnf ht)

/-! ### mdrain (R350, R351) -/

section
variable {f : XT} {cu : Cursor} {c c1 c2 : Core}

/-- The epilogue configuration that mdrain names. -/
def drainCfg (f : XT) (c : Core) : BitVec 2048 := FMap.get 0 c.arch.ecfg (f.arg.toNat / 256 % 4)
/-- The columns of the row that mdrain names, after the epilogue of g. -/
def drained (f : XT) (g : BitVec 2048) (c : Core) : List (Nat × FlagBits) :=
  (List.range 256).map fun j => drainElem c g (rowElem (tileRow c f.tile.toNat (f.arg.toNat % 256)) j) j
/-- Columns h, h + 2, … of a drained row. -/
def drainPart (ys : List (Nat × FlagBits)) (h : Nat) : VWord := buildV 32 fun p => (ys.getD (2 * p + h) (0, 0)).1
/-- Where in the scratchpad the row goes. -/
def drainOff (f : XT) (g : BitVec 2048) : Nat := ecOff g 2 + f.arg.toNat % 256 * ecOff g 3
/-- A drained row in the format of a bank. -/
def drainEnc (ys : List (Nat × FlagBits)) (fmt bank : Nat) (c : Core) : List (Nat × FlagBits) :=
  ys.map fun p => bankEncode fmt (bankMode c bank) (bankSat c bank) (f32.decode p.1)

section
variable (harg : f.arg.toNat < 1024) (hph : tilePhase c f.tile.toNat = 0) (ht : touchTile cu c f.tile.toNat false = .ok c1)
include harg hph ht

theorem mdrainBody_registers (hdk : ecDk (drainCfg f c) = false) :
    let g := drainCfg f c
    let ys := drained f g c1
    mdrainBody f cu c = .ok (emitFlags cu 12 0 ((List.range 256).map fun j => (j / 2, (ys.getD j (0, 0)).2))
      (emit cu 12 (.v (mapReg c1.arch.rot (ecVd g + 1)) (drainPart ys 1) (-1)) (emit cu 12 (.v (mapReg c1.arch.rot (ecVd g)) (drainPart ys 0) (-1)) c1))) := by
  unfold drainCfg at hdk
  unfold mdrainBody
  simp only [need_ok, harg, hph, decide_true, Bool.and_self, ht, LM_bind_ok, hdk, Bool.false_eq_true, if_false]
  rfl

theorem mdrainBody_scratchpad (hdk : ecDk (drainCfg f c) = true) :
    let g := drainCfg f c
    let ys := drained f g c1
    let off := drainOff f g
    let bank := off / 2 ^ 18
    let fmt := bankFmt c1 bank
    let bytes := 256 * bankWidth fmt / 8
    off + bytes ≤ 0x400000 → (off + bytes - 1) / 2 ^ 18 = bank → fmt ≠ 6 → logSpad cu c1 off bytes = .ok c2 →
    let enc := drainEnc ys fmt bank c2
    mdrainBody f cu c = .ok (emitFlags cu 20 0 ((List.range 256).map fun j => (j / 2, (ys.getD j (0, 0)).2 ||| (enc.getD j (0, 0)).2))
      (emit cu 20 (.spad [(off, bytes, 2 ^ bytes - 1, packElems (bankWidth fmt) (fun j => (enc.getD j (0, 0)).1) 256)]) c2)) := by
  intro g ys off bank fmt bytes hfit hbank hfmt hlog enc
  have hn : (decide (off + bytes ≤ 0x400000) && decide ((off + bytes - 1) / 2 ^ 18 = bank) && decide (fmt ≠ 6)) = true := by
    rw [decide_eq_true hfit, decide_eq_true hbank, decide_eq_true hfmt]
    rfl
  unfold mdrainBody
  simp only [need_ok, harg, hph, decide_true, Bool.and_self, ht, LM_bind_ok]
  refine (if_pos hdk).trans ?_
  exact (LM_bind_of_ok (need_ok hn)).trans (LM_bind_of_ok hlog)

end

end

/-- Settles O40: the row after the epilogue, by where its configuration sends it. -/
theorem matrixDrain : Obligations.MatrixDrain := by
  intro f s c1 hp harg hph ht
  refine ⟨fun hdk => ?_, fun hdk hfit hbank hfmt c2 hlog => ?_⟩
  · exact laneStep_leaves hp (mdrainBody_registers harg hph ht hdk)
  · exact laneStep_leaves hp (mdrainBody_scratchpad harg hph ht hdk hfit hbank hfmt hlog)

end Sys2Proof.Machine
end

