-- ==== Sys2Proof/Proofs/LoadsIssue.lean ====
section
/-! LAW. The loads of form MA, ldacq and vldx each come to one landing at their effective address (R359 to R362). -/
namespace Sys2Proof.Machine
open Sys2Proof.Claims

theorem exec_loadOps : ∀ e ∈ loadOps, ∀ (f : MA) (s : State), exec (e.1 f) s = laneStep s f.pr (loadMA f e.2.1 e.2.2.1 e.2.2.2 s) := by
  simp only [loadOps, List.forall_mem_cons, List.not_mem_nil, false_imp_iff, implies_true, and_true]
  and_intros <;> exact fun f s => rfl

section
variable {s : State} {c : Core}

/-- A landing of one effective address. -/
theorem issueReads_single (h : CanLand s c) (dest : LandDest) (ws : BitVec 1) (ea : EA) (n : Nat) (acq : Bool) :
    ∃ c', issueReads s s.cur c dest ws [(ea, n, 0)] acq (0, 0) = .ok c' ∧ landIssued s dest (ws = 1) (eaDev ea n 0) (eaSpad ea n 0) acq c c' := by
  obtain ⟨c', hc', hland⟩ := issueReads_issued h dest ws [(ea, n, 0)] acq (0, 0)
  rw [List.flatMap_singleton, List.flatMap_singleton] at hland
  exact ⟨c', hc', hland⟩

/-- A body that ends as the issue of one effective address is a load of it. -/
theorem laneStep_loads {pr : BitVec 6} {body : Cursor → Core → LM Core} {dest : LandDest} {ws : BitVec 1} {ea : EA} {n : Nat} {acq : Bool}
    (hp : Acts s pr) (hland : CanLand s (here s)) (hb : body s.cur (here s) = issueReads s s.cur (here s) dest ws [(ea, n, 0)] acq (0, 0)) :
    loads s dest ws ea n acq (laneStep s pr body) := by
  obtain ⟨c', hc', hiss⟩ := issueReads_single hland dest ws ea n acq
  exact ⟨c', laneStep_leaves hp (hb.trans hc'), hiss⟩

/-! ### Each body on legal fields -/

theorem loadMA_eq {f : MA} {n al : Nat} {dest : Nat → LandDest} {ea : EA} (hdt : f.dt.toNat ≤ 63)
    (ha : effAddr s.cur (maAddr f n c) n al false = .ok ea) :
    loadMA f n al dest s s.cur c = issueReads s s.cur c (dest (mapReg c.arch.rot f.dt.toNat)) f.ws [(ea, n, 0)] false (0, 0) := by
  simp only [loadMA, loadDst_register s.cur hdt, ha, LM_bind_ok]

theorem ldacqBody_eq {f : MA} {ea : EA} (hdt : f.dt.toNat ≤ 63) (hsc : (f.off.extractLsb' 10 3).toNat ≤ 4)
    (ha : effAddr s.cur (readS c f.bs.toNat + BitVec.ofInt 64 ((f.off.setWidth 10).toInt * 8)) 8 8 false = .ok ea) :
    ldacqBody f s s.cur c =
      issueReads s s.cur c (.acq (mapReg c.arch.rot f.dt.toNat) (f.off.extractLsb' 10 3).toNat) f.ws [(ea, 8, 0)] true (0, 0) := by
  simp only [ldacqBody, need_ok (decide_eq_true hsc), loadDst_register s.cur hdt, ha, LM_bind_ok]

theorem vldxBody_eq {f : MX} {ea : EA} (hfn : f.fn = 0) (hdt : f.dt.toNat ≤ 63) (ha : effAddr s.cur (mxAddr f c) 512 64 false = .ok ea) :
    vldxBody f s s.cur c = issueReads s s.cur c (.v (mapReg c.arch.rot f.dt.toNat)) f.ws [(ea, 512, 0)] false (0, 0) := by
  simp only [vldxBody, need_ok (decide_eq_true hfn), loadDst_register s.cur hdt, ha, LM_bind_ok]

end

/-- Settles O28: each body comes to the issue of one landing at the address of its form. -/
theorem loadsIssue : Obligations.LoadsIssue := by
  refine ⟨fun e he f s ea hp hdt hland ha => ?_, fun f s ea hp hdt hsc hland ha => ?_, fun f s ea hp hfn hdt hland ha => ?_⟩
  · rw [exec_loadOps e he]
    exact laneStep_loads hp hland (loadMA_eq hdt ha)
  · exact laneStep_loads hp hland (ldacqBody_eq hdt hsc ha)
  · exact laneStep_loads hp hland (vldxBody_eq hfn hdt ha)

end Sys2Proof.Machine
end

