-- ==== Sys2Proof/Proofs/SlotsAndStreams.lean ====
section
/-! LAW. Descriptor slots, stream ports, tile-fetch ports and channel bindings: what each body answers on legal fields (R364 to R367, R371 to R374). -/
namespace Sys2Proof.Machine
open Sys2Proof.Claims

/-! ### Descriptor slots (R364 to R367) -/

section
variable {f : MX} {s : State} {c c1 c2 : Core} {d : BitVec 2048}

theorem dldBody_eq (hdt : f.dt.toNat < 32) (hix : f.ix = 0) (hfn : f.fn = 0) (hws : f.ws = 0) (hal : (readS c f.bs.toNat).toNat % 8 = 0)
    (ha : (readS c f.bs.toNat).toNat < 2 ^ 56) :
    dldBody f s s.cur c =
      issueReads s s.cur c (.slot f.dt.toNat (readS c f.bs.toNat)) 0 [(.dev (readS c f.bs.toNat).toNat, 256, 0)] false (0, 0) := by
  simp only [dldBody, need_ok, hdt, hix, hfn, hws, hal, decide_true, Bool.and_self, BEq.rfl, LM_bind_ok]
  exact if_neg (Nat.not_le.mpr ha)

theorem devictBody_ok (hslot : Slot c f.bs d) (hdt : f.dt = 0) (hix : f.ix = 0) (hfn : f.fn = 0) (hws : f.ws = 0) :
    devictBody f s.cur c = .ok (emit s.cur 1 (.slot f.bs.toNat none) c) := by
  simp only [devictBody, need_ok, hdt, hix, hfn, hws, decide_true, Bool.and_self, slotOf_ok s.cur hslot, LM_bind_ok]

theorem dgetBody_eq (hslot : Slot c f.bs d) (hfn : f.fn.toNat < 32) (hix : f.ix = 0) (hdt : f.dt.toNat ≤ 63) :
    dgetBody f s.cur c = writeS s.cur f.dt f.ws 1 (BitVec.ofNat 64 (dWord d f.fn.toNat)) c := by
  simp only [dgetBody, need_ok, hfn, hix, decide_true, Bool.and_self, loadDst_register s.cur hdt, slotOf_ok s.cur hslot, LM_bind_ok]

/-- A slot image whose relayout to tag t at address a has begun (R208, R366). -/
def relaid (d : BitVec 2048) (t a : Nat) : BitVec 2048 := dSetWord (dSetBits (dSetBits d 45 6 t) 51 1 1) 9 a

theorem relayBody_ok (hslot : Slot c f.bs d) (hfn : f.fn.toNat < 64) (hdt : f.dt = 0) (hws : f.ws = 0) (hrly : dRly d = false) (hrsh : dRsh d = false)
    (htag : tagOk d f.fn.toNat = true) (ha : (readS c f.ix.toNat).toNat < 2 ^ 56) :
    relayBody f s.cur c = .ok (withPost (emit s.cur 1 (.slot f.bs.toNat (some (relaid d f.fn.toNat (readS c f.ix.toNat).toNat))) c)
      (.relay (relaid d f.fn.toNat (readS c f.ix.toNat).toNat))) := by
  simp only [relayBody, need_ok, hfn, hdt, hws, hrly, hrsh, htag, ha, decide_true, Bool.not_false, Bool.and_self, slotOf_ok s.cur hslot, LM_bind_ok]
  rfl

theorem reshardBody_eq {nb : Word} (hslot : Slot c f.bs d) (hfn : f.fn = 0) (hws : f.ws = 0) (hix : f.ix.toNat % 2 = 0)
    (hnb : resolveS s.cur f.dt c = .ok (nb, c1)) (hal : (readS c f.ix.toNat).toNat % 64 = 0) (ha : (readS c f.ix.toNat).toNat < 2 ^ 56) :
    reshardBody f s s.cur c = issueReads s s.cur c1 (.map f.bs.toNat nb (readS c (f.ix.toNat + 1)) (readS c f.ix.toNat)) 0
      [(.dev (readS c f.ix.toNat).toNat, 64, 0)] false (0, 0) := by
  simp only [reshardBody, need_ok, hfn, hws, hix, hal, decide_true, Bool.and_self, BEq.rfl, slotOf_ok s.cur hslot, hnb, LM_bind_ok]
  exact if_neg (Nat.not_le.mpr ha)

end

/-! ### Stream ports, tile-fetch ports and channels (R371 to R374) -/

/-- The binding that the bits of a cbind's source give: a circuit to send on and one to receive on, each with its enable (R374). -/
def chanOf (v : Word) : ChanBind := ⟨v.toNat % 4096, v.getLsbD 12, v.toNat / 2 ^ 13 % 4096, v.getLsbD 25, false, false⟩

section
variable {f : MX} {cu : Cursor} {c c1 : Core} (hbs : f.bs = 0) (hix : f.ix = 0)
include hbs hix

theorem sposBody_eq {p : Port} (hfn : f.fn.toNat < 8) (hdt : f.dt.toNat ≤ 63) (hport : FMap.find c.arch.ports f.fn.toNat = some p) :
    sposBody f cu c = writeS cu f.dt f.ws 1
      (BitVec.ofNat 64 (movedAt cu p % 2 ^ 32 + min (patTotal (patFmtOf c p.img) p.img) (2 ^ 32 - 1) * 2 ^ 32)) c := by
  simp only [sposBody, need_ok, hfn, hbs, hix, decide_true, Bool.and_self, loadDst_register cu hdt, hport, LM_bind_ok]

variable (hws : f.ws = 0)
include hws

theorem sbindBody_ok {v : VWord} (hfn : f.fn.toNat < 8) (hv : resolveV cu f.dt c = .ok (v, c1)) (hpat : patOk c1 false (v.setWidth 768) = true)
    (hpart : patPartial c1 (v.setWidth 768) = false) : sbindBody f cu c = .ok (emit cu 1 (.port f.fn.toNat (.bind (v.setWidth 768))) c1) := by
  simp only [sbindBody, need_ok, hfn, hbs, hix, hws, decide_true, Bool.and_self, hv, hpat, LM_bind_ok]
  exact if_neg (ne_true_of_eq_false hpart)

theorem sunbindBody_ok (hfn : f.fn.toNat < 8) (hdt : f.dt = 0) : sunbindBody f cu c = .ok (emit cu 1 (.port f.fn.toNat .unbind) c) := by
  simp only [sunbindBody, need_ok, hfn, hbs, hix, hdt, hws, decide_true, Bool.and_self, LM_bind_ok]

theorem sfillBody_ok {v : Word} (hfn : f.fn.toNat < 8) (hv : resolveS cu f.dt c = .ok (v, c1))
    (hport : (FMap.find c1.arch.ports f.fn.toNat).isSome) : sfillBody f cu c = .ok (emit cu 1 (.port f.fn.toNat (.fill (v.setWidth 32))) c1) := by
  obtain ⟨p, hp⟩ := Option.isSome_iff_exists.mp hport
  simp only [sfillBody, need_ok, hfn, hbs, hix, hws, decide_true, Bool.and_self, hv, hp, LM_bind_ok]

/-- FN bit 1 clear: the port FN takes the pattern of its register (R373). -/
theorem tfcfgBody_bind {v : VWord} (hfn : f.fn.toNat < 2) (hv : resolveV cu f.dt c = .ok (v, c1)) (hpat : patOk c1 true (v.setWidth 768) = true)
    (hpart : patPartial c1 (v.setWidth 768) = false) : tfcfgBody f cu c = .ok (emit cu 1 (.tfcfg f.fn.toNat (some (v.setWidth 768))) c1) := by
  have hn : (decide (f.fn.toNat < 4) && f.bs = 0 && f.ix = 0 && f.ws = 0) = true := by simp [hbs, hix, hws]; omega
  simp only [tfcfgBody, need_ok hn, LM_bind_ok, if_neg (Nat.not_le.mpr hfn), hv, need_ok hpat, hpart, Nat.mod_eq_of_lt hfn]
  rfl

/-- FN bit 1 set: the port FN[0] is disabled (R373). -/
theorem tfcfgBody_disable (h2 : 2 ≤ f.fn.toNat) (h4 : f.fn.toNat < 4) (hdt : f.dt = 0) :
    tfcfgBody f cu c = .ok (emit cu 1 (.tfcfg (f.fn.toNat - 2) none) c) := by
  have hport : f.fn.toNat % 2 = f.fn.toNat - 2 := by omega
  simp only [tfcfgBody, need_ok, h4, hbs, hix, hws, hdt, decide_true, Bool.and_self, LM_bind_ok, if_pos h2, hport]

variable (hck : cu.ckpt = true)
include hck

theorem cbindBody_ok {v : Word} (hfn : f.fn.toNat < 4) (hv : resolveS cu f.dt c = .ok (v, c1)) (hlt : v.toNat < 2 ^ 26) :
    cbindBody f cu c = .ok { c1 with arch := { c1.arch with
      chans := FMap.put c1.arch.chans f.fn.toNat (chanOf v), brk := c1.arch.brk &&& ~~~((1 : BitVec 4) <<< f.fn.toNat) } } := by
  simp only [cbindBody, need_ok, hfn, hbs, hix, hws, hck, decide_true, Bool.and_self, hv, hlt, LM_bind_ok]
  rfl

theorem cunbindBody_ok (hfn : f.fn.toNat < 4) (hdt : f.dt = 0) :
    cunbindBody f cu c = .ok { c with arch := { c.arch with chans := FMap.erase c.arch.chans f.fn.toNat } } := by
  simp only [cunbindBody, need_ok, hfn, hbs, hix, hdt, hws, hck, decide_true, Bool.and_self, LM_bind_ok]

end

/-- Settles O30: dld and reshard each come to one landing; every other body to its one result, post or binding. -/
theorem slotsAndStreams : Obligations.SlotsAndStreams := by
  refine ⟨fun f s hp => ⟨fun hdt hix hfn hws hal ha hland => ?_, fun d hslot => ⟨fun hdt hix hfn hws => ?_, fun hfn hix hdt c2 hd => ?_,
      fun hfn hdt hws hrly hrsh htag ha => ?_, fun hfn hws hix nb c1 hnb hland hal ha => ?_⟩⟩,
    fun f s hp hbs hix => ⟨fun hws hfn v c1 hv hpat hpart => ?_, fun hws hfn hdt => ?_, fun hfn hdt p hport c2 hd => ?_,
      fun hws hfn v c1 hv hport => ?_, fun hws hfn v c1 hv hpat hpart => ?_, fun hws h2 h4 hdt => ?_, fun hws hfn hck v c1 hv hlt => ?_,
      fun hws hfn hck hdt => ?_⟩⟩
  · exact laneStep_loads hp hland (dldBody_eq hdt hix hfn hws hal ha)
  · exact laneStep_leaves hp (devictBody_ok hslot hdt hix hfn hws)
  · exact laneStep_leaves hp ((dgetBody_eq hslot hfn hix hdt).trans hd)
  · exact laneStep_leaves hp (relayBody_ok hslot hfn hdt hws hrly hrsh htag ha)
  · obtain ⟨c', hc', hiss⟩ := issueReads_single hland
      (.map f.bs.toNat nb (readS (here s) (f.ix.toNat + 1)) (readS (here s) f.ix.toNat)) 0
      (.dev (readS (here s) f.ix.toNat).toNat) 64 false
    exact ⟨c', laneStep_leaves hp ((reshardBody_eq hslot hfn hws hix hnb hal ha).trans hc'), hiss⟩
  · exact laneStep_leaves hp (sbindBody_ok hbs hix hws hfn hv hpat hpart)
  · exact laneStep_leaves hp (sunbindBody_ok hbs hix hws hfn hdt)
  · exact laneStep_leaves hp ((sposBody_eq hbs hix hfn hdt hport).trans hd)
  · exact laneStep_leaves hp (sfillBody_ok hbs hix hws hfn hv hport)
  · exact laneStep_leaves hp (tfcfgBody_bind hbs hix hws hfn hv hpat hpart)
  · exact laneStep_leaves hp (tfcfgBody_disable hbs hix hws h2 h4 hdt)
  · exact laneStep_leaves hp (cbindBody_ok hbs hix hws hck hfn hv hlt)
  · exact laneStep_leaves hp (cunbindBody_ok hbs hix hws hck hfn hdt)

end Sys2Proof.Machine
end
